-- ==== Sys2Proof/Word.lean ====
section
/-! DEFINITION. Words of the machine and their plainest arithmetic: a 64-bit register or memory word (R5, R8), a 64-byte
granule (R38) and a byte. Bit 0 is the least significant bit. -/
namespace Sys2Proof

abbrev Byte := BitVec 8
abbrev Word := BitVec 64
/-- A granule: one 64 B slot (R38), byte i in bits [8i + 7 : 8i]. -/
abbrev Granule := BitVec 512
/-- A data slot with its sideband word (R39). -/
abbrev DataSlot := BitVec 32 × Granule
/-- One 32 B sector, byte i in bits [8i + 7 : 8i]. -/
abbrev SectorData := BitVec 256
/-- A finite map held as plain data: (key, value) pairs with strictly rising keys. -/
abbrev Table (α : Type) := List (Nat × α)

end Sys2Proof
end

