-- ==== Sys2Proof/Syntax.lean ====
section
/-! DEFINITION. The commands of the device: one constructor of Instr per row of spec/opcode_table.json, with the operands
that the row's rule gives it. A header is the 16 B of R41 as they arrive; a granule is one data slot. Port, stack,
pseudo-channel and similar numbers are plain naturals, and WellFormed.lean gives their ranges.
What the parties outside the device contribute to a step (what a stack answers in training, a sensor's reading, the
enclave's keys, the hub's lifecycle state) is an operand of that step (log entry 6). -/
namespace Sys2Proof

/-- What a stack shows the device while it is trained (R234, R235, R242; the stack lies outside the device, R2). -/
structure StackReport where
  /-- a stack answers at step 2 of R234 -/
  present : Bool
  /-- its identity, in the layout of SC_STACK_ID (R257) -/
  ident : BitVec 64
  /-- the stack lost power, and with it its lane registers and epoch bytes (R229) -/
  laneLost : Bool
  /-- lanes found bad at step 4: (channel, group, lane) -/
  bad : List (Nat × Nat × Nat)
  /-- channels that fail step 6 after lane repair (R235) -/
  dead : List Nat
  /-- failing steps of the attempts that fail before one succeeds (R235); three of them end in FAILED -/
  fails : List Nat
  /-- temperature in °C, read through the maintenance port -/
  temp : Int
  /-- duration of the training, µs (R255) -/
  trainUs : Nat
  deriving DecidableEq, Repr, Inhabited

/-- What the maintenance work of a RETRAIN packet comes to (R249): the time it takes, and the lanes (group, lane) that the lane test of
scope 2 finds bad. -/
structure MaintReport where
  ns : Nat
  bad : List (Nat × Nat)
  deriving DecidableEq, Repr, Inhabited

/-- What the parties outside the device contribute to a cold or warm bring-up (R517, R520). -/
structure BringUp where
  /-- the fuse block F0 to F7 (R439) -/
  fuse : List (BitVec 64)
  /-- the eight stacks, in order -/
  reports : List StackReport
  /-- the hub's lifecycle state, as LC_QUERY returns it in C5 (R470) -/
  hub : Nat
  /-- keys that the enclave loads in C5 or W5: (slot, key) -/
  keys : List (Nat × BitVec 512)
  deriving DecidableEq, Repr

/-- The commands: one constructor per row of the table, in the table's order. -/
inductive Instr where
  | coldReset (bu : BringUp)
  | hubWarmReset (bu : BringUp)
  | warmResetRequest (path : Nat) (bu : BringUp)
  | sysinit
  | noKeyTimeout
  | btLockSet (path : Nat)
  | registerWrite (path off size : Nat) (val : Word)
  | read (n : Nat) (hdr : BitVec 128)
  | write (n : Nat) (hdr : BitVec 128) (data : List DataSlot)
  | writeMasked (n : Nat) (hdr ext : BitVec 128) (data : DataSlot)
  | atomic (n : Nat) (hdr : BitVec 128) (data : DataSlot)
  | apertureWrite (n : Nat) (hdr : BitVec 128) (data : List DataSlot)
  | malformedFlit (n : Nat) (slots : BitVec 16)
  | responseCreditGrant (n k : Nat)
  | fenceHoldRelease (n id : Nat)
  | tenantRelease (n : Nat)
  | wheelSlot
  | creditReserve (n id : Nat)
  | pccAdmit (pc : Nat)
  | act (pc : Nat)
  | pre (pc : Nat)
  | rd (pc : Nat)
  | wr (pc : Nat)
  | refpb (pc : Nat)
  | escapementTick (pc : Nat)
  | readReturn (pc : Nat) (noise : List (Nat × Byte)) (sticky : Bool)
  | ueReread (pc : Nat) (noise : List (Nat × Byte)) (sticky : Bool)
  | ceLeak (pc : Nat)
  | mergeRelease (pc : Nat)
  | frameStart (n : Nat)
  | portReset (n : Nat)
  | portResetRelease (n prev : Nat)
  | portReady (n : Nat)
  | portEnable (path n : Nat)
  | portDisable (path n : Nat)
  | portDrainDone (n : Nat)
  | farResponse (ft tag : Nat) (poison : Bool) (data : List Granule)
  | farTimeout (ft tag : Nat)
  | parsePacket (n : Nat)
  | progressWrite (n q : Nat)
  | progressRetry (n q : Nat)
  | fwQueueAdmit (id : Nat)
  | packetCommit (id : Nat)
  | copy (id k : Nat) (ahead : List Nat)
  | fill (id k : Nat) (ahead : List Nat)
  | copyChannelStart (id : Nat)
  | scrub (id : Nat)
  | migrate (id k : Nat) (ahead : List Nat)
  | streamOpen (id : Nat)
  | streamAppend (id : Nat)
  | streamClose (id : Nat)
  | streamEvict (id : Nat)
  | attnPartial (id : Nat)
  | attnSelect (id : Nat)
  | attnMerge (id : Nat) (order : List Nat)
  | engineBlockDeal (id cl e : Nat)
  | lossWalk (s : Nat)
  | tensorMap (id : Nat)
  | tensorPin (id : Nat)
  | tensorUnpin (id : Nat)
  | prefetch (id : Nat)
  | segmentFetchStart
  | segmentFetchDone (seg : Nat)
  | recipeLoad (id : Nat)
  | recipeRun (id : Nat)
  | recipeSlotFree (slot : Nat)
  | iterationStart (cl core : Nat)
  | iterationDone (cl core : Nat)
  | streamFetch (cl core e src : Nat)
  | endStep (cl core : Nat)
  | loopStep (cl core : Nat)
  | endlStep (cl core : Nat)
  | loadStep (cl core : Nat)
  | macStep (cl core : Nat)
  | rmaxStep (cl core : Nat)
  | expStep (cl core : Nat)
  | scaleStep (cl core : Nat)
  | topnStep (cl core : Nat)
  | storeStep (cl core : Nat)
  | emitStep (cl core : Nat)
  | clusterReset (cl : Nat)
  | clusterResetDone (cl : Nat)
  | coreEnable (cl : Nat) (mask : BitVec 16)
  | retire (id : Nat)
  | repair (id : Nat)
  | retrain (id : Nat) (maint : MaintReport)
  | oppoint (id : Nat) (stallNs : Nat)
  | abort (id : Nat)
  | fence (id : Nat)
  | fenceDone (id : Nat)
  | checkArm (id : Nat)
  | checkRead (id : Nat)
  | fwTrap (k addr : Nat)
  | fwReloadDone (k src : Nat)
  | ringEnable (path n q : Nat)
  | ringDisable (path n q : Nat)
  | ringRestart (path n q : Nat)
  | sreset (s : Nat) (rep : StackReport)
  | clockLoss (s : Nat) (rep : StackReport)
  | caParityError (s c : Nat)
  | retrainPass (s c : Nat) (badLane : Option (Nat × Nat))
  | retrainDeferExpire (s c : Nat)
  | stackTempRead (s : Nat) (temp : Int)
  | stackTempStale (s : Nat)
  | laneRepair (s c g lane done : Nat)
  | softRepair (s idx : Nat)
  | rowRemap (s p bank row : Nat)
  | bankSpare (s p bank : Nat)
  | autoRetire (pc : Nat)
  | patrolScrub (s : Nat)
  | srefEntry (s : Nat)
  | srefExit (s : Nat)
  | mapDescWrite (path : Nat)
  | mapApply (path : Nat)
  | mapSnapshot (path idx : Nat)
  | grSnapshot (path id : Nat)
  | dirSnapshot (path seg : Nat)
  | remapSnapshot (path s idx : Nat)
  | tqSnapshot (tenant : Nat)
  | tqConfig (val : Word)
  | gateEnable (n : Nat)
  | gateDisable (n : Nat)
  | gateSwap (n : Nat)
  | gateSwapTake (n : Nat)
  | arbRequest (i j : Nat)
  | arbDrop (i j : Nat)
  | arbGrant (i : Nat)
  | arbSeize (i : Nat)
  | arbRevoke (i : Nat)
  | watchdogBite (i : Nat)
  | quotaWindow (i : Nat)
  | prioWrite (i j prio quota : Nat)
  | interp3Rerequest
  | sensorConversion (readings : List (Option Int))
  | throttleDwell (z : Nat)
  | comparatorTrip (s : Nat)
  | thermalRestart (bu : BringUp)
  | failAck (zones : Nat)
  | hairspringCalibrate (count : Nat)
  | powerEstimate (w : Nat)
  | powerWindowExpire
  | powerSkipRelax
  | powerWindowRearm
  | powerGrantWithdraw
  | vddFall
  | vddRestore (bu : BringUp)
  | vaonLoss
  | hoursTick
  | nvmWordWrite (addr : Nat) (val : Word)
  | keyLoad (slot : Nat) (key : BitVec 512)
  | keyClear (slot : Nat)
  | keyClearDone (slot : Nat)
  | lcQuery (hub : Nat)
  | lcChange (target : Nat)
  | dbgGrant (level life : Nat)
  | dbgRevoke
  | debugExpire
  | logClear (target nonce : Nat)
  | logClearRequest (target : Nat)
  | nonceExpire
  | clearZeroingDone
  | recordWrite
  | pmcWrite (i : Nat) (val : Word)
  | pmcClearAll
  | pmcWrap (i k : Nat)
  | pmcConfig (i : Nat) (val : Word)
  | publication
  | monSnap (clr : Bool)
  | levelSample (v : Nat)
  | setEndpointId (eid : Nat)
  | getEndpointId
  | getEndpointUuid
  | getMctpVersionSupport
  | getMessageTypeSupport
  | regRead (off : Nat)
  | regWrite (off : Nat) (val : Word)
  | entdaa (addr : Nat)
  | hotJoin
  | registerRead (path off size : Nat)
  | farCreditReturn (ft hdr wdat : Nat)
  | powerGrant (w : Nat)
  | debugHalt (k op addr : Nat) (val : Word)
  deriving DecidableEq, Repr

end Sys2Proof
end

