-- ==== Sys2Proof/Decode.lean ====
section
/-! DEFINITION. Commands from table words. spec/opcode_table.json gives no row any bits, so a word never spells a command.
The layouts of requests, packets and steps are read where they arrive: Machine/Ports, Machine/Parse and Machine/Recipes. -/
namespace Sys2Proof

/-- The command that a word spells by the table's bits: none, for no row has bits (log entry 2). -/
def decodeTableWord (_nbits _w : Nat) : Option Instr := none

end Sys2Proof
end

