-- ==== Sys2Proof/Config.lean ====
section
/-! DEFINITION. What the spec leaves open: free values. Each is a constant without a body, so nothing can be proved about
its value. The state's counter State.free selects a fresh value each time one is drawn (log entry 7). -/
namespace Sys2Proof.Config

/-- Bytes of a granule that the spec calls undefined (R57, R58, R311). -/
opaque freeGranule : Nat → BitVec 512
/-- The nonce of a log-clear request (R491). -/
opaque freeNonce : Nat → BitVec 32
/-- A number that the spec leaves open. -/
opaque freeNat : Nat → Nat
/-- The slice number that an engine of a cluster puts into its tuples for diagnosis (R170). -/
opaque sliceTag : Nat → Nat → Nat
/-- Soft and hard spare rows of each bank of a stack (R247, R248): a property of the stacks. -/
opaque softSpares : Nat → Nat
opaque hardSpares : Nat → Nat
/-- Error of an exponent result, in units in the last place, from the sum of both operands' bits: the spec bounds it by 2
and states no value (R115). Its reader reduces it to the range -2 to 2. -/
opaque expError : Nat → Nat → Int

/-- FP32 value that a step of one element per lane reads from a latch loaded in dual mode, from the lane's two elements:
the spec states no result there (R116, R120). -/
opaque dualRead : Nat → Nat → BitVec 32
/-- Score and index that STORE TOPN writes to a lane below N for which the list holds no pair (R125). -/
opaque topScore : Nat → BitVec 32
opaque topIndex : Nat → BitVec 32

/-- What a stack shows in the training that a bare write of SC_LINK_CTL.sreset starts: the write carries no report (R245, R254). -/
opaque freeReport : Nat → StackReport
/-- Steps of the built-in recipe in slot 0 to 31 of the firmware image in use (R136). -/
opaque builtIn : Nat → List (BitVec 64)
/-- A word of an interpreter's memory as the patch image leaves it (R95, R475): Farorn's firmware, not given. -/
opaque fwImage : Nat → Nat → BitVec 64
/-- Version of the patch image (R98). -/
opaque imageVer : Nat
/-- The factory trim of the hairspring loop (R416, R436). -/
opaque factoryTrim : Nat
/-- Farorn's MIPI manufacturer ID (R522), and the versions that Get MCTP Version Support names (R524). -/
opaque mipiId : Nat
opaque mctpVersions : List Nat

end Sys2Proof.Config
end

