-- ==== Sys2Proof/Machine/Util.lean ====
section
/-! DEFINITION. Small helpers over plain data: finite tables, bit fields, byte and word views of a granule, saturating
and wrapping arithmetic. Multi-byte fields are little-endian (R5). -/
namespace Sys2Proof.Machine

/-- The entry of key k. -/
def tfind {α : Type} : Table α → Nat → Option α
  | [], _ => none
  | (a, v) :: r, k => if a = k then some v else tfind r k

/-- The entry of key k, or d. -/
def tget {α : Type} (d : α) (m : Table α) (k : Nat) : α := (tfind m k).getD d

/-- The table without key k. -/
def tdel {α : Type} : Table α → Nat → Table α
  | [], _ => []
  | (a, v) :: r, k => if a = k then tdel r k else (a, v) :: tdel r k

/-- The table with key k holding v; keys stay in rising order. -/
def tset {α : Type} : Table α → Nat → α → Table α
  | [], k, v => [(k, v)]
  | (a, w) :: r, k, v =>
    if a < k then (a, w) :: tset r k v
    else if a = k then (k, v) :: r
    else (k, v) :: (a, w) :: r

/-- The table with key k holding v, where an absent key stands for d: a value equal to d is not listed. -/
def tput {α : Type} [DecidableEq α] (d : α) (m : Table α) (k : Nat) (v : α) : Table α :=
  if v = d then tdel m k else tset m k v

/-- The canonical form of a table: keys strictly rising. -/
def trising {α : Type} : Table α → Bool
  | [] => true
  | [_] => true
  | (a, _) :: (b, w) :: r => decide (a < b) && trising ((b, w) :: r)

/-- Bits [lo + w - 1 : lo] of a number. -/
def bits (x lo w : Nat) : Nat := (x >>> lo) % 2 ^ w

/-- Bit i of a number. -/
def bit (x i : Nat) : Bool := bits x i 1 = 1

/-- 1 or 0. -/
def b2n (b : Bool) : Nat := if b then 1 else 0

/-- x with bits [lo + w - 1 : lo] replaced by v. -/
def setBits (x lo w v : Nat) : Nat :=
  x - (bits x lo w <<< lo) + ((v % 2 ^ w) <<< lo)

/-- Saturating count in w bits. -/
def satAdd (w x n : Nat) : Nat := min (x + n) (2 ^ w - 1)

/-- Rounded-up quotient; 0 for a zero divisor. -/
def ceilDiv (a b : Nat) : Nat := if b = 0 then 0 else (a + b - 1) / b

/-- Number of set bits below w. -/
def popcount (w x : Nat) : Nat := ((List.range w).filter fun i => bit x i).length

/-- Stacks of a selection as a mask. -/
def stackMask (f : Nat → Bool) : Nat := (List.range 8).foldl (fun m k => if f k then setBits m k 1 1 else m) 0

/-- Index of the k-th set bit (from 0) below w. -/
def nthSet (w x k : Nat) : Nat := (((List.range w).filter fun i => bit x i)[k]?).getD 0

/-- Byte i of a granule. -/
def gByte (g : Granule) (i : Nat) : Byte := g.extractLsb' (8 * i) 8
/-- The 32-bit word at byte i of a granule. -/
def g32 (g : Granule) (i : Nat) : Nat := (g.extractLsb' (8 * i) 32).toNat
/-- The 64-bit word at byte i of a granule. -/
def g64 (g : Granule) (i : Nat) : Nat := (g.extractLsb' (8 * i) 64).toNat
/-- Sector h (0 or 1) of a granule. -/
def gSector (g : Granule) (h : Nat) : SectorData := g.extractLsb' (256 * h) 256
/-- A granule of two sectors. -/
def gJoin (lo hi : SectorData) : Granule := hi ++ lo

/-- The granule with the n bytes from byte i replaced by the low bytes of v. -/
def gPut (g : Granule) (i n v : Nat) : Granule :=
  BitVec.ofNat 512 (setBits g.toNat (8 * i) (8 * n) v)

/-- The granule of a list of 64-bit words, the first at byte 0. -/
def gOfWords (ws : List Nat) : Granule :=
  BitVec.ofNat 512 (ws.foldr (fun w acc => (acc <<< 64) + w % 2 ^ 64) 0)

/-- Overlay: byte i is that of new where mask bit i is set, else that of old. -/
def gMerge (old new : Granule) (mask : Nat) : Granule :=
  BitVec.ofNat 512 ((List.range 64).foldr
    (fun i acc => (acc <<< 8) + (if bit mask i then gByte new i else gByte old i).toNat) 0)

/-- Two's complement reading of a w-bit number. -/
def sInt (w x : Nat) : Int := if x % 2 ^ w < 2 ^ (w - 1) then (x % 2 ^ w : Nat) else (x % 2 ^ w : Nat) - (2 ^ w : Nat)

/-- The w-bit two's complement of an integer. -/
def ofInt (w : Nat) (x : Int) : Nat := (x % (2 ^ w : Nat)).toNat

/-- The list with entry i replaced. -/
def lset {α : Type} (l : List α) (i : Nat) (v : α) : List α := l.set i v

/-- The smallest number of a list above or equal to 0 by a key; none for an empty list. -/
def minBy {α : Type} (f : α → Nat) : List α → Option α
  | [] => none
  | a :: r => match minBy f r with
    | none => some a
    | some b => if f b < f a then some b else some a

/-- Sum of a list of numbers. -/
def sumBy {α : Type} (f : α → Nat) (l : List α) : Nat := l.foldl (fun a x => a + f x) 0

/-- Largest of a list of numbers, 0 when empty. -/
def maxBy {α : Type} (f : α → Nat) (l : List α) : Nat := l.foldl (fun a x => max a (f x)) 0

/-- The table's keys that satisfy a test on key and value, removed. -/
def tfilter {α : Type} (m : Table α) (p : Nat → α → Bool) : Table α := m.filter fun e => p e.1 e.2

/-- Every value of the table mapped. -/
def tmap {α : Type} (m : Table α) (f : Nat → α → α) : Table α := m.map fun e => (e.1, f e.1 e.2)

/-- CRC step of one byte, most significant bit first, no reflection: register width w, polynomial poly. -/
def crcByte (w poly : Nat) (reg b : Nat) : Nat :=
  (List.range 8).foldl (fun r i =>
    let top := bit r (w - 1) != bit b (7 - i)
    let r' := (r * 2) % 2 ^ w
    if top then r' ^^^ poly else r') reg

end Sys2Proof.Machine
end

