-- ==== Sys2Proof/Machine/Float.lean ====
section
/-! DEFINITION. Number formats and arithmetic (R109 to R115): exact values, rounding to nearest even, the conversions of
R112, MX blocks and tiles, and the exponent unit. -/
namespace Sys2Proof.Machine

/-- An exact value (R111): NaN, a signed infinity, or ± m × 2^e; a zero keeps its sign. -/
inductive XVal where
  | nan
  | inf (neg : Bool)
  | fin (neg : Bool) (m : Nat) (e : Int)
  deriving DecidableEq, Repr

def XVal.zero : XVal := .fin false 0 0

def XVal.isZero : XVal → Bool
  | .fin _ 0 _ => true
  | _ => false

def XVal.isFin : XVal → Bool
  | .fin _ _ _ => true
  | _ => false

def XVal.neg? : XVal → Bool
  | .nan => false
  | .inf n => n
  | .fin n _ _ => n

/-- A binary format (R109): p significant bits, exponent of the last place of a subnormal, largest finite code, and code
width. -/
structure Fmt where
  w : Nat
  p : Nat
  emin : Int
  maxCode : Nat
  /-- the code after the largest finite one is an infinity -/
  hasInf : Bool
  /-- codes above the finite ones and infinity are NaN -/
  hasNan : Bool
  deriving DecidableEq, Repr

def fp32 : Fmt := ⟨32, 24, -149, 0x7F7FFFFF, true, true⟩
def bf16 : Fmt := ⟨16, 8, -133, 0x7F7F, true, true⟩
def e4m3 : Fmt := ⟨8, 4, -9, 0x7E, false, true⟩
def e5m2 : Fmt := ⟨8, 3, -16, 0x7B, true, true⟩
def e3m2 : Fmt := ⟨6, 3, -4, 0x1F, false, false⟩
def e2m3 : Fmt := ⟨6, 4, -3, 0x1F, false, false⟩
def e2m1 : Fmt := ⟨4, 2, -1, 0x7, false, false⟩

/-- Element format of an fmt code (R109). -/
def eltFmt : Nat → Fmt
  | 0 => fp32 | 1 => bf16 | 2 => e4m3 | 3 => e5m2 | 4 => e4m3 | 5 => e5m2 | 6 => e3m2 | 7 => e2m3 | _ => e2m1

/-- The fmt codes with block scales. -/
def isMx (fmt : Nat) : Bool := decide (4 ≤ fmt) && decide (fmt ≤ 8)

/-- emax of R113. -/
def mxEmax : Nat → Int
  | 4 => 8 | 5 => 15 | 6 => 4 | 7 => 2 | _ => 2

/-- The value of a code of a format (R109). -/
def Fmt.decode (f : Fmt) (c : Nat) : XVal :=
  let neg := bit c (f.w - 1)
  let mag := c % 2 ^ (f.w - 1)
  if mag > f.maxCode then
    if f.hasInf && mag = f.maxCode + 1 then .inf neg else .nan
  else
    let ef := mag >>> (f.p - 1)
    let mf := mag % 2 ^ (f.p - 1)
    if ef = 0 then .fin neg mf f.emin else .fin neg (2 ^ (f.p - 1) + mf) (f.emin + (ef : Int) - 1)

/-- Magnitude m × 2^e rounded to nearest even with p bits and last place not below emin: the code without sign
(R112). -/
def roundMag (p : Nat) (emin : Int) (m : Nat) (e : Int) : Nat :=
  if m = 0 then 0 else
  let top : Int := (Nat.log2 m : Int) + e
  let k : Int := max emin (top - ((p : Int) - 1))
  let q : Nat :=
    if k ≤ e then m <<< (e - k).toNat
    else
      let sh := (k - e).toNat
      let q0 := m >>> sh
      let r := m % 2 ^ sh
      let half := 2 ^ (sh - 1)
      if r > half || (r = half && q0 % 2 = 1) then q0 + 1 else q0
  (k - emin).toNat * 2 ^ (p - 1) + q

/-- R112: a value converted to a format: the code, and whether a saturation is counted. NaN and infinity of an element
format without them give the largest element here; the block scale carries them (R113). -/
def Fmt.encode (f : Fmt) (v : XVal) : Nat × Bool :=
  let sg := fun (n : Bool) (c : Nat) => b2n n * 2 ^ (f.w - 1) + c
  match v with
  | .nan =>
    if f.hasNan then (if f = fp32 then 0x7FC00000 else if f = bf16 then 0x7FC0 else 0x7F, false) else (f.maxCode, false)
  | .inf n => if f.hasInf then (sg n (f.maxCode + 1), false) else (sg n f.maxCode, true)
  | .fin n m e =>
    let c := roundMag f.p f.emin m e
    if c > f.maxCode then (if f = fp32 || f = bf16 then (sg n (f.maxCode + 1), false) else (sg n f.maxCode, true))
    else (sg n c, false)

/-- Value of an FP32 word. -/
def x32 (w : Nat) : XVal := fp32.decode w
/-- FP32 word nearest to a value. -/
def r32 (v : XVal) : Nat := (fp32.encode v).1

/-- Exact product (IEEE 754 for NaN, infinities and the sign of zero). -/
def XVal.mul (a b : XVal) : XVal :=
  match a, b with
  | .nan, _ => .nan
  | _, .nan => .nan
  | .inf n, .inf m => .inf (n != m)
  | .inf n, .fin m k _ => if k = 0 then .nan else .inf (n != m)
  | .fin m k _, .inf n => if k = 0 then .nan else .inf (n != m)
  | .fin n a e, .fin m b f => .fin (n != m) (a * b) (e + f)

/-- Exact sum; an exact cancellation gives +0. -/
def XVal.add (a b : XVal) : XVal :=
  match a, b with
  | .nan, _ => .nan
  | _, .nan => .nan
  | .inf n, .inf m => if n = m then .inf n else .nan
  | .inf n, _ => .inf n
  | _, .inf n => .inf n
  | .fin n a e, .fin m b f =>
    let k := min e f
    let x : Int := (if n then -1 else 1) * ((a <<< (e - k).toNat : Nat) : Int)
    let y : Int := (if m then -1 else 1) * ((b <<< (f - k).toNat : Nat) : Int)
    let z := x + y
    if z = 0 then .fin (n && m) 0 0
    else .fin (decide (z < 0)) z.natAbs k

def XVal.negate : XVal → XVal
  | .nan => .nan
  | .inf n => .inf (!n)
  | .fin n m e => .fin (!n) m e

def XVal.abs : XVal → XVal
  | .nan => .nan
  | .inf _ => .inf false
  | .fin _ m e => .fin false m e

/-- a < b for values that are not NaN; false when either is NaN. -/
def XVal.lt (a b : XVal) : Bool :=
  match a, b with
  | .nan, _ => false
  | _, .nan => false
  | .inf n, .inf m => n && !m
  | .inf n, _ => n
  | _, .inf m => !m
  | .fin n x e, .fin m y f =>
    let k := min e f
    let u : Int := (if n then -1 else 1) * ((x <<< (e - k).toNat : Nat) : Int)
    let v : Int := (if m then -1 else 1) * ((y <<< (f - k).toNat : Nat) : Int)
    decide (u < v)

/-- Scaling by 2^k. -/
def XVal.scale (a : XVal) (k : Int) : XVal :=
  match a with
  | .fin n m e => .fin n m (e + k)
  | v => v

/-- FP32 operations rounded once (R112). -/
def fAdd (a b : Nat) : Nat := r32 ((x32 a).add (x32 b))
def fMul (a b : Nat) : Nat := r32 ((x32 a).mul (x32 b))
def fSub (a b : Nat) : Nat := r32 ((x32 a).add (x32 b).negate)

/-- a ÷ b rounded to FP32. -/
def fDiv (a b : Nat) : Nat :=
  match x32 a, x32 b with
  | .nan, _ => 0x7FC00000
  | _, .nan => 0x7FC00000
  | .inf _, .inf _ => 0x7FC00000
  | .inf n, .fin m _ _ => r32 (.inf (n != m))
  | .fin n _ _, .inf m => r32 (.fin (n != m) 0 0)
  | .fin n x e, .fin m y f =>
    if y = 0 then (if x = 0 then 0x7FC00000 else r32 (.inf (n != m)))
    else
      let q := (x <<< 400) / y
      let sticky := if (x <<< 400) % y = 0 then 0 else 1
      r32 (.fin (n != m) (q * 2 + sticky) (e - f - 401))

/-- ⌊log2⌋ of a nonzero magnitude. -/
def XVal.log2 : XVal → Int
  | .fin _ m e => (Nat.log2 m : Int) + e
  | _ => 0

/-- R109, R111: an element of a format times its block scale byte. -/
def mxValue (fmt code scale : Nat) : XVal :=
  if scale = 0xFF then .nan else ((eltFmt fmt).decode code).scale ((scale : Int) - 127)

/-! ## MX tiles (R110) -/

def eltBits (fmt : Nat) : Nat := (eltFmt fmt).w

/-- Tile bytes (R186). -/
def tileBytes : Nat → Nat
  | 4 => 2112 | 5 => 2112 | 6 => 1600 | 7 => 1600 | _ => 1088

/-- Tiles per segment (R186). -/
def tilesPerSeg : Nat → Nat
  | 4 => 992 | 5 => 992 | 6 => 1310 | 7 => 1310 | _ => 1927

/-- Element i of a tile given as one little-endian number. -/
def tileElt (fmt tile i : Nat) : XVal :=
  mxValue fmt (bits tile (eltBits fmt * i) (eltBits fmt)) (bits tile (2048 * eltBits fmt + 8 * (i / 32)) 8)

/-- Format of an efmt code (R188): 1 BF16, 2 FP8 E4M3, 3 FP8 E5M2. -/
def efmtOf : Nat → Fmt
  | 1 => bf16 | 2 => e4m3 | _ => e5m2

/-- Egress bytes of a tile (R204). -/
def egressTile (efmt : Nat) : Nat := if efmt = 1 then 4096 else 2048

/-- R205: the egress bytes of a tile as one number, the values that saturated, and whether a NaN is among them. -/
def decodeTile (fmt efmt tile : Nat) : Nat × Nat × Bool :=
  let f := efmtOf efmt
  (List.range 2048).foldl (fun (a : Nat × Nat × Bool) i =>
    let v := tileElt fmt tile i
    let c := f.encode v
    (a.1 + (c.1 <<< (f.w * i)), a.2.1 + b2n c.2, a.2.2 || decide (v = .nan))) (0, 0, false)

/-- R113: a block of values in an MX format: scale byte, element codes, and the number of values that saturated. An infinity is
the largest absolute value and clamps the scale to 254. DESIGN CHOICE (log entry 69): a NaN does not enter amax, and in a block
whose scale is 0xFF every element has the code that its value gets at the scale computed for the rest. -/
def encodeBlock (fmt : Nat) (vs : List XVal) : Nat × List Nat × Nat :=
  let f := eltFmt fmt
  let special := vs.any fun v => match v with
    | .nan => true
    | .inf _ => !f.hasInf
    | _ => false
  let amax := vs.foldl (fun (a : XVal) v => match v with
    | .fin _ _ _ => if a.lt v.abs then v.abs else a
    | _ => a) XVal.zero
  let isInf := vs.any fun v => match v with
    | .inf _ => true
    | _ => false
  let x : Nat := if isInf then 254 else if amax.isZero then 0 else (min 254 (max 0 (amax.log2 - mxEmax fmt + 127))).toNat
  let cs := vs.map fun v => f.encode (v.scale (127 - (x : Int)))
  let n := ((vs.zip cs).filter fun e => e.2.2 && (f.hasNan || e.1.isFin)).length
  (if special && !f.hasNan then 0xFF else x, cs.map (·.1), n)

/-! ## The exponent unit (R114, R115) -/

/-- ln 2 × 2^256. -/
def ln2Fix : Nat := 80260960185991308862233904206310070533990667611589946606122867505419956976171

/-- e^r for r in units of 2^-256, 0 ≤ r < 1, by its series. -/
def expFix (r : Nat) : Nat :=
  ((List.range 64).foldl (fun (a : Nat × Nat) k =>
    let t := (a.2 * r / 2 ^ 256) / (k + 1)
    (a.1 + t, t)) (2 ^ 256, 2 ^ 256)).1

/-- The value of e^x or 2^x for an exact x, as m × 2^e with 256 bits of fraction. -/
def expExact (base2 neg : Bool) (m : Nat) (e : Int) : XVal :=
  let mag : Int := if e ≥ 0 then ((m <<< (e.toNat + 256) : Nat) : Int) else ((m <<< 256) >>> (-e).toNat : Nat)
  let x : Int := if neg then -mag else mag
  let lx : Int := if base2 then x * (ln2Fix : Int) / (2 ^ 256 : Nat) else x
  let n : Int := lx / (ln2Fix : Int)
  let r : Nat := (lx - n * (ln2Fix : Int)).toNat
  .fin false (expFix r) (n - 256)

/-- R115: the exponent of an FP32 word. Inside the limits the value lies within 2 units in the last place of the
correctly rounded one and is otherwise free (log entry 8). -/
def expResult (base2 : Bool) (w : Nat) : Nat :=
  match x32 w with
  | .nan => 0x7FC00000
  | .inf n => if n then 0 else 0x7F800000
  | .fin n m e =>
    let v := XVal.fin n m e
    let h := v.mul (.fin false 100 0)
    let big := if base2 then !(v.lt (.fin false 128 0)) else !(h.lt (.fin false 8873 0))
    let under := if base2 then v.lt (.fin true 126 0) else h.lt (.fin true 8734 0)
    if big then 0x7F800000 else if under then 0
    else
      let c := r32 (expExact base2 n m e)
      let err := (Config.expError (b2n base2) w) % 5 - 2
      let c' := ((c : Int) + err).toNat
      if c ≥ 0x7F800000 then c else if c' < 0x00800000 then 0 else min c' 0x7F800000

end Sys2Proof.Machine
end

