-- ==== Sys2Proof/Machine/RegTable.lean ====
section
/-! DEFINITION. The register window of the device (R7 to R12 of spec/00_scope.md): every register family the spec's
tables name, with the offset of each of its registers, its fields, their access codes and their reset values.
The field tables follow the Access, Bits and Reset columns of the register tables of spec/, row by row; the rule
that owns a family is cited beside it. -/
namespace Sys2Proof.Machine

/-- Access codes of R9. -/
inductive Acc where
  | rw | ro | wo | w1c | rwl | rc
  deriving DecidableEq, Repr

/-- Which resets, besides cold and warm, have the register in their scope (R12). -/
inductive Scope where
  | dev | port | ring | stack | cluster | arb | ft
  deriving DecidableEq, Repr

/-- One field of a register: its place, access code, value after a cold reset, and whether it is kept
by a warm reset (a "/keep" in the Reset column), or by the stack, port or cluster reset that contains it. The registers of the
NVM arbiter instance keep every field on a warm reset (R389). -/
structure FieldDef where
  lo : Nat
  w : Nat
  acc : Acc
  cold : Nat
  warmKeep : Bool
  localKeep : Bool
  deriving DecidableEq, Repr

/-- The register families of the window. -/
inductive Reg where
  /-- GL_ID, R13. -/
  | glId
  /-- GL_REG_ERR, R14. -/
  | glRegErr
  /-- GL_PORT_CFG, R67. -/
  | glPortCfg
  /-- GL_PORT_STAT, R68. -/
  | glPortStat
  /-- GL_PORT_ERR, R70. -/
  | glPortErr
  /-- GL_FT_TMO, R71. -/
  | glFtTmo
  /-- CP_FW_STAT, R98. -/
  | cpFwStat
  /-- CP_DISP_STAT, R99. -/
  | cpDispStat
  /-- CP_PORT_PRIV, R100. -/
  | cpPortPriv
  /-- CP_RING_CFG, R101. -/
  | cpRingCfg
  /-- CP_RING_ERR_ADDR, R102. -/
  | cpRingErrAddr
  /-- CP_RING_STAT, R103. -/
  | cpRingStat
  /-- CP_RING_CTL, R104. -/
  | cpRingCtl
  /-- CN_CTL, R141. -/
  | cnCtl
  /-- CN_STAT, R142. -/
  | cnStat
  /-- CN_ERR, R143. -/
  | cnErr
  /-- CN_SAT_CNT, R144. -/
  | cnSatCnt
  /-- LG_META_CFG, R180. -/
  | lgMetaCfg
  /-- LG_STAT, R181. -/
  | lgStat
  /-- LG_GR_SEL, R182. -/
  | lgGrSel
  /-- LG_GR_DATA, R182. -/
  | lgGrData
  /-- LG_ERR, R183. -/
  | lgErr
  /-- LG_POOL_CFG, R184. -/
  | lgPoolCfg
  /-- LG_POOL_STAT, R184. -/
  | lgPoolStat
  /-- TR_CFG, R221. -/
  | trCfg
  /-- TR_STAT, R222. -/
  | trStat
  /-- TR_ERR, R223. -/
  | trErr
  /-- TR_DIR_SEL, R224. -/
  | trDirSel
  /-- TR_DIR_DATA, R224. -/
  | trDirData
  /-- TR_POOL_CFG, R225. -/
  | trPoolCfg
  /-- TR_POOL_STAT, R225. -/
  | trPoolStat
  /-- TR_MODEL, R226. -/
  | trModel
  /-- GL_OP_STAT, R253. -/
  | glOpStat
  /-- SC_LINK_CTL, R254. -/
  | scLinkCtl
  /-- SC_LINK_STAT, R255. -/
  | scLinkStat
  /-- SC_TRAIN_CFG, R256. -/
  | scTrainCfg
  /-- SC_STACK_ID, R257. -/
  | scStackId
  /-- SC_PPR_STAT, R258. -/
  | scPprStat
  /-- SC_LANE_MAP, R259. -/
  | scLaneMap
  /-- GL_MAP_SEL, R293. -/
  | glMapSel
  /-- GL_MAP_DATA, R293. -/
  | glMapData
  /-- GL_MAP_CTL, R294. -/
  | glMapCtl
  /-- GL_MAP_ERR, R296. -/
  | glMapErr
  /-- GL_LT, R297. -/
  | glLt
  /-- SC_TIM(op,0), R298. -/
  | scTim0
  /-- SC_TIM(op,1), R298. -/
  | scTim1
  /-- SC_SCHED_CFG, R299. -/
  | scSchedCfg
  /-- SC_REF_CFG, R300. -/
  | scRefCfg
  /-- SC_SREF_CFG, R301. -/
  | scSrefCfg
  /-- SC_SREF_STAT, R302. -/
  | scSrefStat
  /-- PC_STAT, R303. -/
  | pcStat
  /-- PC_REF_STAT, R304. -/
  | pcRefStat
  /-- SC_ECC_CFG, R340. -/
  | scEccCfg
  /-- SC_PATROL_CFG, R341. -/
  | scPatrolCfg
  /-- SC_ECC_INT, R342. -/
  | scEccInt
  /-- SC_ECC_INT_EN, R342. -/
  | scEccIntEn
  /-- SC_REMAP_SEL, R343. -/
  | scRemapSel
  /-- SC_REMAP_DATA, R343. -/
  | scRemapData
  /-- SC_SPARE, R344. -/
  | scSpare
  /-- PC_ECC_STAT, R345. -/
  | pcEccStat
  /-- PC_ECC_CNT, R346. -/
  | pcEccCnt
  /-- SH_STAT, R367. -/
  | shStat
  /-- SH_FCLK_COUNT, R368. -/
  | shFclkCount
  /-- SH_TQ_SEL, R369. -/
  | shTqSel
  /-- SH_TQ_CFG, R369. -/
  | shTqCfg
  /-- SH_TQ_STAT, R369. -/
  | shTqStat
  /-- SH_TQ_BYTES, R369. -/
  | shTqBytes
  /-- SH_PORT_OVH, R370. -/
  | shPortOvh
  /-- SH_GATE_CFG, R371. -/
  | shGateCfg
  /-- SH_GATE_CTL, R372. -/
  | shGateCtl
  /-- SH_GATE_STAT, R372. -/
  | shGateStat
  /-- SH_GATE_ERR, R373. -/
  | shGateErr
  /-- SH_GATE_ENT, R374. -/
  | shGateEnt
  /-- AB_CFG, R390. -/
  | abCfg
  /-- AB_STAT, R391. -/
  | abStat
  /-- AB_WD, R392. -/
  | abWd
  /-- AB_INT, R393. -/
  | abInt
  /-- AB_INT_EN, R393. -/
  | abIntEn
  /-- AB_PRIO, R394. -/
  | abPrio
  /-- GL_LC, R409. -/
  | glLc
  /-- GL_LC_CHK, R410. -/
  | glLcChk
  /-- GL_LC_OVER, R411. -/
  | glLcOver
  /-- TM_CFG, R430. -/
  | tmCfg
  /-- TM_STAT, R431. -/
  | tmStat
  /-- TM_FAIL_ACK, R432. -/
  | tmFailAck
  /-- TM_PWR_CFG, R433. -/
  | tmPwrCfg
  /-- TM_PWR_STAT, R433. -/
  | tmPwrStat
  /-- TM_STACK_CFG, R434. -/
  | tmStackCfg
  /-- TM_INT, R435. -/
  | tmInt
  /-- TM_INT_EN, R435. -/
  | tmIntEn
  /-- TM_AON, R436. -/
  | tmAon
  /-- TM_RST_CAUSE, R437. -/
  | tmRstCause
  /-- TM_ZONE, R438. -/
  | tmZone
  /-- TM_SENS, R438. -/
  | tmSens
  /-- PK_FUSE, R455. -/
  | pkFuse
  /-- PK_FUSE_STAT, R456. -/
  | pkFuseStat
  /-- PK_CFG, R457. -/
  | pkCfg
  /-- PK_HEALTH, R458. -/
  | pkHealth
  /-- PK_REV, R459. -/
  | pkRev
  /-- PK_ERR, R460. -/
  | pkErr
  /-- PK_INT, R461. -/
  | pkInt
  /-- PK_INT_EN, R461. -/
  | pkIntEn
  /-- PK_RETIRED, R462. -/
  | pkRetired
  /-- SE_LC_STAT, R478. -/
  | seLcStat
  /-- SE_SLOT_STAT, R479. -/
  | seSlotStat
  /-- SE_SLOT_PERM, R479. -/
  | seSlotPerm
  /-- SE_DBG_STAT, R480. -/
  | seDbgStat
  /-- SE_ERR, R481. -/
  | seErr
  /-- OB_EVR_STAT, R508. -/
  | obEvrStat
  /-- OB_LEDGER_HEAD, R508. -/
  | obLedgerHead
  /-- OB_LEDGER_BASE, R508. -/
  | obLedgerBase
  /-- OB_HOURS, R508. -/
  | obHours
  /-- OB_CLR_CTL, R509. -/
  | obClrCtl
  /-- OB_CLR_STAT, R509. -/
  | obClrStat
  /-- OB_INT, R510. -/
  | obInt
  /-- OB_INT_EN, R510. -/
  | obIntEn
  /-- OB_MS_STAT, R511. -/
  | obMsStat
  /-- OB_PMC_CTL, R512. -/
  | obPmcCtl
  /-- OB_PMC_OVF, R512. -/
  | obPmcOvf
  /-- OB_USER_EN, R512. -/
  | obUserEn
  /-- OB_PUB_CFG, R512. -/
  | obPubCfg
  /-- OB_PUB_ADDR, R512. -/
  | obPubAddr
  /-- OB_MON_CTL, R512. -/
  | obMonCtl
  /-- OB_PMC_CFG, R513. -/
  | obPmcCfg
  /-- OB_PMC, R513. -/
  | obPmc
  /-- OB_LMON_CFG, R514. -/
  | obLmonCfg
  /-- OB_LMON_MM, R514. -/
  | obLmonMm
  /-- OB_LMON_CNT, R514. -/
  | obLmonCnt
  /-- OB_LMON_SUM, R514. -/
  | obLmonSum
  /-- OB_LMON_HIST, R514. -/
  | obLmonHist
  /-- OB_VMON_CFG, R515. -/
  | obVmonCfg
  /-- OB_VMON_THR, R515. -/
  | obVmonThr
  /-- OB_VMON_MM, R515. -/
  | obVmonMm
  /-- OB_VMON_LAST, R515. -/
  | obVmonLast
  /-- OB_VMON_SUM, R515. -/
  | obVmonSum
  /-- OB_VMON_CNT, R515. -/
  | obVmonCnt
  /-- OB_CHK_STAT, R516. -/
  | obChkStat
  /-- OB_CHK_VAL, R516. -/
  | obChkVal
  /-- OB_CHK_CFG, R516. -/
  | obChkCfg
  /-- OB_CHK_POLY, R516. -/
  | obChkPoly
  /-- BT_LOCK, R531. -/
  | btLock
  /-- BT_STAT, R532. -/
  | btStat
  /-- BT_CTL, R533. -/
  | btCtl
  /-- BT_ERR, R534. -/
  | btErr
  /-- BT_MCI_ID, R535. -/
  | btMciId
  /-- BT_MCI_STAT, R535. -/
  | btMciStat
  /-- OB_LEDGER_W, R489. -/
  | obLedgerW
  /-- OB_MS_W, R489. -/
  | obMsW
  deriving DecidableEq, Repr

/-- Offset of the family's first register, relative to the window base (R7). -/
def Reg.base : Reg → Nat
  | .glId => 0x0
  | .glRegErr => 0x8
  | .glPortCfg => 0x1000
  | .glPortStat => 0x1008
  | .glPortErr => 0x1010
  | .glFtTmo => 0x2818
  | .cpFwStat => 0x380000
  | .cpDispStat => 0x380008
  | .cpPortPriv => 0x380100
  | .cpRingCfg => 0x381000
  | .cpRingErrAddr => 0x381008
  | .cpRingStat => 0x381010
  | .cpRingCtl => 0x381018
  | .cnCtl => 0x200000
  | .cnStat => 0x200008
  | .cnErr => 0x200010
  | .cnSatCnt => 0x200018
  | .lgMetaCfg => 0x300000
  | .lgStat => 0x300008
  | .lgGrSel => 0x300010
  | .lgGrData => 0x300018
  | .lgErr => 0x300038
  | .lgPoolCfg => 0x300100
  | .lgPoolStat => 0x300108
  | .trCfg => 0x340000
  | .trStat => 0x340008
  | .trErr => 0x340010
  | .trDirSel => 0x340018
  | .trDirData => 0x340020
  | .trPoolCfg => 0x340100
  | .trPoolStat => 0x340108
  | .trModel => 0x341000
  | .glOpStat => 0x100
  | .scLinkCtl => 0x10000
  | .scLinkStat => 0x10008
  | .scTrainCfg => 0x10010
  | .scStackId => 0x10018
  | .scPprStat => 0x10020
  | .scLaneMap => 0x10400
  | .glMapSel => 0x3000
  | .glMapData => 0x3008
  | .glMapCtl => 0x3028
  | .glMapErr => 0x3030
  | .glLt => 0x3200
  | .scTim0 => 0x10100
  | .scTim1 => 0x10108
  | .scSchedCfg => 0x10120
  | .scRefCfg => 0x10128
  | .scSrefCfg => 0x10130
  | .scSrefStat => 0x10138
  | .pcStat => 0x18000
  | .pcRefStat => 0x18008
  | .scEccCfg => 0x10200
  | .scPatrolCfg => 0x10208
  | .scEccInt => 0x10210
  | .scEccIntEn => 0x10218
  | .scRemapSel => 0x10220
  | .scRemapData => 0x10228
  | .scSpare => 0x10230
  | .pcEccStat => 0x18010
  | .pcEccCnt => 0x18018
  | .shStat => 0x400000
  | .shFclkCount => 0x400008
  | .shTqSel => 0x400010
  | .shTqCfg => 0x400018
  | .shTqStat => 0x400020
  | .shTqBytes => 0x400028
  | .shPortOvh => 0x400100
  | .shGateCfg => 0x402000
  | .shGateCtl => 0x402008
  | .shGateStat => 0x402010
  | .shGateErr => 0x402018
  | .shGateEnt => 0x402400
  | .abCfg => 0x480000
  | .abStat => 0x480008
  | .abWd => 0x480010
  | .abInt => 0x480018
  | .abIntEn => 0x480020
  | .abPrio => 0x480040
  | .glLc => 0x3400
  | .glLcChk => 0x3800
  | .glLcOver => 0x3808
  | .tmCfg => 0x500000
  | .tmStat => 0x500008
  | .tmFailAck => 0x500010
  | .tmPwrCfg => 0x500018
  | .tmPwrStat => 0x500020
  | .tmStackCfg => 0x500028
  | .tmInt => 0x500030
  | .tmIntEn => 0x500038
  | .tmAon => 0x500040
  | .tmRstCause => 0x500048
  | .tmZone => 0x500100
  | .tmSens => 0x500200
  | .pkFuse => 0x580000
  | .pkFuseStat => 0x580040
  | .pkCfg => 0x580048
  | .pkHealth => 0x580050
  | .pkRev => 0x580058
  | .pkErr => 0x580060
  | .pkInt => 0x580068
  | .pkIntEn => 0x580070
  | .pkRetired => 0x580100
  | .seLcStat => 0x700000
  | .seSlotStat => 0x700008
  | .seSlotPerm => 0x700010
  | .seDbgStat => 0x700018
  | .seErr => 0x700020
  | .obEvrStat => 0x600000
  | .obLedgerHead => 0x600008
  | .obLedgerBase => 0x600010
  | .obHours => 0x600018
  | .obClrCtl => 0x600020
  | .obClrStat => 0x600028
  | .obInt => 0x600030
  | .obIntEn => 0x600038
  | .obMsStat => 0x600040
  | .obPmcCtl => 0x600100
  | .obPmcOvf => 0x600108
  | .obUserEn => 0x600128
  | .obPubCfg => 0x600148
  | .obPubAddr => 0x600150
  | .obMonCtl => 0x600158
  | .obPmcCfg => 0x601000
  | .obPmc => 0x601008
  | .obLmonCfg => 0x604000
  | .obLmonMm => 0x604008
  | .obLmonCnt => 0x604010
  | .obLmonSum => 0x604018
  | .obLmonHist => 0x604100
  | .obVmonCfg => 0x610000
  | .obVmonThr => 0x610008
  | .obVmonMm => 0x610010
  | .obVmonLast => 0x610018
  | .obVmonSum => 0x610020
  | .obVmonCnt => 0x610028
  | .obChkStat => 0x612000
  | .obChkVal => 0x612008
  | .obChkCfg => 0x612010
  | .obChkPoly => 0x612018
  | .btLock => 0x780000
  | .btStat => 0x780008
  | .btCtl => 0x780010
  | .btErr => 0x780018
  | .btMciId => 0x780020
  | .btMciStat => 0x780028
  | .obLedgerW => 0x640000
  | .obMsW => 0x680000

/-- How the family repeats: (count, stride) pairs, outermost first. -/
def Reg.dims : Reg → List (Nat × Nat)
  | .glId => []
  | .glRegErr => []
  | .glPortCfg => [(26, 0x100)]
  | .glPortStat => [(26, 0x100)]
  | .glPortErr => [(26, 0x100)]
  | .glFtTmo => [(2, 0x100)]
  | .cpFwStat => []
  | .cpDispStat => []
  | .cpPortPriv => [(24, 0x8)]
  | .cpRingCfg => [(96, 0x20)]
  | .cpRingErrAddr => [(96, 0x20)]
  | .cpRingStat => [(96, 0x20)]
  | .cpRingCtl => [(96, 0x20)]
  | .cnCtl => [(8, 0x20000)]
  | .cnStat => [(8, 0x20000)]
  | .cnErr => [(8, 0x20000)]
  | .cnSatCnt => [(8, 0x20000)]
  | .lgMetaCfg => []
  | .lgStat => []
  | .lgGrSel => []
  | .lgGrData => [(4, 0x8)]
  | .lgErr => []
  | .lgPoolCfg => [(8, 0x10)]
  | .lgPoolStat => [(8, 0x10)]
  | .trCfg => []
  | .trStat => []
  | .trErr => []
  | .trDirSel => []
  | .trDirData => [(2, 0x8)]
  | .trPoolCfg => [(8, 0x10)]
  | .trPoolStat => [(8, 0x10)]
  | .trModel => [(256, 0x8)]
  | .glOpStat => []
  | .scLinkCtl => [(8, 0x10000)]
  | .scLinkStat => [(8, 0x10000)]
  | .scTrainCfg => [(8, 0x10000)]
  | .scStackId => [(8, 0x10000)]
  | .scPprStat => [(8, 0x10000)]
  | .scLaneMap => [(8, 0x10000), (32, 0x8)]
  | .glMapSel => []
  | .glMapData => [(4, 0x8)]
  | .glMapCtl => []
  | .glMapErr => []
  | .glLt => [(64, 0x8)]
  | .scTim0 => [(8, 0x10000), (2, 0x10)]
  | .scTim1 => [(8, 0x10000), (2, 0x10)]
  | .scSchedCfg => [(8, 0x10000)]
  | .scRefCfg => [(8, 0x10000)]
  | .scSrefCfg => [(8, 0x10000)]
  | .scSrefStat => [(8, 0x10000)]
  | .pcStat => [(8, 0x10000), (64, 0x100)]
  | .pcRefStat => [(8, 0x10000), (64, 0x100)]
  | .scEccCfg => [(8, 0x10000)]
  | .scPatrolCfg => [(8, 0x10000)]
  | .scEccInt => [(8, 0x10000)]
  | .scEccIntEn => [(8, 0x10000)]
  | .scRemapSel => [(8, 0x10000)]
  | .scRemapData => [(8, 0x10000)]
  | .scSpare => [(8, 0x10000), (2, 0x8)]
  | .pcEccStat => [(8, 0x10000), (64, 0x100)]
  | .pcEccCnt => [(8, 0x10000), (64, 0x100)]
  | .shStat => []
  | .shFclkCount => []
  | .shTqSel => []
  | .shTqCfg => []
  | .shTqStat => []
  | .shTqBytes => []
  | .shPortOvh => [(24, 0x8)]
  | .shGateCfg => [(24, 0x800)]
  | .shGateCtl => [(24, 0x800)]
  | .shGateStat => [(24, 0x800)]
  | .shGateErr => [(24, 0x800)]
  | .shGateEnt => [(24, 0x800), (2, 0x200), (64, 0x8)]
  | .abCfg => [(10, 0x100)]
  | .abStat => [(10, 0x100)]
  | .abWd => [(10, 0x100)]
  | .abInt => [(10, 0x100)]
  | .abIntEn => [(10, 0x100)]
  | .abPrio => [(10, 0x100), (8, 0x8)]
  | .glLc => [(2, 0x200), (35, 0x8)]
  | .glLcChk => []
  | .glLcOver => []
  | .tmCfg => []
  | .tmStat => []
  | .tmFailAck => []
  | .tmPwrCfg => []
  | .tmPwrStat => []
  | .tmStackCfg => []
  | .tmInt => []
  | .tmIntEn => []
  | .tmAon => []
  | .tmRstCause => []
  | .tmZone => [(8, 0x8)]
  | .tmSens => [(64, 0x8)]
  | .pkFuse => [(8, 0x8)]
  | .pkFuseStat => []
  | .pkCfg => []
  | .pkHealth => []
  | .pkRev => []
  | .pkErr => []
  | .pkInt => []
  | .pkIntEn => []
  | .pkRetired => [(8, 0x8)]
  | .seLcStat => []
  | .seSlotStat => []
  | .seSlotPerm => []
  | .seDbgStat => []
  | .seErr => []
  | .obEvrStat => []
  | .obLedgerHead => []
  | .obLedgerBase => []
  | .obHours => []
  | .obClrCtl => []
  | .obClrStat => []
  | .obInt => []
  | .obIntEn => []
  | .obMsStat => [(8, 0x8)]
  | .obPmcCtl => []
  | .obPmcOvf => [(4, 0x8)]
  | .obUserEn => [(4, 0x8)]
  | .obPubCfg => []
  | .obPubAddr => []
  | .obMonCtl => []
  | .obPmcCfg => [(256, 0x10)]
  | .obPmc => [(256, 0x10)]
  | .obLmonCfg => [(90, 0x200)]
  | .obLmonMm => [(90, 0x200)]
  | .obLmonCnt => [(90, 0x200)]
  | .obLmonSum => [(90, 0x200)]
  | .obLmonHist => [(90, 0x200), (32, 0x8)]
  | .obVmonCfg => [(32, 0x40)]
  | .obVmonThr => [(32, 0x40)]
  | .obVmonMm => [(32, 0x40)]
  | .obVmonLast => [(32, 0x40)]
  | .obVmonSum => [(32, 0x40)]
  | .obVmonCnt => [(32, 0x40)]
  | .obChkStat => [(16, 0x20)]
  | .obChkVal => [(16, 0x20)]
  | .obChkCfg => [(16, 0x20)]
  | .obChkPoly => [(16, 0x20)]
  | .btLock => []
  | .btStat => []
  | .btCtl => []
  | .btErr => []
  | .btMciId => []
  | .btMciStat => []
  | .obLedgerW => [(32768, 0x8)]
  | .obMsW => [(8, 0x4000), (2048, 0x8)]

/-- The local reset that contains the register, if any (R12). -/
def Reg.scope : Reg → Scope
  | .glId => .dev
  | .glRegErr => .dev
  | .glPortCfg => .port
  | .glPortStat => .port
  | .glPortErr => .port
  | .glFtTmo => .ft
  | .cpFwStat => .dev
  | .cpDispStat => .dev
  | .cpPortPriv => .port
  | .cpRingCfg => .ring
  | .cpRingErrAddr => .ring
  | .cpRingStat => .ring
  | .cpRingCtl => .ring
  | .cnCtl => .cluster
  | .cnStat => .cluster
  | .cnErr => .cluster
  | .cnSatCnt => .cluster
  | .lgMetaCfg => .dev
  | .lgStat => .dev
  | .lgGrSel => .dev
  | .lgGrData => .dev
  | .lgErr => .dev
  | .lgPoolCfg => .dev
  | .lgPoolStat => .dev
  | .trCfg => .dev
  | .trStat => .dev
  | .trErr => .dev
  | .trDirSel => .dev
  | .trDirData => .dev
  | .trPoolCfg => .dev
  | .trPoolStat => .dev
  | .trModel => .dev
  | .glOpStat => .dev
  | .scLinkCtl => .stack
  | .scLinkStat => .stack
  | .scTrainCfg => .stack
  | .scStackId => .stack
  | .scPprStat => .stack
  | .scLaneMap => .stack
  | .glMapSel => .dev
  | .glMapData => .dev
  | .glMapCtl => .dev
  | .glMapErr => .dev
  | .glLt => .dev
  | .scTim0 => .stack
  | .scTim1 => .stack
  | .scSchedCfg => .stack
  | .scRefCfg => .stack
  | .scSrefCfg => .stack
  | .scSrefStat => .stack
  | .pcStat => .stack
  | .pcRefStat => .stack
  | .scEccCfg => .stack
  | .scPatrolCfg => .stack
  | .scEccInt => .stack
  | .scEccIntEn => .stack
  | .scRemapSel => .stack
  | .scRemapData => .stack
  | .scSpare => .stack
  | .pcEccStat => .stack
  | .pcEccCnt => .stack
  | .shStat => .dev
  | .shFclkCount => .dev
  | .shTqSel => .dev
  | .shTqCfg => .dev
  | .shTqStat => .dev
  | .shTqBytes => .dev
  | .shPortOvh => .port
  | .shGateCfg => .port
  | .shGateCtl => .port
  | .shGateStat => .port
  | .shGateErr => .port
  | .shGateEnt => .port
  | .abCfg => .arb
  | .abStat => .arb
  | .abWd => .arb
  | .abInt => .arb
  | .abIntEn => .arb
  | .abPrio => .arb
  | .glLc => .dev
  | .glLcChk => .dev
  | .glLcOver => .dev
  | .tmCfg => .dev
  | .tmStat => .dev
  | .tmFailAck => .dev
  | .tmPwrCfg => .dev
  | .tmPwrStat => .dev
  | .tmStackCfg => .dev
  | .tmInt => .dev
  | .tmIntEn => .dev
  | .tmAon => .dev
  | .tmRstCause => .dev
  | .tmZone => .dev
  | .tmSens => .dev
  | .pkFuse => .dev
  | .pkFuseStat => .dev
  | .pkCfg => .dev
  | .pkHealth => .dev
  | .pkRev => .dev
  | .pkErr => .dev
  | .pkInt => .dev
  | .pkIntEn => .dev
  | .pkRetired => .dev
  | .seLcStat => .dev
  | .seSlotStat => .dev
  | .seSlotPerm => .dev
  | .seDbgStat => .dev
  | .seErr => .dev
  | .obEvrStat => .dev
  | .obLedgerHead => .dev
  | .obLedgerBase => .dev
  | .obHours => .dev
  | .obClrCtl => .dev
  | .obClrStat => .dev
  | .obInt => .dev
  | .obIntEn => .dev
  | .obMsStat => .dev
  | .obPmcCtl => .dev
  | .obPmcOvf => .dev
  | .obUserEn => .dev
  | .obPubCfg => .dev
  | .obPubAddr => .dev
  | .obMonCtl => .dev
  | .obPmcCfg => .dev
  | .obPmc => .dev
  | .obLmonCfg => .dev
  | .obLmonMm => .dev
  | .obLmonCnt => .dev
  | .obLmonSum => .dev
  | .obLmonHist => .dev
  | .obVmonCfg => .dev
  | .obVmonThr => .dev
  | .obVmonMm => .dev
  | .obVmonLast => .dev
  | .obVmonSum => .dev
  | .obVmonCnt => .dev
  | .obChkStat => .dev
  | .obChkVal => .dev
  | .obChkCfg => .dev
  | .obChkPoly => .dev
  | .btLock => .dev
  | .btStat => .dev
  | .btCtl => .dev
  | .btErr => .dev
  | .btMciId => .dev
  | .btMciStat => .dev
  | .obLedgerW => .dev
  | .obMsW => .dev

/-- The fields of a register that are not reserved. -/
def Reg.fields : Reg → List FieldDef
  | .glId => [
      ⟨0, 16, .ro, 23048, false, false⟩,
      ⟨16, 4, .ro, 1, false, false⟩,
      ⟨20, 4, .ro, 2, false, false⟩,
      ⟨24, 4, .ro, 8, false, false⟩,
      ⟨28, 4, .ro, 8, false, false⟩]
  | .glRegErr => [
      ⟨0, 1, .w1c, 0, false, false⟩,
      ⟨1, 1, .w1c, 0, false, false⟩,
      ⟨2, 1, .w1c, 0, false, false⟩,
      ⟨3, 1, .w1c, 0, false, false⟩,
      ⟨24, 24, .ro, 0, false, false⟩,
      ⟨48, 1, .ro, 0, false, false⟩]
  | .glPortCfg => [
      ⟨0, 1, .rwl, 0, false, true⟩,
      ⟨1, 1, .rwl, 1, false, true⟩,
      ⟨2, 1, .rwl, 1, false, true⟩,
      ⟨4, 4, .rwl, 2, false, true⟩,
      ⟨8, 12, .rwl, 0, false, true⟩,
      ⟨20, 12, .rwl, 4095, false, true⟩,
      ⟨32, 11, .rwl, 1024, false, true⟩,
      ⟨43, 10, .rwl, 768, false, true⟩]
  | .glPortStat => [
      ⟨0, 3, .ro, 0, false, false⟩,
      ⟨4, 4, .ro, 0, false, false⟩,
      ⟨8, 13, .ro, 0, false, false⟩,
      ⟨21, 13, .ro, 0, false, false⟩,
      ⟨34, 1, .ro, 0, false, false⟩,
      ⟨48, 16, .ro, 0, true, true⟩]
  | .glPortErr => [
      ⟨0, 1, .w1c, 0, false, true⟩,
      ⟨1, 1, .w1c, 0, false, true⟩,
      ⟨2, 1, .w1c, 0, false, true⟩,
      ⟨3, 1, .w1c, 0, false, true⟩,
      ⟨4, 1, .w1c, 0, false, true⟩,
      ⟨5, 1, .w1c, 0, false, true⟩,
      ⟨16, 12, .ro, 0, false, true⟩,
      ⟨28, 4, .ro, 0, false, true⟩]
  | .glFtTmo => [
      ⟨0, 16, .rwl, 1000, false, false⟩]
  | .cpFwStat => [
      ⟨0, 2, .ro, 0, false, false⟩,
      ⟨2, 2, .ro, 0, false, false⟩,
      ⟨8, 24, .ro, 0, false, false⟩,
      ⟨32, 16, .ro, 0, true, false⟩,
      ⟨48, 10, .ro, 0, false, false⟩]
  | .cpDispStat => [
      ⟨0, 13, .ro, 0, false, false⟩,
      ⟨16, 16, .ro, 0, false, false⟩,
      ⟨32, 16, .ro, 0, true, false⟩]
  | .cpPortPriv => [
      ⟨0, 1, .rwl, 0, false, true⟩,
      ⟨1, 1, .rwl, 0, false, true⟩,
      ⟨2, 1, .rwl, 0, false, true⟩,
      ⟨3, 1, .rwl, 0, false, true⟩]
  | .cpRingCfg => [
      ⟨0, 1, .rwl, 0, false, true⟩,
      ⟨1, 1, .rwl, 0, false, true⟩,
      ⟨5, 43, .rwl, 0, false, true⟩]
  | .cpRingErrAddr => [
      ⟨5, 43, .rwl, 0, false, true⟩]
  | .cpRingStat => [
      ⟨0, 2, .ro, 0, false, false⟩,
      ⟨8, 8, .ro, 0, false, true⟩,
      ⟨16, 16, .ro, 0, false, false⟩,
      ⟨32, 8, .ro, 0, false, false⟩,
      ⟨40, 9, .ro, 0, false, false⟩,
      ⟨56, 8, .ro, 0, false, true⟩]
  | .cpRingCtl => [
      ⟨0, 1, .wo, 0, false, false⟩]
  | .cnCtl => [
      ⟨0, 16, .rw, 65535, false, true⟩,
      ⟨16, 1, .wo, 0, false, false⟩]
  | .cnStat => [
      ⟨0, 2, .ro, 0, false, false⟩,
      ⟨2, 2, .ro, 0, false, false⟩,
      ⟨16, 16, .ro, 0, false, false⟩,
      ⟨32, 32, .ro, 0, false, false⟩]
  | .cnErr => [
      ⟨0, 1, .w1c, 0, false, true⟩,
      ⟨1, 1, .w1c, 0, false, true⟩,
      ⟨2, 1, .w1c, 0, false, true⟩,
      ⟨3, 1, .w1c, 0, false, true⟩,
      ⟨16, 4, .ro, 0, false, true⟩,
      ⟨20, 8, .ro, 0, false, true⟩]
  | .cnSatCnt => [
      ⟨0, 48, .rc, 0, false, true⟩]
  | .lgMetaCfg => [
      ⟨0, 1, .rwl, 0, false, false⟩,
      ⟨4, 12, .rwl, 0, false, false⟩,
      ⟨16, 19, .rwl, 0, false, false⟩]
  | .lgStat => [
      ⟨0, 19, .ro, 0, false, false⟩,
      ⟨19, 19, .ro, 0, false, false⟩,
      ⟨38, 19, .ro, 0, false, false⟩,
      ⟨57, 1, .ro, 0, false, false⟩]
  | .lgGrSel => [
      ⟨0, 18, .rw, 0, false, false⟩]
  | .lgGrData => [
      ⟨0, 64, .ro, 0, false, false⟩]
  | .lgErr => [
      ⟨0, 1, .w1c, 0, false, false⟩,
      ⟨1, 1, .w1c, 0, false, false⟩,
      ⟨2, 1, .w1c, 0, false, false⟩,
      ⟨3, 1, .w1c, 0, false, false⟩,
      ⟨20, 18, .ro, 0, false, false⟩]
  | .lgPoolCfg => [
      ⟨0, 1, .rwl, 0, false, false⟩,
      ⟨1, 1, .rwl, 0, false, false⟩,
      ⟨4, 12, .rwl, 0, false, false⟩,
      ⟨16, 19, .rwl, 0, false, false⟩]
  | .lgPoolStat => [
      ⟨0, 19, .ro, 0, false, false⟩,
      ⟨20, 2, .ro, 0, false, false⟩,
      ⟨32, 19, .ro, 0, true, false⟩]
  | .trCfg => [
      ⟨0, 1, .rwl, 0, false, false⟩,
      ⟨4, 6, .rwl, 16, false, false⟩,
      ⟨16, 20, .rwl, 1024, false, false⟩]
  | .trStat => [
      ⟨0, 26, .ro, 0, true, false⟩,
      ⟨26, 6, .ro, 0, false, false⟩,
      ⟨32, 13, .ro, 0, false, false⟩,
      ⟨45, 1, .ro, 0, true, false⟩]
  | .trErr => [
      ⟨0, 1, .w1c, 0, false, false⟩,
      ⟨1, 1, .w1c, 0, false, false⟩,
      ⟨2, 1, .w1c, 0, false, false⟩,
      ⟨3, 1, .w1c, 0, false, false⟩,
      ⟨20, 25, .ro, 0, false, false⟩]
  | .trDirSel => [
      ⟨0, 25, .rw, 0, false, false⟩]
  | .trDirData => [
      ⟨0, 64, .ro, 0, false, false⟩]
  | .trPoolCfg => [
      ⟨0, 1, .rwl, 0, false, false⟩,
      ⟨4, 12, .rwl, 0, false, false⟩,
      ⟨16, 16, .rwl, 0, false, false⟩]
  | .trPoolStat => [
      ⟨0, 16, .ro, 0, false, false⟩,
      ⟨16, 16, .ro, 0, false, false⟩,
      ⟨32, 16, .ro, 0, false, false⟩,
      ⟨48, 2, .ro, 0, false, false⟩]
  | .trModel => [
      ⟨0, 26, .ro, 0, true, false⟩,
      ⟨26, 1, .ro, 0, true, false⟩,
      ⟨32, 26, .ro, 0, true, false⟩]
  | .glOpStat => [
      ⟨0, 1, .ro, 1, true, false⟩,
      ⟨1, 1, .ro, 0, false, false⟩,
      ⟨16, 16, .ro, 0, true, false⟩,
      ⟨32, 32, .ro, 0, true, false⟩]
  | .scLinkCtl => [
      ⟨0, 1, .wo, 0, false, false⟩,
      ⟨1, 1, .rw, 1, false, true⟩]
  | .scLinkStat => [
      ⟨0, 3, .ro, 1, false, false⟩,
      ⟨4, 3, .ro, 0, true, true⟩,
      ⟨8, 2, .ro, 0, false, false⟩,
      ⟨10, 7, .ro, 0, false, false⟩,
      ⟨20, 20, .ro, 0, false, false⟩,
      ⟨40, 8, .ro, 0, false, false⟩,
      ⟨48, 16, .ro, 0, true, true⟩]
  | .scTrainCfg => [
      ⟨0, 8, .rwl, 128, false, true⟩,
      ⟨8, 4, .rwl, 5, false, true⟩,
      ⟨12, 3, .rwl, 6, false, true⟩,
      ⟨16, 16, .rwl, 1000, false, true⟩,
      ⟨32, 12, .rwl, 100, false, true⟩]
  | .scStackId => [
      ⟨0, 8, .ro, 0, false, false⟩,
      ⟨8, 4, .ro, 0, false, false⟩,
      ⟨12, 5, .ro, 0, false, false⟩,
      ⟨17, 1, .ro, 0, false, false⟩,
      ⟨18, 1, .ro, 0, false, false⟩,
      ⟨19, 1, .ro, 0, false, false⟩,
      ⟨32, 32, .ro, 0, false, false⟩]
  | .scPprStat => [
      ⟨0, 16, .ro, 0, false, false⟩,
      ⟨16, 16, .ro, 0, true, false⟩,
      ⟨32, 4, .ro, 0, false, false⟩,
      ⟨36, 4, .ro, 0, false, false⟩]
  | .scLaneMap => [
      ⟨0, 32, .ro, 0, false, false⟩,
      ⟨32, 4, .ro, 0, false, false⟩,
      ⟨36, 8, .ro, 0, false, false⟩,
      ⟨44, 1, .ro, 0, false, false⟩]
  | .glMapSel => [
      ⟨0, 12, .rw, 0, false, false⟩]
  | .glMapData => [
      ⟨0, 64, .rwl, 0, false, false⟩]
  | .glMapCtl => [
      ⟨0, 1, .wo, 0, false, false⟩,
      ⟨1, 1, .wo, 0, false, false⟩,
      ⟨2, 1, .ro, 0, true, false⟩]
  | .glMapErr => [
      ⟨0, 1, .w1c, 0, false, false⟩,
      ⟨1, 1, .w1c, 0, false, false⟩,
      ⟨16, 12, .ro, 0, false, false⟩,
      ⟨28, 4, .ro, 0, false, false⟩]
  | .glLt => [
      ⟨0, 16, .rwl, 4000, false, false⟩]
  | .scTim0 => [
      ⟨0, 8, .rwl, 32, false, true⟩,
      ⟨8, 8, .rwl, 32, false, true⟩,
      ⟨16, 8, .rwl, 40, false, true⟩,
      ⟨24, 8, .rwl, 74, false, true⟩,
      ⟨32, 4, .rwl, 4, false, true⟩,
      ⟨36, 4, .rwl, 2, false, true⟩,
      ⟨40, 4, .rwl, 4, false, true⟩,
      ⟨44, 4, .rwl, 6, false, true⟩,
      ⟨48, 8, .rwl, 14, false, true⟩]
  | .scTim1 => [
      ⟨0, 10, .rwl, 308, false, true⟩,
      ⟨16, 8, .rwl, 32, false, true⟩,
      ⟨24, 8, .rwl, 40, false, true⟩,
      ⟨32, 4, .rwl, 6, false, true⟩,
      ⟨36, 4, .rwl, 12, false, true⟩,
      ⟨40, 8, .rwl, 18, false, true⟩,
      ⟨48, 10, .rwl, 356, false, true⟩]
  | .scSchedCfg => [
      ⟨0, 6, .rwl, 24, false, true⟩,
      ⟨8, 6, .rwl, 8, false, true⟩,
      ⟨16, 4, .rwl, 8, false, true⟩,
      ⟨20, 4, .rwl, 8, false, true⟩,
      ⟨24, 3, .rwl, 6, false, true⟩,
      ⟨28, 2, .ro, 0, false, false⟩]
  | .scRefCfg => [
      ⟨0, 8, .ro, 50, false, false⟩,
      ⟨8, 1, .ro, 0, false, false⟩,
      ⟨16, 8, .rwl, 85, false, true⟩,
      ⟨24, 8, .rwl, 83, false, true⟩]
  | .scSrefCfg => [
      ⟨0, 1, .rwl, 1, false, true⟩,
      ⟨4, 16, .rwl, 64, false, true⟩]
  | .scSrefStat => [
      ⟨0, 32, .ro, 0, true, true⟩,
      ⟨32, 16, .ro, 0, true, true⟩,
      ⟨48, 16, .ro, 0, true, true⟩]
  | .pcStat => [
      ⟨0, 2, .ro, 0, false, false⟩,
      ⟨2, 1, .ro, 0, false, false⟩,
      ⟨3, 7, .ro, 0, false, false⟩,
      ⟨10, 6, .ro, 0, false, false⟩,
      ⟨16, 4, .ro, 0, false, false⟩,
      ⟨20, 4, .ro, 0, false, false⟩,
      ⟨24, 7, .ro, 0, false, false⟩,
      ⟨32, 32, .ro, 0, false, false⟩]
  | .pcRefStat => [
      ⟨0, 32, .ro, 0, false, false⟩,
      ⟨32, 16, .ro, 0, false, false⟩]
  | .scEccCfg => [
      ⟨0, 8, .rwl, 64, false, true⟩,
      ⟨8, 16, .rwl, 100, false, true⟩,
      ⟨24, 8, .rwl, 64, false, true⟩,
      ⟨32, 4, .rwl, 4, false, true⟩,
      ⟨36, 6, .rwl, 16, false, true⟩,
      ⟨42, 6, .rwl, 12, false, true⟩,
      ⟨48, 1, .rwl, 0, false, true⟩]
  | .scPatrolCfg => [
      ⟨0, 8, .rwl, 24, false, true⟩,
      ⟨8, 16, .rwl, 2, false, true⟩,
      ⟨32, 16, .ro, 0, true, true⟩]
  | .scEccInt => [
      ⟨0, 1, .w1c, 0, false, true⟩,
      ⟨1, 1, .w1c, 0, false, true⟩,
      ⟨2, 1, .w1c, 0, false, true⟩,
      ⟨3, 1, .w1c, 0, false, true⟩,
      ⟨4, 1, .w1c, 0, false, true⟩,
      ⟨16, 6, .ro, 0, false, true⟩]
  | .scEccIntEn => [
      ⟨0, 5, .rw, 31, false, true⟩]
  | .scRemapSel => [
      ⟨0, 12, .rw, 0, false, false⟩,
      ⟨16, 13, .ro, 0, false, false⟩]
  | .scRemapData => [
      ⟨0, 64, .ro, 0, false, false⟩]
  | .scSpare => [
      ⟨0, 2, .ro, 0, false, false⟩,
      ⟨2, 6, .ro, 0, false, false⟩,
      ⟨8, 6, .ro, 0, false, false⟩,
      ⟨16, 9, .ro, 0, false, false⟩]
  | .pcEccStat => [
      ⟨0, 8, .ro, 0, false, false⟩,
      ⟨8, 8, .ro, 0, true, true⟩,
      ⟨16, 4, .ro, 0, false, false⟩,
      ⟨20, 9, .ro, 0, false, false⟩,
      ⟨29, 1, .ro, 0, true, true⟩]
  | .pcEccCnt => [
      ⟨0, 32, .ro, 0, true, true⟩,
      ⟨32, 16, .ro, 0, true, true⟩,
      ⟨48, 16, .ro, 0, true, true⟩]
  | .shStat => [
      ⟨0, 16, .ro, 0, false, false⟩,
      ⟨16, 13, .ro, 0, false, false⟩,
      ⟨32, 13, .ro, 0, false, false⟩]
  | .shFclkCount => [
      ⟨0, 64, .ro, 0, false, false⟩]
  | .shTqSel => [
      ⟨0, 12, .rw, 0, false, false⟩]
  | .shTqCfg => [
      ⟨0, 1, .rw, 0, false, false⟩,
      ⟨1, 1, .rw, 0, false, false⟩,
      ⟨8, 24, .rw, 0, false, false⟩,
      ⟨32, 16, .rw, 0, false, false⟩]
  | .shTqStat => [
      ⟨0, 2, .ro, 0, false, false⟩,
      ⟨2, 1, .ro, 0, false, false⟩,
      ⟨16, 16, .ro, 0, false, false⟩,
      ⟨32, 32, .ro, 0, false, false⟩]
  | .shTqBytes => [
      ⟨0, 48, .ro, 0, false, false⟩]
  | .shPortOvh => [
      ⟨0, 8, .rwl, 0, false, true⟩]
  | .shGateCfg => [
      ⟨0, 1, .rw, 0, false, true⟩,
      ⟨8, 8, .rw, 8, false, true⟩,
      ⟨16, 22, .rw, 0, false, true⟩]
  | .shGateCtl => [
      ⟨0, 1, .wo, 0, false, false⟩]
  | .shGateStat => [
      ⟨0, 1, .ro, 0, false, true⟩,
      ⟨1, 1, .ro, 0, false, true⟩,
      ⟨8, 6, .ro, 0, false, false⟩,
      ⟨14, 22, .ro, 0, false, true⟩,
      ⟨36, 22, .ro, 0, false, false⟩]
  | .shGateErr => [
      ⟨0, 1, .w1c, 0, false, true⟩,
      ⟨1, 1, .w1c, 0, false, true⟩,
      ⟨2, 1, .w1c, 0, false, true⟩,
      ⟨3, 1, .w1c, 0, false, true⟩,
      ⟨4, 1, .w1c, 0, false, true⟩,
      ⟨16, 6, .ro, 0, false, true⟩]
  | .shGateEnt => [
      ⟨0, 8, .rw, 0, false, true⟩,
      ⟨8, 22, .rw, 0, false, true⟩]
  | .abCfg => [
      ⟨0, 14, .rwl, 12000, false, true⟩,
      ⟨16, 16, .rwl, 1000, false, true⟩]
  | .abStat => [
      ⟨0, 3, .ro, 0, false, false⟩,
      ⟨3, 1, .ro, 0, false, false⟩,
      ⟨4, 8, .ro, 0, false, false⟩,
      ⟨12, 8, .ro, 0, false, false⟩,
      ⟨20, 1, .ro, 0, false, false⟩,
      ⟨32, 32, .ro, 0, false, false⟩]
  | .abWd => [
      ⟨0, 16, .ro, 0, true, true⟩,
      ⟨16, 16, .ro, 0, true, true⟩,
      ⟨32, 4, .ro, 0, true, true⟩,
      ⟨36, 3, .ro, 0, true, true⟩]
  | .abInt => [
      ⟨0, 1, .w1c, 0, false, true⟩,
      ⟨1, 1, .w1c, 0, false, true⟩,
      ⟨2, 1, .w1c, 0, false, true⟩]
  | .abIntEn => [
      ⟨0, 3, .rw, 7, false, true⟩]
  | .abPrio => [
      ⟨0, 2, .rw, 0, false, true⟩,
      ⟨4, 4, .rw, 1, false, true⟩,
      ⟨16, 8, .ro, 0, false, false⟩]
  | .glLc => [
      ⟨0, 16, .rwl, 0, true, false⟩,
      ⟨16, 16, .rwl, 0, true, false⟩,
      ⟨32, 24, .rwl, 0, true, false⟩,
      ⟨56, 1, .rwl, 0, true, false⟩]
  | .glLcChk => [
      ⟨0, 1, .rw, 0, true, false⟩]
  | .glLcOver => [
      ⟨0, 1, .w1c, 0, false, false⟩,
      ⟨1, 1, .w1c, 0, false, false⟩,
      ⟨16, 6, .ro, 0, false, false⟩,
      ⟨32, 32, .ro, 0, true, false⟩]
  | .tmCfg => [
      ⟨0, 8, .rwl, 95, false, false⟩,
      ⟨8, 8, .rwl, 105, false, false⟩,
      ⟨16, 4, .rwl, 4, false, false⟩,
      ⟨20, 4, .rwl, 5, false, false⟩,
      ⟨24, 4, .rwl, 8, false, false⟩,
      ⟨32, 8, .rwl, 118, false, false⟩,
      ⟨40, 8, .rwl, 10, false, false⟩]
  | .tmStat => [
      ⟨0, 11, .ro, 0, false, false⟩,
      ⟨12, 3, .ro, 0, false, false⟩,
      ⟨16, 2, .ro, 0, false, false⟩,
      ⟨18, 1, .ro, 0, false, false⟩,
      ⟨19, 1, .ro, 0, false, false⟩,
      ⟨22, 7, .ro, 0, false, false⟩]
  | .tmFailAck => [
      ⟨0, 8, .wo, 0, false, false⟩]
  | .tmPwrCfg => [
      ⟨0, 8, .rwl, 150, false, false⟩,
      ⟨8, 8, .rwl, 10, false, false⟩,
      ⟨16, 16, .rwl, 1000, false, false⟩,
      ⟨32, 8, .rwl, 6, false, false⟩]
  | .tmPwrStat => [
      ⟨0, 8, .ro, 0, false, false⟩,
      ⟨8, 8, .ro, 0, false, false⟩,
      ⟨16, 2, .ro, 0, false, false⟩,
      ⟨18, 4, .ro, 0, false, false⟩,
      ⟨32, 16, .ro, 0, false, false⟩]
  | .tmStackCfg => [
      ⟨0, 8, .rwl, 95, false, false⟩,
      ⟨8, 8, .rwl, 100, false, false⟩,
      ⟨16, 4, .rwl, 5, false, false⟩,
      ⟨24, 8, .rwl, 10, false, false⟩]
  | .tmInt => [
      ⟨0, 1, .w1c, 0, false, false⟩,
      ⟨1, 1, .w1c, 0, false, false⟩,
      ⟨2, 1, .w1c, 0, false, false⟩,
      ⟨3, 1, .w1c, 0, false, false⟩,
      ⟨4, 1, .w1c, 0, false, false⟩,
      ⟨16, 3, .ro, 0, false, false⟩]
  | .tmIntEn => [
      ⟨0, 5, .rw, 31, false, false⟩]
  | .tmAon => [
      ⟨0, 1, .ro, 1, true, false⟩,
      ⟨4, 8, .ro, 0, true, false⟩,
      ⟨16, 16, .ro, 0, true, false⟩]
  | .tmRstCause => [
      ⟨0, 2, .ro, 0, true, false⟩,
      ⟨16, 16, .ro, 0, true, false⟩,
      ⟨32, 16, .ro, 0, true, false⟩,
      ⟨48, 7, .ro, 0, true, false⟩]
  | .tmZone => [
      ⟨0, 11, .ro, 0, false, false⟩,
      ⟨16, 2, .ro, 0, false, false⟩,
      ⟨18, 1, .ro, 0, false, false⟩,
      ⟨19, 1, .ro, 0, false, false⟩,
      ⟨24, 8, .ro, 0, false, false⟩]
  | .tmSens => [
      ⟨0, 11, .ro, 0, false, false⟩,
      ⟨16, 2, .ro, 0, false, false⟩]
  | .pkFuse => [
      ⟨0, 64, .ro, 0, false, false⟩]
  | .pkFuseStat => [
      ⟨0, 1, .ro, 0, false, false⟩,
      ⟨1, 1, .ro, 0, false, false⟩,
      ⟨8, 8, .ro, 0, false, false⟩,
      ⟨16, 8, .ro, 0, false, true⟩]
  | .pkCfg => [
      ⟨0, 16, .rwl, 256, false, false⟩]
  | .pkHealth => [
      ⟨0, 3, .ro, 2, false, false⟩,
      ⟨8, 8, .ro, 0, false, false⟩,
      ⟨16, 8, .ro, 0, false, false⟩,
      ⟨24, 10, .ro, 0, false, false⟩,
      ⟨34, 4, .ro, 0, false, false⟩,
      ⟨38, 20, .ro, 0, false, false⟩]
  | .pkRev => [
      ⟨0, 24, .ro, 0, false, false⟩,
      ⟨24, 24, .ro, 0, false, false⟩]
  | .pkErr => [
      ⟨0, 1, .w1c, 0, false, false⟩,
      ⟨1, 1, .w1c, 0, false, false⟩,
      ⟨2, 1, .w1c, 0, false, false⟩,
      ⟨3, 1, .w1c, 0, false, false⟩,
      ⟨4, 1, .w1c, 0, false, false⟩,
      ⟨16, 5, .ro, 0, false, false⟩]
  | .pkInt => [
      ⟨0, 1, .w1c, 0, false, false⟩,
      ⟨1, 1, .w1c, 0, false, false⟩,
      ⟨2, 1, .w1c, 0, false, false⟩,
      ⟨3, 1, .w1c, 0, false, false⟩,
      ⟨16, 3, .ro, 0, false, false⟩]
  | .pkIntEn => [
      ⟨0, 4, .rw, 15, false, false⟩]
  | .pkRetired => [
      ⟨0, 64, .ro, 0, false, false⟩]
  | .seLcStat => [
      ⟨0, 3, .ro, 0, false, false⟩,
      ⟨3, 3, .ro, 0, false, false⟩,
      ⟨6, 1, .ro, 0, false, false⟩,
      ⟨7, 1, .ro, 0, false, false⟩,
      ⟨8, 3, .ro, 0, false, false⟩,
      ⟨16, 19, .ro, 0, false, false⟩]
  | .seSlotStat => [
      ⟨0, 64, .ro, 0, false, false⟩]
  | .seSlotPerm => [
      ⟨0, 64, .ro, 0, false, false⟩]
  | .seDbgStat => [
      ⟨0, 2, .ro, 0, false, false⟩,
      ⟨4, 10, .ro, 0, false, false⟩,
      ⟨16, 24, .ro, 0, false, false⟩,
      ⟨48, 16, .ro, 0, true, false⟩]
  | .seErr => [
      ⟨0, 1, .w1c, 0, false, false⟩,
      ⟨1, 1, .w1c, 0, false, false⟩,
      ⟨2, 1, .w1c, 0, false, false⟩,
      ⟨3, 1, .w1c, 0, false, false⟩,
      ⟨16, 6, .ro, 0, false, false⟩]
  | .obEvrStat => [
      ⟨0, 7, .ro, 0, false, false⟩,
      ⟨16, 32, .ro, 0, true, false⟩,
      ⟨48, 8, .ro, 0, false, false⟩]
  | .obLedgerHead => [
      ⟨0, 40, .ro, 0, false, false⟩]
  | .obLedgerBase => [
      ⟨0, 40, .ro, 0, false, false⟩]
  | .obHours => [
      ⟨0, 32, .ro, 0, false, false⟩,
      ⟨32, 24, .ro, 0, false, false⟩]
  | .obClrCtl => [
      ⟨0, 1, .wo, 0, false, false⟩,
      ⟨1, 4, .wo, 0, false, false⟩]
  | .obClrStat => [
      ⟨0, 2, .ro, 0, false, false⟩,
      ⟨2, 4, .ro, 0, false, false⟩,
      ⟨8, 8, .ro, 0, true, false⟩,
      ⟨16, 16, .ro, 0, false, false⟩,
      ⟨32, 32, .ro, 0, false, false⟩]
  | .obInt => [
      ⟨0, 1, .w1c, 0, false, false⟩,
      ⟨1, 1, .w1c, 0, false, false⟩,
      ⟨2, 1, .w1c, 0, false, false⟩,
      ⟨3, 1, .w1c, 0, false, false⟩,
      ⟨4, 1, .w1c, 0, false, false⟩,
      ⟨5, 1, .w1c, 0, false, false⟩,
      ⟨16, 8, .ro, 0, false, false⟩]
  | .obIntEn => [
      ⟨0, 6, .rw, 63, false, false⟩]
  | .obMsStat => [
      ⟨0, 10, .ro, 0, false, false⟩,
      ⟨16, 16, .ro, 0, false, false⟩]
  | .obPmcCtl => [
      ⟨0, 1, .rw, 0, false, false⟩,
      ⟨1, 1, .wo, 0, false, false⟩]
  | .obPmcOvf => [
      ⟨0, 64, .w1c, 0, false, false⟩]
  | .obUserEn => [
      ⟨0, 64, .rwl, 0, false, false⟩]
  | .obPubCfg => [
      ⟨0, 1, .rwl, 0, false, false⟩,
      ⟨4, 12, .rwl, 0, false, false⟩,
      ⟨16, 16, .rwl, 1000, false, false⟩,
      ⟨32, 32, .ro, 0, false, false⟩]
  | .obPubAddr => [
      ⟨6, 42, .rwl, 0, false, false⟩]
  | .obMonCtl => [
      ⟨0, 1, .wo, 0, false, false⟩,
      ⟨1, 1, .wo, 0, false, false⟩]
  | .obPmcCfg => [
      ⟨0, 1, .rw, 0, false, false⟩,
      ⟨1, 1, .rw, 0, false, false⟩,
      ⟨4, 12, .rw, 0, false, false⟩,
      ⟨16, 12, .rw, 0, false, false⟩]
  | .obPmc => [
      ⟨0, 48, .rw, 0, false, false⟩]
  | .obLmonCfg => [
      ⟨0, 1, .rw, 0, false, false⟩,
      ⟨1, 1, .rw, 0, false, false⟩,
      ⟨2, 3, .rw, 1, false, false⟩,
      ⟨16, 12, .rw, 0, false, false⟩]
  | .obLmonMm => [
      ⟨0, 32, .ro, 4294967295, false, false⟩,
      ⟨32, 32, .ro, 0, false, false⟩]
  | .obLmonCnt => [
      ⟨0, 48, .ro, 0, false, false⟩]
  | .obLmonSum => [
      ⟨0, 64, .ro, 0, false, false⟩]
  | .obLmonHist => [
      ⟨0, 32, .ro, 0, false, false⟩]
  | .obVmonCfg => [
      ⟨0, 1, .rw, 0, false, false⟩,
      ⟨1, 1, .rw, 0, false, false⟩,
      ⟨8, 8, .rw, 0, false, false⟩,
      ⟨16, 12, .rw, 0, false, false⟩,
      ⟨32, 16, .rw, 275, false, false⟩]
  | .obVmonThr => [
      ⟨0, 32, .rw, 2147483647, false, false⟩,
      ⟨32, 32, .ro, 0, false, false⟩]
  | .obVmonMm => [
      ⟨0, 32, .ro, 2147483647, false, false⟩,
      ⟨32, 32, .ro, 2147483648, false, false⟩]
  | .obVmonLast => [
      ⟨0, 32, .ro, 0, false, false⟩]
  | .obVmonSum => [
      ⟨0, 64, .ro, 0, false, false⟩]
  | .obVmonCnt => [
      ⟨0, 48, .ro, 0, false, false⟩]
  | .obChkStat => [
      ⟨0, 2, .ro, 0, false, false⟩,
      ⟨2, 4, .ro, 0, false, false⟩,
      ⟨6, 5, .ro, 0, false, false⟩,
      ⟨16, 48, .ro, 0, false, false⟩]
  | .obChkVal => [
      ⟨0, 64, .ro, 0, false, false⟩]
  | .obChkCfg => [
      ⟨0, 64, .ro, 0, false, false⟩]
  | .obChkPoly => [
      ⟨0, 64, .ro, 0, false, false⟩]
  | .btLock => [
      ⟨0, 1, .rwl, 0, false, false⟩]
  | .btStat => [
      ⟨0, 3, .ro, 0, false, false⟩,
      ⟨3, 1, .ro, 0, false, false⟩,
      ⟨8, 8, .ro, 0, false, false⟩,
      ⟨16, 1, .ro, 0, false, false⟩,
      ⟨32, 16, .ro, 0, false, false⟩]
  | .btCtl => [
      ⟨0, 1, .wo, 0, false, false⟩]
  | .btErr => [
      ⟨0, 1, .w1c, 0, false, false⟩,
      ⟨1, 1, .w1c, 0, false, false⟩,
      ⟨2, 1, .w1c, 0, false, false⟩,
      ⟨16, 3, .ro, 0, false, false⟩]
  | .btMciId => [
      ⟨0, 48, .ro, 0, false, false⟩,
      ⟨48, 8, .ro, 6, false, false⟩,
      ⟨56, 8, .ro, 0, false, false⟩]
  | .btMciStat => [
      ⟨0, 7, .ro, 0, true, false⟩,
      ⟨7, 1, .ro, 0, true, false⟩,
      ⟨8, 8, .ro, 0, true, false⟩,
      ⟨16, 1, .ro, 0, true, false⟩,
      ⟨17, 1, .ro, 0, false, false⟩,
      ⟨18, 1, .ro, 0, false, false⟩]
  | .obLedgerW => [
      ⟨0, 64, .ro, 0, true, false⟩]
  | .obMsW => [
      ⟨0, 64, .ro, 0, true, false⟩]

/-- Every family, in the order of the spec. -/
def Reg.all1 : List Reg :=
  [.glId, .glRegErr, .glPortCfg, .glPortStat, .glPortErr, .glFtTmo, .cpFwStat, .cpDispStat, .cpPortPriv, .cpRingCfg, .cpRingErrAddr, .cpRingStat, .cpRingCtl, .cnCtl, .cnStat, .cnErr, .cnSatCnt, .lgMetaCfg, .lgStat, .lgGrSel, .lgGrData, .lgErr, .lgPoolCfg, .lgPoolStat, .trCfg, .trStat, .trErr, .trDirSel, .trDirData, .trPoolCfg, .trPoolStat, .trModel, .glOpStat, .scLinkCtl, .scLinkStat, .scTrainCfg, .scStackId, .scPprStat, .scLaneMap, .glMapSel, .glMapData, .glMapCtl, .glMapErr, .glLt, .scTim0, .scTim1, .scSchedCfg, .scRefCfg, .scSrefCfg, .scSrefStat, .pcStat, .pcRefStat, .scEccCfg, .scPatrolCfg, .scEccInt, .scEccIntEn, .scRemapSel, .scRemapData, .scSpare, .pcEccStat, .pcEccCnt, .shStat, .shFclkCount, .shTqSel, .shTqCfg, .shTqStat, .shTqBytes, .shPortOvh, .shGateCfg, .shGateCtl, .shGateStat, .shGateErr, .shGateEnt, .abCfg]

def Reg.all2 : List Reg :=
  [.abStat, .abWd, .abInt, .abIntEn, .abPrio, .glLc, .glLcChk, .glLcOver, .tmCfg, .tmStat, .tmFailAck, .tmPwrCfg, .tmPwrStat, .tmStackCfg, .tmInt, .tmIntEn, .tmAon, .tmRstCause, .tmZone, .tmSens, .pkFuse, .pkFuseStat, .pkCfg, .pkHealth, .pkRev, .pkErr, .pkInt, .pkIntEn, .pkRetired, .seLcStat, .seSlotStat, .seSlotPerm, .seDbgStat, .seErr, .obEvrStat, .obLedgerHead, .obLedgerBase, .obHours, .obClrCtl, .obClrStat, .obInt, .obIntEn, .obMsStat, .obPmcCtl, .obPmcOvf, .obUserEn, .obPubCfg, .obPubAddr, .obMonCtl, .obPmcCfg, .obPmc, .obLmonCfg, .obLmonMm, .obLmonCnt, .obLmonSum, .obLmonHist, .obVmonCfg, .obVmonThr, .obVmonMm, .obVmonLast, .obVmonSum, .obVmonCnt, .obChkStat, .obChkVal, .obChkCfg, .obChkPoly, .btLock, .btStat, .btCtl, .btErr, .btMciId, .btMciStat, .obLedgerW, .obMsW]

def Reg.all : List Reg := Reg.all1 ++ Reg.all2

/-- A named field of a register family. -/
structure Fld where
  reg : Reg
  lo : Nat
  w : Nat
  deriving DecidableEq, Repr

namespace F
/-- GL_ID.part_code (R13). -/
def glId_part_code : Fld := ⟨.glId, 0, 16⟩
/-- GL_ID.step_minor (R13). -/
def glId_step_minor : Fld := ⟨.glId, 16, 4⟩
/-- GL_ID.step_major (R13). -/
def glId_step_major : Fld := ⟨.glId, 20, 4⟩
/-- GL_ID.stack_sites (R13). -/
def glId_stack_sites : Fld := ⟨.glId, 24, 4⟩
/-- GL_ID.cluster_count (R13). -/
def glId_cluster_count : Fld := ⟨.glId, 28, 4⟩
/-- GL_REG_ERR.size_err (R14). -/
def glRegErr_size_err : Fld := ⟨.glRegErr, 0, 1⟩
/-- GL_REG_ERR.unmapped (R14). -/
def glRegErr_unmapped : Fld := ⟨.glRegErr, 1, 1⟩
/-- GL_REG_ERR.ro_write (R14). -/
def glRegErr_ro_write : Fld := ⟨.glRegErr, 2, 1⟩
/-- GL_REG_ERR.lock_viol (R14). -/
def glRegErr_lock_viol : Fld := ⟨.glRegErr, 3, 1⟩
/-- GL_REG_ERR.first_offset (R14). -/
def glRegErr_first_offset : Fld := ⟨.glRegErr, 24, 24⟩
/-- GL_REG_ERR.first_path (R14). -/
def glRegErr_first_path : Fld := ⟨.glRegErr, 48, 1⟩
/-- GL_PORT_CFG.en (R67). -/
def glPortCfg_en : Fld := ⟨.glPortCfg, 0, 1⟩
/-- GL_PORT_CFG.atomic_en (R67). -/
def glPortCfg_atomic_en : Fld := ⟨.glPortCfg, 1, 1⟩
/-- GL_PORT_CFG.aperture_en (R67). -/
def glPortCfg_aperture_en : Fld := ⟨.glPortCfg, 2, 1⟩
/-- GL_PORT_CFG.rev_cap (R67). -/
def glPortCfg_rev_cap : Fld := ⟨.glPortCfg, 4, 4⟩
/-- GL_PORT_CFG.tenant_base (R67). -/
def glPortCfg_tenant_base : Fld := ⟨.glPortCfg, 8, 12⟩
/-- GL_PORT_CFG.tenant_limit (R67). -/
def glPortCfg_tenant_limit : Fld := ⟨.glPortCfg, 20, 12⟩
/-- GL_PORT_CFG.hdr_credits (R67). -/
def glPortCfg_hdr_credits : Fld := ⟨.glPortCfg, 32, 11⟩
/-- GL_PORT_CFG.wdat_credits (R67). -/
def glPortCfg_wdat_credits : Fld := ⟨.glPortCfg, 43, 10⟩
/-- GL_PORT_STAT.state (R68). -/
def glPortStat_state : Fld := ⟨.glPortStat, 0, 3⟩
/-- GL_PORT_STAT.rev_op (R68). -/
def glPortStat_rev_op : Fld := ⟨.glPortStat, 4, 4⟩
/-- GL_PORT_STAT.rsp_credits (R68). -/
def glPortStat_rsp_credits : Fld := ⟨.glPortStat, 8, 13⟩
/-- GL_PORT_STAT.outstanding (R68). -/
def glPortStat_outstanding : Fld := ⟨.glPortStat, 21, 13⟩
/-- GL_PORT_STAT.fence_hold (R68). -/
def glPortStat_fence_hold : Fld := ⟨.glPortStat, 34, 1⟩
/-- GL_PORT_STAT.resets (R68). -/
def glPortStat_resets : Fld := ⟨.glPortStat, 48, 16⟩
/-- GL_PORT_ERR.malformed (R70). -/
def glPortErr_malformed : Fld := ⟨.glPortErr, 0, 1⟩
/-- GL_PORT_ERR.unsupported (R70). -/
def glPortErr_unsupported : Fld := ⟨.glPortErr, 1, 1⟩
/-- GL_PORT_ERR.denied (R70). -/
def glPortErr_denied : Fld := ⟨.glPortErr, 2, 1⟩
/-- GL_PORT_ERR.unmapped (R70). -/
def glPortErr_unmapped : Fld := ⟨.glPortErr, 3, 1⟩
/-- GL_PORT_ERR.crd_overflow (R70). -/
def glPortErr_crd_overflow : Fld := ⟨.glPortErr, 4, 1⟩
/-- GL_PORT_ERR.far_err (R70). -/
def glPortErr_far_err : Fld := ⟨.glPortErr, 5, 1⟩
/-- GL_PORT_ERR.first_tag (R70). -/
def glPortErr_first_tag : Fld := ⟨.glPortErr, 16, 12⟩
/-- GL_PORT_ERR.first_kind (R70). -/
def glPortErr_first_kind : Fld := ⟨.glPortErr, 28, 4⟩
/-- GL_FT_TMO.tmo_us (R71). -/
def glFtTmo_tmo_us : Fld := ⟨.glFtTmo, 0, 16⟩
/-- CP_FW_STAT.state (R98). -/
def cpFwStat_state : Fld := ⟨.cpFwStat, 0, 2⟩
/-- CP_FW_STAT.reload_src (R98). -/
def cpFwStat_reload_src : Fld := ⟨.cpFwStat, 2, 2⟩
/-- CP_FW_STAT.image_ver (R98). -/
def cpFwStat_image_ver : Fld := ⟨.cpFwStat, 8, 24⟩
/-- CP_FW_STAT.traps (R98). -/
def cpFwStat_traps : Fld := ⟨.cpFwStat, 32, 16⟩
/-- CP_FW_STAT.fwq_depth (R98). -/
def cpFwStat_fwq_depth : Fld := ⟨.cpFwStat, 48, 10⟩
/-- CP_DISP_STAT.inflight (R99). -/
def cpDispStat_inflight : Fld := ⟨.cpDispStat, 0, 13⟩
/-- CP_DISP_STAT.chan_busy (R99). -/
def cpDispStat_chan_busy : Fld := ⟨.cpDispStat, 16, 16⟩
/-- CP_DISP_STAT.reply_lost (R99). -/
def cpDispStat_reply_lost : Fld := ⟨.cpDispStat, 32, 16⟩
/-- CP_PORT_PRIV.maint (R100). -/
def cpPortPriv_maint : Fld := ⟨.cpPortPriv, 0, 1⟩
/-- CP_PORT_PRIV.resid (R100). -/
def cpPortPriv_resid : Fld := ⟨.cpPortPriv, 1, 1⟩
/-- CP_PORT_PRIV.recipe (R100). -/
def cpPortPriv_recipe : Fld := ⟨.cpPortPriv, 2, 1⟩
/-- CP_PORT_PRIV.check (R100). -/
def cpPortPriv_check : Fld := ⟨.cpPortPriv, 3, 1⟩
/-- CP_RING_CFG.en (R101). -/
def cpRingCfg_en : Fld := ⟨.cpRingCfg, 0, 1⟩
/-- CP_RING_CFG.progress_en (R101). -/
def cpRingCfg_progress_en : Fld := ⟨.cpRingCfg, 1, 1⟩
/-- CP_RING_CFG.progress_addr (R101). -/
def cpRingCfg_progress_addr : Fld := ⟨.cpRingCfg, 5, 43⟩
/-- CP_RING_ERR_ADDR.err_addr (R102). -/
def cpRingErrAddr_err_addr : Fld := ⟨.cpRingErrAddr, 5, 43⟩
/-- CP_RING_STAT.state (R103). -/
def cpRingStat_state : Fld := ⟨.cpRingStat, 0, 2⟩
/-- CP_RING_STAT.prog_fail (R103). -/
def cpRingStat_prog_fail : Fld := ⟨.cpRingStat, 8, 8⟩
/-- CP_RING_STAT.next_seq (R103). -/
def cpRingStat_next_seq : Fld := ⟨.cpRingStat, 16, 16⟩
/-- CP_RING_STAT.parse_ptr (R103). -/
def cpRingStat_parse_ptr : Fld := ⟨.cpRingStat, 32, 8⟩
/-- CP_RING_STAT.live (R103). -/
def cpRingStat_live : Fld := ⟨.cpRingStat, 40, 9⟩
/-- CP_RING_STAT.reply_lost (R103). -/
def cpRingStat_reply_lost : Fld := ⟨.cpRingStat, 56, 8⟩
/-- CP_RING_CTL.restart (R104). -/
def cpRingCtl_restart : Fld := ⟨.cpRingCtl, 0, 1⟩
/-- CN_CTL.core_en (R141). -/
def cnCtl_core_en : Fld := ⟨.cnCtl, 0, 16⟩
/-- CN_CTL.creset (R141). -/
def cnCtl_creset : Fld := ⟨.cnCtl, 16, 1⟩
/-- CN_STAT.state (R142). -/
def cnStat_state : Fld := ⟨.cnStat, 0, 2⟩
/-- CN_STAT.thr_level (R142). -/
def cnStat_thr_level : Fld := ⟨.cnStat, 2, 2⟩
/-- CN_STAT.busy (R142). -/
def cnStat_busy : Fld := ⟨.cnStat, 16, 16⟩
/-- CN_STAT.iters (R142). -/
def cnStat_iters : Fld := ⟨.cnStat, 32, 32⟩
/-- CN_ERR.poison (R143). -/
def cnErr_poison : Fld := ⟨.cnErr, 0, 1⟩
/-- CN_ERR.far_err (R143). -/
def cnErr_far_err : Fld := ⟨.cnErr, 1, 1⟩
/-- CN_ERR.nan_out (R143). -/
def cnErr_nan_out : Fld := ⟨.cnErr, 2, 1⟩
/-- CN_ERR.sat (R143). -/
def cnErr_sat : Fld := ⟨.cnErr, 3, 1⟩
/-- CN_ERR.first_core (R143). -/
def cnErr_first_core : Fld := ⟨.cnErr, 16, 4⟩
/-- CN_ERR.first_step (R143). -/
def cnErr_first_step : Fld := ⟨.cnErr, 20, 8⟩
/-- CN_SAT_CNT.count (R144). -/
def cnSatCnt_count : Fld := ⟨.cnSatCnt, 0, 48⟩
/-- LG_META_CFG.en (R180). -/
def lgMetaCfg_en : Fld := ⟨.lgMetaCfg, 0, 1⟩
/-- LG_META_CFG.desc (R180). -/
def lgMetaCfg_desc : Fld := ⟨.lgMetaCfg, 4, 12⟩
/-- LG_META_CFG.frames (R180). -/
def lgMetaCfg_frames : Fld := ⟨.lgMetaCfg, 16, 19⟩
/-- LG_STAT.open (R181). -/
def lgStat_open : Fld := ⟨.lgStat, 0, 19⟩
/-- LG_STAT.degraded (R181). -/
def lgStat_degraded : Fld := ⟨.lgStat, 19, 19⟩
/-- LG_STAT.meta_free (R181). -/
def lgStat_meta_free : Fld := ⟨.lgStat, 38, 19⟩
/-- LG_STAT.walk (R181). -/
def lgStat_walk : Fld := ⟨.lgStat, 57, 1⟩
/-- LG_GR_SEL.id (R182). -/
def lgGrSel_id : Fld := ⟨.lgGrSel, 0, 18⟩
/-- LG_GR_DATA.word (R182). -/
def lgGrData_word : Fld := ⟨.lgGrData, 0, 64⟩
/-- LG_ERR.pool_empty (R183). -/
def lgErr_pool_empty : Fld := ⟨.lgErr, 0, 1⟩
/-- LG_ERR.meta_empty (R183). -/
def lgErr_meta_empty : Fld := ⟨.lgErr, 1, 1⟩
/-- LG_ERR.lost (R183). -/
def lgErr_lost : Fld := ⟨.lgErr, 2, 1⟩
/-- LG_ERR.backing (R183). -/
def lgErr_backing : Fld := ⟨.lgErr, 3, 1⟩
/-- LG_ERR.first_stream (R183). -/
def lgErr_first_stream : Fld := ⟨.lgErr, 20, 18⟩
/-- LG_POOL_CFG.en (R184). -/
def lgPoolCfg_en : Fld := ⟨.lgPoolCfg, 0, 1⟩
/-- LG_POOL_CFG.mirror (R184). -/
def lgPoolCfg_mirror : Fld := ⟨.lgPoolCfg, 1, 1⟩
/-- LG_POOL_CFG.desc (R184). -/
def lgPoolCfg_desc : Fld := ⟨.lgPoolCfg, 4, 12⟩
/-- LG_POOL_CFG.frames (R184). -/
def lgPoolCfg_frames : Fld := ⟨.lgPoolCfg, 16, 19⟩
/-- LG_POOL_STAT.free (R184). -/
def lgPoolStat_free : Fld := ⟨.lgPoolStat, 0, 19⟩
/-- LG_POOL_STAT.state (R184). -/
def lgPoolStat_state : Fld := ⟨.lgPoolStat, 20, 2⟩
/-- LG_POOL_STAT.lost (R184). -/
def lgPoolStat_lost : Fld := ⟨.lgPoolStat, 32, 19⟩
/-- TR_CFG.en (R221). -/
def trCfg_en : Fld := ⟨.trCfg, 0, 1⟩
/-- TR_CFG.max_fetch (R221). -/
def trCfg_max_fetch : Fld := ⟨.trCfg, 4, 6⟩
/-- TR_CFG.reserve (R221). -/
def trCfg_reserve : Fld := ⟨.trCfg, 16, 20⟩
/-- TR_STAT.mapped (R222). -/
def trStat_mapped : Fld := ⟨.trStat, 0, 26⟩
/-- TR_STAT.fetching (R222). -/
def trStat_fetching : Fld := ⟨.trStat, 26, 6⟩
/-- TR_STAT.pfq (R222). -/
def trStat_pfq : Fld := ⟨.trStat, 32, 13⟩
/-- TR_STAT.oc (R222). -/
def trStat_oc : Fld := ⟨.trStat, 45, 1⟩
/-- TR_ERR.far_err (R223). -/
def trErr_far_err : Fld := ⟨.trErr, 0, 1⟩
/-- TR_ERR.pin_short (R223). -/
def trErr_pin_short : Fld := ⟨.trErr, 1, 1⟩
/-- TR_ERR.backing (R223). -/
def trErr_backing : Fld := ⟨.trErr, 2, 1⟩
/-- TR_ERR.sat (R223). -/
def trErr_sat : Fld := ⟨.trErr, 3, 1⟩
/-- TR_ERR.first_seg (R223). -/
def trErr_first_seg : Fld := ⟨.trErr, 20, 25⟩
/-- TR_DIR_SEL.seg (R224). -/
def trDirSel_seg : Fld := ⟨.trDirSel, 0, 25⟩
/-- TR_DIR_DATA.word (R224). -/
def trDirData_word : Fld := ⟨.trDirData, 0, 64⟩
/-- TR_POOL_CFG.en (R225). -/
def trPoolCfg_en : Fld := ⟨.trPoolCfg, 0, 1⟩
/-- TR_POOL_CFG.desc (R225). -/
def trPoolCfg_desc : Fld := ⟨.trPoolCfg, 4, 12⟩
/-- TR_POOL_CFG.frames (R225). -/
def trPoolCfg_frames : Fld := ⟨.trPoolCfg, 16, 16⟩
/-- TR_POOL_STAT.free (R225). -/
def trPoolStat_free : Fld := ⟨.trPoolStat, 0, 16⟩
/-- TR_POOL_STAT.local (R225). -/
def trPoolStat_local : Fld := ⟨.trPoolStat, 16, 16⟩
/-- TR_POOL_STAT.usable (R225). -/
def trPoolStat_usable : Fld := ⟨.trPoolStat, 32, 16⟩
/-- TR_POOL_STAT.state (R225). -/
def trPoolStat_state : Fld := ⟨.trPoolStat, 48, 2⟩
/-- TR_MODEL.ws_segs (R226). -/
def trModel_ws_segs : Fld := ⟨.trModel, 0, 26⟩
/-- TR_MODEL.oc (R226). -/
def trModel_oc : Fld := ⟨.trModel, 26, 1⟩
/-- TR_MODEL.short_segs (R226). -/
def trModel_short_segs : Fld := ⟨.trModel, 32, 26⟩
/-- GL_OP_STAT.op (R253). -/
def glOpStat_op : Fld := ⟨.glOpStat, 0, 1⟩
/-- GL_OP_STAT.busy (R253). -/
def glOpStat_busy : Fld := ⟨.glOpStat, 1, 1⟩
/-- GL_OP_STAT.changes (R253). -/
def glOpStat_changes : Fld := ⟨.glOpStat, 16, 16⟩
/-- GL_OP_STAT.last_stall_ns (R253). -/
def glOpStat_last_stall_ns : Fld := ⟨.glOpStat, 32, 32⟩
/-- SC_LINK_CTL.sreset (R254). -/
def scLinkCtl_sreset : Fld := ⟨.scLinkCtl, 0, 1⟩
/-- SC_LINK_CTL.periodic_en (R254). -/
def scLinkCtl_periodic_en : Fld := ⟨.scLinkCtl, 1, 1⟩
/-- SC_LINK_STAT.state (R255). -/
def scLinkStat_state : Fld := ⟨.scLinkStat, 0, 3⟩
/-- SC_LINK_STAT.cause (R255). -/
def scLinkStat_cause : Fld := ⟨.scLinkStat, 4, 3⟩
/-- SC_LINK_STAT.attempts (R255). -/
def scLinkStat_attempts : Fld := ⟨.scLinkStat, 8, 2⟩
/-- SC_LINK_STAT.usable_pc (R255). -/
def scLinkStat_usable_pc : Fld := ⟨.scLinkStat, 10, 7⟩
/-- SC_LINK_STAT.train_us (R255). -/
def scLinkStat_train_us : Fld := ⟨.scLinkStat, 20, 20⟩
/-- SC_LINK_STAT.temp_c (R255). -/
def scLinkStat_temp_c : Fld := ⟨.scLinkStat, 40, 8⟩
/-- SC_LINK_STAT.resets (R255). -/
def scLinkStat_resets : Fld := ⟨.scLinkStat, 48, 16⟩
/-- SC_TRAIN_CFG.period_ms (R256). -/
def scTrainCfg_period_ms : Fld := ⟨.scTrainCfg, 0, 8⟩
/-- SC_TRAIN_CFG.drift_c (R256). -/
def scTrainCfg_drift_c : Fld := ⟨.scTrainCfg, 8, 4⟩
/-- SC_TRAIN_CFG.defer_urg (R256). -/
def scTrainCfg_defer_urg : Fld := ⟨.scTrainCfg, 12, 3⟩
/-- SC_TRAIN_CFG.defer_max_us (R256). -/
def scTrainCfg_defer_max_us : Fld := ⟨.scTrainCfg, 16, 16⟩
/-- SC_TRAIN_CFG.drift_gap_us (R256). -/
def scTrainCfg_drift_gap_us : Fld := ⟨.scTrainCfg, 32, 12⟩
/-- SC_STACK_ID.vendor (R257). -/
def scStackId_vendor : Fld := ⟨.scStackId, 0, 8⟩
/-- SC_STACK_ID.density (R257). -/
def scStackId_density : Fld := ⟨.scStackId, 8, 4⟩
/-- SC_STACK_ID.height (R257). -/
def scStackId_height : Fld := ⟨.scStackId, 12, 5⟩
/-- SC_STACK_ID.qual_48g (R257). -/
def scStackId_qual_48g : Fld := ⟨.scStackId, 17, 1⟩
/-- SC_STACK_ID.qual_op0 (R257). -/
def scStackId_qual_op0 : Fld := ⟨.scStackId, 18, 1⟩
/-- SC_STACK_ID.qual_epoch (R257). -/
def scStackId_qual_epoch : Fld := ⟨.scStackId, 19, 1⟩
/-- SC_STACK_ID.serial (R257). -/
def scStackId_serial : Fld := ⟨.scStackId, 32, 32⟩
/-- SC_PPR_STAT.soft_used (R258). -/
def scPprStat_soft_used : Fld := ⟨.scPprStat, 0, 16⟩
/-- SC_PPR_STAT.hard_pending (R258). -/
def scPprStat_hard_pending : Fld := ⟨.scPprStat, 16, 16⟩
/-- SC_PPR_STAT.soft_min (R258). -/
def scPprStat_soft_min : Fld := ⟨.scPprStat, 32, 4⟩
/-- SC_PPR_STAT.hard_min (R258). -/
def scPprStat_hard_min : Fld := ⟨.scPprStat, 36, 4⟩
/-- SC_LANE_MAP.out_g0–out_g7 (R259). -/
def scLaneMap_outG : Fld := ⟨.scLaneMap, 0, 32⟩
/-- SC_LANE_MAP.out_g8 (R259). -/
def scLaneMap_out_g8 : Fld := ⟨.scLaneMap, 32, 4⟩
/-- SC_LANE_MAP.epoch (R259). -/
def scLaneMap_epoch : Fld := ⟨.scLaneMap, 36, 8⟩
/-- SC_LANE_MAP.retired (R259). -/
def scLaneMap_retired : Fld := ⟨.scLaneMap, 44, 1⟩
/-- GL_MAP_SEL.idx (R293). -/
def glMapSel_idx : Fld := ⟨.glMapSel, 0, 12⟩
/-- GL_MAP_DATA.word (R293). -/
def glMapData_word : Fld := ⟨.glMapData, 0, 64⟩
/-- GL_MAP_CTL.write (R294). -/
def glMapCtl_write : Fld := ⟨.glMapCtl, 0, 1⟩
/-- GL_MAP_CTL.apply (R294). -/
def glMapCtl_apply : Fld := ⟨.glMapCtl, 1, 1⟩
/-- GL_MAP_CTL.applied (R294). -/
def glMapCtl_applied : Fld := ⟨.glMapCtl, 2, 1⟩
/-- GL_MAP_ERR.desc_err (R296). -/
def glMapErr_desc_err : Fld := ⟨.glMapErr, 0, 1⟩
/-- GL_MAP_ERR.tree_err (R296). -/
def glMapErr_tree_err : Fld := ⟨.glMapErr, 1, 1⟩
/-- GL_MAP_ERR.first_idx (R296). -/
def glMapErr_first_idx : Fld := ⟨.glMapErr, 16, 12⟩
/-- GL_MAP_ERR.first_check (R296). -/
def glMapErr_first_check : Fld := ⟨.glMapErr, 28, 4⟩
/-- GL_LT.lt (R297). -/
def glLt_lt : Fld := ⟨.glLt, 0, 16⟩
/-- SC_TIM(op,0).trcd (R298). -/
def scTim0_trcd : Fld := ⟨.scTim0, 0, 8⟩
/-- SC_TIM(op,0).trp (R298). -/
def scTim0_trp : Fld := ⟨.scTim0, 8, 8⟩
/-- SC_TIM(op,0).cl (R298). -/
def scTim0_cl : Fld := ⟨.scTim0, 16, 8⟩
/-- SC_TIM(op,0).tras (R298). -/
def scTim0_tras : Fld := ⟨.scTim0, 24, 8⟩
/-- SC_TIM(op,0).tccd_l (R298). -/
def scTim0_tccd_l : Fld := ⟨.scTim0, 32, 4⟩
/-- SC_TIM(op,0).tccd_s (R298). -/
def scTim0_tccd_s : Fld := ⟨.scTim0, 36, 4⟩
/-- SC_TIM(op,0).trrd_s (R298). -/
def scTim0_trrd_s : Fld := ⟨.scTim0, 40, 4⟩
/-- SC_TIM(op,0).trrd_l (R298). -/
def scTim0_trrd_l : Fld := ⟨.scTim0, 44, 4⟩
/-- SC_TIM(op,0).twl (R298). -/
def scTim0_twl : Fld := ⟨.scTim0, 48, 8⟩
/-- SC_TIM(op,1).trfcpb (R298). -/
def scTim1_trfcpb : Fld := ⟨.scTim1, 0, 10⟩
/-- SC_TIM(op,1).tfaw (R298). -/
def scTim1_tfaw : Fld := ⟨.scTim1, 16, 8⟩
/-- SC_TIM(op,1).twr (R298). -/
def scTim1_twr : Fld := ⟨.scTim1, 24, 8⟩
/-- SC_TIM(op,1).twtr_s (R298). -/
def scTim1_twtr_s : Fld := ⟨.scTim1, 32, 4⟩
/-- SC_TIM(op,1).twtr_l (R298). -/
def scTim1_twtr_l : Fld := ⟨.scTim1, 36, 4⟩
/-- SC_TIM(op,1).trtw (R298). -/
def scTim1_trtw : Fld := ⟨.scTim1, 40, 8⟩
/-- SC_TIM(op,1).txs (R298). -/
def scTim1_txs : Fld := ⟨.scTim1, 48, 10⟩
/-- SC_SCHED_CFG.wq_hi (R299). -/
def scSchedCfg_wq_hi : Fld := ⟨.scSchedCfg, 0, 6⟩
/-- SC_SCHED_CFG.wq_lo (R299). -/
def scSchedCfg_wq_lo : Fld := ⟨.scSchedCfg, 8, 6⟩
/-- SC_SCHED_CFG.wr_min (R299). -/
def scSchedCfg_wr_min : Fld := ⟨.scSchedCfg, 16, 4⟩
/-- SC_SCHED_CFG.rd_min (R299). -/
def scSchedCfg_rd_min : Fld := ⟨.scSchedCfg, 20, 4⟩
/-- SC_SCHED_CFG.urg_brk (R299). -/
def scSchedCfg_urg_brk : Fld := ⟨.scSchedCfg, 24, 3⟩
/-- SC_SCHED_CFG.cmd_cap (R299). -/
def scSchedCfg_cmd_cap : Fld := ⟨.scSchedCfg, 28, 2⟩
/-- SC_REF_CFG.trefi_pb (R300). -/
def scRefCfg_trefi_pb : Fld := ⟨.scRefCfg, 0, 8⟩
/-- SC_REF_CFG.hot (R300). -/
def scRefCfg_hot : Fld := ⟨.scRefCfg, 8, 1⟩
/-- SC_REF_CFG.hot_on_c (R300). -/
def scRefCfg_hot_on_c : Fld := ⟨.scRefCfg, 16, 8⟩
/-- SC_REF_CFG.hot_off_c (R300). -/
def scRefCfg_hot_off_c : Fld := ⟨.scRefCfg, 24, 8⟩
/-- SC_SREF_CFG.en (R301). -/
def scSrefCfg_en : Fld := ⟨.scSrefCfg, 0, 1⟩
/-- SC_SREF_CFG.idle_us (R301). -/
def scSrefCfg_idle_us : Fld := ⟨.scSrefCfg, 4, 16⟩
/-- SC_SREF_STAT.entries (R302). -/
def scSrefStat_entries : Fld := ⟨.scSrefStat, 0, 32⟩
/-- SC_SREF_STAT.retrains (R302). -/
def scSrefStat_retrains : Fld := ⟨.scSrefStat, 32, 16⟩
/-- SC_SREF_STAT.cancels (R302). -/
def scSrefStat_cancels : Fld := ⟨.scSrefStat, 48, 16⟩
/-- PC_STAT.cond (R303). -/
def pcStat_cond : Fld := ⟨.pcStat, 0, 2⟩
/-- PC_STAT.turn (R303). -/
def pcStat_turn : Fld := ⟨.pcStat, 2, 1⟩
/-- PC_STAT.rq (R303). -/
def pcStat_rq : Fld := ⟨.pcStat, 3, 7⟩
/-- PC_STAT.wq (R303). -/
def pcStat_wq : Fld := ⟨.pcStat, 10, 6⟩
/-- PC_STAT.mb (R303). -/
def pcStat_mb : Fld := ⟨.pcStat, 16, 4⟩
/-- PC_STAT.max_debt (R303). -/
def pcStat_max_debt : Fld := ⟨.pcStat, 20, 4⟩
/-- PC_STAT.open_rows (R303). -/
def pcStat_open_rows : Fld := ⟨.pcStat, 24, 7⟩
/-- PC_STAT.turns (R303). -/
def pcStat_turns : Fld := ⟨.pcStat, 32, 32⟩
/-- PC_REF_STAT.issued (R304). -/
def pcRefStat_issued : Fld := ⟨.pcRefStat, 0, 32⟩
/-- PC_REF_STAT.forced (R304). -/
def pcRefStat_forced : Fld := ⟨.pcRefStat, 32, 16⟩
/-- SC_ECC_CFG.ce_thr (R340). -/
def scEccCfg_ce_thr : Fld := ⟨.scEccCfg, 0, 8⟩
/-- SC_ECC_CFG.leak_ms (R340). -/
def scEccCfg_leak_ms : Fld := ⟨.scEccCfg, 8, 16⟩
/-- SC_ECC_CFG.merge_win (R340). -/
def scEccCfg_merge_win : Fld := ⟨.scEccCfg, 24, 8⟩
/-- SC_ECC_CFG.row_ce_thr (R340). -/
def scEccCfg_row_ce_thr : Fld := ⟨.scEccCfg, 32, 4⟩
/-- SC_ECC_CFG.lane_thr (R340). -/
def scEccCfg_lane_thr : Fld := ⟨.scEccCfg, 36, 6⟩
/-- SC_ECC_CFG.bank_thr (R340). -/
def scEccCfg_bank_thr : Fld := ⟨.scEccCfg, 42, 6⟩
/-- SC_ECC_CFG.auto_retire (R340). -/
def scEccCfg_auto_retire : Fld := ⟨.scEccCfg, 48, 1⟩
/-- SC_PATROL_CFG.period_h (R341). -/
def scPatrolCfg_period_h : Fld := ⟨.scPatrolCfg, 0, 8⟩
/-- SC_PATROL_CFG.rate_gbs (R341). -/
def scPatrolCfg_rate_gbs : Fld := ⟨.scPatrolCfg, 8, 16⟩
/-- SC_PATROL_CFG.passes (R341). -/
def scPatrolCfg_passes : Fld := ⟨.scPatrolCfg, 32, 16⟩
/-- SC_ECC_INT.ce_ovf (R342). -/
def scEccInt_ce_ovf : Fld := ⟨.scEccInt, 0, 1⟩
/-- SC_ECC_INT.ue (R342). -/
def scEccInt_ue : Fld := ⟨.scEccInt, 1, 1⟩
/-- SC_ECC_INT.retire_due (R342). -/
def scEccInt_retire_due : Fld := ⟨.scEccInt, 2, 1⟩
/-- SC_ECC_INT.remap_full (R342). -/
def scEccInt_remap_full : Fld := ⟨.scEccInt, 3, 1⟩
/-- SC_ECC_INT.spare_used (R342). -/
def scEccInt_spare_used : Fld := ⟨.scEccInt, 4, 1⟩
/-- SC_ECC_INT.first_pc (R342). -/
def scEccInt_first_pc : Fld := ⟨.scEccInt, 16, 6⟩
/-- SC_ECC_INT_EN.en (R342). -/
def scEccIntEn_en : Fld := ⟨.scEccIntEn, 0, 5⟩
/-- SC_REMAP_SEL.idx (R343). -/
def scRemapSel_idx : Fld := ⟨.scRemapSel, 0, 12⟩
/-- SC_REMAP_SEL.used (R343). -/
def scRemapSel_used : Fld := ⟨.scRemapSel, 16, 13⟩
/-- SC_REMAP_DATA.entry (R343). -/
def scRemapData_entry : Fld := ⟨.scRemapData, 0, 64⟩
/-- SC_SPARE.state (R344). -/
def scSpare_state : Fld := ⟨.scSpare, 0, 2⟩
/-- SC_SPARE.pc (R344). -/
def scSpare_pc : Fld := ⟨.scSpare, 2, 6⟩
/-- SC_SPARE.bank (R344). -/
def scSpare_bank : Fld := ⟨.scSpare, 8, 6⟩
/-- SC_SPARE.base_mib (R344). -/
def scSpare_base_mib : Fld := ⟨.scSpare, 16, 9⟩
/-- PC_ECC_STAT.bucket (R345). -/
def pcEccStat_bucket : Fld := ⟨.pcEccStat, 0, 8⟩
/-- PC_ECC_STAT.ovf (R345). -/
def pcEccStat_ovf : Fld := ⟨.pcEccStat, 8, 8⟩
/-- PC_ECC_STAT.epoch (R345). -/
def pcEccStat_epoch : Fld := ⟨.pcEccStat, 16, 4⟩
/-- PC_ECC_STAT.remaps (R345). -/
def pcEccStat_remaps : Fld := ⟨.pcEccStat, 20, 9⟩
/-- PC_ECC_STAT.retire_due (R345). -/
def pcEccStat_retire_due : Fld := ⟨.pcEccStat, 29, 1⟩
/-- PC_ECC_CNT.ce (R346). -/
def pcEccCnt_ce : Fld := ⟨.pcEccCnt, 0, 32⟩
/-- PC_ECC_CNT.ue (R346). -/
def pcEccCnt_ue : Fld := ⟨.pcEccCnt, 32, 16⟩
/-- PC_ECC_CNT.poison_rd (R346). -/
def pcEccCnt_poison_rd : Fld := ⟨.pcEccCnt, 48, 16⟩
/-- SH_STAT.slot (R367). -/
def shStat_slot : Fld := ⟨.shStat, 0, 16⟩
/-- SH_STAT.ready (R367). -/
def shStat_ready : Fld := ⟨.shStat, 16, 13⟩
/-- SH_STAT.wheeled (R367). -/
def shStat_wheeled : Fld := ⟨.shStat, 32, 13⟩
/-- SH_FCLK_COUNT.count (R368). -/
def shFclkCount_count : Fld := ⟨.shFclkCount, 0, 64⟩
/-- SH_TQ_SEL.tenant (R369). -/
def shTqSel_tenant : Fld := ⟨.shTqSel, 0, 12⟩
/-- SH_TQ_CFG.en (R369). -/
def shTqCfg_en : Fld := ⟨.shTqCfg, 0, 1⟩
/-- SH_TQ_CFG.hold (R369). -/
def shTqCfg_hold : Fld := ⟨.shTqCfg, 1, 1⟩
/-- SH_TQ_CFG.rate_mbs (R369). -/
def shTqCfg_rate_mbs : Fld := ⟨.shTqCfg, 8, 24⟩
/-- SH_TQ_CFG.burst_kib (R369). -/
def shTqCfg_burst_kib : Fld := ⟨.shTqCfg, 32, 16⟩
/-- SH_TQ_STAT.state (R369). -/
def shTqStat_state : Fld := ⟨.shTqStat, 0, 2⟩
/-- SH_TQ_STAT.held (R369). -/
def shTqStat_held : Fld := ⟨.shTqStat, 2, 1⟩
/-- SH_TQ_STAT.waiting (R369). -/
def shTqStat_waiting : Fld := ⟨.shTqStat, 16, 16⟩
/-- SH_TQ_STAT.debt (R369). -/
def shTqStat_debt : Fld := ⟨.shTqStat, 32, 32⟩
/-- SH_TQ_BYTES.bytes (R369). -/
def shTqBytes_bytes : Fld := ⟨.shTqBytes, 0, 48⟩
/-- SH_PORT_OVH.ovh (R370). -/
def shPortOvh_ovh : Fld := ⟨.shPortOvh, 0, 8⟩
/-- SH_GATE_CFG.en (R371). -/
def shGateCfg_en : Fld := ⟨.shGateCfg, 0, 1⟩
/-- SH_GATE_CFG.guard (R371). -/
def shGateCfg_guard : Fld := ⟨.shGateCfg, 8, 8⟩
/-- SH_GATE_CFG.offset (R371). -/
def shGateCfg_offset : Fld := ⟨.shGateCfg, 16, 22⟩
/-- SH_GATE_CTL.swap (R372). -/
def shGateCtl_swap : Fld := ⟨.shGateCtl, 0, 1⟩
/-- SH_GATE_STAT.bank (R372). -/
def shGateStat_bank : Fld := ⟨.shGateStat, 0, 1⟩
/-- SH_GATE_STAT.armed (R372). -/
def shGateStat_armed : Fld := ⟨.shGateStat, 1, 1⟩
/-- SH_GATE_STAT.entry (R372). -/
def shGateStat_entry : Fld := ⟨.shGateStat, 8, 6⟩
/-- SH_GATE_STAT.cycle (R372). -/
def shGateStat_cycle : Fld := ⟨.shGateStat, 14, 22⟩
/-- SH_GATE_STAT.pos (R372). -/
def shGateStat_pos : Fld := ⟨.shGateStat, 36, 22⟩
/-- SH_GATE_ERR.short_win (R373). -/
def shGateErr_short_win : Fld := ⟨.shGateErr, 0, 1⟩
/-- SH_GATE_ERR.cycle_len (R373). -/
def shGateErr_cycle_len : Fld := ⟨.shGateErr, 1, 1⟩
/-- SH_GATE_ERR.no_class (R373). -/
def shGateErr_no_class : Fld := ⟨.shGateErr, 2, 1⟩
/-- SH_GATE_ERR.no_stage (R373). -/
def shGateErr_no_stage : Fld := ⟨.shGateErr, 3, 1⟩
/-- SH_GATE_ERR.busy (R373). -/
def shGateErr_busy : Fld := ⟨.shGateErr, 4, 1⟩
/-- SH_GATE_ERR.first_entry (R373). -/
def shGateErr_first_entry : Fld := ⟨.shGateErr, 16, 6⟩
/-- SH_GATE_ENT.open (R374). -/
def shGateEnt_open : Fld := ⟨.shGateEnt, 0, 8⟩
/-- SH_GATE_ENT.dur (R374). -/
def shGateEnt_dur : Fld := ⟨.shGateEnt, 8, 22⟩
/-- AB_CFG.wd_us (R390). -/
def abCfg_wd_us : Fld := ⟨.abCfg, 0, 14⟩
/-- AB_CFG.win_us (R390). -/
def abCfg_win_us : Fld := ⟨.abCfg, 16, 16⟩
/-- AB_STAT.owner (R391). -/
def abStat_owner : Fld := ⟨.abStat, 0, 3⟩
/-- AB_STAT.held (R391). -/
def abStat_held : Fld := ⟨.abStat, 3, 1⟩
/-- AB_STAT.pending (R391). -/
def abStat_pending : Fld := ⟨.abStat, 4, 8⟩
/-- AB_STAT.masked (R391). -/
def abStat_masked : Fld := ⟨.abStat, 12, 8⟩
/-- AB_STAT.seize (R391). -/
def abStat_seize : Fld := ⟨.abStat, 20, 1⟩
/-- AB_STAT.held_us (R391). -/
def abStat_held_us : Fld := ⟨.abStat, 32, 32⟩
/-- AB_WD.bites (R392). -/
def abWd_bites : Fld := ⟨.abWd, 0, 16⟩
/-- AB_WD.circles (R392). -/
def abWd_circles : Fld := ⟨.abWd, 16, 16⟩
/-- AB_WD.last_victim_inst (R392). -/
def abWd_last_victim_inst : Fld := ⟨.abWd, 32, 4⟩
/-- AB_WD.last_victim_req (R392). -/
def abWd_last_victim_req : Fld := ⟨.abWd, 36, 3⟩
/-- AB_INT.wd_bite (R393). -/
def abInt_wd_bite : Fld := ⟨.abInt, 0, 1⟩
/-- AB_INT.circle (R393). -/
def abInt_circle : Fld := ⟨.abInt, 1, 1⟩
/-- AB_INT.seize (R393). -/
def abInt_seize : Fld := ⟨.abInt, 2, 1⟩
/-- AB_INT_EN.en (R393). -/
def abIntEn_en : Fld := ⟨.abIntEn, 0, 3⟩
/-- AB_PRIO.prio (R394). -/
def abPrio_prio : Fld := ⟨.abPrio, 0, 2⟩
/-- AB_PRIO.quota (R394). -/
def abPrio_quota : Fld := ⟨.abPrio, 4, 4⟩
/-- AB_PRIO.grants (R394). -/
def abPrio_grants : Fld := ⟨.abPrio, 16, 8⟩
/-- GL_LC.b_run (R409). -/
def glLc_b_run : Fld := ⟨.glLc, 0, 16⟩
/-- GL_LC.b_max (R409). -/
def glLc_b_max : Fld := ⟨.glLc, 16, 16⟩
/-- GL_LC.gate_fclk (R409). -/
def glLc_gate_fclk : Fld := ⟨.glLc, 32, 24⟩
/-- GL_LC.valid (R409). -/
def glLc_valid : Fld := ⟨.glLc, 56, 1⟩
/-- GL_LC_CHK.en (R410). -/
def glLcChk_en : Fld := ⟨.glLcChk, 0, 1⟩
/-- GL_LC_OVER.run (R411). -/
def glLcOver_run : Fld := ⟨.glLcOver, 0, 1⟩
/-- GL_LC_OVER.max (R411). -/
def glLcOver_max : Fld := ⟨.glLcOver, 1, 1⟩
/-- GL_LC_OVER.first_class (R411). -/
def glLcOver_first_class : Fld := ⟨.glLcOver, 16, 6⟩
/-- GL_LC_OVER.run_cnt (R411). -/
def glLcOver_run_cnt : Fld := ⟨.glLcOver, 32, 32⟩
/-- TM_CFG.warn_c (R430). -/
def tmCfg_warn_c : Fld := ⟨.tmCfg, 0, 8⟩
/-- TM_CFG.thr_c (R430). -/
def tmCfg_thr_c : Fld := ⟨.tmCfg, 8, 8⟩
/-- TM_CFG.step_c (R430). -/
def tmCfg_step_c : Fld := ⟨.tmCfg, 16, 4⟩
/-- TM_CFG.hyst_c (R430). -/
def tmCfg_hyst_c : Fld := ⟨.tmCfg, 20, 4⟩
/-- TM_CFG.fail_margin_c (R430). -/
def tmCfg_fail_margin_c : Fld := ⟨.tmCfg, 24, 4⟩
/-- TM_CFG.shut_c (R430). -/
def tmCfg_shut_c : Fld := ⟨.tmCfg, 32, 8⟩
/-- TM_CFG.dwell_ms (R430). -/
def tmCfg_dwell_ms : Fld := ⟨.tmCfg, 40, 8⟩
/-- TM_STAT.max_t (R431). -/
def tmStat_max_t : Fld := ⟨.tmStat, 0, 11⟩
/-- TM_STAT.max_zone (R431). -/
def tmStat_max_zone : Fld := ⟨.tmStat, 12, 3⟩
/-- TM_STAT.level (R431). -/
def tmStat_level : Fld := ⟨.tmStat, 16, 2⟩
/-- TM_STAT.warn (R431). -/
def tmStat_warn : Fld := ⟨.tmStat, 18, 1⟩
/-- TM_STAT.pwr_skip (R431). -/
def tmStat_pwr_skip : Fld := ⟨.tmStat, 19, 1⟩
/-- TM_STAT.failed (R431). -/
def tmStat_failed : Fld := ⟨.tmStat, 22, 7⟩
/-- TM_FAIL_ACK.zones (R432). -/
def tmFailAck_zones : Fld := ⟨.tmFailAck, 0, 8⟩
/-- TM_PWR_CFG.env_w (R433). -/
def tmPwrCfg_env_w : Fld := ⟨.tmPwrCfg, 0, 8⟩
/-- TM_PWR_CFG.win_ms (R433). -/
def tmPwrCfg_win_ms : Fld := ⟨.tmPwrCfg, 8, 8⟩
/-- TM_PWR_CFG.rearm_ms (R433). -/
def tmPwrCfg_rearm_ms : Fld := ⟨.tmPwrCfg, 16, 16⟩
/-- TM_PWR_CFG.relax_w (R433). -/
def tmPwrCfg_relax_w : Fld := ⟨.tmPwrCfg, 32, 8⟩
/-- TM_PWR_STAT.est_w (R433). -/
def tmPwrStat_est_w : Fld := ⟨.tmPwrStat, 0, 8⟩
/-- TM_PWR_STAT.grant_w (R433). -/
def tmPwrStat_grant_w : Fld := ⟨.tmPwrStat, 8, 8⟩
/-- TM_PWR_STAT.win (R433). -/
def tmPwrStat_win : Fld := ⟨.tmPwrStat, 16, 2⟩
/-- TM_PWR_STAT.skip (R433). -/
def tmPwrStat_skip : Fld := ⟨.tmPwrStat, 18, 4⟩
/-- TM_PWR_STAT.windows (R433). -/
def tmPwrStat_windows : Fld := ⟨.tmPwrStat, 32, 16⟩
/-- TM_STACK_CFG.cap1_c (R434). -/
def tmStackCfg_cap1_c : Fld := ⟨.tmStackCfg, 0, 8⟩
/-- TM_STACK_CFG.cap2_c (R434). -/
def tmStackCfg_cap2_c : Fld := ⟨.tmStackCfg, 8, 8⟩
/-- TM_STACK_CFG.hyst_c (R434). -/
def tmStackCfg_hyst_c : Fld := ⟨.tmStackCfg, 16, 4⟩
/-- TM_STACK_CFG.stale_ms (R434). -/
def tmStackCfg_stale_ms : Fld := ⟨.tmStackCfg, 24, 8⟩
/-- TM_INT.warn (R435). -/
def tmInt_warn : Fld := ⟨.tmInt, 0, 1⟩
/-- TM_INT.throttle (R435). -/
def tmInt_throttle : Fld := ⟨.tmInt, 1, 1⟩
/-- TM_INT.sens_fail (R435). -/
def tmInt_sens_fail : Fld := ⟨.tmInt, 2, 1⟩
/-- TM_INT.pwr_win (R435). -/
def tmInt_pwr_win : Fld := ⟨.tmInt, 3, 1⟩
/-- TM_INT.stack_cap (R435). -/
def tmInt_stack_cap : Fld := ⟨.tmInt, 4, 1⟩
/-- TM_INT.first_zone (R435). -/
def tmInt_first_zone : Fld := ⟨.tmInt, 16, 3⟩
/-- TM_INT_EN.en (R435). -/
def tmIntEn_en : Fld := ⟨.tmIntEn, 0, 5⟩
/-- TM_AON.mode (R436). -/
def tmAon_mode : Fld := ⟨.tmAon, 0, 1⟩
/-- TM_AON.trim (R436). -/
def tmAon_trim : Fld := ⟨.tmAon, 4, 8⟩
/-- TM_AON.err_ppm (R436). -/
def tmAon_err_ppm : Fld := ⟨.tmAon, 16, 16⟩
/-- TM_RST_CAUSE.last (R437). -/
def tmRstCause_last : Fld := ⟨.tmRstCause, 0, 2⟩
/-- TM_RST_CAUSE.shutdowns (R437). -/
def tmRstCause_shutdowns : Fld := ⟨.tmRstCause, 16, 16⟩
/-- TM_RST_CAUSE.dips (R437). -/
def tmRstCause_dips : Fld := ⟨.tmRstCause, 32, 16⟩
/-- TM_RST_CAUSE.trip_src (R437). -/
def tmRstCause_trip_src : Fld := ⟨.tmRstCause, 48, 7⟩
/-- TM_ZONE.temp (R438). -/
def tmZone_temp : Fld := ⟨.tmZone, 0, 11⟩
/-- TM_ZONE.level (R438). -/
def tmZone_level : Fld := ⟨.tmZone, 16, 2⟩
/-- TM_ZONE.forced (R438). -/
def tmZone_forced : Fld := ⟨.tmZone, 18, 1⟩
/-- TM_ZONE.ack_pend (R438). -/
def tmZone_ack_pend : Fld := ⟨.tmZone, 19, 1⟩
/-- TM_ZONE.fail (R438). -/
def tmZone_fail : Fld := ⟨.tmZone, 24, 8⟩
/-- TM_SENS.reading (R438). -/
def tmSens_reading : Fld := ⟨.tmSens, 0, 11⟩
/-- TM_SENS.state (R438). -/
def tmSens_state : Fld := ⟨.tmSens, 16, 2⟩
/-- PK_FUSE.word (R455). -/
def pkFuse_word : Fld := ⟨.pkFuse, 0, 64⟩
/-- PK_FUSE_STAT.valid (R456). -/
def pkFuseStat_valid : Fld := ⟨.pkFuseStat, 0, 1⟩
/-- PK_FUSE_STAT.written (R456). -/
def pkFuseStat_written : Fld := ⟨.pkFuseStat, 1, 1⟩
/-- PK_FUSE_STAT.pop (R456). -/
def pkFuseStat_pop : Fld := ⟨.pkFuseStat, 8, 8⟩
/-- PK_FUSE_STAT.mismatch (R456). -/
def pkFuseStat_mismatch : Fld := ⟨.pkFuseStat, 16, 8⟩
/-- PK_CFG.resync_gbs (R457). -/
def pkCfg_resync_gbs : Fld := ⟨.pkCfg, 0, 16⟩
/-- PK_HEALTH.grade (R458). -/
def pkHealth_grade : Fld := ⟨.pkHealth, 0, 3⟩
/-- PK_HEALTH.online (R458). -/
def pkHealth_online : Fld := ⟨.pkHealth, 8, 8⟩
/-- PK_HEALTH.failed (R458). -/
def pkHealth_failed : Fld := ⟨.pkHealth, 16, 8⟩
/-- PK_HEALTH.retired (R458). -/
def pkHealth_retired : Fld := ⟨.pkHealth, 24, 10⟩
/-- PK_HEALTH.spared (R458). -/
def pkHealth_spared : Fld := ⟨.pkHealth, 34, 4⟩
/-- PK_HEALTH.capacity_mib (R458). -/
def pkHealth_capacity_mib : Fld := ⟨.pkHealth, 38, 20⟩
/-- PK_REV.newer (R459). -/
def pkRev_newer : Fld := ⟨.pkRev, 0, 24⟩
/-- PK_REV.older (R459). -/
def pkRev_older : Fld := ⟨.pkRev, 24, 24⟩
/-- PK_ERR.fuse_bad (R460). -/
def pkErr_fuse_bad : Fld := ⟨.pkErr, 0, 1⟩
/-- PK_ERR.id_mismatch (R460). -/
def pkErr_id_mismatch : Fld := ⟨.pkErr, 1, 1⟩
/-- PK_ERR.pop_extra (R460). -/
def pkErr_pop_extra : Fld := ⟨.pkErr, 2, 1⟩
/-- PK_ERR.rev_bad (R460). -/
def pkErr_rev_bad : Fld := ⟨.pkErr, 3, 1⟩
/-- PK_ERR.image_retired (R460). -/
def pkErr_image_retired : Fld := ⟨.pkErr, 4, 1⟩
/-- PK_ERR.first_src (R460). -/
def pkErr_first_src : Fld := ⟨.pkErr, 16, 5⟩
/-- PK_INT.stack_off (R461). -/
def pkInt_stack_off : Fld := ⟨.pkInt, 0, 1⟩
/-- PK_INT.stack_on (R461). -/
def pkInt_stack_on : Fld := ⟨.pkInt, 1, 1⟩
/-- PK_INT.pair_down (R461). -/
def pkInt_pair_down : Fld := ⟨.pkInt, 2, 1⟩
/-- PK_INT.grade (R461). -/
def pkInt_grade : Fld := ⟨.pkInt, 3, 1⟩
/-- PK_INT.first_stack (R461). -/
def pkInt_first_stack : Fld := ⟨.pkInt, 16, 3⟩
/-- PK_INT_EN.en (R461). -/
def pkIntEn_en : Fld := ⟨.pkIntEn, 0, 4⟩
/-- PK_RETIRED.mask (R462). -/
def pkRetired_mask : Fld := ⟨.pkRetired, 0, 64⟩
/-- SE_LC_STAT.state (R478). -/
def seLcStat_state : Fld := ⟨.seLcStat, 0, 3⟩
/-- SE_LC_STAT.hub_state (R478). -/
def seLcStat_hub_state : Fld := ⟨.seLcStat, 3, 3⟩
/-- SE_LC_STAT.phase (R478). -/
def seLcStat_phase : Fld := ⟨.seLcStat, 6, 1⟩
/-- SE_LC_STAT.wipe (R478). -/
def seLcStat_wipe : Fld := ⟨.seLcStat, 7, 1⟩
/-- SE_LC_STAT.target (R478). -/
def seLcStat_target : Fld := ⟨.seLcStat, 8, 3⟩
/-- SE_LC_STAT.wipe_words (R478). -/
def seLcStat_wipe_words : Fld := ⟨.seLcStat, 16, 19⟩
/-- SE_SLOT_STAT.loaded (R479). -/
def seSlotStat_loaded : Fld := ⟨.seSlotStat, 0, 64⟩
/-- SE_SLOT_PERM.permitted (R479). -/
def seSlotPerm_permitted : Fld := ⟨.seSlotPerm, 0, 64⟩
/-- SE_DBG_STAT.level (R480). -/
def seDbgStat_level : Fld := ⟨.seDbgStat, 0, 2⟩
/-- SE_DBG_STAT.seized (R480). -/
def seDbgStat_seized : Fld := ⟨.seDbgStat, 4, 10⟩
/-- SE_DBG_STAT.remain_s (R480). -/
def seDbgStat_remain_s : Fld := ⟨.seDbgStat, 16, 24⟩
/-- SE_DBG_STAT.opens (R480). -/
def seDbgStat_opens : Fld := ⟨.seDbgStat, 48, 16⟩
/-- SE_ERR.slot_denied (R481). -/
def seErr_slot_denied : Fld := ⟨.seErr, 0, 1⟩
/-- SE_ERR.slot_busy (R481). -/
def seErr_slot_busy : Fld := ⟨.seErr, 1, 1⟩
/-- SE_ERR.key_missing (R481). -/
def seErr_key_missing : Fld := ⟨.seErr, 2, 1⟩
/-- SE_ERR.lc_resume (R481). -/
def seErr_lc_resume : Fld := ⟨.seErr, 3, 1⟩
/-- SE_ERR.first_slot (R481). -/
def seErr_first_slot : Fld := ⟨.seErr, 16, 6⟩
/-- OB_EVR_STAT.q_depth (R508). -/
def obEvrStat_q_depth : Fld := ⟨.obEvrStat, 0, 7⟩
/-- OB_EVR_STAT.dropped (R508). -/
def obEvrStat_dropped : Fld := ⟨.obEvrStat, 16, 32⟩
/-- OB_EVR_STAT.ms_full (R508). -/
def obEvrStat_ms_full : Fld := ⟨.obEvrStat, 48, 8⟩
/-- OB_LEDGER_HEAD.head (R508). -/
def obLedgerHead_head : Fld := ⟨.obLedgerHead, 0, 40⟩
/-- OB_LEDGER_BASE.base (R508). -/
def obLedgerBase_base : Fld := ⟨.obLedgerBase, 0, 40⟩
/-- OB_HOURS.hours (R508). -/
def obHours_hours : Fld := ⟨.obHours, 0, 32⟩
/-- OB_HOURS.pcyc (R508). -/
def obHours_pcyc : Fld := ⟨.obHours, 32, 24⟩
/-- OB_CLR_CTL.req (R509). -/
def obClrCtl_req : Fld := ⟨.obClrCtl, 0, 1⟩
/-- OB_CLR_CTL.target (R509). -/
def obClrCtl_target : Fld := ⟨.obClrCtl, 1, 4⟩
/-- OB_CLR_STAT.state (R509). -/
def obClrStat_state : Fld := ⟨.obClrStat, 0, 2⟩
/-- OB_CLR_STAT.target (R509). -/
def obClrStat_target : Fld := ⟨.obClrStat, 2, 4⟩
/-- OB_CLR_STAT.denied (R509). -/
def obClrStat_denied : Fld := ⟨.obClrStat, 8, 8⟩
/-- OB_CLR_STAT.zero_left (R509). -/
def obClrStat_zero_left : Fld := ⟨.obClrStat, 16, 16⟩
/-- OB_CLR_STAT.nonce (R509). -/
def obClrStat_nonce : Fld := ⟨.obClrStat, 32, 32⟩
/-- OB_INT.pmc_ovf (R510). -/
def obInt_pmc_ovf : Fld := ⟨.obInt, 0, 1⟩
/-- OB_INT.level (R510). -/
def obInt_level : Fld := ⟨.obInt, 1, 1⟩
/-- OB_INT.drop (R510). -/
def obInt_drop : Fld := ⟨.obInt, 2, 1⟩
/-- OB_INT.ms_full (R510). -/
def obInt_ms_full : Fld := ⟨.obInt, 3, 1⟩
/-- OB_INT.pub_err (R510). -/
def obInt_pub_err : Fld := ⟨.obInt, 4, 1⟩
/-- OB_INT.clr_done (R510). -/
def obInt_clr_done : Fld := ⟨.obInt, 5, 1⟩
/-- OB_INT.first_src (R510). -/
def obInt_first_src : Fld := ⟨.obInt, 16, 8⟩
/-- OB_INT_EN.en (R510). -/
def obIntEn_en : Fld := ⟨.obIntEn, 0, 6⟩
/-- OB_MS_STAT.head (R511). -/
def obMsStat_head : Fld := ⟨.obMsStat, 0, 10⟩
/-- OB_MS_STAT.dropped (R511). -/
def obMsStat_dropped : Fld := ⟨.obMsStat, 16, 16⟩
/-- OB_PMC_CTL.en (R512). -/
def obPmcCtl_en : Fld := ⟨.obPmcCtl, 0, 1⟩
/-- OB_PMC_CTL.clr_all (R512). -/
def obPmcCtl_clr_all : Fld := ⟨.obPmcCtl, 1, 1⟩
/-- OB_PMC_OVF.ovf (R512). -/
def obPmcOvf_ovf : Fld := ⟨.obPmcOvf, 0, 64⟩
/-- OB_USER_EN.mask (R512). -/
def obUserEn_mask : Fld := ⟨.obUserEn, 0, 64⟩
/-- OB_PUB_CFG.en (R512). -/
def obPubCfg_en : Fld := ⟨.obPubCfg, 0, 1⟩
/-- OB_PUB_CFG.tenant (R512). -/
def obPubCfg_tenant : Fld := ⟨.obPubCfg, 4, 12⟩
/-- OB_PUB_CFG.period_us (R512). -/
def obPubCfg_period_us : Fld := ⟨.obPubCfg, 16, 16⟩
/-- OB_PUB_CFG.seq (R512). -/
def obPubCfg_seq : Fld := ⟨.obPubCfg, 32, 32⟩
/-- OB_PUB_ADDR.addr (R512). -/
def obPubAddr_addr : Fld := ⟨.obPubAddr, 6, 42⟩
/-- OB_MON_CTL.snap (R512). -/
def obMonCtl_snap : Fld := ⟨.obMonCtl, 0, 1⟩
/-- OB_MON_CTL.clr (R512). -/
def obMonCtl_clr : Fld := ⟨.obMonCtl, 1, 1⟩
/-- OB_PMC_CFG.en (R513). -/
def obPmcCfg_en : Fld := ⟨.obPmcCfg, 0, 1⟩
/-- OB_PMC_CFG.all (R513). -/
def obPmcCfg_all : Fld := ⟨.obPmcCfg, 1, 1⟩
/-- OB_PMC_CFG.event (R513). -/
def obPmcCfg_event : Fld := ⟨.obPmcCfg, 4, 12⟩
/-- OB_PMC_CFG.inst (R513). -/
def obPmcCfg_inst : Fld := ⟨.obPmcCfg, 16, 12⟩
/-- OB_PMC.count (R513). -/
def obPmc_count : Fld := ⟨.obPmc, 0, 48⟩
/-- OB_LMON_CFG.en (R514). -/
def obLmonCfg_en : Fld := ⟨.obLmonCfg, 0, 1⟩
/-- OB_LMON_CFG.mode (R514). -/
def obLmonCfg_mode : Fld := ⟨.obLmonCfg, 1, 1⟩
/-- OB_LMON_CFG.kinds (R514). -/
def obLmonCfg_kinds : Fld := ⟨.obLmonCfg, 2, 3⟩
/-- OB_LMON_CFG.desc (R514). -/
def obLmonCfg_desc : Fld := ⟨.obLmonCfg, 16, 12⟩
/-- OB_LMON_MM.min (R514). -/
def obLmonMm_min : Fld := ⟨.obLmonMm, 0, 32⟩
/-- OB_LMON_MM.max (R514). -/
def obLmonMm_max : Fld := ⟨.obLmonMm, 32, 32⟩
/-- OB_LMON_CNT.samples (R514). -/
def obLmonCnt_samples : Fld := ⟨.obLmonCnt, 0, 48⟩
/-- OB_LMON_SUM.sum (R514). -/
def obLmonSum_sum : Fld := ⟨.obLmonSum, 0, 64⟩
/-- OB_LMON_HIST.count (R514). -/
def obLmonHist_count : Fld := ⟨.obLmonHist, 0, 32⟩
/-- OB_VMON_CFG.en (R515). -/
def obVmonCfg_en : Fld := ⟨.obVmonCfg, 0, 1⟩
/-- OB_VMON_CFG.log (R515). -/
def obVmonCfg_log : Fld := ⟨.obVmonCfg, 1, 1⟩
/-- OB_VMON_CFG.src (R515). -/
def obVmonCfg_src : Fld := ⟨.obVmonCfg, 8, 8⟩
/-- OB_VMON_CFG.inst (R515). -/
def obVmonCfg_inst : Fld := ⟨.obVmonCfg, 16, 12⟩
/-- OB_VMON_CFG.period (R515). -/
def obVmonCfg_period : Fld := ⟨.obVmonCfg, 32, 16⟩
/-- OB_VMON_THR.hi (R515). -/
def obVmonThr_hi : Fld := ⟨.obVmonThr, 0, 32⟩
/-- OB_VMON_THR.crossings (R515). -/
def obVmonThr_crossings : Fld := ⟨.obVmonThr, 32, 32⟩
/-- OB_VMON_MM.min (R515). -/
def obVmonMm_min : Fld := ⟨.obVmonMm, 0, 32⟩
/-- OB_VMON_MM.max (R515). -/
def obVmonMm_max : Fld := ⟨.obVmonMm, 32, 32⟩
/-- OB_VMON_LAST.last (R515). -/
def obVmonLast_last : Fld := ⟨.obVmonLast, 0, 32⟩
/-- OB_VMON_SUM.sum (R515). -/
def obVmonSum_sum : Fld := ⟨.obVmonSum, 0, 64⟩
/-- OB_VMON_CNT.samples (R515). -/
def obVmonCnt_samples : Fld := ⟨.obVmonCnt, 0, 48⟩
/-- OB_CHK_STAT.state (R516). -/
def obChkStat_state : Fld := ⟨.obChkStat, 0, 2⟩
/-- OB_CHK_STAT.src (R516). -/
def obChkStat_src : Fld := ⟨.obChkStat, 2, 4⟩
/-- OB_CHK_STAT.port (R516). -/
def obChkStat_port : Fld := ⟨.obChkStat, 6, 5⟩
/-- OB_CHK_STAT.bytes (R516). -/
def obChkStat_bytes : Fld := ⟨.obChkStat, 16, 48⟩
/-- OB_CHK_VAL.value (R516). -/
def obChkVal_value : Fld := ⟨.obChkVal, 0, 64⟩
/-- OB_CHK_CFG.ctl (R516). -/
def obChkCfg_ctl : Fld := ⟨.obChkCfg, 0, 64⟩
/-- OB_CHK_POLY.poly (R516). -/
def obChkPoly_poly : Fld := ⟨.obChkPoly, 0, 64⟩
/-- BT_LOCK.lock (R531). -/
def btLock_lock : Fld := ⟨.btLock, 0, 1⟩
/-- BT_STAT.phase (R532). -/
def btStat_phase : Fld := ⟨.btStat, 0, 3⟩
/-- BT_STAT.warm (R532). -/
def btStat_warm : Fld := ⟨.btStat, 3, 1⟩
/-- BT_STAT.stacks_ready (R532). -/
def btStat_stacks_ready : Fld := ⟨.btStat, 8, 8⟩
/-- BT_STAT.key63 (R532). -/
def btStat_key63 : Fld := ⟨.btStat, 16, 1⟩
/-- BT_STAT.boot_ms (R532). -/
def btStat_boot_ms : Fld := ⟨.btStat, 32, 16⟩
/-- BT_CTL.warm (R533). -/
def btCtl_warm : Fld := ⟨.btCtl, 0, 1⟩
/-- BT_ERR.early_lock (R534). -/
def btErr_early_lock : Fld := ⟨.btErr, 0, 1⟩
/-- BT_ERR.stack_fail (R534). -/
def btErr_stack_fail : Fld := ⟨.btErr, 1, 1⟩
/-- BT_ERR.no_key (R534). -/
def btErr_no_key : Fld := ⟨.btErr, 2, 1⟩
/-- BT_ERR.first_stack (R534). -/
def btErr_first_stack : Fld := ⟨.btErr, 16, 3⟩
/-- BT_MCI_ID.pid (R535). -/
def btMciId_pid : Fld := ⟨.btMciId, 0, 48⟩
/-- BT_MCI_ID.bcr (R535). -/
def btMciId_bcr : Fld := ⟨.btMciId, 48, 8⟩
/-- BT_MCI_ID.dcr (R535). -/
def btMciId_dcr : Fld := ⟨.btMciId, 56, 8⟩
/-- BT_MCI_STAT.dyn_addr (R535). -/
def btMciStat_dyn_addr : Fld := ⟨.btMciStat, 0, 7⟩
/-- BT_MCI_STAT.addr_valid (R535). -/
def btMciStat_addr_valid : Fld := ⟨.btMciStat, 7, 1⟩
/-- BT_MCI_STAT.eid (R535). -/
def btMciStat_eid : Fld := ⟨.btMciStat, 8, 8⟩
/-- BT_MCI_STAT.eid_valid (R535). -/
def btMciStat_eid_valid : Fld := ⟨.btMciStat, 16, 1⟩
/-- BT_MCI_STAT.prov (R535). -/
def btMciStat_prov : Fld := ⟨.btMciStat, 17, 1⟩
/-- BT_MCI_STAT.hotjoin (R535). -/
def btMciStat_hotjoin : Fld := ⟨.btMciStat, 18, 1⟩
/-- OB_LEDGER_W.word (R489). -/
def obLedgerW_word : Fld := ⟨.obLedgerW, 0, 64⟩
/-- OB_MS_W.word (R489). -/
def obMsW_word : Fld := ⟨.obMsW, 0, 64⟩
end F

end Sys2Proof.Machine
end

