-- ==== Sys2Proof/Machine/State.lean ====
section
/-! DEFINITION. The state of the device as plain data: its registers, its ports, queues and tables, the stacks' contents,
the always-on store and the parties' latched inputs; State.reset; the reasons for a stop. Each structure cites the
rules of spec/ that name it. A table lists only the entries that differ from the default its reader names. -/
namespace Sys2Proof.Machine

/-! ## Ports (chapter 02) -/

/-- States of a port (R68, R69). -/
inductive PortState where
  | disabled | linkup | ready | reset | drain | fault
  deriving DecidableEq, Repr

/-- Port status codes (R58). -/
inductive PStatus where
  | ok | poisoned | retry | unavailable | unmapped | denied | malformed | unsupported | poisonMerge | farErr
  deriving DecidableEq, Repr

/-- Request kinds (R42). -/
inductive ReqKind where
  | read | write | masked | atomic
  deriving DecidableEq, Repr

/-- Where a granule lies: the coordinates that R268 forms (t-fields, which give the cipher's tweak, R463) and those of
the place that serves it, which differ from them for a spared bank (R328). -/
structure Place where
  /-- root descriptor -/
  root : Nat
  /-- key slot of the region, if it is encrypted (R464) -/
  key : Option Nat
  tpc : Nat
  tbank : Nat
  trow : Nat
  tcol : Nat
  /-- the copy's pseudo-channel before sparing: tpc, or its partner (R262) -/
  opc : Nat
  /-- device-wide pseudo-channel that serves the access -/
  pc : Nat
  bank : Nat
  row : Nat
  /-- granule column, 0 to 15 -/
  col : Nat
  /-- the level-1 group is mirrored (R262) -/
  mirror : Bool
  deriving DecidableEq, Repr

/-- Progress of one granule of a request. -/
inductive PartSt where
  /-- waits for admission of at least one copy (R272) -/
  | wait
  /-- admitted; its data or merge outcome is outstanding -/
  | queued
  | done
  deriving DecidableEq, Repr

/-- One granule of a request on its way through the PCCs (R271). -/
structure Part where
  st : PartSt
  /-- copies not yet admitted -/
  todo : List Place
  /-- copies admitted whose outcome is outstanding -/
  pend : Nat
  /-- copies refused by the merge buffer (R318) -/
  bad : Nat
  /-- copies in all -/
  copies : Nat
  status : PStatus
  /-- pseudo-channel reported with RETRY or UNAVAILABLE (R57) -/
  info : Nat
  data : Granule
  deriving DecidableEq, Repr

/-- How far a request has come through ingress (R348). -/
inductive Stage where
  | fenceHold | tenantQueue | credit | issued
  /-- a tensor-space read parked on the fetch of a segment (R200) -/
  | parked (seg : Nat)
  deriving DecidableEq, Repr

/-- Where the bytes of a tensor-space read come from (R188, R197). -/
inductive TensLoc where
  /-- not translated yet -/
  | none
  | frame (pool frame : Nat)
  | mem
  /-- far-tier pass-through -/
  | far
  deriving DecidableEq, Repr

/-- A tensor-space read (R203 to R206). -/
structure TensRead where
  seg : Nat
  /-- first byte it reads of the segment, a multiple of 64 -/
  off : Nat
  fmt : Nat
  /-- egress format of a decoded READ; 0 for one that is not decoded -/
  efmt : Nat
  /-- tiles it decodes -/
  tiles : Nat
  /-- the first tile's byte within the segment -/
  tileOff : Nat
  loc : TensLoc
  deriving DecidableEq, Repr

/-- A request that a fabric port holds (R41, R51). -/
structure PortReq where
  /-- arrival number, device-wide -/
  id : Nat
  kind : ReqKind
  tag : Nat
  tc : Nat
  /-- granules -/
  len : Nat
  addr : Nat
  tenant : Nat
  fence : Bool
  aop : Nat
  asz : Bool
  fetch : Bool
  data : List Granule
  mask : Nat
  stage : Stage
  parts : List Part
  tens : Option TensRead
  /-- front-end MCLK at the stamp (R275) -/
  stamp : Nat
  /-- FCLK count of acceptance -/
  arrive : Nat
  /-- staging granules and response credits reserved (R49, R365) -/
  staged : Nat
  rsvd : Nat
  /-- the tag was reused while outstanding (R43) -/
  reused : Bool
  /-- it met a wait that the latency check leaves out (R396, R408) -/
  unbound : Bool
  deriving DecidableEq, Repr

/-- A D2C frame (R361): a completion, or the data slots of one response. -/
structure Frame where
  id : Nat
  tag : Nat
  /-- class: the tc of the request (R358) -/
  cls : Nat
  /-- data slots with their status; none for a CPL -/
  slots : Option (List (PStatus × Granule))
  status : PStatus
  info : Nat
  failMask : Nat
  staged : Nat
  /-- response credits it uses -/
  credits : Nat
  reused : Bool
  /-- the request it answers: kind, granules, stamp and acceptance (R408, R498) -/
  kind : ReqKind
  len : Nat
  stamp : Nat
  arrive : Nat
  /-- FCLK count at which it became ready -/
  ready : Nat
  unbound : Bool
  /-- the request's address (R505) -/
  addr : Nat
  deriving DecidableEq, Repr

/-- One of a port's four command rings (R73 to R77). -/
structure Ring where
  /-- granules stored: (granule number, data); listed = written bit set -/
  gran : Table Granule
  /-- parse pointer, granule -/
  parse : Nat
  /-- next expected sequence number -/
  seq : Nat
  halted : Bool
  /-- packets parsed since the ring was cleared (R91) -/
  parsed : Nat
  /-- the parse pointer has moved since the last progress record (R77) -/
  moved : Bool
  /-- a progress write failed; retry is due (R77) -/
  progFail : Bool
  deriving DecidableEq, Repr

def Ring.init : Ring := ⟨[], 0, 0, false, 0, false, false⟩

/-- A fabric port (R36 to R69). -/
structure Port where
  st : PortState
  /-- level of PRST_N -/
  prstN : Bool
  /-- highest revision that the other side presents: PREV of a chiplet; on a far-tier port DREV of the home agent (R37) -/
  prev : Nat
  drev : Nat
  /-- request credits the requester holds (R48) -/
  hdrHeld : Nat
  wdatHeld : Nat
  /-- response credits held, reserved or not (R49) -/
  rspHeld : Nat
  rspRsvd : Nat
  /-- staging granules in use (R365) -/
  staged : Nat
  reqs : List PortReq
  frames : List Frame
  rings : Table Ring
  /-- tenant served last (R355) -/
  lastTenant : Nat
  /-- ring that parsing served last -/
  lastRing : Nat
  /-- FENCE packets that hold ingress (R56): packet number, and the number from which requests arrived later -/
  fences : List (Nat × Nat)
  /-- segments whose directory entries the port holds, most recent first (R190) -/
  dirCopies : List Nat
  /-- tick at which the frame being sent ends -/
  busy : Nat
  deriving DecidableEq, Repr

def Port.init : Port := ⟨.disabled, true, 2, 0, 0, 0, 0, 0, 0, [], [], [], 4095, 3, [], [], 0⟩

/-! ## Pseudo-channel controllers (chapters 08 and 09) -/

/-- Which request part an entry serves. -/
inductive Src where
  | part (port id idx : Nat)
  | none
  deriving DecidableEq, Repr

/-- What an entry of a read or write queue is for. -/
inductive EKind where
  | read | atomicRead | write | atomicWrite
  /-- poison write-back or mirror rewrite (R538) -/
  | back
  /-- the same for a sector that a merge's RMW read found -/
  | mergeBack
  deriving DecidableEq, Repr

/-- An atomic operation held by a read entry (R47). -/
structure AtomOp where
  aop : Nat
  asz : Bool
  /-- byte offset of the operand's word in the granule -/
  off : Nat
  operand : Nat
  deriving DecidableEq, Repr

/-- An entry of a PCC's read or write queue (R271). -/
structure Ent where
  /-- acceptance position within the PCC -/
  seq : Nat
  kind : EKind
  place : Place
  src : Src
  /-- requester class (R274) -/
  cls : Nat
  stamp : Nat
  /-- sectors not yet issued: bit h -/
  todo : Nat
  /-- sectors of a read issued and not yet returned -/
  wait : Nat
  /-- a write's data is there -/
  ready : Bool
  /-- a write's data as the stack holds it (R465); a read's data so far, decrypted -/
  data : Granule
  /-- sectors to be written as poison, or read without good data: bit h -/
  poison : Nat
  atom : Option AtomOp
  /-- front-end MCLK of acceptance (R498) -/
  acc : Nat
  deriving DecidableEq, Repr

/-- States of a merge-buffer entry other than FREE (R319). -/
inductive MgState where
  | gather | rmw | wb
  deriving DecidableEq, Repr

/-- An entry of the merge buffer (R318 to R321). -/
structure MgEnt where
  seq : Nat
  place : Place
  st : MgState
  /-- gathered bytes (plain) -/
  data : Granule
  mask : Nat
  /-- front-end MCLK at which the window started -/
  since : Nat
  /-- sectors still to be read (RMW) or written (WB) -/
  todo : Nat
  /-- sectors read whose data has not come back -/
  wait : Nat
  refused : Nat
  srcs : List Src
  cls : Nat
  stamp : Nat
  deriving DecidableEq, Repr

/-- What a returning sector is for: the read-queue entry or the merge-buffer entry of a position. -/
inductive RetFor where
  | ent (seq : Nat)
  | merge (seq : Nat)
  deriving DecidableEq, Repr

/-- A sector issued and not yet returned. -/
structure Ret where
  use : RetFor
  half : Nat
  /-- the stored symbols as sampled when the read issued -/
  raw : List Byte
  place : Place
  /-- the first read was a UE; the second one is due (R313) -/
  again : Bool
  /-- tick at which the sector's data is back -/
  due : Nat
  deriving DecidableEq, Repr

/-- One bank of a pseudo-channel (R277 to R285): earliest legal times in ticks, the open row and the debt. -/
structure Bank where
  row : Option Nat
  actOk : Nat
  colOk : Nat
  preOk : Nat
  debt : Nat
  /-- a tick held at debt 8 (R285) -/
  held : Bool
  /-- no column command since the last ACT -/
  fresh : Bool
  deriving DecidableEq, Repr

def Bank.init : Bank := ⟨none, 0, 0, 0, 0, false, false⟩

/-- A pseudo-channel controller (R17, R271 to R287, R322, R323). -/
structure Pcc where
  rq : List Ent
  wq : List Ent
  mb : List MgEnt
  ret : List Ret
  nextSeq : Nat
  /-- WRITE turn -/
  wturn : Bool
  /-- granules issued in this turn -/
  turnCnt : Nat
  turns : Nat
  banks : Table Bank
  /-- last four activations: (tick, bank group), newest first -/
  acts : List (Nat × Nat)
  /-- last column commands: (tick, bank group), newest first -/
  cols : List (Nat × Nat)
  /-- last WR and last RD: (tick, bank group) -/
  lastWr : Option (Nat × Nat)
  lastRd : Option (Nat × Nat)
  /-- tick of the last row command -/
  lastRow : Option Nat
  /-- next bank of the escapement -/
  nextTick : Nat
  refIssued : Nat
  refForced : Nat
  /-- leaky bucket (R322) -/
  bucket : Nat
  /-- symbol positions of the last 32 CEs, newest first (R323) -/
  ceHist : List Nat
  /-- operating hours of the last bucket overflows, newest first (R324) -/
  ovfAt : List Nat
  deriving DecidableEq, Repr

def Pcc.init : Pcc :=
  ⟨[], [], [], [], 0, false, 0, 0, [], [], [], none, none, none, 0, 0, 0, 0, [], []⟩

/-! ## Address map and repair tables (chapters 08, 09) -/

/-- An interleave descriptor: words D0 to D3 of R261. -/
structure Desc where
  d0 : Word
  d1 : Word
  d2 : Word
  d3 : Word
  deriving DecidableEq, Repr

def Desc.zero : Desc := ⟨0, 0, 0, 0⟩

/-- A remap entry (R325), without its reserved bits. -/
structure Remap where
  pc : Nat
  bank : Nat
  row : Nat
  spare : Nat
  hard : Bool
  deriving DecidableEq, Repr

/-- A soft or hard repair on record (R247, R248). -/
structure Repair where
  pc : Nat
  bank : Nat
  row : Nat
  /-- marked for hardening -/
  mark : Bool
  /-- fused -/
  hard : Bool
  deriving DecidableEq, Repr

/-- A spared bank (R328, R344). -/
structure Spare where
  /-- 1 copying, 2 active -/
  st : Nat
  pc : Nat
  bank : Nat
  base : Nat
  deriving DecidableEq, Repr

/-- A step of the repair ladder that its trigger has asked for (R324). -/
inductive LadderJob where
  /-- lane repair: stack, channel, group, functional position -/
  | lane (s c g f : Nat)
  /-- level 1: device-wide pseudo-channel, bank, row -/
  | row (pc bank row : Nat)
  /-- level 3 -/
  | bank (pc bank : Nat)
  /-- level 4; forced when the channel is unusable -/
  | retire (pc : Nat) (forced : Bool)
  deriving DecidableEq, Repr

/-- A retirement whose map update has not come: its migration runs, or waits for a stack (R331). -/
structure RetPend where
  /-- the pseudo-channel reported with RETRY -/
  pc : Nat
  /-- every pseudo-channel that leaves -/
  pcs : List Nat
  roots : List Nat
  packet : Option Nat
  /-- its own stack was reset: the map update is applied with no data moved -/
  noMove : Bool
  deriving DecidableEq, Repr

/-! ## Shaper (chapter 10) -/

/-- A tenant queue (R349 to R357). Times are counts of 2^-16 FCLK. -/
structure TenQ where
  en : Bool
  hold : Bool
  rate : Nat
  burst : Nat
  /-- next eligible time E -/
  elig : Nat
  /-- rate last in force while en was 1 -/
  lastRate : Option Nat
  bytes : Nat
  /-- wheel slot number it is entered at, if any -/
  slot : Option Nat
  /-- the wheel has moved it to the ready set -/
  ready : Bool
  deriving DecidableEq, Repr

def TenQ.init : TenQ := ⟨false, false, 0, 0, 0, none, 0, none, false⟩

/-- The egress gate of a port: active bank, armed swap and the cycle T of the active list (R359 to R366, R372). -/
structure Gate where
  bank : Nat
  armed : Bool
  cycle : Nat
  deriving DecidableEq, Repr

def Gate.init : Gate := ⟨0, false, 0⟩

/-! ## Tensor residency and the far tier (chapters 02 and 06) -/

/-- State of a segment (R188). -/
inductive SegSt where
  | unmapped | far | loc | fetching | mem
  deriving DecidableEq, Repr

/-- A residency directory entry (R188). -/
structure SegEnt where
  st : SegSt
  pin : Bool
  ref : Bool
  fmt : Nat
  efmt : Nat
  tenant : Nat
  model : Nat
  pool : Nat
  frame : Nat
  home : Nat
  deriving DecidableEq, Repr

def SegEnt.init : SegEnt := ⟨.unmapped, false, false, 0, 0, 0, 0, 0, 0, 0⟩

/-- Why a fetch was asked for (R199). -/
inductive FetchKind where
  | demand | prefetch
  deriving DecidableEq, Repr

/-- A segment fetch, waiting or running (R198, R199). -/
structure Fetch where
  seg : Nat
  kind : FetchKind
  /-- 4 KiB block it starts at -/
  start : Nat
  /-- blocks accepted into the frame, bit b -/
  got : Nat
  deriving DecidableEq, Repr

/-- Where a far-tier response goes (R60). -/
inductive FarDest where
  /-- block b of a segment fetch -/
  | fetch (seg b : Nat)
  /-- granules from index i of a pass-through request of a port -/
  | pass (port id i : Nat)
  /-- bytes of a granule g of a core's stream buffer: cluster, core, engine, descriptor slot, granule number, run of the core -/
  | stream (cl core e src g run : Nat)
  /-- granule number g of tensor space for a packet that reads a segment without a frame (R197) -/
  | unit (id g : Nat)
  deriving DecidableEq, Repr

/-- A request on a far-tier port (R59 to R61). -/
structure FarReq where
  ft : Nat
  tag : Nat
  addr : Nat
  /-- granules -/
  len : Nat
  /-- attempts sent: 0 while it waits for a credit -/
  tries : Nat
  dest : FarDest
  /-- tick at which it was last sent -/
  sent : Nat
  deriving DecidableEq, Repr

/-! ## Command packets (chapter 03) -/

/-- Status codes of a packet (R86). -/
inductive KStatus where
  | done | overcommit | aborted | abortedPort | tooLate | notFound | unsupported | malformed | denied | noSpace | poisoned
  | poisonMerge | retry | unavailable | degraded | farErr | badHandle | fwRestart | badSeq
  deriving DecidableEq, Repr

/-- Where a packet stands between parse and reply (R81 to R84). -/
inductive PkSt where
  | waiting | queued | running
  /-- its terminal status is fixed (R92); the reply has not been posted -/
  | fixed
  deriving DecidableEq, Repr

/-- A packet of the in-flight table (R78, R82). -/
structure Packet where
  id : Nat
  port : Nat
  ring : Nat
  opcode : Nat
  seq : Nat
  serial : Bool
  tenant : Nat
  target : Nat
  cookie : Nat
  reply : Nat
  prm : List Granule
  st : PkSt
  /-- copy channel (R83) -/
  chan : Option Nat
  /-- interpreter that runs it (R94) -/
  interp : Option Nat
  status : KStatus
  count : Nat
  aux : Nat
  detail : Nat
  /-- units of work done: granules retired, sectors read, and so on -/
  prog : Nat
  /-- segments it waits for (R211, R218) -/
  waits : List Nat
  /-- segments that pass through for it, the granules asked for and those that came (R197) -/
  pass : List Nat
  asked : List Nat
  got : Table (PStatus × Granule)
  /-- row list of a gather (R217), and the segments it fetched or passed through -/
  rows : List Nat
  segs : List Nat
  /-- those of segs whose data has come -/
  fetched : List Nat
  /-- format of the rows -/
  fmt : Nat
  deriving DecidableEq, Repr

/-- A firmware interpreter (R94 to R97, R475). -/
structure Interp where
  /-- it trapped and waits for the reload of the patch image -/
  reload : Bool
  /-- fetch address of that trap -/
  trapAddr : Nat
  /-- halted by the debug port -/
  halted : Bool
  /-- its 256 KiB memory, by 64-bit word -/
  mem : Table Word
  deriving DecidableEq, Repr

def Interp.init : Interp := ⟨false, 0, false, []⟩

/-! ## Streams and lodging (chapter 05) -/

/-- State of a guest register entry other than FREE (R148, R149). -/
inductive StreamSt where
  | opened | degraded | closing | metaLost
  deriving DecidableEq, Repr

/-- A guest register entry (R148). -/
structure Stream where
  st : StreamSt
  tenant : Nat
  length : Nat
  pendLayer : Nat
  pendN : Nat
  /-- bits [47:0] of W1 -/
  layout : Nat
  tppLog : Nat
  root : Nat
  cap : Nat
  pages : Nat
  lost : Nat
  dmask : Nat
  /-- LOST entries by stack, from which lost and dmask follow -/
  lostBy : Table Nat
  deriving DecidableEq, Repr

/-- A block of an attention packet (R166): a page on a pool, with its tokens. -/
structure Block where
  cl : Nat
  pool : Nat
  frame : Nat
  /-- first token within the page, and tokens -/
  tok : Nat
  n : Nat
  deriving DecidableEq, Repr

/-- What an engine holds for one head (R170); FP32 words. -/
structure HeadAcc where
  m : Nat
  l : Nat
  o : List Nat
  n : Nat
  deriving DecidableEq, Repr

/-- An engine of an attention packet: its blocks so far and its heads. -/
structure EngAcc where
  blocks : List Block
  heads : List HeadAcc
  deriving DecidableEq, Repr

/-- A running ATTN_PARTIAL, or the chained part of an ATTN_SELECT (R166 to R174). -/
structure AttnRun where
  stream : Nat
  layer : Nat
  heads : Nat
  kv0 : Nat
  g : Nat
  scale : Nat
  ppc : Nat
  out : Nat
  /-- query block: heads × dk BF16 words -/
  q : List Nat
  queue : List Block
  accs : Table EngAcc
  /-- cores that the engines run on: core k of cluster c at 16 × c + k, with its number (R166) -/
  cores : Table Nat
  /-- pools the packet's pages lie on, as a mask -/
  pools : Nat
  tokens : Nat
  skipped : Nat
  degraded : Bool
  /-- ATTN_SELECT: list address, pages scored, pages selected, bound -/
  sel : Option (Nat × Nat × List Nat × Nat)
  deriving DecidableEq, Repr

/-! ## Recipes and cores (chapter 04) -/

/-- A slot of the recipe store (R130, R131). -/
structure RecipeSlot where
  tenant : Nat
  gen : Nat
  steps : List Word
  /-- a recipe is held: loaded, or released and still in use -/
  used : Bool
  /-- released: its handle is not valid any more -/
  released : Bool
  deriving DecidableEq, Repr

def RecipeSlot.init : RecipeSlot := ⟨0, 0, [], false, false⟩

/-- A running RECIPE_RUN (R132 to R135). -/
structure Run where
  slot : Nat
  /-- place in the order in which packets started (R108) -/
  start : Nat
  steps : List Word
  iters : Nat
  cmask : Nat
  cores : Nat
  /-- next iteration that has not started -/
  next : Nat
  /-- iterations to run again, in ascending order -/
  redo : List Nat
  /-- bytes of a slice per descriptor slot (R134) -/
  extents : List Nat
  /-- parameter words P0 to P5 -/
  prm : List Nat
  deriving DecidableEq, Repr

/-- One engine of a core during an iteration (R116). -/
structure Eng where
  /-- lane words: the 512 lanes of word w; a word that is not listed is 0 -/
  words : Table (List Nat)
  scal : Table Nat
  x0 : List XVal
  x1 : List XVal
  /-- top-N list in rank order: (score, index) -/
  top : List (Nat × Nat)
  topN : Nat
  /-- cursor in bytes per descriptor slot -/
  cur : Table Nat
  /-- element index of the first element of the last LOAD on the first descriptor slot (R124) -/
  firstElt : Nat
  /-- stream buffer per slot: granules by number at slot × 2^48 (R106) -/
  buf : Table (PStatus × Granule)
  /-- granules asked for and not yet come: slot × 2^48 + number -/
  asked : List Nat
  deriving DecidableEq, Repr

def Eng.init : Eng := ⟨[], [], [], [], [], 0, [], 0, [], []⟩

/-- An open loop: step index of LOOP, passes left after this one, passes begun (R127). -/
structure LoopFrame where
  start : Nat
  left : Nat
  idx : Nat
  deriving DecidableEq, Repr

/-- A core that runs an iteration (R108, R116). -/
structure Core where
  pkt : Nat
  iter : Nat
  /-- number of this run, device-wide -/
  run : Nat
  steps : List Word
  prm : List Nat
  extents : List Nat
  pc : Nat
  /-- runs of the current LOAD that are done -/
  rep : Nat
  loops : List LoopFrame
  engs : List Eng
  /-- END has been executed -/
  ended : Bool
  deriving DecidableEq, Repr

/-! ## Links (chapters 07 and 08) -/

/-- What a stack controller keeps beside its registers (R227, R228, R234 to R242, R288 to R291). -/
structure Link where
  /-- channels due at once, for drift or parity: bit c -/
  due : Nat
  /-- of these, the ones due for parity errors (R228) -/
  parityDue : Nat
  /-- channels whose deferral has lasted defer_max_us (R238) -/
  expired : Nat
  /-- times of parity errors by channel, newest first -/
  parity : Table (List Nat)
  /-- temperature at the last pass by channel -/
  passTemp : Table Int
  /-- tick at which the channel's next pass falls due by its period (R236) -/
  dueAt : Table Nat
  /-- tick at which the stack's last pass started (R237) -/
  lastPass : Option Nat
  /-- the stack's own lane repair and epoch by channel, in the layout of SC_LANE_MAP (R241) -/
  lanes : Table Word
  /-- tick at which the self-refresh entry command was issued, and the temperature then -/
  srefAt : Nat
  srefTemp : Int
  /-- operating point for which the stack's timing mode registers are written; none after RESET_n (R227, R234) -/
  mode : Option Nat
  deriving DecidableEq, Repr

/-- A stack on its way back into service (R245). -/
structure Return where
  /-- tick at which its training, its poison fill or its copy is over -/
  due : Nat
  /-- what it shows in training -/
  rep : StackReport
  /-- the training is over; the pseudo-channels of the channels that it found unusable (R243) -/
  fill : Option (List Nat)
  /-- the fill is over, and the copy from the partner runs (R446) -/
  copying : Bool
  deriving DecidableEq, Repr

/-- A lane map with every lane in service and no valid epoch. -/
def laneNone : Word := 0xFFFFFFFFF
def Link.init : Link := ⟨0, 0, 0, [], [], [], none, [], 0, 0, none⟩

/-! ## Observability (chapter 16) -/

/-- A record before it is written (R483). -/
structure Rec where
  ty : Nat
  src : Nat
  sub : Nat
  arg0 : Nat
  arg1 : Nat
  hours : Nat
  pcyc : Nat
  deriving DecidableEq, Repr

/-- Live values of a latency monitor (R499). -/
structure LMon where
  min : Nat
  max : Nat
  samples : Nat
  sum : Nat
  bins : Table Nat
  deriving DecidableEq, Repr

def LMon.init : LMon := ⟨0xFFFFFFFF, 0, 0, 0, []⟩

/-- Live values of a level monitor (R501, R502). Samples are kept as 32-bit words. -/
structure VMon where
  min : Nat
  max : Nat
  last : Nat
  sum : Nat
  samples : Nat
  crossings : Nat
  /-- tick of the last LEVEL record -/
  logged : Option Nat
  deriving DecidableEq, Repr

def VMon.init : VMon := ⟨0x7FFFFFFF, 0x80000000, 0, 0, 0, 0, none⟩

/-- States of a check unit (R506). -/
inductive ChkState where
  | idle | armed | run | ended
  deriving DecidableEq, Repr

/-- A check-value unit (R503 to R507). -/
structure ChkUnit where
  st : ChkState
  port : Nat
  bytes : Nat
  ctl : Nat
  poly : Nat
  seed : Nat
  /-- the CRC register -/
  reg : Nat
  /-- granules fed -/
  index : Nat
  /-- in-flight packet or fetch it is bound to -/
  bound : Option Nat
  deriving DecidableEq, Repr

def ChkUnit.init : ChkUnit := ⟨.idle, 0, 0, 0, 0, 0, 0, 0, none⟩

/-- The event recorder, the monitors and the check units (chapter 16). -/
structure Obs where
  /-- core queue, oldest first (R482) -/
  queue : List Rec
  /-- always-on tail, oldest first -/
  tail : List Rec
  /-- records dropped since the last DROPPED record (R488) -/
  lost : Nat
  head : Nat
  base : Nat
  /-- heads of the milestone logs -/
  msHead : Table Nat
  msDropped : Table Nat
  hours : Nat
  pcyc : Nat
  /-- valid clear request: (target, nonce) (R491) -/
  clearReq : Option (Nat × Nat)
  /-- a clear being zeroed: (target, words left) (R492) -/
  zeroing : Option (Nat × Nat)
  lmon : Table LMon
  vmon : Table VMon
  chk : Table ChkUnit
  deriving DecidableEq, Repr

def Obs.init : Obs := ⟨[], [], 0, 0, 0, [], [], 0, 0, none, none, [], [], []⟩

/-! ## Arbiters (chapter 11) -/

/-- An age-arbiter instance (R377 to R385). -/
structure Arb where
  /-- position that holds the grant -/
  owner : Option Nat
  /-- tick of the grant, and tick from which the watchdog counts -/
  grantAt : Nat
  wdAt : Nat
  /-- the grant was given to a seize -/
  seized : Bool
  /-- a seize waits for the safe boundary -/
  seize : Bool
  /-- the watchdog has asked for the grant: it ends at the safe boundary -/
  revoke : Bool
  /-- pending requests: position and tick of the stamp -/
  reqs : Table Nat
  deriving DecidableEq, Repr

def Arb.init : Arb := ⟨none, 0, 0, false, false, false, []⟩

/-! ## Heat, power and supplies (chapter 13) -/

/-- What the thermal logic keeps beside its registers (R415 to R424). -/
structure Therm where
  /-- sensors that have given a reading since the reset -/
  seen : Table Bool
  /-- conversions missed in a row -/
  misses : Table Nat
  /-- zones in warning -/
  warn : Nat
  /-- column cap demand from a stack's temperature -/
  demand : Table Nat
  /-- stacks whose reading is stale -/
  stale : Nat
  /-- temperature bin in force, and the trim code; none for the factory trim (R416, R436) -/
  bin : Nat
  trim : Option Nat
  deriving DecidableEq, Repr

def Therm.init : Therm := ⟨[], [], 0, [], 0, 0, none⟩

/-- The supplies (R421, R422, R427). -/
structure Supply where
  /-- a thermal shutdown is in force -/
  shut : Bool
  /-- VDD is below its threshold -/
  dip : Bool
  /-- VDD came back during a shutdown: the restart will be a supply restart -/
  again : Bool
  /-- VAON is present -/
  vaon : Bool
  deriving DecidableEq, Repr

/-! ## Lifecycle and debug (chapter 15) -/

/-- The lifecycle marker (R469), the hub state (R470) and the debug port (R475). -/
structure Security where
  committed : Nat
  target : Nat
  intent : Bool
  hub : Nat
  /-- an interrupted change is being resumed: LOADs are answered BUSY (R471) -/
  resume : Bool
  /-- tick at which the debug lifetime ends -/
  dbgEnd : Nat
  deriving DecidableEq, Repr

/-! ## Bring-up (chapter 17) -/

/-- Where a bring-up stands beside BT_STAT (R517 to R521). -/
structure Boot where
  /-- random bits of the identity, drawn at the last cold reset (R522) -/
  pidRand : Nat
  /-- stacks whose contents a warm reset has kept: bit s -/
  kept : Nat
  /-- stacks trained and waiting for READY: bit s -/
  trained : Nat
  /-- channels' pseudo-channels that training found dead, to be retired at READY -/
  dead : List Nat
  /-- contents of the tables of the system area are reloaded, not initialised, at READY -/
  warm : Bool
  /-- BT_STAT.boot_ms -/
  ms : Nat
  /-- lodging pools that were mirrored before a warm reset: bit p; and the metadata pool's descriptor then (R149, R177) -/
  mirrors : Nat
  metaDesc : Nat
  deriving DecidableEq, Repr

/-! ## The whole -/

/-- Time in units of 1/6.6 GHz: FCLK lasts 3, PCLK 24, AONCLK 264; MCLK lasts 6 at OP0 and 8 at OP1 (R6). -/
structure Clocks where
  now : Nat
  /-- time of the last cold or warm reset (R351) -/
  fclk0 : Nat
  /-- front-end MCLK counted up to mclkRef -/
  mclkAcc : Nat
  mclkRef : Nat
  deriving DecidableEq, Repr

/-- What the device shows at its edges, in order of occurrence (the model's own record of outputs, not the spec's
state). -/
inductive Out where
  /-- a D2C frame was sent: port, class, and its data slots with their sideband words or its CPL header (R39, R57, R361) -/
  | frame (port cls : Nat) (slots : List DataSlot) (cpl : Option (BitVec 128))
  /-- credits returned on D2C_CRD (R48) -/
  | credit (port hdr wdat : Nat)
  /-- PRDY and DREV of a fabric port -/
  | ready (port : Nat) (up : Bool) (drev : Nat)
  /-- PREV, which the device drives on a far-tier port, whose requester it is (R37) -/
  | prev (port rev : Nat)
  /-- a READ sent on a far-tier port: port, tag, address, granules (R59) -/
  | farRead (port tag addr len : Nat)
  /-- the reply of a packet was written, or lost (R84, R85) -/
  | reply (port ring seq : Nat) (status : KStatus) (addr count aux detail : Nat) (lost : Bool)
  /-- a progress record was written (R77) -/
  | progress (port ring nextSeq ptr : Nat)
  /-- a register read returned a value: path, offset, value (R9) -/
  | regValue (path off : Nat) (val : Word)
  /-- answer on the key bus: 0 OK, 1 DENIED, 2 BUSY (R467) -/
  | keyBus (answer : Nat)
  /-- response of the management endpoint: command, completion code and bytes (R524) -/
  | mctp (cmd code : Nat) (bytes : List Nat)
  /-- the thermal-trip signal is asserted (R421) -/
  | trip
  deriving DecidableEq, Repr

/-- The device. -/
structure State where
  /-- commands that wait, first in first out -/
  pending : List Instr
  clk : Clocks
  /-- the register window: values that differ from the cold reset value, by offset (R7) -/
  regs : Table Word
  /-- selector and snapshot registers kept per access path (R389): path × 2^24 + offset -/
  pregs : Table Word
  out : List Out
  /-- the model's own: how many free values have been drawn (log entry 7) -/
  free : Nat
  /-- arrival and packet numbers handed out -/
  nextId : Nat
  ports : Table Port
  gates : Table Gate
  tenants : Table TenQ
  /-- wheel slots begun (R354) -/
  wheel : Nat
  pccs : Table Pcc
  /-- stored symbols of the stacks: cell 64 × sector + n (R307) -/
  mem : List Host.Cell
  descs : Table Desc
  /-- the NVM store's copy of descriptors 8 to 4,095; none when it does not pass its check (R295) -/
  mapCopy : Option (Table Desc)
  /-- remap entries of stack s at s × 4096 + i (R325) -/
  remaps : Table Remap
  repairs : Table (List Repair)
  spares : Table Spare
  /-- recent-row table per stack, most recently hit first: (pc, bank, row, CEs) (R323) -/
  rows : Table (List (Nat × Nat × Nat × Nat))
  /-- write epochs by pseudo-channel (R309) -/
  epochs : Table Nat
  retPend : List RetPend
  ladder : List LadderJob
  links : Table Link
  /-- stacks in training or filled after a stack reset (R245) -/
  returns : Table Return
  /-- the device's lane maps at stack × 32 + channel, kept in the NVM store (R241, R259) -/
  laneMaps : Table Word
  keys : Table (BitVec 512)
  /-- slots whose CLEAR is waiting (R468) -/
  clearing : List Nat
  /-- residency directory (R188, R189) -/
  dir : Table SegEnt
  /-- clock hand of each residency pool (R195) -/
  hands : Table Nat
  /-- fetches running, waiting on demand, and the prefetch queue (R199, R216) -/
  fetches : List Fetch
  demandQ : List Fetch
  prefetchQ : List Nat
  far : List FarReq
  /-- guest register, by stream ID; an ID that is not listed is FREE (R148) -/
  streams : Table Stream
  /-- frames in use: pool × 2^20 + frame, pool 8 being the metadata pool; the stream that took it (R145) -/
  lgUsed : Table Nat
  /-- summary slots in use: metadata frame × 4096 + slot (R152) -/
  lgSums : Table Nat
  /-- stacks whose loss walk has not finished (R177) -/
  lgWalk : List Nat
  attns : Table AttnRun
  recipes : Table RecipeSlot
  runs : Table Run
  /-- cores that run an iteration: cluster × 16 + core -/
  cores : Table Core
  /-- clusters in RESET (R537): bit s -/
  clReset : Nat
  /-- in-flight table, by packet number: in parse order (R82) -/
  packets : Table Packet
  /-- firmware queue: packet numbers in queue order (R83) -/
  fwq : List Nat
  interps : Table Interp
  /-- requests of the management chain that wait while interpreter 3 reloads (R96) -/
  mgmtQ : List Instr
  obs : Obs
  /-- words of the NVM store by word address: the ledger at 0, the milestone logs at 32768 (R473, R489) -/
  nvm : Table Word
  arbs : Table Arb
  /-- maintenance ports that interpreter 3 will request again, and the tick of the revocation (R388) -/
  i3want : List (Nat × Nat)
  i3at : Nat
  therm : Therm
  supply : Supply
  /-- learned trims of the hairspring table, by bin (R416) -/
  trims : Table Nat
  sec : Security
  boot : Boot
  deriving DecidableEq, Repr

/-! ## Reset -/

/-- The device when its supplies have come up and nothing has happened: every register at its cold reset value (a table
lists only what differs from it), no port, unit or slot in use, memory and the NVM store with nothing listed. Bring-up
(R517) is what COLD_RESET does. -/
def State.reset : State where
  pending := []
  clk := ⟨0, 0, 0, 0⟩
  regs := []
  pregs := []
  out := []
  free := 0
  nextId := 0
  ports := []
  gates := []
  tenants := []
  wheel := 0
  pccs := []
  mem := []
  descs := []
  mapCopy := none
  remaps := []
  repairs := []
  spares := []
  rows := []
  epochs := []
  retPend := []
  ladder := []
  links := []
  returns := []
  laneMaps := []
  keys := []
  clearing := []
  dir := []
  hands := []
  fetches := []
  demandQ := []
  prefetchQ := []
  far := []
  streams := []
  lgUsed := []
  lgSums := []
  lgWalk := []
  attns := []
  recipes := []
  runs := []
  cores := []
  clReset := 0
  packets := []
  fwq := []
  interps := []
  mgmtQ := []
  obs := Obs.init
  nvm := []
  arbs := []
  i3want := []
  i3at := 0
  therm := Therm.init
  supply := ⟨false, false, false, true⟩
  trims := []
  sec := ⟨0, 0, false, 0, false, 0⟩
  boot := ⟨0, 0, 0, [], false, 0, 0, 0⟩

/-! ## Stops -/

/-- Reasons for which the machine stops with a fault. -/
inductive Fault where
  /-- Raised by every meaning whose command names a port, stack, pseudo-channel, ring, cluster or other unit that the
  device does not have (R4, R36), or not as many readings or reports as it has: such a command cannot arrive. Safe (log
  entry 4). -/
  | noSuchUnit
  deriving DecidableEq, Repr

/-- Reasons for which the model gives a command no meaning. -/
inductive Refusal where
  /-- Raised by an arm of the dispatcher whose command has no meaning yet. Safe. -/
  | notModelled (mnemonic : String)
  deriving DecidableEq, Repr

end Sys2Proof.Machine
end

