-- ==== Sys2Proof/Machine/Ops.lean ====
section
/-! DEFINITION. The named operations that every meaning shares: register access inside the device, time, event counts,
records, and free values. -/
namespace Sys2Proof.Machine

/-- What executing a command answers. -/
abbrev Res := Host.Outcome State Fault Refusal

/-- The command names units that exist: its effect; otherwise it cannot arrive (R4, R36). -/
def onUnit (ok : Bool) (s : State) : Res := if ok then .next s else .fault .noSuchUnit

/-! ## Free values -/

/-- A fresh granule of undefined bytes (log entry 7). -/
def State.drawGranule (s : State) : State × Granule := ({ s with free := s.free + 1 }, Config.freeGranule s.free)
/-- A fresh open number. -/
def State.drawNat (s : State) : State × Nat := ({ s with free := s.free + 1 }, Config.freeNat s.free)

/-- What a stack shows in a training that a register write starts (R254). -/
def State.drawReport (s : State) : State × StackReport := ({ s with free := s.free + 1 }, Config.freeReport s.free)

/-- The main domains are cut (R421, R427): nothing outside the always-on domain works. -/
def State.cut (s : State) : Bool := s.supply.shut || s.supply.dip || !s.supply.vaon

/-- A register write: while the main domains are cut no register answers. -/
def State.ifUp (s : State) (f : State → State) : State := if s.cut then s else f s

/-! ## Registers as the device holds them -/

/-- Offset of a register of a family (R7). -/
def Reg.addr (r : Reg) (ix : List Nat) : Nat :=
  r.base + sumBy (fun e => e.1 * e.2.2) (ix.zip r.dims)

/-- Word of the cold values in the family's field table. -/
def Reg.tableCold (r : Reg) : Nat :=
  r.fields.foldl (fun a f => a + ((f.cold % 2 ^ f.w) <<< f.lo)) 0

/-- Word made of (place, width, value) triples. -/
def packWord (fs : List (Nat × Nat × Nat)) : Nat :=
  fs.foldl (fun a f => a + ((f.2.2 % 2 ^ f.2.1) <<< f.1)) 0

/-- Default priority and quota of position j of arbiter instance i (R376). -/
def arbDefault (i j : Nat) : Nat × Nat :=
  if i < 8 then ([(3, 2), (2, 1), (1, 1), (0, 1)][j]?).getD (0, 1)
  else if i = 8 then ([(2, 1), (2, 1), (1, 1), (1, 1)][j]?).getD (0, 1)
  else ([(2, 1), (2, 1), (3, 4), (3, 1), (0, 1)][j]?).getD (0, 1)

/-- Value of a register after a cold reset (the Reset columns of spec/). -/
def Reg.cold (r : Reg) (ix : List Nat) : Word :=
  let i := (ix[0]?).getD 0
  let k := (ix[1]?).getD 0
  BitVec.ofNat 64 <| match r with
  | .glLt => if i < 35 then r.tableCold else 0
  | .scTim0 => if k = 1 then packWord [(0, 8, 24), (8, 8, 24), (16, 8, 30), (24, 8, 56), (32, 4, 3), (36, 4, 2), (40, 4, 3),
      (44, 4, 5), (48, 8, 11)] else r.tableCold
  | .scTim1 => if k = 1 then packWord [(0, 10, 231), (16, 8, 24), (24, 8, 30), (32, 4, 5), (36, 4, 9), (40, 8, 14),
      (48, 10, 267)] else r.tableCold
  | .abCfg => packWord [(0, 14, if i < 8 then 12000 else if i = 8 then 20 else 1000), (16, 16, 1000)]
  | .abPrio => packWord [(0, 2, (arbDefault i k).1), (4, 4, (arbDefault i k).2)]
  | _ => r.tableCold

/-- The stored word of a register. -/
def State.rget (s : State) (r : Reg) (ix : List Nat) : Word := tget (r.cold ix) s.regs (r.addr ix)

/-- The state with a register's stored word replaced. -/
def State.rput (s : State) (r : Reg) (ix : List Nat) (w : Word) : State :=
  { s with regs := tput (r.cold ix) s.regs (r.addr ix) w }

/-- A field of a register. -/
def State.fget (s : State) (f : Fld) (ix : List Nat := []) : Nat := bits (s.rget f.reg ix).toNat f.lo f.w

/-- The state with a field of a register replaced; the other bits stay. -/
def State.fset (s : State) (f : Fld) (ix : List Nat) (v : Nat) : State :=
  s.rput f.reg ix (BitVec.ofNat 64 (setBits (s.rget f.reg ix).toNat f.lo f.w v))

/-- A field counted up by n, saturating at its width. -/
def State.fsat (s : State) (f : Fld) (ix : List Nat) (n : Nat) : State := s.fset f ix (satAdd f.w (s.fget f ix) n)

/-- A field counted up by n, wrapping at its width. -/
def State.fadd (s : State) (f : Fld) (ix : List Nat) (n : Nat) : State := s.fset f ix (s.fget f ix + n)

/-- R14: an error or interrupt bit is set; the first_ fields are captured only while the n bits from bit 0, the group's
flags, are all 0. -/
def State.raise (s : State) (n : Nat) (f : Fld) (ix : List Nat) (firsts : List (Fld × Nat)) : State :=
  let s' := if bits (s.rget f.reg ix).toNat 0 n = 0 then firsts.foldl (fun t e => t.fset e.1 ix e.2) s else s
  s'.fset f ix 1

/-! ## Time -/

/-- Length of an MCLK in ticks at the operating point in force (R6). -/
def State.mclkTicks (s : State) : Nat := if s.fget F.glOpStat_op = 0 then 6 else 8
/-- Length of an SCK in ticks. -/
def State.sckTicks (s : State) : Nat := if s.fget F.glOpStat_op = 0 then 3 else 4
/-- Front-end MCLK counted so far. -/
def State.mclk (s : State) : Nat := s.clk.mclkAcc + (s.clk.now - s.clk.mclkRef) / s.mclkTicks
/-- SH_FCLK_COUNT (R351, R368). -/
def State.fclk (s : State) : Nat := (s.clk.now - s.clk.fclk0) / 3
/-- Ticks in a microsecond. -/
def tickUs : Nat := 6600

/-! ## Events of the performance counters (R493 to R495) -/

/-- R495: counter i adds n events; a wrap sets its overflow bit and OB_INT.pmc_ovf. -/
def State.pmcAdd (s : State) (i n : Nat) : State :=
  let c := s.fget F.obPmc_count [i] + n
  let s1 := s.fset F.obPmc_count [i] c
  if c < 2 ^ 48 then s1 else
    let w := i / 64
    let o := (s1.rget .obPmcOvf [w]) ||| BitVec.ofNat 64 (1 <<< (i % 64))
    (s1.rput .obPmcOvf [w] o).raise 6 F.obInt_pmc_ovf [] [(F.obInt_first_src, i)]

/-- R493: n occurrences of an event at one of its places reach every counter that selects it. -/
def State.ev (s : State) (code inst n : Nat) : State :=
  if s.fget F.obPmcCtl_en = 0 || n = 0 then s else
  (List.range 256).foldl (fun t i =>
    if t.fget F.obPmcCfg_en [i] = 1 && t.fget F.obPmcCfg_event [i] = code
        && (t.fget F.obPmcCfg_all [i] = 1 || t.fget F.obPmcCfg_inst [i] = inst)
    then t.pmcAdd i n else t) s

/-! ## Records (R482 to R488) -/

/-- Type codes of R485. -/
inductive RecTy where
  | portReset | replyLost | ringHalt | fwTrap | fwFailed | farErr | stackOff | stackReturn | stackId | pairLost | dirLost
  | trainFail | ceOvf | ue | laneRepair | rowRemap | softRepair | hardRepair | bankSpare | retireDue | retire | retireDrop
  | patrol | arbSeize | arbWdog | arbCircle | thermWarn | throttle | sensorFail | shutdown | powerFail | lcOver | overcommit
  | fuseBad | lcChange | scrapped | debugOpen | debugClose | logClear | level | dropped
  deriving DecidableEq, Repr

def RecTy.code : RecTy → Nat
  | .portReset => 0x01 | .replyLost => 0x02 | .ringHalt => 0x03 | .fwTrap => 0x04 | .fwFailed => 0x05 | .farErr => 0x06
  | .stackOff => 0x10 | .stackReturn => 0x11 | .stackId => 0x12 | .pairLost => 0x13 | .dirLost => 0x14 | .trainFail => 0x15
  | .ceOvf => 0x20 | .ue => 0x21 | .laneRepair => 0x22 | .rowRemap => 0x23 | .softRepair => 0x24 | .hardRepair => 0x25
  | .bankSpare => 0x26 | .retireDue => 0x27 | .retire => 0x28 | .retireDrop => 0x29 | .patrol => 0x2A
  | .arbSeize => 0x30 | .arbWdog => 0x31 | .arbCircle => 0x32 | .thermWarn => 0x40 | .throttle => 0x41
  | .sensorFail => 0x42 | .shutdown => 0x43 | .powerFail => 0x44 | .lcOver => 0x45 | .overcommit => 0x46
  | .fuseBad => 0x50 | .lcChange => 0x51 | .scrapped => 0x52 | .debugOpen => 0x53 | .debugClose => 0x54
  | .logClear => 0x55 | .level => 0x56 | .dropped => 0x57

/-- Types marked M in R485. -/
def recMilestone (ty : Nat) : Bool :=
  [0x10, 0x11, 0x12, 0x13, 0x15, 0x20, 0x21, 0x22, 0x23, 0x24, 0x25, 0x26, 0x27, 0x28].contains ty

/-- Records the core queue and the tail hold (R482). -/
def queueCap : Nat := 64
def tailCap : Nat := 4

/-- Moves records from the core queue to the always-on tail while it has room. -/
def Obs.refill (o : Obs) : Obs :=
  let n := tailCap - o.tail.length
  { o with tail := o.tail ++ o.queue.take n, queue := o.queue.drop n }

/-- A record enters the core queue, or is dropped and counted when the queue is full (R488). -/
def State.logRec (s : State) (r : Rec) : State :=
  let o := s.obs.refill
  if o.queue.length < queueCap then { s with obs := ({ o with queue := o.queue ++ [r] }).refill }
  else ({ s with obs := { o with lost := o.lost + 1 } }).fsat F.obEvrStat_dropped [] 1

/-- R483: a record of a type with its source, sub-source and arguments, stamped with the always-on counters. -/
def State.log (s : State) (ty : RecTy) (src : Nat := 0) (sub : Nat := 0) (a0 : Nat := 0) (a1 : Nat := 0) : State :=
  s.logRec ⟨ty.code, src % 256, sub % 256, a0 % 2 ^ 32, a1 % 2 ^ 64, s.obs.hours, s.obs.pcyc⟩

/-! ## Parts of the state by number -/

def State.port (s : State) (n : Nat) : Port := tget Port.init s.ports n
def State.setPort (s : State) (n : Nat) (p : Port) : State := { s with ports := tput Port.init s.ports n p }
def State.pcc (s : State) (pc : Nat) : Pcc := tget Pcc.init s.pccs pc
def State.setPcc (s : State) (pc : Nat) (p : Pcc) : State := { s with pccs := tput Pcc.init s.pccs pc p }
def State.desc (s : State) (i : Nat) : Desc := tget Desc.zero s.descs i
def State.setDesc (s : State) (i : Nat) (d : Desc) : State := { s with descs := tput Desc.zero s.descs i d }
def State.tenQ (s : State) (t : Nat) : TenQ := tget TenQ.init s.tenants t
def State.setTenQ (s : State) (t : Nat) (q : TenQ) : State := { s with tenants := tput TenQ.init s.tenants t q }
def State.gate (s : State) (n : Nat) : Gate := tget Gate.init s.gates n
def State.setGate (s : State) (n : Nat) (g : Gate) : State := { s with gates := tput Gate.init s.gates n g }
/-- Appends to the record of outputs. -/
def State.emit (s : State) (o : Out) : State := { s with out := s.out ++ [o] }
/-- A fresh arrival or packet number. -/
def State.freshId (s : State) : State × Nat := ({ s with nextId := s.nextId + 1 }, s.nextId)

end Sys2Proof.Machine
end

