-- ==== Sys2Proof/Machine/Arbiter.lean ====
section
/-! DEFINITION. The age arbiters (R375 to R393): requests, the contest, quotas, seizes, revocation, the watchdog and its
wait chain. -/
namespace Sys2Proof.Machine

def State.arb (s : State) (i : Nat) : Arb := tget Arb.init s.arbs i
def State.setArb (s : State) (i : Nat) (a : Arb) : State := { s with arbs := tput Arb.init s.arbs i a }

/-- Positions that request (R376). Position 7 of the NVM instance only seizes. -/
def arbUses (i j : Nat) : Bool := if i = 9 then decide (j < 5) else decide (j < 4) || j = 7

/-- Requesters that hold more than one instance: interpreter 3 and the debug port (R386); every other position is a
requester of its own. -/
def arbAgent (i j : Nat) : Nat :=
  if (i < 8 && (j = 2 || j = 3)) || (i = 8 && j = 3) then 0
  else if i < 9 && j = 7 then 1
  else 2 + 8 * i + j

/-- Ticks of an instance's clock (R375). -/
def arbTick (i : Nat) : Nat := if i = 9 then 264 else 24

/-- R380: a position at priority 3 that has used its quota. -/
def State.arbMasked (s : State) (i j : Nat) : Bool :=
  s.fget F.abPrio_prio [i, j] = 3 && decide (s.fget F.abPrio_quota [i, j] ≤ s.fget F.abPrio_grants [i, j])

/-- Age of a request in cycles of its arbiter, saturating (R377). -/
def State.arbAge (s : State) (i stamp : Nat) : Nat := Nat.min ((s.clk.now - stamp) / arbTick i) (2 ^ 32 - 1)

/-! ## Requests (R377, R379, R387) -/

/-- Maintenance ports above a number that interpreter 3 holds or waits for. -/
def State.i3above (s : State) (i : Nat) : Bool :=
  (List.range 8).any fun k => i < k && ((s.arb k).owner = some 2 || (s.arb k).owner = some 3
    || (tfind (s.arb k).reqs 2).isSome || (tfind (s.arb k).reqs 3).isSome)

/-- A request reaches the arbiter and is stamped. The debug port requests only while it is open; interpreter 3 requests
maintenance ports in ascending order. -/
def State.arbRequest (s : State) (i j : Nat) : State :=
  let a := s.arb i
  if !arbUses i j || a.owner = some j || (tfind a.reqs j).isSome then s
  else if j = 7 && s.fget F.seDbgStat_level = 0 then s
  else if i < 8 && (j = 2 || j = 3) && s.i3above i then s
  else s.setArb i { a with reqs := tset a.reqs j s.clk.now }

def execArbRequest (i j : Nat) (s : State) : Res := onUnit (decide (i < 10 && j < 8)) (s.arbRequest i j)

/-! ## The contest (R377, R380) -/

/-- A grant is given and counted in the window. -/
def State.arbGive (s : State) (i j : Nat) (seized : Bool) : State :=
  let a := s.arb i
  (s.setArb i { a with owner := some j, grantAt := s.clk.now, wdAt := s.clk.now, seized := seized, seize := a.seize && !seized,
                       revoke := false, reqs := tdel a.reqs j }).fsat F.abPrio_grants [i, j] 1

/-- The request that wins: highest priority, then largest age, then lowest position. -/
def State.arbWinner (s : State) (i : Nat) : Option Nat :=
  let l := (s.arb i).reqs.filter fun e => !s.arbMasked i e.1
  (minBy (fun e => (2 ^ 33 * (3 - s.fget F.abPrio_prio [i, e.1]) + (2 ^ 32 - s.arbAge i e.2)) * 8 + e.1) l).map (·.1)

def State.arbGrant (s : State) (i : Nat) : State :=
  let a := s.arb i
  if a.owner.isSome || a.seize then s else
  match s.arbWinner i with
  | none => s
  | some j => s.arbGive i j false

def execArbGrant (i : Nat) (s : State) : Res := onUnit (decide (i < 10)) (s.arbGrant i)

/-! ## Seize and revocation (R382, R383, R388) -/

/-- A seize is granted: it is recorded with the position that held the instance. -/
def State.arbSeized (s : State) (i holder : Nat) : State :=
  ((s.arbGive i 7 true).log .arbSeize i holder).fset F.abInt_seize [i] 1

/-- R378, R379: a holder or a waiter drops; a seize that waits is dropped with its position. An instance that becomes free while a seize
waits goes to the seize (R382). -/
def State.arbDrop (s : State) (i j : Nat) : State :=
  let a := s.arb i
  if a.owner = some j then
    (let t := s.setArb i { a with owner := none, seized := false, revoke := false }
     if a.seize && j ≠ 7 then t.arbSeized i j else t)
  else s.setArb i { a with reqs := tdel a.reqs j, seize := a.seize && j ≠ 7 }

def execArbDrop (i j : Nat) (s : State) : Res := onUnit (decide (i < 10 && j < 8)) (s.arbDrop i j)

def State.owns (s : State) (i j : Nat) : Bool := (s.arb i).owner = some j

/-- Position j asks for instance i, and holds it if it is granted at once. -/
def State.askPort (s : State) (i j : Nat) : State := if s.owns i j then s else (s.arbRequest i j).arbGrant i

/-- An action for which position j must hold instance i: it runs under one grant, which then ends; without a grant it waits, with
its request. -/
def State.withPort (s : State) (i j : Nat) (f : State → State) : State :=
  let t := s.askPort i j
  if t.owns i j then (f t).arbDrop i j else t

/-- R375: the arbiters on PCLK hold their state while PCLK stands still for some ticks: ages and watchdogs do not advance. -/
def State.holdArbs (s : State) (n : Nat) : State :=
  { s with arbs := tmap s.arbs fun i (a : Arb) => if i = 9 then a else
      { a with reqs := a.reqs.map fun e => (e.1, e.2 + n), grantAt := a.grantAt + n, wdAt := a.wdAt + n } }

/-- The debug port seizes at level 2; the thermal-shutdown recorder seizes on its own. -/
def State.arbSeize (s : State) (i : Nat) : State :=
  let a := s.arb i
  if a.owner = some 7 then s
  else if i < 9 && s.fget F.seDbgStat_level ≠ 2 then s
  else if a.owner.isNone then s.arbSeized i 0
  else s.setArb i { a with seize := true }

def execArbSeize (i : Nat) (s : State) : Res := onUnit (decide (i < 10)) (s.arbSeize i)

/-- Interpreter 3 will ask again for a port. -/
def State.i3again (s : State) (i j : Nat) : State :=
  { s with i3want := if s.i3want.contains (i, j) then s.i3want else s.i3want ++ [(i, j)], i3at := s.clk.now }

/-- R383: interpreter 3's diagnostics drop every maintenance port that it holds or waits for. -/
def State.i3drop (s : State) : State :=
  (List.range 8).foldl (fun t i => [2, 3].foldl (fun u j =>
    if (u.arb i).owner = some j || (tfind (u.arb i).reqs j).isSome then (u.arbDrop i j).i3again i j else u) t) s

/-- A grant ends at its safe boundary and its holder is told: the training sequencer and the NVM requesters ask again at once,
interpreter 3 later (R383, R388). -/
def State.arbEnd (s : State) (i : Nat) : State :=
  let a := s.arb i
  match a.owner with
  | none => s
  | some j =>
    let s1 := s.setArb i { a with owner := none, seized := false, revoke := false }
    if i < 8 && j = 3 then (s1.i3again i j).i3drop
    else if i < 8 && j = 2 then s1.i3again i j
    else if (i < 8 && j = 1) || i = 9 then s1.arbRequest i j
    else s1

/-- The safe boundary of a grant that a seize or the watchdog has asked for. -/
def State.arbRevoke (s : State) (i : Nat) : State :=
  let a := s.arb i
  if !(a.seize || a.revoke) then s else
  let s1 := s.arbEnd i
  if a.seize then s1.arbSeized i (a.owner.getD 0) else s1

def execArbRevoke (i : Nat) (s : State) : Res := onUnit (decide (i < 10)) (s.arbRevoke i)

/-- R387, R388: 100 µs after a revocation, interpreter 3 requests the lowest port that it needs; the next one follows when it
waits for none. While it holds a port above that one, the request waits. -/
def State.i3request (s : State) : State :=
  let waits := (List.range 8).any fun i => (tfind (s.arb i).reqs 2).isSome || (tfind (s.arb i).reqs 3).isSome
  if waits || decide (s.clk.now < s.i3at + 100 * tickUs) then s else
  match minBy (fun (e : Nat × Nat) => 8 * e.1 + e.2) s.i3want with
  | none => s
  | some e => if s.i3above e.1 then s else ({ s with i3want := s.i3want.erase e }).arbRequest e.1 e.2

def execInterp3Rerequest (s : State) : Res := .next s.i3request

/-! ## Watchdog (R384, R385, R392) -/

/-- The instance at which a requester waits. -/
def State.arbWaits (s : State) (agent : Nat) : Option Nat :=
  (List.range 10).find? fun i => (s.arb i).reqs.any fun e => arbAgent i e.1 = agent

/-- The wait chain from an instance, at most ten steps: the instances of a circle through the first one, if there is one. -/
def State.arbChain (s : State) (first : Nat) : Nat → Nat → List Nat → Option (List Nat)
  | 0, _, _ => none
  | fuel + 1, i, seen =>
    match (s.arb i).owner with
    | none => none
    | some j =>
      match s.arbWaits (arbAgent i j) with
      | none => none
      | some k => if k = first then some (i :: seen) else s.arbChain first fuel k (i :: seen)

/-- A bite: the younger grant of a circle, or the instance's own, is to be revoked; it is counted and recorded. -/
def State.arbBite (s : State) (i : Nat) : State :=
  let a := s.arb i
  if a.owner.isNone then s else
  let circle := s.arbChain i 10 i []
  let v := match circle with
    | some l => (minBy (fun k => s.clk.now - (s.arb k).grantAt) l).getD i
    | none => i
  let b := s.arb v
  let pos := b.owner.getD 0
  let held := (s.clk.now - b.grantAt) / tickUs
  let s1 := s.setArb v { b with revoke := true }
  let s2 := s1.setArb i { s1.arb i with wdAt := s.clk.now }
  let s3 := (s2.log (if circle.isSome then .arbCircle else .arbWdog) i pos v held).fsat F.abWd_bites [i] 1
  let s4 := ((s3.fset F.abWd_last_victim_inst [i] v).fset F.abWd_last_victim_req [i] pos).fset F.abInt_wd_bite [i] 1
  if circle.isSome then (s4.fsat F.abWd_circles [i] 1).fset F.abInt_circle [i] 1 else s4

def execWatchdogBite (i : Nat) (s : State) : Res := onUnit (decide (i < 10)) (s.arbBite i)

/-! ## Windows and priorities (R380, R381, R394) -/

def State.quotaWindow (s : State) (i : Nat) : State := (List.range 8).foldl (fun t j => t.fset F.abPrio_grants [i, j] 0) s

def execQuotaWindow (i : Nat) (s : State) : Res := onUnit (decide (i < 10)) (s.quotaWindow i)

/-- A write of AB_PRIO(j): it takes effect at once; a quota of 0 is ignored; AB_PRIO(7) of the NVM instance is reserved. -/
def State.prioWrite (s : State) (i j prio quota : Nat) : State :=
  if i = 9 && j = 7 then s else
  let s1 := s.fset F.abPrio_prio [i, j] prio
  if quota % 16 = 0 then s1 else s1.fset F.abPrio_quota [i, j] quota

def execPrioWrite (i j prio quota : Nat) (s : State) : Res :=
  onUnit (decide (i < 10 && j < 8)) (s.ifUp fun t => t.prioWrite i j prio quota)

/-- R389: a reset whose scope contains the instance ends its grant and clears its queue and counts. -/
def State.resetArb (s : State) (i : Nat) : State :=
  let a := s.arb i
  let mine := ((a.owner.toList ++ a.reqs.map (·.1)).filter fun j => i < 8 && (j = 2 || j = 3))
  (mine.foldl (fun t j => t.i3again i j) (s.setArb i Arb.init)).quotaWindow i

/-- Interpreter 3 can work on training, repair and scrubbing: it is neither reloading nor halted, and the interpreters have not failed
(R94, R96, R97; DEDUCED, log entry 72). -/
def State.i3up (s : State) : Bool :=
  let i := tget Interp.init s.interps 3
  !i.reload && !i.halted && decide (s.fget F.cpFwStat_state ≠ 3)

end Sys2Proof.Machine
end

