-- ==== Sys2Proof/Machine/Cipher.lean ====
section
/-! DEFINITION. Inline encryption (R463): XTS-AES-256 as IEEE Std 1619 defines it, with the 32 B sector as data unit. The
AES of FIPS 197, which the standard names, is written out here (log entry 12). -/
namespace Sys2Proof.Machine

/-- Product in the AES field, polynomial 0x11B. -/
def aesMul (a b : Nat) : Nat :=
  ((List.range 8).foldl (fun (p : Nat × Nat) i =>
    let acc := if bit b i then p.1 ^^^ p.2 else p.1
    let d := p.2 * 2
    (acc, if d ≥ 256 then d ^^^ 0x11B else d)) (0, a)).1

/-- Power in the AES field. -/
def aesPow (a : Nat) : Nat → Nat
  | 0 => 1
  | n + 1 => aesMul a (aesPow a n)

/-- Inverse in the AES field, 0 for 0: the 254th power by squarings. -/
def aesInv (a : Nat) : Nat :=
  let a2 := aesMul a a; let a4 := aesMul a2 a2; let a8 := aesMul a4 a4; let a16 := aesMul a8 a8
  let a32 := aesMul a16 a16; let a64 := aesMul a32 a32; let a128 := aesMul a64 a64
  aesMul a2 (aesMul a4 (aesMul a8 (aesMul a16 (aesMul a32 (aesMul a64 a128)))))

/-- Rotation of a byte to the left. -/
def rotl8 (x n : Nat) : Nat := ((x <<< n) ||| (x >>> (8 - n))) % 256

/-- The AES substitution of a byte. -/
def sbox (x : Nat) : Nat :=
  let i := aesInv x
  i ^^^ rotl8 i 1 ^^^ rotl8 i 2 ^^^ rotl8 i 3 ^^^ rotl8 i 4 ^^^ 0x63

/-- The inverse substitution. -/
def sboxInv (y : Nat) : Nat :=
  aesInv (rotl8 y 1 ^^^ rotl8 y 3 ^^^ rotl8 y 6 ^^^ 0x05)

/-- Next four bytes of the AES-256 key schedule: word i from the words before it, the list newest first. -/
def aesNextWord (i : Nat) (ws : List (List Nat)) : List Nat :=
  let prev := (ws[0]?).getD []
  let back := (ws[7]?).getD []
  let t :=
    if i % 8 = 0 then
      let r := (prev.drop 1 ++ prev.take 1).map sbox
      match r with
      | a :: rest => (a ^^^ aesPow 2 (i / 8 - 1)) :: rest
      | [] => []
    else if i % 8 = 4 then prev.map sbox
    else prev
  (back.zip t).map fun p => p.1 ^^^ p.2

/-- Round keys of a 32-byte key: 15 lists of 16 bytes. -/
def aesKeys (key : List Nat) : List (List Nat) :=
  let w0 := (List.range 8).map fun i => (key.drop (4 * i)).take 4
  let ws := ((List.range 52).foldl (fun acc k => aesNextWord (k + 8) acc :: acc) w0.reverse).reverse
  (List.range 15).map fun r => ((ws.drop (4 * r)).take 4).flatten

def xorL (a b : List Nat) : List Nat := (a.zip b).map fun p => p.1 ^^^ p.2

/-- Byte i of the state moves from row r, column c + r (ShiftRows; byte i lies in row i mod 4, column i ÷ 4). -/
def shiftRows (st : List Nat) : List Nat :=
  (List.range 16).map fun i => (st[(4 * ((i / 4 + i % 4) % 4) + i % 4)]?).getD 0

def shiftRowsInv (st : List Nat) : List Nat :=
  (List.range 16).map fun i => (st[(4 * ((i / 4 + 4 - i % 4) % 4) + i % 4)]?).getD 0

/-- MixColumns with a row of coefficients. -/
def mixCols (co : List Nat) (st : List Nat) : List Nat :=
  (List.range 16).map fun i =>
    let c := i / 4
    let r := i % 4
    (List.range 4).foldl (fun a k => a ^^^ aesMul ((st[4 * c + k]?).getD 0) ((co[(k + 4 - r) % 4]?).getD 0)) 0

def aesEnc (ks : List (List Nat)) (blk : List Nat) : List Nat :=
  let st0 := xorL blk ((ks[0]?).getD [])
  let st := (List.range 13).foldl (fun st r => xorL (mixCols [2, 3, 1, 1] (shiftRows (st.map sbox))) ((ks[r + 1]?).getD [])) st0
  xorL (shiftRows (st.map sbox)) ((ks[14]?).getD [])

def aesDec (ks : List (List Nat)) (blk : List Nat) : List Nat :=
  let st0 := (shiftRowsInv (xorL blk ((ks[14]?).getD []))).map sboxInv
  let st := (List.range 13).foldl (fun st r =>
    (shiftRowsInv (mixCols [14, 11, 13, 9] (xorL st ((ks[13 - r]?).getD [])))).map sboxInv) st0
  xorL st ((ks[0]?).getD [])

/-- Multiplication of a tweak by the primitive element of GF(2^128), bytes little-endian. -/
def xtsDouble (t : List Nat) : List Nat :=
  let n := t.foldr (fun b acc => acc * 256 + b) 0
  let d := n * 2
  let m := if d ≥ 2 ^ 128 then (d - 2 ^ 128) ^^^ 0x87 else d
  (List.range 16).map fun i => bits m (8 * i) 8

/-- Bytes of a number, little-endian. -/
def bytesLE (n x : Nat) : List Nat := (List.range n).map fun i => bits x (8 * i) 8

/-- R463: one sector through XTS-AES-256 under a slot's 64 B and a tweak. -/
def xtsSector (enc : Bool) (key : BitVec 512) (tweak : Nat) (d : SectorData) : SectorData :=
  let kb := bytesLE 64 key.toNat
  let k1 := aesKeys (kb.take 32)
  let k2 := aesKeys (kb.drop 32)
  let t0 := aesEnc k2 (bytesLE 16 tweak)
  let db := bytesLE 32 d.toNat
  let one := fun (t : List Nat) (b : List Nat) => xorL t (if enc then aesEnc k1 (xorL b t) else aesDec k1 (xorL b t))
  let out := one t0 (db.take 16) ++ one (xtsDouble t0) (db.drop 16)
  BitVec.ofNat 256 (out.foldr (fun b acc => acc * 256 + b) 0)

/-- The tweak of R463. -/
def tweakOf (pc bank row col : Nat) : Nat := col + (row <<< 5) + (bank <<< 20) + (pc <<< 26)

end Sys2Proof.Machine
end

