-- ==== Sys2Proof/Machine/Ecc.lean ====
section
/-! DEFINITION. The sector code (R305 to R311): GF(2^8) with polynomial 0x11D, the fold of a coordinate, the encoder and
the classification of a sector read from a stack. -/
namespace Sys2Proof.Machine

/-- Product in GF(2^8), polynomial 0x11D (R305). -/
def gfMul (a b : Nat) : Nat :=
  ((List.range 8).foldl (fun (p : Nat × Nat) i =>
    let acc := if bit b i then p.1 ^^^ p.2 else p.1
    let d := p.2 * 2
    (acc, if d ≥ 256 then d ^^^ 0x11D else d)) (0, a)).1

/-- α^n, α = 2 (R305). -/
def gfPow : Nat → Nat
  | 0 => 1
  | n + 1 => gfMul 2 (gfPow n)

/-- Coordinate A of R308. -/
def coordA (pc bank row col epoch : Nat) : Nat :=
  col + (row <<< 5) + (bank <<< 20) + (pc <<< 26) + ((epoch % 16) <<< 35)

/-- Fold F of a coordinate: CRC-24 over its five bytes (R308). -/
def fold24 (a : Nat) : Nat :=
  [0, 8, 16, 24, 32].foldl (fun r sh => crcByte 24 0x864CFB r (bits a sh 8)) 0

/-- Expected fold, or the poison fold of R310. -/
def foldOf (a : Nat) (poison : Bool) : Nat := if poison then fold24 a ^^^ 0xFFFFFF else fold24 a

/-- The 32 bytes of a sector. -/
def sectorBytes (d : SectorData) : List Byte := (List.range 32).map fun i => d.extractLsb' (8 * i) 8

/-- The sector of a list of bytes, the first at byte 0. -/
def sectorOf (l : List Byte) : SectorData :=
  BitVec.ofNat 256 ((l.take 32).foldr (fun b acc => (acc <<< 8) + b.toNat) 0)

/-- Check symbols k0 to k3: remainder of u(x)·x^4 by g(x) (R305, R306). -/
def rsCheck (syms : List Nat) : List Nat :=
  let r := syms.foldl (fun (r : Nat × Nat × Nat × Nat) u =>
    let f := u ^^^ r.1
    (r.2.1 ^^^ gfMul f 0x0F, r.2.2.1 ^^^ gfMul f 0x36, r.2.2.2 ^^^ gfMul f 0x78, gfMul f 0x40)) (0, 0, 0, 0)
  [r.1, r.2.1, r.2.2.1, r.2.2.2]

/-- The 36 stored symbols of a sector written at a coordinate (R306, R307, R310). -/
def encodeSector (a : Nat) (poison : Bool) (d : SectorData) : List Byte :=
  let f := foldOf a poison
  let bs := sectorBytes d
  bs ++ ((rsCheck (bs.map (·.toNat) ++ [bits f 16 8, bits f 8 8, bits f 0 8])).map fun n => BitVec.ofNat 8 n)

/-- Syndromes S0 to S3 of 36 stored symbols under a fold (R311). -/
def syndromes (raw : List Byte) (f : Nat) : List Nat :=
  let w := (raw.take 32).map (·.toNat) ++ [bits f 16 8, bits f 8 8, bits f 0 8] ++ (raw.drop 32).map (·.toNat)
  (List.range 4).map fun j => w.foldl (fun acc c => gfMul acc (gfPow j) ^^^ c) 0

/-- Degrees of stored symbols, as symbol numbers n with their degree (R306, R307). -/
def symDegree (n : Nat) : Nat := if n < 32 then 38 - n else 35 - n

/-- Single-symbol test of R311: the symbol number and its error value. -/
def oneSymbol (s : List Nat) : Option (Nat × Nat) :=
  match s with
  | [s0, s1, s2, s3] =>
    if s0 = 0 || s1 = 0 || s2 = 0 || s3 = 0 then none
    else if gfMul s1 s1 = gfMul s0 s2 && gfMul s2 s2 = gfMul s1 s3 then
      match (List.range 36).find? fun n => gfMul (gfPow (symDegree n)) s0 = s1 with
      | some n => some (n, s0)
      | none => none
    else none
  | _ => none

/-- Classes of a sector read (R311). -/
inductive SClass where
  | clean
  /-- correctable, with the symbol position -/
  | ce (n : Nat)
  | poison
  | ue
  deriving DecidableEq, Repr

/-- R311: class of 36 symbols read at a coordinate, and the symbols delivered. -/
def decodeSector (a : Nat) (raw : List Byte) : SClass × List Byte :=
  let s := syndromes raw (foldOf a false)
  let s' := syndromes raw (foldOf a true)
  if s = [0, 0, 0, 0] then (.clean, raw)
  else if s' = [0, 0, 0, 0] then (.poison, raw)
  else match oneSymbol s, oneSymbol s' with
    | some (n, e), none => (.ce n, raw.set n (((raw[n]?).getD 0) ^^^ BitVec.ofNat 8 e))
    | none, some _ => (.poison, raw)
    | _, _ => (.ue, raw)

end Sys2Proof.Machine
end

