-- ==== Sys2Proof/Machine/AddrMap.lean ====
section
/-! DEFINITION. The address map (R260 to R270): descriptors, the walk, DRAM coordinates, the checks of R265 and the
recomputation of R267; sparing and remap substitution (R326, R328); the stored sectors of the stacks. -/
namespace Sys2Proof.Machine

/-! ## Descriptor fields (R261) -/

namespace Desc
def valid (d : Desc) : Bool := bit d.d0.toNat 0
def kind (d : Desc) : Nat := bits d.d0.toNat 1 1
def level (d : Desc) : Nat := bits d.d0.toNat 2 3
def order (d : Desc) : Nat := bits d.d0.toNat 5 2
def mirror (d : Desc) : Bool := bit d.d0.toNat 7
def g (d : Desc) : Nat := bits d.d0.toNat 8 5
def first (d : Desc) : Nat := bits d.d0.toNat 16 12
def stride (d : Desc) : Nat := bits d.d0.toNat 28 7
def mask (d : Desc) : Nat := d.d1.toNat
def cap (d : Desc) : Nat := bits d.d2.toNat 0 20
def cmin (d : Desc) : Nat := bits d.d2.toNat 20 20
def slice (d : Desc) : Nat := bits d.d2.toNat 40 11
def root (d : Desc) : Bool := bit d.d3.toNat 0
def addrEn (d : Desc) : Bool := bit d.d3.toNat 1
def tenant (d : Desc) : Nat := bits d.d3.toNat 4 12
def key (d : Desc) : Nat := bits d.d3.toNat 16 6
def keyEn (d : Desc) : Bool := bit d.d3.toNat 22
def base (d : Desc) : Nat := bits d.d3.toNat 32 20
end Desc

/-- Member numbers in ascending bit order of the mask (R263). -/
def Desc.members (d : Desc) : List Nat :=
  ((List.range 64).filter fun k => bit d.mask k).map fun k => d.first + d.stride * k

/-- Group capacity in bytes. -/
def Desc.bytes (d : Desc) : Nat := 2 ^ 20 * d.cap

/-- Where a walk ends (R263). -/
structure Walked where
  /-- the kind-0 group it ended in -/
  gi : Nat
  pc : Nat
  /-- local offset -/
  off : Nat
  /-- levels resolved in a tail (R264) -/
  tails : Nat
  deriving DecidableEq, Repr

/-- The tail of a group: which member holds an excess offset (R263). -/
def tailMember : List Nat → Nat → Nat → Option (Nat × Nat)
  | [], _, _ => none
  | e :: r, k, t => if t < e then some (k, t) else tailMember r (k + 1) (t - e)

/-- The walk of R263, at most six levels deep. -/
def State.walk (s : State) : Nat → Nat → Nat → Nat → Option Walked
  | 0, _, _, _ => none
  | fuel + 1, gi, x, tails =>
    let d := s.desc gi
    let ms := d.members
    let n := ms.length
    let cmin := 2 ^ 20 * d.cmin
    if !d.valid then none
    else if x < n * cmin then
      let j := x / 2 ^ d.g
      let m := (ms[j % n]?).getD 0
      let y := (j / n) * 2 ^ d.g + x % 2 ^ d.g
      if d.kind = 0 then some ⟨gi, m, 2 ^ 20 * d.slice + y, tails⟩ else s.walk fuel m y tails
    else if d.kind = 0 then none
    else
      match tailMember (ms.map fun m => (if (s.desc m).valid then (s.desc m).bytes else 0) - cmin) 0 (x - n * cmin) with
      | none => none
      | some (k, t) => s.walk fuel ((ms[k]?).getD 0) (cmin + t) (tails + 1)

/-- The walk from a root or pool descriptor. -/
def State.walkFrom (s : State) (gi x : Nat) : Option Walked := s.walk 7 gi x 0

/-- Bank, row and granule column of a local offset (R268, R269). -/
def dramCoord (order off : Nat) : Nat × Nat × Nat :=
  let w := off % 2 ^ 29
  let c := off / 2 ^ 29
  let row := c * 0x2000 + bits w 20 9 * 16 + bits off 16 4
  let bg := if order = 2 then bits off 10 2 else bits off 6 2
  let col := if order = 1 then bits off 12 4 else if order = 2 then bits off 6 4 else bits off 8 4
  let ba := if order = 1 then bits off 8 2 else if order = 3 then bits off 12 2 ^^^ bits off 16 2 else bits off 12 2
  let sid := if order = 1 then bits off 10 2 else if order = 3 then bits off 14 2 ^^^ bits off 18 2 else bits off 14 2
  (sid * 16 + bg * 4 + ba, row, col)

/-! ## Stacks and pseudo-channels -/

/-- SC_LINK_STAT.state of a stack (R255): 0 ABSENT, 1 RESET, 2 TRAIN, 3 ONLINE, 4 SREF, 5 FAILED. -/
def State.link (s : State) (st : Nat) : Nat := s.fget F.scLinkStat_state [st]
/-- The stack serves requests: ONLINE, or in self-refresh, which a request ends (R290). -/
def State.stackUp (s : State) (st : Nat) : Bool := s.link st = 3 || s.link st = 4
/-- The pseudo-channel was retired (R333, R451). -/
def State.retired (s : State) (pc : Nat) : Bool := bit (s.rget .pkRetired [pc / 64]).toNat (pc % 64)
/-- What an access to a pseudo-channel that cannot serve it is answered (R58). -/
def State.pcDown (s : State) (pc : Nat) : Option PStatus :=
  if !s.stackUp (pc / 64) then some .unavailable else if s.retired pc then some .retry else none
/-- Write epoch of a pseudo-channel (R309). -/
def State.epoch (s : State) (pc : Nat) : Nat := tget 0 s.epochs pc

/-! ## From address to place -/

/-- The active spare of a bank (R328). -/
def State.spareOf (s : State) (pc bank : Nat) : Option Spare :=
  ([0, 1].filterMap fun i => tfind s.spares (pc / 64 * 2 + i)).find? fun e =>
    e.st = 2 && e.pc = pc % 64 && e.bank = bank

/-- The place of the coordinates of one copy, with the redirect of R328. tpc is the primary member (R463). -/
def State.redirect (s : State) (root : Nat) (key : Option Nat) (tpc pc bank row col : Nat) (mirror : Bool) : Option Place :=
  match s.spareOf pc bank with
  | none => some ⟨root, key, tpc, bank, row, col, pc, pc, bank, row, col, mirror⟩
  | some e =>
    match s.walkFrom ((pc / 64 + 4) % 8) (2 ^ 20 * e.base + row * 1024 + col * 64) with
    | none => none
    | some w =>
      let (b', r', c') := dramCoord 0 w.off
      some ⟨root, key, tpc, bank, row, col, pc, w.pc, b', r', c', mirror⟩

/-- The place of a local offset of a pseudo-channel. -/
def State.placeAt (s : State) (root : Nat) (key : Option Nat) (pc tpc off order : Nat) (mirror : Bool) : Option Place :=
  let (bank, row, col) := dramCoord order off
  s.redirect root key tpc pc bank row col mirror

/-- The other copy of a place of a mirrored group (R262). -/
def State.partnerOf (s : State) (p : Place) : Option Place :=
  if p.mirror then s.redirect p.root p.key p.tpc (p.opc ^^^ 256) p.tbank p.trow p.tcol true else none

/-- Key slot of a root (R464): system groups use slot 63 whatever D3 holds. -/
def State.rootKey (s : State) (root : Nat) : Option Nat :=
  if root < 8 then some 63 else if (s.desc root).keyEn then some (s.desc root).key else none

/-- The place of byte x of a root or pool (R260). -/
def State.placeIn (s : State) (root x : Nat) : Option Place :=
  match s.walkFrom root x with
  | none => none
  | some w => s.placeAt root (s.rootKey root) w.pc w.pc w.off (s.desc w.gi).order (s.desc w.gi).mirror

/-- The partner copy's place in a mirrored group (R262). -/
def State.partnerIn (s : State) (root x : Nat) : Option Place :=
  match s.walkFrom root x with
  | none => none
  | some w => s.placeAt root (s.rootKey root) (w.pc ^^^ 256) w.pc w.off (s.desc w.gi).order (s.desc w.gi).mirror

/-- The root whose memory-space range contains an address, and the offset in it (R264). -/
def State.rootOf (s : State) (addr : Nat) : Option (Nat × Nat) :=
  if s.fget F.glMapCtl_applied = 0 then none else
  match s.descs.find? fun e => 8 ≤ e.1 && e.2.valid && e.2.root && e.2.addrEn
      && decide (2 ^ 20 * e.2.base ≤ addr) && decide (addr < 2 ^ 20 * (e.2.base + e.2.cap)) with
  | some (i, d) => some (i, addr - 2 ^ 20 * d.base)
  | none => none

/-- The key slot of a root is loaded and takes accesses (R464, R468). -/
def State.keyOk (s : State) (root : Nat) : Bool :=
  match s.rootKey root with
  | none => true
  | some k => (decide (root < 8) || k ≠ 63) && (tfind s.keys k).isSome && !s.clearing.contains k

/-- Every copy's place of byte x of a root that is mirrored or not: primary first. -/
def State.copies (s : State) (root x : Nat) : List Place :=
  match s.placeIn root x with
  | none => []
  | some p => if p.mirror then p :: (s.partnerIn root x).toList else [p]

/-! ## Stored sectors -/

/-- Number of a sector of the stacks; its symbol n is cell 64 × number + n. -/
def sectorIndex (pc bank row col : Nat) : Nat := (24576 * (pc * 64 + bank) + row) * 32 + col

/-- What the poison fill of R245 leaves in the sector of a number, under the current epochs (R309, R310); the filler's data
bytes are undefined and read as 0 here (log entry 13). -/
def fillSector (epochs : Table Nat) (k : Nat) : List Byte :=
  let pc := k / (24576 * 64 * 32)
  encodeSector (coordA pc (k / (24576 * 32) % 64) (k / 32 % 24576) (k % 32) (tget 0 epochs pc)) true 0

/-- What a cell that is not listed reads as. -/
def cellFill (epochs : Table Nat) (a : Nat) : Byte := ((fillSector epochs (a / 64))[a % 64]?).getD 0

/-- The canonical form of the stored cells: addresses strictly rise, 36 symbols to a sector, and no cell listed that equals
the fill. -/
def Memory.wf (epochs : Table Nat) (m : List Host.Cell) : Bool :=
  trising m && m.all fun c => decide (c.1 % 64 < 36) && decide (c.2 ≠ cellFill epochs c.1)

/-- The 36 symbols stored in a sector. -/
def State.rawSector (s : State) (pc bank row col : Nat) : List Byte :=
  let k := sectorIndex pc bank row col
  let dflt := fillSector s.epochs k
  if s.mem.any fun c => c.1 / 64 = k then (List.range 36).map fun n => (tfind s.mem (64 * k + n)).getD ((dflt[n]?).getD 0)
  else dflt

/-- The state with the 36 symbols of a sector replaced; a symbol equal to the fill's is not listed. -/
def State.putRaw (s : State) (pc bank row col : Nat) (l : List Byte) : State :=
  let k := sectorIndex pc bank row col
  let dflt := fillSector s.epochs k
  { s with mem := (List.range 36).foldl (fun m n =>
      tput ((dflt[n]?).getD 0) m (64 * k + n) ((l[n]?).getD 0)) s.mem }

/-- R326: the row that the PCC issues to the stack. -/
def State.issuedRow (s : State) (pc bank row : Nat) : Nat :=
  match s.remaps.find? fun e => e.1 / 4096 = pc / 64 && e.2.pc = pc % 64 && e.2.bank = bank && e.2.row = row with
  | some (_, e) => 0x5FFC + e.spare
  | none => row

/-- Coordinate A of sector h of a place, as issued (R308). -/
def State.coordOf (s : State) (p : Place) (h : Nat) : Nat :=
  coordA p.pc p.bank (s.issuedRow p.pc p.bank p.row) (2 * p.col + h) (s.epoch p.pc)

/-- Stored symbols of sector h of a place. -/
def State.placeRaw (s : State) (p : Place) (h : Nat) : List Byte :=
  s.rawSector p.pc p.bank (s.issuedRow p.pc p.bank p.row) (2 * p.col + h)

/-- Sector h of a place written with fresh check bytes (R306), or as poison (R310). -/
def State.storeSector (s : State) (p : Place) (h : Nat) (poison : Bool) (d : SectorData) : State :=
  s.putRaw p.pc p.bank (s.issuedRow p.pc p.bank p.row) (2 * p.col + h) (encodeSector (s.coordOf p h) poison d)

/-- R463, R465: sector h of a place between plain and stored form. -/
def State.cipher (s : State) (enc : Bool) (p : Place) (h : Nat) (d : SectorData) : SectorData :=
  match p.key with
  | none => d
  | some k => xtsSector enc (tget 0 s.keys k) (tweakOf p.tpc p.tbank p.trow (2 * p.tcol + h)) d

def State.encGranule (s : State) (p : Place) (g : Granule) : Granule :=
  gJoin (s.cipher true p 0 (gSector g 0)) (s.cipher true p 1 (gSector g 1))

/-! ## Map checks and recomputation (R265 to R267) -/

/-- System descriptor st (R266). -/
def sysDesc (st : Nat) : Desc :=
  ⟨BitVec.ofNat 64 (packWord [(0, 1, 1), (2, 3, 1), (8, 5, 8), (16, 12, 64 * st), (28, 7, 1)]),
   BitVec.allOnes 64,
   BitVec.ofNat 64 (packWord [(0, 20, 512), (20, 20, 8), (40, 11, 1528)]),
   BitVec.ofNat 64 1⟩

/-- Check 1 of R265 on one descriptor. -/
def Desc.check1 (d : Desc) : Bool :=
  !d.valid ||
  (decide (6 ≤ d.g) && decide (d.g ≤ 20) && decide (1 ≤ d.stride) && decide (d.stride ≤ 64)
    && decide (1 ≤ d.level) && decide (d.level ≤ 6)
    && bits d.d0.toNat 13 3 = 0 && bits d.d0.toNat 35 29 = 0 && bits d.d2.toNat 51 13 = 0
    && bits d.d3.toNat 2 2 = 0 && bits d.d3.toNat 23 9 = 0 && bits d.d3.toNat 52 12 = 0
    && (d.kind = 0 || !d.mirror)
    && d.members.all fun m => if d.kind = 0 then decide (m < 512) else decide (8 ≤ m) && decide (m < 4096))

/-- Client descriptors in use. -/
def State.clientDescs (s : State) : List (Nat × Desc) := s.descs.filter fun e => decide (8 ≤ e.1) && e.2.valid

/-- Ancestor search: does the tree under gi contain t? -/
def State.reaches (s : State) : Nat → Nat → Nat → Bool
  | 0, _, _ => true
  | fuel + 1, gi, t =>
    let d := s.desc gi
    d.valid && d.kind = 1 && d.members.any fun m => m = t || s.reaches fuel m t

/-- Pseudo-channels whose slices a kind-0 group covers, with partners. -/
def Desc.cover (d : Desc) : List Nat :=
  if d.mirror then d.members ++ d.members.map (· ^^^ 256) else d.members

/-- Two kind-0 groups share a MiB of local offset of a pseudo-channel (check 5). -/
def Desc.clash (a b : Desc) : Bool :=
  decide (a.slice < b.slice + b.cmin) && decide (b.slice < a.slice + a.cmin) && a.cover.any fun p => b.cover.contains p

/-- The copy of the map in the NVM store follows the map (R295). -/
def State.copyMap (s : State) : State := { s with mapCopy := some (s.descs.filter fun e => decide (8 ≤ e.1)) }

/-- One of the checks 1 to 8 of R265 on descriptor i. -/
def State.mapCheck (s : State) (c : Nat) (i : Nat) (d : Desc) : Bool :=
  let all := s.clientDescs
  if c = 1 then d.check1
  else if c = 2 then
    if d.kind = 0 then d.level = 1
    else d.level = 1 + maxBy (fun m => (s.desc m).level) d.members && decide (d.level ≤ 6)
  else if c = 3 then
    (d.root || (all.filter fun e => e.2.kind = 1 && e.2.members.contains i).length = 1) && !(s.reaches 7 i i)
  else if c = 4 then d.kind = 1 || (decide (d.slice + d.cmin ≤ 1528) && decide (1 ≤ d.cmin))
  else if c = 5 then d.kind = 1 || all.all fun e => e.2.kind = 1 || e.1 = i || !(d.clash e.2)
  else if c = 6 then d.kind = 1 || !d.mirror || d.members.all fun m => !(d.members.contains (m ^^^ 256))
  else if c = 7 then
    !(d.root && d.addrEn) ||
      (decide (2 ^ 20 * (d.base + d.cap) ≤ 2 ^ 40) && all.all fun e => e.1 = i || !(e.2.root && e.2.addrEn)
        || decide (e.2.base + e.2.cap ≤ d.base) || decide (d.base + d.cap ≤ e.2.base))
  else d.root || bits d.d3.toNat 1 22 = 0

/-- First failing check of R265 and its lowest descriptor; the checks run one after the other (log entry 14). -/
def State.mapFail (s : State) : Option (Nat × Nat) :=
  ((List.range 8).filterMap fun c =>
    (s.clientDescs.find? fun e => !(s.mapCheck (c + 1) e.1 e.2)).map fun e => (e.1, c + 1)).head?

/-- cap_mib and cmin_mib of one descriptor from its members (R261, R267). A member that is not valid has no capacity (log entry 71). -/
def State.capOf (s : State) (d : Desc) : Desc :=
  let n := d.members.length
  if d.kind = 0 then { d with d2 := BitVec.ofNat 64 (setBits d.d2.toNat 0 20 (n * d.cmin)) }
  else
    let caps := d.members.map fun m => if (s.desc m).valid then (s.desc m).cap else 0
    let cm := (caps.foldl (fun (a : Option Nat) c => some (match a with | none => c | some b => min b c)) none).getD 0
    { d with d2 := BitVec.ofNat 64 (setBits (setBits d.d2.toNat 0 20 (caps.foldl (· + ·) 0)) 20 20 cm) }

/-- Recomputation of the descriptors that a test selects, level by level. -/
def State.recapOn (s : State) (t : Nat → Bool) : State :=
  (List.range 6).foldl (fun u lv =>
    { u with descs := tmap u.descs fun i d => if t i && d.valid && d.level = lv + 1 then u.capOf d else d }) s

/-- Recomputation of every descriptor. -/
def State.recap (s : State) : State := s.recapOn fun _ => true

/-- A descriptor without a pseudo-channel among its members; a mirrored group loses it for its partner too (R333). -/
def Desc.without (d : Desc) (pc : Nat) : Desc :=
  if d.kind = 0 && d.valid then
    { d with d1 := BitVec.ofNat 64 ((List.range 64).foldl (fun m k =>
        let p := d.first + d.stride * k
        if p = pc || (d.mirror && p ^^^ 256 = pc) then setBits m k 1 0 else m) d.mask) }
  else d

/-- R20, R267: descriptor i holds one of the pseudo-channels, or is an ancestor of one that does. -/
def State.onPath (s : State) (pcs : List Nat) (i : Nat) : Bool :=
  s.descs.any fun e => e.2.valid && e.2.kind = 0 && (e.2.cover.any fun p => pcs.contains p) && (e.1 = i || s.reaches 7 i e.1)

/-- R267: the map without a set of pseudo-channels: descriptors on the path are rewritten, and no other. -/
def State.mapWithout (s : State) (pcs : List Nat) : State :=
  ({ s with descs := tmap s.descs fun _ d => pcs.foldl Desc.without d }).recapOn (s.onPath pcs)

/-- Root descriptors, with the system groups, whose tree changes when a pseudo-channel leaves it. -/
def State.rootsOf (s : State) (pc : Nat) : List Nat :=
  (s.descs.filter fun e => e.2.valid && e.2.root).filterMap fun e =>
    let hits := s.descs.any fun d => d.2.valid && d.2.kind = 0 && d.2.cover.contains pc
      && (d.1 = e.1 || s.reaches 7 e.1 d.1)
    if hits then some e.1 else none

end Sys2Proof.Machine
end

