-- ==== Sys2Proof/Machine/Grade.lean ====
section
/-! DEFINITION. The state of the package (R443, R453, R458): which stacks are fused, the grade and its interrupt. -/
namespace Sys2Proof.Machine

/-- The stack sites of the population in use (R440, R443). -/
def State.fused (s : State) (st : Nat) : Bool := bit (s.fget F.pkFuseStat_pop) st

/-- Neither stack of a mirror pair serves (R28). -/
def State.pairDown (s : State) (st : Nat) : Bool := !s.stackUp st && !s.stackUp ((st + 4) % 8)

/-- Active and copying spares of the device. -/
def State.spareCount (s : State) : Nat := (s.spares.filter fun e => e.2.st ≠ 0).length

/-- Retired pseudo-channels of the device. -/
def State.retiredCount (s : State) : Nat := sumBy (fun k => popcount 64 (s.rget .pkRetired [k]).toNat) (List.range 8)

/-- R453: the highest grade whose condition holds. -/
def State.gradeNow (s : State) : Nat :=
  let fs := (List.range 8).filter s.fused
  if s.fget F.cpFwStat_state = 3 then 5
  else if (List.range 4).any s.pairDown then 4
  else if fs.any fun k => s.link k = 5 || s.link k = 0 then 3
  else if fs.any fun k => s.link k = 1 || s.link k = 2 then 2
  else if s.retiredCount ≠ 0 || s.spareCount ≠ 0 then 1
  else 0

/-- R453: the grade is recomputed; a change sets PK_INT.grade with the stack of the event. -/
def State.regrade (s : State) (st : Nat) : State :=
  let g := s.gradeNow
  if g = s.fget F.pkHealth_grade then s
  else (s.fset F.pkHealth_grade [] g).raise 4 F.pkInt_grade [] [(F.pkInt_first_stack, st)]

/-- The state of a stack's link changes. -/
def State.setLink (s : State) (st v : Nat) : State := (s.fset F.scLinkStat_state [st] v).regrade st

end Sys2Proof.Machine
end

