-- ==== Sys2Proof/Machine/Monitors.lean ====
section
/-! DEFINITION. Samples of the latency monitors (R498, R499) and the check-value units (R503 to R507). -/
namespace Sys2Proof.Machine

/-- Bin of a sample (R499). -/
def sampleBin (x : Nat) : Nat := if x = 0 then 0 else min 31 (Nat.log2 x)

/-- R499: one sample of a latency monitor. -/
def LMon.take (m : LMon) (x : Nat) : LMon :=
  let v := Nat.min x (2 ^ 32 - 1)
  let b := sampleBin x
  ⟨Nat.min m.min v, Nat.max m.max v, satAdd 48 m.samples 1, satAdd 64 m.sum x, tput 0 m.bins b (satAdd 32 (tget 0 m.bins b) 1)⟩

def State.lmonTake (s : State) (m x : Nat) : State :=
  { s with obs := { s.obs with lmon := tput LMon.init s.obs.lmon m ((tget LMon.init s.obs.lmon m).take x) } }

/-- R498: one granule read of a group monitor: monitors 26 to 89 whose descriptor lies on the walk from the root to the
pseudo-channel. -/
def State.groupSample (s : State) (root pc x : Nat) : State :=
  (List.range 64).foldl (fun t k =>
    let m := k + 26
    if t.fget F.obLmonCfg_en [m] = 0 then t else
    let d := t.fget F.obLmonCfg_desc [m]
    let onPath := (d = root || t.reaches 7 root d)
      && (t.descs.any fun e => e.2.valid && e.2.kind = 0 && e.2.cover.contains pc && (e.1 = d || t.reaches 7 d e.1))
    if onPath then t.lmonTake m x else t) s

/-! ## Check-value units -/

def ChkUnit.width (u : ChkUnit) : Nat := bits u.ctl 10 6 + 1
def ChkUnit.src (u : ChkUnit) : Nat := bits u.ctl 4 4
def ChkUnit.fold (u : ChkUnit) : Nat := bits u.ctl 8 2
def ChkUnit.sel (u : ChkUnit) : Nat := bits u.ctl 32 25

/-- The bits of a number of w bits in reverse order. -/
def revBits (w x : Nat) : Nat := (List.range w).foldl (fun a i => a * 2 + bits x i 1) 0

/-- One byte into the CRC register (R503). -/
def ChkUnit.feedByte (u : ChkUnit) (b : Nat) : ChkUnit :=
  { u with reg := crcByte u.width u.poly u.reg (if bit u.ctl 16 then revBits 8 b else b) }

/-- R505: a granule with its prefix. -/
def ChkUnit.feed (u : ChkUnit) (addr : Nat) (g : Granule) : ChkUnit :=
  let pre := if u.fold = 1 then (List.range 8).map fun i => bits addr (8 * i) 8
    else if u.fold = 2 then (List.range 8).map fun i => bits u.index (8 * i) 8 else []
  let u1 := pre.foldl ChkUnit.feedByte u
  let u2 := ((List.range 64).map fun i => (gByte g i).toNat).foldl ChkUnit.feedByte u1
  { u2 with bytes := u.bytes + 64, index := u.index + 1 }

/-- Check value as if the stream ended now (R503, R507). -/
def ChkUnit.value (u : ChkUnit) : Nat :=
  let r := if bit u.ctl 17 then revBits u.width u.reg else u.reg
  if bit u.ctl 18 then r ^^^ (2 ^ u.width - 1) else r

def State.chk (s : State) (k : Nat) : ChkUnit := tget ChkUnit.init s.obs.chk k
def State.setChk (s : State) (k : Nat) (u : ChkUnit) : State :=
  { s with obs := { s.obs with chk := tput ChkUnit.init s.obs.chk k u } }

/-- Units that run on a source and are bound to a stream take a granule. -/
def State.snoop (s : State) (src bound addr : Nat) (g : Granule) : State :=
  (List.range 16).foldl (fun t k =>
    let u := t.chk k
    if u.st = .run && u.src = src && u.bound = some bound then t.setChk k (u.feed addr g) else t) s

/-- The stream of a bound unit ends (R506). -/
def State.snoopEnd (s : State) (src bound : Nat) : State :=
  (List.range 16).foldl (fun t k =>
    let u := t.chk k
    if u.st = .run && u.src = src && u.bound = some bound then t.setChk k { u with st := .ended } else t) s

/-- An armed fetch unit binds at the next fetch of its segment (R506). -/
def State.snoopFetch (s : State) (seg : Nat) : State :=
  (List.range 16).foldl (fun t k =>
    let u := t.chk k
    if u.st = .armed && u.src = 2 && u.sel = seg then t.setChk k { u with st := .run, bound := some seg } else t) s

/-- An armed COPY or MIGRATE unit binds when its packet starts (R506). -/
def State.snoopPacket (s : State) (src port ring seq id : Nat) : State :=
  (List.range 16).foldl (fun t k =>
    let u := t.chk k
    if u.st = .armed && u.src = src && u.port = port && bits u.ctl 24 2 = ring && bits u.sel 0 16 = seq
    then t.setChk k { u with st := .run, bound := some id } else t) s

end Sys2Proof.Machine
end

