-- ==== Sys2Proof/Machine/Clock.lean ====
section
/-! DEFINITION. The passage of time: the clock moves forward and the counters of cycles follow (R6, R494). -/
namespace Sys2Proof.Machine

/-- Time moves forward to a tick, never back; FE_MCLK, FCLK, SREF and CAP count the cycles that pass (R494). -/
def State.tickTo (s : State) (t : Nat) : State :=
  if t ≤ s.clk.now then s else
  let s1 := { s with clk := { s.clk with now := t } }
  let n := s1.mclk - s.mclk
  let s2 := (s1.ev 0x000 0 n).ev 0x001 0 (s1.fclk - s.fclk)
  if s.fget F.obPmcCtl_en = 0 then s2 else
  (List.range 8).foldl (fun t k =>
    let u := if t.fget F.scLinkStat_state [k] = 4 then t.ev 0x300 k n else t
    if u.fget F.scSchedCfg_cmd_cap [k] = 0 then u else u.ev 0x303 k n) s2

/-- A number of ticks passes. -/
def State.tick (s : State) (n : Nat) : State := s.tickTo (s.clk.now + n)

/-- A tick rounded up to the next start of a front-end MCLK. -/
def State.mclkAlign (s : State) (t : Nat) : Nat :=
  s.clk.mclkRef + ceilDiv (t - s.clk.mclkRef) s.mclkTicks * s.mclkTicks

/-! ## The hairspring loop's table (R413, R416) -/

/-- Reading of a junction sensor, in 0.25 °C. -/
def State.reading (s : State) (k : Nat) : Int := sInt 11 (s.fget F.tmSens_reading [k])
/-- The sensor has not failed and has given a reading. -/
def State.sensorOk (s : State) (k : Nat) : Bool := s.fget F.tmSens_state [k] = 0 && tget false s.therm.seen k

/-- R416: bin of the mean of the valid cluster sensors; the last bin when none converts. -/
def State.binNow (s : State) : Nat :=
  let l := (((List.range 16).map (48 + ·)).filter s.sensorOk).map s.reading
  if l.isEmpty then s.therm.bin
  else (Nat.min ((l.foldl (· + ·) 0 / Int.ofNat l.length + 160) / 32).toNat 23)

/-- PCLK stops: the loop applies the table entry of the bin (R416). -/
def State.tableTrim (s : State) : State :=
  let b := s.binNow
  { s with therm := { s.therm with bin := b, trim := tfind s.trims b } }

end Sys2Proof.Machine
end

