-- ==== Sys2Proof/Machine/Seg.lean ====
section
/-! DEFINITION. The residency directory and the pools' frames (R185 to R197, R213, R219): entries, placement, the clock
hand, overcommit. -/
namespace Sys2Proof.Machine

/-- Bytes of a segment and of a frame (R185, R192). -/
def segBytes : Nat := 2 ^ 21
def numSegs : Nat := 2 ^ 25

def State.seg (s : State) (n : Nat) : SegEnt := tget SegEnt.init s.dir n

/-- Both copies of a directory quarter are out of reach (R219). -/
def State.dirDown (s : State) (n : Nat) : Bool := !s.stackUp (n % 4) && !s.stackUp (n % 4 + 4)

/-- R189, R190: an entry changes in both copies, and every port copy of it is dropped first. A write that reaches only one of
them is an event (R223). -/
def State.setSeg (s : State) (n : Nat) (e : SegEnt) : State :=
  let s1 := { s with dir := tput SegEnt.init s.dir n e
                     ports := tmap s.ports fun _ p => { p with dirCopies := p.dirCopies.filter (· ≠ n) } }
  if s.stackUp (n % 4) = s.stackUp (n % 4 + 4) then s1
  else s1.raise 4 F.trErr_backing [] [(F.trErr_first_seg, n)]

/-- Pool state (R225): 0 DISABLED, 1 ONLINE, 2 OFFLINE. -/
def State.poolState (s : State) (p : Nat) : Nat :=
  if s.fget F.trPoolCfg_en [p] = 0 then 0 else if s.stackUp p then 1 else 2

/-- Frames usable in a pool (R220, R225). -/
def State.poolUsable (s : State) (p : Nat) : Nat :=
  min (s.fget F.trPoolCfg_frames [p]) ((s.desc (s.fget F.trPoolCfg_desc [p])).cap / 2)

/-- The segment held in a frame. -/
def State.segIn (s : State) (p f : Nat) : Option Nat :=
  (s.dir.find? fun e => (e.2.st = .loc || e.2.st = .fetching) && e.2.pool = p && e.2.frame = f).map (·.1)

/-- Reads that translated to a frame and have not finished (Eviction meets a read in flight). -/
def State.frameReaders (s : State) (p f : Nat) : Nat :=
  sumBy (fun e => (e.2.reqs.filter fun r => match r.tens with
    | some t => t.loc = .frame p f
    | none => false).length) s.ports

def State.frameFree (s : State) (p f : Nat) : Bool := (s.segIn p f).isNone && s.frameReaders p f = 0

/-- Lowest free frame of a pool (R194). -/
def State.lowFrame (s : State) (p : Nat) : Option Nat := (List.range (s.poolUsable p)).find? fun f => s.frameFree p f

/-- R193: a copy is dropped; its entry becomes FAR and its frame is free. -/
def State.dropSeg (s : State) (n : Nat) : State := s.setSeg n { s.seg n with st := .far }

/-- The clock hand of a pool (R195): up to the given number of steps. -/
def State.clockHand (s : State) (p : Nat) : Nat → State × Option Nat
  | 0 => (s, none)
  | fuel + 1 =>
    let n := s.poolUsable p
    if n = 0 then (s, none) else
    let h := tget 0 s.hands p % n
    let s1 := { s with hands := tput 0 s.hands p ((h + 1) % n) }
    match s.segIn p h with
    | none => s1.clockHand p fuel
    | some g =>
      let e := s.seg g
      if e.pin || e.st = .fetching || s.frameReaders p h ≠ 0 then s1.clockHand p fuel
      else if e.ref then (s1.setSeg g { e with ref := false }).clockHand p fuel
      else ((s1.dropSeg g).ev 0x604 0 1, some h)

/-- How far a search for a victim may go (R195, R197, R216). -/
inductive Victim where
  | none | firstPass | twoPasses
  deriving DecidableEq, Repr

/-- A frame from one pool. -/
def State.frameFrom (s : State) (p : Nat) (v : Victim) : State × Option Nat :=
  if s.poolState p ≠ 1 then (s, none) else
  match s.lowFrame p with
  | some f => (s, some f)
  | none => match v with
    | .none => (s, none)
    | .firstPass => s.clockHand p (s.poolUsable p)
    | .twoPasses => s.clockHand p (2 * s.poolUsable p)

/-- R194: a frame for a segment, pools tried from n mod 8 upward with wrap. -/
def State.takeFrame (s : State) (n : Nat) (v : Victim) : State × Option (Nat × Nat) :=
  (List.range 8).foldl (fun (a : State × Option (Nat × Nat)) k =>
    match a.2 with
    | some _ => a
    | none =>
      let p := (n + k) % 8
      let (t, f) := a.1.frameFrom p v
      (t, f.map fun x => (p, x))) (s, none)

/-- R213: declared working sets against usable frames of the online pools. -/
def State.ocDemand (s : State) : Nat := sumBy (fun m => s.fget F.trModel_ws_segs [m]) (List.range 256)
def State.ocCapacity (s : State) : Nat := sumBy (fun p => if s.poolState p = 1 then s.poolUsable p else 0) (List.range 8)
def State.ocModel (s : State) (m : Nat) : Bool := s.fget F.trModel_oc [m] = 1

/-- R213, R220: marks fall when the demand no longer exceeds the capacity; the shortfall follows; a ledger record is
written for each model whose mark changes. -/
def State.ocRecompute (s : State) : State :=
  let d := s.ocDemand
  let c := s.ocCapacity
  (List.range 256).foldl (fun t m =>
    if t.ocModel m then
      if d ≤ c then ((t.fset F.trModel_oc [m] 0).fset F.trModel_short_segs [m] 0).log .overcommit m 0 0 0
      else t.fset F.trModel_short_segs [m] (d - c)
    else t) s

/-- Start of the victim search a fetch may use (R197, R211, R216). -/
def State.victimFor (s : State) (n : Nat) (k : FetchKind) : Victim :=
  if s.ocModel (s.seg n).model then .none else match k with
    | .demand => .twoPasses
    | .prefetch => .firstPass

/-- Place of a byte of a frame (R192). -/
def State.framePlace (s : State) (p f off : Nat) : Option Place :=
  s.placeIn (s.fget F.trPoolCfg_desc [p]) (segBytes * f + off)

/-- R199: a miss queues a demand fetch unless the segment is already being fetched or waits. -/
def State.demandFetch (s : State) (n start : Nat) : State :=
  if (s.seg n).st = .fetching || s.demandQ.any (·.seg = n) then s
  else { s with demandQ := s.demandQ ++ [⟨n, .demand, start, 0⟩], prefetchQ := s.prefetchQ.filter (· ≠ n) }

end Sys2Proof.Machine
end

