-- ==== Sys2Proof/Machine/Requests.lean ====
section
/-! DEFINITION. A request's parts, their outcomes, and the frame that answers the request (R40, R51, R57, R205, R315). -/
namespace Sys2Proof.Machine

/-- Flits of a response of m granules, packed from slot 0 of a flit (R40, R361; log entry 15). -/
def flitsOf (m : Nat) : Nat := max 1 (ceilDiv m 8)

def State.setReq (s : State) (n : Nat) (r : PortReq) : State :=
  let p := s.port n
  s.setPort n { p with reqs := p.reqs.map fun q => if q.id = r.id then r else q }

def State.findReq (s : State) (n id : Nat) : Option PortReq := (s.port n).reqs.find? fun r => r.id = id

/-- Undefined bytes for every granule that failed (R57). -/
def State.fillFailed (s : State) : List (PStatus × Granule) → State × List (PStatus × Granule)
  | [] => (s, [])
  | (st, g) :: r =>
    if st = .ok then let (t, l) := s.fillFailed r; (t, (st, g) :: l)
    else
      let (s1, x) := s.drawGranule
      let (t, l) := s1.fillFailed r
      (t, (st, x) :: l)

/-- First status other than OK, with its granule's pseudo-channel (R57). -/
def firstBad (ps : List Part) : PStatus × Nat :=
  match ps.find? fun p => p.status ≠ .ok with
  | some p => (p.status, p.info)
  | none => (.ok, 0)

/-- Status codes (R58). -/
def PStatus.code : PStatus → Nat
  | .ok => 0x00 | .poisoned => 0x01 | .retry => 0x02 | .unavailable => 0x03 | .unmapped => 0x04 | .denied => 0x05
  | .malformed => 0x06 | .unsupported => 0x07 | .poisonMerge => 0x08 | .farErr => 0x09

/-- R39: the sideband word of granule i of a message. -/
def sideband (tag i status : Nat) (last : Bool) : BitVec 32 :=
  BitVec.ofNat 32 (packWord [(0, 12, tag), (12, 6, i), (18, 5, status), (23, 1, b2n last)])

/-- R39: the data slots of a response, with their status codes. -/
def dataSlots (tag : Nat) (l : List (Nat × Granule)) : List DataSlot :=
  (l.zip (List.range l.length)).map fun e => (sideband tag e.2 e.1.1 (decide (e.2 + 1 = l.length)), e.1.2)

/-- R57: a CPL header. -/
def cplHeader (tag status info mask : Nat) : BitVec 128 :=
  BitVec.ofNat 128 (packWord [(0, 4, 8), (8, 12, tag), (20, 5, status), (32, 9, info), (64, 64, mask)])

/-- R57: info is the pseudo-channel for RETRY and UNAVAILABLE, and reserved otherwise. -/
def infoOf (st : PStatus) (pc : Nat) : Nat := if st = .retry || st = .unavailable then pc else 0

/-- fail_mask of a write (R57). -/
def failMask (ps : List Part) : Nat :=
  (ps.zip (List.range ps.length)).foldl (fun a e => if e.1.status = .ok then a else a + (1 <<< e.2)) 0

/-- Bytes of a list of granules as one number. -/
def joinGranules (gs : List Granule) : Nat := gs.foldr (fun g acc => (acc <<< 512) + g.toNat) 0

/-- Granule i of a number read as bytes. -/
def granuleAt (x i : Nat) : Granule := BitVec.ofNat 512 (bits x (512 * i) 512)

/-- R205: the egress granules of a decoded READ, each with its status, and whether a conversion saturated. -/
def decodeEgress (t : TensRead) (len : Nat) (ps : List Part) : List (PStatus × Granule) × Bool :=
  let all := joinGranules (ps.map (·.data))
  let tb := tileBytes t.fmt
  let per := egressTile t.efmt / 64
  let dec := (List.range t.tiles).map fun k =>
    let b := t.tileOff + k * tb - t.off
    let d := decodeTile t.fmt t.efmt (bits all (8 * b) (8 * tb))
    let used := (ps.drop (b / 64)).take (ceilDiv (b % 64 + tb) 64)
    ((firstBad used).1, d)
  ((List.range len).map fun i =>
    match dec[i / per]? with
    | some (st, d) => (st, granuleAt d.1 (i % per))
    | none => (.ok, 0), (dec.take (ceilDiv len per)).any fun e => e.1 = .ok && decide (e.2.2.1 ≠ 0))

/-- The frame that answers a request (R361). -/
def PortReq.mkFrame (r : PortReq) (now : Nat) (slots : Option (List (PStatus × Granule))) (st : PStatus) (info mask : Nat) :
    Frame :=
  ⟨r.id, r.tag, r.tc, slots, st, infoOf st info, mask, r.staged, r.rsvd, r.reused, r.kind, r.len, r.stamp, r.arrive, now, r.unbound,
    r.addr⟩

/-- Code of a request's kind (R42). -/
def ReqKind.code : ReqKind → Nat
  | .read => 0 | .write => 1 | .masked => 2 | .atomic => 3

/-- GL_PORT_ERR of a refused request (R70). -/
def State.portErr (s : State) (n : Nat) (st : PStatus) (tag kind : Nat) : State :=
  let fs := [(F.glPortErr_first_tag, tag), (F.glPortErr_first_kind, kind)]
  match st with
  | .malformed => s.raise 6 F.glPortErr_malformed [n] fs
  | .unsupported => s.raise 6 F.glPortErr_unsupported [n] fs
  | .denied => s.raise 6 F.glPortErr_denied [n] fs
  | .unmapped => s.raise 6 F.glPortErr_unmapped [n] fs
  | .farErr => s.raise 6 F.glPortErr_far_err [n] fs
  | _ => s

/-- R70: a DENIED or an UNMAPPED that a request meets behind the ingress checks. -/
def State.lateErr (s : State) (n : Nat) (r : PortReq) : State :=
  r.parts.foldl (fun t p => if p.status = .denied || p.status = .unmapped then t.portErr n p.status r.tag r.kind.code else t) s

/-- R57, R205: the answer to a request whose parts are all done joins the frames that are ready. -/
def State.answer (s0 : State) (n : Nat) (r : PortReq) : State :=
  let s := s0.lateErr n r
  let mk := r.mkFrame s.fclk
  let out := fun (t : State) (f : Frame) =>
    let p := t.port n
    t.setPort n { p with reqs := p.reqs.filter (fun q => q.id ≠ r.id), frames := p.frames ++ [f] }
  match r.kind with
  | .read =>
    match r.tens with
    | none =>
      let (t, sl) := s.fillFailed (r.parts.map fun p => (p.status, p.data))
      out t (mk (some sl) .ok 0 0)
    | some tr =>
      let local? := match tr.loc with
        | .frame _ _ => decide ((s.seg tr.seg).st = .loc)
        | _ => false
      let s1 := if local? && r.parts.any (fun p => p.status = .poisoned) then s.dropSeg tr.seg else s
      if tr.efmt = 0 then
        let (t, sl) := s1.fillFailed (r.parts.map fun p => (p.status, p.data))
        out t (mk (some sl) .ok 0 0)
      else
        let (gs, sat) := decodeEgress tr r.len r.parts
        let s2 := if sat then s1.raise 4 F.trErr_sat [] [(F.trErr_first_seg, tr.seg)] else s1
        let (t, sl) := (s2.ev 0x109 n r.len).fillFailed gs
        out t (mk (some sl) .ok 0 0)
  | .atomic =>
    let p := (r.parts[0]?).getD ⟨.done, [], 0, 0, 0, .unavailable, 0, 0⟩
    if r.fetch then
      let (t, g) := s.drawGranule
      let d := if p.status = .ok then gPut g 0 8 (p.data.extractLsb' 0 64).toNat else g
      out t (mk (some [(p.status, d)]) .ok 0 0)
    else out s (mk none p.status p.info (failMask r.parts))
  | _ =>
    let (st, info) := firstBad r.parts
    out s (mk none st info (failMask r.parts))

/-- A request is answered once every part is done. -/
def State.sweep (s : State) (n id : Nat) : State :=
  match s.findReq n id with
  | none => s
  | some r => if r.stage = .issued && r.parts.all (fun p => p.st = .done) then s.answer n r else s

/-- A part's outcome arrives; the request is answered when it was the last. -/
def State.setPart (s : State) (n id i : Nat) (f : Part → Part) : State :=
  match s.findReq n id with
  | none => s
  | some r =>
    let ps := (r.parts.zip (List.range r.parts.length)).map fun e => if e.2 = i then f e.1 else e.1
    (s.setReq n { r with parts := ps }).sweep n id

/-- The part ends with a status and data. -/
def Part.finish (st : PStatus) (info : Nat) (d : Granule) (p : Part) : Part :=
  { p with st := .done, todo := [], pend := 0, status := st, info := info, data := d }

def State.deliver (s : State) (src : Src) (st : PStatus) (info : Nat) (d : Granule) : State :=
  match src with
  | .part n id i => s.setPart n id i (Part.finish st info d)
  | .none => s

/-- One copy of a write part has its merge outcome (R319, R321); the part fails only when every copy was refused. -/
def State.mergeOutcome (s : State) (src : Src) (refused : Bool) : State :=
  match src with
  | .part n id i => s.setPart n id i fun p =>
      let q := { p with pend := p.pend - 1, bad := p.bad + b2n refused }
      if q.pend = 0 && q.todo.isEmpty then
        { q with st := .done, status := if q.bad ≥ q.copies then .poisonMerge else .ok } else q
  | .none => s

/-- R48, R50: header and write-data credits go back to the requester on D2C_CRD; a port that is not READY sends nothing. -/
def State.creditBack (s : State) (n h w : Nat) : State :=
  let p := s.port n
  if h = 0 && w = 0 || p.st ≠ .ready then s else
  (s.setPort n { p with hdrHeld := p.hdrHeld + h, wdatHeld := p.wdatHeld + w }).emit (.credit n h w)

/-- First byte and granules that a tensor-space read needs of its segment (R203, R204). -/
def TensRead.granules (t : TensRead) (len : Nat) : Nat :=
  if t.efmt = 0 then len else ceilDiv (t.tileOff - t.off + t.tiles * tileBytes t.fmt) 64

/-- Granules of memory space that a request touches: number of the first, and how many. A tensor-space read touches those of
its segment's home when the home is memory (R188, R197). -/
def State.spanOf (s : State) (r : PortReq) : Nat × Nat :=
  match r.tens with
  | none => (r.addr / 64, r.len)
  | some t =>
    let e := s.seg t.seg
    if e.st = .mem then ((e.home + t.off) / 64, t.granules r.len) else (0, 0)

/-- Number of a request's granule i among all granules of memory space. -/
def State.granuleOf (s : State) (r : PortReq) (i : Nat) : Nat := (s.spanOf r).1 + i

/-- The request touches a granule of memory space. -/
def State.touches (s : State) (r : PortReq) (g : Nat) : Bool :=
  let (a, n) := s.spanOf r
  decide (a ≤ g) && decide (g < a + n)

def PortReq.isWrite (r : PortReq) : Bool := r.kind ≠ .read

/-- The request has not been accepted yet for a granule it touches. -/
def State.yetToCome (s : State) (r : PortReq) (g : Nat) : Bool :=
  s.touches r g && (r.stage ≠ .issued ||
    match r.parts[g - (s.spanOf r).1]? with
    | some p => p.st = .wait
    | none => false)

/-- R53: an earlier request of the port that conflicts on granule i of a request has not been accepted for it. -/
def State.conflict (s : State) (p : Port) (r : PortReq) (i : Nat) : Bool :=
  decide (i < (s.spanOf r).2)
    && p.reqs.any fun q => decide (q.id < r.id) && (q.isWrite || r.isWrite) && s.yetToCome q (s.granuleOf r i)

end Sys2Proof.Machine
end

