-- ==== Sys2Proof/Machine/Pcc.lean ====
section
/-! DEFINITION. The pseudo-channel controllers: queues, holds, urgency, the scheduling rule, turns, refresh, the decode of
returning sectors, the merge buffer and the write-backs (R271 to R287, R305 to R323, R538). -/
namespace Sys2Proof.Machine

/-! ## Timing (R279, R298) -/

/-- A timing field of a stack at the operating point in force, in ticks. -/
def State.tim (s : State) (st : Nat) (f : Fld) : Nat := s.fget f [st, s.fget F.glOpStat_op] * s.sckTicks

/-- Bank group of a bank: bits [5:2] (R279). -/
def bankGroup (b : Nat) : Nat := b / 4

/-! ## Holds (R54, R273) -/

def sameG (a b : Place) : Bool := a.bank = b.bank && a.row = b.row && a.col = b.col

def Ent.isRead (e : Ent) : Bool := e.kind = .read || e.kind = .atomicRead

/-- A write-back of R538. -/
def Ent.isBack (e : Ent) : Bool := e.kind = .back || e.kind = .mergeBack

/-- An earlier write to the place, queued or merging (R54). -/
def Pcc.writeBefore (p : Pcc) (seq : Nat) (pl : Place) : Bool :=
  (p.wq.any fun w => w.seq < seq && sameG w.place pl) || (p.mb.any fun m => m.seq < seq && sameG m.place pl)
    || p.rq.any fun e => e.isBack && e.seq < seq && sameG e.place pl

/-- R538: a write-back that a read of this acceptance position found: it issues before the write of that position. -/
def Pcc.backOf (p : Pcc) (seq : Nat) (pl : Place) : Bool :=
  (p.rq ++ p.wq).any fun e => e.isBack && e.seq = seq && sameG e.place pl

/-- An earlier read of the place in the read queue (R273). -/
def Pcc.readBefore (p : Pcc) (seq : Nat) (pl : Place) : Bool :=
  p.rq.any fun e => e.isRead && e.seq < seq && sameG e.place pl

/-- A read is held (R54, R273). -/
def Pcc.rdHeld (p : Pcc) (e : Ent) : Bool :=
  p.writeBefore e.seq e.place || (e.kind = .atomicRead && p.readBefore e.seq e.place)

/-- A write is held (R273). -/
def Pcc.wrHeld (p : Pcc) (seq : Nat) (pl : Place) : Bool := p.writeBefore seq pl || p.readBefore seq pl

/-- Urgency of a class and stamp now (R275). -/
def State.urgency (s : State) (cls stamp : Nat) : Nat :=
  let lt := s.fget F.glLt_lt [cls]
  if lt = 0 then 7 else min 7 (8 * (s.mclk - stamp) / lt)

/-- R276: urgency that a write takes from the reads it holds. -/
def State.heldUrgency (s : State) (p : Pcc) (seq : Nat) (pl : Place) : Nat :=
  maxBy (fun e => if e.isRead && seq < e.seq && sameG e.place pl then s.urgency e.cls e.stamp else 0) p.rq

def State.wrUrgency (s : State) (p : Pcc) (w : Ent) : Nat :=
  max (s.heldUrgency p w.seq w.place) (if w.kind = .atomicWrite then s.urgency w.cls w.stamp else 0)

/-- A write holds a read under R54. -/
def Pcc.holdsRead (p : Pcc) (seq : Nat) (pl : Place) : Bool :=
  p.rq.any fun e => e.isRead && seq < e.seq && sameG e.place pl

/-! ## Column candidates (R277, R278) -/

/-- Which sector a candidate would issue. -/
inductive CandKey where
  | rq (seq half : Nat)
  | wq (seq half : Nat)
  | mb (seq half : Nat)
  deriving DecidableEq, Repr

structure Cand where
  key : CandKey
  urg : Nat
  stamp : Nat
  place : Place
  /-- the row as issued (R326) -/
  row : Nat
  deriving DecidableEq, Repr

def halvesOf (m : Nat) : List Nat := [0, 1].filter fun h => bit m h

/-- Read sectors that no hold stops. -/
def State.readCands (s : State) (pc : Nat) : List Cand :=
  let p := s.pcc pc
  ((p.rq.filter fun e => e.isRead && !p.rdHeld e).map fun e =>
    (halvesOf e.todo).map fun h =>
      (⟨.rq e.seq h, s.urgency e.cls e.stamp, e.stamp, e.place, s.issuedRow pc e.place.bank e.place.row⟩ : Cand)).flatten
  ++ ((p.mb.filter fun m => m.st = .rmw && !p.writeBefore m.seq m.place).map fun m =>
    (halvesOf m.todo).map fun h =>
      (⟨.mb m.seq h, s.heldUrgency p m.seq m.place, m.stamp, m.place, s.issuedRow pc m.place.bank m.place.row⟩ : Cand)).flatten

/-- Write sectors that no hold stops. -/
def State.writeCands (s : State) (pc : Nat) : List Cand :=
  let p := s.pcc pc
  ((p.wq.filter fun e => e.ready && !p.wrHeld e.seq e.place && (e.isBack || !p.backOf e.seq e.place)).map fun e =>
    (halvesOf e.todo).map fun h =>
      (⟨.wq e.seq h, s.wrUrgency p e, e.stamp, e.place, s.issuedRow pc e.place.bank e.place.row⟩ : Cand)).flatten
  ++ ((p.mb.filter fun m => m.st = .wb && !p.wrHeld m.seq m.place && !p.backOf m.seq m.place).map fun m =>
    (halvesOf m.todo).map fun h =>
      (⟨.mb m.seq h, s.heldUrgency p m.seq m.place, m.stamp, m.place, s.issuedRow pc m.place.bank m.place.row⟩ : Cand)).flatten

/-- a ranks above b: urgency, then age (R278). -/
def Cand.above (a b : Cand) : Bool := b.urg < a.urg || (a.urg = b.urg && a.stamp ≤ b.stamp)

/-! ## Turns (R280) -/

def CandKey.seq : CandKey → Nat
  | .rq n _ => n
  | .wq n _ => n
  | .mb n _ => n

/-- The PCC changes turn. -/
def State.flipTurn (s : State) (pc : Nat) : State :=
  let p := s.pcc pc
  (s.setPcc pc { p with wturn := !p.wturn, turnCnt := 0, turns := (p.turns + 1) % 2 ^ 32 }).ev 0x206 pc 1

/-- Whether one of the conditions (a) to (f) of R280 holds. -/
def State.turnDue (s : State) (pc : Nat) : Bool :=
  let p := s.pcc pc
  let st := pc / 64
  let rd := s.readCands pc
  let wr := s.writeCands pc
  if !p.wturn then
    let a := decide (s.fget F.scSchedCfg_wq_hi [st] ≤ p.wq.length) && !wr.isEmpty
      && (decide (s.fget F.scSchedCfg_rd_min [st] ≤ p.turnCnt) || rd.isEmpty)
    let b := rd.isEmpty && !wr.isEmpty
    let top := maxBy (·.urg) rd
    let c := wr.any fun w => p.holdsRead w.key.seq w.place && decide (top ≤ s.heldUrgency p w.key.seq w.place)
    a || b || c
  else
    let holds := (p.wq.any fun w => p.holdsRead w.seq w.place) || p.mb.any fun m => p.holdsRead m.seq m.place
    let d := wr.isEmpty
    let e := !rd.isEmpty && !holds && decide (p.wq.length ≤ s.fget F.scSchedCfg_wq_lo [st])
    let f := (rd.any fun c => decide (s.fget F.scSchedCfg_urg_brk [st] ≤ c.urg)) && !holds
      && decide (s.fget F.scSchedCfg_wr_min [st] ≤ p.turnCnt)
    d || e || f

/-- R280: the PCC changes turn when a condition holds. -/
def State.turnStep (s : State) (pc : Nat) : State := if s.turnDue pc then s.flipTurn pc else s

/-! ## Earliest legal times -/

def Pcc.bank (p : Pcc) (b : Nat) : Bank := tget Bank.init p.banks b
def Pcc.setBank (p : Pcc) (b : Nat) (x : Bank) : Pcc := { p with banks := tput Bank.init p.banks b x }

/-- Commands of one bus that the spacing limits look back on: a limit is at most 15 SCK, and a bus takes one command in
2 SCK (R277, R279, R298). -/
def histLen : Nat := 8

/-- Limits between column commands: one in an MCLK, and the spacings of R279 (R277). -/
def State.colAfter (s : State) (pc bank : Nat) : Nat :=
  maxBy (fun c => c.1 + max s.mclkTicks
    (s.tim (pc / 64) (if bankGroup bank = c.2 then F.scTim0_tccd_l else F.scTim0_tccd_s))) (s.pcc pc).cols

/-- R283: the first column slot at or after a tick that the cap leaves (log entry 16). -/
def State.capSlot (s : State) (st t : Nat) : Nat :=
  let cap := s.fget F.scSchedCfg_cmd_cap [st]
  let k := (t - s.clk.mclkRef) / s.mclkTicks
  if (cap = 1 && k % 4 = 3) || (cap = 2 && k % 2 = 1) then t + s.mclkTicks else t

/-- Earliest tick for a column command of a candidate in its turn (R279, R281). -/
def State.colTime (s : State) (pc : Nat) (c : Cand) : Nat :=
  let p := s.pcc pc
  let st := pc / 64
  let b := c.place.bank
  let turn := if p.wturn then
      match p.lastRd with
      | some (t, _) => t + s.tim st F.scTim1_trtw
      | none => 0
    else
      match p.lastWr with
      | some (t, g) => t + s.tim st F.scTim0_twl + 2 * s.sckTicks
          + s.tim st (if g = bankGroup b then F.scTim1_twtr_l else F.scTim1_twtr_s)
      | none => 0
  s.capSlot st (s.mclkAlign (max (max s.clk.now (p.bank b).colOk) (max (s.colAfter pc b) turn)))

/-- Limits between activations, a REFpb counting as one (R279). -/
def State.actAfter (s : State) (pc bank : Nat) : Nat :=
  let p := s.pcc pc
  let st := pc / 64
  max (maxBy (fun a => a.1 + s.tim st (if bankGroup bank = a.2 then F.scTim0_trrd_l else F.scTim0_trrd_s)) p.acts)
    (match p.acts[3]? with
      | some a => a.1 + s.tim st F.scTim1_tfaw
      | none => 0)

/-- Next free slot of the row bus: one command per MCLK (R277). -/
def State.rowSlot (s : State) (pc t : Nat) : Nat :=
  s.mclkAlign (max (max s.clk.now t) (match (s.pcc pc).lastRow with
    | some r => r + s.mclkTicks
    | none => 0))

/-- The candidate that goes first: earliest time, then rank. -/
def pickCand (time : Cand → Nat) : List Cand → Option (Cand × Nat)
  | [] => none
  | c :: r => match pickCand time r with
    | none => some (c, time c)
    | some (d, t) => if time c < t || (time c = t && c.above d) then some (c, time c) else some (d, t)

/-- A bank's row is the one a candidate needs, and no forced refresh stops it (R285). -/
def Pcc.isHit (p : Pcc) (c : Cand) : Bool :=
  let b := p.bank c.place.bank
  b.row = some c.row && b.debt < 8

/-- Candidates of the current turn. -/
def State.turnCands (s : State) (pc : Nat) : List Cand :=
  if (s.pcc pc).wturn then s.writeCands pc else s.readCands pc

/-- Every queued sector, held or not, with its urgency: what a PRE must outrank (R278). -/
def State.allCands (s : State) (pc : Nat) : List Cand :=
  let p := s.pcc pc
  p.rq.map (fun e => (⟨.rq e.seq 0, s.urgency e.cls e.stamp, e.stamp, e.place, s.issuedRow pc e.place.bank e.place.row⟩ : Cand))
  ++ p.wq.map (fun e => (⟨.wq e.seq 0, s.wrUrgency p e, e.stamp, e.place, s.issuedRow pc e.place.bank e.place.row⟩ : Cand))
  ++ p.mb.map (fun m => (⟨.mb m.seq 0, s.heldUrgency p m.seq m.place, m.stamp, m.place,
      s.issuedRow pc m.place.bank m.place.row⟩ : Cand))

/-! ## Refresh candidates (R285) -/

/-- Urgency with which a bank's refresh competes: none when it may not issue now. -/
def State.refUrgency (s : State) (pc b : Nat) : Option Nat :=
  let d := ((s.pcc pc).bank b).debt
  if d = 0 then none
  else if d ≤ 3 then (if (s.allCands pc).any fun c => c.place.bank = b then none else some 0)
  else if d ≤ 5 then some 3
  else if d ≤ 7 then some 6
  else some 8

/-! ## Correctable and uncorrectable errors (R313 to R323) -/

/-- The recent-row table: hit, replace the least recently hit of 64 (R323). -/
def hitRow (t : List (Nat × Nat × Nat × Nat)) (pc bank row : Nat) : List (Nat × Nat × Nat × Nat) :=
  match t.find? fun e => e.1 = pc && e.2.1 = bank && e.2.2.1 = row with
  | some e => (pc, bank, row, e.2.2.2 + 1) :: t.filter fun x => !(x.1 = pc && x.2.1 = bank && x.2.2.1 = row)
  | none => (pc, bank, row, 1) :: t.take 63

/-- A step of the ladder is asked for once (R324). -/
def State.addJob (s : State) (j : LadderJob) : State := if s.ladder.contains j then s else { s with ladder := s.ladder ++ [j] }

/-- Units of the operating-hours counter in an hour (R484). -/
def hourUnits : Nat := 1024

/-- R322, R324: the bucket reached ce_thr; four overflows within 24 operating hours ask for level 4. -/
def State.bucketFull (s : State) (pc a : Nat) : State :=
  let st := pc / 64
  let p := s.pcc pc
  let at' := (s.obs.hours :: p.ovfAt).take 4
  let s1 := s.setPcc pc { p with bucket := 0, ovfAt := at' }
  let s2 := ((s1.fsat F.pcEccStat_ovf [st, pc % 64] 1).raise 5 F.scEccInt_ce_ovf [st] [(F.scEccInt_first_pc, pc % 64)]).log
    .ceOvf st (pc % 64) 0 a
  if at'.length = 4 && at'.all (fun h => decide (s.obs.hours - h ≤ 24 * hourUnits)) then s2.addJob (.retire pc false) else s2

/-- Fields of a lane map word (R259): the lane out of service in a group, 15 for none, and the channel epoch. -/
def laneOut (w g : Nat) : Nat := bits w (4 * g) 4
def laneEpoch (w : Nat) : Nat := bits w 36 8

/-- R231: the lane on which a functional position lies: those in service follow in index order. -/
def laneAt (out f : Nat) : Nat := if f < out then f else f + 1

/-- The device's lane map of a channel. -/
def State.devLanes (s : State) (k c : Nat) : Nat := (tget laneNone s.laneMaps (32 * k + c)).toNat

/-- R307, R324: the lane of a symbol position on which lane_thr of the last 32 CEs fall. -/
def State.laneJob (s : State) (pc k : Nat) : State :=
  if s.fget F.scEccCfg_lane_thr [pc / 64] ≤ ((s.pcc pc).ceHist.filter (· = k)).length then
    let c := pc % 64 / 2
    let g := 4 * (pc % 2) + k / 9
    s.addJob (.lane (pc / 64) c g (laneAt (laneOut (s.devLanes (pc / 64) c) g) (k % 9)))
  else s

/-- R322, R323: one CE of a pseudo-channel at a coordinate, with its symbol position when known. -/
def State.countCe (s : State) (pc a : Nat) (n : Option Nat) : State :=
  let st := pc / 64
  let p := s.pcc pc
  let row := bits a 5 15
  let bank := bits a 20 6
  let p1 := { p with bucket := p.bucket + 1, ceHist := (match n with
    | some k => (k :: p.ceHist).take 32
    | none => p.ceHist) }
  let s1 := ((s.setPcc pc p1).fadd F.pcEccCnt_ce [st, pc % 64] 1).ev 0x20A pc 1
  let t := hitRow (tget [] s1.rows st) (pc % 64) bank row
  let s2 := { s1 with rows := tput [] s1.rows st t }
  let s3 := match n with
    | some k => s2.laneJob pc k
    | none => s2
  let s4 := if (t.head?.map fun e => decide (s.fget F.scEccCfg_row_ce_thr [st] ≤ e.2.2.2)) = some true
    then s3.addJob (.row pc bank row) else s3
  if s.fget F.scEccCfg_ce_thr [st] ≤ p1.bucket then s4.bucketFull pc a else s4

/-- A UE stands (R313, R324, R342). -/
def State.countUe (s : State) (pc a : Nat) : State :=
  let st := pc / 64
  ((((s.fsat F.pcEccCnt_ue [st, pc % 64] 1).ev 0x20B pc 1).raise 5 F.scEccInt_ue [st] [(F.scEccInt_first_pc, pc % 64)]).log
    .ue st (pc % 64) 0 a).addJob (.row pc (bits a 20 6) (bits a 5 15))

/-- Plain contents of a sector as a read accepted now would find it: stored symbols with the queued writes laid over
them; none when it does not decode. -/
def State.peek (s : State) (pl : Place) (h : Nat) : Option SectorData :=
  let p := s.pcc pl.pc
  let base : Option SectorData := match decodeSector (s.coordOf pl h) (s.placeRaw pl h) with
    | (.clean, d) => some (s.cipher false pl h (sectorOf d))
    | (.ce _, d) => some (s.cipher false pl h (sectorOf d))
    | _ => none
  let fromW := (p.wq.filter fun w => w.ready && bit w.todo h && sameG w.place pl).foldl (fun (a : Option SectorData) w =>
    if bit w.poison h then none else if w.isBack && a.isSome then a else some (s.cipher false pl h (gSector w.data h))) base
  (p.mb.filter fun m => sameG m.place pl).foldl (fun (a : Option SectorData) m =>
    let hm := bits m.mask (32 * h) 32
    if hm = 2 ^ 32 - 1 then some (gSector m.data h)
    else a.map fun d => gSector (gMerge (gJoin d d) m.data (hm * (1 + 2 ^ 32))) 0) fromW

/-- A queued write covers part of a sector of the place. -/
def Pcc.covers (p : Pcc) (pl : Place) (h : Nat) : Bool :=
  (p.wq.any fun w => w.ready && bit w.todo h && sameG w.place pl) || p.mb.any fun m => sameG m.place pl && bits m.mask (32 * h) 32 ≠ 0

/-- R316, R322: the partner's copy of a sector, when the place is mirrored and the partner can serve it; a correctable error
met in that copy counts on the partner's pseudo-channel. -/
def State.partnerTake (s : State) (pl : Place) (h : Nat) : State × Option SectorData :=
  match s.partnerOf pl with
  | none => (s, none)
  | some q =>
    if (s.pcDown q.pc).isSome then (s, none) else
    let a := s.coordOf q h
    match (decodeSector a (s.placeRaw q h)).1 with
    | .ce n => (if (s.pcc q.pc).covers q h then s else s.countCe q.pc a (some n), s.peek q h)
    | _ => (s, s.peek q h)

/-! ## Queue updates -/

def wqCap : Nat := 32
def rqCap : Nat := 64
def mbCap : Nat := 8

/-- Occupied entries of the read queue (R271, R303): reads, and write-backs to which a finished read has left its entry
(R538). A write-back whose read is still there shares that read's entry, and one of an RMW read waits on its merge entry
(log entry 65). -/
def Pcc.rqUsed (p : Pcc) : Nat :=
  (p.rq.filter fun e => e.isRead || (e.kind = .back && !(p.rq.any fun x => x.isRead && x.seq = e.seq))).length

/-- Pseudo-channels on which the granules of block b of a segment's fetch land, every copy of each granule (R192, R198). -/
def State.landing (s : State) (seg b : Nat) : List Nat :=
  let e := s.seg seg
  (List.range 64).flatMap fun i => (s.copies (s.fget F.trPoolCfg_desc [e.pool]) (segBytes * e.frame + 4096 * b + 64 * i)).map (·.pc)

/-- R60: write-queue entries of a pseudo-channel that a fetch READ reserves: one for each granule that lands there, up to the
whole queue (log entry 67). -/
def State.reserves (s : State) (pc : Nat) (d : FarDest) : Nat :=
  match d with
  | .fetch seg b => min wqCap ((s.landing seg b).filter (· = pc)).length
  | _ => 0

/-- R60: write-queue entries reserved for the fetch READs under way. -/
def State.wqReserved (s : State) (pc : Nat) : Nat := sumBy (fun r => if r.tries = 0 then 0 else s.reserves pc r.dest) s.far

/-- Requester classes of the device's units (R274): copy channels, far-tier installs, interpreters and dispatcher; a cluster has
24 + its number. -/
def copyClass : Nat := 32
def installClass : Nat := 33
def fwClass : Nat := 34

/-- A write-queue entry is free for a class: installs use what their READs reserved. -/
def State.wqFree (s : State) (pc cls : Nat) : Bool :=
  decide ((s.pcc pc).wq.length + (if cls = installClass then 0 else s.wqReserved pc) < wqCap)

/-- R538: a write-back waiting for a write-queue entry takes one when it is free. -/
def Pcc.handBack (p : Pcc) : Pcc :=
  if p.wq.length < wqCap then
    match p.rq.find? Ent.isBack with
    | some e => { p with rq := p.rq.filter (fun x => !(x.kind = e.kind && x.seq = e.seq)), wq := p.wq ++ [e] }
    | none => p
  else p

/-- A sector joins the write-back that its read has asked for already. -/
def Ent.addBack (e b : Ent) : Ent :=
  { e with todo := e.todo ||| b.todo, poison := e.poison ||| b.poison,
           data := gMerge e.data b.data ((if bit b.todo 0 then 2 ^ 32 - 1 else 0) + (if bit b.todo 1 then (2 ^ 32 - 1) * 2 ^ 32 else 0)) }

/-- R538: a write-back with the acceptance position of the read that found the sector; both sectors of a granule share one
entry. -/
def State.writeBack (s : State) (pl : Place) (seq h : Nat) (poison : Bool) (stored : SectorData) : State :=
  let p := s.pcc pl.pc
  let kind := if p.mb.any (fun m => m.seq = seq) then EKind.mergeBack else .back
  let e : Ent := ⟨seq, kind, pl, .none, 34, s.mclk, 1 <<< h, 0, true, gJoin stored stored, if poison then 1 <<< h else 0, none, s.mclk⟩
  let mine := fun (x : Ent) => x.isBack && x.seq = seq
  if p.wq.any mine then s.setPcc pl.pc { p with wq := p.wq.map fun x => if mine x then x.addBack e else x }
  else if p.rq.any mine then s.setPcc pl.pc { p with rq := p.rq.map fun x => if mine x then x.addBack e else x }
  else s.setPcc pl.pc ({ p with rq := p.rq ++ [e] }).handBack

/-! ## Data coming back -/

/-- The new word of an ATOMIC (R47). -/
def atomResult (o : AtomOp) (old : Granule) : Granule :=
  let w := if o.asz then 64 else 32
  let x := bits old.toNat (8 * o.off) w
  let y := o.operand % 2 ^ w
  let lt := sInt w x < sInt w y
  let v := match o.aop with
    | 0 => (x + y) % 2 ^ w
    | 1 => if lt then x else y
    | 2 => if lt then y else x
    | 3 => min x y
    | _ => max x y
  BitVec.ofNat 512 (setBits old.toNat (8 * o.off) w v)

/-- The old value of an ATOMIC in the low bytes (R47). -/
def atomOld (o : AtomOp) (old : Granule) : Granule :=
  BitVec.ofNat 512 (bits old.toNat (8 * o.off) (if o.asz then 64 else 32))

/-- The first entry of a list that a test selects is replaced, or leaves. -/
def onFirst (t : Ent → Bool) (f : Ent → Option Ent) : List Ent → List Ent
  | [] => []
  | e :: r => if t e then (f e).toList ++ r else e :: onFirst t f r

/-- The other copy that an ATOMIC of a mirrored group writes too (R262, R316; log entry 29). -/
def State.mateOf (s : State) (pl : Place) : Option Place := (s.partnerOf pl).filter fun q => (s.pcDown q.pc).isNone

/-- An entry in the other copy's write queue, taken when the ATOMIC is admitted; none when there is no room. -/
def State.reserveMate (s : State) (pl : Place) (cls stamp h : Nat) : Option State :=
  match s.mateOf pl with
  | none => some s
  | some q =>
    let p := s.pcc q.pc
    if s.link (q.pc / 64) = 3 && s.wqFree q.pc cls then
      some (s.setPcc q.pc { p with nextSeq := p.nextSeq + 1
                                   wq := p.wq ++ [⟨p.nextSeq, .atomicWrite, q, .none, cls, stamp, h, 0, false, 0, 0, none, s.mclk⟩] })
    else none

/-- What becomes of that entry: the result to write, or nothing. -/
def State.mateWrite (s : State) (pl : Place) (f : Ent → Option Ent) : State :=
  match s.partnerOf pl with
  | none => s
  | some q =>
    let p := s.pcc q.pc
    s.setPcc q.pc { p with wq := onFirst (fun w => w.kind = .atomicWrite && !w.ready && sameG w.place q) f p.wq }

/-- A read entry has all its sectors: it leaves the queue and its data goes to the requester (R47, R57). -/
def State.entDone (s : State) (pc : Nat) (e : Ent) : State :=
  let p := s.pcc pc
  let rq' := p.rq.filter fun x => !(x.isRead && x.seq = e.seq)
  match e.atom with
  | none =>
    ((s.setPcc pc { p with rq := rq' }).groupSample e.place.root pc (s.mclk - e.acc)).deliver e.src (if e.poison = 0 then .ok else .poisoned) pc e.data
  | some o =>
    if e.poison ≠ 0 then
      let wq' := p.wq.filter fun (w : Ent) => !(w.kind = EKind.atomicWrite && w.seq = e.seq)
      let p1 := ({ p with rq := rq', wq := wq' } : Pcc).handBack
      ((s.setPcc pc p1).mateWrite e.place fun _ => none).deliver e.src .poisoned pc 0
    else
      let new := s.encGranule e.place (atomResult o e.data)
      let wq' := p.wq.map fun w =>
        if w.kind = .atomicWrite && w.seq = e.seq then { w with ready := true, data := new } else w
      ((s.setPcc pc { p with rq := rq', wq := wq' }).mateWrite e.place fun w => some { w with ready := true, data := new }).deliver
        e.src .ok pc (atomOld o e.data)

/-- A merge entry has been written, or nothing is left to write: it returns to FREE and reports (R319). -/
def State.mergeFree (s : State) (pc : Nat) (m : MgEnt) : State :=
  let p := s.pcc pc
  let s1 := s.setPcc pc { p with mb := p.mb.filter fun x => x.seq ≠ m.seq }
  m.srcs.foldl (fun t src => t.mergeOutcome src (m.refused ≠ 0)) s1

/-- Sectors of a mask with a set bit, and those that are complete (R318). -/
def maskTouched (m : Nat) : Nat := b2n (bits m 0 32 ≠ 0) + 2 * b2n (bits m 32 32 ≠ 0)
def maskFull (m : Nat) : Nat := b2n (bits m 0 32 = 2 ^ 32 - 1) + 2 * b2n (bits m 32 32 = 2 ^ 32 - 1)

/-- Sectors a merge entry writes. -/
def MgEnt.toWrite (m : MgEnt) : Nat := (maskTouched m.mask) &&& (3 - m.refused)

/-- The entry goes to WB, or to FREE when nothing is left to write (R319). -/
def State.mergeToWb (s : State) (pc : Nat) (m : MgEnt) : State :=
  if m.toWrite = 0 then s.mergeFree pc m
  else
    let p := s.pcc pc
    s.setPcc pc { p with mb := p.mb.map fun x => if x.seq = m.seq then { m with st := .wb, todo := m.toWrite, wait := 0 } else x }

/-- The entry leaves GATHER (R319, R320). -/
def State.mergeRelease (s : State) (pc : Nat) (m : MgEnt) : State :=
  let inc := (maskTouched m.mask) &&& (3 - maskFull m.mask)
  if inc = 0 then s.mergeToWb pc m
  else
    let p := s.pcc pc
    s.setPcc pc { p with mb := p.mb.map fun x => if x.seq = m.seq then { m with st := .rmw, todo := inc, wait := 0 } else x }

/-- A sector of a merge entry's RMW read has its result (R319). -/
def State.mergeSector (s : State) (pc seq h : Nat) (d : Option SectorData) : State :=
  match (s.pcc pc).mb.find? fun m => m.seq = seq with
  | none => s
  | some m =>
    let hm := bits m.mask (32 * h) 32
    let m1 := { m with wait := m.wait &&& (3 - (1 <<< h)) }
    let m2 := match d with
      | none => { m1 with refused := m1.refused ||| (1 <<< h) }
      | some x =>
        let pl := gMerge (gJoin x x) m.data (hm <<< (32 * h))
        { m1 with data := gMerge m.data pl ((2 ^ 32 - 1) <<< (32 * h)) }
    let p := s.pcc pc
    let s1 := s.setPcc pc { p with mb := p.mb.map fun y => if y.seq = seq then m2 else y }
    if m2.todo = 0 && m2.wait = 0 then s1.mergeToWb pc m2 else s1

/-- A sector of a read entry has its result. -/
def State.entSector (s : State) (pc seq h : Nat) (d : Option SectorData) : State :=
  match (s.pcc pc).rq.find? fun e => e.isRead && e.seq = seq with
  | none => s
  | some e =>
    let e1 := { e with wait := e.wait &&& (3 - (1 <<< h)) }
    let e2 := match d with
      | none => { e1 with poison := e1.poison ||| (1 <<< h) }
      | some x => { e1 with data := gMerge e.data (gJoin x x) ((2 ^ 32 - 1) <<< (32 * h)) }
    let p := s.pcc pc
    let s1 := s.setPcc pc { p with rq := p.rq.map fun y => if y.isRead && y.seq = seq then e2 else y }
    if e2.todo = 0 && e2.wait = 0 then s1.entDone pc e2 else s1

def State.sectorTo (s : State) (pc : Nat) (u : RetFor) (h : Nat) (d : Option SectorData) : State :=
  match u with
  | .ent q => s.entSector pc q h d
  | .merge q => s.mergeSector pc q h d

def RetFor.seq : RetFor → Nat
  | .ent q => q
  | .merge q => q

/-- R311, R313, R314, R316: a sector's symbols, with the second read of a UE behind them, are classified, counted and
delivered; a standing UE is written back as poison, or from the partner. -/
def State.sectorBack (s : State) (u : RetFor) (pl : Place) (h : Nat) (raw : List Byte) (second : Bool) : State :=
  let pc := pl.pc
  let a := s.coordOf pl h
  let (c, d) := decodeSector a raw
  let good := some (s.cipher false pl h (sectorOf d))
  match c with
  | .clean => s.sectorTo pc u h good
  | .ce n => (s.countCe pc a (some n)).sectorTo pc u h good
  | c =>
    let isUe := second || c = .ue
    let s0 := if isUe then s.countUe pc a else s.fsat F.pcEccCnt_poison_rd [pc / 64, pc % 64] 1
    match s0.partnerTake pl h with
    | (s1, some x) =>
      let s2 := (s1.fadd F.pcEccCnt_ce [pc / 64, pc % 64] 1).writeBack pl u.seq h false (s.cipher true pl h x)
      s2.sectorTo pc u h (some x)
    | (s1, none) =>
      let s2 := if isUe then s1.writeBack pl u.seq h true (sectorOf raw) else s1
      s2.sectorTo pc u h none

/-- R313: the second read of a UE is back. The first counts as a CE when the second decodes; otherwise the UE stands. -/
def State.rereadBack (s : State) (u : RetFor) (pl : Place) (h : Nat) (raw : List Byte) : State :=
  let a := s.coordOf pl h
  match (decodeSector a raw).1 with
  | .clean => (s.countCe pl.pc a none).sectorBack u pl h raw true
  | .ce _ => (s.countCe pl.pc a none).sectorBack u pl h raw true
  | _ => s.sectorBack u pl h raw true

/-- A sector comes back with no command between its reads: a UE is read once more at once. -/
def State.sectorNow (s : State) (u : RetFor) (pl : Place) (h : Nat) (raw : List Byte) : State :=
  if (decodeSector (s.coordOf pl h) raw).1 = .ue then s.rereadBack u pl h (s.placeRaw pl h) else s.sectorBack u pl h raw false

/-- A sector on its way is awaited: it was sampled, or its second read is due. -/
def State.returnNow (s : State) (r : Ret) : State :=
  if r.again then s.rereadBack r.use r.place r.half (s.placeRaw r.place r.half) else s.sectorNow r.use r.place r.half r.raw

/-! ## Acceptance (R271, R272, R318) -/

/-- A fenced request or a FENCE of the port of one of the entry's writes waits behind that write (R320). -/
def State.fenceWaits (s : State) (m : MgEnt) : Bool :=
  m.srcs.any fun src => match src with
    | .part n id _ => !(s.port n).fences.isEmpty || (s.port n).reqs.any fun r => r.stage = .fenceHold && decide (id < r.id)
    | .none => false

/-- R320: an event that ends an entry's GATHER whatever else the buffer holds has come: the window's end, a held read, or a
fence that waits. -/
def State.gatherOver (s : State) (pc : Nat) (m : MgEnt) : Bool :=
  decide (s.fget F.scEccCfg_merge_win [pc / 64] ≤ s.mclk - m.since) || (s.pcc pc).holdsRead m.seq m.place || s.fenceWaits m

/-- R320: an entry of a granule whose GATHER is over leaves it, so that no later write joins it. -/
def State.closeGather (s : State) (pl : Place) : State :=
  match (s.pcc pl.pc).mb.find? fun m => m.st = .gather && sameG m.place pl with
  | some m => if s.gatherOver pl.pc m then s.mergeRelease pl.pc m else s
  | none => s

/-- A write is accepted by its PCC: full granules into the write queue or an open merge entry, others into the merge
buffer. The second answer says whether a merge outcome is awaited; none when there is no room. -/
def State.acceptOpen (s : State) (pl : Place) (data : Granule) (mask : Nat) (src : Src) (cls stamp : Nat) :
    Option (State × Bool) :=
  let p := s.pcc pl.pc
  let full := mask = 2 ^ 64 - 1
  match p.mb.find? fun m => m.st = .gather && sameG m.place pl with
  | some m =>
    let m1 := { m with data := gMerge m.data data mask, mask := m.mask ||| mask, srcs := m.srcs ++ [src] }
    let s1 := s.setPcc pl.pc { p with mb := p.mb.map fun x => if x.seq = m.seq then m1 else x }
    some (if m1.mask = 2 ^ 64 - 1 then s1.mergeToWb pl.pc m1 else s1, true)
  | none =>
    if full then
      if s.wqFree pl.pc cls then
        some (s.setPcc pl.pc { p with nextSeq := p.nextSeq + 1, wq := p.wq ++
          [⟨p.nextSeq, .write, pl, src, cls, stamp, 3, 0, true, s.encGranule pl data, 0, none, s.mclk⟩] }, false)
      else none
    else if p.mb.length < mbCap then
      some (s.setPcc pl.pc { p with nextSeq := p.nextSeq + 1, mb := p.mb ++
        [⟨p.nextSeq, pl, .gather, data, mask, s.mclk, 0, 0, 0, [src], cls, stamp⟩] }, true)
    else none

/-- A write is accepted once the entry of its granule, if its GATHER is over, has left that state. -/
def State.acceptWrite (s : State) (pl : Place) (data : Granule) (mask : Nat) (src : Src) (cls stamp : Nat) :
    Option (State × Bool) := (s.closeGather pl).acceptOpen pl data mask src cls stamp

/-- A read is accepted when the read queue has room. -/
def State.acceptRead (s : State) (pl : Place) (src : Src) (cls stamp : Nat) : Option State :=
  let p := s.pcc pl.pc
  if p.rqUsed < rqCap then
    some (s.setPcc pl.pc { p with nextSeq := p.nextSeq + 1, rq := p.rq ++
      [⟨p.nextSeq, .read, pl, src, cls, stamp, 3, 0, false, 0, 0, none, s.mclk⟩] })
  else none

/-- An ATOMIC takes a read-queue and a write-queue entry at once (R271). -/
def State.acceptAtomic (s : State) (pl : Place) (o : AtomOp) (src : Src) (cls stamp : Nat) : Option State :=
  let p := s.pcc pl.pc
  let h := 1 <<< (o.off / 32)
  if p.rqUsed < rqCap && s.wqFree pl.pc cls then
    some (s.setPcc pl.pc { p with nextSeq := p.nextSeq + 1
                                  rq := p.rq ++ [⟨p.nextSeq, .atomicRead, pl, src, cls, stamp, h, 0, false, 0, 0, some o, s.mclk⟩]
                                  wq := p.wq ++ [⟨p.nextSeq, .atomicWrite, pl, .none, cls, stamp, h, 0, false, 0, 0, none, s.mclk⟩] })
  else none

/-! ## Storing -/

/-- A write-queue entry's sector is issued to the stack. -/
def State.issueWrite (s : State) (pc seq todo h : Nat) (kind : EKind) : State :=
  match (s.pcc pc).wq.find? fun e => e.seq = seq && e.kind = kind && e.todo = todo with
  | none => s
  | some e =>
    let s1 := s.storeSector e.place h (bit e.poison h) (gSector e.data h)
    let left := e.todo &&& (3 - (1 <<< h))
    let p := s1.pcc pc
    let upd := fun (x : Ent) => x.seq = seq && x.kind = kind && x.todo = todo
    if left = 0 then s1.setPcc pc ({ p with wq := p.wq.filter fun x => !upd x }).handBack
    else s1.setPcc pc { p with wq := p.wq.map fun x => if upd x then { e with todo := left } else x }

/-- A merge entry's sector is issued to the stack. -/
def State.issueMerge (s : State) (pc seq h : Nat) : State :=
  match (s.pcc pc).mb.find? fun m => m.seq = seq && m.st = .wb with
  | none => s
  | some m =>
    let s1 := s.storeSector m.place h false (s.cipher true m.place h (gSector m.data h))
    let m1 := { m with todo := m.todo &&& (3 - (1 <<< h)) }
    if m1.todo = 0 then s1.mergeFree pc m1
    else
      let p := s1.pcc pc
      s1.setPcc pc { p with mb := p.mb.map fun x => if x.seq = seq then m1 else x }

/-! ## Running queued work to its end -/

/-- What the oldest entry for a granule is. -/
inductive Oldest where
  | rd (e : Ent)
  | wr (e : Ent)
  | mg (m : MgEnt)

/-- The oldest entry of a PCC that a test selects, by acceptance position. -/
def Pcc.oldest (p : Pcc) (t : Place → Bool) : Option Oldest :=
  let l : List (Nat × Oldest) :=
    (p.rq.filter fun e => e.isRead && t e.place).map (fun e => (3 * e.seq + 1, Oldest.rd e))
    ++ ((p.rq ++ p.wq).filter fun e => !e.isRead && t e.place).map (fun e => (3 * e.seq + (if e.isBack then 0 else 2), Oldest.wr e))
    ++ (p.mb.filter fun m => t m.place).map (fun m => (3 * m.seq, Oldest.mg m))
  (minBy (·.1) l).map (·.2)

/-- The sectors of a read entry are read at once, decoded and delivered; those on their way keep the symbols sampled. -/
def State.forceRead (s : State) (pc : Nat) (e : Ent) : State :=
  let rets := (s.pcc pc).ret.filter fun r => r.use = .ent e.seq
  let p := s.pcc pc
  let s1 := s.setPcc pc { p with ret := p.ret.filter fun r => r.use ≠ .ent e.seq }
  let s2 := rets.foldl State.returnNow s1
  (halvesOf e.todo).foldl (fun t h =>
    let q := t.pcc pc
    let t1 := t.setPcc pc { q with rq := q.rq.map fun x =>
      if x.isRead && x.seq = e.seq then { x with todo := x.todo &&& (3 - (1 <<< h)), wait := x.wait ||| (1 <<< h) } else x }
    t1.sectorNow (.ent e.seq) e.place h (t1.placeRaw e.place h)) s2

/-- A write entry is issued at once. -/
def State.forceWrite (s : State) (pc : Nat) (e : Ent) : State :=
  let p := s.pcc pc
  let other := fun (x : Ent) => !(x.kind = e.kind && x.seq = e.seq)
  let s1 := if e.isBack then s.setPcc pc { p with rq := p.rq.filter other, wq := p.wq.filter other }
    else s.setPcc pc ({ p with wq := p.wq.filter other } : Pcc).handBack
  if e.ready then (halvesOf e.todo).foldl (fun t h => t.storeSector e.place h (bit e.poison h) (gSector e.data h)) s1 else s1

/-- The write-backs that a merge's own RMW read has found go first (R538). -/
def State.forceBacks (s : State) (pc seq : Nat) : State :=
  (((s.pcc pc).rq ++ (s.pcc pc).wq).filter fun e => e.isBack && e.seq = seq).foldl (fun t e => t.forceWrite pc e) s

/-- A merge entry is carried to its end. -/
def State.forceMerge (s : State) (pc : Nat) (m : MgEnt) : State :=
  let p := s.pcc pc
  let rets := p.ret.filter fun r => r.use = .merge m.seq
  let s0 := s.setPcc pc { p with ret := p.ret.filter fun r => r.use ≠ .merge m.seq }
  let s1 := if m.st = .gather then s0.mergeRelease pc m else rets.foldl State.returnNow s0
  let s2 := match (s1.pcc pc).mb.find? fun (x : MgEnt) => x.seq = m.seq && x.st = .rmw with
    | none => s1
    | some x => (halvesOf x.todo).foldl (fun t h =>
        let q := t.pcc pc
        let t1 := t.setPcc pc { q with mb := q.mb.map fun (y : MgEnt) =>
          if y.seq = m.seq then { y with todo := y.todo &&& (3 - (1 <<< h)), wait := y.wait ||| (1 <<< h) } else y }
        t1.sectorNow (.merge m.seq) m.place h (t1.placeRaw m.place h)) s1
  let s3 := s2.forceBacks pc m.seq
  match (s3.pcc pc).mb.find? fun (x : MgEnt) => x.seq = m.seq && x.st = .wb with
  | none => s3
  | some x => (halvesOf x.todo).foldl (fun t h => t.issueMerge pc m.seq h) s3

/-- The copy at which the ATOMIC is performed whose result a write entry waits for. -/
def State.awaits (s : State) (e : Ent) : Option Place :=
  if e.kind = .atomicWrite && !e.ready then
    (s.partnerOf e.place).filter fun q => (s.pcc q.pc).rq.any fun x => x.kind = .atomicRead && sameG x.place q
  else none

/-- Every entry that a test selects is carried out in acceptance order (log entry 17); an entry that waits for the result of an
ATOMIC at the other copy waits until that is performed. -/
def State.settle (s : State) (pc : Nat) (t : Place → Bool) : Nat → State
  | 0 => s
  | fuel + 1 =>
    match (s.pcc pc).oldest t with
    | none => s
    | some (.rd e) => (s.forceRead pc e).settle pc t fuel
    | some (.wr e) => match s.awaits e with
      | some q => (s.settle q.pc (fun x => sameG x q) fuel).settle pc t fuel
      | none => (s.forceWrite pc e).settle pc t fuel
    | some (.mg m) => (s.forceMerge pc m).settle pc t fuel

/-- Temperature of a stack as last read, °C (R237, R255). -/
def State.stackTemp (s : State) (k : Nat) : Int := sInt 8 (s.fget F.scLinkStat_temp_c [k])

/-- Ticks of the pass period of a stack (R236, R256). -/
def State.passPeriod (s : State) (k : Nat) : Nat := s.fget F.scTrainCfg_period_ms [k] * 1000 * tickUs

/-- Every channel's period restarts; a pass that was due is dropped (R236, R238, R251, R291). The passes of the channels follow
evenly spaced in ascending order, and those of stack k 0.5 ms after stack k - 1 (log entry 70). -/
def State.restartPeriods (s : State) (k : Nat) : State :=
  let l := tget Link.init s.links k
  let first := fun (c : Nat) => s.clk.now + k * 500 * tickUs + (c + 1) * s.passPeriod k / 32
  { s with links := tput Link.init s.links k { l with due := 0, parityDue := 0, expired := 0,
                                                      dueAt := (List.range 32).foldl (fun m c => tput 0 m c (first c)) l.dueAt } }

/-- Every channel has had a pass now, at the present temperature. -/
def State.passTemps (s : State) (k : Nat) : State :=
  let l := tget Link.init s.links k
  { s with links := tput Link.init s.links k { l with
      lastPass := some s.clk.now
      passTemp := (List.range 32).foldl (fun m c => tput 0 m c (s.stackTemp k)) l.passTemp } }

/-- R291: the retraining pass on all channels at the exit from self-refresh, as the training sequencer. While another position holds
the port the channels stay due instead. -/
def State.exitPass (s : State) (k : Nat) : State :=
  let t := s.askPort k 1
  if t.owns k 1 then (((t.passTemps k).fsat F.scSrefStat_retrains [k] 1).ev 0x302 k 1).arbDrop k 1
  else
    let l := tget Link.init t.links k
    { t with links := tput Link.init t.links k { l with due := 2 ^ 32 - 1 } }

/-- The temperature has drifted since the stack entered self-refresh (R291). -/
def State.srefDrift (s : State) (k : Nat) : Bool :=
  decide (s.fget F.scTrainCfg_drift_c [k] < (s.stackTemp k - (tget Link.init s.links k).srefTemp).natAbs)

/-- R290, R291: a stack leaves self-refresh: the minimum stay and steps X1 to X3 pass, debts are 0, every channel's period restarts,
and a drift of the temperature brings a retraining pass on all channels. -/
def State.wake (s : State) (k : Nat) : State :=
  if s.link k ≠ 4 then s else
  let op0 := s.fget F.glOpStat_op = 0
  let s1 := s.tickTo ((tget Link.init s.links k).srefAt + (if op0 then 1650 else 1238) * s.mclkTicks)
  let s2 := ((s1.tick ((if op0 then 660 else 496) * s1.mclkTicks)).fset F.scLinkStat_state [k] 3).restartPeriods k
  let s3 := { s2 with pccs := tmap s2.pccs fun pc p => if pc / 64 = k then { p with banks := [] } else p }
  if s.srefDrift k then s3.exitPass k else s3

/-- Every entry of one granule. An access wakes a stack in self-refresh. -/
def State.settleGranule (s : State) (pl : Place) : State := (s.wake (pl.pc / 64)).settle pl.pc (fun q => sameG q pl) 256
/-- R282: a drain of one PCC. -/
def State.drainPcc (s : State) (pc : Nat) : State := s.settle pc (fun _ => true) 512

/-! ## Whole-granule accesses of the device's own units

A unit's access is carried out in one piece: what the PCC accepted earlier for the granule goes first (R54, R273; log
entry 17). -/

/-- One sector read through the decoder: its plain data, or none for poison or a UE (R311, R313, R316). Class of the
result: 0 clean, 1 CE, 2 poison, 3 UE; 4 poison and 5 UE repaired from the partner. -/
def State.readSector (s : State) (pl : Place) (h : Nat) : State × Option SectorData × Nat :=
  let pc := pl.pc
  let a := s.coordOf pl h
  let raw := s.placeRaw pl h
  let (c, d) := decodeSector a raw
  let good := s.cipher false pl h (sectorOf d)
  match c with
  | .clean => (s, some good, 0)
  | .ce n => (s.countCe pc a (some n), some good, 1)
  | c =>
    let s0 := if c = .ue then s.countUe pc a else s.fsat F.pcEccCnt_poison_rd [pc / 64, pc % 64] 1
    match s0.partnerTake pl h with
    | (s1, some x) =>
      ((s1.fadd F.pcEccCnt_ce [pc / 64, pc % 64] 1).storeSector pl h false (s.cipher true pl h x), some x, if c = .ue then 5 else 4)
    | (s1, none) => (if c = .ue then s1.storeSector pl h true (sectorOf raw) else s1, none, if c = .ue then 3 else 2)

/-- A granule read: status and plain data. -/
def State.readPlace (s : State) (pl : Place) : State × PStatus × Granule :=
  match s.pcDown pl.pc with
  | some st => (s, st, 0)
  | none =>
    let s0 := s.settleGranule pl
    let (s1, a, _) := s0.readSector pl 0
    let (s2, b, _) := s1.readSector pl 1
    match a, b with
    | some x, some y => (s2, .ok, gJoin x y)
    | _, _ => (s2, .poisoned, 0)

/-- R272: a write of a unit waits while no write-queue entry is free for it: the queue's first granule is carried out, which frees
an entry (log entry 17). -/
def State.roomFor (s : State) (pc cls : Nat) : State :=
  match (s.pcc pc).wq with
  | [] => s
  | w :: _ => if s.wqFree pc cls then s else s.settle pc (fun q => sameG q w.place) 256

/-- A granule written with no merge: it enters the write queue with its unit's class and a stamp of now (R274, R275), and
drains from there like any write. -/
def State.postWrite (s : State) (pl : Place) (data : Granule) (cls : Nat) : Option State :=
  let s1 := (s.wake (pl.pc / 64)).roomFor pl.pc cls
  (s1.acceptWrite pl data (2 ^ 64 - 1) .none cls s1.mclk).map (·.1)

/-- A masked granule write at one copy; a sector that cannot be merged is refused (R319). A write of the whole granule is
posted; a partial one is merged at once, after what the PCC accepted earlier for the granule. -/
def State.writePlace (s : State) (pl : Place) (data : Granule) (mask : Nat) (cls : Nat := 34) : State × PStatus :=
  match s.pcDown pl.pc with
  | some st => (s, st)
  | none =>
    match if mask = 2 ^ 64 - 1 then s.postWrite pl data cls else none with
    | some t => (t, .ok)
    | none =>
    (halvesOf (maskTouched mask)).foldl (fun (t : State × PStatus) h =>
      let hm := bits mask (32 * h) 32
      if hm = 2 ^ 32 - 1 then (t.1.storeSector pl h false (t.1.cipher true pl h (gSector data h)), t.2)
      else
        match t.1.readSector pl h with
        | (u, some x, _) =>
          let d := gMerge (gJoin x x) data (hm <<< (32 * h))
          (u.storeSector pl h false (u.cipher true pl h (gSector d h)), t.2)
        | (u, none, _) => (u, .poisonMerge)) (s.settleGranule pl, .ok)

/-- R332: the retirement under way that rewrites a root group. -/
def State.rewriting (s : State) (root : Nat) : Option RetPend := s.retPend.find? fun e => e.roots.contains root

/-- R262, R316, R332: a read of byte x of a root or pool from whichever copy serves. -/
def State.readRoot (s : State) (root x : Nat) : State × PStatus × Nat × Granule :=
  if let some e := s.rewriting root then (s, .retry, e.pc, 0) else
  match s.copies root x with
  | [] => (s, .unmapped, 0, 0)
  | p :: r =>
    let pl := if (s.pcDown p.pc).isSome then (r.find? fun q => (s.pcDown q.pc).isNone).getD p else p
    let (t, st, d) := s.readPlace pl
    (t, st, pl.pc, d)

/-- A write to every copy that is up (R262, Write to a mirrored region meets an offline partner). -/
def State.writeRoot (s : State) (root x : Nat) (data : Granule) (mask : Nat := 2 ^ 64 - 1) (cls : Nat := 34) :
    State × PStatus × Nat :=
  if let some e := s.rewriting root then (s, .retry, e.pc) else
  match s.copies root x with
  | [] => (s, .unmapped, 0)
  | p :: r =>
    let up := (p :: r).filter fun q => (s.pcDown q.pc).isNone
    match up with
    | [] => (s, (s.pcDown p.pc).getD .unavailable, p.pc)
    | q :: qs =>
      let (t, st) := s.writePlace q data mask cls
      let (u, oks) := qs.foldl (fun (a : State × Bool) y =>
        let (t', st') := a.1.writePlace y data mask cls
        (t', a.2 || st' = .ok)) (t, st = .ok)
      (u, if oks then .ok else st, q.pc)

/-- A read and a write by memory-space address (R260, R332). -/
def State.readMem (s : State) (addr : Nat) : State × PStatus × Nat × Granule :=
  match s.rootOf addr with
  | none => (s, .unmapped, 0, 0)
  | some (r, x) => if s.keyOk r then s.readRoot r x else (s, .denied, 0, 0)

def State.writeMem (s : State) (addr : Nat) (data : Granule) (mask : Nat := 2 ^ 64 - 1) (cls : Nat := 34) :
    State × PStatus × Nat :=
  match s.rootOf addr with
  | none => (s, .unmapped, 0)
  | some (r, x) => if s.keyOk r then s.writeRoot r x data mask cls else (s, .denied, 0)

/-- Poison written over a granule (R310, R339). Its callers answer for a root that is being rewritten (R332). -/
def State.poisonRoot (s : State) (root x : Nat) : State :=
  (s.copies root x).foldl (fun t p =>
    if (t.pcDown p.pc).isSome then t
    else ((t.settleGranule p).storeSector p 0 true 0).storeSector p 1 true 0) s

end Sys2Proof.Machine
end

