-- ==== Sys2Proof/Machine/FarTier.lean ====
section
/-! DEFINITION. The far-tier ports and segment fetches (R59 to R61, R198 to R201): requests and their credits, responses,
timeouts, and what they do to segments, parked reads and waiting packets. Far-tier port FT0 or FT1 is port 24 or 25. -/
namespace Sys2Proof.Machine

/-! ## Sending (R59, R60) -/

/-- Lowest tag of a far-tier port that no request holds. -/
def State.freeFarTag (s : State) (ft : Nat) : Option Nat :=
  (List.range 4096).find? fun t => !(s.far.any fun r => r.ft = ft && 0 < r.tries && r.tag = t)

/-- R60: the space at the request's destination can be reserved. A stream buffer and a response have theirs reserved by the
request's originator; a fetch READ takes entries of PCC write queues. -/
def State.canReserve (s : State) (d : FarDest) : Bool :=
  match d with
  | .fetch seg b => (s.landing seg b).eraseDups.all fun pc =>
      decide ((s.pcc pc).wq.length + s.wqReserved pc + s.reserves pc d ≤ wqCap)
  | _ => true

/-- The oldest request that waits and whose space can be reserved is sent, if the port has a credit and a tag is free. -/
def State.sendOne (s : State) (ft : Nat) : Option State :=
  let n := 24 + ft
  let p := s.port n
  if p.st ≠ .ready || p.hdrHeld = 0 then none else
  match s.far.find? (fun r => r.ft = ft && r.tries = 0 && s.canReserve r.dest), s.freeFarTag ft with
  | some r, some t =>
    let r1 := { r with tag := t, tries := 1, sent := s.clk.now }
    let far' := (s.far.takeWhile (· ≠ r)) ++ r1 :: ((s.far.dropWhile (· ≠ r)).drop 1)
    let s1 := ({ s with far := far' }).setPort n { p with hdrHeld := p.hdrHeld - 1 }
    some ((s1.emit (.farRead n t r.addr r.len)).ev 0x800 n 1)
  | _, _ => none

/-- Requests go out while credits and tags last. -/
def State.pumpFar (s : State) (ft : Nat) : Nat → State
  | 0 => s
  | k + 1 => match s.sendOne ft with
    | some t => t.pumpFar ft k
    | none => s

def State.pump (s : State) (ft : Nat) : State := s.pumpFar ft 4096

/-- A far-tier READ is asked for. -/
def State.askFar (s : State) (ft addr len : Nat) (d : FarDest) : State :=
  { s with far := s.far ++ [⟨ft, 0, addr, len, 0, d, 0⟩] }

/-- FT port of a segment (R59). -/
def ftOf (seg : Nat) : Nat := seg % 2

/-! ## Reads of a segment -/

/-- The blocks of 4 KiB that the read needs have been accepted (R200). -/
def Fetch.covers (f : Fetch) (t : TensRead) (len : Nat) : Bool :=
  (List.range 512).all fun b =>
    !(decide (t.off / 4096 ≤ b) && decide (4096 * b < t.off + 64 * t.granules len)) || bit f.got b

/-- R196: the translation of a LOCAL segment sets its reference bit; so does the read that its own fetch released. -/
def State.touchSeg (s : State) (n : Nat) : State :=
  let e := s.seg n
  if (e.st = .loc || e.st = .fetching) && !e.ref then s.setSeg n { e with ref := true } else s

/-- The place of a granule of a memory home, from whichever copy is up. -/
def State.homePlace (s : State) (addr : Nat) : Option Place :=
  match s.rootOf addr with
  | none => none
  | some (r, x) => match (s.copies r x).find? fun p => (s.pcDown p.pc).isNone with
    | some p => some p
    | none => s.placeIn r x

/-- R332: a part that reads a root under rewrite is answered RETRY. -/
def State.partAt (s : State) (p : Option Place) : Part :=
  match p with
  | none => ⟨.done, [], 0, 0, 0, .unavailable, 0, 0⟩
  | some pl => match s.rewriting pl.root with
    | some e => ⟨.done, [], 0, 0, 0, .retry, e.pc, 0⟩
    | none => ⟨.wait, [pl], 0, 0, 1, .ok, 0, 0⟩

/-- A tensor-space read whose segment is LOCAL, FETCHING or MEM starts on its places (R203). -/
def State.startTensor (s : State) (n : Nat) (r : PortReq) (t : TensRead) : State :=
  let e := s.seg t.seg
  let k := t.granules r.len
  if e.st = .mem then
    let ps := (List.range k).map fun i => s.partAt (s.homePlace (e.home + t.off + 64 * i))
    (s.setReq n { r with stage := .issued, parts := ps, tens := some { t with loc := .mem } }).sweep n r.id
  else
    let ps := (List.range k).map fun i => s.partAt (s.framePlace e.pool e.frame (t.off + 64 * i))
    ((s.touchSeg t.seg).setReq n { r with stage := .issued, parts := ps, tens := some { t with loc := .frame e.pool e.frame } }).sweep
      n r.id

/-- R197: a read passes through; its granules are asked for in pieces that stay inside a 4 KiB block. -/
def State.passThrough (s : State) (n : Nat) (r : PortReq) (t : TensRead) : State :=
  let e := s.seg t.seg
  let k := t.granules r.len
  let ps := (List.range k).map fun _ => (⟨.queued, [], 0, 0, 1, .ok, 0, 0⟩ : Part)
  let s0 := if e.pin then s.raise 4 F.trErr_pin_short [] [(F.trErr_first_seg, t.seg)] else s
  let s1 := s0.setReq n { r with stage := .issued, parts := ps, unbound := true, tens := some { t with loc := .far } }
  let cuts := (List.range k).filter fun i => i = 0 || (t.off + 64 * i) % 4096 = 0
  let ends := cuts.drop 1 ++ [k]
  ((cuts.zip ends).foldl (fun u c =>
    u.askFar (ftOf t.seg) (e.home + t.off + 64 * c.1) (c.2 - c.1) (.pass n r.id c.1)) s1).pump (ftOf t.seg)

/-- Requests parked on a segment, with their ports. -/
def State.parkedOn (s : State) (seg : Nat) : List (Nat × PortReq × TensRead) :=
  s.ports.flatMap fun e => e.2.reqs.filterMap fun r =>
    if r.stage = .parked seg then r.tens.map fun t => (e.1, r, t) else none

/-- A request that has not been issued ends with a single CPL. -/
def State.endOne (s : State) (n : Nat) (r : PortReq) (st : PStatus) : State :=
  let s1 := s.portErr n st r.tag r.kind.code
  let p := s1.port n
  s1.setPort n { p with
    reqs := p.reqs.filter (fun q => q.id ≠ r.id)
    frames := p.frames ++ [r.mkFrame s1.fclk none st 0 0] }

/-- Parked requests end with a status (R201, UNMAP meets a parked read). UNMAPPED is a single CPL. -/
def State.endParked (s : State) (seg : Nat) (st : PStatus) : State :=
  (s.parkedOn seg).foldl (fun u x =>
    let ps := (List.range (x.2.2.granules x.2.1.len)).map fun _ => (⟨.done, [], 0, 0, 1, st, 0, 0⟩ : Part)
    if st = .unmapped then u.endOne x.1 x.2.1 .unmapped
    else (u.setReq x.1 { x.2.1 with stage := .issued, parts := ps }).sweep x.1 x.2.1.id) s

/-! ## Fetches -/

/-- The word at a byte of a packet. -/
def Packet.wordAt (p : Packet) (b : Nat) : Nat := bits (joinGranules p.prm) (8 * b) 64

/-- Output bytes of one unit of a gather's row: a tile or a granule (R218). -/
def gatherUnit (fmt efmt : Nat) : Nat :=
  if !isMx fmt then 64 else if efmt = 0 then tileBytes fmt else egressTile efmt

/-- Output bytes of one row. -/
def Packet.rowOut (p : Packet) : Nat := bits (p.wordAt 32) 40 8 * gatherUnit p.fmt (bits (p.wordAt 32) 2 2)

/-- A granule-aligned range of memory space becomes undefined: free values (log entry 7). -/
def State.spoilRange (s : State) (a n : Nat) : State :=
  (List.range (n / 64)).foldl (fun t i =>
    let (u, d) := t.drawGranule
    (u.writeMem (a + 64 * i) d).1) s

/-- A gather that fails leaves dst undefined (R218). -/
def State.spoil (s : State) (p : Packet) : State :=
  if p.opcode ≠ 0x33 then s else s.spoilRange (bits (p.wordAt 48) 0 48) (p.rows.length * p.rowOut)

/-- R211: frames that no running TENSOR_PIN reserves any more are free again; a parked read keeps its demand. -/
def State.dropReserves (s : State) : State :=
  s.demandQ.foldl (fun t f =>
    let e := t.seg f.seg
    let held := t.packets.any fun x => x.2.opcode = 0x31 && x.2.st = .running && x.2.waits.contains f.seg
    if e.st ≠ .fetching || held then t
    else
      let t1 := t.dropSeg f.seg
      if (t1.parkedOn f.seg).isEmpty then { t1 with demandQ := t1.demandQ.filter (·.seg ≠ f.seg) } else t1) s

/-- Packets that wait on a segment whose fetch failed end FAR_ERR with what they committed (R86, R201, R211). -/
def State.failWaiters (s : State) (seg : Nat) : State :=
  State.dropReserves <| s.packets.foldl (fun t e =>
    let p := e.2
    if p.waits.contains seg && p.st ≠ .fixed then
      let detail := if p.opcode = 1 then p.wordAt 32 + 64 * p.prog else 0
      let q := { p with st := .fixed, chan := none, status := .farErr, detail := detail, waits := [] }
      let u := t.spoil p
      ({ u with packets := tset u.packets e.1 q }).snoopEnd 0 e.1
    else t) s

/-- A fetch stops: its requests are forgotten, its frame is free and the segment takes the given state. -/
def State.stopFetch (s : State) (seg : Nat) : State :=
  let isIt := fun (d : FarDest) => match d with
    | .fetch g _ => decide (g = seg)
    | _ => false
  ({ s with fetches := s.fetches.filter (fun f => f.seg ≠ seg), far := s.far.filter fun r => !isIt r.dest }).snoopEnd 2 seg

/-- R201: a fetch READ ended FAR_ERR. -/
def State.fetchFailed (s : State) (seg : Nat) : State :=
  let s1 := ((s.stopFetch seg).dropSeg seg).raise 4 F.trErr_far_err [] [(F.trErr_first_seg, seg)]
  (s1.endParked seg .farErr).failWaiters seg

/-- R200: reads parked on a segment whose blocks have come are released. -/
def State.releaseParked (s : State) (seg : Nat) : State :=
  match s.fetches.find? fun f => f.seg = seg with
  | none => s
  | some f => (s.parkedOn seg).foldl (fun u x =>
      if f.covers x.2.2 x.2.1.len then u.startTensor x.1 x.2.1 x.2.2 else u) s

/-- R504: a fetch unit takes the blocks in the order of R198, as far as they have come without a gap. -/
def State.feedFetch (s : State) (k seg : Nat) : Nat → State
  | 0 => s
  | fuel + 1 =>
    let u := s.chk k
    match s.fetches.find? fun f => f.seg = seg with
    | none => s
    | some f =>
      let i := u.index
      let b := (f.start + i / 64) % 512
      if u.st ≠ .run || u.src ≠ 2 || u.bound ≠ some seg || 32768 ≤ i || !bit f.got b then s else
      let e := s.seg seg
      let x := 4096 * b + i % 64 * 64
      match s.readRoot (s.fget F.trPoolCfg_desc [e.pool]) (segBytes * e.frame + x) with
      | (t, .ok, _, d) => (t.setChk k (u.feed (e.home + x) d)).feedFetch k seg fuel
      | (t, _, _, _) =>
        let (t1, d) := t.drawGranule
        (t1.setChk k (u.feed (e.home + x) d)).feedFetch k seg fuel

def State.snoopBlocks (s : State) (seg : Nat) : State := (List.range 16).foldl (fun t k => t.feedFetch k seg 32768) s

/-- A block of a fetch is accepted into the frame, poisoned data as poison (R60, R61, R198); none while a write is not
accepted. -/
def State.blockIn (s : State) (seg b : Nat) (poison : Bool) (data : List Granule) : Option State :=
  let e := s.seg seg
  let d := s.fget F.trPoolCfg_desc [e.pool]
  if (s.rewriting d).isSome then none else
  let (s1, ok) := (List.range 64).foldl (fun (u : State × Bool) i =>
    let x := segBytes * e.frame + 4096 * b + 64 * i
    if poison then (u.1.poisonRoot d x, u.2) else
    let (v, st, _) := u.1.writeRoot d x ((data[i]?).getD 0) (2 ^ 64 - 1) installClass
    (v, u.2 && st = .ok)) (s, true)
  if !ok then none else
  some ((({ s1 with fetches := s1.fetches.map fun (f : Fetch) => if f.seg = seg then { f with got := f.got ||| (1 <<< b) } else f }).snoopBlocks
    seg).releaseParked seg)

/-- R200, R206: granules of a pass-through reach the client's response. -/
def State.passIn (s : State) (n id i : Nat) (poison : Bool) (data : List Granule) (len : Nat) : State :=
  ((List.range len).foldl (fun u k =>
    u.setPart n id (i + k) (Part.finish (if poison then .poisoned else .ok) 0 ((data[k]?).getD 0))) s).ev 0x603 0 len

end Sys2Proof.Machine
end

