-- ==== Sys2Proof/Machine/Gates.lean ====
section
/-! DEFINITION. The egress gates (R358 to R366): lists, windows, the checks of R364, enabling, swapping and clearing. -/
namespace Sys2Proof.Machine

/-- Entries of a list: (open mask, length), up to the first of length 0 (R359). -/
def State.gateList (s : State) (n b : Nat) : List (Nat × Nat) :=
  ((List.range 64).map fun i => (s.fget F.shGateEnt_open [n, b, i], s.fget F.shGateEnt_dur [n, b, i])).takeWhile
    fun e => e.2 ≠ 0

def cycleOf (l : List (Nat × Nat)) : Nat := sumBy (·.2) l

/-- A class is gated by a list (R358). -/
def gatedBy (l : List (Nat × Nat)) (c : Nat) : Bool := l.any fun e => !bit e.1 c

/-- Windows of a class: (first entry, length), for a gated class; a window may continue across the end (R360). -/
def windowsOf (l : List (Nat × Nat)) (c : Nat) : List (Nat × Nat) :=
  (List.range l.length).filterMap fun i =>
    let prev := (l[(i + l.length - 1) % l.length]?).getD (0, 0)
    let here := (l[i]?).getD (0, 0)
    if bit here.1 c && !bit prev.1 c then
      some (i, sumBy (·.2) ((l.drop i ++ l.take i).takeWhile fun e => bit e.1 c))
    else none

/-- Outcome of the checks of R364. -/
inductive GateFail where
  | cycleLen
  | shortWin (entry : Nat)
  | noClass
  | noStage
  deriving DecidableEq, Repr

/-- R364: the failing checks of a list under a guard and offset; of the windows that are too short, the one that begins first in the
list. -/
def State.gateCheck (s : State) (n b guard offset : Nat) : List GateFail :=
  let l := s.gateList n b
  let t := cycleOf l
  let gated := (List.range 8).filter (gatedBy l)
  let short := (gated.flatMap fun c => (windowsOf l c).filter fun w => w.2 < guard).map (·.1)
  let first := (minBy id short).map GateFail.shortWin
  first.toList ++ (if l.isEmpty || t < 8 || 2200000 < t || t ≤ offset then [.cycleLen] else [])
    ++ (if (List.range 8).any fun c => l.all fun e => !bit e.1 c then [.noClass] else [])
    ++ (if !gated.isEmpty && 768 < s.fget F.glPortCfg_wdat_credits [n] + 64 then [.noStage] else [])

/-- SH_GATE_ERR of a failing check (R373). -/
def State.gateFail (s : State) (n : Nat) : GateFail → State
  | .cycleLen => s.raise 5 F.shGateErr_cycle_len [n] [(F.shGateErr_first_entry, 0)]
  | .shortWin i => s.raise 5 F.shGateErr_short_win [n] [(F.shGateErr_first_entry, i)]
  | .noClass => s.raise 5 F.shGateErr_no_class [n] [(F.shGateErr_first_entry, 0)]
  | .noStage => s.raise 5 F.shGateErr_no_stage [n] [(F.shGateErr_first_entry, 0)]

/-- Every failing check sets its bit; first_entry names the window, where one is too short (R364; log entry 31). -/
def State.gateFails (s : State) (n : Nat) (l : List GateFail) : State := l.foldl (fun t f => t.gateFail n f) s

/-- A write ignored under R366 (R373). -/
def State.gateBusy (s : State) (n : Nat) : State := s.raise 5 F.shGateErr_busy [n] [(F.shGateErr_first_entry, 0)]

/-- Position p of a list at the present count (R359). -/
def State.gatePos (s : State) (n t : Nat) : Nat :=
  if t = 0 then 0 else (s.fclk + t - s.fget F.shGateCfg_offset [n] % t) % t

/-- Index of the entry that contains a position, and the position within it. -/
def entryAt : List (Nat × Nat) → Nat → Nat → Nat × Nat
  | [], p, i => (i, p)
  | e :: r, p, i => if p < e.2 then (i, p) else entryAt r (p - e.2) (i + 1)

/-- FCLK of the class's window that remain at a position, 0 when it is closed. -/
def remaining (l : List (Nat × Nat)) (p c : Nat) : Nat :=
  let (i, q) := entryAt l p 0
  sumBy (·.2) (((l.drop i ++ l.take i)).takeWhile fun e => bit e.1 c) - q

def State.gateOn (s : State) (n : Nat) : Bool := s.fget F.shGateCfg_en [n] = 1

/-- A class of a port is gated by the list in force. -/
def State.gated (s : State) (n c : Nat) : Bool := s.gateOn n && gatedBy (s.gateList n (s.gate n).bank) c

/-- R361, R366: a frame of f flits of a class may start now. -/
def State.gateAllows (s : State) (n c f : Nat) : Bool :=
  if !s.gated n c then true else
  let g := s.gate n
  let l := s.gateList n g.bank
  let p := s.gatePos n g.cycle
  let rem := remaining l p c
  decide (f ≤ if g.armed then min rem (g.cycle - p) else rem)

/-- A write of SH_GATE_CFG: en 0 to 1 checks bank 0; en 1 to 0 opens every class; guard and offset do not change while
en is 1 (R364, R366, R371). -/
def State.gateCfgWrite (s : State) (n : Nat) (w : Word) : State :=
  let en := bit w.toNat 0
  let guard0 := bits w.toNat 8 8
  let offset := bits w.toNat 16 22
  let guard := if guard0 < 8 then s.fget F.shGateCfg_guard [n] else guard0
  if s.gateOn n then
    let s1 := if en then s else (s.fset F.shGateCfg_en [n] 0).setGate n { s.gate n with armed := false }
    if guard ≠ s.fget F.shGateCfg_guard [n] || offset ≠ s.fget F.shGateCfg_offset [n] then
      (if en then s1.gateBusy n
       else (s1.fset F.shGateCfg_guard [n] guard).fset F.shGateCfg_offset [n] offset)
    else s1
  else if en then
    match s.gateCheck n 0 guard offset with
    | f :: l => s.gateFails n (f :: l)
    | [] =>
      let s1 := ((s.fset F.shGateCfg_guard [n] guard).fset F.shGateCfg_offset [n] offset).fset F.shGateCfg_en [n] 1
      s1.setGate n ⟨0, false, cycleOf (s.gateList n 0)⟩
  else (s.fset F.shGateCfg_guard [n] guard).fset F.shGateCfg_offset [n] offset

/-- A write of SH_GATE_CTL.swap (R364, R366). -/
def State.gateSwap (s : State) (n : Nat) : State :=
  let g := s.gate n
  if !s.gateOn n || g.armed then s.gateBusy n
  else match s.gateCheck n (1 - g.bank) (s.fget F.shGateCfg_guard [n]) (s.fget F.shGateCfg_offset [n]) with
    | f :: l => s.gateFails n (f :: l)
    | [] => s.setGate n { g with armed := true }

/-- R366: at the end of the active cycle the armed bank becomes the active list. -/
def State.gateTake (s : State) (n : Nat) : State :=
  let g := s.gate n
  if !s.gateOn n || !g.armed then s else
  let s1 := s.tick (3 * (g.cycle - s.gatePos n g.cycle))
  s1.setGate n ⟨1 - g.bank, false, cycleOf (s.gateList n (1 - g.bank))⟩

def execGateEnable (n : Nat) (s : State) : Res :=
  onUnit (decide (n < 24)) (s.ifUp fun t => t.gateCfgWrite n (t.rget .shGateCfg [n] ||| 1))
def execGateDisable (n : Nat) (s : State) : Res :=
  onUnit (decide (n < 24)) (s.ifUp fun t => t.gateCfgWrite n (t.rget .shGateCfg [n] &&& BitVec.ofNat 64 (2 ^ 64 - 2)))
def execGateSwap (n : Nat) (s : State) : Res := onUnit (decide (n < 24)) (s.ifUp fun t => t.gateSwap n)
def execGateSwapTake (n : Nat) (s : State) : Res := onUnit (decide (n < 24)) (s.gateTake n)

end Sys2Proof.Machine
end

