-- ==== Sys2Proof/Machine/Lifecycle.lean ====
section
/-! DEFINITION. Lifecycle states (R469 to R472): rank, effective state, and the key slots that a state permits. -/
namespace Sys2Proof.Machine

/-- Encodings of R469. -/
def lcManufacture : Nat := 0
def lcProvisioned : Nat := 1
def lcDeployed : Nat := 2
def lcRma : Nat := 3
def lcScrapped : Nat := 4

/-- Rank by restrictiveness (R470). -/
def lcRank (x : Nat) : Nat := if x = 4 then 4 else if x = 3 then 3 else if x = 0 then 2 else if x = 1 then 1 else 0

/-- The higher-ranked of two states. -/
def lcMax (a b : Nat) : Nat := if lcRank a < lcRank b then b else a

/-- R470: the effective state, from the hub's and the marker's. -/
def State.effective (s : State) : Nat :=
  lcMax s.sec.hub (if s.sec.intent then lcMax s.sec.committed s.sec.target else s.sec.committed)

/-- R474: the device is scrapped. -/
def State.scrapped (s : State) : Bool := s.effective = lcScrapped

/-- R472: a state permits a slot. -/
def lcPermits (x slot : Nat) : Bool :=
  if slot = 0 then x = 0 || x = 2
  else if slot = 1 then x = 1 || x = 2 || x = 3
  else if slot ≤ 3 then x = 1 || x = 2
  else if slot ≤ 62 then x = 2
  else decide (x ≤ 3)

end Sys2Proof.Machine
end

