-- ==== Sys2Proof/Machine/Shaper.lean ====
section
/-! DEFINITION. The tenant queues and the timing wheel (R347 to R357). Times are counts of 2^-16 FCLK. -/
namespace Sys2Proof.Machine

/-- Shaper time VT (R351). -/
def State.vt (s : State) : Nat := 2 ^ 16 * s.fclk

/-- P of R350: bytes of the data slots of a request and of its response. -/
def PortReq.payload (r : PortReq) : Nat :=
  match r.kind with
  | .atomic => if r.fetch then 128 else 64
  | .masked => 64
  | _ => 64 * r.len

/-- Counted length L (R350). -/
def State.counted (s : State) (n : Nat) (r : PortReq) : Nat := r.payload + s.fget F.shPortOvh_ovh [n]

/-- Cost of a frame and burst allowance, rounded up (R351). -/
def TenQ.cost (q : TenQ) (l : Nat) : Nat := ceilDiv (2 ^ 16 * 2200 * l) q.rate
def TenQ.allowance (q : TenQ) : Nat := ceilDiv (2 ^ 16 * 1024 * 2200 * q.burst) q.rate

/-- Debt in bytes (R351). -/
def TenQ.debt (q : TenQ) (vt : Nat) : Nat := (q.elig - vt) * q.rate / (2 ^ 16 * 2200)

/-- R352 without hold: the head may be released. -/
def TenQ.passes (q : TenQ) (vt : Nat) : Bool := !q.en || decide (q.elig ≤ vt + q.allowance)

/-- Requests that wait in a tenant's queue, all ports. -/
def State.tenantWaiting (s : State) (t : Nat) : Nat :=
  sumBy (fun e => (e.2.reqs.filter fun r => r.stage = .tenantQueue && r.tenant = t).length) s.ports

/-- FCLK at which wheel slot k begins (R354). -/
def slotStart (k : Nat) : Nat := ceilDiv (704 * k) 5

/-- First slot that begins at or after an eligible time (R354). -/
def slotFor (et : Nat) : Nat :=
  let f := ceilDiv et (2 ^ 16)
  if f = 0 then 0 else 5 * (f - 1) / 704 + 1

/-- R354: a queue with a waiting request whose head does not pass is entered in the wheel; any other is not in it. -/
def State.enterWheel (s : State) (t : Nat) : State :=
  let q := s.tenQ t
  if s.tenantWaiting t = 0 then s.setTenQ t { q with slot := none, ready := false }
  else if q.passes s.vt then s.setTenQ t { q with slot := none, ready := true }
  else s.setTenQ t { q with slot := some (max (s.wheel + 1) (slotFor (q.elig - q.allowance))), ready := false }

/-- R353: a request arrives at its tenant queue. With en = 0 or hold = 1 E is not changed (R356). -/
def State.enqueue (s : State) (n : Nat) (r : PortReq) : State :=
  let first := s.tenantWaiting r.tenant = 0
  let s1 := s.setReq n { r with stage := .tenantQueue }
  let q := s1.tenQ r.tenant
  if first then (s1.setTenQ r.tenant { q with elig := if q.en && !q.hold then max q.elig s1.vt else q.elig }).enterWheel r.tenant
  else s1

/-- R352: the charge of a release. -/
def State.charge (s : State) (n : Nat) (r : PortReq) : State :=
  let q := s.tenQ r.tenant
  let l := s.counted n r
  (s.setTenQ r.tenant { q with elig := max q.elig s.vt + q.cost l, bytes := (q.bytes + l) % 2 ^ 48 }).ev 0x700 r.tenant l

/-- A port's oldest request of a tenant queue is ready to leave it (R349, R352, R356): no hold, the test passes outside
the wheel, and no earlier request of the port conflicts. -/
def State.releasable (s : State) (n : Nat) (r : PortReq) : Bool :=
  let q := s.tenQ r.tenant
  let p := s.port n
  !q.hold && (!q.en || (q.slot.isNone && q.passes s.vt))
    && !(p.reqs.any fun x => x.stage = .tenantQueue && x.tenant = r.tenant && decide (x.id < r.id))
    && (List.range (s.spanOf r).2).all fun i =>
      !(p.reqs.any fun x => decide (x.id < r.id) && (x.stage = .tenantQueue || x.stage = .fenceHold)
        && (x.isWrite || r.isWrite) && s.touches x (s.granuleOf r i))

/-- One release: the request goes on to the reservation of credits. -/
def State.release (s : State) (n : Nat) (r : PortReq) : State :=
  let s1 := if (s.tenQ r.tenant).en then s.charge n r else s
  let s2 := s1.setReq n { r with stage := .credit }
  let p := s2.port n
  (s2.setPort n { p with lastTenant := r.tenant }).enterWheel r.tenant

/-- Next tenant in turn: ascending from the one served last, with wrap (R355). -/
def nextTenant (last : Nat) (rs : List PortReq) : Option PortReq :=
  minBy (fun r => 2 ^ 40 * ((r.tenant + 4096 - (last + 1) % 4096) % 4096) + r.id) rs

/-- Up to the given number of releases of a port (R355). -/
def State.releaseUpTo (s : State) (n : Nat) : Nat → State
  | 0 => s
  | k + 1 =>
    let p := s.port n
    match nextTenant p.lastTenant (p.reqs.filter fun r => r.stage = .tenantQueue && s.releasable n r) with
    | none => s
    | some r => (s.release n r).releaseUpTo n k

def execTenantRelease (n : Nat) (s : State) : Res := onUnit (decide (n < 24)) (s.releaseUpTo n 4)

/-- R354, R355: the next slot begins; at most 128 queues whose slot has come become ready, those left over first. -/
def State.wheelStep (s : State) : State :=
  let k := s.wheel + 1
  let s1 := ({ s with wheel := k }).tickTo (s.clk.fclk0 + 3 * slotStart k)
  let due := s1.tenants.filterMap fun e => match e.2.slot with
    | some j => if j ≤ k then some (4096 * j + e.1) else none
    | none => none
  let take := (due.foldr (fun x l => (l.takeWhile (· < x)) ++ x :: l.dropWhile (· < x)) []).take 128
  take.foldl (fun t x =>
    let i := x % 4096
    t.setTenQ i { t.tenQ i with slot := none, ready := true }) s1

def execWheelSlot (s : State) : Res := .next s.wheelStep

/-- R357: E after a change of rate at VT. -/
def rescale (elig vt old new : Nat) : Nat := if vt < elig then vt + ceilDiv ((elig - vt) * old) new else elig

/-- R356, R357: a write of SH_TQ_CFG. -/
def State.tqWrite (s : State) (t : Nat) (w : Word) : State :=
  let q := s.tenQ t
  let en := bit w.toNat 0
  let rate := bits w.toNat 8 24
  if en && rate = 0 then s else
  let q1 := { q with en := en, hold := bit w.toNat 1, rate := rate, burst := bits w.toNat 32 16 }
  let elig := if en then
      match (if q.en then some q.rate else q.lastRate) with
      | some old => if old = rate || old = 0 then q.elig else rescale q.elig s.vt old rate
      | none => q.elig
    else q.elig
  let q2 := { q1 with elig := elig, lastRate := if en then some rate else if q.en then some q.rate else q.lastRate }
  (s.setTenQ t q2).enterWheel t

/-- SH_TQ_CFG as it reads (R369). -/
def State.tqWord (s : State) (t : Nat) : Word :=
  let q := s.tenQ t
  BitVec.ofNat 64 (packWord [(0, 1, b2n q.en), (1, 1, b2n q.hold), (8, 24, q.rate), (32, 16, q.burst)])

def execTqConfig (w : Word) (s : State) : Res := .next (s.ifUp fun t => t.tqWrite (t.fget F.shTqSel_tenant) w)

/-- R369: a write to SH_TQ_SEL selects a queue and takes the snapshot of its status and bytes. -/
def State.tqSelect (s : State) (t : Nat) : State :=
  let q := s.tenQ t
  let n := s.tenantWaiting t
  let st := if !q.en then 0 else if n = 0 then 1 else if q.passes s.vt then 2 else 3
  let s1 := s.fset F.shTqSel_tenant [] t
  let s2 := s1.rput .shTqStat [] (BitVec.ofNat 64 (packWord [(0, 2, st), (2, 1, b2n q.hold), (16, 16, min n 65535),
    (32, 32, min (q.debt s.vt) (2 ^ 32 - 1))]))
  s2.rput .shTqBytes [] (BitVec.ofNat 64 q.bytes)

def execTqSnapshot (t : Nat) (s : State) : Res := onUnit (decide (t < 4096)) (s.ifUp fun u => u.tqSelect t)

end Sys2Proof.Machine
end

