-- ==== Sys2Proof/Machine/Ports.lean ====
section
/-! DEFINITION. Fabric ports (R36 to R57, R536): ingress checks, credits, fences, the reservation stage, and D2C frames
with the latency check and the port monitors (R361, R408, R498). -/
namespace Sys2Proof.Machine

/-! ## Request headers (R41) -/

/-- A decoded request header. -/
structure Hdr where
  kind : Nat
  fence : Bool
  tc : Nat
  tag : Nat
  len : Nat
  aop : Nat
  asz : Bool
  ext : Bool
  dat : Bool
  addr : Nat
  tenant : Nat
  fetch : Bool
  rsv : Nat
  deriving DecidableEq, Repr

/-- R41: the fields of a 16 B header. -/
def decodeHdr (h : BitVec 128) : Hdr :=
  let x := h.toNat
  ⟨bits x 0 4, bit x 4, bits x 5 3, bits x 8 12, bits x 20 6 + 1, bits x 26 3, bit x 29, bit x 30, bit x 31, bits x 32 48,
    bits x 80 12, bit x 92, bits x 93 35⟩

/-- Request kind of a code (R42). A CPL header, which stands in D2C only, is no request: in C2D it is answered like a reserved
kind (DESIGN CHOICE, log entry 66). -/
def kindOf (k : Nat) : Option ReqKind :=
  if k = 0 then some .read else if k = 1 then some .write else if k = 2 then some .masked else if k = 3 then some .atomic
  else none

def Hdr.tensor (h : Hdr) : Bool := bit h.addr 47
def apertureBase : Nat := 0x7F0000000000
def Hdr.inAperture (h : Hdr) : Bool := decide (apertureBase ≤ h.addr) && decide (h.addr < apertureBase + 65536)

/-- Data slots that follow (R41, R65). -/
def Hdr.slots (h : Hdr) : Nat := if h.dat then h.len else 0

/-- Operating revision of a port (R64). -/
def State.portRev (s : State) (n : Nat) : Nat := (s.port n).drev

/-! ## Ingress checks (R536) -/

/-- R39: the granules of a message, its data slots bound to it by tag and index; none while a slot is missing. -/
def bindSlots (tag : Nat) (ds : List DataSlot) : Nat → Option (List Granule)
  | 0 => some []
  | n + 1 =>
    match bindSlots tag ds n, ds.find? fun e => bits e.1.toNat 0 12 = tag && bits e.1.toNat 12 6 = n with
    | some l, some e => some (l ++ [e.2])
    | _, _ => none

/-- A reserved field of a sideband word in C2D, the status among them, is nonzero (R39). -/
def dsbReserved (ds : List DataSlot) : Bool := ds.any fun e => bits e.1.toNat 18 5 ≠ 0 || bits e.1.toNat 24 8 ≠ 0

/-- Check 2 of R536. A header whose dat or ext is not what R42 gives its kind fails it too (DESIGN CHOICE, log entry 66). -/
def hdrMalformed (rev : Nat) (h : Hdr) (k : ReqKind) (ext : BitVec 128) (ds : List DataSlot) : Bool :=
  h.rsv ≠ 0 || dsbReserved ds || (rev = 1 && (h.tc ≠ 0 || h.fetch)) || 4 < h.aop
    || (match k with
      | .read => h.dat || h.ext
      | .write => !h.dat || h.ext
      | .masked => !h.dat || !h.ext || h.len ≠ 1 || ext.toNat >>> 64 ≠ 0
      | .atomic => !h.dat || h.ext || h.len ≠ 1)
    || (h.tensor && bit h.addr 46)
    || (!h.tensor && (match k with
      | .atomic => h.addr % (if h.asz then 8 else 4) ≠ 0
      | _ => h.addr % 64 ≠ 0 || 4096 < h.addr % 4096 + 64 * h.len))

/-- The ring and first granule of an aperture address (R72). -/
def apertureAt (addr : Nat) : Nat × Nat := ((addr - apertureBase) / 16384, (addr - apertureBase) % 16384 / 64)

def Port.ring (p : Port) (q : Nat) : Ring := tget Ring.init p.rings q
def Port.setRing (p : Port) (q : Nat) (r : Ring) : Port := { p with rings := tput Ring.init p.rings q r }

/-- Granule numbers of an aperture WRITE; a run past granule 255 goes on in the next ring. -/
def apertureCells (addr len : Nat) : List (Nat × Nat) :=
  (List.range len).map fun i => apertureAt (addr + 64 * i)

/-- R74: the WRITE meets a written bit or a disabled ring. -/
def State.apertureRefuses (s : State) (n : Nat) (cells : List (Nat × Nat)) : Bool :=
  cells.any fun c => 4 ≤ c.1 || s.fget F.cpRingCfg_en [4 * n + c.1] = 0 || (tfind ((s.port n).ring c.1).gran c.2).isSome

/-- Check 6 of R536 on a tensor-space READ: R43, or R204 for a decoded READ; it answers what the READ decodes. -/
def tensorShape (e : SegEnt) (x len : Nat) : Option TensRead :=
  let seg := x / segBytes
  let b := x % segBytes
  if e.efmt = 0 then
    if b % 64 = 0 && b % 4096 + 64 * len ≤ 4096 then some ⟨seg, b, e.fmt, 0, 0, 0, .none⟩ else none
  else
    let tb := tileBytes e.fmt
    let j := b / tb
    let per := egressTile e.efmt
    let tiles := ceilDiv (64 * len) per
    if b % tb = 0 && j * per % 4096 + 64 * len ≤ 4096 && j + tiles ≤ tilesPerSeg e.fmt
    then some ⟨seg, b / 64 * 64, e.fmt, e.efmt, tiles, b, .none⟩ else none

/-- The root descriptor that a request of memory or tensor space reaches. -/
def State.rootFor (s : State) (h : Hdr) : Option Nat :=
  if h.tensor then
    let e := s.seg (h.addr % 2 ^ 46 / segBytes)
    match e.st with
    | .loc => some (s.fget F.trPoolCfg_desc [e.pool])
    | .fetching => some (s.fget F.trPoolCfg_desc [e.pool])
    | .mem => (s.rootOf e.home).map (·.1)
    | _ => none
  else (s.rootOf h.addr).map (·.1)

/-- R464: the slot that the request needs and that is not loaded. -/
def State.slotMissing (s : State) (h : Hdr) : Option Nat :=
  match s.rootFor h with
  | some r => if s.keyOk r then none else s.rootKey r
  | none => none

/-- R536: the status of the first check that fails, before the key slot. A scrapped device has no memory (R474). -/
def State.ingressCheck (s : State) (n : Nat) (h : Hdr) (ext : BitVec 128) (ds : List DataSlot) : Option PStatus :=
  let rev := s.portRev n
  match kindOf h.kind with
  | none => some .unsupported
  | some k =>
    if k = .atomic && rev < 2 then some .unsupported
    else if hdrMalformed rev h k ext ds then some .malformed
    else
      let ap := h.inAperture && s.fget F.glPortCfg_aperture_en [n] = 1
      if h.tenant < s.fget F.glPortCfg_tenant_base [n] || s.fget F.glPortCfg_tenant_limit [n] < h.tenant
          || (h.tensor && k ≠ .read) || (ap && k ≠ .write)
          || (ap && s.apertureRefuses n (apertureCells h.addr h.len))
          || (k = .atomic && s.fget F.glPortCfg_atomic_en [n] = 0)
          || (h.tensor && s.fget F.trCfg_en = 0) then some .denied
      else if ap then none
      else if s.scrapped then some .unavailable
      else if h.tensor then
        let x := h.addr % 2 ^ 46
        let e := s.seg (x / segBytes)
        if s.dirDown (x / segBytes) then some .unavailable
        else if e.st = .unmapped then some .unmapped
        else if e.tenant ≠ h.tenant then some .denied
        else if (tensorShape e x h.len).isNone then some .malformed
        else none
      else if (s.rootOf h.addr).isNone then some .unmapped else none

/-- The request has the device's memory as its target. -/
def State.wantsMemory (s : State) (n : Nat) (h : Hdr) : Bool := !(h.inAperture && s.fget F.glPortCfg_aperture_en [n] = 1)

/-- R536: the status of a refused request. -/
def State.ingressFail (s : State) (n : Nat) (h : Hdr) (ext : BitVec 128) (ds : List DataSlot) : Option PStatus :=
  match s.ingressCheck n h ext ds with
  | some st => some st
  | none => if s.wantsMemory n h && (s.slotMissing h).isSome then some .denied else none

/-- R464: a request was refused because a slot is not loaded. -/
def State.keyMissing (s : State) (slot : Nat) : State :=
  s.raise 4 F.seErr_key_missing [] [(F.seErr_first_slot, slot)]

/-! ## Refusals and errors (R50, R57, R70) -/

/-- R50, R69: the port goes to FAULT and PRDY falls. -/
def State.creditOverflow (s : State) (n tag kind : Nat) : State :=
  let s1 := s.raise 6 F.glPortErr_crd_overflow [n] [(F.glPortErr_first_tag, tag), (F.glPortErr_first_kind, kind)]
  (s1.setPort n { s1.port n with st := .fault }).emit (.ready n false (s1.port n).drev)

/-- R57: the granules of a refused write, none of which was performed, as a mask; an ATOMIC counts as a write. -/
def Hdr.missed (h : Hdr) : Nat :=
  match kindOf h.kind with
  | some .write => 2 ^ h.len - 1
  | some .masked => 2 ^ h.len - 1
  | some .atomic => 1
  | _ => 0

/-- Requests of the port, and their frames, that hold a tag (R43). -/
def Port.tagBusy (p : Port) (t : Nat) : Bool := (p.reqs.any fun r => r.tag = t) || p.frames.any fun f => f.tag = t

/-- R43: a tag reused while outstanding leaves both answers undefined. -/
def Port.markTag (p : Port) (t : Nat) : Port :=
  if p.tagBusy t then
    { p with reqs := p.reqs.map (fun r => if r.tag = t then { r with reused := true } else r)
             frames := p.frames.map fun f => if f.tag = t then { f with reused := true } else f }
  else p

/-- R57, R536: a single CPL answers a request refused at ingress. -/
def State.refuse (s : State) (n : Nat) (h : Hdr) (st : PStatus) : State :=
  let (s1, id) := (s.portErr n st h.tag h.kind).freshId
  let cls := if st = .unsupported || st = .malformed || s.portRev n < 2 then 0 else h.tc
  let p := s1.port n
  let f : Frame := ⟨id, h.tag, cls, none, st, 0, h.missed, 0, 0, p.tagBusy h.tag, (kindOf h.kind).getD .read, h.len, s1.mclk,
    s1.fclk, s1.fclk, true, h.addr⟩
  let p1 := p.markTag h.tag
  ((s1.setPort n { p1 with frames := p1.frames ++ [f] }).ev 0x105 n 1).creditBack n (1 + b2n h.ext) h.slots

/-! ## Arrival -/

/-- The header and its data take the credits that the requester holds (R48). -/
def State.takeCredits (s : State) (n : Nat) (h : Hdr) : State :=
  let p := s.port n
  (s.setPort n { p with hdrHeld := p.hdrHeld - (1 + b2n h.ext), wdatHeld := p.wdatHeld - h.slots }).ev 0x100 n
    (ceilDiv (1 + h.slots) 8)

/-- A tenant queue that does not shape releases its requests as they arrive (R356). -/
def State.releaseOpen (s : State) (n id : Nat) : State :=
  match s.findReq n id with
  | none => s
  | some r =>
    if r.stage = .tenantQueue && !(s.tenQ r.tenant).en && s.releasable n r then s.release n r else s

/-- Counter events of an accepted request (R494). -/
def State.reqEvents (s : State) (n : Nat) (k : ReqKind) (len : Nat) : State :=
  match k with
  | .read => s.ev 0x102 n len
  | .atomic => s.ev 0x104 n 1
  | _ => s.ev 0x103 n len

/-- A request that passed the ingress checks enters the port (R348, R55, R56). -/
def State.enter (s : State) (n : Nat) (h : Hdr) (k : ReqKind) (mask : Nat) (data : List Granule) : State :=
  let (s1, id) := s.freshId
  let p := s1.port n
  let dup := p.tagBusy h.tag
  let tens := if h.tensor then tensorShape (s.seg (h.addr % 2 ^ 46 / segBytes)) (h.addr % 2 ^ 46) h.len else none
  let r : PortReq := ⟨id, k, h.tag, if s.portRev n < 2 then 0 else h.tc, h.len, h.addr, h.tenant, h.fence, h.aop, h.asz, h.fetch,
    data, mask, .fenceHold, [], tens, 0, s1.fclk, 0, 0, dup, false⟩
  let p1 := p.markTag h.tag
  let s2 := (s1.setPort n { p1 with reqs := p1.reqs ++ [r] }).reqEvents n k h.len
  if h.fence || (!p.fences.isEmpty && !h.inAperture) then s2 else (s2.enqueue n r).releaseOpen n id

/-- The granules of an aperture WRITE stand in their rings with their written bits set (R74). -/
def Port.ringsWith (p : Port) (cells : List (Nat × Nat)) (data : List Granule) : Port :=
  (cells.zip (List.range cells.length)).foldl (fun (p : Port) c =>
    let r := p.ring c.1.1
    p.setRing c.1.1 { r with gran := tset r.gran c.1.2 ((data[c.2]?).getD 0) }) p

/-- R74: an accepted aperture WRITE sets the written bits; its CPL follows at once, every granule being in the ring. -/
def State.apertureIn (s : State) (n : Nat) (h : Hdr) (data : List Granule) : State :=
  let p := (s.port n).ringsWith (apertureCells h.addr h.len) data
  let (s1, id) := s.freshId
  let f : Frame := ⟨id, h.tag, if s.portRev n < 2 then 0 else h.tc, none, .ok, 0, 0, 0, 0, p.tagBusy h.tag, .write, h.len, s1.mclk,
    s1.fclk, s1.fclk, true, h.addr⟩
  let p1 := p.markTag h.tag
  ((s1.setPort n { p1 with frames := p1.frames ++ [f] }).reqEvents n .write h.len).creditBack n 1 h.len

/-- A request that a port holds and that is an aperture WRITE: only a fenced one is held (R55, R56). -/
def PortReq.inAperture (r : PortReq) : Bool :=
  r.tens.isNone && decide (apertureBase ≤ r.addr) && decide (r.addr < apertureBase + 65536)

/-- A fenced aperture WRITE is released: it meets the rings as they are now (R55, R74). -/
def State.apertureGo (s : State) (n : Nat) (r : PortReq) : State :=
  let cells := apertureCells r.addr r.len
  let bad := s.apertureRefuses n cells
  let s1 := if bad then (s.portErr n .denied r.tag 1).ev 0x105 n 1 else s
  let p := if bad then s1.port n else (s1.port n).ringsWith cells r.data
  let f := { r.mkFrame s1.fclk none (if bad then .denied else .ok) 0 (if bad then 2 ^ r.len - 1 else 0) with unbound := true }
  (s1.setPort n { p with reqs := p.reqs.filter (fun q => q.id ≠ r.id), frames := p.frames ++ [f] }).creditBack n 1 r.len

/-- A message arrives at a fabric port (R44, R48, R50, R536). Until every data slot of the message has come, nothing happens. -/
def State.arrive (s : State) (n : Nat) (hdr ext : BitVec 128) (ds : List DataSlot) : State :=
  let h := decodeHdr hdr
  let p := s.port n
  if p.st ≠ .ready || h.kind = 0xF then s
  else match bindSlots h.tag ds h.slots with
  | none => s
  | some data =>
  if p.hdrHeld < 1 + b2n h.ext || p.wdatHeld < h.slots then s.creditOverflow n h.tag h.kind
  else
    let s1 := s.takeCredits n h
    match s1.ingressFail n h ext ds with
    | some st =>
      let s2 := if (s1.ingressCheck n h ext ds).isNone then s1.keyMissing ((s1.slotMissing h).getD 0) else s1
      s2.refuse n h st
    | none =>
      if h.inAperture && s.fget F.glPortCfg_aperture_en [n] = 1 && !h.fence then s1.apertureIn n h data
      else s1.enter n h ((kindOf h.kind).getD .read) (bits ext.toNat 0 64) data

def execRead (n : Nat) (hdr : BitVec 128) (s : State) : Res := onUnit (decide (n < 24)) (s.arrive n hdr 0 [])
def execWrite (n : Nat) (hdr : BitVec 128) (data : List DataSlot) (s : State) : Res :=
  onUnit (decide (n < 24)) (s.arrive n hdr 0 data)
def execWriteMasked (n : Nat) (hdr ext : BitVec 128) (data : DataSlot) (s : State) : Res :=
  onUnit (decide (n < 24)) (s.arrive n hdr ext [data])
def execAtomic (n : Nat) (hdr : BitVec 128) (data : DataSlot) (s : State) : Res :=
  onUnit (decide (n < 24)) (s.arrive n hdr 0 [data])
def execApertureWrite (n : Nat) (hdr : BitVec 128) (data : List DataSlot) (s : State) : Res :=
  onUnit (decide (n < 24)) (s.arrive n hdr 0 data)

/-- R38: a flit with a reserved slot code is discarded whole. None of its slots takes a request credit (DESIGN CHOICE, log entry
66). -/
def State.badFlit (s : State) (n : Nat) (slots : BitVec 16) : State :=
  if (s.port n).st ≠ .ready then s else
  if (List.range 8).any fun k => bits slots.toNat (2 * k) 2 = 3 then (s.portErr n .malformed 0 0xF).ev 0x100 n 1 else s

def execMalformedFlit (n : Nat) (slots : BitVec 16) (s : State) : Res := onUnit (decide (n < 26)) (s.badFlit n slots)

/-- R49, R50: response credits arrive; more than 8,191 held is an overflow. -/
def State.grantCredits (s : State) (n k : Nat) : State :=
  let p := s.port n
  if p.st ≠ .ready then s
  else if 8191 < p.rspHeld + k then s.creditOverflow n 0 0xF
  else s.setPort n { p with rspHeld := p.rspHeld + k }

def execResponseCreditGrant (n k : Nat) (s : State) : Res := onUnit (decide (n < 24)) (s.grantCredits n k)

/-! ## Fences (R55, R56) -/

/-- Every request that arrived before an arrival number is complete (R51, R55). -/
def Port.allDoneBefore (p : Port) (id : Nat) : Bool :=
  !(p.reqs.any fun r => decide (r.id < id)) && !(p.frames.any fun f => decide (f.id < id))

/-- A held request may go: no FENCE packet before it holds the port, and, if it is fenced, all before it is complete. -/
def State.fenceFree (s : State) (n : Nat) (r : PortReq) : Bool :=
  let p := s.port n
  (r.inAperture || !(p.fences.any fun f => decide (f.2 ≤ r.id))) && (!r.fence || p.allDoneBefore r.id)

def State.fenceRelease (s : State) (n id : Nat) : State :=
  match s.findReq n id with
  | none => s
  | some r =>
    if r.stage ≠ .fenceHold || !s.fenceFree n r then s
    else if r.inAperture then s.apertureGo n r else (s.enqueue n r).releaseOpen n id

def execFenceHoldRelease (n id : Nat) (s : State) : Res := onUnit (decide (n < 24)) (s.fenceRelease n id)

/-! ## The reservation stage and the map stage (R49, R260, R275, R365) -/

/-- Response granules that a request reserves. -/
def PortReq.needs (r : PortReq) : Nat :=
  match r.kind with
  | .read => r.len
  | .atomic => if r.fetch then 1 else 0
  | _ => 0

/-- Parts of a memory-space request: for a read the copy that serves it, for a write every copy that is up. -/
def State.memParts (s : State) (r : PortReq) : List Part :=
  (List.range (if r.kind = .atomic then 1 else r.len)).map fun i =>
    match s.rootOf (r.addr / 64 * 64 + 64 * i) with
    | none => ⟨.done, [], 0, 0, 0, .unmapped, 0, 0⟩
    | some (root, x) =>
      match s.rewriting root with
      | some e => ⟨.done, [], 0, 0, 0, .retry, e.pc, 0⟩
      | none =>
        match s.copies root x with
        | [] => ⟨.done, [], 0, 0, 0, .unmapped, 0, 0⟩
        | p :: q =>
          let up := (p :: q).filter fun c => (s.pcDown c.pc).isNone
          match up with
          | [] => ⟨.done, [], 0, 0, 0, (s.pcDown p.pc).getD .unavailable, p.pc, 0⟩
          | c :: cs =>
            if r.kind = .masked && r.mask = 0 then ⟨.done, [], 0, 0, 0, .ok, 0, 0⟩
            else if r.kind = .read || r.kind = .atomic then ⟨.wait, [c], 0, 0, 1, .ok, 0, 0⟩
            else ⟨.wait, c :: cs, 0, 0, (c :: cs).length, .ok, 0, 0⟩

/-- R190: the port's copies of directory entries. -/
def Port.useDir (p : Port) (seg : Nat) : Port := { p with dirCopies := (seg :: p.dirCopies.filter (· ≠ seg)).take 8 }

/-- A stamped request goes on: to its PCCs, to its segment, or to wait for a fetch (R188, R197 to R200). The entry of a segment is
looked up here, so the tenant is checked here again (R191), and a pinned segment that is not LOCAL passes through (R219). -/
def State.mapStage (s : State) (n : Nat) (r : PortReq) : State :=
  match r.tens with
  | none =>
    let ps := s.memParts r
    let done := (ps.filter fun p => p.st = .done).length
    ((s.setReq n { r with stage := .issued, parts := ps }).creditBack n 0 (if r.isWrite then done else 0)).sweep n r.id
  | some t =>
    let s1 := s.setPort n ((s.port n).useDir t.seg)
    let e := s1.seg t.seg
    let bad := fun (st : PStatus) =>
      (s1.setReq n { r with stage := .issued, parts := (List.range (t.granules r.len)).map fun _ =>
        (⟨.done, [], 0, 0, 0, st, 0, 0⟩ : Part) }).sweep n r.id
    if s1.dirDown t.seg then bad .unavailable
    else if e.st ≠ .unmapped && e.tenant ≠ r.tenant then s1.endOne n r .denied
    else match e.st with
      | .unmapped => s1.endOne n r .unmapped
      | .far =>
        if e.pin then s1.passThrough n r t
        else (s1.setReq n { r with stage := .parked t.seg, unbound := true }).demandFetch t.seg (t.off / 4096)
      | .fetching =>
        if e.pin then s1.passThrough n r t
        else if s1.fetches.any fun f => f.seg = t.seg && f.covers t r.len then s1.startTensor n r t
        else s1.setReq n { r with stage := .parked t.seg, unbound := true }
      | _ => s1.startTensor n r t

/-- R49, R348, R365: credits and staging for the whole response are reserved, the request is stamped and goes on. -/
def State.reserve (s : State) (n id : Nat) : State :=
  match s.findReq n id with
  | none => s
  | some r =>
    let p := s.port n
    let k := r.needs
    let stg := if s.gated n r.tc then k else 0
    if r.stage ≠ .credit || p.rspHeld < p.rspRsvd + k || (stg ≠ 0 && 768 < s.fget F.glPortCfg_wdat_credits [n] + p.staged + stg)
    then s else
      let r1 := { r with stamp := s.mclk, staged := stg, rsvd := k }
      let s1 := s.setPort n { p with rspRsvd := p.rspRsvd + k, staged := p.staged + stg }
      ((s1.setReq n r1).creditBack n (if r.kind = .masked then 2 else 1) 0).mapStage n r1

def execCreditReserve (n id : Nat) (s : State) : Res := onUnit (decide (n < 24)) (s.reserve n id)

/-! ## Frames (R361, R362), the latency check (R408) and the port monitors (R498) -/

/-- Flits of a frame. -/
def Frame.flits (f : Frame) : Nat := match f.slots with
  | none => 1
  | some l => flitsOf l.length

/-- FCLK in which a ready frame could not start under R361 (R408), judged by the list in force when it starts. -/
def State.gateWait (s : State) (n : Nat) (f : Frame) : Nat :=
  if !s.gated n f.cls then 0 else
  let g := s.gate n
  let l := s.gateList n g.bank
  let off := s.fget F.shGateCfg_offset [n]
  ((List.range (s.fclk - f.ready)).filter fun i =>
    decide (remaining l ((f.ready + i + g.cycle - off % g.cycle) % g.cycle) f.cls < f.flits)).length

/-- R408: a measured READ is compared with its bounds. -/
def State.latencyCheck (s : State) (n tag x : Nat) : State :=
  let op := s.fget F.glOpStat_op
  if s.fget F.glLcChk_en = 0 || s.fget F.glLc_valid [op, n] = 0 then s else
  let s1 := if s.fget F.glLc_b_run [op, n] < x then
      (s.raise 2 F.glLcOver_run [] [(F.glLcOver_first_class, n)]).fsat F.glLcOver_run_cnt [] 1 else s
  if s.fget F.glLc_b_max [op, n] < x then
    (s1.raise 2 F.glLcOver_max [] [(F.glLcOver_first_class, n)]).log .lcOver n 0 tag x
  else s1

/-- R498: the port's latency monitor. -/
def State.portSample (s : State) (n : Nat) (f : Frame) (contract endToEnd : Nat) : State :=
  let kb := match f.kind with
    | .read => 0
    | .atomic => 2
    | _ => 1
  if s.fget F.obLmonCfg_en [n] = 1 && bit (s.fget F.obLmonCfg_kinds [n]) kb then
    if s.fget F.obLmonCfg_mode [n] = 1 then s.lmonTake n endToEnd
    else if f.unbound && f.kind = .read then s else s.lmonTake n contract
  else s

/-- Undefined status codes and bytes, one pair for each granule of a response. -/
def State.drawSlots (s : State) : Nat → State × List (Nat × Granule)
  | 0 => (s, [])
  | k + 1 =>
    let (s1, x) := s.drawNat
    let (s2, g) := s1.drawGranule
    let (s3, l) := s2.drawSlots k
    (s3, (x, g) :: l)

/-- What a frame shows (R39, R57): as it stands, or undefined when its tag was reused (R43). -/
def State.frameOut (s : State) (n : Nat) (f : Frame) : State :=
  match f.slots with
  | some l =>
    let (s1, d) := if f.reused then s.drawSlots l.length else (s, l.map fun e => (e.1.code, e.2))
    s1.emit (.frame n f.cls (dataSlots f.tag d) none)
  | none =>
    if f.reused then
      let (s1, x) := s.drawNat
      let (s2, y) := s1.drawNat
      let (s3, z) := s2.drawNat
      s3.emit (.frame n f.cls [] (some (cplHeader f.tag x y z)))
    else s.emit (.frame n f.cls [] (some (cplHeader f.tag f.status.code f.info f.failMask)))

/-- The check units that snoop the port's D2C data slots (R504). -/
def State.snoopPort (s : State) (n : Nat) (f : Frame) : State :=
  match f.slots with
  | none => s
  | some l => (l.zip (List.range l.length)).foldl (fun t e => t.snoop 3 n (f.addr + 64 * e.2) e.1.2) s

/-- MCLK of the fixed path (R398): ingress 12, map 6, check and decrypt 14, egress 14. The clock does not move through these
stages, so a measured latency has them added (log entry 11). -/
def fixedPath : Nat := 46

/-- A frame is sent: its flits follow each other, its credits and staging end, and it is measured (R361, R408). -/
def State.sendFrame (s : State) (n : Nat) (f : Frame) : State :=
  let k := (f.slots.map (·.length)).getD 0
  let gw := s.gateWait n f
  let last := s.clk.now + 3 * f.flits
  let sent := last - 3
  let x := (s.clk.mclkAcc + (sent - s.clk.mclkRef) / s.mclkTicks) - f.stamp - gw * 3 / s.mclkTicks + fixedPath
  let y := (sent - s.clk.fclk0) / 3 - f.arrive + fixedPath * s.mclkTicks / 3
  let p := s.port n
  let s1 := s.setPort n { p with frames := p.frames.filter (fun g => g.id ≠ f.id), busy := last,
                                 rspHeld := p.rspHeld - k, rspRsvd := p.rspRsvd - f.credits, staged := p.staged - f.staged }
  let s2 := ((s1.frameOut n f).snoopPort n f).ev 0x101 n f.flits
  let pois := ((f.slots.getD []).filter fun e => e.1 = .poisoned).length
  let s3 := (s2.ev 0x108 n pois).portSample n f x y
  if f.kind = .read && f.slots.isSome && !f.unbound then s3.latencyCheck n f.tag x else s3

/-- R362: the frame that starts: highest class, then the first ready, among those the gate allows. -/
def State.nextFrame (s : State) (n : Nat) : Option Frame :=
  ((s.port n).frames.filter fun f => s.gateAllows n f.cls f.flits).foldl (fun (a : Option Frame) f =>
    match a with
    | none => some f
    | some b => if b.cls < f.cls then some f else some b) none

def State.startFrame (s : State) (n : Nat) : State :=
  let p := s.port n
  if p.st ≠ .ready || p.frames.isEmpty then s else
  let s1 := s.tickTo p.busy
  match s1.nextFrame n with
  | none => s
  | some f => s1.sendFrame n f

def execFrameStart (n : Nat) (s : State) : Res := onUnit (decide (n < 24)) (s.startFrame n)

end Sys2Proof.Machine
end

