-- ==== Sys2Proof/Machine/Packets.lean ====
section
/-! DEFINITION. Command packets (R72 to R104): the opcode table, the start order, the firmware queue and the interpreters,
replies, aborts, fences, rings, and what a port reset does to them and to the port's requests (R56, R62). -/
namespace Sys2Proof.Machine

/-! ## Waybill and parameters (R78) -/

/-- The n bytes of a packet from a byte offset, as a number. -/
def Packet.field (p : Packet) (off n : Nat) : Nat := bits (joinGranules p.prm) (8 * off) (8 * n)
/-- The 64-bit word at a byte offset. -/
def Packet.word (p : Packet) (off : Nat) : Nat := p.field off 8

/-! ## The opcode table (R87) -/

/-- A row of R87: firmware path, privilege bit of CP_PORT_PRIV, parameter bytes. -/
structure OpRow where
  fw : Bool
  priv : Option Nat
  params : Nat
  deriving DecidableEq, Repr

/-- R87; RECIPE_LOAD takes its length from its header (R79). -/
def opRow : Nat → Option OpRow
  | 0x01 | 0x02 => some ⟨false, none, 32⟩
  | 0x03 => some ⟨true, none, 32⟩
  | 0x04 => some ⟨true, some 0, 32⟩
  | 0x10 => some ⟨true, none, 32⟩
  | 0x11 => some ⟨false, none, 32⟩
  | 0x12 => some ⟨true, none, 0⟩
  | 0x13 => some ⟨true, none, 32⟩
  | 0x20 | 0x21 => some ⟨false, none, 64⟩
  | 0x22 => some ⟨false, none, 32⟩
  | 0x30 => some ⟨true, some 1, 32⟩
  | 0x31 | 0x32 | 0x33 => some ⟨true, none, 32⟩
  | 0x40 => some ⟨true, some 2, 32⟩
  | 0x41 => some ⟨false, none, 64⟩
  | 0x50 | 0x51 | 0x52 | 0x53 => some ⟨true, some 0, 32⟩
  | 0x60 => some ⟨false, none, 32⟩
  | 0x61 => some ⟨false, none, 0⟩
  | 0x70 | 0x71 => some ⟨true, some 3, 32⟩
  | _ => none

/-- Maintenance opcodes (R88, R94). -/
def isMaint (op : Nat) : Bool := decide (0x50 ≤ op) && decide (op ≤ 0x53)
/-- Stream and attention opcodes that name a stream (R78, R79). -/
def namesStream (op : Nat) : Bool := op = 0x11 || op = 0x12 || op = 0x13 || op = 0x20 || op = 0x21 || op = 0x22

/-- R86: code of a status. -/
def KStatus.code : KStatus → Nat
  | .done => 0x00 | .overcommit => 0x01 | .aborted => 0x02 | .abortedPort => 0x03 | .tooLate => 0x04 | .notFound => 0x05
  | .unsupported => 0x06 | .malformed => 0x07 | .denied => 0x08 | .noSpace => 0x09 | .poisoned => 0x0A | .poisonMerge => 0x0B
  | .retry => 0x0C | .unavailable => 0x0D | .degraded => 0x0E | .farErr => 0x0F | .badHandle => 0x10 | .fwRestart => 0x11
  | .badSeq => 0x12

/-- R86: the success class. -/
def KStatus.success (k : KStatus) : Bool := k = .done || k = .overcommit

/-- Status of a started packet whose access ended with a port status (R86, R315). -/
def ofPStatus : PStatus → KStatus
  | .ok => .done | .poisoned => .poisoned | .retry => .retry | .poisonMerge => .poisonMerge | .farErr => .farErr
  | _ => .unavailable

/-! ## The in-flight table (R82) -/

def State.packet (s : State) (id : Nat) : Option Packet := tfind s.packets id
def State.setPacket (s : State) (p : Packet) : State := { s with packets := tset s.packets p.id p }

/-- The terminal status is fixed (R92). The copy channel is free again. -/
def State.fixPacket (s : State) (p : Packet) (st : KStatus) (count : Nat := 0) (aux : Nat := 0) (detail : Nat := 0) : State :=
  let s1 := s.setPacket { p with st := .fixed, chan := none, status := st, count := count, aux := aux % 2 ^ 32, detail := detail,
                                 waits := [] }
  (if p.opcode = 0x31 && st ≠ .done then s1.dropReserves else s1).snoopEnd (if p.opcode = 0x04 then 1 else 0) p.id

/-- A packet runs on an interpreter that the debug port has halted (R476). -/
def State.held (s : State) (p : Packet) : Bool := match p.interp with
  | some k => (tget Interp.init s.interps k).halted
  | none => false

/-- A live packet of the table with the opcode that a command expects. -/
def State.live (s : State) (id op : Nat) : Option Packet :=
  (s.packet id).filter fun p => p.opcode = op && p.st ≠ .fixed && !s.held p

/-! ## Replies (R84, R85) -/

/-- The four words of a reply. -/
def replyWords (st op ring port seq cookie aux count detail : Nat) : List Nat :=
  [st + 2 ^ 8 * op + 2 ^ 16 * ring + 2 ^ 18 * port + 2 ^ 32 * seq, cookie + 2 ^ 32 * aux, count, detail]

/-- A 32 B write at a 32 B aligned address. -/
def State.write32 (s : State) (addr : Nat) (ws : List Nat) : State × PStatus :=
  let h := addr / 32 % 2
  let g := gOfWords ((List.replicate (4 * h) 0) ++ ws)
  let (t, st, _) := s.writeMem (addr / 64 * 64) g ((2 ^ 32 - 1) <<< (32 * h))
  (t, st)

/-- R84, Reply write meets an offline stack: the reply is written once; a failed write is counted and recorded. -/
def State.postReply (s : State) (port ring seq op cookie addr : Nat) (st : KStatus) (count aux detail : Nat) : State :=
  let (s1, ps) := s.write32 addr (replyWords st.code op ring port seq cookie aux count detail)
  let lost := ps ≠ .ok
  let s2 := s1.emit (.reply port ring seq st addr count aux detail lost)
  let s3 := if st.success then s2 else s2.ev 0x503 port 1
  if lost then
    ((s3.fsat F.cpRingStat_reply_lost [4 * port + ring] 1).fsat F.cpDispStat_reply_lost [] 1).log .replyLost port ring seq addr
  else s3

/-- The newest live packet of the ring and sequence number that an ABORT names (R91). -/
def State.abortee (s : State) (p : Packet) : Option Packet :=
  ((s.packets.filter fun e => e.2.port = p.port && e.2.ring = bits (p.word 32) 0 2 && e.2.seq = bits (p.word 32) 16 16).getLast?).map (·.2)

/-- R92: aux of an ABORT that came too late names its target's terminal status if it is known when the ABORT replies. -/
def State.replyAux (s : State) (p : Packet) : Nat :=
  if p.opcode = 0x60 && p.status = .tooLate && p.aux = 0xFF then
    match s.abortee p with
    | some t => if t.st = .fixed && t.id ≠ p.id then t.status.code else p.aux
    | none => p.aux
  else p.aux

/-- The packet's reply is posted and the packet leaves the table (R82, R84). -/
def State.retirePacket (s : State) (p : Packet) : State :=
  let s1 := s.postReply p.port p.ring p.seq p.opcode p.cookie p.reply p.status p.count (s.replyAux p) p.detail
  { s1 with packets := tdel s1.packets p.id, fwq := s1.fwq.filter (· ≠ p.id), runs := tdel s1.runs p.id, attns := tdel s1.attns p.id }

def execPacketCommit (id : Nat) (s : State) : Res :=
  .next (match s.packet id with
    | none => s
    | some p => if p.st = .fixed then s.retirePacket p else s)

/-! ## Start order (R56, R81, R83, R94) -/

/-- R81: nothing holds the start of a packet. -/
def State.mayStart (s : State) (p : Packet) : Bool :=
  p.st = .waiting
    && !(s.packets.any fun e => e.2.port = p.port && e.2.ring = p.ring && decide (e.1 < p.id)
        && (p.serial || e.2.st = .waiting))
    && !((s.port p.port).fences.any fun f => decide (f.1 < p.id))

/-- An interpreter is free: it runs no packet, has not trapped and is not halted. -/
def State.interpFree (s : State) (k : Nat) : Bool :=
  !(tget Interp.init s.interps k).reload && !(tget Interp.init s.interps k).halted
    && !(s.packets.any fun e => e.2.st = .running && e.2.interp = some k)

/-- R94: the interpreter that takes a queued packet: the packet is the first of its kind in the queue. Of several free
interpreters 0 to 2 the lowest takes it (DESIGN CHOICE, log entry 68). -/
def State.interpFor (s : State) (p : Packet) : Option Nat :=
  if s.fget F.cpFwStat_state = 0 || s.fget F.cpFwStat_state = 3 then none else
  let maint := isMaint p.opcode
  let first := s.fwq.find? fun i => match s.packet i with
    | some q => q.st = .queued && isMaint q.opcode = maint
    | none => false
  if first ≠ some p.id then none
  else if maint then (if s.interpFree 3 then some 3 else none)
  else [0, 1, 2].find? fun k => s.interpFree k

/-- A firmware packet that its interpreter takes now. -/
def State.takeFw (s : State) (id op : Nat) : Option (State × Packet) :=
  match s.live id op with
  | none => none
  | some p =>
    if p.st ≠ .queued then none else
    match s.interpFor p with
    | none => none
    | some k =>
      let q := { p with st := .running, interp := some k }
      some ({ s.setPacket q with fwq := s.fwq.filter (· ≠ id) }, q)

/-- A fast-path packet that nothing holds starts (R83). -/
def State.takeFast (s : State) (id op : Nat) : Option (State × Packet) :=
  match s.live id op with
  | none => none
  | some p =>
    if s.mayStart p then
      let q := { p with st := .running }
      some ((s.setPacket q).ev 0x501 p.port 1, q)
    else none

/-- R83: a firmware packet ready to start enters the queue. -/
def State.admitFw (s : State) (id : Nat) : State :=
  match s.packet id with
  | none => s
  | some p =>
    match opRow p.opcode with
    | none => s
    | some r =>
      if r.fw && s.mayStart p && s.fget F.cpFwStat_state = 3 then s.fixPacket p .unavailable
      else if r.fw && s.mayStart p && decide (s.fwq.length < 512) then
        (({ s with fwq := s.fwq ++ [id] }).setPacket { p with st := .queued }).ev 0x502 p.port 1
      else s

def execFwQueueAdmit (id : Nat) (s : State) : Res := .next (s.admitFw id)

/-! ## Start checks on regions (R79) -/

/-- A memory range lies in client groups of a tenant with their key slots loaded: none, or MALFORMED outside every group,
DENIED for another tenant or an unloaded slot. The range is taken root by root. -/
def State.memRegion (s : State) (tenant : Nat) : Nat → Nat → Nat → Option KStatus
  | 0, _, _ => some .malformed
  | fuel + 1, addr, len =>
    if len = 0 then none else
    match s.rootOf addr with
    | none => some .malformed
    | some (r, x) =>
      let left := (s.desc r).bytes - x
      let here : Option KStatus := if (s.desc r).tenant = tenant && s.keyOk r then none else some .denied
      let rest := if len ≤ left then none else s.memRegion tenant fuel (addr + left) (len - left)
      if rest = some .malformed then rest else here.or rest

/-- A tensor range lies in mapped segments of a tenant whose copies may be read. -/
def State.tensRegion (s : State) (tenant x len : Nat) : Option KStatus :=
  let a := x / segBytes
  let n := (x + len - 1) / segBytes + 1 - a
  let segs := (List.range n).map (a + ·)
  let ok := fun (g : Nat) => match (s.seg g).st with
    | .mem => match s.rootOf (s.seg g).home with
      | some (r, _) => s.keyOk r
      | none => true
    | .loc => s.keyOk (s.fget F.trPoolCfg_desc [(s.seg g).pool])
    | .fetching => s.keyOk (s.fget F.trPoolCfg_desc [(s.seg g).pool])
    | _ => true
  if segs.any fun g => decide (numSegs ≤ g) || (s.seg g).st = .unmapped then some .malformed
  else if s.fget F.trCfg_en = 0 || segs.any fun g => (s.seg g).tenant ≠ tenant || !ok g then some .denied
  else none

/-- A range in either space. -/
def State.region (s : State) (tenant addr len : Nat) : Option KStatus :=
  if bit addr 47 then (if bit addr 46 then some .malformed else s.tensRegion tenant (addr % 2 ^ 46) len) else s.memRegion tenant 4096 addr len

/-- The first refusal of a list of start checks. MALFORMED anywhere comes before DENIED. -/
def firstFail (l : List (Option KStatus)) : Option KStatus :=
  if l.contains (some .malformed) then some .malformed else l.findSome? id

/-! ## ABORT and FENCE (R56, R91, R92) -/

/-- A fence's hold falls away. -/
def State.dropFence (s : State) (n id : Nat) : State :=
  let p := s.port n
  s.setPort n { p with fences := p.fences.filter fun f => f.1 ≠ id }

/-- A STREAM_CLOSE past its commit point: its stream is CLOSING (R92, R163). -/
def State.closePast (s : State) (p : Packet) : Bool :=
  p.opcode = 0x12 && p.st = .running && ((tfind s.streams p.target).map (·.st)) = some .closing

/-- What an ABORT answers, and its effect on the target. -/
def State.abortTarget (s : State) (p : Packet) : State × KStatus × Nat :=
  let q := bits (p.word 32) 0 2
  let seq := bits (p.word 32) 16 16
  match s.abortee p with
  | none =>
    let r := (s.port p.port).ring q
    let d := (r.seq + 65536 - seq) % 65536
    if 1 ≤ d && d ≤ min 32768 r.parsed then (s, .tooLate, 0xFF) else (s, .notFound, 0xFF)
  | some t =>
    if t.opcode = 0x60 then (s, .denied, 0xFF)
    else if t.st = .fixed then (s, .tooLate, t.status.code)
    else if isMaint t.opcode && t.st = .running then (s, .tooLate, 0xFF)
    else if s.closePast t then (s, .tooLate, KStatus.done.code)
    else ((s.fixPacket t .aborted t.count t.aux 0).dropFence t.port t.id, .done, KStatus.aborted.code)

def State.runAbort (s : State) (id : Nat) : State :=
  match s.live id 0x60 with
  | none => s
  | some p =>
    if p.st ≠ .waiting then s else
    let (s1, st, aux) := s.abortTarget p
    s1.fixPacket { p with st := .running } st 0 aux 0

def execAbort (id : Nat) (s : State) : Res := .next (s.runAbort id)

/-- R56: the FENCE is taken up; its hold stands from the parse on. -/
def State.runFence (s : State) (id : Nat) : State :=
  match s.live id 0x61 with
  | none => s
  | some p => if p.st = .waiting then s.setPacket { p with st := .running } else s

def execFence (id : Nat) (s : State) : Res := .next (s.runFence id)

/-- R56: every earlier request of the port is complete and every earlier packet has replied. -/
def State.fenceOver (s : State) (p : Packet) : Bool :=
  (s.port p.port).allDoneBefore p.id && !(s.packets.any fun e => e.2.port = p.port && decide (e.1 < p.id))

def State.runFenceDone (s : State) (id : Nat) : State :=
  match s.live id 0x61 with
  | none => s
  | some p =>
    if p.st = .running && s.fenceOver p then ((s.retirePacket { p with st := .fixed, status := .done }).dropFence p.port id) else s

def execFenceDone (id : Nat) (s : State) : Res := .next (s.runFenceDone id)

/-! ## Rings (R76, R77, R93, R101, R104) -/

/-- A ring that starts again: pointer and sequence number 0, nothing written (R76). A progress record that is due stays due, and
a pointer that goes back to 0 has moved (R77). -/
def Ring.cleared (r : Ring) : Ring := { Ring.init with moved := r.moved || r.parse ≠ 0, progFail := r.progFail }

/-- R76: the ring starts again. -/
def State.clearRing (s : State) (n q : Nat) : State := s.setPort n ((s.port n).setRing q ((s.port n).ring q).cleared)

/-- A new value of CP_RING_CFG (R101). -/
def State.ringCfg (s : State) (n q : Nat) (w : Word) : State :=
  let i := 4 * n + q
  let was := s.fget F.cpRingCfg_en [i]
  let s1 := s.rput .cpRingCfg [i] w
  if s1.fget F.cpRingCfg_en [i] = was then s1 else s1.clearRing n q

/-- R104: restart of a halted ring. -/
def State.ringRestart (s : State) (n q : Nat) : State :=
  if ((s.port n).ring q).halted && s.fget F.cpRingCfg_en [4 * n + q] = 1 then s.clearRing n q else s

/-- One attempt to write a progress record (R77). -/
def State.progress (s : State) (n q : Nat) : State :=
  let i := 4 * n + q
  let r := (s.port n).ring q
  let (s1, st) := s.write32 (s.fget F.cpRingCfg_progress_addr [i] * 32) [r.seq + 2 ^ 16 * r.parse, 0, 0, 0]
  if st = .ok then
    (s1.setPort n ((s1.port n).setRing q { r with moved := false, progFail := false })).emit (.progress n q r.seq r.parse)
  else
    (s1.setPort n ((s1.port n).setRing q { r with moved := false, progFail := true })).fsat F.cpRingStat_prog_fail [i] 1

def State.progressDue (s : State) (n q : Nat) (retry : Bool) : State :=
  let r := (s.port n).ring q
  if s.fget F.cpRingCfg_progress_en [4 * n + q] = 1 && (if retry then r.progFail && !r.moved else r.moved)
  then s.progress n q else s

def execProgressWrite (n q : Nat) (s : State) : Res := onUnit (decide (n < 24 && q < 4)) (s.progressDue n q false)
def execProgressRetry (n q : Nat) (s : State) : Res := onUnit (decide (n < 24 && q < 4)) (s.progressDue n q true)

/-! ## Interpreters (R95 to R97) -/

/-- A running packet has passed its commit point (R92). -/
def State.committed (s : State) (p : Packet) : Bool := isMaint p.opcode && p.st = .running || s.closePast p

/-- R96: the packet that runs uncommitted on an interpreter ends FW_RESTART, with what it committed (R86). -/
def State.trapPackets (s : State) (k : Nat) : State :=
  s.packets.foldl (fun t e =>
    if e.2.st = .running && e.2.interp = some k && !t.committed e.2 then t.fixPacket e.2 .fwRestart e.2.count e.2.aux else t) s

/-- R95: interpreter k traps at a fetch address and the patch image is reloaded. -/
def State.fwTrap (s : State) (k addr : Nat) : State :=
  if s.fget F.cpFwStat_state ≠ 1 && s.fget F.cpFwStat_state ≠ 2 then s else
  let i := tget Interp.init s.interps k
  let s1 := ({ s with interps := tput Interp.init s.interps k { i with reload := true, trapAddr := addr } }).trapPackets k
  (s1.fset F.cpFwStat_state [] 2).fsat F.cpFwStat_traps [] 1

def execFwTrap (k addr : Nat) (s : State) : Res := onUnit (decide (k < 4)) (s.fwTrap k addr)

/-- R97: every firmware-path packet ends UNAVAILABLE, but for one whose status its commit point has fixed (R92). -/
def State.failFw (s : State) : State :=
  s.packets.foldl (fun t e =>
    let fw := ((opRow e.2.opcode).map (·.fw)).getD false
    if fw && e.2.st ≠ .fixed && !t.committed e.2 then (t.spoil e.2).fixPacket e.2 .unavailable e.2.count e.2.aux 0 else t) { s with fwq := [] }

/-- R95, R97: the reload of an interpreter ends: from source 0, 1 or 2, whose image its memory then holds, or with all three
copies failed (src 3). The FW_TRAP record names the source, so it is made here (log entry 18). -/
def State.fwReload (s : State) (k src : Nat) : State :=
  let i := tget Interp.init s.interps k
  if !i.reload then s
  else if 3 ≤ src then (((s.log .fwTrap k 2 0 i.trapAddr).fset F.cpFwStat_state [] 3).failFw.log .fwFailed).regrade 0
  else
    let s0 := { s with interps := tput Interp.init s.interps k { i with reload := false, trapAddr := 0, mem := [] } }
    let s1 := s0.log .fwTrap k src 0 i.trapAddr
    let more := [0, 1, 2, 3].any fun j => (tget Interp.init s1.interps j).reload
    let s2 := s1.fset F.cpFwStat_reload_src [] src
    if s.fget F.cpFwStat_state = 3 then s2 else s2.fset F.cpFwStat_state [] (if more then 2 else 1)

end Sys2Proof.Machine
end

