-- ==== Sys2Proof/Machine/Bytes.lean ====
section
/-! DEFINITION. Reads and writes of byte ranges by the device's own units: in memory space, in a root or pool, and in
tensor space (R44, R89, R145, R192). Each range is taken granule by granule in ascending order. -/
namespace Sys2Proof.Machine

/-- The result of reading a range: its bytes as a little-endian number, or the first status other than OK with the byte
offset from the range's start at which it arose. -/
structure Got where
  st : PStatus
  off : Nat
  data : Nat
  deriving DecidableEq, Repr

/-- Granules that a range touches. -/
def granulesOf (addr len : Nat) : List Nat :=
  if len = 0 then [] else (List.range ((addr + len - 1) / 64 + 1 - addr / 64)).map (addr / 64 + ·)

/-- A range read with a reader of granules. -/
def State.readSpan (s : State) (rd : State → Nat → State × PStatus × Granule) (addr len : Nat) : State × Got :=
  (granulesOf addr len).foldl (fun (a : State × Got) g =>
    if a.2.st ≠ .ok then a else
    let (t, st, d) := rd a.1 (64 * g)
    if st = .ok then
      let lo := max addr (64 * g)
      let hi := min (addr + len) (64 * g + 64)
      (t, { a.2 with data := a.2.data + (bits d.toNat (8 * (lo - 64 * g)) (8 * (hi - lo)) <<< (8 * (lo - addr))) })
    else (t, ⟨st, 64 * g - addr, 0⟩)) (s, ⟨.ok, 0, 0⟩)

/-- A range written with a writer of masked granules: the first status other than OK and its offset. -/
def State.writeSpan (s : State) (wr : State → Nat → Granule → Nat → State × PStatus) (addr len data : Nat) :
    State × PStatus × Nat :=
  (granulesOf addr len).foldl (fun (a : State × PStatus × Nat) g =>
    if a.2.1 ≠ .ok then a else
    let lo := max addr (64 * g)
    let hi := min (addr + len) (64 * g + 64)
    let d := BitVec.ofNat 512 (bits data (8 * (lo - addr)) (8 * (hi - lo)) <<< (8 * (lo - 64 * g)))
    let (t, st) := wr a.1 (64 * g) d ((2 ^ (hi - lo) - 1) <<< (lo - 64 * g))
    (t, st, 64 * g - addr)) (s, .ok, 0)

/-- Memory space. -/
def State.readBytes (s : State) (addr len : Nat) : State × Got :=
  s.readSpan (fun t a => let (u, st, _, d) := t.readMem a; (u, st, d)) addr len
def State.writeBytes (s : State) (addr len data : Nat) (cls : Nat := fwClass) : State × PStatus × Nat :=
  s.writeSpan (fun t a d m => let (u, st, _) := t.writeMem a d m cls; (u, st)) addr len data

/-- A root or pool group. -/
def State.readPool (s : State) (root x len : Nat) : State × Got :=
  s.readSpan (fun t a => let (u, st, _, d) := t.readRoot root a; (u, st, d)) x len
def State.writePool (s : State) (root x len data : Nat) (cls : Nat := fwClass) : State × PStatus × Nat :=
  s.writeSpan (fun t a d m => let (u, st, _) := t.writeRoot root a d m cls; (u, st)) x len data

/-- Requester class of a cluster's LOADs and EMITs (R274). -/
def clusterClass (cl : Nat) : Nat := 24 + cl

/-- What a unit finds at a byte of tensor space. -/
inductive TensAt where
  /-- a status and a granule -/
  | got (st : PStatus) (d : Granule)
  /-- the segment has no local copy -/
  | far (seg : Nat)
  /-- its fetch has not brought the granule yet -/
  | wait (seg : Nat)

/-- A granule of tensor space as a unit reads it: memory bytes, no decode (R89, R133). Poison of a LOCAL copy drops it
(R315). -/
def State.tensAt (s : State) (x : Nat) : State × TensAt :=
  let g := x / segBytes
  let b := x % segBytes
  let e := s.seg g
  if s.dirDown g then (s, .got .unavailable 0) else
  match e.st with
  | .unmapped => (s, .got .unavailable 0)
  | .far => (s, .far g)
  | .mem => let (t, st, _, d) := s.readMem (e.home + b); (t, .got st d)
  | .loc =>
    let (t, st, _, d) := s.readRoot (s.fget F.trPoolCfg_desc [e.pool]) (segBytes * e.frame + b)
    (if st = .poisoned then t.dropSeg g else t, .got st d)
  | .fetching =>
    if s.fetches.any fun f => f.seg = g && bit f.got (b / 4096) then
      let (t, st, _, d) := s.readRoot (s.fget F.trPoolCfg_desc [e.pool]) (segBytes * e.frame + b)
      (t, .got st d)
    else (s, .wait g)

/-- Which half of a granule fails to decode, for the address of the failing sector (R90). -/
def State.failHalf (s : State) (pl : Option Place) : Nat :=
  match pl with
  | none => 0
  | some p => match (decodeSector (s.coordOf p 0) (s.placeRaw p 0)).1 with
    | .clean => 1
    | .ce _ => 1
    | _ => 0

/-- Address of the failing sector of a memory-space granule. -/
def State.failAddr (s : State) (addr : Nat) (st : PStatus) : Nat :=
  if st = .poisoned then addr + 32 * s.failHalf (s.homePlace addr) else addr

end Sys2Proof.Machine
end

