-- ==== Sys2Proof/Machine/CopyCh.lean ====
section
/-! DEFINITION. COPY, FILL and MIGRATE (R83, R89, R90, R339): the copy channels, in-order retirement of destination
granules, the window ahead of it, and what ends a packet early. -/
namespace Sys2Proof.Machine

/-- A free copy channel for a packet (R83): the lowest (DESIGN CHOICE, log entry 68). -/
def State.freeChan (s : State) : Option Nat :=
  (List.range 16).find? fun c => !(s.packets.any fun e => e.2.chan = some c)

def Packet.src (p : Packet) : Nat := p.word 32
def Packet.dst (p : Packet) : Nat := p.word 40
def Packet.bytes (p : Packet) : Nat := p.word 48

/-- Start checks of COPY and FILL (R79, R89). -/
def State.copyRefused (s : State) (p : Packet) : Option KStatus :=
  firstFail [if p.opcode = 1 then s.region p.tenant p.src p.bytes else none, s.memRegion p.tenant 4096 p.dst p.bytes]

/-- A waiting COPY or FILL starts on a free channel, or is refused (R83, R79). -/
def State.startCopy (s : State) (id op : Nat) : State :=
  match s.freeChan with
  | none => s
  | some c =>
    match s.takeFast id op with
    | none => s
    | some (s1, p) =>
      match s1.copyRefused p with
      | some k => s1.fixPacket p k
      | none => (s1.setPacket { p with chan := some c }).snoopPacket 0 p.port p.ring p.seq id

/-- What the source of a granule gives. -/
inductive SrcGot where
  | ok (d : Granule)
  | fail (k : KStatus) (detail : Nat)
  | wait (seg : Nat)

/-- Where a local copy or a memory home holds a byte of tensor space. -/
def State.tensPlace (s : State) (x : Nat) : Option Place :=
  let e := s.seg (x / segBytes)
  match e.st with
  | .mem => s.homePlace (e.home + x % segBytes)
  | .loc => s.framePlace e.pool e.frame (x % segBytes)
  | .fetching => s.framePlace e.pool e.frame (x % segBytes)
  | _ => none

/-- Tensor-space address of the failing sector of a granule (R90). -/
def State.failTens (s : State) (x : Nat) (st : PStatus) : Nat :=
  2 ^ 47 + x + (if st = .poisoned then 32 * s.failHalf (s.tensPlace x) else 0)

/-- A granule of a segment passes through for a packet (R197, R219): it is asked for once, and comes from the far tier. -/
def State.packPass (s : State) (id x g : Nat) : State × SrcGot :=
  match s.packet id with
  | none => (s, .wait g)
  | some p =>
    match tfind p.got (x / 64) with
    | some (.ok, d) => (s, .ok d)
    | some (st, _) => (s, .fail (ofPStatus st) (2 ^ 47 + x))
    | none =>
      if p.asked.contains (x / 64) then (s, .wait g)
      else
        let s1 := if (s.seg g).pin then s.raise 4 F.trErr_pin_short [] [(F.trErr_first_seg, g)] else s
        let s2 := s1.setPacket { p with asked := p.asked ++ [x / 64] }
        ((s2.askFar (ftOf g) ((s.seg g).home + x % segBytes / 64 * 64) 1 (.unit id (x / 64))).pump (ftOf g), .wait g)

/-- A granule of tensor space for a packet, byte offset x of the space: from its segment's copy or home, or past the pools
when no frame was found (R197) or while a pinned segment is not LOCAL (R219); else the segment that it must wait for. -/
def State.packTens (s : State) (id x : Nat) : State × SrcGot :=
  match s.tensAt x with
  | (t, .got .ok d) => (t, .ok d)
  | (t, .got st _) => (t, .fail (ofPStatus st) (s.failTens x st))
  | (t, .wait g) => if (t.seg g).pin then t.packPass id x g else (t, .wait g)
  | (t, .far g) =>
    if (t.seg g).pin || ((t.packet id).map fun p => p.pass.contains g) = some true then t.packPass id x g
    else (t.demandFetch g (x % segBytes / 4096), .wait g)

/-- Granule i of the source of a COPY or FILL. -/
def State.copySrc (s : State) (p : Packet) (i : Nat) : State × SrcGot :=
  if p.opcode = 2 then (s, .ok (gOfWords (List.replicate 8 p.src))) else
  let a := p.src + 64 * i
  if bit a 47 then s.packTens p.id (a % 2 ^ 46) else
  match s.readMem a with
  | (t, .ok, _, d) => (t, .ok d)
  | (t, st, _, _) => (t, .fail (ofPStatus st) (t.failAddr a st))

/-- Two ranges of memory space overlap. -/
def overlap (a n b m : Nat) : Bool := decide (a < b + m) && decide (b < a + n)

/-- R89: the source of a COPY overlaps its destination, in memory space or through segments whose home is memory. -/
def State.copyOverlaps (s : State) (p : Packet) : Bool :=
  p.opcode = 1 &&
    if bit p.src 47 then
      let x := p.src % 2 ^ 46
      s.dir.any fun e => e.2.st = .mem && overlap x p.bytes (segBytes * e.1) segBytes
        && (let lo := max x (segBytes * e.1)
            let hi := min (x + p.bytes) (segBytes * e.1 + segBytes)
            overlap (e.2.home + (lo - segBytes * e.1)) (hi - lo) p.dst p.bytes)
    else overlap p.src p.bytes p.dst p.bytes

/-- What a COPY or FILL writes for a source granule: undefined bytes where source and destination overlap (R89; log entry 7). -/
def State.copyData (s : State) (p : Packet) (d : Granule) : State × Granule :=
  if s.copyOverlaps p then s.drawGranule else (s, d)

/-- Key under which a packet keeps granule i once its write is accepted and until it retires. -/
def aheadKey (i : Nat) : Nat := 2 ^ 50 + i

/-- Granule i of the destination has been accepted with its data (R90). -/
def Packet.accepted (p : Packet) (i : Nat) (d : Granule) : Packet := { p with got := tset p.got (aheadKey i) (.ok, d) }

/-- R90: granules retire in address order: the prefix grows over every granule accepted, each passed to a function as it
retires, and the packet is done at its end. -/
def State.retireRun (s : State) (id : Nat) (each : State → Packet → Granule → State) : Nat → State
  | 0 => s
  | fuel + 1 =>
    match s.packet id with
    | none => s
    | some p =>
      match tfind p.got (aheadKey p.prog) with
      | none => s
      | some (_, d) =>
        let i := p.prog
        let s1 := each s p d
        let q := { p with prog := i + 1, count := 64 * (i + 1), waits := [],
                          got := tdel (tdel p.got (aheadKey i)) (p.src % 2 ^ 46 / 64 + i) }
        if 64 * (i + 1) = p.bytes then s1.fixPacket q .done p.bytes
        else (s1.setPacket q).retireRun id each fuel

/-- Granules that may be in flight beyond the prefix (R90). -/
def copyWindow : Nat := 512

/-- Granule i of a COPY or FILL is written, at the prefix or in the window ahead of it; only the granule at the prefix makes the
packet wait or end (R90). -/
def State.copyAt (s : State) (id i : Nat) : State :=
  match s.packet id with
  | none => s
  | some p =>
    if p.st ≠ .running || p.chan.isNone || i < p.prog || p.prog + copyWindow ≤ i || p.bytes ≤ 64 * i
        || (tfind p.got (aheadKey i)).isSome then s else
    let (t, got) := s.copySrc p i
    let p := (t.packet id).getD p
    let head := i = p.prog
    match got with
    | .wait g => if head then t.setPacket { p with waits := [g] } else t
    | .fail k a => if head then t.fixPacket p k (64 * i) 0 a else t
    | .ok d =>
      let a := p.dst + 64 * i
      let (t1, d1) := t.copyData p d
      match t1.writeMem a d1 (2 ^ 64 - 1) copyClass with
      | (u, .ok, _) =>
        (u.setPacket (p.accepted i d1)).retireRun id (fun v q x => v.snoop 0 id (q.dst + 64 * q.prog) x) copyWindow
      | (u, st, _) => if head then u.fixPacket p (ofPStatus st) (64 * i) 0 a else u

/-- The granule at the prefix. -/
def State.copyOne (s : State) (id : Nat) : State := s.copyAt id (((s.packet id).map (·.prog)).getD 0)

/-- COPY or FILL: it starts if a channel is free; then k granules retire, and those listed are written ahead. -/
def State.copyStep (s : State) (id op k : Nat) (ahead : List Nat) : State :=
  match s.live id op with
  | none => s
  | some p =>
    let s1 := if p.st = .waiting then s.startCopy id op else s
    let s2 := (List.range (min k (p.bytes / 64))).foldl (fun t _ => t.copyOne id) s1
    ahead.foldl (fun t i => t.copyAt id i) s2

def execCopy (id k : Nat) (ahead : List Nat) (s : State) : Res := .next (s.copyStep id 0x01 k ahead)
def execFill (id k : Nat) (ahead : List Nat) (s : State) : Res := .next (s.copyStep id 0x02 k ahead)
def execCopyChannelStart (id : Nat) (s : State) : Res :=
  .next (match s.packet id with
    | some p => if p.opcode = 1 || p.opcode = 2 then s.startCopy id p.opcode else s
    | none => s)

/-! ## MIGRATE (R339) -/

/-- A range in client groups with loaded key slots, of any tenant. -/
def State.anyRegion (s : State) : Nat → Nat → Nat → Option KStatus
  | 0, _, _ => some .denied
  | fuel + 1, addr, len =>
    if len = 0 then none else
    match s.rootOf addr with
    | none => some .denied
    | some (r, x) =>
      let left := (s.desc r).bytes - x
      if !s.keyOk r then some .denied
      else if len ≤ left then none else s.anyRegion fuel (addr + left) (len - left)

/-- A granule of a MIGRATE retires: the check unit takes it, and its source becomes poison unless it is kept (R339). -/
def State.migrated (s : State) (p : Packet) (d : Granule) : State :=
  let s1 := s.snoop 1 p.id (p.dst + 64 * p.prog) d
  if bit (p.word 56) 1 then s1 else
  match s1.rootOf (p.src + 64 * p.prog) with
  | some (r, x) => s1.poisonRoot r x
  | none => s1

/-- Poison carried over (R339): each sector of the granule at a that its source does not give becomes poison; the bytes that the
check unit takes are undefined. -/
def State.carryPoison (s : State) (r x b : Nat) : State × Granule :=
  let (t, f) := s.drawGranule
  match t.homePlace b with
  | none => (t.poisonRoot r x, f)
  | some pl =>
    ([0, 1].foldl (fun (v : State) h =>
      match (t.readSector pl h).2.1 with
      | some d => (v.writeRoot r x (gJoin d d) ((2 ^ 32 - 1) <<< (32 * h)) copyClass).1
      | none => v) (t.poisonRoot r x), f)

/-- Granule i of a MIGRATE is written, at the prefix or in the window ahead of it (R90, R332, R339). -/
def State.migrateAt (s : State) (id i : Nat) : State :=
  match s.packet id with
  | none => s
  | some p =>
    if p.st ≠ .running || i < p.prog || p.prog + copyWindow ≤ i || p.bytes ≤ 64 * i || (tfind p.got (aheadKey i)).isSome then s else
    let a := p.dst + 64 * i
    let b := p.src + 64 * i
    let head := i = p.prog
    let goOn := fun (u : State) (d : Granule) => (u.setPacket (p.accepted i d)).retireRun id State.migrated copyWindow
    let stop := fun (u : State) (k : KStatus) (x : Nat) => if head then u.fixPacket p k (64 * i) 0 x else u
    match s.readMem b with
    | (t, .ok, _, d) =>
      (match t.writeMem a d (2 ^ 64 - 1) fwClass with
      | (u, .ok, _) => goOn u d
      | (u, st, _) => stop u (ofPStatus st) a)
    | (t, .poisoned, _, _) =>
      if !bit (p.word 56) 0 then stop t .poisoned (t.failAddr b .poisoned) else
      (match t.rootOf a with
      | none => stop t .unavailable a
      | some (r, x) =>
        if (t.rewriting r).isSome then stop t .retry a else
        let (u, f) := t.carryPoison r x b
        goOn u f)
    | (t, st, _, _) => stop t (ofPStatus st) b

/-- The granule at the prefix. -/
def State.migrateOne (s : State) (id : Nat) : State := s.migrateAt id (((s.packet id).map (·.prog)).getD 0)

def State.migrateStep (s : State) (id k : Nat) (ahead : List Nat) : State :=
  match s.live id 0x04 with
  | none => s
  | some p =>
    let s1 := if p.st = .running then s else match s.takeFw id 0x04 with
      | none => s
      | some (t, q) =>
        match firstFail [t.anyRegion 4096 q.src q.bytes, t.anyRegion 4096 q.dst q.bytes] with
        | some f => t.fixPacket q f
        | none => t.snoopPacket 1 q.port q.ring q.seq id
    let s2 := (List.range (min k (p.bytes / 64))).foldl (fun t _ => t.migrateOne id) s1
    ahead.foldl (fun t i => t.migrateAt id i) s2

def execMigrate (id k : Nat) (ahead : List Nat) (s : State) : Res := .next (s.migrateStep id k ahead)

end Sys2Proof.Machine
end

