-- ==== Sys2Proof/Machine/Streams.lean ====
section
/-! DEFINITION. Streams and lodging (R145 to R163, R177 to R179): the pools' frames, the guest register, directories held in
the metadata pool, summaries, and the opcodes STREAM_OPEN, STREAM_APPEND, STREAM_EVICT and STREAM_CLOSE. -/
namespace Sys2Proof.Machine

/-! ## The layout of a stream (R148, R150, R151) -/

namespace Stream
def kfmt (s : Stream) : Nat := bits s.layout 0 4
def vfmt (s : Stream) : Nat := bits s.layout 4 4
def dk (s : Stream) : Nat := 32 * (bits s.layout 8 6 + 1)
def dv (s : Stream) : Nat := 32 * (bits s.layout 14 6 + 1)
def hkv (s : Stream) : Nat := bits s.layout 20 6 + 1
def recBytes (s : Stream) : Nat := 64 * (bits s.layout 26 6 + 1)
def nlayers (s : Stream) : Nat := bits s.layout 32 8 + 1
def smask (s : Stream) : Nat := bits s.layout 40 8
def tpp (s : Stream) : Nat := 2 ^ s.tppLog
/-- Largest length (R148). -/
def limit (s : Stream) : Nat := if s.cap = 0 then 8388608 else Nat.min s.cap 8388608
/-- Bytes of a summary slot (R152). -/
def slotBytes (s : Stream) : Nat := s.hkv * s.dk * 4
/-- R160. -/
def bound (s : Stream) (layer : Nat) : Nat := if layer < s.pendLayer then s.length + s.pendN else s.length
end Stream

/-- Bytes of a vector of n elements in a record (R150). -/
def vecBytes (fmt n : Nat) : Nat := n * eltBits fmt / 8 + if isMx fmt then n / 32 else 0

/-- Elements of a vector given as one little-endian number (R150). -/
def decodeVec (fmt n raw : Nat) : List XVal :=
  (List.range n).map fun i =>
    let c := bits raw (eltBits fmt * i) (eltBits fmt)
    if isMx fmt then mxValue fmt c (bits raw (n * eltBits fmt + 8 * (i / 32)) 8) else (eltFmt fmt).decode c

/-- Data bytes of a record (R150). -/
def Stream.dataBytes (s : Stream) : Nat :=
  s.hkv * vecBytes s.kfmt s.dk + if s.vfmt = 0xF then 0 else s.hkv * vecBytes s.vfmt s.dv

/-- R148, R151, R155: the layout word is legal. -/
def layoutOk (layout : Nat) : Bool :=
  let s : Stream := ⟨.opened, 0, 0, 0, 0, layout, 0, 0, 0, 0, 0, 0, []⟩
  decide (s.kfmt ≤ 8) && (decide (s.vfmt ≤ 8) || s.vfmt = 0xF) && (s.vfmt ≠ 0xF || s.dk = s.dv) && s.smask ≠ 0
    && decide (s.dataBytes ≤ s.recBytes) && decide (s.hkv * s.dk ≤ 8192)

/-! ## Pools and frames (R145 to R147, R154) -/

def lgFrame : Nat := 262144
/-- Number of the metadata pool. -/
def metaPool : Nat := 8

/-- Descriptor of a pool. -/
def State.lgDesc (s : State) (p : Nat) : Nat := if p = metaPool then s.fget F.lgMetaCfg_desc else s.fget F.lgPoolCfg_desc [p]

/-- Frames of a pool (R145, R184). -/
def State.lgFrames (s : State) (p : Nat) : Nat :=
  min (min (if p = metaPool then s.fget F.lgMetaCfg_frames else s.fget F.lgPoolCfg_frames [p])
    ((s.desc (s.lgDesc p)).bytes / lgFrame)) 524287

def State.lgTaken (s : State) (p f : Nat) : Bool := (tfind s.lgUsed (2 ^ 20 * p + f)).isSome

/-- Lowest-numbered free frame of a pool (log entry 19). -/
def State.lgLow (s : State) (p : Nat) : Option Nat := (List.range (s.lgFrames p)).find? fun f => !s.lgTaken p f

/-- Free frames of a pool. -/
def State.lgFree (s : State) (p : Nat) : Nat :=
  s.lgFrames p - (s.lgUsed.filter fun e => e.1 / 2 ^ 20 = p && decide (e.1 % 2 ^ 20 < s.lgFrames p)).length

/-- The pool gives frames (R154, R177, R184). -/
def State.lgOpen (s : State) (p : Nat) : Bool :=
  s.fget F.lgPoolCfg_en [p] = 1 && s.stackUp p && !s.lgWalk.contains p

def State.lgTake (s : State) (p f id : Nat) : State := { s with lgUsed := tset s.lgUsed (2 ^ 20 * p + f) (id + 1) }
def State.lgDrop (s : State) (p f : Nat) : State := { s with lgUsed := tdel s.lgUsed (2 ^ 20 * p + f) }

/-- A metadata frame for a stream. -/
def State.takeMeta (s : State) (id : Nat) : Option (State × Nat) :=
  if s.fget F.lgMetaCfg_en = 0 then none else (s.lgLow metaPool).map fun f => (s.lgTake metaPool f id, f)

/-- R154: a lodging frame for page (p, L): the allowed pools in turn from the ((p + L) mod m)-th. -/
def State.takePage (s : State) (id : Nat) (st : Stream) (p layer : Nat) : Option (State × Nat × Nat) :=
  let m := popcount 8 st.smask
  ((List.range m).map fun k => nthSet 8 st.smask ((p + layer + k) % m)).findSome? fun q =>
    if s.lgOpen q then (s.lgLow q).map fun f => (s.lgTake q f id, q, f) else none

/-! ## The guest register -/

def State.stream (s : State) (id : Nat) : Option Stream := tfind s.streams id

/-- R149: an entry changes, written through to its backing; with stacks 0 and 4 both offline LG_ERR.backing is set. -/
def State.setStream (s : State) (id : Nat) (st : Stream) : State :=
  let s1 := { s with streams := tset s.streams id st }
  if s.stackUp 0 || s.stackUp 4 then s1 else s1.raise 4 F.lgErr_backing [] [(F.lgErr_first_stream, id)]

/-- The entry becomes FREE. -/
def State.freeStream (s : State) (id : Nat) : State :=
  let s1 := { s with streams := tdel s.streams id }
  if s.stackUp 0 || s.stackUp 4 then s1 else s1.raise 4 F.lgErr_backing [] [(F.lgErr_first_stream, id)]

/-- The four words of an entry (R148). -/
def Stream.words (st : Stream) : List Nat :=
  let code := match st.st with
    | .opened => 1
    | .degraded => 2
    | .closing => 3
    | .metaLost => 4
  [code + 2 ^ 4 * st.tenant + 2 ^ 16 * st.length + 2 ^ 40 * st.pendLayer + 2 ^ 48 * st.pendN,
   st.layout + 2 ^ 48 * st.tppLog, st.root + 2 ^ 32 * st.cap, st.pages + 2 ^ 32 * st.lost + 2 ^ 56 * st.dmask]

/-- Check 6 of R79 on a stream, with the rule of R180 before it. -/
def State.streamRefused (s : State) (p : Packet) : Option KStatus :=
  if s.fget F.lgMetaCfg_en = 0 then some .denied else
  match s.stream p.target with
  | none => some .notFound
  | some st =>
    if st.st = .closing then some .notFound
    else if st.tenant ≠ p.tenant then some .denied
    else if st.st = .metaLost && p.opcode ≠ 0x12 then some .unavailable
    else none

/-- Lowest key that a table does not list. -/
def firstGap {α : Type} : Table α → Nat → Nat
  | [], k => k
  | (a, _) :: r, k => if a = k then firstGap r (k + 1) else if a < k then firstGap r k else k

/-! ## Directories (R153) -/

/-- A directory entry. -/
structure DirEnt where
  /-- 0 ABSENT, 1 RESIDENT, 2 HOLE, 3 LOST -/
  st : Nat
  stack : Nat
  frame : Nat
  sumFrame : Nat
  sumSlot : Nat
  sumValid : Bool
  deriving DecidableEq, Repr

def DirEnt.unpack (d0 d1 : Nat) : DirEnt :=
  ⟨bits d0 0 2, bits d0 2 3, bits d0 8 19, bits d1 0 19, bits d1 24 12, bit d1 36⟩
def DirEnt.pack (d : DirEnt) : Nat :=
  d.st + d.stack * 4 + 2 ^ 8 * d.frame + 2 ^ 64 * (d.sumFrame + 2 ^ 24 * d.sumSlot + 2 ^ 36 * b2n d.sumValid)

/-- What looking up a directory answers. -/
inductive DirGot where
  | ent (d : DirEnt)
  /-- there is no directory page for the entry yet -/
  | noPage
  | fail (st : PStatus)

/-- The metadata frame of directory page r of a stream. -/
def State.dirPage (s : State) (st : Stream) (r : Nat) : State × PStatus × Option Nat :=
  let (t, g) := s.readPool (s.lgDesc metaPool) (lgFrame * st.root + 8 * r) 8
  (t, g.st, if bit g.data 63 then some (bits g.data 0 19) else none)

/-- Entry of page p, layer L (R153). A page of a stack whose walk has not finished counts as LOST (R177). -/
def State.dirGet (s : State) (st : Stream) (p layer : Nat) : State × DirGot :=
  let e := p * st.nlayers + layer
  match s.dirPage st (e / 16384) with
  | (t, .ok, some f) =>
    let (u, g) := t.readPool (s.lgDesc metaPool) (lgFrame * f + 16 * (e % 16384)) 16
    if g.st ≠ .ok then (u, .fail g.st) else
    let d := DirEnt.unpack (bits g.data 0 64) (bits g.data 64 64)
    (u, .ent (if d.st = 1 && s.lgWalk.contains d.stack then { d with st := 3 } else d))
  | (t, .ok, none) => (t, .noPage)
  | (t, x, _) => (t, .fail x)

/-- An entry written to its directory page. -/
def State.dirPut (s : State) (st : Stream) (p layer : Nat) (d : DirEnt) : State :=
  let e := p * st.nlayers + layer
  match s.dirPage st (e / 16384) with
  | (t, .ok, some f) => (t.writePool (s.lgDesc metaPool) (lgFrame * f + 16 * (e % 16384)) 16 d.pack).1
  | (t, _, _) => t

/-- A metadata frame is cleared: no entry is valid and every page is ABSENT. -/
def State.clearMeta (s : State) (f : Nat) : State :=
  (List.range 4096).foldl (fun t i => (t.writeRoot (s.lgDesc metaPool) (lgFrame * f + 64 * i) 0).1) s

/-- R179: the stream's directory cannot be read in either copy. -/
def State.metaLost (s : State) (id : Nat) : State :=
  match s.stream id with
  | some st => s.setStream id { st with st := .metaLost }
  | none => s

/-- A failure to read a directory ends the packet; unreadable metadata makes the stream META_LOST (R179). The address
that the reply gives for a pool, which has no memory-space address, is a free value (log entry 20). -/
def State.poolFail (s : State) (p : Packet) (st : PStatus) (isMeta : Bool) (count : Nat := 0) : State :=
  let (s1, a) := s.drawNat
  let s2 := if isMeta && st = .poisoned then s1.metaLost p.target else s1
  s2.fixPacket p (ofPStatus st) count 0 (a % 2 ^ 48)

/-! ## Summary slots (R152) -/

/-- Summary slots of a metadata frame that a stream's size allows. -/
def Stream.slotsPerPage (st : Stream) : Nat := lgFrame / st.slotBytes

/-- A free slot among the stream's summary pages, or in a new one. -/
def State.takeSlot (s : State) (id : Nat) (st : Stream) : Option (State × Nat × Nat) :=
  let mine := ((s.lgSums.filter fun e => e.2 = id + 1).map fun e => e.1 / 4096).eraseDups
  let free := mine.findSome? fun f =>
    ((List.range st.slotsPerPage).find? fun k => (tfind s.lgSums (4096 * f + k)).isNone).map fun k => (f, k)
  match free with
  | some (f, k) => some ({ s with lgSums := tset s.lgSums (4096 * f + k) (id + 1) }, f, k)
  | none => match s.takeMeta id with
    | some (t, f) => some ({ t with lgSums := tset t.lgSums (4096 * f) (id + 1) }, f, 0)
    | none => none

/-- A slot is freed, and its page with the last one. -/
def State.dropSlot (s : State) (f k : Nat) : State :=
  let s1 := { s with lgSums := tdel s.lgSums (4096 * f + k) }
  if s1.lgSums.any fun e => e.1 / 4096 = f then s1 else s1.lgDrop metaPool f

/-! ## STREAM_OPEN (R155) -/

/-- log2 of tokens per page (R151). -/
def tppFor (rb : Nat) : Nat := Nat.log2 (lgFrame / rb)

def State.runOpen (s : State) (id : Nat) : State :=
  match s.takeFw id 0x10 with
  | none => s
  | some (s1, p) =>
    if s.fget F.lgMetaCfg_en = 0 then s1.fixPacket p .denied else
    let sid := firstGap s1.streams 0
    let lay := bits (p.word 32) 0 48
    if 262144 ≤ sid then s1.fixPacket p .noSpace else
    match s1.takeMeta sid with
    | none => (s1.raise 4 F.lgErr_meta_empty [] [(F.lgErr_first_stream, sid)]).fixPacket p .noSpace
    | some (s2, root) =>
      match s2.takeMeta sid with
      | none => (s1.raise 4 F.lgErr_meta_empty [] [(F.lgErr_first_stream, sid)]).fixPacket p .noSpace
      | some (s3, page) =>
        let st : Stream := ⟨.opened, p.tenant, 0, 0, 0, lay, tppFor (64 * (bits lay 26 6 + 1)), root, bits (p.word 40) 0 24, 0, 0, 0, []⟩
        let s4 := (s3.clearMeta root).clearMeta page
        let (s5, w, _) := s4.writePool (s.lgDesc metaPool) (lgFrame * root) 8 (page + 2 ^ 63)
        if w ≠ .ok then ((s5.lgDrop metaPool root).lgDrop metaPool page).fixPacket p (ofPStatus w) 0 0 0
        else (s5.setStream sid st).fixPacket p .done 0 sid 0

def execStreamOpen (id : Nat) (s : State) : Res := .next (s.runOpen id)

/-! ## STREAM_APPEND (R156 to R160) -/

/-- Pages that tokens t0 to t0 + n − 1 touch. -/
def pagesOf (tpp t0 n : Nat) : List Nat := (List.range ((t0 + n - 1) / tpp + 1 - t0 / tpp)).map (t0 / tpp + ·)

/-- Outcome of preparing or writing one page. -/
inductive AppOut where
  | ok (s : State)
  | noSpace (poolErr : Bool)
  | fail (s : State) (st : PStatus) (isMeta : Bool)
  /-- the source failed at an address -/
  | src (s : State) (st : PStatus) (addr : Nat)

/-- Frames, directory page and summary slot for page p of layer L of a stream. -/
def State.prepPage (s : State) (id p layer : Nat) (full : Bool) : AppOut :=
  match s.stream id with
  | none => .ok s
  | some st =>
    let e := p * st.nlayers + layer
    let withPage : Option State := match s.dirPage st (e / 16384) with
      | (t, .ok, none) =>
        (t.takeMeta id).map fun (u, f) =>
          ((u.clearMeta f).writePool (s.lgDesc metaPool) (lgFrame * st.root + 8 * (e / 16384)) 8 (f + 2 ^ 63)).1
      | (t, _, _) => some t
    match withPage with
    | none => .noSpace false
    | some s1 =>
      match s1.dirGet st p layer with
      | (t, .fail x) => .fail t x true
      | (t, .noPage) => .ok t
      | (t, .ent d) =>
        if d.st = 3 || d.st = 2 then .ok t else
        let held : Option (State × DirEnt) := if d.st = 1 then some (t, d) else
          (t.takePage id st p layer).map fun (u, q, f) =>
            (u.setStream id { st with pages := st.pages + 1 }, { d with st := 1, stack := q, frame := f })
        match held with
        | none => .noSpace true
        | some (u, d1) =>
          let slotted : Option (State × DirEnt) := if !full || d1.sumValid then some (u, d1) else
            (u.takeSlot id st).map fun (v, f, k) => (v, { d1 with sumFrame := f, sumSlot := k })
          match slotted with
          | none => .noSpace false
          | some (v, d2) => .ok (v.dirPut st p layer d2)

/-- R152: the summary of a full page, from its records. -/
def summaryOf (st : Stream) (raw : Nat) : Nat :=
  let vals := (List.range st.hkv).flatMap fun h =>
    let kb := vecBytes st.kfmt st.dk
    (List.range st.tpp).foldl (fun (acc : List Nat) t =>
      let v := decodeVec st.kfmt st.dk (bits raw (8 * (t * st.recBytes + h * kb)) (8 * kb))
      (acc.zip v).map fun e => r32 ((x32 e.1).add e.2)) (List.replicate st.dk 0)
  vals.foldr (fun w a => (a <<< 32) + w) 0

/-- The records of layer L that lie on page p are copied (R158). -/
def State.fillPage (s : State) (id p layer t0 n src : Nat) : AppOut :=
  match s.stream id with
  | none => .ok s
  | some st =>
    match s.dirGet st p layer with
    | (t, .fail x) => .fail t x true
    | (t, .noPage) => .ok t
    | (t, .ent d) =>
      if d.st ≠ 1 then .ok t else
      let lo := max t0 (p * st.tpp)
      let hi := min (t0 + n) ((p + 1) * st.tpp)
      let a := src + (lo - t0) * st.recBytes
      let (u, g) := t.readBytes a ((hi - lo) * st.recBytes)
      if g.st ≠ .ok then .src u g.st (a + g.off) else
      let (v, w, _) := u.writePool (s.lgDesc d.stack) (lgFrame * d.frame + lo % st.tpp * st.recBytes) ((hi - lo) * st.recBytes) g.data copyClass
      if w ≠ .ok then .fail v w false else .ok v

/-- The summary of a page that the append fills (R152, R158). -/
def State.sumPage (s : State) (id p layer : Nat) : AppOut :=
  match s.stream id with
  | none => .ok s
  | some st =>
    match s.dirGet st p layer with
    | (t, .fail x) => .fail t x true
    | (t, .noPage) => .ok t
    | (t, .ent d) =>
      if d.st ≠ 1 then .ok t else
      let (x, pg) := t.readPool (s.lgDesc d.stack) (lgFrame * d.frame) (st.tpp * st.recBytes)
      if pg.st ≠ .ok then .fail x pg.st false else
      let (y, z, _) := x.writePool (s.lgDesc metaPool) (lgFrame * d.sumFrame + d.sumSlot * st.slotBytes) st.slotBytes (summaryOf st pg.data)
      if z ≠ .ok then .fail y z true else .ok y

/-- The entry of a filled page says that its summary is there. -/
def State.sumMark (s : State) (id p layer : Nat) : AppOut :=
  match s.stream id with
  | none => .ok s
  | some st =>
    match s.dirGet st p layer with
    | (t, .fail x) => .fail t x true
    | (t, .noPage) => .ok t
    | (t, .ent d) => .ok (if d.st ≠ 1 then t else t.dirPut st p layer { d with sumValid := true })

/-- A list of steps, stopping at the first that does not answer ok. -/
def runApp (s : State) (l : List (State → AppOut)) : AppOut :=
  l.foldl (fun a f => match a with
    | .ok t => f t
    | x => x) (.ok s)

/-- Start checks of R157 on a stream. -/
def Stream.appendRefused (st : Stream) (t0 n lay0 nlay : Nat) : Option KStatus :=
  if (st.pendN = 0 && lay0 ≠ 0) || (0 < st.pendN && (n ≠ st.pendN || lay0 ≠ st.pendLayer)) || st.nlayers < lay0 + nlay
      || t0 ≠ st.length then some .malformed
  else if st.limit < st.length + n then some .noSpace
  else none

/-- R157, R158: the append itself: its start checks, frames, records, summaries, and its commit. -/
def State.append (s : State) (p : Packet) (st : Stream) : State :=
  let n := bits (p.word 32) 0 15 + 1
  let lay0 := bits (p.word 32) 16 8
  let nlay := bits (p.word 32) 24 8 + 1
  let t0 := bits (p.word 48) 0 24
  let id := p.target
  match s.memRegion p.tenant 4096 (p.word 40) (n * nlay * st.recBytes), st.appendRefused t0 n lay0 nlay with
  | some k, _ => s.fixPacket p k
  | none, some k => s.fixPacket p k
  | none, none =>
    let full := fun (q : Nat) => decide ((q + 1) * st.tpp ≤ t0 + n)
    let cells := (List.range nlay).flatMap fun i => (pagesOf st.tpp t0 n).map fun q => (i, q)
    match runApp s (cells.map fun c t => t.prepPage id c.2 (lay0 + c.1) (full c.2)) with
    | .noSpace pe =>
      (if pe then s.raise 4 F.lgErr_pool_empty [] [(F.lgErr_first_stream, id)]
        else s.raise 4 F.lgErr_meta_empty [] [(F.lgErr_first_stream, id)]).fixPacket p .noSpace
    | .fail t x m => t.poolFail p x m
    | .src t x a => t.fixPacket p (ofPStatus x) 0 0 a
    | .ok s1 =>
      let filled := cells.filter fun c => full c.2
      match runApp s1 ((cells.map fun c t => t.fillPage id c.2 (lay0 + c.1) t0 n (p.word 40 + c.1 * n * st.recBytes))
          ++ (filled.map fun c t => t.sumPage id c.2 (lay0 + c.1)) ++ filled.map fun c t => t.sumMark id c.2 (lay0 + c.1)) with
      | .noSpace _ => s1.fixPacket p .noSpace
      | .fail t x m => t.poolFail p x m
      | .src t x a => t.fixPacket p (ofPStatus x) 0 0 (t.failAddr a x)
      | .ok s2 =>
        match s2.stream id with
        | none => s2.fixPacket p .unavailable
        | some e =>
          let e1 := if lay0 + nlay = st.nlayers then { e with length := e.length + n, pendLayer := 0, pendN := 0 }
            else { e with pendLayer := lay0 + nlay, pendN := n }
          ((s2.setStream id e1).ev 0x600 0 n).fixPacket p .done n

/-- Packets of a stream that started before a packet and have not replied, among given opcodes. -/
def State.streamBusy (s : State) (p : Packet) (ops : List Nat) : Bool :=
  s.packets.any fun e => decide (e.1 ≠ p.id) && e.2.target = p.target && ops.contains e.2.opcode && e.2.st ≠ .waiting

/-- An EVICT of the stream has started and not committed (CLOSE or EVICT meets a running attention packet). -/
def State.evicting (s : State) (p : Packet) : Bool :=
  s.packets.any fun e => e.2.target = p.target && e.2.opcode = 0x13 && e.2.st = .running

def State.runAppend (s : State) (id : Nat) : State :=
  match s.live id 0x11 with
  | none => s
  | some p0 =>
    if s.streamBusy p0 [0x11] || s.evicting p0 then s else
    match s.takeFast id 0x11 with
    | none => s
    | some (s1, p) =>
      match s1.streamRefused p, s1.stream p.target with
      | some k, _ => s1.fixPacket p k
      | none, some st => s1.append p st
      | none, none => s1.fixPacket p .notFound

def execStreamAppend (id : Nat) (s : State) : Res := .next (s.runAppend id)

/-! ## STREAM_EVICT (R161) -/

/-- LOST entries on a stack grow or fall by one; lost and dmask follow (R148). -/
def Stream.setLost (st : Stream) (k n : Nat) : Stream :=
  let by' := tput 0 st.lostBy k n
  { st with lostBy := by', lost := sumBy (·.2) by', dmask := by'.foldl (fun m e => setBits m e.1 1 1) 0 }
def Stream.lose (st : Stream) (k : Nat) : Stream := st.setLost k (tget 0 st.lostBy k + 1)
def Stream.find (st : Stream) (k : Nat) : Stream := st.setLost k (tget 0 st.lostBy k - 1)

/-- One entry turned into a HOLE: released RESIDENT and LOST entries are counted. -/
def State.evictOne (s : State) (id : Nat) (p layer : Nat) : State × Nat × Option PStatus :=
  match s.stream id with
  | none => (s, 0, none)
  | some st =>
    match s.dirGet st p layer with
    | (t, .fail x) => (t, 0, some x)
    | (t, .noPage) => (t, 0, none)
    | (t, .ent d) =>
      let slotless := fun (u : State) => if d.sumValid then u.dropSlot d.sumFrame d.sumSlot else u
      if d.st = 1 then
        let u := (slotless (t.lgDrop d.stack d.frame)).dirPut st p layer ⟨2, 0, 0, 0, 0, false⟩
        (u.setStream id { st with pages := st.pages - 1 }, 1, none)
      else if d.st = 3 then
        let walking := s.lgWalk.contains d.stack && t.lgTaken d.stack d.frame
        let u := (slotless (if walking then t.lgDrop d.stack d.frame else t)).dirPut st p layer ⟨2, 0, 0, 0, 0, false⟩
        (u.setStream id (if walking then { st with pages := st.pages - 1 } else st.find d.stack), 0, none)
      else (t, 0, none)

/-- A stack whose walk is still due holds a page of the stream. -/
def State.walkDue (s : State) (id : Nat) : Bool :=
  s.lgUsed.any fun e => e.2 = id + 1 && s.lgWalk.contains (e.1 / 2 ^ 20)

def State.runEvict (s : State) (id : Nat) : State :=
  let start : Option (State × Packet) := match s.live id 0x13 with
    | some p => if p.st = .running then some (s, p) else s.takeFw id 0x13
    | none => none
  match start with
  | none => s
  | some (s1, p) =>
    match s1.streamRefused p, s1.stream p.target with
    | some k, _ => s1.fixPacket p k
    | none, none => s1.fixPacket p .notFound
    | none, some st =>
      let t0 := bits (p.word 32) 0 24
      let t1 := bits (p.word 40) 0 24
      if t0 % st.tpp ≠ 0 || t1 % st.tpp ≠ 0 || t1 ≤ t0 || st.length / st.tpp * st.tpp < t1 then s1.fixPacket p .malformed
      else if s1.streamBusy p [0x11, 0x20, 0x21] then s1
      else
        let cells := (pagesOf st.tpp t0 (t1 - t0)).flatMap fun q => (List.range st.nlayers).map fun l => (q, l)
        let (s2, c, bad) := cells.foldl (fun (a : State × Nat × Option PStatus) e =>
          match a.2.2 with
          | some _ => a
          | none => let (t, k, b) := a.1.evictOne p.target e.1 e.2; (t, a.2.1 + k, b)) (s1, 0, none)
        match bad with
        | some x => s2.poolFail p x true
        | none =>
          let s3 := match s2.stream p.target with
            | some e => if e.lost = 0 && e.st = StreamSt.degraded && !s2.walkDue p.target
                then s2.setStream p.target { e with st := StreamSt.opened } else s2
            | none => s2
          s3.fixPacket p .done c

def execStreamEvict (id : Nat) (s : State) : Res := .next (s.runEvict id)

/-! ## STREAM_CLOSE (R163) -/

/-- Every frame and slot of a stream is freed. -/
def State.freeFrames (s : State) (id : Nat) : State :=
  { s with lgUsed := s.lgUsed.filter (fun e => e.2 ≠ id + 1), lgSums := s.lgSums.filter fun e => e.2 ≠ id + 1 }

/-- Lodging pages a CLOSE releases: frames of pools that are not being walked. -/
def State.pagesHeld (s : State) (id : Nat) : Nat :=
  (s.lgUsed.filter fun e => e.2 = id + 1 && decide (e.1 / 2 ^ 20 < 8) && !s.lgWalk.contains (e.1 / 2 ^ 20)).length

/-- The frames of a stream whose directory is lost belong to no stream any more: to owner 0 (R163). -/
def State.orphan (s : State) (id : Nat) : State :=
  let f := fun (m : Table Nat) => tmap m fun _ v => if v = id + 1 then 0 else v
  { s with lgUsed := f s.lgUsed, lgSums := f s.lgSums }

/-- R149, R163: the free lists rebuilt: frames are held by streams whose directory can be read. -/
def State.rebuildLists (s : State) : State :=
  let live := fun (v : Nat) => v ≠ 0 && (match s.stream (v - 1) with
    | some st => st.st ≠ .metaLost
    | none => false)
  { s with lgUsed := s.lgUsed.filter (fun e => live e.2), lgSums := s.lgSums.filter fun e => live e.2 }

/-- The release at the end of a CLOSE; a META_LOST stream leaves its frames to the next reset. -/
def State.endClose (s : State) (p : Packet) (st : Stream) : State :=
  let k : KStatus := if p.status = .abortedPort then .abortedPort else .done
  if st.st = .metaLost then ((s.orphan p.target).freeStream p.target).fixPacket p k
  else if s.streamBusy p [0x11, 0x20, 0x21] then s
  else
    let c := s.pagesHeld p.target
    ((s.freeFrames p.target).freeStream p.target).fixPacket p k c

def State.runClose (s : State) (id : Nat) : State :=
  match s.live id 0x12 with
  | none => s
  | some p =>
    if p.st = .running then
      match s.stream p.target with
      | some st => s.endClose p st
      | none => s
    else
      match s.takeFw id 0x12 with
      | none => s
      | some (s1, q) =>
        match s1.streamRefused q, s1.stream q.target with
        | some k, _ => s1.fixPacket q k
        | none, none => s1.fixPacket q .notFound
        | none, some st =>
          if st.st = .metaLost then s1.endClose q st
          else (s1.setStream q.target { st with st := .closing }).endClose q { st with st := .closing }

def execStreamClose (id : Nat) (s : State) : Res := .next (s.runClose id)

/-! ## Loss walk (R177) -/

/-- One entry of a walk of stack k: an entry that names it, in a frame from lo on, becomes LOST and its frame is free. -/
def State.walkOne (s : State) (k lo id p layer : Nat) : State :=
  match s.stream id with
  | none => s
  | some st =>
    let e := p * st.nlayers + layer
    match s.dirPage st (e / 16384) with
    | (t, .ok, some f) =>
      let (u, g) := t.readPool (s.lgDesc metaPool) (lgFrame * f + 16 * (e % 16384)) 16
      let d := DirEnt.unpack (bits g.data 0 64) (bits g.data 64 64)
      if g.st = .ok && d.st = 1 && d.stack = k && decide (lo ≤ d.frame) then
        let v := (if d.sumValid then u.dropSlot d.sumFrame d.sumSlot else u).lgDrop k d.frame
        let w := (v.dirPut st p layer ⟨3, k, 0, 0, 0, false⟩).fsat F.lgPoolStat_lost [k] 1
        (w.setStream id { st.lose k with pages := st.pages - 1 }).raise 4 F.lgErr_lost []
          [(F.lgErr_first_stream, id)]
      else u
    | (t, _, _) => t

/-- Pages of a stream that may hold an entry: those its tokens and one more append can reach. -/
def Stream.pageSpan (st : Stream) : Nat := (st.length + 32768) / st.tpp + 1

/-- Streams with a frame of a pool from a number on. -/
def State.streamsOn (s : State) (k lo : Nat) : List Nat :=
  ((s.lgUsed.filter fun e => e.2 ≠ 0 && e.1 / 2 ^ 20 = k && decide (lo ≤ e.1 % 2 ^ 20)).map fun e => e.2 - 1).eraseDups

/-- The walk of the directories of the streams with a frame of pool k from lo on. -/
def State.walkFrames (s : State) (k lo : Nat) : State :=
  (s.streamsOn k lo).foldl (fun t id =>
    match t.stream id with
    | some st =>
      if st.st = .metaLost || st.st = .closing then t else
      ((List.range st.pageSpan).flatMap fun p => (List.range st.nlayers).map fun l => (p, l)).foldl
        (fun u c => u.walkOne k lo id c.1 c.2) t
    | none => t) s

/-- R177: the walk for a stack that went offline. -/
def State.lossWalk (s : State) (k : Nat) : State :=
  if !s.lgWalk.contains k then s else
  let s1 := s.walkFrames k 0
  { s1 with lgWalk := s1.lgWalk.filter (· ≠ k) }

def execLossWalk (k : Nat) (s : State) : Res := onUnit (decide (k < 8)) (s.lossWalk k)

end Sys2Proof.Machine
end

