-- ==== Sys2Proof/Machine/Attention.lean ====
section
/-! DEFINITION. Attention offload (R164 to R179): ATTN_PARTIAL with its engines and blocks, ATTN_SELECT and ATTN_MERGE. -/
namespace Sys2Proof.Machine

/-! ## Arithmetic of the engines (R120, R123, R170) -/

/-- One level of the reduction tree: neighbours are added, each sum rounded to FP32. -/
def treeLevel : List Nat → List Nat
  | a :: b :: r => fAdd a b :: treeLevel r
  | l => l

/-- First level: exact products are added in pairs and each sum is rounded (R111, R120; log entry 21). -/
def prodLevel : List XVal → List Nat
  | a :: b :: r => r32 (a.add b) :: prodLevel r
  | [a] => [r32 a]
  | [] => []

/-- Sum of up to 512 exact products in the tree of R120; lanes beyond them hold +0. -/
def tree512 (ps : List XVal) : Nat :=
  let l := ps ++ List.replicate (512 - ps.length) XVal.zero
  ((List.range 8).foldl (fun a _ => treeLevel a) (prodLevel l)).headD 0

/-- A dot product: one tree per 512 elements, later trees added with one more rounding (R120). -/
def dotTrees (acc : Option Nat) : Nat → List XVal → Nat
  | 0, _ => acc.getD 0
  | k + 1, ps =>
    let t := tree512 (ps.take 512)
    dotTrees (some (match acc with
      | none => t
      | some a => fAdd a t)) k (ps.drop 512)

def dot (q k : List XVal) : Nat := dotTrees none (ceilDiv k.length 512) ((q.zip k).map fun e => e.1.mul e.2)

/-- a × b + c with a single rounding (R123). -/
def fFma (a b c : Nat) : Nat := r32 (((x32 a).mul (x32 b)).add (x32 c))

/-- R121: the running maximum; a NaN operand makes it NaN. -/
def fMax (a b : Nat) : Nat :=
  match x32 a, x32 b with
  | .nan, _ => 0x7FC00000
  | _, .nan => 0x7FC00000
  | x, y => if x.lt y then b else a

def negInf : Nat := 0xFF800000
def HeadAcc.init (dv : Nat) : HeadAcc := ⟨negInf, 0, List.replicate dv 0, 0⟩

/-- R170: one block folded into an engine's state for one head. -/
def HeadAcc.fold (a : HeadAcc) (ss : List Nat) (vs : List (List XVal)) : HeadAcc :=
  let mb := ss.foldl fMax a.m
  let c := expResult false (fSub a.m mb)
  let ws := ss.map fun s => expResult false (fSub s mb)
  let lb := ws.foldl fAdd 0
  let ob := (ws.zip vs).foldl (fun (o : List Nat) e =>
    (o.zip e.2).map fun x => r32 (((x32 e.1).mul x.2).add (x32 x.1))) (a.o.map fun _ => 0)
  ⟨mb, fFma a.l c lb, (a.o.zip ob).map (fun e => fFma e.1 c e.2), a.n + ss.length⟩

/-! ## Clusters (R166, R537) -/

/-- The cluster takes work: some core is enabled and it is not in RESET. -/
def State.clusterUp (s : State) (c : Nat) : Bool := s.fget F.cnCtl_core_en [c] ≠ 0 && !bit s.clReset c

/-- R166, R537: a cluster, or the next one in ascending order that takes work. -/
def State.clusterFor (s : State) (c : Nat) : Option Nat :=
  ((List.range 8).map fun k => (c + k) % 8).find? fun d => s.clusterUp d

/-- R166: the cluster beside a pool's stack, or the partner's when the stack is offline. -/
def State.clusterOf (s : State) (pool : Nat) : Option Nat := s.clusterFor (if s.stackUp pool then pool else (pool + 4) % 8)

/-! ## Cores (R108, R142, R166) -/

def coreKey (cl core : Nat) : Nat := cl * 16 + core

/-- The core's recipe iteration, while its packet runs. -/
def State.coreAt (s : State) (cl core : Nat) : Option Core :=
  (tfind s.cores (coreKey cl core)).filter fun c => ((s.packet c.pkt).map fun p => decide (p.st = .running)) = some true

/-- The core carries engines of a running attention packet (R166). -/
def State.coreAttn (s : State) (cl core : Nat) : Bool :=
  s.attns.any fun e => (e.2.cores.any fun k => k.1 / 16 = cl && k.2 = core)
    && ((s.packet e.1).map fun p => decide (p.st = .running)) = some true

/-- The core runs an iteration (R142). -/
def State.coreBusy (s : State) (cl core : Nat) : Bool := (s.coreAt cl core).isSome || s.coreAttn cl core

/-- The core may take an iteration: one at a time, on an enabled core of a cluster that takes work (R108, R141, R537). -/
def State.coreFree (s : State) (cl core : Nat) : Bool :=
  !s.coreBusy cl core && s.clusterUp cl && bit (s.fget F.cnCtl_core_en [cl]) core

/-- R143: an event of a built-in recipe in CN_ERR. The image decides the step, and where no core is given the core: free
values. -/
def State.builtEvent (s : State) (f : Fld) (cl : Nat) (core : Option Nat) : State :=
  let (t, step) := s.drawNat
  let (u, c) := match core with
    | some k => (t, k)
    | none => t.drawNat
  u.raise 4 f [cl] [(F.cnErr_first_core, c), (F.cnErr_first_step, step)]

/-- Built-in data that did not come back good (R143). -/
def State.builtLoad (s : State) (st : PStatus) (cl : Nat) (core : Option Nat) : State :=
  if st = .poisoned then s.builtEvent F.cnErr_poison cl core
  else if st = .farErr then s.builtEvent F.cnErr_far_err cl core else s

/-- R218, Cluster reset meets a gather: a stack's cluster for a row, or the one beside the next online stack that takes work. -/
def State.gatherCluster (s : State) (k : Nat) : Option Nat :=
  if s.clusterUp k then some k
  else ((List.range 8).map fun j => (k + j) % 8).find? fun c => s.stackUp c && s.clusterUp c

/-- A gather ends with what it fetched or passed through; it leaves dst undefined, which is a free value (R218; log entry 7). -/
def State.endGather (s : State) (p : Packet) (k : KStatus) (addr : Nat) : State :=
  (s.spoil p).fixPacket p k p.fetched.length 0 addr

/-! ## Blocks -/

/-- Tokens [lo, hi) of a page cut at multiples of 256 within the page (R166). -/
def cutBlocks (cl pool frame : Nat) : Nat → Nat → Nat → List Block
  | 0, _, _ => []
  | k + 1, lo, hi =>
    if hi ≤ lo then [] else
    let e := min hi ((lo / 256 + 1) * 256)
    ⟨cl, pool, frame, lo, e - lo⟩ :: cutBlocks cl pool frame k e hi

/-- What the pages of a packet give: blocks, pools used, tokens skipped as LOST. -/
structure Pages where
  blocks : List Block
  pools : Nat
  skipped : Nat
  down : Bool
  bad : Option PStatus

/-- Pages with their token ranges, looked up in the directory (R162, R170, R178). -/
def State.collect (s : State) (st : Stream) (layer : Nat) (spans : List (Nat × Nat × Nat)) : State × Pages :=
  spans.foldl (fun (a : State × Pages) e =>
    if a.2.bad.isSome then a else
    match a.1.dirGet st e.1 layer with
    | (t, .fail x) => (t, { a.2 with bad := some x })
    | (t, .noPage) => (t, a.2)
    | (t, .ent d) =>
      if d.st = 1 then
        match t.clusterOf d.stack with
        | none => (t, { a.2 with down := true })
        | some c =>
          (t, { a.2 with blocks := a.2.blocks ++ cutBlocks c d.stack d.frame 17 (e.2.1 - e.1 * st.tpp) (e.2.2 - e.1 * st.tpp)
                         pools := a.2.pools ||| (1 <<< d.stack) })
      else if d.st = 3 then (t, { a.2 with skipped := a.2.skipped + (e.2.2 - e.2.1) })
      else (t, a.2)) (s, ⟨[], 0, 0, false, none⟩)

/-- Pages of tokens [t0, t1), with the tokens of each. -/
def spansOf (tpp t0 t1 : Nat) : List (Nat × Nat × Nat) :=
  (pagesOf tpp t0 (t1 - t0)).map fun p => (p, max t0 (p * tpp), min t1 ((p + 1) * tpp))

/-- Bytes of a tuple (R170). -/
def tupleBytes (dv : Nat) : Nat := 64 + 4 * dv

/-- A tuple as a little-endian number (R170). -/
def tupleNum (m l n head layer slice : Nat) (o : List Nat) : Nat :=
  (m + (l <<< 32) + ((n % 2 ^ 32) <<< 64) + ((head % 256) <<< 96) + ((layer % 256) <<< 104) + ((slice % 65536) <<< 112))
    + (o.foldr (fun w a => (a <<< 32) + w) 0 <<< 512)

def AttnRun.engines (r : AttnRun) (cl : Nat) : Nat :=
  let given := sumBy (fun e => if e.1 / 64 = cl then e.2.blocks.length else 0) r.accs
  min r.ppc (given + (r.queue.filter fun b => b.cl = cl).length)

/-! ## Start checks (R164, R165, R169, R171) -/

/-- Fields of an attention packet: layer, heads, engines per cluster, first KV head, heads per KV head. -/
structure AttnPrm where
  layer : Nat
  heads : Nat
  ppc : Nat
  kv0 : Nat
  g : Nat

def Packet.partialPrm (p : Packet) : AttnPrm :=
  let c := p.word 32
  ⟨bits c 0 8, bits c 8 6 + 1, bits c 16 6 + 1, bits c 24 6, bits c 30 6 + 1⟩
def Packet.selectPrm (p : Packet) : AttnPrm :=
  let c := p.word 32
  ⟨bits c 0 8, bits c 8 6 + 1, bits c 40 6 + 1, bits c 48 6, bits c 54 6 + 1⟩

/-- What depends on the stream (R164, R165). -/
def AttnPrm.fits (a : AttnPrm) (st : Stream) : Bool := decide (a.kv0 + a.heads / a.g ≤ st.hkv) && decide (a.layer < st.nlayers)

/-- A reserved list of granules: header and entries of a selection list (R173). -/
def listBytes (count : Nat) : Nat := 64 + ceilDiv count 16 * 64

/-! ## The end of an attention packet -/

def State.attn (s : State) (id : Nat) : Option AttnRun := tfind s.attns id
def State.setAttn (s : State) (id : Nat) (r : AttnRun) : State := { s with attns := tset s.attns id r }
def State.dropAttn (s : State) (id : Nat) : State := { s with attns := tdel s.attns id }

/-- What the reply counts: tokens processed, or pages scored by a chained ATTN_SELECT (R87, R174). -/
def AttnRun.count (r : AttnRun) : Nat :=
  match r.sel with
  | some (_, scored, _, _) => scored
  | none => r.tokens

/-- The packet ends with a failure; its engines stop (R179). -/
def State.attnFail (s : State) (p : Packet) (st : PStatus) (addr : Nat) (count : Nat) : State :=
  (s.dropAttn p.id).fixPacket p (ofPStatus st) count 0 addr

/-- The selection list as bytes (R173). -/
def listNum (layer bound tuples : Nat) (pages : List Nat) : Nat :=
  let body := pages ++ List.replicate (ceilDiv pages.length 16 * 16 - pages.length) 0xFFFFFFFF
  (pages.length + (layer <<< 16) + (bound <<< 64) + ((tuples % 2 ^ 32) <<< 128)) + (body.foldr (fun w a => (a <<< 32) + w) 0 <<< 512)

/-- An FP32 NaN is among the words. -/
def anyNan (ws : List Nat) : Bool := ws.any fun w => x32 w = .nan

/-- Tuples of one engine, in slots from k on. -/
def State.writeTuples (s : State) (r : AttnRun) (dv k cl e : Nat) (a : EngAcc) : State × PStatus × Nat :=
  ((List.range r.heads).zip a.heads).foldl (fun (x : State × PStatus × Nat) h =>
    if x.2.1 ≠ .ok then x else
    let addr := r.out + (k * r.heads + h.1) * tupleBytes dv
    let s1 := if anyNan (h.2.m :: h.2.l :: h.2.o) then x.1.builtEvent F.cnErr_nan_out cl (tfind r.cores (coreKey cl (e / 4))) else x.1
    let (t, st, off) := s1.writeBytes addr (tupleBytes dv)
      (tupleNum h.2.m h.2.l h.2.n h.1 r.layer (Config.sliceTag cl e) h.2.o) (clusterClass cl)
    (t, st, addr + off)) (s, .ok, 0)

/-- Every block has been computed: tuples are written, the list is completed, and the packet commits (R170, R174). Each core
that carried its engines has completed one iteration (log entry 69). -/
def State.attnFinish (s : State) (p : Packet) (r : AttnRun) (dv : Nat) : State :=
  let n := r.accs.length * r.heads
  let (s1, st, addr) := (r.accs.zip (List.range r.accs.length)).foldl (fun (x : State × PStatus × Nat) e =>
    if x.2.1 ≠ .ok then x else x.1.writeTuples r dv e.2 (e.1.1 / 64) (e.1.1 % 64) e.1.2) (s, .ok, 0)
  if st ≠ .ok then s1.attnFail p st addr r.count else
  let done := fun (t : State) (count aux : Nat) =>
    ((r.cores.foldl (fun (u : State) e => (u.fadd F.cnStat_iters [e.1 / 16] 1).ev 0x405 (e.1 / 16) 1) t).dropAttn p.id).fixPacket p (if r.degraded then .degraded else .done) count aux (if r.degraded then r.skipped else 0)
  match r.sel with
  | none => done s1 r.tokens n
  | some (a, scored, pages, bound) =>
    let (s2, w, off) := s1.writeBytes a (listBytes pages.length) (listNum r.layer bound n pages)
    if w ≠ .ok then s2.attnFail p w (a + off) scored else done s2 scored pages.length

/-- R179: after an uncorrectable error the list that a chained ATTN_SELECT wrote is undefined: free values (log entry 7). -/
def State.spoilList (s : State) (st : PStatus) (r : AttnRun) : State :=
  match r.sel with
  | some (a, _, pages, _) => if st = .poisoned then s.spoilRange a (listBytes pages.length) else s
  | none => s

/-- The packet's blocks go to the clusters; with none it commits at once. -/
def State.attnStart (s : State) (p : Packet) (r : AttnRun) (pg : Pages) (dv : Nat) : State :=
  if pg.down then s.attnFail p .unavailable 0 r.count else
  match pg.bad with
  | some x => s.poolFail p x true r.count
  | none =>
    let r1 := { r with queue := pg.blocks, pools := r.pools ||| pg.pools, skipped := r.skipped + pg.skipped }
    if pg.blocks.isEmpty then s.attnFinish p r1 dv else (s.setAttn p.id r1).setPacket { p with count := r.count }

/-- The query block: heads × dk BF16 words (R164). -/
def qWords (n raw : Nat) : List Nat := (List.range n).map fun i => bits raw (16 * i) 16
def headQ (r : AttnRun) (dk h : Nat) : List XVal := ((r.q.drop (h * dk)).take dk).map fun w => bf16.decode w

/-- A packet that nothing holds and whose stream takes it (CLOSE or EVICT meets a running attention packet). -/
def State.takeAttn (s : State) (id op : Nat) : Option (State × Packet) :=
  match s.live id op with
  | none => none
  | some p => if s.evicting p then none else s.takeFast id op

/-! ## ATTN_PARTIAL (R169, R170) -/

/-- The listed pages, each wholly below the bound and none twice (R169, R173). -/
def listOk (st : Stream) (bound : Nat) (pages : List Nat) : Bool :=
  pages.all (fun p => decide (p < 2 ^ 17) && decide ((p + 1) * st.tpp ≤ bound)) && decide (pages.eraseDups.length = pages.length)

def State.partialFrom (s : State) (p : Packet) (st : Stream) (a : AttnPrm) (spans : List (Nat × Nat × Nat)) : State :=
  let (s1, q) := s.readBytes (p.word 48) (a.heads * st.dk * 2)
  if q.st ≠ .ok then s1.attnFail p q.st (s1.failAddr (p.word 48 + q.off) q.st) 0 else
  let r : AttnRun := ⟨p.target, a.layer, a.heads, a.kv0, a.g, bits (p.word 40) 0 32, a.ppc, p.word 56, qWords (a.heads * st.dk) q.data,
    [], [], [], 0, 0, 0, st.st = .degraded, none⟩
  let (s2, pg) := s1.collect st a.layer spans
  s2.attnStart p r pg st.dv

def State.runPartial (s : State) (id : Nat) : State :=
  match s.takeAttn id 0x20 with
  | none => s
  | some (s1, p) =>
    match s1.streamRefused p, s1.stream p.target with
    | some k, _ => s1.fixPacket p k
    | none, none => s1.fixPacket p .notFound
    | none, some st =>
      let a := p.partialPrm
      let b := st.bound a.layer
      let isList := bit (p.word 32) 14
      let t0 := bits (p.word 64) 0 23
      let t1 := bits (p.word 64) 32 24
      let la := p.word 64
      let regs := [s1.memRegion p.tenant 4096 (p.word 48) (a.heads * st.dk * 2),
        s1.memRegion p.tenant 4096 (p.word 56) (8 * a.ppc * a.heads * tupleBytes st.dv),
        if isList then s1.memRegion p.tenant 4096 la 64 else none]
      match firstFail ((if a.fits st && (isList || decide (t1 ≤ b)) then none else some .malformed) :: regs) with
      | some k => s1.fixPacket p k
      | none =>
        if !isList then s1.partialFrom p st a (spansOf st.tpp t0 t1) else
        let (s2, h) := s1.readBytes la 64
        if h.st ≠ .ok then s2.attnFail p h.st (s2.failAddr (la + h.off) h.st) 0 else
        let n := bits h.data 0 16
        match s2.memRegion p.tenant 4096 la (64 + 4 * n) with
        | some k => s2.fixPacket p k
        | none =>
          let (s3, l) := s2.readBytes (la + 64) (4 * n)
          if l.st ≠ .ok then s3.attnFail p l.st (s3.failAddr (la + 64 + l.off) l.st) 0 else
          let pages := (List.range n).map fun i => bits l.data (32 * i) 32
          if listOk st b pages then s3.partialFrom p st a (pages.map fun x => (x, x * st.tpp, (x + 1) * st.tpp))
          else s3.fixPacket p .malformed

def execAttnPartial (id : Nat) (s : State) : Res := .next (s.runPartial id)

/-! ## A block on an engine (R166, R170) -/

/-- Keys and values of one KV head of a block's records (R150). -/
def blockKv (st : Stream) (raw n kv : Nat) : List (List XVal × List XVal) :=
  (List.range n).map fun t =>
    let kb := vecBytes st.kfmt st.dk
    let k := decodeVec st.kfmt st.dk (bits raw (8 * (t * st.recBytes + kv * kb)) (8 * kb))
    if st.vfmt = 0xF then (k, k) else
    let vb := vecBytes st.vfmt st.dv
    (k, decodeVec st.vfmt st.dv (bits raw (8 * (t * st.recBytes + st.hkv * kb + kv * vb)) (8 * vb)))

/-- A block folded into an engine. -/
def AttnRun.foldBlock (r : AttnRun) (st : Stream) (a : EngAcc) (b : Block) (raw : Nat) : EngAcc :=
  ⟨a.blocks ++ [b], (List.range r.heads).map fun h =>
    let kv := blockKv st raw b.n (r.kv0 + h / r.g)
    let q := headQ r st.dk h
    let ss := kv.map fun e => fMul r.scale (dot q e.1)
    ((a.heads[h]?).getD (HeadAcc.init st.dv)).fold ss (kv.map (·.2))⟩

/-- Blocks of clusters that do not take work any more go to the next ones (R537). -/
def State.redeal (s : State) (r : AttnRun) : Option AttnRun :=
  let moved := r.queue.map fun b => if s.clusterUp b.cl then some b else (s.clusterFor b.cl).map fun c => { b with cl := c }
  if moved.all (·.isSome) then some { r with queue := moved.filterMap id } else none

/-- The core that carries engine e of the packet on a cluster: four engines to a core, the lowest free core for new ones (log
entry 69). -/
def State.engineCore (s : State) (r : AttnRun) (cl e : Nat) : Option Nat :=
  match tfind r.cores (coreKey cl (e / 4)) with
  | some k => some k
  | none => (List.range 16).find? fun k => s.coreFree cl k

/-- Reads of each record of a block (R167). -/
def AttnRun.passes (r : AttnRun) (st : Stream) : Nat := ceilDiv r.heads 32 * ceilDiv (max st.dk st.dv) 512

/-- A block is read as often as R167 says; the first read that fails decides. -/
def State.readBlock (s : State) (st : Stream) (b : Block) : Nat → State × Got
  | 0 => (s, ⟨.ok, 0, 0⟩)
  | 1 => s.readPool (s.lgDesc b.pool) (lgFrame * b.frame + b.tok * st.recBytes) (b.n * st.recBytes)
  | k + 1 =>
    let (t, g) := s.readPool (s.lgDesc b.pool) (lgFrame * b.frame + b.tok * st.recBytes) (b.n * st.recBytes)
    if g.st ≠ .ok then (t, g) else t.readBlock st b k

/-- An engine that is free receives the next block of its cluster, on its core. -/
def State.dealBlock (s : State) (id cl e : Nat) : State :=
  match s.packet id, s.attn id with
  | some p, some r0 =>
    if p.st ≠ .running then s else
    match s.redeal r0, s.stream r0.stream with
    | none, _ => s.attnFail p .unavailable 0 r0.count
    | _, none => s.attnFail p .unavailable 0 r0.count
    | some r, some st =>
      if r.engines cl ≤ e || !s.clusterUp cl then s else
      match r.queue.find? fun b => b.cl = cl, s.engineCore r cl e with
      | none, _ => s
      | _, none => s
      | some b, some core =>
        let (s1, g) := s.readBlock st b (r.passes st)
        if g.st ≠ .ok then
          (((s1.spoilList g.st r).builtLoad g.st cl (some core)).dropAttn id).poolFail p g.st false r.count
        else
          let acc := r.foldBlock st (tget ⟨[], []⟩ r.accs (cl * 64 + e)) b g.data
          let r1 := { r with queue := r.queue.erase b, accs := tset r.accs (cl * 64 + e) acc,
                             cores := tset r.cores (coreKey cl (e / 4)) core, tokens := r.tokens + b.n }
          let s2 := (s1.ev 0x601 0 b.n).setPacket { p with count := r1.count }
          if r1.queue.isEmpty then s2.attnFinish p r1 st.dv else s2.setAttn id r1
  | _, _ => s

def execEngineBlockDeal (id cl e : Nat) (s : State) : Res := onUnit (decide (cl < 8 && e < 64)) (s.dealBlock id cl e)

/-! ## ATTN_SELECT (R171 to R174) -/

/-- R124: a scored index is inserted into a list of at most n pairs in rank order. -/
def rankAbove (a b : Nat × Nat) : Bool :=
  (x32 b.1).lt (x32 a.1) || (!((x32 a.1).lt (x32 b.1)) && decide (a.2 < b.2))

def rankInsert (p : Nat × Nat) : List (Nat × Nat) → List (Nat × Nat)
  | [] => [p]
  | q :: r => if rankAbove p q then p :: q :: r else q :: rankInsert p r

def topInsert (n : Nat) (l : List (Nat × Nat)) (p : Nat × Nat) : List (Nat × Nat) :=
  if x32 p.1 = .nan then l else (rankInsert p l).take n

/-- Pages in the order of the list: forced and selected. -/
structure Scored where
  forced : List Nat
  top : List (Nat × Nat)
  scored : Nat
  skipped : Nat
  pools : Nat
  bad : Option (PStatus × Bool)

/-- R172: one page of an ATTN_SELECT. Full: every token of it lies below the bound. An error in its summary shows at the cluster of
its pool (DESIGN CHOICE, log entry 69). -/
def State.scorePage (s : State) (st : Stream) (a : AttnPrm) (q : List Nat) (bound n lowForced hiForced p : Nat) (x : Scored) :
    State × Scored :=
  match s.dirGet st p a.layer with
  | (t, .fail e) => (t, { x with bad := some (e, true) })
  | (t, .noPage) => (t, x)
  | (t, .ent d) =>
    if d.st = 3 then (t, { x with skipped := x.skipped + (min bound ((p + 1) * st.tpp) - p * st.tpp) })
    else if d.st ≠ 1 then (t, x)
    else
      let x1 := { x with pools := x.pools ||| (1 <<< d.stack) }
      if decide (p < lowForced) || decide (hiForced ≤ p) then (t, { x1 with forced := x1.forced ++ [p] })
      else if !d.sumValid || decide (bound < (p + 1) * st.tpp) then (t, x1)
      else
        let (u, g) := t.readPool (s.lgDesc metaPool) (lgFrame * d.sumFrame + d.sumSlot * st.slotBytes) st.slotBytes
        if g.st ≠ .ok then (u.builtLoad g.st ((u.clusterOf d.stack).getD 0) none, { x1 with bad := some (g.st, false) }) else
        let sc := (List.range a.heads).foldl (fun (m : Option Nat) h =>
          let sig := (List.range st.dk).map fun i => x32 (bits g.data (32 * ((a.kv0 + h / a.g) * st.dk + i)) 32)
          let v := dot (((q.drop (h * st.dk)).take st.dk).map fun w => bf16.decode w) sig
          some (match m with
            | none => v
            | some y => fMax y v)) none
        (u, { x1 with scored := x1.scored + 1, top := topInsert n x1.top (sc.getD 0, p) })

/-- Pages in ascending order. -/
def sortPages (ps : List Nat) : List Nat := (ps.foldl (fun (t : Table Unit) p => tset t p ()) []).map (·.1)

def State.runSelect (s : State) (id : Nat) : State :=
  match s.takeAttn id 0x21 with
  | none => s
  | some (s1, p) =>
    match s1.streamRefused p, s1.stream p.target with
    | some k, _ => s1.fixPacket p k
    | none, none => s1.fixPacket p .notFound
    | none, some st =>
      let a := p.selectPrm
      let c := p.word 32
      let n := bits c 14 6 + 1
      let chain := bit c 20
      let sink := bits c 24 8
      let recent := bits c 32 8
      let b := st.bound a.layer
      let np := ceilDiv b st.tpp
      let regs := [s1.memRegion p.tenant 4096 (p.word 48) (a.heads * st.dk * 2),
        s1.memRegion p.tenant 4096 (p.word 56) (listBytes (n + sink + recent)),
        if chain then s1.memRegion p.tenant 4096 (p.word 64) (8 * a.ppc * a.heads * tupleBytes st.dv) else none]
      match firstFail ((if a.fits st then none else some .malformed) :: regs) with
      | some k => s1.fixPacket p k
      | none =>
        let (s2, q) := s1.readBytes (p.word 48) (a.heads * st.dk * 2)
        if q.st ≠ .ok then s2.attnFail p q.st (s2.failAddr (p.word 48 + q.off) q.st) 0
        else if (s2.clusterFor 0).isNone then s2.attnFail p .unavailable 0 0
        else
          let qw := qWords (a.heads * st.dk) q.data
          let (s3, x) := (List.range np).foldl (fun (y : State × Scored) pg =>
            if y.2.bad.isSome then y else y.1.scorePage st a qw b n (min sink np) (np - recent) pg y.2)
            (s2, ⟨[], [], 0, 0, 0, none⟩)
          match x.bad with
          | some (e, m) => s3.poolFail p e m x.scored
          | none =>
            let pages := sortPages (x.forced ++ x.top.map (·.2))
            let (s4, w, off) := s3.writeBytes (p.word 56) (listBytes pages.length) (listNum a.layer b 0 pages)
            let deg := st.st = .degraded
            if w ≠ .ok then s4.attnFail p w (p.word 56 + off) x.scored
            else if !chain then
              s4.fixPacket p (if deg then .degraded else .done) x.scored pages.length (if deg then x.skipped else 0)
            else
              let r : AttnRun := ⟨p.target, a.layer, a.heads, a.kv0, a.g, bits (p.word 40) 0 32, a.ppc, p.word 64, qw, [], [], [], x.pools, 0,
                x.skipped, deg, some (p.word 56, x.scored, pages, b)⟩
              let (s5, pg) := s4.collect st a.layer (pages.map fun y => (y, y * st.tpp, min b ((y + 1) * st.tpp)))
              s5.attnStart p r pg st.dv

def execAttnSelect (id : Nat) (s : State) : Res := .next (s.runSelect id)

/-! ## ATTN_MERGE (R175, R176) -/

/-- A tuple read back. -/
structure Tuple where
  m : Nat
  l : Nat
  n : Nat
  head : Nat
  layer : Nat
  o : List Nat

def Tuple.unpack (dv raw : Nat) : Tuple :=
  ⟨bits raw 0 32, bits raw 32 32, bits raw 64 32, bits raw 96 8, bits raw 104 8, (List.range dv).map fun j => bits raw (512 + 32 * j) 32⟩

/-- R176: the tuples of one head combined in the order in which they arrive. -/
def mergeHead (dv : Nat) (ts : List Tuple) : Nat × Nat × Nat × List Nat :=
  match ts with
  | [] => (negInf, 0, 0, List.replicate dv 0)
  | t0 :: rest =>
    let mm := rest.foldl (fun a t => fMax a t.m) t0.m
    ts.foldl (fun (a : Nat × Nat × Nat × List Nat) t =>
      let c := expResult false (fSub t.m mm)
      (mm, fFma t.l c a.2.1, a.2.2.1 + t.n, (a.2.2.2.zip t.o).map fun e => fFma e.2 c e.1)) (mm, 0, 0, List.replicate dv 0)

/-- A permutation of the tuple numbers below n from an arrival order. -/
def arrivalOrder (n : Nat) (order : List Nat) : List Nat :=
  let l := (order.filter fun i => decide (i < n)).eraseDups
  l ++ (List.range n).filter fun i => !l.contains i

/-- Output of one head (R176). -/
def mergeOut (final : Bool) (ofmt dv h : Nat) (ts : List Tuple) : Nat :=
  let (m, l, n, o) := mergeHead dv ts
  if final then
    let w := if ofmt = 0 then 32 else 16
    (o.map fun v => if ts.isEmpty then 0 else if ofmt = 0 then fDiv v l else (bf16.encode (x32 (fDiv v l))).1).foldr
      (fun v a => (a <<< w) + v) 0
  else tupleNum m l n h ((ts.head?.map (·.layer)).getD 0) 0xFFFF o

/-- The output of a head holds a NaN (R143). -/
def mergeNan (final : Bool) (dv : Nat) (ts : List Tuple) : Bool :=
  let (m, l, _, o) := mergeHead dv ts
  if final then !ts.isEmpty && o.any fun v => x32 (fDiv v l) = .nan
  else anyNan (m :: l :: o)

/-- The heads are written by the lowest cluster that takes work (DESIGN CHOICE, log entry 69). -/
def State.runMerge (s : State) (id : Nat) (order : List Nat) : State :=
  match s.takeAttn id 0x22 with
  | none => s
  | some (s1, p) =>
    match s1.streamRefused p with
    | some k => s1.fixPacket p k
    | none =>
      let c := p.word 32
      let heads := bits c 0 6 + 1
      let dv := 32 * (bits c 6 6 + 1)
      let final := bit c 12
      let ofmt := bits c 13 4
      let n := bits c 32 32
      let tb := tupleBytes dv
      let ob := if final then dv * (if ofmt = 0 then 4 else 2) else tb
      match firstFail [s1.memRegion p.tenant 4096 (p.word 40) (n * tb), s1.memRegion p.tenant 4096 (p.word 48) (heads * ob)] with
      | some k => s1.fixPacket p k
      | none =>
        let (s2, g) := s1.readBytes (p.word 40) (n * tb)
        if g.st ≠ .ok then s2.attnFail p g.st (s2.failAddr (p.word 40 + g.off) g.st) 0
        else match s2.clusterFor 0 with
        | none => s2.attnFail p .unavailable 0 0
        | some cl =>
          let ts := (arrivalOrder n order).map fun i => Tuple.unpack dv (bits g.data (8 * tb * i) (8 * tb))
          let mine := fun h => ts.filter fun t => t.head = h
          let merged := (ts.filter fun t => decide (t.head < heads)).length
          let written := ((List.range heads).filter fun h => !(mine h).isEmpty).length
          let (s3, w, addr) := (List.range heads).foldl (fun (x : State × PStatus × Nat) h =>
            if x.2.1 ≠ .ok then x else
            let s1 := if mergeNan final dv (mine h) then x.1.builtEvent F.cnErr_nan_out cl none else x.1
            let (t, st, off) := s1.writeBytes (p.word 48 + h * ob) ob (mergeOut final ofmt dv h (mine h)) (clusterClass cl)
            (t, st, p.word 48 + h * ob + off)) (s2, .ok, 0)
          if w ≠ .ok then s3.attnFail p w addr 0 else s3.fixPacket p .done merged written

def execAttnMerge (id : Nat) (order : List Nat) (s : State) : Res := .next (s.runMerge id order)

end Sys2Proof.Machine
end

