-- ==== Sys2Proof/Machine/Channels.lean ====
section
/-! DEFINITION. The commands of the pseudo-channel controllers: admission, row and column commands, refresh ticks,
returning data, the leak of the bucket and the release of merge entries (R272 to R287, R311 to R322). A DRAM command
takes place at the first tick at which its timing is met, and the clock moves there (log entry 9); a command whose
condition does not hold changes nothing (log entry 5). -/
namespace Sys2Proof.Machine

/-! ## PCC_ADMIT -/

/-- A granule that waits for a PCC. -/
structure Waiting where
  port : Nat
  req : PortReq
  idx : Nat
  place : Place
  urg : Nat
  deriving Repr

/-- Granules of issued requests that wait for a pseudo-channel, in the order R53 leaves (R272). -/
def State.waitingFor (s : State) (pc : Nat) : List Waiting :=
  (s.ports.map fun e =>
    (e.2.reqs.filter fun r => r.stage = .issued).flatMap fun r =>
      (r.parts.zip (List.range r.parts.length)).flatMap fun x =>
        if x.1.st ≠ .wait || s.conflict e.2 r x.2 then [] else
        (x.1.todo.filter fun pl => pl.pc = pc).map fun pl =>
          (⟨e.1, r, x.2, pl, match r.kind with
            | .read => s.urgency e.1 r.stamp
            | .atomic => s.urgency e.1 r.stamp
            | _ => 0⟩ : Waiting)).flatten

/-- Order of admission: urgency, then age (R272). -/
def Waiting.before (a b : Waiting) : Bool :=
  b.urg < a.urg || (a.urg = b.urg && (a.req.stamp < b.req.stamp || (a.req.stamp = b.req.stamp && a.req.id ≤ b.req.id)))

/-- Insertion into the order of admission. -/
def insertWaiting (w : Waiting) : List Waiting → List Waiting
  | [] => [w]
  | x :: r => if w.before x then w :: x :: r else x :: insertWaiting w r

def sortWaiting (l : List Waiting) : List Waiting := l.foldr insertWaiting []

/-- The operand of an ATOMIC (R47). -/
def PortReq.atom (r : PortReq) : AtomOp :=
  ⟨r.aop, r.asz, r.addr % 64, bits (((r.data[0]?).getD 0).toNat) 0 (if r.asz then 64 else 32)⟩

/-- One copy of a write's granule has been accepted. -/
def State.copyAccepted (s : State) (w : Waiting) (merging : Bool) : State :=
  let s1 := s.setPart w.port w.req.id w.idx fun p =>
    let q := { p with todo := p.todo.erase w.place, pend := p.pend + b2n merging }
    if q.todo.isEmpty then (if q.pend = 0 then { q with st := .done } else { q with st := .queued }) else q
  if ((w.req.parts[w.idx]?).map fun p => p.todo.length).getD 0 ≤ 1 then s1.creditBack w.port 0 1 else s1

/-- Admission of one waiting granule; none when its queue has no room. -/
def State.letIn (s : State) (w : Waiting) : Option State :=
  let src := Src.part w.port w.req.id w.idx
  let keyGone := match w.place.key with
    | some k => (tfind s.keys k).isNone || s.clearing.contains k
    | none => false
  match (s.pcDown w.place.pc).or (if keyGone then some .denied else none) with
  | some st => some ((s.deliver src st w.place.pc 0).creditBack w.port 0 (if w.req.isWrite then 1 else 0))
  | none =>
    if s.link (w.place.pc / 64) ≠ 3 then none else
    match w.req.kind with
    | .read => (s.acceptRead w.place src w.port w.req.stamp).map fun t =>
        t.setPart w.port w.req.id w.idx fun p => { p with st := .queued, todo := [] }
    | .atomic => ((s.acceptAtomic w.place w.req.atom src w.port w.req.stamp).bind fun t =>
        t.reserveMate w.place w.port w.req.stamp (1 <<< (w.req.atom.off / 32))).map fun t =>
          (t.setPart w.port w.req.id w.idx fun p => { p with st := .queued, todo := [] }).creditBack w.port 0 1
    | _ =>
      let d := (w.req.data[w.idx]?).getD 0
      (s.acceptWrite w.place d (if w.req.kind = .masked then w.req.mask else 2 ^ 64 - 1) src w.port w.req.stamp).map fun t =>
        t.1.copyAccepted w t.2

/-- The first of the waiting granules that can be admitted. -/
def State.admitFirst (s : State) : List Waiting → State
  | [] => s
  | w :: r => match s.letIn w with
    | some t => t
    | none => s.admitFirst r

def execPccAdmit (pc : Nat) (s : State) : Res := onUnit (decide (pc < 512)) (s.admitFirst (sortWaiting (s.waitingFor pc)))

/-! ## Row commands -/

/-- The stack's clocks run and it serves its channels. -/
def State.serving (s : State) (pc : Nat) : Bool := s.link (pc / 64) = 3 && !s.retired pc

/-- ACT of a candidate at a tick (R277, R279). -/
def State.doAct (s : State) (pc : Nat) (c : Cand) (t : Nat) : State :=
  let s1 := s.tickTo t
  let p := s1.pcc pc
  let st := pc / 64
  let b := c.place.bank
  let x := p.bank b
  let x1 := { x with row := some c.row, fresh := true, colOk := max x.colOk (t + s.tim st F.scTim0_trcd),
                     preOk := max x.preOk (t + s.tim st F.scTim0_tras) }
  (s1.setPcc pc { p.setBank b x1 with acts := ((t, bankGroup b) :: p.acts).take histLen, lastRow := some t }).ev 0x200 pc 1

/-- Misses of the turn whose bank is closed and which no refresh of that bank outranks. -/
def State.actCands (s : State) (pc : Nat) : List Cand :=
  let p := s.pcc pc
  (s.turnCands pc).filter fun c =>
    let b := p.bank c.place.bank
    b.row = none && b.debt < 8 && (match s.refUrgency pc c.place.bank with
      | some u => decide (u < c.urg)
      | none => true)

/-- R278: the urgency and the stamp of the highest request or refresh that needs a bank whose open row it does not hit and
that outranks every queued request that hits this row; none when the row stays open. -/
def State.preNeeded (s : State) (pc b : Nat) : Option (Nat × Nat) :=
  match ((s.pcc pc).bank b).row with
  | none => none
  | some row =>
    let hits := (s.allCands pc).filter fun c => c.place.bank = b && c.row = row
    let beats := fun (u : Nat) => hits.all fun h => decide (h.urg < u)
    let reqs := (s.turnCands pc).filter fun c => c.place.bank = b && c.row ≠ row && beats c.urg
    let byReq := (pickCand (fun _ => 0) reqs).map fun e => (e.1.urg, e.1.stamp)
    let byRef := (s.refUrgency pc b).bind fun u => if u = 8 || beats u then some (u, 0) else none
    match byReq, byRef with
    | some a, some r => some (if r.1 < a.1 then a else r)
    | a, r => a.or r

/-- Banks whose refresh may issue: closed, and not outranked by a queued request for the bank (R285). -/
def State.refBanks (s : State) (pc : Nat) : List (Nat × Nat) :=
  let p := s.pcc pc
  (List.range 64).filterMap fun b =>
    match s.refUrgency pc b with
    | none => none
    | some u =>
      if (p.bank b).row = none && (u = 8 || (s.allCands pc).all fun c => c.place.bank ≠ b || decide (c.urg ≤ u))
      then some (b, u) else none

/-- A command for the row bus. -/
inductive RowCmd where
  | act (c : Cand)
  | pre (bank : Nat)
  | ref (bank : Nat)

/-- A command of the row bus with its rank, urgency then stamp, and the tick at which it may issue. -/
structure RowCand where
  cmd : RowCmd
  urg : Nat
  stamp : Nat
  at' : Nat

/-- a goes before b on the row bus: it may issue earlier, or at the same tick with a higher rank (R278). -/
def RowCand.above (a b : RowCand) : Bool :=
  a.at' < b.at' || (a.at' = b.at' && (b.urg < a.urg || (a.urg = b.urg && a.stamp ≤ b.stamp)))

def pickRow : List RowCand → Option RowCand
  | [] => none
  | c :: r => match pickRow r with
    | none => some c
    | some d => if c.above d then some c else some d

/-- Refreshes and row misses of every bank: what the row bus may carry. A refresh has the stamp 0: it goes before a miss of its
urgency (R278, R285; log entry 16). -/
def State.rowCands (s : State) (pc : Nat) : List RowCand :=
  let p := s.pcc pc
  ((s.refBanks pc).map fun e => ⟨.ref e.1, e.2, 0, s.rowSlot pc (max (p.bank e.1).actOk (s.actAfter pc e.1))⟩)
  ++ ((s.actCands pc).map fun c =>
    ⟨.act c, c.urg, c.stamp, s.rowSlot pc (max (p.bank c.place.bank).actOk (s.actAfter pc c.place.bank))⟩)
  ++ (List.range 64).filterMap fun b => (s.preNeeded pc b).map fun e => ⟨.pre b, e.1, e.2, s.rowSlot pc (p.bank b).preOk⟩

/-- The command that the row bus carries next (R277, R278). -/
def State.nextRow (s : State) (pc : Nat) : Option RowCand := pickRow (s.rowCands pc)

def State.stepAct (s : State) (pc : Nat) : State :=
  if !s.serving pc then s else
  let s1 := s.turnStep pc
  match s1.nextRow pc with
  | some ⟨.act c, _, _, t⟩ => s1.doAct pc c t
  | _ => s1

def execAct (pc : Nat) (s : State) : Res := onUnit (decide (pc < 512)) (s.stepAct pc)

def State.doPre (s : State) (pc b t : Nat) : State :=
  let s1 := s.tickTo t
  let p := s1.pcc pc
  let x := p.bank b
  let x1 := { x with row := none, fresh := false, actOk := max x.actOk (t + s.tim (pc / 64) F.scTim0_trp) }
  s1.setPcc pc { p.setBank b x1 with lastRow := some t }

def State.stepPre (s : State) (pc : Nat) : State :=
  if !s.serving pc then s else
  let s1 := s.turnStep pc
  match s1.nextRow pc with
  | some ⟨.pre b, _, _, t⟩ => s1.doPre pc b t
  | _ => s1

def execPre (pc : Nat) (s : State) : Res := onUnit (decide (pc < 512)) (s.stepPre pc)

/-- One REFpb: the debt falls by 1, or stays at 8 when a held tick is added (R285). -/
def State.doRef (s : State) (pc b t : Nat) : State :=
  let s1 := s.tickTo t
  let p := s1.pcc pc
  let st := pc / 64
  let x := p.bank b
  let forced := x.debt = 8
  let x1 := { x with actOk := t + s.tim st F.scTim1_trfcpb, colOk := t + s.tim st F.scTim1_trfcpb,
                     debt := if x.held then x.debt else x.debt - 1, held := false }
  let p1 := { p.setBank b x1 with acts := ((t, bankGroup b) :: p.acts).take histLen, lastRow := some t,
                                  refIssued := (p.refIssued + 1) % 2 ^ 32, refForced := satAdd 16 p.refForced (b2n forced) }
  let s2 := (s1.setPcc pc p1).ev 0x204 pc 1
  if forced then s2.ev 0x205 pc 1 else s2

def State.stepRef (s : State) (pc : Nat) : State :=
  if !s.serving pc then s else
  let s1 := s.turnStep pc
  match s1.nextRow pc with
  | some ⟨.ref b, _, _, t⟩ => s1.doRef pc b t
  | _ => s1

def execRefpb (pc : Nat) (s : State) : Res := onUnit (decide (pc < 512)) (s.stepRef pc)

/-- R284, R285: the next bank's debt rises, or the tick is held at 8. Suspended while the stack does not serve. -/
def State.stepTick (s : State) (pc : Nat) : State :=
  if s.link (pc / 64) ≠ 3 then s else
  let p := s.pcc pc
  let b := p.nextTick
  let x := p.bank b
  let x1 := if x.debt < 8 then { x with debt := x.debt + 1 } else { x with held := true }
  s.setPcc pc { p.setBank b x1 with nextTick := (b + 1) % 64 }

def execEscapementTick (pc : Nat) (s : State) : Res := onUnit (decide (pc < 512)) (s.stepTick pc)

/-! ## Column commands -/

/-- A column command leaves its bank's precharge time, the spacing history and the turn's count behind. -/
def State.afterCol (s : State) (pc b t : Nat) (wr : Bool) : State :=
  let p := s.pcc pc
  let st := pc / 64
  let x := p.bank b
  let pre := if wr then t + s.tim st F.scTim0_twl + 2 * s.sckTicks + s.tim st F.scTim1_twr else t + 8 * s.sckTicks
  let p1 := p.setBank b { x with preOk := max x.preOk pre, fresh := false }
  let p2 := { p1 with cols := ((t, bankGroup b) :: p.cols).take histLen }
  let p3 := if wr then { p2 with lastWr := some (t, bankGroup b) } else { p2 with lastRd := some (t, bankGroup b) }
  let s1 := (s.setPcc pc p3).ev (if wr then 0x202 else 0x201) pc 1
  if x.fresh then s1 else s1.ev 0x203 pc 1

/-- One more granule has been issued in the turn. -/
def State.countTurn (s : State) (pc : Nat) : State :=
  let p := s.pcc pc
  s.setPcc pc { p with turnCnt := p.turnCnt + 1 }

/-- RD of a candidate at a tick: the sector is on its way, with the symbols that the stack holds now. -/
def State.doRd (s : State) (pc : Nat) (c : Cand) (t : Nat) : State :=
  let s1 := (s.tickTo t).afterCol pc c.place.bank t false
  let p := s1.pcc pc
  let back := t + s.tim (pc / 64) F.scTim0_cl
  match c.key with
  | .rq q h =>
    let rq' := p.rq.map fun (e : Ent) =>
      if e.isRead && e.seq = q then { e with todo := e.todo &&& (3 - (1 <<< h)), wait := e.wait ||| (1 <<< h) } else e
    let last := rq'.any fun (e : Ent) => e.isRead && e.seq = q && e.todo = 0
    let s2 := s1.setPcc pc { p with rq := rq', ret := p.ret ++ [⟨.ent q, h, s1.placeRaw c.place h, c.place, false, back⟩] }
    if last then s2.countTurn pc else s2
  | .mb q h =>
    let mb' := p.mb.map fun (m : MgEnt) =>
      if m.seq = q then { m with todo := m.todo &&& (3 - (1 <<< h)), wait := m.wait ||| (1 <<< h) } else m
    (s1.setPcc pc { p with mb := mb', ret := p.ret ++ [⟨.merge q, h, s1.placeRaw c.place h, c.place, false, back⟩] }).ev 0x207 pc 1
  | .wq _ _ => s1

/-- WR of a candidate at a tick (R280, R319). -/
def State.doWr (s : State) (pc : Nat) (c : Cand) (t : Nat) : State :=
  let s1 := (s.tickTo t).afterCol pc c.place.bank t true
  match c.key with
  | .wq q h =>
    match (s1.pcc pc).wq.find? fun (e : Ent) => e.seq = q && bit e.todo h with
    | some e =>
      let s2 := s1.issueWrite pc q e.todo h e.kind
      if e.todo &&& (3 - (1 <<< h)) = 0 then s2.countTurn pc else s2
    | none => s1
  | .mb q h =>
    let more := ((s1.pcc pc).mb.find? fun (m : MgEnt) => m.seq = q).map fun m => m.todo &&& (3 - (1 <<< h))
    let s2 := s1.issueMerge pc q h
    if more = some 0 then s2.countTurn pc else s2
  | .rq _ _ => s1

def State.stepRd (s : State) (pc : Nat) : State :=
  if !s.serving pc then s else
  let s1 := s.turnStep pc
  if (s1.pcc pc).wturn then s1 else
  match pickCand (s1.colTime pc) ((s1.readCands pc).filter (s1.pcc pc).isHit) with
  | none => s1
  | some (c, t) => (s1.doRd pc c t).turnStep pc

def State.stepWr (s : State) (pc : Nat) : State :=
  if !s.serving pc then s else
  let s1 := s.turnStep pc
  if !(s1.pcc pc).wturn then s1 else
  match pickCand (s1.colTime pc) ((s1.writeCands pc).filter (s1.pcc pc).isHit) with
  | none => s1
  | some (c, t) => (s1.doWr pc c t).turnStep pc

def execRd (pc : Nat) (s : State) : Res := onUnit (decide (pc < 512)) (s.stepRd pc)
def execWr (pc : Nat) (s : State) : Res := onUnit (decide (pc < 512)) (s.stepWr pc)

/-! ## Returning data -/

/-- Errors on the way from a stack, by stored symbol (R307; what a stack or its link does lies outside, R2). -/
def addNoise (raw : List Byte) (noise : List (Nat × Byte)) : List Byte :=
  noise.foldl (fun l e => if e.1 < 36 then l.set e.1 (((l[e.1]?).getD 0) ^^^ e.2) else l) raw

/-- A fault that stays in the stack changes the stored symbols as well. -/
def State.stickNoise (s : State) (pl : Place) (h : Nat) (noise : List (Nat × Byte)) (sticky : Bool) : State :=
  if sticky then
    s.putRaw pl.pc pl.bank (s.issuedRow pl.pc pl.bank pl.row) (2 * pl.col + h) (addNoise (s.placeRaw pl h) noise)
  else s

/-- T_dram of R398, in ticks: a read that finds another row open. -/
def State.dramTicks (s : State) (k : Nat) : Nat :=
  s.tim k F.scTim0_tras + s.tim k F.scTim0_trp + s.tim k F.scTim0_trcd + s.tim k F.scTim0_cl + 4 * s.sckTicks

/-- R311 to R316: the oldest returning sector is back and decoded. A UE waits for the second read of R313. -/
def State.stepReturn (s : State) (pc : Nat) (noise : List (Nat × Byte)) (sticky : Bool) : State :=
  let p := s.pcc pc
  match p.ret with
  | [] => s
  | r :: rest =>
    if r.again then s else
    let raw := addNoise r.raw noise
    let s1 := (s.tickTo r.due).stickNoise r.place r.half noise sticky
    if (decodeSector (s.coordOf r.place r.half) raw).1 = .ue then
      s1.setPcc pc { s1.pcc pc with ret := { r with raw := raw, again := true, due := r.due + s.dramTicks (pc / 64) } :: rest }
    else (s1.setPcc pc { s1.pcc pc with ret := rest }).sectorBack r.use r.place r.half raw false

def execReadReturn (pc : Nat) (noise : List (Nat × Byte)) (sticky : Bool) (s : State) : Res :=
  onUnit (decide (pc < 512)) (s.stepReturn pc noise sticky)

/-- R313: the second read of a UE. The first counts as a CE when the second decodes. -/
def State.stepReread (s : State) (pc : Nat) (noise : List (Nat × Byte)) (sticky : Bool) : State :=
  let p := s.pcc pc
  match p.ret with
  | [] => s
  | r :: rest =>
    if !r.again then s else
    let s1 := (s.tickTo r.due).stickNoise r.place r.half noise sticky
    let raw := addNoise (s.placeRaw r.place r.half) noise
    (s1.setPcc pc { s1.pcc pc with ret := rest }).rereadBack r.use r.place r.half raw

def execUeReread (pc : Nat) (noise : List (Nat × Byte)) (sticky : Bool) (s : State) : Res :=
  onUnit (decide (pc < 512)) (s.stepReread pc noise sticky)

/-- R322: the bucket falls by 1 unless it is 0. -/
def State.stepLeak (s : State) (pc : Nat) : State :=
  let p := s.pcc pc
  s.setPcc pc { p with bucket := p.bucket - 1 }

def execCeLeak (pc : Nat) (s : State) : Res := onUnit (decide (pc < 512)) (s.stepLeak pc)

/-! ## MERGE_RELEASE -/

/-- A waiting partial write needs an entry of a full merge buffer: no mask of all ones, and no open entry that it joins
(R318, R320). -/
def State.needsEntry (s : State) (pc : Nat) : Bool :=
  decide (mbCap ≤ (s.pcc pc).mb.length) && (s.waitingFor pc).any fun w =>
    w.req.kind = .masked && w.req.mask ≠ 2 ^ 64 - 1
      && !((s.pcc pc).mb.any fun m => m.st = .gather && sameG m.place w.place && !s.gatherOver pc m)

/-- R320: one of the events that end GATHER. -/
def State.releaseDue (s : State) (pc : Nat) (m : MgEnt) (oldest : Bool) : Bool :=
  s.gatherOver pc m || (oldest && s.needsEntry pc)

def State.stepMerge (s : State) (pc : Nat) : State :=
  let gs := (s.pcc pc).mb.filter fun m => m.st = .gather
  let old := minBy (·.seq) gs
  match gs.find? fun m => s.releaseDue pc m (old = some m) with
  | none => s
  | some m => s.mergeRelease pc m

def execMergeRelease (pc : Nat) (s : State) : Res := onUnit (decide (pc < 512)) (s.stepMerge pc)

end Sys2Proof.Machine
end

