-- ==== Sys2Proof/Machine/Parse.lean ====
section
/-! DEFINITION. PARSE_PACKET (R73 to R82, R93): which ring is parsed, the sequence check, the copy into the in-flight table,
and checks 1 to 5 of R79 with the value rules of every opcode's owning chapter. -/
namespace Sys2Proof.Machine

/-! ## Value rules of the parameters (check 3 of R79) -/

/-- A field value with nothing above its width. -/
def fits (v w : Nat) : Bool := decide (v < 2 ^ w)
/-- Bits [lo + w - 1 : lo] are 0. -/
def clear (v lo w : Nat) : Bool := bits v lo w = 0
/-- An address field of a memory-space address (R44). -/
def memAddr (v : Nat) : Bool := fits v 47
/-- A length of R89. -/
def copyLen (v : Nat) : Bool := decide (64 ≤ v && v ≤ 2 ^ 40 && v % 64 = 0)
/-- A finite, nonzero FP32 value (R164). -/
def scaleOk (v : Nat) : Bool := match x32 v with
  | .fin _ m _ => m ≠ 0
  | _ => false
/-- Number of segments of a range (R207, R210). -/
def nsegOk (v : Nat) : Bool := decide (1 ≤ v && v ≤ 2 ^ 25)

/-- The parameters of a packet keep the rules of its opcode's owning chapter. -/
def Packet.paramsOk (p : Packet) : Bool :=
  let a := p.word 32
  let b := p.word 40
  let c := p.word 48
  let d := p.word 56
  let e := p.word 64
  match p.opcode with
  | 0x01 => fits a 48 && a % 64 = 0 && memAddr b && b % 64 = 0 && copyLen c && d = 0
  | 0x02 => memAddr b && b % 64 = 0 && copyLen c && d = 0
  | 0x03 => clear d 3 13 && fits d 32 && fits c 48 && c % 64 = 0
      && (if bit d 0 then fits a 9 && b = 0 else memAddr a && copyLen b)
  | 0x04 => memAddr a && a % 64 = 0 && memAddr b && b % 64 = 0 && copyLen c && fits d 2
  | 0x10 => fits a 48 && layoutOk a && fits b 24 && c = 0 && d = 0
  | 0x11 => clear a 15 1 && fits a 32 && memAddr b && b % 64 = 0 && fits c 24 && d = 0
  | 0x13 => fits a 24 && fits b 24 && decide (a < b) && c = 0 && d = 0
  | 0x20 =>
    let heads := bits a 8 6 + 1
    let g := bits a 30 6 + 1
    clear a 15 1 && clear a 22 2 && fits a 36 && heads % g = 0 && fits b 32 && scaleOk b && fits c 48 && fits d 48
      && (if bit a 14 then fits e 48 else clear e 23 9 && fits e 56 && decide (bits e 0 23 < bits e 32 24))
      && p.word 72 = 0 && p.word 80 = 0 && p.word 88 = 0
  | 0x21 =>
    let heads := bits a 8 6 + 1
    let g := bits a 54 6 + 1
    clear a 21 3 && clear a 46 2 && fits a 60 && heads % g = 0 && fits b 32 && (!bit a 20 || scaleOk b) && fits c 48 && fits d 48
      && fits e 48 && p.word 72 = 0 && p.word 80 = 0 && p.word 88 = 0
  | 0x22 => clear a 17 15 && decide (bits a 13 4 ≤ 1 && 1 ≤ bits a 32 32) && fits b 48 && fits c 48 && d = 0
  | 0x30 =>
    let n := bits a 32 26
    clear a 25 7 && fits a 60 && nsegOk n && decide (bits a 0 25 + n ≤ 2 ^ 25) && d = 0
      && (match bits a 58 2 with
        | 0 => fits b 49 && bits b 0 48 % 2 ^ 21 = 0 && clear c 6 2 && fits c 42 && decide (bits c 0 4 ≤ 8 && bits c 16 26 ≤ 2 ^ 25)
            && (bits c 4 2 = 0 || isMx (bits c 0 4))
        | 1 => b = 0 && c = 0
        | _ => false)
  | 0x31 | 0x32 => fits a 25 && nsegOk b && c = 0 && d = 0
  | 0x33 =>
    clear a 4 4 && clear a 33 7 && fits a 48 && (match bits a 0 2 with
      | 0 => clear a 2 2 && clear a 40 8 && nsegOk b && c = 0 && d = 0
      | 1 => fits b 48 && b % 64 = 0 && fits c 48 && c % 64 = 0 && decide (1 ≤ bits a 40 8) && fits d 24 && decide (1 ≤ d)
      | _ => false)
  | 0x40 => decide (a ≤ 256) && decide (32 + 8 * a ≤ 64 * p.prm.length - 32) && c = 0 && d = 0 && (a ≠ 0 || clear b 16 16)
  | 0x41 => clear a 16 16 && decide (1 ≤ p.field 40 4) && p.field 44 1 ≠ 0 && decide (p.field 45 1 ≤ 16) && p.field 46 2 = 0
  | 0x50 => clear a 3 5 && clear a 14 2 && fits a 17 && b = 0 && c = 0 && d = 0
  | 0x51 => fits a 48 && decide (b ≤ 4) && c = 0 && d = 0
  | 0x52 => clear a 3 1 && clear a 6 2 && fits a 13 && bits a 4 2 ≠ 3 && b = 0 && c = 0 && d = 0
  | 0x53 => fits a 1 && b = 0 && c = 0 && d = 0
  | 0x60 => clear a 2 14 && fits a 32 && b = 0 && c = 0 && d = 0
  | 0x70 =>
    let w := bits a 10 6 + 1
    let sel := bits a 32 25
    clear a 19 5 && clear a 26 6 && fits a 57 && decide (bits a 4 4 ≤ 3) && bits a 8 2 ≠ 3 && decide (8 ≤ w) && fits b w && fits c w && d = 0
      && (match bits a 4 4 with
        | 2 => true
        | 3 => decide (sel < 24)
        | _ => fits sel 16)
  | 0x71 => fits a 5 && b = 0 && c = 0 && d = 0
  | _ => true

/-- Reserved waybill fields and the target (R78). -/
def Packet.waybillOk (p : Packet) : Bool :=
  let w0 := p.word 0
  let w1 := p.word 8
  clear w0 14 2 && clear w0 33 7 && fits w0 52 && clear w1 18 14 && fits (p.word 16) 48 && p.word 24 = 0
    && (namesStream p.opcode || p.target = 0)

/-- R79, check 1: the reply can be written. -/
def State.replyOk (s : State) (a : Nat) : Bool :=
  a % 32 = 0 && memAddr a && (match s.rootOf a with
    | some (r, _) => s.keyOk r
    | none => false)

/-- R79, checks 2 to 5. -/
def State.parseRefused (s : State) (p : Packet) : Option KStatus :=
  match opRow p.opcode with
  | none => some .unsupported
  | some r =>
    let lo := s.fget F.glPortCfg_tenant_base [p.port]
    let hi := s.fget F.glPortCfg_tenant_limit [p.port]
    let priv := if p.opcode = 0x03 && bit (p.word 56) 0 then some 0 else r.priv
    if !p.waybillOk || decide (64 * p.prm.length < 32 + r.params) || !p.paramsOk then some .malformed
    else if p.tenant < lo || hi < p.tenant then some .denied
    else match priv with
      | some k => if bit (s.rget .cpPortPriv [p.port]).toNat k then none else some .denied
      | none => none

/-! ## Parsing (R73, R75, R82, R93) -/

/-- The first granule at the parse pointer, if its written bit is set. -/
def Ring.head (r : Ring) : Option Granule := tfind r.gran r.parse

/-- Granules of the packet at the parse pointer: none while one is missing. -/
def Ring.packet (r : Ring) : Option (List Granule) :=
  match r.head with
  | none => none
  | some g => ((List.range (bits g.toNat 8 6 + 1)).map fun i => tfind r.gran ((r.parse + i) % 256)).mapM fun x => x

/-- A ring that parsing may serve now: its next waybill is there with a wrong sequence number, or its packet is
complete. -/
def State.ringReady (s : State) (n q : Nat) : Bool :=
  let r := (s.port n).ring q
  s.fget F.cpRingCfg_en [4 * n + q] = 1 && !r.halted && (match r.head with
    | none => false
    | some g => bits g.toNat 16 16 ≠ r.seq || r.packet.isSome)

/-- R93: the ring halts. -/
def State.haltRing (s : State) (n q : Nat) (g : Granule) : State :=
  let r := (s.port n).ring q
  let x := g.toNat
  let s1 := s.setPort n ((s.port n).setRing q { r with halted := true })
  (s1.postReply n q (bits x 16 16) (bits x 0 8) (bits x 96 32) (s.fget F.cpRingErrAddr_err_addr [4 * n + q] * 32) .badSeq 0 r.seq 0).log
    .ringHalt n q (bits x 16 16)

/-- A packet as it enters the in-flight table. -/
def packetOf (id n q : Nat) (gs : List Granule) : Packet :=
  let w := fun (i : Nat) => g64 ((gs[0]?).getD 0) (8 * i)
  { id := id, port := n, ring := q, opcode := bits (w 0) 0 8, seq := bits (w 0) 16 16, serial := bit (w 0) 32,
    tenant := bits (w 0) 40 12, target := bits (w 1) 0 18, cookie := bits (w 1) 32 32, reply := bits (w 2) 0 48, prm := gs,
    st := .waiting, chan := none, interp := none, status := .done, count := 0, aux := 0, detail := 0, prog := 0, waits := [],
    pass := [], asked := [], got := [], rows := [], segs := [], fetched := [], fmt := 0 }

/-- R79: the packet takes its place, refused or waiting to start. A FENCE holds its port from here on (R56). A port in DRAIN ends
its packets ABORTED_PORT (R69). -/
def State.takeIn (s : State) (p : Packet) : State :=
  let ring := 4 * p.port + p.ring
  let s1 := s.ev 0x500 p.port 1
  if (s.port p.port).st = .drain then s1.setPacket { p with st := .fixed, status := .abortedPort }
  else if s.scrapped then s1.setPacket { p with st := .fixed, status := .unavailable }
  else if !s.replyOk p.reply then
    s1.setPacket { p with st := .fixed, status := .malformed, reply := s.fget F.cpRingErrAddr_err_addr [ring] * 32 }
  else match s.parseRefused p with
    | some k => s1.setPacket { p with st := .fixed, status := k, aux := if p.opcode = 0x60 then 0xFF else 0 }
    | none =>
      let s2 := s1.setPacket p
      if p.opcode = 0x61 then
        let t := s2.port p.port
        s2.setPort p.port { t with fences := t.fences ++ [(p.id, p.id)] }
      else s2

/-- R82: the in-flight table or the port's share of it is full: the port's rings are not parsed. -/
def State.tableFull (s : State) (n : Nat) : Bool :=
  decide (4096 ≤ s.packets.length) || decide (256 ≤ (s.packets.filter fun e => e.2.port = n).length)

/-- One ring of the port is served, in whatever state the port is (R75; log entry 51). -/
def State.parseOne (s : State) (n : Nat) : State :=
  let t := s.port n
  if s.tableFull n then s else
  match ([1, 2, 3, 4].map fun k => (t.lastRing + k) % 4).find? fun q => s.ringReady n q with
  | none => s
  | some q =>
    let r := t.ring q
    let g := r.head.getD 0
    if bits g.toNat 16 16 ≠ r.seq then s.haltRing n q g
    else match r.packet with
      | none => s
      | some gs =>
        let len := gs.length
        let r1 : Ring := { r with
          gran := r.gran.filter fun e => decide (len ≤ (e.1 + 256 - r.parse) % 256)
          parse := (r.parse + len) % 256
          seq := (r.seq + 1) % 65536
          parsed := r.parsed + 1
          moved := true }
        let (s1, id) := (s.setPort n { t.setRing q r1 with lastRing := q }).freshId
        s1.takeIn (packetOf id n q gs)

def execParsePacket (n : Nat) (s : State) : Res := onUnit (decide (n < 24)) (s.parseOne n)

end Sys2Proof.Machine
end

