-- ==== Sys2Proof/Machine/RegOps.lean ====
section
/-! DEFINITION. The register window as a whole (R7, R12): which register an offset holds, and what a reset does to the
registers in its scope. -/
namespace Sys2Proof.Machine

/-- Indexes of an offset from a family's first register, dimension by dimension; none between registers. -/
def dimIndex : List (Nat × Nat) → Nat → Option (List Nat)
  | [], d => if d = 0 then some [] else none
  | (n, st) :: r, d =>
    let i := min (d / st) (n - 1)
    (dimIndex r (d - i * st)).map fun l => i :: l

/-- The register at an offset (R7). -/
def Reg.locate (off : Nat) : Option (Reg × List Nat) :=
  Reg.all.findSome? fun r => if r.base ≤ off then (dimIndex r.dims (off - r.base)).map fun l => (r, l) else none

/-- The word after a reset that keeps some fields and returns the others to their reset value. -/
def resetWord (r : Reg) (ix : List Nat) (w : Word) (keep : FieldDef → Bool) : Word :=
  BitVec.ofNat 64 (r.fields.foldl (fun a f => if keep f then setBits a f.lo f.w (bits w.toNat f.lo f.w) else a) (r.cold ix).toNat)

/-- A reset of the registers of a selection. -/
def State.resetRegs (s : State) (sel : Reg → List Nat → Bool) (keep : Reg → FieldDef → Bool) : State :=
  { s with regs := s.regs.filterMap fun e =>
      match Reg.locate e.1 with
      | some (r, ix) =>
        if sel r ix then
          let w := resetWord r ix e.2 (keep r)
          if w = r.cold ix then none else some (e.1, w)
        else some e
      | none => some e }

/-- A register lies in the scope of a port, stack or cluster reset of unit i (R12). -/
def Reg.inScope (r : Reg) (ix : List Nat) (sc : Scope) (i : Nat) : Bool :=
  let k := (ix[0]?).getD 0
  match sc, r.scope with
  | .port, .port => k = i
  | .port, .ring => k / 4 = i
  | .port, .ft => k + 24 = i
  | .stack, .stack => k = i
  | .cluster, .cluster => k = i
  | _, _ => false

/-- R12: a port, stack or cluster reset on the registers of its unit, with every path's copies of them (R389). -/
def State.localReset (s : State) (sc : Scope) (i : Nat) : State :=
  let s1 := s.resetRegs (fun r ix => r.inScope ix sc i) fun _ f => f.localKeep
  { s1 with pregs := s1.pregs.filter fun e => match Reg.locate (e.1 % 2 ^ 24) with
      | some (r, ix) => !r.inScope ix sc i
      | none => true }

end Sys2Proof.Machine
end

