-- ==== Sys2Proof/Machine/PortCtl.lean ====
section
/-! DEFINITION. The state of a port (R62, R63, R67 to R69, R448, R449): port reset, drain, enable, and the way back to
READY. -/
namespace Sys2Proof.Machine

/-! ## Steps 1 to 4 of R62 -/

/-- One copy of a request's granule, carried out at once. -/
def State.finishCopy (s : State) (r : PortReq) (i : Nat) (pl : Place) : State :=
  let d := (r.data[i]?).getD 0
  match r.kind with
  | .read => (s.readPlace pl).1
  | .write => (s.writePlace pl d (2 ^ 64 - 1)).1
  | .masked => (s.writePlace pl d r.mask).1
  | .atomic => match s.readPlace pl with
    | (t, .ok, g) =>
      let g1 := atomResult r.atom g
      let t1 := (t.writePlace pl g1 (2 ^ 64 - 1)).1
      (match t1.mateOf pl with
      | some q => (t1.writePlace q g1 (2 ^ 64 - 1)).1
      | none => t1)
    | (t, _, _) => t

/-- Step 2: a request that was fully received runs to completion; its responses are discarded. A read of tensor space
still asks for the fetch of its segment. Copies already admitted finish in their PCC. A held aperture WRITE is discarded. -/
def State.finishSilently (s : State) (n : Nat) (r : PortReq) : State :=
  if r.inAperture then s else
  let s1 := if (r.stage = .tenantQueue || r.stage = .fenceHold) && (s.tenQ r.tenant).en then s.charge n r else s
  if r.tens.isSome then
    (match r.stage with
    | .parked _ => s1
    | .issued => s1
    | _ => s1.mapStage n r)
  else
    let ps := if r.stage = .issued then r.parts else s1.memParts r
    (ps.zip (List.range ps.length)).foldl (fun t e =>
      if e.1.st = .done then t else e.1.todo.foldl (fun u pl => u.finishCopy r e.2 pl) t) s1

/-- Step 3: every packet of the port that has not replied ends ABORTED_PORT and replies with what it has committed, one past its
commit point too (R62, R92, R158). A STREAM_CLOSE past its commit point runs to its end and then replies. -/
def State.endPackets (s : State) (n : Nat) : State :=
  s.packets.foldl (fun t e =>
    match t.packet e.1 with
    | none => t
    | some p =>
      if p.port ≠ n then t
      else if p.st = .fixed then t.retirePacket { p with status := .abortedPort }
      else if t.closePast p then
        t.setPacket { p with status := .abortedPort }
      else
        let t1 := t.fixPacket p .abortedPort p.count p.aux 0
        t1.retirePacket ((t1.packet p.id).getD p)) s

/-- Steps 1 to 4 of R62 on a port: its requests, packets, frames, credits and reservations end. -/
def State.portClear (s : State) (n : Nat) : State :=
  let rs := (s.port n).reqs
  let s1 := (rs.foldl (fun t r => t.finishSilently n r) s).endPackets n
  let p := s1.port n
  (s1.setPort n { p with drev := 0, hdrHeld := 0, wdatHeld := 0, rspHeld := 0, rspRsvd := 0, staged := 0, reqs := [], frames := [],
                         fences := [], dirCopies := [] }).snoopEnd 3 n

/-- A port's rings after a port reset (R76). -/
def Port.clearedRings (p : Port) : Table Ring :=
  (List.range 4).foldl (fun t q => tput Ring.init t q (p.ring q).cleared) []

/-- PRDY is high only in READY (R69): it falls when a fabric port leaves that state. The home agent drives PRDY of a far-tier
port (R37). -/
def State.readyFalls (s : State) (n : Nat) : State :=
  if (s.port n).st = .ready && n < 24 then s.emit (.ready n false 0) else s

/-- A fall of PRST_N (R62, R69). In DRAIN the level is noted and nothing else happens: no reset is counted and no record is
written (DESIGN CHOICE, log entry 66). -/
def State.portReset (s : State) (n : Nat) : State :=
  let p := s.port n
  if !p.prstN then s else
  let s0 := s.setPort n { p with prstN := false }
  if p.st = .disabled || p.st = .drain || p.st = .reset then s0 else
  let s1 := ((s0.readyFalls n).setPort n { p with prstN := false, st := .reset }).portClear n
  let q := s1.port n
  let s2 := ((s1.setPort n { q with rings := p.clearedRings, lastRing := 3 }).localReset .port n).fsat F.glPortStat_resets [n] 1
  s2.log .portReset n 0 (s2.fget F.glPortStat_resets [n])

def execPortReset (n : Nat) (s : State) : Res := onUnit (decide (n < 26)) (s.portReset n)

/-! ## Back to READY (R62 step 5, R69, R449) -/

/-- The highest protocol revision that the device implements (R64). -/
def devRev : Nat := 2

/-- PRST_N rises; the other side presents its revision: the chiplet its PREV, the home agent its DREV. On a far-tier port the
device is the requester and drives PREV (R37). -/
def State.portRelease (s : State) (n prev : Nat) : State :=
  let p := s.port n
  if p.prstN then s else
  let s1 := s.setPort n { p with prstN := true, prev := prev % 16, st := if p.st = .reset then .linkup else p.st }
  if n < 24 then s1 else s1.emit (.prev n devRev)

def execPortResetRelease (n prev : Nat) (s : State) : Res := onUnit (decide (n < 26)) (s.portRelease n prev)

/-- R449: what PK_REV shows of a fabric port. -/
def State.comparePrev (s : State) (n prev drev : Nat) : State :=
  if 24 ≤ n then s else
  let cap := s.fget F.glPortCfg_rev_cap [n]
  let w := (s.rget .pkRev []).toNat
  s.rput .pkRev [] (BitVec.ofNat 64 (setBits (setBits w n 1 (b2n (decide (drev < prev)))) (n + 24) 1 (b2n (decide (prev < cap)))))

/-- Step 5: DREV is set, PRDY rises and the initial credits are returned; on a far-tier port all three come from the home
agent. PREV = 0 leaves the port in LINKUP. -/
def State.portReady (s : State) (n : Nat) : State :=
  let p := s.port n
  if p.st ≠ .linkup || !p.prstN then s
  else if p.prev = 0 then s.raise 5 F.pkErr_rev_bad [] [(F.pkErr_first_src, n)]
  else
    let drev := min p.prev (s.fget F.glPortCfg_rev_cap [n])
    let h := s.fget F.glPortCfg_hdr_credits [n]
    let w := s.fget F.glPortCfg_wdat_credits [n]
    let s1 := (s.setPort n { p with st := .ready, drev := drev, hdrHeld := if n < 24 then h else 0,
                                    wdatHeld := if n < 24 then w else 0 }).comparePrev n p.prev drev
    if n < 24 then (s1.emit (.ready n true drev)).emit (.credit n h w) else s1

def execPortReady (n : Nat) (s : State) : Res := onUnit (decide (n < 26)) (s.portReady n)

/-! ## Enable and drain (R67, R69) -/

/-- en has become 1. -/
def State.portUp (s : State) (n : Nat) : State :=
  let p := s.port n
  if p.st = .disabled then s.setPort n { p with st := .linkup } else s

/-- en has become 0: DRAIN, which acts as steps 1 to 4 of R62. It is no port reset. -/
def State.portDown (s : State) (n : Nat) : State :=
  let p := s.port n
  if p.st = .disabled || p.st = .drain then s else
  ((s.readyFalls n).setPort n { p with st := .drain }).portClear n

/-- DRAIN ends: DISABLED, and at once LINKUP if en has been written to 1 meanwhile. -/
def State.portDrained (s : State) (n : Nat) : State :=
  let p := s.port n
  if p.st ≠ .drain then s
  else s.setPort n { p with st := if s.fget F.glPortCfg_en [n] = 1 then .linkup else .disabled }

def execPortDrainDone (n : Nat) (s : State) : Res := onUnit (decide (n < 26)) (s.portDrained n)

/-- R67: a new value of GL_PORT_CFG; a field outside its range keeps its value, and en moves the port. -/
def State.portCfgWrite (s : State) (n : Nat) (w : Word) : State :=
  let old := (s.rget .glPortCfg [n]).toNat
  let keep := fun (x lo wd : Nat) (ok : Nat → Bool) => if ok (bits x lo wd) then x else setBits x lo wd (bits old lo wd)
  let x1 := keep w.toNat 4 4 fun v => decide (1 ≤ v && v ≤ 2)
  let x2 := keep x1 32 11 fun v => decide (1 ≤ v && v ≤ 1024)
  let x3 := keep x2 43 10 fun v => decide (1 ≤ v && v ≤ 768)
  let s1 := s.rput .glPortCfg [n] (BitVec.ofNat 64 x3)
  if bit x3 0 && !bit old 0 then s1.portUp n
  else if !bit x3 0 && bit old 0 then s1.portDown n
  else s1

end Sys2Proof.Machine
end

