-- ==== Sys2Proof/Machine/Recipes.lean ====
section
/-! DEFINITION. Recipes (R105 to R135, R537): the encoding of steps and its checks, the recipe store, RECIPE_LOAD and
RECIPE_RUN, iterations on cores, and cluster resets. The steps themselves are in Steps.lean. -/
namespace Sys2Proof.Machine

/-! ## Operand classes (R117) and step checks (R118 to R127, R129) -/

inductive OpCls where
  | word | half | scalar | latch | const
  deriving DecidableEq, Repr

def opCls (c : Nat) : Option OpCls :=
  if c ≤ 0x1F then some .word else if c ≤ 0x3F then some .half else if c ≤ 0x5F then some .scalar
  else if c ≤ 0x61 then some .latch else if 0x7D ≤ c && c ≤ 0x7F then some .const else none

def isLane (k : OpCls) : Bool := k = .word || k = .half

/-- Every code that a repeated operand reaches is of the class of the first; words and halfwords are one class (R117, R118). -/
def opRange (c rep : Nat) (inc : Bool) (ok : OpCls → Bool) : Bool :=
  match opCls c with
  | none => false
  | some k => ok k && (!inc || (match opCls (c + rep) with
    | none => false
    | some j => ok j && (decide (j = k) || (isLane j && isLane k))))

def isScal (k : OpCls) : Bool := k = .scalar
def isScalConst (k : OpCls) : Bool := k = .scalar || k = .const

def stepOp (w : Nat) : Nat := bits w 0 6

/-- Elements one EMIT converts. -/
def emitElts (w : Nat) : Nat := (bits w 11 5 + 1) * (bits w 16 9 + 1)

/-- The checks of R129 on one step. -/
def stepOk (w : Nat) : Bool :=
  match stepOp w with
  | 0x00 => bits w 6 58 = 0
  | 0x01 => bits w 26 38 = 0 && (if bit w 22 then decide (bits w 23 3 ≤ 5) else decide (1 ≤ bits w 6 16))
  | 0x02 => bits w 6 58 = 0
  | 0x04 =>
    bits w 27 37 = 0 && decide (bits w 13 4 ≤ 8) && decide (bits w 18 3 ≤ 5)
      && opRange (bits w 6 7) (bits w 21 5) (bit w 26) (fun k => isLane k || k = .latch)
      && (!bit w 17 || (decide (6 ≤ bits w 13 4) && opCls (bits w 6 7) = some .latch))
  | 0x08 =>
    let rep := bits w 29 5
    bits w 38 26 = 0 && opRange (bits w 6 7) rep (bit w 34) (fun _ => true) && opRange (bits w 13 7) rep (bit w 35) (fun _ => true)
      && opRange (bits w 20 7) rep (bit w 36) (fun k => if bits w 27 2 = 0 || bits w 27 2 = 3 then k = .word else isScal k)
      && (!bit w 37 || (bits w 6 7 = 0x60 && bits w 13 7 = 0x61) || (bits w 6 7 = 0x61 && bits w 13 7 = 0x60))
  | 0x09 =>
    let rep := bits w 27 5
    bits w 35 29 = 0 && opRange (bits w 6 7) rep (bit w 32) isScal && opRange (bits w 13 7) rep (bit w 33) isScal
      && opRange (bits w 20 7) rep (bit w 34) isScal
  | 0x0A =>
    let rep := bits w 28 5
    bits w 36 28 = 0 && opRange (bits w 6 7) rep (bit w 33) isScalConst && opRange (bits w 13 7) rep (bit w 34) isScalConst
      && opRange (bits w 20 7) rep (bit w 35) isScal
  | 0x0B =>
    let rep := bits w 27 5
    let src := fun (k : OpCls) => opCls (bits w 20 7) ≠ some .scalar || isScalConst k
    bits w 36 28 = 0 && opRange (bits w 6 7) rep (bit w 32) src && opRange (bits w 13 7) rep (bit w 33) src
      && opRange (bits w 20 7) rep (bit w 34) (fun k => isLane k || isScal k)
  | 0x0C => bits w 22 42 = 0 && opCls (bits w 6 7) = some .scalar && bits w 19 2 ≠ 3
  | 0x10 =>
    bits w 27 37 = 0 && (match bits w 20 2 with
      | 0 => (opCls (bits w 6 7)).isSome && opRange (bits w 13 7) 0 false isLane
      | 1 => opRange (bits w 6 7) (bits w 22 5) true isScal && opCls (bits w 13 7) = some .word
      | 2 => decide (bits w 13 7 ≤ 30)
      | _ => false)
  | 0x11 =>
    let fmt := bits w 25 4
    bits w 32 32 = 0 && decide (bits w 6 5 + bits w 11 5 ≤ 31) && decide (fmt ≤ 8) && decide (bits w 29 3 ≤ 5)
      && (if isMx fmt then bits w 16 9 = 511 && (bits w 11 5 + 1) % 4 = 0 else emitElts w * eltBits fmt % 512 = 0)
  | _ => false

/-- LOOP and ENDL balance within four levels, and END is the last step only (R127). -/
def nestOk : Nat → List Nat → Bool
  | _, [] => false
  | d, [w] => d = 0 && stepOp w = 0
  | d, w :: r =>
    if stepOp w = 0 then false
    else if stepOp w = 1 then decide (d < 4) && nestOk (d + 1) r
    else if stepOp w = 2 then decide (0 < d) && nestOk (d - 1) r
    else nestOk d r

/-- Latches whose last LOAD above a step was in dual mode: bit 0 for X0, bit 1 for X1. -/
def latchDual : Nat → List Nat → Bool
  | _, [] => true
  | m, w :: r =>
    if stepOp w = 4 && opCls (bits w 6 7) = some .latch then
      let hit := if bit w 26 && 0 < bits w 21 5 then 3 else 1 <<< (bits w 6 7 - 0x60)
      latchDual (if bit w 17 then m ||| hit else m &&& (3 - hit)) r
    else if stepOp w = 8 && bit w 37 then m = 3 && latchDual m r
    else latchDual m r

/-- Descriptor slots of the LOAD steps. -/
def loadSlots (ws : List Nat) : List Nat := ((ws.filter fun w => stepOp w = 4).map fun w => bits w 18 3).eraseDups
/-- Descriptor slots of the EMIT steps. -/
def emitSlots (ws : List Nat) : List Nat := ((ws.filter fun w => stepOp w = 0x11).map fun w => bits w 29 3).eraseDups

/-- R129: the recipe is stored. -/
def recipeOk (ws : List Nat) : Bool :=
  decide (ws.length ≤ 256) && ws.all stepOk && nestOk 0 ws && latchDual 0 ws && decide ((loadSlots ws).length ≤ 2)

/-! ## Extents (R134) -/

/-- Bytes that one run of a LOAD consumes (R119). -/
def loadBytes (fmt : Nat) (dual : Bool) : Nat :=
  if isMx fmt then tileBytes fmt / (if dual then 2 else 4) else 512 * eltBits fmt / 8

/-- Bytes that an EMIT produces (R126). -/
def emitBytes (w : Nat) : Nat :=
  let fmt := bits w 25 4
  if isMx fmt then emitElts w / 2048 * tileBytes fmt else emitElts w * eltBits fmt / 8

/-- Count of a LOOP (R127). -/
def loopCount (prm : List Nat) (w : Nat) : Nat :=
  if bit w 22 then bits ((prm[bits w 23 3]?).getD 0) 0 24 else bits w 6 16

/-- Bytes moved on a slot: mult is the product of the open loops' counts. -/
def extentOf (prm : List Nat) (slot : Nat) : List Nat → List Nat → Nat
  | _, [] => 0
  | mult, w :: r =>
    let m := mult.foldl (· * ·) 1
    match stepOp w with
    | 0x01 => extentOf prm slot (loopCount prm w :: mult) r
    | 0x02 => extentOf prm slot mult.tail r
    | 0x04 => (if bits w 18 3 = slot then m * (bits w 21 5 + 1) * loadBytes (bits w 13 4) (bit w 17) else 0) + extentOf prm slot mult r
    | 0x11 => (if bits w 29 3 = slot then m * emitBytes w else 0) + extentOf prm slot mult r
    | _ => extentOf prm slot mult r

/-- Extent of a slot; a slot read as MX tiles is taken in whole tiles (log entry 22). -/
def slotExtent (prm ws : List Nat) (slot : Nat) : Nat :=
  let x := extentOf prm slot [] ws
  match ws.find? fun w => stepOp w = 4 && bits w 18 3 = slot && isMx (bits w 13 4) with
  | some w => ceilDiv x (tileBytes (bits w 13 4)) * tileBytes (bits w 13 4)
  | none => x

def prmAddr (v : Nat) : Nat := bits v 0 48
def prmSplit (v : Nat) : Nat := bits v 48 6

/-- Bytes from a slot's address that the run covers (R134). -/
def slotCover (iters v ext : Nat) : Nat := if prmSplit v = 0 then ext else 4 * iters * 2 ^ prmSplit v

/-! ## The store (R130, R131, R136) -/

/-- CRC-32C of a list of bytes (R130, R439). -/
def crc32c (bs : List Nat) : Nat :=
  revBits 32 (bs.foldl (fun r b => crcByte 32 0x1EDC6F41 r (revBits 8 b)) 0xFFFFFFFF) ^^^ 0xFFFFFFFF

def stepBytes (ws : List Nat) : List Nat := ws.flatMap fun w => (List.range 8).map fun i => bits w (8 * i) 8

def State.recipe (s : State) (k : Nat) : RecipeSlot := tget RecipeSlot.init s.recipes k
def State.setRecipe (s : State) (k : Nat) (r : RecipeSlot) : State := { s with recipes := tput RecipeSlot.init s.recipes k r }

def RecipeSlot.handle (r : RecipeSlot) (k : Nat) : Nat := k + 2 ^ 8 * r.gen + 2 ^ 32 * crc32c (stepBytes (r.steps.map (·.toNat)))

/-- R136: the firmware image loads the built-in recipes into slots 0 to 31. -/
def State.loadBuiltIn (s : State) : State :=
  (List.range 32).foldl (fun t k => t.setRecipe k ⟨0, 0, Config.builtIn k, true, false⟩) s

/-- A handle named by a tenant: the slot, or the refusal (R131). -/
def State.useHandle (s : State) (tenant h : Nat) : Nat × Option KStatus :=
  let k := bits h 0 8
  let r := s.recipe k
  if k < 32 then (k, some .denied)
  else if !r.used || r.released || r.handle k ≠ h then (k, some .badHandle)
  else if r.tenant ≠ tenant then (k, some .denied)
  else (k, none)

def Packet.stepWords (p : Packet) : List Nat := (List.range (bits (p.word 32) 0 9)).map fun j => p.word (64 + 8 * j)

/-- R129 to R131. -/
def State.runLoad (s : State) (id : Nat) : State :=
  match s.takeFw id 0x40 with
  | none => s
  | some (s1, p) =>
    let ws := p.stepWords
    if ws.isEmpty then
      let h := p.word 40
      match s1.useHandle p.tenant h with
      | (_, some k) => s1.fixPacket p k
      | (k, none) =>
        let r := s1.recipe k
        (s1.setRecipe k { r with released := true, gen := (r.gen + 1) % 256 }).fixPacket p .done 0 0 h
    else if !recipeOk ws then s1.fixPacket p .malformed
    else
      match ((List.range 224).map (32 + ·)).find? fun k => !(s1.recipe k).used with
      | none => s1.fixPacket p .noSpace
      | some k =>
        let r : RecipeSlot := ⟨p.tenant, (s1.recipe k).gen, ws.map (BitVec.ofNat 64), true, false⟩
        (s1.setRecipe k r).fixPacket p .done ws.length 0 (r.handle k)

def execRecipeLoad (id : Nat) (s : State) : Res := .next (s.runLoad id)

/-- Recipe release meets a running iteration: the slot is free once no packet holds it. -/
def State.freeSlot (s : State) (k : Nat) : State :=
  let r := s.recipe k
  if r.used && r.released && !(s.runs.any fun e => e.2.slot = k && (s.packet e.1).isSome)
  then s.setRecipe k { RecipeSlot.init with gen := r.gen } else s

def execRecipeSlotFree (slot : Nat) (s : State) : Res := onUnit (decide (slot < 256)) (s.freeSlot slot)

/-! ## RECIPE_RUN (R132 to R135) -/

def Packet.prms (p : Packet) : List Nat := (List.range 6).map fun i => p.word (48 + 8 * i)

/-- R133, R134: the descriptor and extent of one used slot. -/
def State.slotRefused (s : State) (tenant iters : Nat) (prm ws : List Nat) (slot : Nat) (emit : Bool) : Option KStatus :=
  let v := (prm[slot]?).getD 0
  let ext := slotExtent prm ws slot
  let sp := prmSplit v
  if v / 2 ^ 54 ≠ 0 || (sp ≠ 0 && (sp < 6 || 40 < sp)) || (emit && (sp = 0 || bit v 47)) || (sp ≠ 0 && 2 ^ sp < ext)
  then some .malformed
  else if slotCover iters v ext = 0 then none
  else s.region tenant (prmAddr v) (slotCover iters v ext)

/-- A LOAD slot overlaps an EMIT slot (R134). -/
def slotsClash (iters : Nat) (prm ws : List Nat) : Bool :=
  (loadSlots ws).any fun a => (emitSlots ws).any fun b =>
    let va := (prm[a]?).getD 0
    let vb := (prm[b]?).getD 0
    let xa := prmAddr va
    let xb := prmAddr vb
    decide (xa < xb + slotCover iters vb (slotExtent prm ws b)) && decide (xb < xa + slotCover iters va (slotExtent prm ws a))

def State.runRefused (s : State) (tenant iters : Nat) (prm ws : List Nat) : Option KStatus :=
  firstFail ((if slotsClash iters prm ws then some .malformed else none)
    :: ((loadSlots ws).map fun k => s.slotRefused tenant iters prm ws k false)
    ++ (emitSlots ws).map fun k => s.slotRefused tenant iters prm ws k true)

/-- R218, R537: gathers end UNAVAILABLE when no cluster is left for their rows. -/
def State.starveGathers (s : State) : State :=
  if (s.gatherCluster 0).isSome then s else
  s.packets.foldl (fun t e =>
    if e.2.opcode = 0x33 && e.2.st = .running then t.endGather e.2 .unavailable 0 else t) s

/-- R537: packets with no cluster left that they may use end UNAVAILABLE. -/
def State.starve (s : State) : State :=
  let up := (List.range 8).filter fun c => s.clusterUp c
  let s1 := s.runs.foldl (fun t e =>
    match t.packet e.1 with
    | some p => if p.st = .running && !(up.any fun c => bit e.2.cmask c) then t.fixPacket p .unavailable p.count else t
    | none => t) s
  let s2 := if up.isEmpty then
      s1.attns.foldl (fun t e =>
        match t.packet e.1 with
        | some p => if p.st = .running then t.attnFail p .unavailable 0 e.2.count else t
        | none => t) s1
    else s1
  s2.starveGathers

def State.runRun (s : State) (id : Nat) : State :=
  match s.takeFast id 0x41 with
  | none => s
  | some (s1, p) =>
    match s1.useHandle p.tenant (p.word 32) with
    | (_, some k) => s1.fixPacket p k
    | (k, none) =>
      let steps := (s1.recipe k).steps
      let ws := steps.map (·.toNat)
      let iters := p.field 40 4
      let prm := p.prms
      match s1.runRefused p.tenant iters prm ws with
      | some f => s1.fixPacket p f
      | none =>
        let cores := p.field 45 1
        let (s1, n) := s1.freshId
        let r : Run := ⟨k, n, steps, iters, p.field 44 1, if cores = 0 then 16 else cores, 0, [],
          (List.range 6).map fun i => slotExtent prm ws i, prm⟩
        ({ s1 with runs := tset s1.runs id r }).starve

def execRecipeRun (id : Nat) (s : State) : Res := .next (s.runRun id)

/-! ## Iterations (R108) -/

def State.setCore (s : State) (cl core : Nat) (c : Core) : State := { s with cores := tset s.cores (coreKey cl core) c }
def State.dropCore (s : State) (cl core : Nat) : State := { s with cores := tdel s.cores (coreKey cl core) }

/-- Cores of a cluster that run iterations of a packet. -/
def State.coresOn (s : State) (cl id : Nat) : Nat :=
  ((List.range 16).filter fun k => ((s.coreAt cl k).map fun c => decide (c.pkt = id)) = some true).length

/-- The oldest started packet that a cluster may serve (R108). -/
def State.nextRun (s : State) (cl : Nat) : Option (Nat × Run) :=
  minBy (·.2.start) (s.runs.filter fun e => ((s.packet e.1).map fun p => decide (p.st = .running)) = some true && bit e.2.cmask cl
    && (decide (e.2.next < e.2.iters) || !e.2.redo.isEmpty) && decide (s.coresOn cl e.1 < e.2.cores))

def State.startIteration (s : State) (cl core : Nat) : State :=
  if !s.coreFree cl core then s else
  match s.nextRun cl with
  | none => s
  | some (id, r) =>
    let (i, r1) := match r.redo with
      | j :: js => (j, { r with redo := js })
      | [] => (r.next, { r with next := r.next + 1 })
    let (s1, k) := s.freshId
    ({ s1 with runs := tset s1.runs id r1 }).setCore cl core
      ⟨id, i, k, r.steps, r.prm, r.extents, 0, 0, [], List.replicate 4 Eng.init, false⟩

def execIterationStart (cl core : Nat) (s : State) : Res := onUnit (decide (cl < 8 && core < 16)) (s.startIteration cl core)

/-- R135: an iteration that reached END is counted; the last one commits the packet. -/
def State.endIteration (s : State) (cl core : Nat) : State :=
  match s.coreAt cl core with
  | none => s
  | some c =>
    if !c.ended then s else
    let s1 := ((s.dropCore cl core).fadd F.cnStat_iters [cl] 1).ev 0x405 cl 1
    match s1.packet c.pkt, tfind s1.runs c.pkt with
    | some p, some r =>
      let p1 := { p with count := p.count + 1 }
      if p1.count = r.iters then s1.fixPacket p1 .done p1.count else s1.setPacket p1
    | _, _ => s1

def execIterationDone (cl core : Nat) (s : State) : Res := onUnit (decide (cl < 8 && core < 16)) (s.endIteration cl core)

/-! ## Cluster reset and core enables (R141, R537) -/

/-- A number put in its place in an ascending list. -/
def insertAsc (n : Nat) : List Nat → List Nat
  | [] => [n]
  | m :: r => if n ≤ m then n :: m :: r else m :: insertAsc n r

/-- Iterations of a reset cluster run again elsewhere (Cluster reset meets a RECIPE_RUN). -/
def State.redoCores (s : State) (cl : Nat) : State :=
  (List.range 16).foldl (fun t k =>
    match t.coreAt cl k with
    | none => t.dropCore cl k
    | some c =>
      let t1 := t.dropCore cl k
      match tfind t1.runs c.pkt with
      | some r => { t1 with runs := tset t1.runs c.pkt { r with redo := insertAsc c.iter r.redo } }
      | none => t1) s

/-- Blocks of the reset cluster's engines are dealt again, and its cores are free (Cluster reset meets an attention packet). -/
def AttnRun.undeal (r : AttnRun) (cl : Nat) : AttnRun :=
  let mine := r.accs.filter fun e => e.1 / 64 = cl
  let back := mine.flatMap fun e => e.2.blocks
  { r with accs := r.accs.filter (fun e => e.1 / 64 ≠ cl), queue := back ++ r.queue,
           cores := r.cores.filter (fun e => e.1 / 16 ≠ cl), tokens := r.tokens - sumBy (·.n) back }

def State.undealAttn (s : State) (cl : Nat) : State :=
  s.attns.foldl (fun t e =>
    let r := e.2.undeal cl
    match t.redeal r with
    | some r1 => t.setAttn e.1 r1
    | none => t.setAttn e.1 r) s

def State.clusterReset (s : State) (cl : Nat) : State :=
  let s1 := ({ s with clReset := s.clReset ||| (1 <<< cl) }).redoCores cl
  ((s1.undealAttn cl).fset F.cnStat_iters [cl] 0).starve

def execClusterReset (cl : Nat) (s : State) : Res := onUnit (decide (cl < 8)) (s.ifUp fun t => t.clusterReset cl)

def execClusterResetDone (cl : Nat) (s : State) : Res :=
  onUnit (decide (cl < 8)) { s with clReset := setBits s.clReset cl 1 0 }

/-- R141: new core enables. -/
def State.coreEnable (s : State) (cl mask : Nat) : State := (s.fset F.cnCtl_core_en [cl] mask).starve

def execCoreEnable (cl : Nat) (mask : BitVec 16) (s : State) : Res := onUnit (decide (cl < 8)) (s.ifUp fun t => t.coreEnable cl mask.toNat)

end Sys2Proof.Machine
end

