-- ==== Sys2Proof/Machine/Steps.lean ====
section
/-! DEFINITION. The steps of a recipe on one core (R105, R106, R116 to R128) and the fetches that feed its LOADs. A step is
carried out only when the core's next step has that opcode; each of the core's four engines carries it out. -/
namespace Sys2Proof.Machine

/-! ## Operands (R117) -/

/-- The list as pairs of neighbours. -/
def pairUp {α : Type} : List α → List (α × α)
  | a :: b :: r => (a, b) :: pairUp r
  | _ => []

def lanes : Nat := 512

def Eng.latch (e : Eng) (code : Nat) : List XVal := if code = 0x60 then e.x0 else e.x1

/-- A latch as one element per lane (log entry 24 for a latch loaded in dual mode). -/
def latchRead (x : List XVal) : List XVal :=
  if x.isEmpty then List.replicate lanes XVal.zero
  else if x.length ≤ lanes then x
  else (pairUp x).map fun p => x32 (Config.dualRead (r32 p.1) (r32 p.2)).toNat

/-- A latch as two elements per lane. -/
def latchDual2 (x : List XVal) : List (XVal × XVal) :=
  if lanes < x.length then pairUp x else (latchRead x).map fun v => (v, x32 (Config.dualRead (r32 v) 0).toNat)

def Eng.word (e : Eng) (w : Nat) : List Nat := tget (List.replicate lanes 0) e.words w
def Eng.setWord (e : Eng) (w : Nat) (vs : List Nat) : Eng :=
  { e with words := tput (List.replicate lanes 0) e.words w vs }
def Eng.scalar (e : Eng) (k : Nat) : Nat := tget 0 e.scal k
def Eng.setScalar (e : Eng) (k v : Nat) : Eng := { e with scal := tput 0 e.scal k v }

/-- FP32 word of a constant or scalar code. -/
def Eng.one (e : Eng) (code : Nat) : Nat :=
  if code = 0x7D then 0xFF800000 else if code = 0x7E then 0x3F800000 else if code = 0x7F then 0 else e.scalar (code - 0x40)

/-- The operand of a code in each lane. -/
def Eng.operand (e : Eng) (code : Nat) : List XVal :=
  match opCls code with
  | some .word => (e.word code).map x32
  | some .half => let h := code - 0x20; (e.word (h / 2)).map fun w => bf16.decode (bits w (16 * (h % 2)) 16)
  | some .latch => latchRead (e.latch code)
  | _ => List.replicate lanes (x32 (e.one code))

/-- Values written to a lane word or halfword, rounded once (R111, R112; log entry 23). -/
def Eng.write (e : Eng) (code : Nat) (vs : List XVal) : Eng :=
  if code < 0x20 then e.setWord code (vs.map r32)
  else
    let h := code - 0x20
    e.setWord (h / 2) (((e.word (h / 2)).zip vs).map fun p => setBits p.1 (16 * (h % 2)) 16 (bf16.encode p.2).1)

/-- Code of run j of an operand (R118). -/
def runCode (code : Nat) (inc : Bool) (j : Nat) : Nat := if inc then code + j else code

/-- A step with a repeat count, on one engine. -/
def Eng.runs (e : Eng) (n : Nat) (f : Eng → Nat → Eng) : Eng := (List.range n).foldl f e

/-! ## The sequencer (R127, R128) -/

/-- The core, if its packet runs and its next step has the given opcode. A core whose packet ended is free. -/
def State.atStep (s : State) (cl core op : Nat) (f : Core → Nat → State) : State :=
  match s.coreAt cl core with
  | none => s.dropCore cl core
  | some c => match c.steps[c.pc]? with
    | some w => if !c.ended && stepOp w.toNat = op then f c w.toNat else s
    | none => s

def Core.next (c : Core) : Core := { c with pc := c.pc + 1, rep := 0 }

/-- Step index after the ENDL that closes the loop opened just before index i. -/
def skipLoop : Nat → Nat → List Word → Nat
  | _, i, [] => i
  | d, i, w :: r =>
    if stepOp w.toNat = 1 then skipLoop (d + 1) (i + 1) r
    else if stepOp w.toNat = 2 then (if d = 0 then i + 1 else skipLoop (d - 1) (i + 1) r)
    else skipLoop d (i + 1) r

def Core.loop (c : Core) (w : Nat) : Core :=
  let n := loopCount c.prm w
  if n = 0 then { c with pc := skipLoop 0 (c.pc + 1) (c.steps.drop (c.pc + 1)), rep := 0 }
  else { c.next with loops := ⟨c.pc, n - 1, 0⟩ :: c.loops }

def Core.endl (c : Core) : Core :=
  match c.loops with
  | [] => c.next
  | l :: r => if l.left = 0 then { c.next with loops := r }
    else { c with pc := l.start + 1, rep := 0, loops := { l with left := l.left - 1, idx := l.idx + 1 } :: r }

def State.endStep (s : State) (cl core : Nat) : State :=
  s.atStep cl core 0x00 fun c _ => s.setCore cl core { c with ended := true }
def State.loopStep (s : State) (cl core : Nat) : State :=
  s.atStep cl core 0x01 fun c w => s.setCore cl core (c.loop w)
def State.endlStep (s : State) (cl core : Nat) : State :=
  s.atStep cl core 0x02 fun c _ => s.setCore cl core c.endl

def coreOk (cl core : Nat) : Bool := decide (cl < 8 && core < 16)

def execEndStep (cl core : Nat) (s : State) : Res := onUnit (coreOk cl core) (s.endStep cl core)
def execLoopStep (cl core : Nat) (s : State) : Res := onUnit (coreOk cl core) (s.loopStep cl core)
def execEndlStep (cl core : Nat) (s : State) : Res := onUnit (coreOk cl core) (s.endlStep cl core)

/-! ## Slices and cursors (R133) -/

/-- Slice number of an engine (R108). -/
def Core.slice (c : Core) (e : Nat) : Nat := 4 * c.iter + e

/-- Address at which an engine's slice of a slot begins. -/
def Core.base (c : Core) (e slot : Nat) : Nat :=
  let v := (c.prm[slot]?).getD 0
  prmAddr v + (if prmSplit v = 0 then 0 else c.slice e * 2 ^ prmSplit v)

def Core.extent (c : Core) (slot : Nat) : Nat := (c.extents[slot]?).getD 0

def Core.words (c : Core) : List Nat := c.steps.map (·.toNat)

/-- Unit in which a slot's bytes are held until they are used up: a tile for MX data, else a byte. Where LOADs of different
formats share a slot, tiles are counted from the slice's start, in the size of the format at hand, and bytes are held by the
first MX format (DESIGN CHOICE, log entry 69). -/
def Core.unit (c : Core) (slot : Nat) : Nat :=
  match c.words.find? fun w => stepOp w = 4 && bits w 18 3 = slot && isMx (bits w 13 4) with
  | some w => tileBytes (bits w 13 4)
  | none => 1

/-- Key of a buffered granule: granules are counted from the one that holds the slice's first byte. -/
def bufKey (slot g : Nat) : Nat := 2 ^ 48 * slot + g

/-- Granules of the buffer that one engine has for one source: a quarter of the source's space (R106; DESIGN CHOICE, log entry
69). -/
def Core.share (c : Core) : Nat := if (loadSlots c.words).length ≤ 1 then 128 else 64

def Core.eng (c : Core) (e : Nat) : Eng := (c.engs[e]?).getD Eng.init
def Core.setEng (c : Core) (e : Nat) (x : Eng) : Core := { c with engs := c.engs.set e x }

/-- First granule that the engine still needs of a slot. -/
def Core.needFrom (c : Core) (e slot : Nat) : Nat :=
  let u := c.unit slot
  (c.base e slot % 64 + tget 0 (c.eng e).cur slot / u * u) / 64

/-- Granules of the slice. -/
def Core.granules (c : Core) (e slot : Nat) : Nat := ceilDiv (c.base e slot % 64 + c.extent slot) 64

/-- R201: a run waits on a FETCHING segment, or does not wait on it any more. -/
def State.noteWait (s : State) (id seg : Nat) : State :=
  match s.packet id with
  | some p => if p.waits.contains seg then s else s.setPacket { p with waits := p.waits ++ [seg] }
  | none => s
def State.noWait (s : State) (id seg : Nat) : State :=
  match s.packet id with
  | some p => if p.waits.contains seg then s.setPacket { p with waits := p.waits.filter (· ≠ seg) } else s
  | none => s

/-- R106: a read ahead into space that the source has reserved; one granule for one engine. -/
def State.streamFetch (s : State) (cl core e slot : Nat) : State :=
  match s.coreAt cl core with
  | none => s
  | some c =>
    let x := c.eng e
    let lo := c.needFrom e slot
    let n := min (c.granules e slot - lo) c.share
    if !(loadSlots c.words).contains slot then s else
    match ((List.range n).map (lo + ·)).find? fun g => (tfind x.buf (bufKey slot g)).isNone && !x.asked.contains (bufKey slot g) with
    | none => s
    | some g =>
      let k := bufKey slot g
      let a := 64 * (c.base e slot / 64 + g)
      if bit a 47 then
        match s.tensAt (a % 2 ^ 46) with
        | (t, .got st d) => (t.noWait c.pkt (a % 2 ^ 46 / segBytes)).setCore cl core (c.setEng e { x with buf := tset x.buf k (st, d) })
        | (t, .wait seg) => t.noteWait c.pkt seg
        | (t, .far seg) =>
          let home := (t.seg seg).home + a % segBytes
          (((t.noWait c.pkt seg).setCore cl core (c.setEng e { x with asked := x.asked ++ [k] })).askFar (ftOf seg) home 1
            (.stream cl core e slot g c.run)).pump (ftOf seg)
      else
        let (t, st, _, d) := s.readMem a
        t.setCore cl core (c.setEng e { x with buf := tset x.buf k (st, d) })

def execStreamFetch (cl core e src : Nat) (s : State) : Res :=
  onUnit (coreOk cl core && decide (e < 4 && src < 6)) (s.streamFetch cl core e src)

/-! ## LOAD (R119) -/

/-- Bytes [lo, hi) of the slice, from the buffer: none while some are missing, or the granule that failed. -/
def Core.bytesOf (c : Core) (e slot lo hi : Nat) : Option (Except (PStatus × Nat) Nat) :=
  let o := c.base e slot % 64
  (granulesOf (o + lo) (hi - lo)).foldl (fun a g =>
    match a with
    | some (.ok v) => match tfind (c.eng e).buf (bufKey slot g) with
      | none => none
      | some (.ok, d) =>
        let l := max (o + lo) (64 * g)
        let h := min (o + hi) (64 * g + 64)
        some (.ok (v + (bits d.toNat (8 * (l - 64 * g)) (8 * (h - l)) <<< (8 * (l - (o + lo))))))
      | some (st, _) => some (.error (st, 64 * (c.base e slot / 64 + g)))
    | r => r) (some (.ok 0))

/-- The 512 elements of the quarter of an MX tile at a cursor, with their scales. -/
def Core.quarter (c : Core) (e slot fmt cur : Nat) : Option (Except (PStatus × Nat) (List XVal)) :=
  let tb := tileBytes fmt
  let first := cur % tb / (tb / 4) * 512
  let t0 := cur / tb * tb
  let w := eltBits fmt
  match c.bytesOf e slot (t0 + first * w / 8) (t0 + (first + 512) * w / 8),
      c.bytesOf e slot (t0 + 256 * w + first / 32) (t0 + 256 * w + (first + 512) / 32) with
  | some (.ok d), some (.ok sc) =>
    some (.ok ((List.range 512).map fun i => mxValue fmt (bits d (w * i) w) (bits sc (8 * (i / 32)) 8)))
  | some (.error x), _ => some (.error x)
  | _, some (.error x) => some (.error x)
  | _, _ => none

/-- The elements that one run delivers to an engine, in element order: a quarter of an MX tile, in dual mode the next one too,
from the next tile where the first was the last of its own (R119). -/
def Core.loadElts (c : Core) (e slot fmt : Nat) (dual : Bool) : Option (Except (PStatus × Nat) (List XVal)) :=
  let cur := tget 0 (c.eng e).cur slot
  if isMx fmt then
    match c.quarter e slot fmt cur, if dual then c.quarter e slot fmt (cur + tileBytes fmt / 4) else some (.ok []) with
    | some (.ok a), some (.ok b) => some (.ok (a ++ b))
    | some (.error x), _ => some (.error x)
    | _, some (.error x) => some (.error x)
    | _, _ => none
  else
    let w := eltBits fmt
    match c.bytesOf e slot cur (cur + 64 * w) with
    | some (.ok d) => some (.ok ((List.range lanes).map fun i => (eltFmt fmt).decode (bits d (w * i) w)))
    | some (.error x) => some (.error x)
    | none => none

/-- Index within the slice of the element at a cursor (R124). -/
def eltIndex (fmt cur : Nat) : Nat :=
  if isMx fmt then let tb := tileBytes fmt; cur / tb * 2048 + cur % tb / (tb / 4) * 512 else cur * 8 / eltBits fmt

/-- The run's elements reach their destination and the cursor moves on; used granules leave the buffer. -/
def Core.deliver (c : Core) (e slot fmt dst : Nat) (dual first : Bool) (vs : List XVal) : Core :=
  let x := c.eng e
  let cur := tget 0 x.cur slot
  let x1 := if dst = 0x60 then { x with x0 := vs } else if dst = 0x61 then { x with x1 := vs } else x.write dst vs
  let x2 := { x1 with cur := tput 0 x.cur slot (cur + loadBytes fmt dual), firstElt := if first then eltIndex fmt cur else x.firstElt }
  let c1 := c.setEng e x2
  let lo := c1.needFrom e slot
  c1.setEng e { x2 with buf := x2.buf.filter fun g => !(g.1 / 2 ^ 48 = slot && decide (g.1 % 2 ^ 48 < lo)) }

/-- R135, R143: a LOAD met data that did not come back good. -/
def State.loadFail (s : State) (cl core : Nat) (c : Core) (st : PStatus) (addr : Nat) : State :=
  let firsts := [(F.cnErr_first_core, core), (F.cnErr_first_step, c.pc)]
  let s1 := if st = .poisoned then s.raise 4 F.cnErr_poison [cl] firsts
    else if st = .farErr then s.raise 4 F.cnErr_far_err [cl] firsts else s
  match s1.packet c.pkt with
  | some p => s1.fixPacket p (ofPStatus st) p.count 0 (if bit addr 47 then addr else s1.failAddr addr st)
  | none => s1

/-- One run of a LOAD on all four engines; the core, or the failure, or none while data is missing. -/
def Core.loadRun (c : Core) (w : Nat) : Option (Except (PStatus × Nat) Core) :=
  let slot := bits w 18 3
  let fmt := bits w 13 4
  let dst := runCode (bits w 6 7) (bit w 26) c.rep
  let first := (loadSlots c.words).foldl min 7 = slot
  (List.range 4).foldl (fun a e =>
    match a with
    | some (.ok (d : Core)) => match d.loadElts e slot fmt (bit w 17) with
      | some (.ok vs) => some (.ok (d.deliver e slot fmt dst (bit w 17) first vs))
      | some (.error x) => some (.error x)
      | none => none
    | r => r) (some (.ok c))

/-- As many of the remaining runs as the buffered data allows (R128). -/
def State.loadRuns (s : State) (cl core w : Nat) : Nat → Core → State
  | 0, c => s.setCore cl core c.next
  | k + 1, c => match c.loadRun w with
    | some (.ok c1) => s.loadRuns cl core w k { c1 with rep := c1.rep + 1 }
    | some (.error (st, a)) => s.loadFail cl core c st a
    | none => (s.setCore cl core c).ev 0x401 cl 1

def State.loadStep (s : State) (cl core : Nat) : State :=
  s.atStep cl core 0x04 fun c w => s.loadRuns cl core w (bits w 21 5 + 1 - c.rep) c

def execLoadStep (cl core : Nat) (s : State) : Res := onUnit (coreOk cl core) (s.loadStep cl core)

/-! ## Arithmetic steps (R120 to R124) -/

/-- The lane products of a MAC, exact. -/
def Eng.products (e : Eng) (a b : Nat) (dual : Bool) : List XVal :=
  if dual then ((latchDual2 (e.latch a)).zip (latchDual2 (e.latch b))).map fun p => (p.1.1.mul p.2.1).add (p.1.2.mul p.2.2)
  else ((e.operand a).zip (e.operand b)).map fun p => p.1.mul p.2

/-- R120: one run of a MAC. -/
def Eng.mac (e : Eng) (w j : Nat) : Eng :=
  let a := runCode (bits w 6 7) (bit w 34) j
  let b := runCode (bits w 13 7) (bit w 35) j
  let d := runCode (bits w 20 7) (bit w 36) j
  let ps := e.products a b (bit w 37)
  match bits w 27 2 with
  | 0 => e.write d ((ps.zip (e.operand d)).map fun p => p.1.add p.2)
  | 1 => e.setScalar (d - 0x40) (tree512 ps)
  | 2 => e.setScalar (d - 0x40) (fAdd (e.one d) (tree512 ps))
  | _ => e.write d ps

/-- R121: one run of RMAX. -/
def Eng.rmax (e : Eng) (w j : Nat) : Eng :=
  let src := e.one (runCode (bits w 6 7) (bit w 32) j)
  let m := runCode (bits w 13 7) (bit w 33) j
  let c := runCode (bits w 20 7) (bit w 34) j
  let old := e.one m
  let new := fMax old src
  let corr := if new = old && x32 old ≠ .nan then 0 else fSub old new
  (e.setScalar (c - 0x40) corr).setScalar (m - 0x40) new

/-- R122: one run of EXP. -/
def Eng.exp (e : Eng) (w j : Nat) : Eng :=
  let x := fSub (e.one (runCode (bits w 6 7) (bit w 33) j)) (e.one (runCode (bits w 13 7) (bit w 34) j))
  e.setScalar (runCode (bits w 20 7) (bit w 35) j - 0x40) (expResult (bit w 27) x)

/-- R123: one run of SCALE. -/
def Eng.scale (e : Eng) (w j : Nat) : Eng :=
  let a := runCode (bits w 6 7) (bit w 32) j
  let b := runCode (bits w 13 7) (bit w 33) j
  let d := runCode (bits w 20 7) (bit w 34) j
  let fma := bit w 35
  if opCls d = some .scalar then
    let p := (x32 (e.one a)).mul (x32 (e.one b))
    e.setScalar (d - 0x40) (r32 (if fma then p.add (x32 (e.one d)) else p))
  else
    let ps := e.products a b false
    e.write d (if fma then (ps.zip (e.operand d)).map fun p => p.1.add p.2 else ps)

/-- R124: the scored pair enters the list. -/
def topPut (n : Nat) (l : List (Nat × Nat)) (p : Nat × Nat) : List (Nat × Nat) :=
  if x32 p.1 = .nan then l
  else if l.length < n then rankInsert p l
  else match l.getLast? with
    | some q => if rankAbove p q then rankInsert p l.dropLast else l
    | none => l

def Eng.topn (e : Eng) (w loopIdx slice : Nat) : Eng :=
  let n := bits w 13 6 + 1
  let idx := match bits w 19 2 with
    | 0 => e.firstElt
    | 1 => loopIdx
    | _ => slice
  { e with top := topPut n (if bit w 21 then [] else e.top) (e.one (bits w 6 7), idx % 2 ^ 32), topN := n }

/-- Every engine of the core. -/
def Core.each (c : Core) (f : Nat → Eng → Eng) : Core :=
  { c with engs := (List.range 4).map fun e => f e (c.eng e) }

def State.macStep (s : State) (cl core : Nat) : State :=
  s.atStep cl core 0x08 fun c w =>
    let n := bits w 29 5 + 1
    (s.setCore cl core (c.each fun _ e => e.runs n fun x j => x.mac w j).next).ev 0x403 cl (4 * n)

def State.rmaxStep (s : State) (cl core : Nat) : State :=
  s.atStep cl core 0x09 fun c w => s.setCore cl core (c.each fun _ e => e.runs (bits w 27 5 + 1) fun x j => x.rmax w j).next

def State.expStep (s : State) (cl core : Nat) : State :=
  s.atStep cl core 0x0A fun c w =>
    let n := bits w 28 5 + 1
    (s.setCore cl core (c.each fun _ e => e.runs n fun x j => x.exp w j).next).ev 0x404 cl (4 * n)

def State.scaleStep (s : State) (cl core : Nat) : State :=
  s.atStep cl core 0x0B fun c w => s.setCore cl core (c.each fun _ e => e.runs (bits w 27 5 + 1) fun x j => x.scale w j).next

def State.topnStep (s : State) (cl core : Nat) : State :=
  s.atStep cl core 0x0C fun c w =>
    let i := match c.loops with
      | l :: _ => l.idx
      | [] => 0
    s.setCore cl core (c.each fun k e => e.topn w i (c.slice k)).next

def execMacStep (cl core : Nat) (s : State) : Res := onUnit (coreOk cl core) (s.macStep cl core)
def execRmaxStep (cl core : Nat) (s : State) : Res := onUnit (coreOk cl core) (s.rmaxStep cl core)
def execExpStep (cl core : Nat) (s : State) : Res := onUnit (coreOk cl core) (s.expStep cl core)
def execScaleStep (cl core : Nat) (s : State) : Res := onUnit (coreOk cl core) (s.scaleStep cl core)
def execTopnStep (cl core : Nat) (s : State) : Res := onUnit (coreOk cl core) (s.topnStep cl core)

/-! ## STORE and EMIT (R125, R126) -/

/-- Lane i of a column of the top-N list: below N the list's value, or a free one (log entry 24); from N upward the fill. -/
def topLane (n : Nat) (l : List Nat) (open_ : Nat → Nat) (fill i : Nat) : Nat :=
  if i < n then (l[i]?).getD (open_ i) else fill

def Eng.store (e : Eng) (w : Nat) : Eng :=
  let d := bits w 13 7
  match bits w 20 2 with
  | 0 => e.write d (e.operand (bits w 6 7))
  | 1 =>
    let n := bits w 22 5 + 1
    let vs := (List.range n).map fun i => e.one (bits w 6 7 + i)
    e.setWord d (vs ++ (e.word d).drop n)
  | _ =>
    let sc := (List.range lanes).map (topLane e.topN (e.top.map (·.1)) (fun i => (Config.topScore i).toNat) 0xFF800000)
    let ix := (List.range lanes).map (topLane e.topN (e.top.map (·.2)) (fun i => (Config.topIndex i).toNat) 0xFFFFFFFF)
    (e.setWord d sc).setWord (d + 1) ix

def State.storeStep (s : State) (cl core : Nat) : State :=
  s.atStep cl core 0x10 fun c w => s.setCore cl core (c.each fun _ e => e.store w).next

def execStoreStep (cl core : Nat) (s : State) : Res := onUnit (coreOk cl core) (s.storeStep cl core)

/-- Fields of w bits packed from bit 0. -/
def packBits (w : Nat) (l : List Nat) : Nat := l.foldr (fun v acc => (acc <<< w) + v % 2 ^ w) 0

/-- The list cut into pieces of n. -/
def chunks {α : Type} (n : Nat) : Nat → List α → List (List α)
  | 0, _ => []
  | k + 1, l => if l.isEmpty then [] else l.take n :: chunks n k (l.drop n)

/-- What an EMIT produces: its bytes, whether a NaN or a scale of 0xFF is among them, and the values that saturated. -/
def Eng.emitted (e : Eng) (w : Nat) : Nat × Bool × Nat :=
  let fmt := bits w 25 4
  let vs := (List.range (bits w 11 5 + 1)).flatMap fun k => ((e.word (bits w 6 5 + k)).take (bits w 16 9 + 1)).map x32
  let nan := vs.any fun v => v = .nan
  if isMx fmt then
    (chunks 2048 32 vs).foldr (fun t acc =>
      let bs := (chunks 32 64 t).map (encodeBlock fmt)
      let n := packBits (eltBits fmt) (bs.flatMap (·.2.1)) + (packBits 8 (bs.map (·.1)) <<< (2048 * eltBits fmt))
      ((acc.1 <<< (8 * tileBytes fmt)) + n, acc.2.1 || nan || bs.any (fun b => b.1 = 0xFF), acc.2.2 + sumBy (·.2.2) bs)) (0, false, 0)
  else
    let cs := vs.map (eltFmt fmt).encode
    (packBits (eltBits fmt) (cs.map (·.1)), nan, (cs.filter (·.2)).length)

/-- One engine's EMIT: the state, the core with the cursor moved, or the failure. -/
def State.emitEng (s : State) (cl core w : Nat) (c : Core) (e : Nat) : State × Core × PStatus × Nat :=
  let x := c.eng e
  let slot := bits w 29 3
  let cur := tget 0 x.cur slot
  let (n, nan, sat) := x.emitted w
  let firsts := [(F.cnErr_first_core, core), (F.cnErr_first_step, c.pc)]
  let s1 := if nan then s.raise 4 F.cnErr_nan_out [cl] firsts else s
  let s2 := if sat = 0 then s1 else (s1.raise 4 F.cnErr_sat [cl] firsts).fsat F.cnSatCnt_count [cl] sat
  let (s3, st, o) := s2.writeBytes (c.base e slot + cur) (emitBytes w) n (clusterClass cl)
  (s3, c.setEng e { x with cur := tput 0 x.cur slot (cur + emitBytes w) }, st, c.base e slot + cur + o)

def State.emitStep (s : State) (cl core : Nat) : State :=
  s.atStep cl core 0x11 fun c w =>
    let (t, c1, st, a) := (List.range 4).foldl (fun (x : State × Core × PStatus × Nat) e =>
      if x.2.2.1 = .ok then x.1.emitEng cl core w x.2.1 e else x) (s, c, .ok, 0)
    if st = .ok then t.setCore cl core c1.next
    else match t.packet c.pkt with
      | some p => t.fixPacket p (ofPStatus st) p.count 0 a
      | none => t

def execEmitStep (cl core : Nat) (s : State) : Res := onUnit (coreOk cl core) (s.emitStep cl core)

end Sys2Proof.Machine
end

