-- ==== Sys2Proof/Machine/FarCmds.lean ====
section
/-! DEFINITION. The commands of the far tier (R48, R60, R61, R198, R199): responses, timeouts, credits, and the start and
the end of a segment fetch. Far-tier port FT0 or FT1 is port 24 or 25. -/
namespace Sys2Proof.Machine

/-- The request that holds a tag of a far-tier port. -/
def State.farReq (s : State) (ft tag : Nat) : Option FarReq := s.far.find? fun r => r.ft = ft && 0 < r.tries && r.tag = tag

def State.dropFar (s : State) (r : FarReq) : State := { s with far := s.far.filter (· ≠ r) }

/-- Granules reach a core's stream buffer (R106, R133). -/
def State.streamIn (s : State) (cl core e slot g run : Nat) (st : PStatus) (d : Granule) : State :=
  match s.coreAt cl core with
  | none => s
  | some c =>
    let k := bufKey slot g
    let x := c.eng e
    if c.run ≠ run then s
    else s.setCore cl core (c.setEng e { x with buf := tset x.buf k (st, d), asked := x.asked.filter (· ≠ k) })

/-- A granule reaches a packet that reads past the pools (R197). -/
def State.unitIn (s : State) (id g : Nat) (st : PStatus) (d : Granule) : State :=
  match tfind s.packets id with
  | none => s
  | some p =>
    if p.st ≠ .running then s
    else { s with packets := tset s.packets id { p with got := tset p.got g (st, d), asked := p.asked.filter (· ≠ g) } }

/-- The data of a response goes to its destination; none while a fetch block is not accepted. -/
def State.farDeliver (s : State) (r : FarReq) (poison : Bool) (data : List Granule) : Option State :=
  let st := if poison then PStatus.poisoned else .ok
  let d := (data[0]?).getD 0
  match r.dest with
  | .fetch seg b => s.blockIn seg b poison data
  | .pass port id i => some (s.passIn port id i poison data r.len)
  | .stream cl core e slot g run => some ((s.streamIn cl core e slot g run st d).ev 0x603 0 1)
  | .unit id g => some ((s.unitIn id g st d).ev 0x603 0 1)

/-- R60: a response of the home agent. -/
def State.farResponse (s : State) (ft tag : Nat) (poison : Bool) (data : List Granule) : State :=
  match s.farReq ft tag with
  | none => s
  | some r =>
    if (s.port (24 + ft)).st ≠ .ready then s else
    match s.farDeliver r poison data with
    | some t => (t.dropFar r).pump ft
    | none => s

def execFarResponse (ft tag : Nat) (poison : Bool) (data : List Granule) (s : State) : Res :=
  onUnit (decide (ft < 2)) (s.farResponse ft tag poison data)

/-- R61: the originator of a request learns of FAR_ERR. -/
def State.farFailed (s : State) (r : FarReq) : State :=
  match r.dest with
  | .fetch seg _ => s.fetchFailed seg
  | .pass port id i =>
    (List.range r.len).foldl (fun u k => u.setPart port id (i + k) (Part.finish .farErr 0 0)) s
  | .stream cl core e slot g run => s.streamIn cl core e slot g run .farErr 0
  | .unit id g => s.unitIn id g .farErr 0

/-- R61: no response within tmo_us: up to three further attempts, then FAR_ERR and a ledger record. While the port is not READY
or holds no header credit no attempt is made and the request does not end (DESIGN CHOICE, log entry 66). -/
def State.farTimeout (s : State) (ft tag : Nat) : State :=
  let n := 24 + ft
  let p := s.port n
  match s.farReq ft tag with
  | none => s
  | some r =>
    if r.tries < 4 then
      if p.st ≠ .ready || p.hdrHeld = 0 then s else
      let r1 := { r with tries := r.tries + 1, sent := s.clk.now }
      let s1 := ({ s with far := s.far.map fun q => if q = r then r1 else q }).setPort n { p with hdrHeld := p.hdrHeld - 1 }
      ((s1.emit (.farRead n tag r.addr r.len)).ev 0x800 n 1).ev 0x801 n 1
    else
      let s1 := ((s.dropFar r).raise 6 F.glPortErr_far_err [n] [(F.glPortErr_first_tag, tag), (F.glPortErr_first_kind, 0)]).log
        .farErr n r.tries 0 r.addr
      (s1.farFailed r).pump ft

def execFarTimeout (ft tag : Nat) (s : State) : Res := onUnit (decide (ft < 2)) (s.farTimeout ft tag)

/-- R48: the home agent returns credits. -/
def State.farCredits (s : State) (ft hdr wdat : Nat) : State :=
  let n := 24 + ft
  let p := s.port n
  if p.st ≠ .ready then s
  else (s.setPort n { p with hdrHeld := p.hdrHeld + hdr, wdatHeld := p.wdatHeld + wdat }).pump ft

def execFarCreditReturn (ft hdr wdat : Nat) (s : State) : Res := onUnit (decide (ft < 2)) (s.farCredits ft hdr wdat)

/-! ## Fetches (R198, R199) -/

/-- A fetch takes its place among the running ones: its 512 READs are asked for in the order of R198. -/
def State.beginFetch (s : State) (f : Fetch) : State :=
  let home := (s.seg f.seg).home
  let s1 := ({ s with fetches := s.fetches ++ [f] }).snoopFetch f.seg
  ((List.range 512).foldl (fun u i =>
    let b := (f.start + i) % 512
    u.askFar (ftOf f.seg) (home + 4096 * b) 64 (.fetch f.seg b)) s1).pump (ftOf f.seg)

/-- The segment becomes FETCHING in a frame (R196, R198). -/
def State.holdFrame (s : State) (seg : Nat) (k : FetchKind) (pf : Nat × Nat) : State :=
  s.setSeg seg { s.seg seg with st := .fetching, pool := pf.1, frame := pf.2, ref := decide (k = .prefetch) }

/-- R197: no pool yields a frame. Parked reads and packets that read the segment pass through; a TENSOR_PIN waits on. -/
def State.noFrame (s : State) (f : Fetch) : State :=
  let s1 := (s.parkedOn f.seg).foldl (fun u x => u.passThrough x.1 x.2.1 x.2.2) s
  let pin := s1.packets.any fun e => e.2.waits.contains f.seg && e.2.opcode = 0x31 && e.2.st = .running
  let s2 := { s1 with packets := tmap s1.packets fun _ p =>
    if p.waits.contains f.seg && p.opcode ≠ 0x31 then { p with pass := f.seg :: p.pass } else p }
  if pin then { s2 with demandQ := s2.demandQ ++ [f] } else s2

/-- R199: requests that wait for their space or a credit go out first; then the next waiting fetch starts. A frame reserved by a TENSOR_PIN is used as it is. -/
def State.startFetch (s' : State) : State :=
  let s := (s'.pump 0).pump 1
  if s.fget F.trCfg_max_fetch ≤ s.fetches.length then s else
  match s.demandQ with
  | f :: r =>
    let s0 := { s with demandQ := r }
    let e := s.seg f.seg
    if s.dirDown f.seg then s0
    else if e.st = .fetching then s0.beginFetch f
    else if e.st ≠ .far then s0
    else match s0.takeFrame f.seg (s0.victimFor f.seg .demand) with
      | (t, some pf) => (t.holdFrame f.seg .demand pf).beginFetch f
      | (t, none) => t.noFrame f
  | [] =>
    match s.prefetchQ with
    | [] => s
    | n :: r =>
      let s0 := { s with prefetchQ := r }
      if s.dirDown n || (s.seg n).st ≠ .far then s0
      else match s0.takeFrame n (s0.victimFor n .prefetch) with
        | (t, some pf) => (t.holdFrame n .prefetch pf).beginFetch ⟨n, .prefetch, 0, 0⟩
        | (t, none) => t.ev 0x605 0 1

def execSegmentFetchStart (s : State) : Res := .next s.startFetch

/-- R198: every granule has been accepted; the segment is LOCAL at a single update. -/
def State.fetchDone (s : State) (seg : Nat) : State :=
  match s.fetches.find? fun f => f.seg = seg with
  | none => s
  | some f =>
    if f.got % 2 ^ 512 ≠ 2 ^ 512 - 1 then s else
    let s1 := s.releaseParked seg
    let s2 := (({ s1 with fetches := s1.fetches.filter fun f => f.seg ≠ seg }).snoopEnd 2 seg).setSeg seg
      { s1.seg seg with st := .loc }
    let s3 := s2.packets.foldl (fun t e => if e.2.opcode = 0x41 then t.noWait e.1 seg else t) s2
    s3.ev 0x602 0 1

def execSegmentFetchDone (seg : Nat) (s : State) : Res := onUnit (decide (seg < numSegs)) (s.fetchDone seg)

end Sys2Proof.Machine
end

