-- ==== Sys2Proof/Machine/Offline.lean ====
section
/-! DEFINITION. What the package sees of a stack that goes offline (R177, R219, R233, R244, R245 steps 1 and 2, R444, R445):
the queues of its pseudo-channels, its pools, its lodging frames and the packets that need them. -/
namespace Sys2Proof.Machine

/-! ## Queues (R245 step 2) -/

/-- One copy of a merging write is lost: the other copy decides, if there is one. -/
def State.mergeLost (s : State) (src : Src) (pc : Nat) : State :=
  match src with
  | .part n id i => s.setPart n id i fun p =>
      if p.copies ≤ 1 then Part.finish .unavailable pc 0 p
      else
        let q := { p with pend := p.pend - 1, copies := p.copies - 1 }
        if q.pend = 0 && q.todo.isEmpty then
          { q with st := .done, status := if q.bad ≥ q.copies then .poisonMerge else .ok } else q
  | .none => s

/-- R396, R408: a request that met a stack reset is not measured. -/
def State.meetOff (s : State) (n id : Nat) : State :=
  match s.findReq n id with
  | some r => s.setReq n { r with unbound := true }
  | none => s

/-- A read whose entry is lost: from the partner of a mirrored group, or UNAVAILABLE (R245, R262). -/
def State.readLost (s0 : State) (e : Ent) : State :=
  let s := match e.src with
    | .part n id _ => s0.meetOff n id
    | .none => s0
  match e.src with
  | .part n id i =>
    match s.partnerOf e.place with
    | some q =>
      if (s.pcDown q.pc).isNone then s.setPart n id i fun p => { p with st := .wait, todo := [q] }
      else s.deliver e.src .unavailable e.place.pc 0
    | none => s.deliver e.src .unavailable e.place.pc 0
  | .none => s

/-- The queues of a pseudo-channel are emptied: reads are answered, writes that have not drained are dropped. -/
def State.dropQueues (s : State) (pc : Nat) : State :=
  let p := s.pcc pc
  if p.rq.isEmpty && p.wq.isEmpty && p.mb.isEmpty then s else
  let s1 := s.setPcc pc { p with rq := [], wq := [], mb := [], ret := [] }
  let s2 := (p.rq.filter Ent.isRead).foldl (fun t e =>
    (if e.kind = .atomicRead then t.mateWrite e.place fun _ => none else t).readLost e) s1
  p.mb.foldl (fun t m => m.srcs.foldl (fun u src => u.mergeLost src pc) t) s2

/-- A copy that waits for admission to a lost stack: the other copy serves, if there is one (R262). -/
def State.rerouteCopy (s : State) (k : Nat) (rd : Bool) (p : Part) : Part :=
  if p.st ≠ .wait || !(p.todo.any fun pl => pl.pc / 64 = k) then p else
  let lost := p.todo.filter fun pl => pl.pc / 64 = k
  let rest := p.todo.filter fun pl => pl.pc / 64 ≠ k
  if rd then
    match lost.head?.bind s.partnerOf with
    | some q => if (s.pcDown q.pc).isNone then { p with todo := [q] } else p
    | none => p
  else if rest.isEmpty && p.copies ≤ lost.length then p
  else
    let q : Part := { p with todo := rest, copies := p.copies - lost.length }
    if rest.isEmpty then (if q.pend = 0 then { q with st := .done } else { q with st := .queued }) else q

/-- Every granule that waits for admission to a lost stack. -/
def State.reroute (s : State) (k : Nat) : State :=
  s.ports.foldl (fun t e => e.2.reqs.foldl (fun u r =>
    if r.stage ≠ .issued || r.tens.isSome then u else
    let rd := r.kind = .read || r.kind = .atomic
    let u := if r.parts.any (fun p => p.st = .wait && p.todo.any fun pl => pl.pc / 64 = k) then u.meetOff e.1 r.id else u
    (List.range r.parts.length).foldl (fun v i => v.setPart e.1 r.id i (v.rerouteCopy k rd)) u) t) s

/-- A pseudo-channel controller after a reset of its stack: the history of its bucket stays (R324, R345). -/
def Pcc.restart (p : Pcc) : Pcc :=
  { Pcc.init with nextSeq := p.nextSeq, turns := 0, ovfAt := p.ovfAt }

/-! ## Pools (R219) -/

/-- A segment loses its frame. A pinned one is fetched again; a fetch is restarted. -/
def State.loseFrame (s : State) (g : Nat) : State :=
  let e := s.seg g
  if e.st = .fetching then
    match s.fetches.find? fun f => f.seg = g with
    | some f =>
      let s1 := (s.stopFetch g).dropSeg g
      { s1 with demandQ := ⟨g, .demand, f.start, 0⟩ :: s1.demandQ.filter (·.seg ≠ g) }
    | none => s.dropSeg g
  else
    let s1 := s.dropSeg g
    if e.pin then s1.demandFetch g 0 else s1

/-- Segments of pool k whose frame number reaches a limit lose their frames. -/
def State.losePool (s : State) (k lo : Nat) : State :=
  s.dir.foldl (fun t e =>
    if (e.2.st = .loc || e.2.st = .fetching) && e.2.pool = k && decide (lo ≤ e.2.frame) then t.loseFrame e.1 else t) s

/-! ## Lodging (R149, R177) -/

/-- Pseudo-channels under a root or pool descriptor. -/
def State.coverOf (s : State) (root : Nat) : List Nat :=
  (s.descs.filter fun e => e.2.valid && e.2.kind = 0 && (e.1 = root || s.reaches 7 root e.1)).flatMap fun e => e.2.cover

/-- Streams that lose pages become DEGRADED (R177, R333). -/
def State.degrade (s : State) (k lo : Nat) : State :=
  (s.streamsOn k lo).foldl (fun t id =>
    match t.stream id with
    | some st => if st.st = .opened then t.setStream id { st with st := StreamSt.degraded } else t
    | none => t) s

/-- The lodging pools whose pages are lost with stack k: its own, and a mirrored one when both stacks of its pair are gone
(R147, R177). -/
def poolsLost (mirror gone : Nat → Bool) (k : Nat) : List Nat :=
  [k, (k + 4) % 8].filter fun p => if mirror p then gone k && gone ((k + 4) % 8) else decide (p = k)

/-- R177: streams with pages on a lost pool become DEGRADED, and the loss walk starts. -/
def State.loseLodging (s : State) (mirror gone : Nat → Bool) (k : Nat) : State :=
  (poolsLost mirror gone k).foldl (fun t p =>
    let s1 := t.degrade p 0
    if s1.lgWalk.contains p then s1 else { s1 with lgWalk := s1.lgWalk ++ [p] }) s

def State.poolMirror (s : State) (p : Nat) : Bool := s.fget F.lgPoolCfg_mirror [p] = 1

/-- R149: both stacks of the metadata pair are offline. -/
def State.loseMeta (s : State) (desc : Nat) (gone : Nat → Bool) : State :=
  let ks := ((s.coverOf desc).map (· / 64)).eraseDups
  if ks.isEmpty || !ks.all gone then s
  else s.streams.foldl (fun t e => if e.2.st = .metaLost then t else t.setStream e.1 { e.2 with st := .metaLost }) s

/-- R179: attention packets whose pages lie on the lost pool end UNAVAILABLE. -/
def State.loseAttn (s : State) (k : Nat) : State :=
  if s.fget F.lgPoolCfg_mirror [k] = 1 && s.stackUp ((k + 4) % 8) then s else
  s.attns.foldl (fun t e => match t.packet e.1 with
    | some p => if bit e.2.pools k && p.st ≠ .fixed then t.attnFail p .unavailable 0 e.2.count else t
    | none => t) s

/-- R219: both copies of a directory quarter are offline: reads and residency packets that wait on its segments end
UNAVAILABLE. -/
def State.dirLost (s : State) (k : Nat) : State :=
  if !s.dirDown k then s else
  let mine := fun (g : Nat) => decide (g % 4 = k % 4)
  let segs := (s.ports.flatMap fun e => e.2.reqs.filterMap fun r => match r.stage with
    | .parked g => if mine g then some g else none
    | _ => none).eraseDups
  (segs.foldl (fun t g => t.endParked g .unavailable) s |> fun t => t.packets.foldl (fun u e =>
    if e.2.st = .running && e.2.waits.any mine then
      (if e.2.opcode = 0x33 then u.endGather e.2 .unavailable 0 else u.fixPacket e.2 .unavailable e.2.count)
    else u) t)

/-! ## Steps 1 and 2 of R245 -/

/-- R331, Retirement meets a stack reset: the RETIRE of a stack that resets ends, and the retirement stays pending. -/
def State.stopRetire (s : State) (k : Nat) : State :=
  let s1 := s.retPend.foldl (fun t e => match e.packet with
    | some id => if e.pc / 64 = k then (match t.packet id with
        | some p => t.fixPacket p .unavailable 0
        | none => t) else t
    | none => t) s
  { s1 with retPend := s1.retPend.map fun e => if e.pc / 64 = k then { e with packet := none, noMove := true } else e }

/-- A stack leaves service with a cause (R244, R245, R445). -/
def State.stackOff (s : State) (k cause : Nat) : State :=
  let was := s.stackUp k
  let s0 := s.localReset .stack k
  let s1 := ((s0.fset F.scLinkStat_state [k] 1).fset F.scLinkStat_cause [k] cause).fsat F.scLinkStat_resets [k] 1
  let s2 := (s1.log .stackOff k cause).raise 4 F.pkInt_stack_off [] [(F.pkInt_first_stack, k)]
  let s3 := if was && !s2.stackUp ((k + 4) % 8) then s2.raise 4 F.pkInt_pair_down [] [(F.pkInt_first_stack, k)] else s2
  let l := tget Link.init s3.links k
  let s3 := s3.resetArb k
  let s4 := { s3 with links := tput Link.init s3.links k { Link.init with lanes := l.lanes }, returns := tdel s3.returns k }
  let s5 := ((List.range 64).foldl (fun t i => t.dropQueues (64 * k + i)) s4).reroute k
  let s6 := { s5 with pccs := tmap s5.pccs fun pc p => if pc / 64 = k then p.restart else p }
  let s7 := ((((s6.losePool k 0).loseLodging s6.poolMirror (fun p => !s6.stackUp p) k).loseMeta (s6.lgDesc metaPool)
    fun p => !s6.stackUp p).loseAttn k).dirLost k
  (s7.stopRetire k).ocRecompute.regrade k

end Sys2Proof.Machine
end

