-- ==== Sys2Proof/Machine/Repair.lean ====
section
/-! DEFINITION. The repair ladder and retirement (R324 to R334, R451) and the scrubs (R335 to R338). -/
namespace Sys2Proof.Machine

/-! ## Rows of a bank as the stack stores them -/

/-- One sector stored with fresh check bytes for its place, or as poison (R306, R310). -/
def State.writeStored (s : State) (pc bank row col : Nat) (d : Option (List Byte)) : State :=
  s.putRaw pc bank row col (encodeSector (coordA pc bank row col (s.epoch pc)) d.isNone (sectorOf (d.getD [])))

/-- One stored sector read through the decoder: its stored bytes, or none for poison or a UE, which is left as poison (R313,
R326). -/
def State.readStored (s : State) (pc bank row col : Nat) : State × Option (List Byte) :=
  let a := coordA pc bank row col (s.epoch pc)
  match decodeSector a (s.rawSector pc bank row col) with
  | (.clean, d) => (s, some d)
  | (.ce n, d) => (s.countCe pc a (some n), some d)
  | (.poison, _) => (s.fsat F.pcEccCnt_poison_rd [pc / 64, pc % 64] 1, none)
  | (.ue, _) => ((s.countUe pc a).writeStored pc bank row col none, none)

/-- A row's 32 sectors copied to another row of its bank (R326, R327). -/
def State.copyRow (s : State) (pc bank src dst : Nat) : State :=
  (List.range 32).foldl (fun t c =>
    let (u, d) := t.readStored pc bank src c
    u.writeStored pc bank dst c d) s

/-- The ladder's jobs that remain when some are taken away. -/
def State.dropJobs (s : State) (t : LadderJob → Bool) : State := { s with ladder := s.ladder.filter fun j => !t j }

/-- The remap entry of a row (R325). -/
def State.remapOf (s : State) (pc bank row : Nat) : Option (Nat × Remap) :=
  s.remaps.find? fun e => e.1 / 4096 = pc / 64 && e.2.pc = pc % 64 && e.2.bank = bank && e.2.row = row

/-- Repairs on record for a stack. -/
def State.repairsOf (s : State) (k : Nat) : List Repair := tget [] s.repairs k
def State.setRepairs (s : State) (k : Nat) (l : List Repair) : State := { s with repairs := tput [] s.repairs k l }

/-- Rows of a bank that are remapped or repaired (R324, level 3). -/
def State.bankRepairs (s : State) (pc bank : Nat) : Nat :=
  (s.remaps.filter fun e => e.1 / 4096 = pc / 64 && e.2.pc = pc % 64 && e.2.bank = bank).length
    + ((s.repairsOf (pc / 64)).filter fun r => r.pc = pc % 64 && r.bank = bank).length

/-- Pseudo-channels of a channel in service. -/
def State.channelPcs (s : State) (k c : Nat) : List Nat :=
  [64 * k + 2 * c, 64 * k + 2 * c + 1].filter fun pc => !s.retired pc

/-- R238: no more than three refreshes postponed. -/
def State.debtOk (s : State) (k c : Nat) : Bool :=
  (s.channelPcs k c).all fun pc => (s.pcc pc).banks.all fun e => decide (e.2.debt ≤ 3)

/-- A pseudo-channel that maintenance can act on. -/
def State.inService (s : State) (pc : Nat) : Bool := s.link (pc / 64) = 3 && !s.retired pc

/-! ## Level 1 (R325, R326) -/

/-- The entry and the reserve row that a remap would take. -/
def State.remapRoom (s : State) (pc bank row : Nat) : Option (Nat × Nat) :=
  if 0x5FFC ≤ row then none else
  match (List.range 4096).find? (fun i => (tfind s.remaps (4096 * (pc / 64) + i)).isNone),
    (List.range 4).find? (fun j => !(s.remaps.any fun e =>
      e.1 / 4096 = pc / 64 && e.2.pc = pc % 64 && e.2.bank = bank && e.2.spare = j)) with
  | some i, some j => some (i, j)
  | _, _ => none

/-- Row remap: the row's requests are finished first, its sectors go to the reserve row, and the entry is set. -/
def State.remapRow (s : State) (pc bank row : Nat) : Option State :=
  match s.remapRoom pc bank row with
  | none => none
  | some (i, j) =>
    let k := pc / 64
    let s1 := (s.settle pc (fun q => q.bank = bank && q.row = row) 512).copyRow pc bank row (0x5FFC + j)
    let s2 := { s1 with remaps := tset s1.remaps (4096 * k + i) ⟨pc % 64, bank, row, j, false⟩ }
    let s3 := (s2.dropJobs (· = .row pc bank row)).log .rowRemap k (pc % 64) i (coordA pc bank row 0 (s.epoch pc))
    some (if s.fget F.scEccCfg_bank_thr [k] ≤ s3.bankRepairs pc bank then s3.addJob (.bank pc bank) else s3)

/-- R324: level 1 on the row of a pending trigger; where it cannot act, level 3 is next. -/
def State.rowStep (s : State) (pc bank row : Nat) : State :=
  if !s.ladder.contains (.row pc bank row) || !s.inService pc || !s.i3up then s
  else if (s.remapOf pc bank row).isSome then s.dropJobs (· = .row pc bank row)
  else match s.remapRow pc bank row with
    | some t => t
    | none =>
      let s1 := (s.dropJobs (· = .row pc bank row)).addJob (.bank pc bank)
      s1.raise 5 F.scEccInt_remap_full [pc / 64] [(F.scEccInt_first_pc, pc % 64)]

def execRowRemap (k p bank row : Nat) (s : State) : Res :=
  onUnit (decide (k < 8 && p < 64 && bank < 64 && row < 24576)) (s.rowStep (64 * k + p) bank row)

/-! ## Level 2 (R247, R327) -/

/-- Soft spare rows left in a bank. -/
def State.softLeft (s : State) (k pc bank : Nat) : Nat :=
  Config.softSpares k - ((s.repairsOf k).filter fun r => r.pc = pc && r.bank = bank && !r.hard).length

/-- Soft repair of a remapped row: the data goes back to the original row, the entry is freed, and the row is on record,
marked for hardening (R324, R327). -/
def State.softRepair (s : State) (k idx : Nat) : Option State :=
  match tfind s.remaps (4096 * k + idx) with
  | none => none
  | some e =>
    let pc := 64 * k + e.pc
    if !s.inService pc || s.softLeft k e.pc e.bank = 0 then none else
    let s1 := (s.settle pc (fun q => q.bank = e.bank && q.row = e.row) 512).copyRow pc e.bank (0x5FFC + e.spare) e.row
    let s2 := { s1 with remaps := tdel s1.remaps (4096 * k + idx) }
    some ((s2.setRepairs k (s2.repairsOf k ++ [⟨e.pc, e.bank, e.row, true, false⟩])).log .softRepair k e.pc e.bank e.row)

/-- The repair pass holds the maintenance port as the training sequencer, and starts as a retraining pass does (R238, R239, R287):
while a refresh of the channel is postponed more than three times, or the port is not free, it waits. -/
def State.softPass (s : State) (k idx : Nat) : State :=
  match tfind s.remaps (4096 * k + idx) with
  | none => s
  | some e => if (s.softRepair k idx).isNone || !s.debtOk k (e.pc / 2) || !s.i3up then s
    else s.withPort k 1 fun t => (t.softRepair k idx).getD t

def execSoftRepair (k idx : Nat) (s : State) : Res := onUnit (decide (k < 8 && idx < 4096)) (s.softPass k idx)

/-! ## Level 3 (R328, R329) -/

/-- Places of waiting granules follow the redirect of a bank that has been spared since. -/
def State.rePlace (s : State) : State :=
  { s with ports := tmap s.ports fun _ p =>
      { p with reqs := p.reqs.map fun (r : PortReq) =>
          { r with parts := r.parts.map fun (x : Part) =>
              { x with todo := x.todo.map fun (pl : Place) =>
                  (s.redirect pl.root pl.key pl.tpc pl.opc pl.tbank pl.trow pl.tcol pl.mirror).getD pl } } } }

/-- Slices of a system group. -/
def State.slices (s : State) (k : Nat) : Nat := (s.desc k).members.length

/-- Offset of spare area i of a host system group of n slices, MiB: directly below the reserve of R325. -/
def spareBase (n i : Nat) : Nat := 31 * n / 4 - 24 * (i + 1)

/-- R328: the spare number and base that sparing a bank would take. -/
def State.spareRoom (s : State) (pc bank : Nat) : Option (Nat × Nat) :=
  let k := pc / 64
  let h := (k + 4) % 8
  if !s.stackUp h || decide (s.slices h < 24) || (s.spareOf pc bank).isSome
    || (tfind s.spares (2 * h)).isSome || (tfind s.spares (2 * h + 1)).isSome then none
  else ([0, 1].find? fun i => (tfind s.spares (2 * k + i)).isNone).map fun i => (i, spareBase (s.slices h) i)

/-- The bank's rows copied into the spare area in ascending order, re-encoded, poison carried. -/
def State.copyBank (s : State) (pc bank base : Nat) : State :=
  (List.range 24576).foldl (fun t row => (List.range 16).foldl (fun u c =>
    match u.walkFrom ((pc / 64 + 4) % 8) (2 ^ 20 * base + row * 1024 + c * 64) with
    | none => u
    | some w =>
      let (b', r', c') := dramCoord 0 w.off
      [0, 1].foldl (fun v h =>
        let (x, d) := v.readStored pc bank (v.issuedRow pc bank row) (2 * c + h)
        x.writeStored w.pc b' (x.issuedRow w.pc b' r') (2 * c' + h) d) u) t) s

/-- R329: the bank is spared: its queued work ends, it is copied (a host in self-refresh wakes), its remap entries are freed and the redirect stands. -/
def State.spareBank (s : State) (pc bank : Nat) : Option State :=
  match s.spareRoom pc bank with
  | none => none
  | some (i, base) =>
    let k := pc / 64
    let s1 := ((s.wake ((k + 4) % 8)).settle pc (fun q => q.bank = bank) 512).copyBank pc bank base
    let mine := fun (key : Nat) (e : Remap) => key / 4096 = k && e.pc = pc % 64 && e.bank = bank
    let s2 := { s1 with remaps := tfilter s1.remaps fun key e => !mine key e
                        spares := tset s1.spares (2 * k + i) ⟨2, pc % 64, bank, base⟩ }
    let gone := fun (j : LadderJob) => match j with
      | .row q b _ => q = pc && b = bank
      | .bank q b => q = pc && b = bank
      | _ => false
    let s3 := ((s2.dropJobs gone).rePlace.raise 5 F.scEccInt_spare_used [k] [(F.scEccInt_first_pc, pc % 64)]).log
      .bankSpare k (pc % 64) bank base
    some (s3.regrade k)

/-- R324: level 3 on a bank whose trigger stands; where it cannot act, level 4 is next. -/
def State.bankStep (s : State) (pc bank : Nat) : State :=
  let due := s.ladder.contains (.bank pc bank) || decide (s.fget F.scEccCfg_bank_thr [pc / 64] ≤ s.bankRepairs pc bank)
  if !due || !s.inService pc || !s.i3up then s
  else if (s.spareOf pc bank).isSome then s.dropJobs (· = .bank pc bank)
  else match s.spareBank pc bank with
    | some t => t
    | none => (s.dropJobs (· = .bank pc bank)).addJob (.retire pc false)

def execBankSpare (k p bank : Nat) (s : State) : Res :=
  onUnit (decide (k < 8 && p < 64 && bank < 64)) (s.bankStep (64 * k + p) bank)

/-! ## Level 4: retirement (R330 to R333) -/

/-- Pseudo-channels that would leave with a set: those of banks that are spared into a system group which the retirement
leaves too small (R329). -/
def State.retireSet (s : State) (pcs : List Nat) : List Nat :=
  let ks := (pcs.map (· / 64)).eraseDups
  let more := ks.flatMap fun k =>
    let left := (s.slices k) - (pcs.filter fun p => p / 64 = k && !s.retired p).length
    if left < 24 then [0, 1].filterMap fun i =>
      (tfind s.spares (2 * ((k + 4) % 8) + i)).map fun e => 64 * ((k + 4) % 8) + e.pc
    else []
  (pcs ++ more).eraseDups

/-- Client and pool roots that a retirement rewrites, with those that hold a spared bank on a shrinking system group. -/
def State.rewritten (s : State) (pcs : List Nat) : List Nat :=
  let ks := (pcs.map (· / 64)).eraseDups
  let hosted := ks.flatMap fun k => [0, 1].filterMap fun i =>
    (tfind s.spares (2 * ((k + 4) % 8) + i)).map fun e => 64 * ((k + 4) % 8) + e.pc
  (((pcs ++ hosted).flatMap s.rootsOf).filter (8 ≤ ·)).eraseDups

/-- The map after the retirement: descriptors without the pseudo-channels, their NVM copy, and spare areas at their new offsets (R267,
R295, R333). -/
def State.mapRetired (s : State) (pcs : List Nat) : State :=
  let u := s.mapWithout pcs
  let t := if s.fget F.glMapCtl_applied = 1 then u.copyMap else u
  { t with spares := tmap t.spares fun key e => { e with base := spareBase (t.slices ((key / 2 + 4) % 8)) (key % 2) } }

/-- A granule at its old place: both sectors in plain form, or none where it cannot be read. -/
def State.takeOld (s : State) (dead : List Nat) (root x : Nat) : State × List (Option SectorData) :=
  match (s.copies root x).filter fun p => (s.pcDown p.pc).isNone && !dead.contains p.opc with
  | [] => (s, [none, none])
  | p :: _ =>
    if !s.keyOk root then (s, [none, none]) else
    let (t, a, _) := (s.settleGranule p).readSector p 0
    let (u, b, _) := t.readSector p 1
    (u, [a, b])

/-- A granule at its new place, on every copy. -/
def State.putNew (s : State) (root x : Nat) (d : List (Option SectorData)) : State :=
  (s.copies root x).foldl (fun t p =>
    (d.zip [0, 1]).foldl (fun u e => match e.1 with
      | some v => u.storeSector p e.2 false (u.cipher true p e.2 v)
      | none => u.storeSector p e.2 true 0) t) s

/-- R331: granules of a root whose place differs between two maps, below the new capacity. -/
def State.movedIn (old new : State) (root : Nat) : List Nat :=
  ((List.range ((new.desc root).cap * 16384)).map (64 * ·)).filter fun x => old.copies root x ≠ new.copies root x

/-- R331: every moved granule is taken from its old place before any new place is written. -/
def State.moveAll (s : State) (dead pcs roots : List Nat) : State × Nat :=
  let new := s.mapRetired pcs
  let list := roots.flatMap fun r => (s.movedIn new r).map fun x => (r, x)
  let (s1, got) := list.foldl (fun (a : State × List (Nat × Nat × List (Option SectorData))) e =>
    let (t, d) := a.1.takeOld dead e.1 e.2
    (t, a.2 ++ [(e.1, e.2, d)])) (s, [])
  (got.foldl (fun t e => t.putNew e.1 e.2.1 e.2.2) (s1.mapRetired pcs), 64 * list.length)

/-- R332: accesses to the rewritten groups that wait are answered RETRY; those admitted are finished. -/
def State.clearRoots (s : State) (pc : Nat) (roots : List Nat) : State :=
  let s1 := s.pccs.foldl (fun t e => t.settle e.1 (fun q => roots.contains q.root) 512) s
  s1.ports.foldl (fun t e => e.2.reqs.foldl (fun u r => if r.stage ≠ .issued then u else
    (r.parts.zip (List.range r.parts.length)).foldl (fun v x =>
      if x.1.st = .wait && x.1.todo.any (fun pl => roots.contains pl.root) then v.setPart e.1 r.id x.2 (Part.finish .retry pc 0)
      else v) u) t) s1

/-- R333, R220: what follows the map update: dropped addresses, lodging and residency pools that shrank. -/
def State.afterShrink (s old : State) (roots : List Nat) (k pc : Nat) : State :=
  let s1 := roots.foldl (fun t r =>
    let gone := (old.desc r).bytes - (t.desc r).bytes
    if gone = 0 then t else t.log .retireDrop k (pc % 64) r gone) s
  let s2 := (List.range 8).foldl (fun t p =>
    if roots.contains (t.lgDesc p) then (t.degrade p (t.lgFrames p)).walkFrames p (t.lgFrames p) else t) s1
  (List.range 8).foldl (fun t p =>
    if roots.contains (t.fget F.trPoolCfg_desc [p]) then t.losePool p (t.poolUsable p) else t) s2

/-- The retirement takes effect at one map update (R331, R333, R451). With no move, places change and data stays. The
second answer is the number of bytes moved. -/
def State.retireNow (s : State) (dead pcs : List Nat) (move : Bool) : State × Nat :=
  let roots := s.rewritten pcs
  let pc := (pcs[0]?).getD 0
  let s0 := s.clearRoots pc roots
  let (s1, n) := if move then s0.moveAll dead pcs roots else (s0.mapRetired pcs, 0)
  let s2 := pcs.foldl (fun t p =>
    let w := (t.rget .pkRetired [p / 64]).toNat
    let t1 := t.rput .pkRetired [p / 64] (BitVec.ofNat 64 (setBits w (p % 64) 1 1))
    (t1.fset F.pcEccStat_retire_due [p / 64, p % 64] 0).log .retire (p / 64) (p % 64) 0 n) s1
  let gone := fun (j : LadderJob) => match j with
    | .row q _ _ => pcs.contains q
    | .bank q _ => pcs.contains q
    | .retire q _ => pcs.contains q
    | _ => false
  let s3 := (s2.dropJobs gone).rePlace.afterShrink s roots (pc / 64) pc
  let s4 := pcs.foldl (fun t p => t.dropQueues p) s3
  (s4.ocRecompute.regrade (pc / 64), n)

/-- A stack that holds part of a group which the retirement rewrites does not serve. -/
def State.retireWaits (s : State) (roots : List Nat) : Bool :=
  (roots.flatMap fun r => (s.coverOf r).map (· / 64)).eraseDups.any fun k => !s.stackUp k

/-- R330, R332: migration starts: from here to the map update every access to the rewritten roots is answered RETRY. -/
def State.retire (s : State) (pcs : List Nat) (packet : Option Nat) : State :=
  let all := s.retireSet (pcs.filter fun p => !s.retired p)
  let roots := s.rewritten all
  let pc := (pcs[0]?).getD 0
  let t := s.clearRoots pc roots
  { t with retPend := t.retPend ++ [⟨pc, all, roots, packet, false⟩] }

/-- R331: a migration that no stack holds up is over: the map update, and the packet's reply. -/
def State.endRetire (s : State) (e : RetPend) : State :=
  if e.noMove || s.retireWaits e.roots then s else
  let (u, n) := State.retireNow { s with retPend := s.retPend.erase e } [] e.pcs true
  match e.packet.bind u.packet with
  | some p => u.fixPacket p .done n
  | none => u

/-- Pending retirements after a stack has come back: one whose own stack was reset moves no data; the others complete when
every stack they need serves. -/
def State.retireAgain (s : State) : State :=
  s.retPend.foldl (fun t e =>
    if !t.retPend.contains e then t
    else if e.noMove then
      if t.stackUp (e.pc / 64) then ({ t with retPend := t.retPend.erase e }).retireNow [] e.pcs false |>.1 else t
    else t.endRetire e) s

/-- Pseudo-channels of a stack that are not retired. -/
def State.usable (s : State) (k : Nat) : Nat := 64 - popcount 64 (s.rget .pkRetired [k]).toNat

/-- R324: level 4 for a pseudo-channel: it retires when auto_retire or an unusable channel asks for it, or waits for a
RETIRE packet. Offered again while its migration runs, the migration ends. -/
def State.autoRetire (s : State) (pc : Nat) : State :=
  if !s.i3up then s else
  match s.retPend.find? fun e => e.packet.isNone && e.pcs.contains pc with
  | some e => s.endRetire e
  | none =>
  let k := pc / 64
  let forced := s.ladder.contains (.retire pc true)
  if !(forced || s.ladder.contains (.retire pc false)) || !s.inService pc then s
  else
    let s1 := s.dropJobs fun j => j = .retire pc true || j = .retire pc false
    if forced || (s.fget F.scEccCfg_auto_retire [k] = 1 && decide (19 ≤ s.usable k)) then s1.retire [pc] none
    else ((s1.fset F.pcEccStat_retire_due [k, pc % 64] 1).raise 5 F.scEccInt_retire_due [k] [(F.scEccInt_first_pc, pc % 64)]).log
      .retireDue k (pc % 64)

def execAutoRetire (pc : Nat) (s : State) : Res := onUnit (decide (pc < 512)) (s.autoRetire pc)

/-- R330: the pseudo-channels a RETIRE names. -/
def Packet.retirePcs (p : Packet) : List Nat :=
  let w := p.word 32
  let pc := 64 * bits w 0 3 + bits w 8 6
  if bit w 16 then [pc / 2 * 2, pc / 2 * 2 + 1] else [pc]

/-- R330 to R333: a queued RETIRE is checked and its migration starts; a running one ends. A stack in self-refresh counts as ONLINE, as
it must for RETRAIN under R249 and R290 (DEDUCED, log entry 28). -/
def State.runRetire (s : State) (id : Nat) : State :=
  match s.retPend.find? fun e => e.packet = some id with
  | some e => s.endRetire e
  | none =>
  match s.takeFw id 0x50 with
  | none => s
  | some (t, p) =>
    let pcs := p.retirePcs
    let k := bits (p.word 32) 0 3
    if !t.stackUp k || (pcs.any fun q => t.retired q) || (t.retPend.any fun e => e.pcs.any pcs.contains) then t.fixPacket p .malformed
    else if t.usable k < 18 + pcs.length then t.fixPacket p .noSpace
    else t.retire pcs (some id)

def execRetire (id : Nat) (s : State) : Res := .next (s.runRetire id)

/-! ## REPAIR (R334) -/

/-- Level 4 of a REPAIR: the row's remap entry or its soft repair is marked for hardening. -/
def State.harden (s : State) (pc bank row : Nat) : Option State :=
  let k := pc / 64
  match s.remapOf pc bank row with
  | some (i, e) => some { s with remaps := tset s.remaps i { e with hard := true } }
  | none =>
    let mine := fun (r : Repair) => r.pc = pc % 64 && r.bank = bank && r.row = row && !r.hard
    if (s.repairsOf k).any mine then
      some (s.setRepairs k ((s.repairsOf k).map fun r => if mine r then { r with mark := true } else r))
    else none

/-- Levels that a row has reached: 0 none, 1 remapped, 2 repaired. -/
def State.levelOf (s : State) (pc bank row : Nat) : Nat :=
  if (s.remapOf pc bank row).isSome then 1
  else if (s.repairsOf (pc / 64)).any fun r => r.pc = pc % 64 && r.bank = bank && r.row = row then 2
  else 0

/-- One level applied to a row; none when it cannot act. -/
def State.repairRow (s : State) (pc bank row level : Nat) : Option State :=
  match level with
  | 1 => if s.levelOf pc bank row = 0 then s.remapRow pc bank row else none
  | 2 => match s.remapOf pc bank row with
    | some (i, _) => s.softRepair (i / 4096) (i % 4096)
    | none => none
  | 3 => s.spareBank pc bank
  | _ => s.harden pc bank row

/-- The level that a REPAIR of a row comes to. -/
def State.repairLevel (s : State) (p : Packet) (pl : Place) : Nat :=
  if p.word 40 = 0 then s.levelOf pl.pc pl.bank pl.row + 1 else p.word 40

/-- The soft repair of a REPAIR holds the maintenance port as the training sequencer, and starts as a pass does (R238, R239). -/
def State.repairWaits (s : State) (pl : Place) : Bool :=
  !s.debtOk (pl.pc / 64) (pl.pc % 64 / 2) || !(s.askPort (pl.pc / 64) 1).owns (pl.pc / 64) 1

/-- A REPAIR at a place. -/
def State.repairAt (s : State) (p : Packet) (pl : Place) : State :=
  let level := s.repairLevel p pl
  match (if s.inService pl.pc then s.repairRow pl.pc pl.bank pl.row level else none) with
  | some u => (if level = 2 then ((s.askPort (pl.pc / 64) 1).repairRow pl.pc pl.bank pl.row level).getD u |>.arbDrop (pl.pc / 64) 1
      else u).fixPacket p .done 0 level (p.word 32)
  | none => s.fixPacket p .noSpace 0 level (p.word 32)

/-- R79, R334: the granule's region is checked as any region of the tenant's. -/
def State.runRepair (s : State) (id : Nat) : State :=
  match s.takeFw id 0x51 with
  | none => s
  | some (t, p) =>
    let a := p.word 32 / 64 * 64
    match t.memRegion p.tenant 2 a 64, t.homePlace a with
    | some st, _ => t.fixPacket p st
    | none, none => t.fixPacket p .malformed
    | none, some pl =>
      match t.pcDown pl.pc with
      | some st => t.fixPacket p (ofPStatus st) 0 0 (p.word 32)
      | none =>
        if t.repairLevel p pl = 2 && t.inService pl.pc && (t.repairRow pl.pc pl.bank pl.row 2).isSome && t.repairWaits pl then
          (if s.debtOk (pl.pc / 64) (pl.pc % 64 / 2) then s.askPort (pl.pc / 64) 1 else s)
        else t.repairAt p pl

def execRepair (id : Nat) (s : State) : Res := .next (s.runRepair id)

/-! ## SCRUB and the patrol (R335 to R338) -/

/-- Counts of a scrub (R337). -/
structure Scrub where
  sectors : Nat
  ce : Nat
  ue : Nat
  poison : Nat
  firstUe : Nat
  rows : Nat
  mirrorFix : Nat
  rewritten : Nat

def Scrub.zero : Scrub := ⟨0, 0, 0, 0, 2 ^ 64 - 1, 0, 0, 0⟩

/-- The summary granule. -/
def Scrub.granule (x : Scrub) : Granule :=
  gOfWords [x.sectors, x.ce, x.ue, x.poison, x.firstUe, x.rows % 2 ^ 32 + 2 ^ 32 * (x.mirrorFix % 2 ^ 32), x.rewritten, 0]

/-- A sector of a system group whose cells are not listed: its content is held in components of State of its own, and it reads
without an error (log entry 60). -/
def State.ownSector (s : State) (pl : Place) (h : Nat) : Bool :=
  decide (pl.root < 8) && !(s.mem.any fun c =>
    c.1 / 64 = sectorIndex pl.pc pl.bank (s.issuedRow pl.pc pl.bank pl.row) (2 * pl.col + h))

/-- One sector of a scrub. -/
def State.scrubSector (s : State) (pl : Place) (h addr : Nat) (fix : Bool) (x : Scrub) : State × Scrub :=
  if s.ownSector pl h then (s, { x with sectors := x.sectors + 1 }) else
  let (t, d, c) := s.readSector pl h
  let y := { x with sectors := x.sectors + 1 }
  match c with
  | 0 => (t, y)
  | 1 => if fix then (match d with
      | some v => (t.storeSector pl h false (t.cipher true pl h v), { y with ce := y.ce + 1, rewritten := y.rewritten + 1 })
      | none => (t, { y with ce := y.ce + 1 }))
    else (t, { y with ce := y.ce + 1 })
  | 2 => (t, { y with poison := y.poison + 1 })
  | 4 => (t, { y with poison := y.poison + 1, mirrorFix := y.mirrorFix + 1 })
  | c => (t, { y with ue := y.ue + 1, firstUe := min y.firstUe addr, mirrorFix := y.mirrorFix + b2n (c = 5) })

/-- R336: rows that the scrub's errors ask to have remapped are remapped at once; without repair no ladder step starts. -/
def State.scrubLadder (s t : State) (repair : Bool) (x : Scrub) : State × Scrub :=
  if !repair then ({ t with ladder := s.ladder }, x)
  else
    (t.ladder.filter fun j => !s.ladder.contains j).foldl (fun (a : State × Scrub) j => match j with
      | .row pc bank row =>
        let u := a.1.rowStep pc bank row
        (u, { a.2 with rows := a.2.rows + b2n (decide (a.1.remaps.length < u.remaps.length)) })
      | _ => a) (t, x)

/-- One copy of a granule of a scrub, unless its pseudo-channel cannot serve or its root is being rewritten: then the scrub ends
(R332, R336). -/
def State.scrubPlace (s : State) (pl : Place) (addr : Nat) (fix repair : Bool) (x : Scrub) : State × Scrub × PStatus :=
  match s.pcDown pl.pc with
  | some st => (s, x, st)
  | none =>
    if (s.rewriting pl.root).isSome then (s, x, .retry) else
    let (t, y) := (s.settleGranule pl).scrubSector pl 0 addr fix x
    let (u, z) := t.scrubSector pl 1 (addr + 32) fix y
    let (v, w) := s.scrubLadder u repair z
    (v, w, .ok)

/-- A list of copies with their addresses, in order, until one cannot be read. -/
def State.scrubList (s : State) (l : List (Place × Nat)) (fix repair : Bool) : State × Scrub × PStatus :=
  l.foldl (fun (a : State × Scrub × PStatus) e =>
    if a.2.2 ≠ .ok then a else a.1.scrubPlace e.1 e.2 fix repair a.2.1) (s, Scrub.zero, .ok)

/-- The kind-0 group that covers a MiB of local offset of a pseudo-channel. -/
def State.groupAt (s : State) (pc mib : Nat) : Option (Nat × Desc) :=
  s.descs.find? fun e => e.2.valid && e.2.kind = 0 && e.2.cover.contains pc && decide (e.2.slice ≤ mib)
    && decide (mib < e.2.slice + e.2.cmin)

/-- The root of the tree that a group is in; 4096 for a group outside every tree. -/
def State.rootAbove (s : State) (i : Nat) : Nat :=
  ((s.descs.find? fun e => e.2.valid && e.2.root && (e.1 = i || s.reaches 7 e.1 i)).map (·.1)).getD 4096

/-- R335, mode 1: every granule of a pseudo-channel in ascending local offset. Data stays as stored: no key is used. -/
def State.pcPlaces (s : State) (pc : Nat) : List (Place × Nat) :=
  (List.range 1536).flatMap fun mib =>
    let (root, d) := match s.groupAt pc mib with
      | some (i, d) => (s.rootAbove i, d)
      | none => (4096, Desc.zero)
    let tpc := if d.valid && !d.members.contains pc then pc ^^^ 256 else pc
    (List.range 16384).filterMap fun i =>
      (s.placeAt root none pc tpc (2 ^ 20 * mib + 64 * i) d.order d.mirror).map fun pl => (pl, 0)

/-- R335, mode 0: every copy of every granule of a range of memory space. -/
def State.rangePlaces (s : State) (a n : Nat) : List (Place × Nat) :=
  (List.range (n / 64)).flatMap fun i => match s.rootOf (a + 64 * i) with
    | some (r, x) => (s.copies r x).map fun pl => (pl, a + 64 * i)
    | none => []

/-- The end of a scrub: the summary is written and the packet's status fixed. The address of a UE found by
pseudo-channel is not stated (log entry 20). -/
def State.scrubEnd (s : State) (p : Packet) (x : Scrub) (st : PStatus) : State :=
  let (s0, y) := if bit (p.word 56) 0 && x.ue ≠ 0 then
      let (t, a) := s.drawNat
      (t, { x with firstUe := a % 2 ^ 64 })
    else (s, x)
  let (s1, w, _) := s0.writeMem (p.word 48) y.granule
  s1.fixPacket p (ofPStatus (if st ≠ .ok then st else w)) y.sectors (min y.ue (2 ^ 32 - 1))
    (if st = .ok && w ≠ .ok then p.word 48 else y.firstUe)

def State.runScrub (s : State) (id : Nat) : State :=
  match s.takeFw id 0x03 with
  | none => s
  | some (t, p) =>
    let ctl := p.word 56
    let sum := t.memRegion p.tenant 4096 (p.word 48) 64
    match firstFail (if bit ctl 0 then [sum] else [t.memRegion p.tenant 4096 (p.word 32) (p.word 40), sum]) with
    | some k => t.fixPacket p k
    | none =>
      let l := if bit ctl 0 then t.pcPlaces (p.word 32) else t.rangePlaces (p.word 32) (p.word 40)
      let (u, x, st) := t.scrubList l (bit ctl 1) (bit ctl 2)
      u.scrubEnd p x st

def execScrub (id : Nat) (s : State) : Res := .next (s.runScrub id)

/-- R338: one patrol pass of a stack over its pseudo-channels in turn. -/
def State.patrol (s : State) (k : Nat) : State :=
  if s.fget F.scPatrolCfg_period_h [k] = 0 || s.link k ≠ 3 || !s.i3up then s else
  let (t, x) := (List.range 64).foldl (fun (a : State × Scrub) i =>
    if a.1.retired (64 * k + i) then a else
    let (u, y, _) := a.1.scrubList (a.1.pcPlaces (64 * k + i)) true true
    (u, { a.2 with ue := a.2.ue + y.ue, ce := a.2.ce + y.ce })) (s, Scrub.zero)
  (t.fsat F.scPatrolCfg_passes [k] 1).log .patrol k 0 x.ue x.ce

def execPatrolScrub (k : Nat) (s : State) : Res := onUnit (decide (k < 8)) (s.patrol k)

end Sys2Proof.Machine
end

