-- ==== Sys2Proof/Machine/Link.lean ====
section
/-! DEFINITION. The stack links (R227 to R251, R286 to R292): training, the return of a stack, retraining passes, lane
repair, temperature readout, self-refresh and the operating point. -/
namespace Sys2Proof.Machine

/-! ## Lane maps (R230, R231, R241, R242) -/

def State.linkOf (s : State) (k : Nat) : Link := tget Link.init s.links k
def State.setLinkOf (s : State) (k : Nat) (l : Link) : State := { s with links := tput Link.init s.links k l }

/-- R230: a lane that the channel has. -/
def laneOk (g lane : Nat) : Bool := decide (g < 9 && lane < (if g = 8 then 11 else 10))

/-- The stack's lane map of a channel. -/
def State.stackLanes (s : State) (k c : Nat) : Nat := (tget laneNone (s.linkOf k).lanes c).toNat

def State.setDevLanes (s : State) (k c w : Nat) : State :=
  { s with laneMaps := tput laneNone s.laneMaps (32 * k + c) (BitVec.ofNat 64 w) }
def State.setStackLanes (s : State) (k c w : Nat) : State :=
  let l := s.linkOf k
  s.setLinkOf k { l with lanes := tput laneNone l.lanes c (BitVec.ofNat 64 w) }

/-- R241: one more than the larger epoch, skipping 0 and wrapping from 255 to 1. -/
def nextLaneEpoch (a b : Nat) : Nat := if 255 ≤ Nat.max a b then 1 else Nat.max a b + 1

/-- Lanes out of service in a group, from both maps unless they agree, and from the lane test (R242). -/
def outLanes (dev stk g : Nat) (bad : List (Nat × Nat)) : List Nat :=
  let agree := laneEpoch dev = laneEpoch stk && laneEpoch dev ≠ 0
  let maps := if agree then [laneOut dev g] else [laneOut dev g, laneOut stk g]
  ((maps.filter (· ≠ 15)) ++ (bad.filter fun e => e.1 = g).map (·.2)).eraseDups

/-- Steps 3 to 5 of R234 on a channel: the maps are compared and narrowed, and both sides are rewritten. The second answer
says whether the channel keeps the minimum usable width. -/
def State.trainLanes (s : State) (k : Nat) (rep : StackReport) (c : Nat) : State × Bool :=
  let dev := s.devLanes k c
  let stk := if rep.laneLost then laneNone.toNat else s.stackLanes k c
  if bit dev 44 then (s, false) else
  let bad := (rep.bad.filter fun e => e.1 = c && laneOk e.2.1 e.2.2).map fun e => (e.2.1, e.2.2)
  let outs := (List.range 9).map fun g => outLanes dev stk g bad
  if outs.any fun l => decide (2 ≤ l.length) then (s.setDevLanes k c (setBits dev 44 1 1), false)
  else
    let word := (outs.zip (List.range 9)).foldl (fun w e => setBits w (4 * e.2) 4 (e.1.head?.getD 15)) dev
    let agree := laneEpoch dev = laneEpoch stk && laneEpoch dev ≠ 0
    let ep := if agree && word = dev then laneEpoch dev else nextLaneEpoch (laneEpoch dev) (laneEpoch stk)
    let w := setBits word 36 8 ep
    let s1 := (s.setDevLanes k c w).setStackLanes k c w
    let news := bad.filter fun e => laneOut dev e.1 ≠ e.2
    (news.foldl (fun t e => t.log .laneRepair k c (e.1 + e.2 * 16 + ep * 256)) s1, true)

/-! ## Initial training (R229, R232, R234, R235, R441, R443) -/

/-- R441: the stack's serial against the fused one. -/
def State.compareId (s : State) (k : Nat) : State :=
  let mine := s.fget F.scStackId_serial [k]
  let fused := bits (s.rget .pkFuse [2 + k / 2]).toNat (32 * (k % 2)) 32
  if s.fget F.pkFuseStat_valid = 0 || mine = fused then s
  else ((s.fset F.pkFuseStat_mismatch [] (setBits (s.fget F.pkFuseStat_mismatch) k 1 1)).raise 5 F.pkErr_id_mismatch []
    [(F.pkErr_first_src, k)]).log .stackId k 0 mine fused

/-- Step 8 of R234: marked soft repairs become hard ones, at most four rows of a bank per training (R248). -/
def State.hardenAll (s : State) (k : Nat) : State :=
  let old := s.repairsOf k
  let (l, _, t) := old.foldl (fun (a : List Repair × List (Nat × Nat) × State) r =>
    let n := (a.2.1.filter (· = (r.pc, r.bank))).length
    let used := (old.filter fun x => x.pc = r.pc && x.bank = r.bank && x.hard).length + n
    if r.mark && !r.hard && decide (n < 4) && decide (used < Config.hardSpares k) then
      (a.1 ++ [{ r with mark := false, hard := true }], (r.pc, r.bank) :: a.2.1, a.2.2.log .hardRepair k r.pc r.bank r.row)
    else (a.1 ++ [r], a.2.1, a.2.2)) ([], [], s)
  t.setRepairs k l

/-- A timing state of the stack: the refresh interval that goes with the operating point and the temperature (R284). -/
def State.setRefi (s : State) (k : Nat) : State :=
  let hot := s.fget F.scRefCfg_hot [k] = 1
  s.fset F.scRefCfg_trefi_pb [k] (if s.fget F.glOpStat_op = 0 then (if hot then 33 else 67) else (if hot then 25 else 50))

/-- R286: hot above hot_on_c, normal again at or below hot_off_c. -/
def State.setHot (s : State) (k : Nat) (temp : Int) : State :=
  let hot := s.fget F.scRefCfg_hot [k] = 1
  let on := decide (Int.ofNat (s.fget F.scRefCfg_hot_on_c [k]) < temp)
  let off := decide (temp ≤ Int.ofNat (s.fget F.scRefCfg_hot_off_c [k]))
  let new := if on then true else if off then false else hot
  if new = hot then s else (s.fset F.scRefCfg_hot [k] (b2n new)).setRefi k

/-- A valid temperature reading of a stack (R237). -/
def State.takeTemp (s : State) (k : Nat) (temp : Int) : State :=
  (s.fset F.scLinkStat_temp_c [k] (ofInt 8 temp)).setHot k temp

/-- Every channel has been trained now (R236, R251). -/
def State.restartPasses (s : State) (k : Nat) : State := (s.restartPeriods k).passTemps k

/-- Step 7 of R234: the timing mode registers are written for the operating point, and refresh starts (R227). -/
def State.setModes (s : State) (k : Nat) : State := s.setLinkOf k { s.linkOf k with mode := some (s.fget F.glOpStat_op) }

/-- The stack stays without service. -/
def State.stackFailed (s : State) (k cause : Nat) : State := (s.fset F.scLinkStat_cause [k] cause).setLink k 5

/-- Pseudo-channels of channels that training found unusable and that are still in service (R235, R243). -/
def State.deadPcs (s : State) (k : Nat) (cs : List Nat) : List Nat :=
  (cs.flatMap fun c => [64 * k + 2 * c, 64 * k + 2 * c + 1]).filter fun pc => !s.retired pc

/-- R234: initial training of a site. The second answer holds the pseudo-channels that leave with dead channels when the
stack is ready to return. -/
def State.train (s : State) (k : Nat) (rep : StackReport) : State × Option (List Nat) :=
  if !s.fused k then
    (if rep.present then (s.setLink k 1).raise 5 F.pkErr_pop_extra [] [(F.pkErr_first_src, k)] else s.setLink k 0, none)
  else if !rep.present then (s.setLink k 0, none)
  else
    let s1 := ((s.setLink k 2).rput .scStackId [k] rep.ident).compareId k
    if s1.fget F.scStackId_qual_48g [k] = 0 || s1.fget F.scStackId_qual_epoch [k] = 0 then (s1.stackFailed k 5, none)
    else
      let fails := rep.fails.take 3
      let s2 := (fails.zip (List.range 3)).foldl (fun t e => t.log .trainFail k (e.2 + 1) e.1) s1
      let s3 := s2.fset F.scLinkStat_attempts [k] fails.length
      if fails.length = 3 then (s3.stackFailed k 3, none)
      else
        let (s4, lost) := (List.range 32).foldl (fun (a : State × List Nat) c =>
          let (t, ok) := a.1.trainLanes k rep c
          (t, if ok && !rep.dead.contains c then a.2 else a.2 ++ [c])) (s3, [])
        let s5 := lost.foldl (fun t c => t.setDevLanes k c (setBits (t.devLanes k c) 44 1 1)) s4
        let pcs := s5.deadPcs k lost
        if s5.usable k < 18 + pcs.length then
          let s6 := (List.range (3 - fails.length)).foldl (fun t i => t.log .trainFail k (fails.length + i + 1) 6) s5
          ((s6.fset F.scLinkStat_attempts [k] 3).stackFailed k 3, none)
        else
          let s6 := ((s5.hardenAll k).takeTemp k rep.temp).fset F.scLinkStat_train_us [k] (Nat.min rep.trainUs (2 ^ 20 - 1))
          (((s6.setModes k).setRefi k).restartPasses k, some pcs)

/-! ## The return of a stack (R245 steps 4 to 6, R309, R317, R446) -/

/-- R309: the epochs advance and every sector is written as poison. -/
def State.fillStack (s : State) (k : Nat) : State :=
  { s with epochs := (List.range 64).foldl (fun m i => tput 0 m (64 * k + i) ((tget 0 m (64 * k + i) + 1) % 16)) s.epochs
           mem := s.mem.filter fun c => c.1 / 64 / (24576 * 64 * 32) / 64 ≠ k }

/-- R329: a spare area on a serving partner that holds banks of stack k is written as poison. -/
def State.fillSpares (s : State) (k : Nat) : State :=
  if !s.stackUp ((k + 4) % 8) then s else
  [0, 1].foldl (fun t i => match tfind t.spares (2 * k + i) with
    | none => t
    | some e => (List.range 393216).foldl (fun u g =>
        match u.walkFrom ((k + 4) % 8) (2 ^ 20 * e.base + 64 * g) with
        | none => u
        | some w =>
          let (b, r, c) := dramCoord 0 w.off
          [0, 1].foldl (fun v h => v.writeStored w.pc b (v.issuedRow w.pc b r) (2 * c + h) none) u) t) s

/-- R317, R446: one granule of a mirrored group copied from the partner's place, as stored, re-encoded. -/
def State.resyncGranule (s : State) (frm own : Place) : State :=
  [0, 1].foldl (fun t h =>
    let (u, d) := (t.settleGranule frm).readStored frm.pc frm.bank (t.issuedRow frm.pc frm.bank frm.row) (2 * frm.col + h)
    u.writeStored own.pc own.bank (u.issuedRow own.pc own.bank own.row) (2 * own.col + h) d) s

/-- Every mirrored sector of a returning stack. -/
def State.resync (s : State) (k : Nat) : State :=
  (s.descs.filter fun e => e.2.valid && e.2.kind = 0 && e.2.mirror).foldl (fun t e =>
    (e.2.cover.filter fun pc => pc / 64 = k && !t.retired pc).foldl (fun u pc =>
      (List.range (e.2.cmin * 16384)).foldl (fun v i =>
        let off := 2 ^ 20 * e.2.slice + 64 * i
        match v.placeAt 0 none (pc ^^^ 256) pc off e.2.order false, v.placeAt 0 none pc pc off e.2.order false with
        | some a, some b => v.resyncGranule a b
        | _, _ => v) u) t) s

/-- A stack returns while its partner is offline (R446): the pair's mirrored content and the directory quarter are lost. -/
def State.pairLost (s : State) (k : Nat) : State :=
  let q := k % 4
  let s1 := s.log .pairLost k ((k + 4) % 8)
  let gone := (s1.dir.filter fun e => e.1 % 4 = q && e.2.st ≠ .unmapped).map (·.1)
  let s2 := gone.foldl (fun t g => ((t.stopFetch g).setSeg g { SegEnt.init with st := .unmapped }).endParked g .unmapped) s1
  let s3 := { s2 with demandQ := s2.demandQ.filter (fun f => f.seg % 4 ≠ q), prefetchQ := s2.prefetchQ.filter fun g => g % 4 ≠ q }
  (s3.raise 4 F.trErr_backing [] [(F.trErr_first_seg, q)]).log .dirLost q 0 gone.length

/-- Retirement of dead channels when their stack is ready to serve again: nothing of theirs is read (R243). -/
def State.retireDead (s : State) (pcs : List Nat) : State :=
  if pcs.isEmpty then s else
  let all := s.retireSet pcs
  let roots := s.rewritten all
  if s.retireWaits roots then { s with retPend := s.retPend ++ [⟨(pcs[0]?).getD 0, all, roots, none, false⟩] }
  else (s.retireNow pcs all true).1

/-- How long the poison fill of a stack takes (R245): 45.8 ms at OP0, 61.0 ms at OP1. -/
def State.fillTicks (s : State) : Nat := (if s.fget F.glOpStat_op = 0 then 45800 else 61000) * tickUs

/-- Step 4 of R245 starts: the epochs advance, every sector becomes poison, and the fill takes its time. -/
def State.startFill (s : State) (k : Nat) (rep : StackReport) (pcs : List Nat) : State :=
  let t := s.fillStack k
  { t with returns := tset t.returns k ⟨t.clk.now + t.fillTicks, rep, some pcs, false⟩ }

/-- Step 3 of R245 ends: the outcome of the training shows, and a stack that can serve is filled. -/
def State.trainDone (s : State) (k : Nat) (rep : StackReport) : State :=
  match s.train k rep with
  | (t, none) => { t with returns := tdel t.returns k }
  | (t, some pcs) => t.startFill k rep pcs

/-- Bytes of the copy of R446: the system area of 512 MiB and every mirrored sector of the stack. -/
def State.copyBytes (s : State) (k : Nat) : Nat :=
  2 ^ 29 + sumBy (fun e => if e.2.valid && e.2.kind = 0 && e.2.mirror then
    (e.2.cover.filter fun pc => pc / 64 = k && !s.retired pc).length * e.2.cmin * 2 ^ 20 else 0) s.descs

/-- How long the copy takes at PK_CFG.resync_gbs (R446), the copy running at that rate (DESIGN CHOICE, log entry 10). -/
def State.copyTicks (s : State) (k : Nat) : Nat := s.copyBytes k / s.fget F.pkCfg_resync_gbs * 33 / 5

/-- Step 4 of R245 ends. With the partner in service the copy from it runs; without, there is no source. -/
def State.fillOver (s : State) (k : Nat) (r : Return) : State :=
  let wait := if s.stackUp ((k + 4) % 8) then s.copyTicks k else 0
  { s with returns := tset s.returns k { r with due := s.clk.now + wait, copying := true } }

/-- Steps 5 and 6 of R245: the copy is over, or its source is gone. -/
def State.fillDone (s : State) (k : Nat) (pcs : List Nat) : State :=
  let t0 : State := { s with returns := tdel s.returns k }
  let t1 := t0.fillSpares k
  let t2 := if t1.stackUp ((k + 4) % 8) then t1.resync k else t1.pairLost k
  let t3 := (t2.setLink k 3).retireDead pcs
  let t4 := (t3.log .stackReturn k 0 (t3.fget F.scLinkStat_train_us [k])).raise 4 F.pkInt_stack_on [] [(F.pkInt_first_stack, k)]
  (t4.retireAgain).ocRecompute

/-- A stack reset (R244, R245): the stack leaves service, and its training begins with what it shows. It is ready to
return when training and fill are over; until then every access to it finds it offline. -/
def State.stackReset (s : State) (k cause : Nat) (rep : StackReport) : State :=
  let t := (s.stackOff k cause).setLink k 2
  { t with returns := tset t.returns k ⟨t.clk.now + (2 + rep.trainUs) * tickUs, rep, none, false⟩ }

/-- The training, the fill or the copy of a stack is over. -/
def State.returnStack (s : State) (k : Nat) : State :=
  match tfind s.returns k with
  | none => s
  | some r => match r.fill with
    | none => s.trainDone k r.rep
    | some pcs => if r.copying then s.fillDone k pcs else s.fillOver k r

def execSreset (k : Nat) (rep : StackReport) (s : State) : Res := onUnit (decide (k < 8)) (s.stackReset k 1 rep)

/-- R244: the PHY has seen no returned clock. A stack without running clocks has none to lose. -/
def execClockLoss (k : Nat) (rep : StackReport) (s : State) : Res :=
  onUnit (decide (k < 8)) (if s.link k = 1 || s.link k = 2 || s.link k = 3 then s.stackReset k 2 rep else s)

/-! ## Parity errors and passes (R228, R233, R236 to R238) -/

/-- R228: 16 errors of a channel within 1 ms make it due. -/
def State.parityError (s : State) (k c : Nat) : State :=
  if !s.stackUp k then s else
  let l := s.linkOf k
  let ts := (s.clk.now :: (tget [] l.parity c).filter fun t => decide (s.clk.now < t + 1000 * tickUs)).take 16
  if ts.length = 16 then
    s.setLinkOf k { l with parity := tput [] l.parity c [], due := setBits l.due c 1 1, parityDue := setBits l.parityDue c 1 1 }
  else s.setLinkOf k { l with parity := tput [] l.parity c ts }

def execCaParityError (k c : Nat) (s : State) : Res := onUnit (decide (k < 8 && c < 32)) (s.parityError k c)

/-- A queued request at the deferral urgency or above (Retraining meets a queued urgent read). -/
def State.urgentOn (s : State) (k c : Nat) : Bool :=
  (s.channelPcs k c).any fun pc => (s.allCands pc).any fun x => decide (s.fget F.scTrainCfg_defer_urg [k] ≤ x.urg)

/-- The pass of a channel may start: R238, and the deferral under Retraining meets a queued urgent read. -/
def State.passReady (s : State) (k c : Nat) : Bool := s.debtOk k c && (!s.urgentOn k c || bit (s.linkOf k).expired c)

/-- The effect of a pass on the channel: its period restarts, and a lane that it found bad is to be repaired (R236, R241). -/
def State.passDone (s : State) (k c : Nat) (badLane : Option (Nat × Nat)) : State :=
  let l := s.linkOf k
  let s1 := (s.ev 0x302 k 1).setLinkOf k { l with
    due := setBits l.due c 1 0
    parityDue := setBits l.parityDue c 1 0
    expired := setBits l.expired c 1 0
    dueAt := tput 0 l.dueAt c (s.clk.now + s.passPeriod k)
    lastPass := some s.clk.now
    passTemp := tput 0 l.passTemp c (s.stackTemp k) }
  match badLane with
  | some (g, x) => if laneOk g x then s1.addJob (.lane k c g x) else s1
  | none => s1

/-- The channel is due: for parity errors, or by its period or by drift while these are enabled (R228, R236, R237, R254). -/
def State.channelDue (s : State) (k c : Nat) : Bool :=
  let l := s.linkOf k
  !(s.channelPcs k c).isEmpty && (bit l.parityDue c
    || (s.fget F.scLinkCtl_periodic_en [k] = 1 && (bit l.due c || decide (tget 0 l.dueAt c ≤ s.clk.now))))

/-- R237: passes for drift start at least drift_gap_us after the stack's last pass. -/
def State.gapOver (s : State) (k c : Nat) : Bool :=
  let l := s.linkOf k
  !bit l.due c || bit l.parityDue c || (match l.lastPass with
    | some t => decide (t + s.fget F.scTrainCfg_drift_gap_us [k] * tickUs ≤ s.clk.now)
    | none => true)

/-- The channel's pass is the next one: due channels run theirs in ascending order. A channel whose pass may not start yet does not
hold up those above it; a channel due for parity errors goes ahead of its turn (R228, R236, R237; log entry 70). -/
def State.passMay (s : State) (k c : Nat) : Bool :=
  s.link k = 3 && s.channelDue k c && s.gapOver k c
    && (bit (s.linkOf k).parityDue c
      || !((List.range c).any fun d => s.channelDue k d && s.gapOver k d && s.passReady k d))

/-- R236, R239: a due pass runs, with the maintenance port held as the training sequencer. -/
def State.retrainPass (s : State) (k c : Nat) (badLane : Option (Nat × Nat)) : State :=
  if s.passMay k c && s.passReady k c then s.withPort k 1 fun t => t.passDone k c badLane else s

def execRetrainPass (k c : Nat) (badLane : Option (Nat × Nat)) (s : State) : Res :=
  onUnit (decide (k < 8 && c < 32)) (s.retrainPass k c badLane)

/-- A RETRAIN packet waits for its passes on the stack. -/
def State.retrainWaits (s : State) (k : Nat) : Bool :=
  s.packets.any fun e => e.2.opcode = 0x52 && e.2.st = .queued && bits (e.2.word 32) 0 3 = k

/-- The deferral has lasted defer_max_us: the pass starts whatever is queued, as soon as nothing else holds it back. -/
def State.deferExpire (s : State) (k c : Nat) : State :=
  if s.link k = 3 && (s.channelDue k c || s.retrainWaits k) then
    (let l := s.linkOf k
     (s.setLinkOf k { l with expired := setBits l.expired c 1 1 }).retrainPass k c none)
  else s

def execRetrainDeferExpire (k c : Nat) (s : State) : Res := onUnit (decide (k < 8 && c < 32)) (s.deferExpire k c)

/-! ## Lane repair (R241) -/

/-- The three writes of a lane repair pass, as many as are done: the device entry with epoch 0, the stack, the device entry
with the new map and epoch. -/
def State.laneSteps (s : State) (k c g lane done : Nat) : State :=
  let dev := s.devLanes k c
  let ep := nextLaneEpoch (laneEpoch dev) (laneEpoch (s.stackLanes k c))
  let w := setBits (setBits dev (4 * g) 4 lane) 36 8 ep
  let s1 := if 1 ≤ done then s.setDevLanes k c (setBits dev 36 8 0) else s
  let s2 := if 2 ≤ done then s1.setStackLanes k c w else s1
  if 3 ≤ done then ((s2.setDevLanes k c w).dropJobs (· = .lane k c g lane)).log .laneRepair k c (g + lane * 16 + ep * 256) else s2

/-- R324, lane level: where the group already has a lane out, the channel falls below R231 and both its pseudo-channels go
to level 4. -/
def State.laneRepair (s : State) (k c g lane done : Nat) : State :=
  let out := laneOut (s.devLanes k c) g
  if !s.ladder.contains (.lane k c g lane) || s.link k ≠ 3 || (s.channelPcs k c).isEmpty then s
  else if out = lane then s.dropJobs (· = .lane k c g lane)
  else if out ≠ 15 then
    (s.channelPcs k c).foldl (fun t pc => t.addJob (.retire pc true)) (s.dropJobs (· = .lane k c g lane))
  else s.laneSteps k c g lane done

/-- A lane repair pass: it starts as a retraining pass does, with the port held as the training sequencer (R238, R239, R287). -/
def State.lanePass (s : State) (k c g lane done : Nat) : State :=
  if s.link k = 3 && s.ladder.contains (.lane k c g lane) && s.debtOk k c && s.i3up then
    s.withPort k 1 fun t => t.laneRepair k c g lane done
  else s

def execLaneRepair (k c g lane done : Nat) (s : State) : Res :=
  onUnit (decide (k < 8 && c < 32) && laneOk g lane) (s.lanePass k c g lane done)

/-! ## Temperature (R237, R286) -/

/-- R237: a reading; channels whose last pass ran at a temperature further away than drift_c are due. -/
def State.tempRead (s : State) (k : Nat) (temp : Int) : State :=
  if !s.stackUp k then s else
  let s1 := s.takeTemp k temp
  let l := s1.linkOf k
  let far := fun (c : Nat) => decide (s1.fget F.scTrainCfg_drift_c [k] < (temp - tget 0 l.passTemp c).natAbs)
  if s1.fget F.scLinkCtl_periodic_en [k] = 0 then s1
  else s1.setLinkOf k { l with due := (List.range 32).foldl (fun m c => if far c then setBits m c 1 1 else m) l.due }

/-! ## RETRAIN (R249) -/

/-- Lane test and repair of a channel: what the test found, and every repair that is asked for. -/
def State.repairLanes (s : State) (k c : Nat) (bad : List (Nat × Nat)) : State :=
  let s1 := (bad.filter fun e => laneOk e.1 e.2).foldl (fun t e => t.addJob (.lane k c e.1 e.2)) s
  s1.ladder.foldl (fun t j => match j with
    | .lane k' c' g x => if k' = k && c' = c then t.laneRepair k c g x 3 else t
    | _ => t) s1

/-- Channels of a RETRAIN in service. -/
def State.retrainChans (s : State) (k w : Nat) : List Nat :=
  (if bits w 4 2 = 1 then List.range 32 else [bits w 8 5]).filter fun c => !(s.channelPcs k c).isEmpty

/-- The passes of a RETRAIN, each under a grant of its own. -/
def State.retrainAll (s : State) (k : Nat) (cs : List Nat) (test : Bool) (bad : List (Nat × Nat)) : State :=
  cs.foldl (fun t c =>
    let u := if t.owns k 1 then t else t.arbGive k 1 false
    ((if test then u.repairLanes k c bad else u).passDone k c none).arbDrop k 1) s

/-- A RETRAIN waits, with its packet, while a pass may not start or the port is not free. A stack in self-refresh leaves it (R290). -/
def State.runRetrain (s : State) (id : Nat) (maint : MaintReport) : State :=
  match s.takeFw id 0x52 with
  | none => s
  | some (t, p) =>
    let w := p.word 32
    let k := bits w 0 3
    if !t.stackUp k then t.fixPacket p .unavailable
    else
      let v := s.wake k
      let cs := v.retrainChans k w
      if cs.isEmpty then (t.wake k).fixPacket p .done
      else if !cs.all (v.passReady k) then v
      else if !(v.askPort k 1).owns k 1 then v.askPort k 1
      else (((t.wake k).retrainAll k cs (decide (bits w 4 2 = 2)) maint.bad)).fixPacket p .done cs.length maint.ns

def execRetrain (id : Nat) (maint : MaintReport) (s : State) : Res := .next (s.runRetrain id maint)

/-! ## Self-refresh (R288 to R291) -/

/-- A request for the stack waits for admission; an ATOMIC of a mirrored group needs both stacks. -/
def State.waitsFor (s : State) (k : Nat) : Bool :=
  s.ports.any fun e => e.2.reqs.any fun r => r.stage = .issued && r.parts.any fun x =>
    x.st = .wait && x.todo.any fun pl =>
      pl.pc / 64 = k || (r.kind = .atomic && (match s.partnerOf pl with
        | some q => decide (q.pc / 64 = k)
        | none => false))

/-- R288: every queue and merge buffer of the stack is empty. -/
def State.quiet (s : State) (k : Nat) : Bool :=
  s.pccs.all fun e => e.1 / 64 ≠ k || (e.2.rq.isEmpty && e.2.wq.isEmpty && e.2.mb.isEmpty && e.2.ret.isEmpty)

/-- Every open bank is precharged (step E2). -/
def State.closeBanks (s : State) (k : Nat) : State :=
  { s with pccs := tmap s.pccs fun pc p => if pc / 64 = k then
      { p with banks := tmap p.banks fun _ b => { b with row := none, fresh := false } } else p }

/-- The stack issues the entry command: its entry counts, and what was due is dropped (R238, R289). -/
def State.enterSref (s : State) (k : Nat) : State :=
  let s1 := (s.closeBanks k).fset F.scLinkStat_state [k] 4
  (s1.setLinkOf k { s1.linkOf k with due := 0, parityDue := 0, expired := 0, srefAt := s1.clk.now, srefTemp := s1.stackTemp k }).fsat
    F.scSrefStat_entries [k] 1 |>.ev 0x301 k 1

/-- R289: entry after the idle time. A request at admission cancels it before the entry command. -/
def State.srefEntry (s : State) (k : Nat) (granted : Bool) : State :=
  if s.fget F.scSrefCfg_en [k] = 0 || s.link k ≠ 3 || !s.quiet k || granted then s
  else if s.waitsFor k then (s.closeBanks k).fsat F.scSrefStat_cancels [k] 1
  else s.enterSref k

/-- A maintenance-port grant other than the temperature readout's is held (R288). -/
def execSrefEntry (k : Nat) (s : State) : Res :=
  onUnit (decide (k < 8)) (s.srefEntry k (match (s.arb k).owner with
    | some j => j ≠ 0
    | none => false))

/-- R290: the debug port requests the stack. -/
def State.debugWants (s : State) (k : Nat) : Bool := s.owns k 7 || (s.arb k).seize || (tfind (s.arb k).reqs 7).isSome

/-- R290, R291: exit when a request waits or the debug port asks. While another position holds the port, a pass for drift waits and the
exit with it. -/
def State.srefExit (s : State) (k : Nat) : State :=
  if s.link k ≠ 4 || !(s.waitsFor k || s.debugWants k) then s
  else if s.srefDrift k && !(s.askPort k 1).owns k 1 then s.askPort k 1
  else s.wake k

def execSrefExit (k : Nat) (s : State) : Res := onUnit (decide (k < 8)) (s.srefExit k)

/-! ## OPPOINT (R250, R251) -/

/-- Requests held at the ports meet the stall (R252). -/
def State.markStall (s : State) : State :=
  { s with ports := tmap s.ports fun _ p => { p with reqs := p.reqs.map fun (r : PortReq) => { r with unbound := true } } }

/-- Nanoseconds in ticks, rounded down. -/
def nsTicks (n : Nat) : Nat := n * 33 / 5

/-- R21, R24, R375, R416: ROOTCLK relocks for some ticks: MCLK and PCLK stand still, FCLK goes on, and the hairspring loop applies its
table. -/
def State.relock (s : State) (n : Nat) : State :=
  ((State.tick { s with clk := { s.clk with mclkAcc := s.mclk, mclkRef := s.clk.now + n } } n).holdArbs n).tableTrim

/-- Steps 4 and 5 of R251: every ONLINE stack enters self-refresh, ROOTCLK relocks, and the new operating point holds. How much of the
stall lies before the relock, and how long that takes within its 25 µs, are free values. -/
def State.newOp (s : State) (op stallNs : Nat) : State :=
  let (s1, a) := s.drawNat
  let (s2, b) := s1.drawNat
  let r := Nat.min (b % 25001) stallNs
  let s3 := s2.tick (nsTicks (a % (stallNs - r + 1)))
  let s4 := ((List.range 8).filter fun k => s3.link k = 3).foldl State.enterSref s3
  (s4.relock (nsTicks r)).fset F.glOpStat_op [] op

/-- A stack after its full retraining at the new rate (R251 steps 7 and 8). -/
def State.retrained (s : State) (k : Nat) : State :=
  let (t1, us) := s.drawNat
  let t2 := (t1.fset F.scLinkStat_state [k] 3).fset F.scLinkStat_train_us [k] us
  let t3 := { t2 with pccs := tmap t2.pccs fun pc p => if pc / 64 = k then
    { p with banks := [], acts := [], cols := [], lastWr := none, lastRd := none, lastRow := none } else p }
  ((t3.setModes k).setRefi k).restartPasses k

/-- R251 steps 4, 6 and 7 for a stack on its way back: its timing training is over with the stall; a fill that ran starts again. -/
def State.heldBack (s : State) (k : Nat) : State :=
  match tfind s.returns k with
  | none => s
  | some r => match r.fill with
    | none => { s with returns := tset s.returns k { r with due := s.clk.now } }
    | some pcs => ((s.setModes k).setRefi k).startFill k r.rep pcs

/-- Steps 2 to 8: drain, self-refresh, relock, full retraining, resume. -/
def State.changeOp (s : State) (op stallNs : Nat) : State :=
  let s1 := s.pccs.foldl (fun t e => t.drainPcc e.1) s.markStall
  let up := (List.range 8).filter s1.stackUp
  let s2 := (s1.newOp op stallNs).tickTo (s1.clk.now + nsTicks stallNs)
  let s3 := (s2.fsat F.glOpStat_changes [] 1).fset F.glOpStat_last_stall_ns [] (Nat.min stallNs (2 ^ 32 - 1))
  (List.range 8).foldl State.heldBack (up.foldl State.retrained s3)

def State.runOppoint (s : State) (id stallNs : Nat) : State :=
  match s.takeFw id 0x53 with
  | none => s
  | some (t, p) =>
    let op := bits (p.word 32) 0 1
    if op = t.fget F.glOpStat_op then t.fixPacket p .done
    else if op = 0 && (List.range 8).any fun k => t.link k ≠ 0 && t.fget F.scStackId_qual_op0 [k] = 0 then t.fixPacket p .malformed
    else (t.changeOp op stallNs).fixPacket p .done 0 stallNs

def execOppoint (id stallNs : Nat) (s : State) : Res := .next (s.runOppoint id stallNs)

end Sys2Proof.Machine
end

