-- ==== Sys2Proof/Machine/Recorder.lean ====
section
/-! DEFINITION. The event recorder and its logs (R482 to R492, R508 to R511) and the NVM store (R423). -/
namespace Sys2Proof.Machine

/-! ## The NVM store

Words of the store by address: the ledger's 8,192 records at 0, the milestone logs of 512 records each at 32,768, the
marker area in the last eight words. The spec gives the sizes and not the addresses (log entry 26). -/

def nvmWords : Nat := 262144
def markerBase : Nat := 262136
def ledgerWord (slot w : Nat) : Nat := 4 * slot + w
def msWord (st k w : Nat) : Nat := 32768 + 2048 * st + 4 * k + w

def State.nvmPut (s : State) (a : Nat) (w : Word) : State := { s with nvm := tput 0 s.nvm a w }

/-- R423: one word is journalled, written and verified; the journal entry is cleared again, so nothing of it stays. The
marker area is written by a lifecycle change alone (R469). -/
def State.nvmWrite (s : State) (a : Nat) (w : Word) : State := if a < markerBase then s.nvmPut a w else s

def execNvmWordWrite (a : Nat) (w : Word) (s : State) : Res :=
  onUnit (decide (a < nvmWords)) (if s.supply.dip || !s.supply.vaon then s else s.nvmWrite a w)

/-! ## Records (R483) -/

/-- The four words of a record with its sequence number. -/
def Rec.words (r : Rec) (seq : Nat) : List Nat :=
  let w0 := r.hours % 2 ^ 32 + 2 ^ 32 * (r.pcyc % 2 ^ 24)
  let w1 := r.ty + 2 ^ 8 * r.src + 2 ^ 16 * r.sub + 2 ^ 32 * r.arg0
  let low := seq % 2 ^ 40
  let body := ((stepBytes [w0, w1, r.arg1] ++ (List.range 5).map fun i => bits low (8 * i) 8).take 29)
  [w0, w1, r.arg1, low + 2 ^ 40 * (crc32c body % 2 ^ 16) + 2 ^ 63]

/-- Words of a record stored from an address on. -/
def State.putWords (s : State) (a : Nat) (ws : List Nat) : State :=
  (ws.zip (List.range ws.length)).foldl (fun t e => t.nvmPut (a + e.2) (BitVec.ofNat 64 e.1)) s

/-- R486: a record is written and verified in the ledger; the head advances. -/
def State.ledgerWrite (s : State) (r : Rec) : State :=
  let h := s.obs.head
  let s1 := s.putWords (ledgerWord (h % 8192) 0) (r.words h)
  { s1 with obs := { s1.obs with head := h + 1 } }

def State.msHead (s : State) (st : Nat) : Nat := tget 0 s.obs.msHead st

/-- R487: the milestone copy; a full log counts the record instead. -/
def State.msWrite (s : State) (st : Nat) (r : Rec) : State :=
  let h := s.msHead st
  if 512 ≤ h then
    { s with obs := { s.obs with msDropped := tput 0 s.obs.msDropped st (satAdd 16 (tget 0 s.obs.msDropped st) 1) } }
  else
    let s1 := s.putWords (msWord st h 0) (r.words h)
    let s2 := { s1 with obs := { s1.obs with msHead := tput 0 s1.obs.msHead st (h + 1) } }
    if h + 1 = 512 then s2.raise 6 F.obInt_ms_full [] [(F.obInt_first_src, st)] else s2

/-- R488: when the queue has space again, one DROPPED record tells how many were lost. -/
def State.dropRecord (s : State) : State :=
  let o := s.obs.refill
  if o.lost = 0 || decide (queueCap ≤ o.queue.length) then s
  else (({ s with obs := { o with lost := 0 } }).log .dropped 0 0 o.lost).raise 6 F.obInt_drop [] [(F.obInt_first_src, 0)]

/-- Another position holds the NVM write port. -/
def State.nvmBusy (s : State) : Bool := match (s.arb 9).owner with
  | some j => j ≠ 0
  | none => false

/-- R486, R487: the oldest record is written, with its milestone copy. -/
def State.recordWrite (s : State) : State :=
  if s.supply.shut || s.supply.dip || !s.supply.vaon || s.nvmBusy then s else
  let o := s.obs.refill
  match o.tail with
  | [] => s
  | r :: rest =>
    let s1 := ({ s with obs := ({ o with tail := rest }).refill }).ledgerWrite r
    let s2 := if recMilestone r.ty && decide (r.src < 8) then s1.msWrite r.src r else s1
    s2.dropRecord

def execRecordWrite (s : State) : Res := .next s.recordWrite

/-- A record that the always-on domain writes at once, whatever the queue holds (R488). -/
def State.logNow (s : State) (ty : RecTy) (src sub a0 a1 : Nat) : State :=
  s.ledgerWrite ⟨ty.code, src, sub, a0 % 2 ^ 32, a1, s.obs.hours, s.obs.pcyc⟩

/-! ## Clearing a log (R491, R492) -/

/-- R491: a nonce is drawn for a target; a new request replaces the one before. -/
def State.clearRequest (s : State) (target : Nat) : State :=
  if 8 < target then s else
  let n := (Config.freeNonce s.free).toNat
  { s with free := s.free + 1, obs := { s.obs with clearReq := some (target, n) } }

def execLogClearRequest (target : Nat) (s : State) : Res := .next (s.ifUp fun t => t.clearRequest target)

/-- The nonce has been valid for 60 s. -/
def execNonceExpire (s : State) : Res := .next { s with obs := { s.obs with clearReq := none } }

/-- R492: zeroing ends. -/
def State.zeroDone (s : State) : State :=
  match s.obs.zeroing with
  | none => s
  | some (t, _) => ({ s with obs := { s.obs with zeroing := none } }).raise 6 F.obInt_clr_done [] [(F.obInt_first_src, t % 8)]

def execClearZeroingDone (s : State) : Res := .next s.zeroDone

/-- R492: the log is cleared at the moment of acceptance; its words read 0 from then on; one LOG_CLEAR record follows, which
for a ledger clear is the first at the new base. A zeroing that still ran ends first. -/
def State.clearLog (s0 : State) (target : Nat) : State :=
  let s := s0.zeroDone
  if target = 8 then
    let n := s.obs.head - s.obs.base
    let s1 := { s with nvm := tfilter s.nvm fun a _ => decide (32768 ≤ a)
                       obs := { s.obs with base := s.obs.head, zeroing := some (8, 32768), clearReq := none } }
    s1.logNow .logClear 8 0 n 0
  else
    let n := s.msHead target
    let mine := fun (a : Nat) => decide (msWord target 0 0 ≤ a) && decide (a < msWord target 512 0)
    let s1 := { s with nvm := tfilter s.nvm fun a _ => !mine a
                       obs := { s.obs with msHead := tput 0 s.obs.msHead target 0, zeroing := some (target, 2048), clearReq := none } }
    s1.logNow .logClear target 0 n 0

/-- R491: the enclave's LOG_CLEAR: OK when target and nonce match a valid request, DENIED otherwise. -/
def State.keyLogClear (s : State) (target nonce : Nat) : State :=
  if s.obs.clearReq = some (target, nonce) then (s.clearLog target).emit (.keyBus 0)
  else (s.fsat F.obClrStat_denied [] 1).emit (.keyBus 1)

def execLogClear (target nonce : Nat) (s : State) : Res := .next (if s.cut then s else s.keyLogClear target nonce)

/-! ## Operating hours (R484) -/

/-- One unit of the operating-hours counter while VDD is above its threshold. -/
def State.hoursTick (s : State) : State :=
  if s.supply.dip || !s.supply.vaon then s else { s with obs := { s.obs with hours := (s.obs.hours + 1) % 2 ^ 32 } }

def execHoursTick (s : State) : Res := .next s.hoursTick

end Sys2Proof.Machine
end

