-- ==== Sys2Proof/Machine/Security.lean ====
section
/-! DEFINITION. Key slots, the key bus, the lifecycle and the debug port (R463 to R481). A command of the key bus is answered
in the record of outputs: 0 OK, 1 DENIED, 2 BUSY (R467). -/
namespace Sys2Proof.Machine

/-! ## Key slots (R468) -/

/-- SE_ERR for a slot (R481). -/
def State.slotError (s : State) (f : Fld) (slot : Nat) : State := s.raise 4 f [] [(F.seErr_first_slot, slot)]

/-- LOAD. During a resumed change it is answered BUSY (R471); a slot that the state forbids is DENIED, a loaded one BUSY. -/
def State.keyLoad (s : State) (slot : Nat) (key : BitVec 512) : State :=
  if s.sec.resume then (s.slotError F.seErr_slot_busy slot).emit (.keyBus 2)
  else if !lcPermits s.effective slot then (s.slotError F.seErr_slot_denied slot).emit (.keyBus 1)
  else if (tfind s.keys slot).isSome then (s.slotError F.seErr_slot_busy slot).emit (.keyBus 2)
  else ({ s with keys := tset s.keys slot key }).emit (.keyBus 0)

def execKeyLoad (slot : Nat) (key : BitVec 512) (s : State) : Res :=
  onUnit (decide (slot < 64)) (if s.cut then s else s.keyLoad slot key)

/-- Reads and merge-buffer entries of a slot that were admitted and have not completed. -/
def State.slotInUse (s : State) (slot : Nat) : Bool :=
  s.pccs.any fun e => (e.2.rq.any fun x => x.place.key = some slot) || e.2.mb.any fun m => m.place.key = some slot

/-- The slot holds no key any more. -/
def State.zeroize (s : State) (slot : Nat) : State :=
  { s with keys := tdel s.keys slot, clearing := s.clearing.filter (· ≠ slot) }

/-- CLEAR: new accesses are refused from now on; an empty slot is clear already. -/
def State.keyClear (s : State) (slot : Nat) : State :=
  if (tfind s.keys slot).isNone then s.emit (.keyBus 0)
  else if s.clearing.contains slot then s
  else { s with clearing := s.clearing ++ [slot] }

def execKeyClear (slot : Nat) (s : State) : Res := onUnit (decide (slot < 64)) (if s.cut then s else s.keyClear slot)

/-- The last access admitted before the CLEAR has left: the slot is zeroized and the CLEAR answered OK. -/
def State.keyClearDone (s : State) (slot : Nat) : State :=
  if !s.clearing.contains slot || s.slotInUse slot then s else (s.zeroize slot).emit (.keyBus 0)

def execKeyClearDone (slot : Nat) (s : State) : Res := onUnit (decide (slot < 64)) (s.keyClearDone slot)

/-- A slot is cleared on the device's own account: what was admitted completes under the old key first. -/
def State.clearSlot (s : State) (slot : Nat) : State :=
  if (tfind s.keys slot).isNone then s else
  (s.pccs.foldl (fun t e => t.settle e.1 (fun q => q.key = some slot) 512) s).zeroize slot

/-! ## Debug port (R475, R476) -/

/-- R476: the port closes: its grants end at their safe boundaries, its requests go, halted interpreters run again. -/
def State.closeDebug (s : State) (cause : Nat) : State :=
  if s.fget F.seDbgStat_level = 0 then s else
  let s1 := (s.fset F.seDbgStat_level [] 0).log .debugClose 0 cause
  let s2 := (List.range 9).foldl (fun t i =>
    let a := t.arb i
    if a.owner = some 7 then t.setArb i { a with revoke := true, seize := false } else t.arbDrop i 7) s1
  { s2 with sec := { s2.sec with dbgEnd := 0 }
            interps := tmap s2.interps fun _ (i : Interp) => { i with halted := false } }

/-- Ticks in a second. -/
def tickSec : Nat := 6600000000

/-- R475: a grant of level 1 or 2 opens the port for a lifetime. -/
def State.dbgGrant (s : State) (level life : Nat) : State :=
  if level = 0 || 2 < level then s.emit (.keyBus 1)
  else
    let s1 := (s.fset F.seDbgStat_level [] level).fsat F.seDbgStat_opens [] 1
    (({ s1 with sec := { s1.sec with dbgEnd := s1.clk.now + life % 2 ^ 24 * tickSec } }).log .debugOpen 0 level
      (life % 2 ^ 24)).emit (.keyBus 0)

def execDbgGrant (level life : Nat) (s : State) : Res := .next (if s.cut then s else s.dbgGrant level life)
def execDbgRevoke (s : State) : Res := .next (if s.cut then s else (s.closeDebug 1).emit (.keyBus 0))
/-- The lifetime has run out. -/
def execDebugExpire (s : State) : Res := .next (s.closeDebug 0)

/-- R475, level 2: halt (0), step (1) and resume (2) an interpreter, read (3) and write (4) a word of its memory. A step
leaves it halted: what the firmware does in one step is not given. -/
def State.debugOp (s : State) (k op addr : Nat) (val : Word) : State :=
  if s.fget F.seDbgStat_level ≠ 2 then s else
  let i := tget Interp.init s.interps k
  let put := fun (j : Interp) => { s with interps := tput Interp.init s.interps k j }
  if op = 0 then put { i with halted := true }
  else if op = 2 then put { i with halted := false }
  else if op = 3 then s.emit (.regValue 2 addr ((tfind i.mem addr).getD (Config.fwImage k addr)))
  else if op = 4 then put { i with mem := tset i.mem addr val }
  else s

def execDebugHalt (k op addr : Nat) (val : Word) (s : State) : Res :=
  onUnit (decide (k < 4 && op < 5 && addr < 32768)) (s.debugOp k op addr val)

/-! ## Lifecycle (R469 to R474) -/

/-- R471: targets that the device accepts. -/
def lcAccepts (now target : Nat) : Bool :=
  decide (target ≤ 4)
    && (decide (lcRank now ≤ lcRank target)
      || (now = lcManufacture && target = lcProvisioned) || (now = lcProvisioned && target = lcDeployed))

/-- R473: the customer slots of the recipe store are emptied; the generation of an emptied slot moves on. -/
def State.emptyRecipes (s : State) : State :=
  { s with recipes := tmap s.recipes fun k (r : RecipeSlot) =>
      if k < 32 || !r.used then r else { RecipeSlot.init with gen := (r.gen + 1) % 256 } }

/-- R473, R474: the scrap wipe: every stack is held in RESET, and every table of the NVM store outside the marker is 0. A stack in
RESET keeps nothing that could be read again (log entry 13). -/
def State.scrapWipe (s : State) : State :=
  let s1 := (List.range 8).foldl (fun t k =>
    if t.link k = 0 || t.link k = 1 then t else t.stackOff k (t.fget F.scLinkStat_cause [k])) s
  let s2 := (s1.failFw.fset F.cpFwStat_state [] 0).fset F.btStat_phase [] 7
  let s3 := (List.range 8).foldl (fun t k => t.rput .pkRetired [k] 0) s2
  let o : Obs := { s3.obs with queue := [], tail := [], lost := 0, head := 0, base := 0, msHead := [], msDropped := [], hours := 0,
                               pcyc := 0, clearReq := none, zeroing := none }
  let hard : Table (List Repair) := tmap s3.repairs fun _ (l : List Repair) => l.filter (·.hard)
  ({ s3 with nvm := [], mapCopy := none, laneMaps := [], remaps := [], spares := [], mem := [], epochs := [], trims := [], retPend := [], ladder := [],
             repairs := hard, obs := o }).log .scrapped

/-- Steps 2 to 5 of R471, which an interrupted change repeats. -/
def State.finishChange (s : State) : State :=
  let t := s.sec.target
  let old := s.sec.committed
  let s1 := ((List.range 64).filter fun i => !lcPermits t i).foldl State.clearSlot s
  let s2 := if t = lcRma then s1.emptyRecipes else if t = lcScrapped then s1.scrapWipe else s1
  (({ s2 with sec := { s2.sec with committed := t, intent := false, resume := false } }).log .lcChange old t).emit (.keyBus 0)

/-- LC_CHANGE: it closes the debug port; an accepted change runs through steps 1 to 5. -/
def State.lcChange (s : State) (target : Nat) : State :=
  let s1 := s.closeDebug 2
  if !lcAccepts s1.effective target then s1.emit (.keyBus 1)
  else ({ s1 with sec := { s1.sec with target := target, intent := true } }).finishChange

def execLcChange (target : Nat) (s : State) : Res := .next (if s.cut then s else s.lcChange target)

/-- LC_QUERY: the hub's state enters the effective state (R470). For a code that R469 gives no state the state taken is a free value
(DESIGN CHOICE, log entry 4). -/
def State.takeHub (s : State) (hub : Nat) : State :=
  if hub ≤ 4 then { s with sec := { s.sec with hub := hub } } else
  let (t, n) := s.drawNat
  { t with sec := { t.sec with hub := n % 5 } }

def execLcQuery (hub : Nat) (s : State) : Res := .next (if s.cut then s else (s.takeHub hub).emit (.keyBus 0))

end Sys2Proof.Machine
end

