-- ==== Sys2Proof/Machine/CoreReset.lean ====
section
/-! DEFINITION. What a reset of the core domain leaves (R12, R389, R422, R427, R475, R488, R520 step W4): every register at its
warm value, every queue, packet and unit free, the key slots empty. Contents of stacks and of the NVM store stay. -/
namespace Sys2Proof.Machine

/-- R12: registers after a warm reset. The retired mask comes from the NVM store; only a cold reset reaches the registers of the
NVM arbiter (R389). With the sensor array still at work, TM_SENS stays (R421). -/
def State.warmRegs (s : State) (sensors : Bool) : State :=
  let nvmArb := fun (r : Reg) (ix : List Nat) => decide (r.scope = .arb) && decide ((ix[0]?).getD 0 = 9)
  let stays := fun (r : Reg) => decide (r = .pkRetired) || (sensors && decide (r = .tmSens))
  s.resetRegs (fun r ix => !stays r && !nvmArb r ix) fun _ f => f.warmKeep

/-- The recorder after the reset: records of the core queue are lost and counted; the always-on tail goes on unless the
main domains are cut (R488). -/
def Obs.afterReset (o : Obs) (cutOff : Bool) : Obs :=
  let gone := o.queue.length + if cutOff then o.tail.length else 0
  { o with queue := [], tail := if cutOff then [] else o.tail, lost := o.lost + gone, clearReq := none, lmon := [], vmon := [],
           chk := [] }

/-- A port after the reset; PRST_N and PREV are the client's. -/
def Port.afterReset (p : Port) : Port := { Port.init with prstN := p.prstN, prev := p.prev }

/-- PRDY falls on every port (R520, step W1). -/
def State.portsOff (s : State) : State :=
  (List.range 26).foldl (fun t n => if (t.port n).st = .ready && n < 24 then t.emit (.ready n false 0) else t) s

/-- Units, queues and tables of the core domain. -/
def State.coreUnits (s : State) (cutOff : Bool) : State :=
  let th := s.therm
  let re : Table RecipeSlot := tmap s.recipes fun _ (r : RecipeSlot) =>
    if r.used && r.released then { RecipeSlot.init with gen := r.gen } else r
  { s with
    pregs := []
    ports := tmap s.ports fun _ (p : Port) => p.afterReset
    gates := []
    tenants := []
    wheel := 0
    pccs := tmap s.pccs fun _ (p : Pcc) => p.restart
    retPend := s.retPend.filter fun (e : RetPend) => e.noMove
    rows := []
    ladder := []
    links := tmap s.links fun _ (l : Link) => { Link.init with lanes := l.lanes }
    returns := []
    keys := []
    clearing := []
    hands := []
    fetches := []
    demandQ := []
    prefetchQ := []
    far := []
    attns := []
    recipes := re
    runs := []
    cores := []
    clReset := 0
    packets := []
    fwq := []
    interps := []
    mgmtQ := []
    obs := s.obs.afterReset cutOff
    i3want := []
    therm := { Therm.init with bin := th.bin, trim := th.trim, seen := if cutOff then th.seen else [],
                               misses := if cutOff then th.misses else [] }
    sec := { s.sec with dbgEnd := 0 }
    clk := { s.clk with fclk0 := s.clk.now, mclkAcc := 0, mclkRef := s.clk.now } }

/-- The core domain is reset (W4), or held in reset with the main domains cut. -/
def State.coreReset (s : State) (cutOff : Bool) : State :=
  let gone := s.obs.queue.length + if cutOff then s.obs.tail.length else 0
  let s1 := (s.portsOff.fsat F.obEvrStat_dropped [] gone).warmRegs cutOff
  (List.range 9).foldl (fun t i => t.setArb i Arb.init) (s1.coreUnits cutOff)

end Sys2Proof.Machine
end

