-- ==== Sys2Proof/Machine/Counters.lean ====
section
/-! DEFINITION. The performance counters and their publication (R493 to R497, R512, R513), the monitors' snapshots and level
samples (R500 to R502), and the packets CHECK_ARM and CHECK_READ (R504 to R507). -/
namespace Sys2Proof.Machine

/-! ## Counters (R493 to R495) -/

/-- Instances of an event's group; none for a code outside the table of R494. -/
def eventInsts (e : Nat) : Option Nat :=
  if e ≤ 1 then some 1
  else if e ≤ 3 then some 8
  else if 0x100 ≤ e ∧ e ≤ 0x101 then some 26
  else if 0x102 ≤ e ∧ e ≤ 0x109 then some 24
  else if 0x200 ≤ e ∧ e ≤ 0x20B then some 512
  else if 0x300 ≤ e ∧ e ≤ 0x303 then some 8
  else if 0x400 ≤ e ∧ e ≤ 0x405 then some 8
  else if 0x500 ≤ e ∧ e ≤ 0x503 then some 24
  else if 0x600 ≤ e ∧ e ≤ 0x605 then some 1
  else if 0x700 ≤ e ∧ e ≤ 0x701 then some 4096
  else if 0x800 ≤ e ∧ e ≤ 0x801 then some 26
  else none

/-- An instance is in range: the far-tier events name ports 24 and 25. -/
def eventOk (e inst : Nat) : Bool := match eventInsts e with
  | some n => decide (inst < n) && (decide (e < 0x800) || decide (24 ≤ inst))
  | none => false

/-- R494: a write of OB_PMC_CFG(i) with a code outside the table or an instance out of range is ignored. -/
def State.pmcConfig (s : State) (i : Nat) (w : Word) : State :=
  let v := w.toNat
  if eventOk (bits v 4 12) (bits v 16 12) then s.rput .obPmcCfg [i] (BitVec.ofNat 64 (setBits (v % 2 ^ 28) 2 2 0)) else s

def execPmcConfig (i : Nat) (w : Word) (s : State) : Res := onUnit (decide (i < 256)) (s.ifUp fun t => t.pmcConfig i w)

def State.pmcWrite (s : State) (i : Nat) (w : Word) : State := s.fset F.obPmc_count [i] w.toNat

def execPmcWrite (i : Nat) (w : Word) (s : State) : Res := onUnit (decide (i < 256)) (s.ifUp fun t => t.pmcWrite i w)

/-- R495: every counter is set to 0; the overflow bits stay. -/
def State.pmcClear (s : State) : State := (List.range 256).foldl (fun t i => t.fset F.obPmc_count [i] 0) s

def execPmcClearAll (s : State) : Res := .next (s.ifUp State.pmcClear)

/-- R495: the events of one cycle take a counter past 2^48 - 1. -/
def State.pmcWrap (s : State) (i k : Nat) : State :=
  if s.fget F.obPmcCtl_en = 1 && s.fget F.obPmcCfg_en [i] = 1 && decide (2 ^ 48 ≤ s.fget F.obPmc_count [i] + k) then s.pmcAdd i k
  else s

def execPmcWrap (i k : Nat) (s : State) : Res := onUnit (decide (i < 256)) (s.pmcWrap i k)

/-! ## Publication (R496, R497) -/

/-- Bit b of OB_USER_EN for counter i. -/
def State.userEn (s : State) (i : Nat) : Bool := bit (s.rget .obUserEn [i / 64]).toNat (i % 64)

/-- The 280 words of a publication. -/
def State.pubWords (s : State) (seq : Nat) : List Nat :=
  [seq % 2 ^ 32, s.fclk, 0, 0, 0, 0, 0, 0]
    ++ (List.range 256).map (fun i => if s.userEn i then s.fget F.obPmc_count [i] else 0)
    ++ (List.range 4).map (fun w => ((s.rget .obPmcOvf [w]) &&& (s.rget .obUserEn [w])).toNat)
    ++ [0, 0, 0, 0, seq % 2 ^ 32, 0, 0, 0, 0, 0, 0, 0]

/-- The counters are copied at one moment and written as header, body and trailer; a block that cannot be written is
skipped. -/
def State.publish (s : State) : State :=
  if s.fget F.obPubCfg_en = 0 then s else
  let a := s.fget F.obPubAddr_addr * 64
  let fail := fun (t : State) => t.raise 6 F.obInt_pub_err [] [(F.obInt_first_src, 0)]
  if (s.memRegion (s.fget F.obPubCfg_tenant) 4096 a 2240).isSome then fail s else
  let seq := s.fget F.obPubCfg_seq + 1
  let ws := s.pubWords seq
  let s1 := s.fset F.obPubCfg_seq [] seq
  let (s2, ok) := (List.range 35).foldl (fun (x : State × Bool) i =>
    if !x.2 then x else
    let (t, st, _) := x.1.writeMem (a + 64 * i) (gOfWords ((ws.drop (8 * i)).take 8))
    (t, st = .ok)) (s1, true)
  if ok then s2 else fail s2

def execPublication (s : State) : Res := .next s.publish

/-! ## Snapshots (R500) -/

def pack2 (lo hi : Nat) : Word := BitVec.ofNat 64 (lo % 2 ^ 32 + 2 ^ 32 * (hi % 2 ^ 32))

/-- Every monitor's live values go to its shadow registers; with clr they start afresh. -/
def State.monSnap (s : State) (clr : Bool) : State :=
  let s1 := (List.range 90).foldl (fun t m =>
    let l := tget LMon.init t.obs.lmon m
    let t1 := ((t.rput .obLmonMm [m] (pack2 l.min l.max)).rput .obLmonCnt [m] (BitVec.ofNat 64 l.samples)).rput .obLmonSum [m]
      (BitVec.ofNat 64 l.sum)
    (List.range 32).foldl (fun u b => u.rput .obLmonHist [m, b] (BitVec.ofNat 64 (tget 0 l.bins b))) t1) s
  let s2 := (List.range 32).foldl (fun t v =>
    let l := tget VMon.init t.obs.vmon v
    ((((t.rput .obVmonMm [v] (pack2 l.min l.max)).rput .obVmonLast [v] (BitVec.ofNat 64 l.last)).rput .obVmonSum [v]
      (BitVec.ofNat 64 l.sum)).rput .obVmonCnt [v] (BitVec.ofNat 64 l.samples)).fset F.obVmonThr_crossings [v] l.crossings) s1
  if clr then
    { s2 with obs := { s2.obs with lmon := []
                                   vmon := tmap s2.obs.vmon fun _ (l : VMon) => { VMon.init with logged := l.logged } } }
  else s2

def execMonSnap (clr : Bool) (s : State) : Res := .next (s.ifUp fun t => t.monSnap clr)

/-! ## Level samples (R501, R502) -/

/-- Tags outstanding on a port (R41, R60). -/
def State.outstanding (s : State) (n : Nat) : Nat :=
  if n < 24 then (s.port n).reqs.length + (s.port n).frames.length
  else (s.far.filter fun r => r.ft = n - 24 && r.tries ≠ 0).length

/-- Requests of a tenant that wait in its queue (R349). -/
def State.tenWaiting (s : State) (t : Nat) : Nat :=
  sumBy (fun e => (e.2.reqs.filter fun r => r.stage = .tenantQueue && r.tenant = t).length) s.ports

/-- Bytes held in the stream buffers of a cluster's cores. -/
def State.bufBytes (s : State) (cl : Nat) : Nat :=
  sumBy (fun e => if e.1 / 16 = cl then sumBy (fun (g : Eng) => 64 * g.buf.length) e.2.engs else 0) s.cores

/-- Temperature of a zone, in units of 0.25 °C (R438). -/
def State.zoneTemp (s : State) (z : Nat) : Int := sInt 11 (s.fget F.tmZone_temp [z])

/-- R501: the value of a source at an instance; none for a source or instance that does not exist. -/
def State.levelOfSrc (s : State) (src inst : Nat) : Option Int :=
  let pc := fun (f : Pcc → Nat) => if inst < 512 then some (Int.ofNat (f (s.pcc inst))) else none
  let port := fun (n : Nat) (f : Nat → Nat) => if inst < n then some (Int.ofNat (f inst)) else none
  match src with
  | 0x01 => pc Pcc.rqUsed
  | 0x02 => pc fun p => p.wq.length
  | 0x03 => pc fun p => p.mb.length
  | 0x04 => pc fun p => maxBy (fun e => e.2.debt) p.banks
  | 0x05 => port 26 s.outstanding
  | 0x06 => port 24 fun n => (s.port n).rspHeld
  | 0x07 => port 24 fun n => (s.port n).staged
  | 0x08 => some (Int.ofNat s.packets.length)
  | 0x09 => some (Int.ofNat s.fwq.length)
  | 0x0A => port 4096 s.tenWaiting
  | 0x0B => port 8 s.bufBytes
  | 0x10 => if inst < 8 then some (s.zoneTemp inst) else none
  | 0x11 => if inst < 8 then some (4 * s.stackTemp inst) else none
  | 0x12 => some (sInt 11 (s.fget F.tmStat_max_t))
  | 0x13 => some (Int.ofNat (s.fget F.tmPwrStat_est_w))
  | 0x14 => some (Int.ofNat (s.fget F.tmPwrStat_skip))
  | _ => none

/-- Saturating sum of signed samples in 64 bits. -/
def sumSat (sum : Nat) (x : Int) : Nat :=
  ofInt 64 (max (-(2 ^ 63)) (min (2 ^ 63 - 1) (sInt 64 sum + x)))

/-- One sample of a level monitor: the statistics, the crossing of its threshold and the LEVEL record. -/
def State.levelSample (s : State) (v : Nat) : State :=
  if s.fget F.obVmonCfg_en [v] = 0 then s else
  match s.levelOfSrc (s.fget F.obVmonCfg_src [v]) (s.fget F.obVmonCfg_inst [v]) with
  | none => s
  | some x =>
    let l := tget VMon.init s.obs.vmon v
    let hi := sInt 32 (s.fget F.obVmonThr_hi [v])
    let cross := decide (hi ≤ x) && l.samples ≠ 0 && decide (sInt 32 l.last < hi)
    let second := 1000000 * tickUs
    let rec? := cross && s.fget F.obVmonCfg_log [v] = 1 && (match l.logged with
      | some t => decide (t + second ≤ s.clk.now)
      | none => true)
    let m : VMon := ⟨ofInt 32 (min (sInt 32 l.min) x), ofInt 32 (max (sInt 32 l.max) x), ofInt 32 x, sumSat l.sum x,
      satAdd 48 l.samples 1, satAdd 32 l.crossings (b2n cross), if rec? then some s.clk.now else l.logged⟩
    let s1 := { s with obs := { s.obs with vmon := tput VMon.init s.obs.vmon v m } }
    let s2 := if cross then s1.raise 6 F.obInt_level [] [(F.obInt_first_src, v)] else s1
    if rec? then s2.log .level v 0 (ofInt 32 x) (s.fget F.obVmonThr_hi [v]) else s2

def execLevelSample (v : Nat) (s : State) : Res := onUnit (decide (v < 32)) (s.levelSample v)

/-! ## CHECK_ARM and CHECK_READ (R504, R506, R507) -/

/-- R506: the packet that an arm names has started or has replied. -/
def State.checkGone (s : State) (port ring seq : Nat) : Bool :=
  match (s.packets.filter fun e => e.2.port = port && e.2.ring = ring && e.2.seq = seq).getLast? with
  | some (_, t) => t.st = .running || t.st = .fixed
  | none =>
    let r := (s.port port).ring ring
    let d := (r.seq + 65536 - seq) % 65536
    decide (1 ≤ d) && decide (d ≤ Nat.min 32768 r.parsed)

def State.runCheckArm (s : State) (id : Nat) : State :=
  match s.takeFw id 0x70 with
  | none => s
  | some (t, p) =>
    let ctl := p.word 32
    let src := bits ctl 4 4
    let sel := bits ctl 32 25
    if src < 2 && t.checkGone p.port (bits ctl 24 2) (sel % 2 ^ 16) then t.fixPacket p .notFound
    else
      let u : ChkUnit := ⟨if src = 3 then .run else .armed, p.port, 0, ctl, p.word 40, p.word 48, p.word 48, 0,
        if src = 3 then some (sel % 32) else none⟩
      (t.setChk (bits ctl 0 4) u).fixPacket p .done

def execCheckArm (id : Nat) (s : State) : Res := .next (s.runCheckArm id)

def State.runCheckRead (s : State) (id : Nat) : State :=
  match s.takeFw id 0x71 with
  | none => s
  | some (t, p) =>
    let k := bits (p.word 32) 0 4
    let u := t.chk k
    if u.st = .idle then t.fixPacket p .notFound
    else
      let t1 := if bit (p.word 32) 4 then t.setChk k ChkUnit.init else t
      t1.fixPacket p .done u.bytes 0 u.value

def execCheckRead (id : Nat) (s : State) : Res := .next (s.runCheckRead id)

end Sys2Proof.Machine
end

