-- ==== Sys2Proof/Machine/Thermal.lean ====
section
/-! DEFINITION. Heat, power and supplies (R412 to R438): sensors and zones, throttle levels, column caps, the hairspring
loop, the power window, shutdown and loss of supplies. A reading is a whole number of 0.25 °C (R413). -/
namespace Sys2Proof.Machine

/-! ## Column caps (R418 to R420) -/

/-- Column cap demand of a throttle level (R418). -/
def levelDemand (lv : Nat) : Nat := lv - 1

/-- Demand of a stack's temperature; a stale reading asks for at least 1 (R420). -/
def State.stackDemand (s : State) (k : Nat) : Nat := Nat.max (tget 0 s.therm.demand k) (b2n (bit s.therm.stale k))

/-- R419: cmd_cap is the larger of the zone's demand and the stack's. -/
def State.setCap (s : State) (k : Nat) : State :=
  s.fset F.scSchedCfg_cmd_cap [k] (Nat.max (levelDemand (s.fget F.tmZone_level [k])) (s.stackDemand k))

/-- R420: the stack demand from its base demand and its stale mark; a change sets TM_INT.stack_cap. -/
def State.setDemand (s : State) (k d : Nat) (stale : Bool) : State :=
  let s1 := { s with therm := { s.therm with demand := tput 0 s.therm.demand k d, stale := setBits s.therm.stale k 1 (b2n stale) } }
  if s1.stackDemand k = s.stackDemand k then s1
  else (s1.setCap k).raise 5 F.tmInt_stack_cap [] [(F.tmInt_first_zone, k)]

/-- R420: demand at a temperature, with hysteresis. -/
def State.demandAt (s : State) (k : Nat) (temp : Int) : Nat :=
  let d := tget 0 s.therm.demand k
  let c1 := Int.ofNat (s.fget F.tmStackCfg_cap1_c)
  let c2 := Int.ofNat (s.fget F.tmStackCfg_cap2_c)
  let h := Int.ofNat (s.fget F.tmStackCfg_hyst_c)
  if c2 ≤ temp || (d = 2 && c2 - h ≤ temp) then 2
  else if c1 ≤ temp || (1 ≤ d && c1 - h ≤ temp) then 1 else 0

/-- R237, R239, R420: a stack's temperature is read through its maintenance port; one that does not serve gives no reading. -/
def State.stackTempRead (s : State) (k : Nat) (temp : Int) : State :=
  if s.cut || !s.stackUp k then s
  else s.withPort k 0 fun t => (t.tempRead k temp).setDemand k (t.demandAt k temp) false

def execStackTempRead (k : Nat) (temp : Int) (s : State) : Res := onUnit (decide (k < 8)) (s.stackTempRead k temp)

/-- R420: no valid reading for stale_ms: hot, and a demand of at least 1. -/
def State.stackStale (s : State) (k : Nat) : State :=
  if s.cut then s else ((s.fset F.scRefCfg_hot [k] 1).setRefi k).setDemand k (tget 0 s.therm.demand k) true

def execStackTempStale (k : Nat) (s : State) : Res := onUnit (decide (k < 8)) (s.stackStale k)

/-! ## Sensors (R412 to R415) -/

/-- Zone of a sensor and its number within the zone (R412). -/
def sensorZone (k : Nat) : Nat × Nat := if k < 48 then (k / 6, k % 6) else ((k - 48) / 2, 6 + (k - 48) % 2)
/-- Sensors of a zone, in its order. -/
def zoneSensors (z : Nat) : List Nat := ((List.range 6).map (6 * z + ·)) ++ [48 + 2 * z, 49 + 2 * z]

/-- R415: a sensor fails. While the main domains are cut only the sensor array works (R421). -/
def State.sensorFail (s : State) (k why : Nat) : State :=
  if s.cut then s.fset F.tmSens_state [k] why else
  let (z, i) := sensorZone k
  let s1 := ((s.fset F.tmSens_state [k] why).fset F.tmZone_fail [z] (setBits (s.fget F.tmZone_fail [z]) i 1 1)).fset
    F.tmZone_ack_pend [z] 1
  (s1.raise 5 F.tmInt_sens_fail [] [(F.tmInt_first_zone, z)]).log .sensorFail k why (s1.fget F.tmSens_reading [k])

/-- One conversion of a sensor, or none in its period. -/
def State.convert (s : State) (k : Nat) (r : Option Int) : State :=
  if s.fget F.tmSens_state [k] ≠ 0 then s else
  match r with
  | none =>
    let n := tget 0 s.therm.misses k + 1
    let s1 := { s with therm := { s.therm with misses := tput 0 s.therm.misses k n } }
    if n < 3 then s1 else s1.sensorFail k 1
  | some x =>
    let old := s.reading k
    let jump := tget false s.therm.seen k && decide (8 < (x - old).natAbs)
    let s1 := { s with therm := { s.therm with misses := tput 0 s.therm.misses k 0, seen := tput false s.therm.seen k true } }
    let s2 := s1.fset F.tmSens_reading [k] (ofInt 11 x)
    if jump then s2.sensorFail k 2
    else if x < -160 || 600 < x then s2.sensorFail k 3
    else s2

/-! ## Zones (R413, R415, R417) -/

/-- Largest of a list of readings. -/
def maxInt : List Int → Option Int
  | [] => none
  | x :: r => match maxInt r with
    | none => some x
    | some y => some (if y < x then x else y)

/-- Zone temperature: the maximum of the valid sensors, with the margin once one has failed; none without a valid sensor. -/
def State.zoneNow (s : State) (z : Nat) : Option Int :=
  (maxInt (((zoneSensors z).filter s.sensorOk).map s.reading)).map fun t =>
    if s.fget F.tmZone_fail [z] = 0 then t else t + 4 * Int.ofNat (s.fget F.tmCfg_fail_margin_c)

/-- Entry threshold of a level, and the threshold below which it is left, in 0.25 °C. -/
def State.enterAt (s : State) (lv : Nat) : Int := 4 * Int.ofNat (s.fget F.tmCfg_thr_c + (lv - 1) * s.fget F.tmCfg_step_c)
def State.leaveAt (s : State) (lv : Nat) : Int := s.enterAt lv - 4 * Int.ofNat (s.fget F.tmCfg_hyst_c)

/-- R417: the zone comes to a level. -/
def State.setLevel (s : State) (z lv : Nat) : State :=
  ((((s.fset F.tmZone_level [z] lv).setCap z).raise 5 F.tmInt_throttle [] [(F.tmInt_first_zone, z)]).log .throttle z lv
    (s.fget F.tmZone_temp [z]))

/-- R417: warning of a zone. -/
def State.setWarn (s : State) (z : Nat) (t : Int) : State :=
  let w := 4 * Int.ofNat (s.fget F.tmCfg_warn_c)
  if bit s.therm.warn z then
    (if t < w - 4 * Int.ofNat (s.fget F.tmCfg_hyst_c) then { s with therm := { s.therm with warn := setBits s.therm.warn z 1 0 } } else s)
  else if w ≤ t then
    (({ s with therm := { s.therm with warn := setBits s.therm.warn z 1 1 } }).raise 5 F.tmInt_warn []
      [(F.tmInt_first_zone, z)]).log .thermWarn z 0 (ofInt 11 t)
  else s

/-- A zone after a conversion: its temperature, warning and level. -/
def State.zoneStep (s : State) (z : Nat) : State :=
  let none8 := s.fget F.tmZone_fail [z] = 255
  let s1 := if none8 then s.fset F.tmZone_forced [z] 1 else s
  let (s2, hot) := match s1.zoneNow z with
    | none => (s1, 0)
    | some t =>
      let u := (s1.fset F.tmZone_temp [z] (ofInt 11 t)).setWarn z t
      (u, maxBy (fun lv => if u.enterAt lv ≤ t then lv else 0) [1, 2, 3])
  let lv := if none8 then Nat.max hot 2 else hot
  if s2.fget F.tmZone_level [z] < lv then s2.setLevel z lv else s2

/-- R431: TM_STAT follows the zones. -/
def State.thermStat (s : State) : State :=
  let zs := List.range 8
  let top := zs.foldl (fun a z => if s.zoneTemp a < s.zoneTemp z then z else a) 0
  let s1 := (s.fset F.tmStat_max_t [] (s.fget F.tmZone_temp [top])).fset F.tmStat_max_zone [] top
  let s2 := (s1.fset F.tmStat_level [] (maxBy (fun z => s.fget F.tmZone_level [z]) zs)).fset F.tmStat_warn [] (b2n (decide (s.therm.warn ≠ 0)))
  s2.fset F.tmStat_failed [] (sumBy (fun z => popcount 8 (s.fget F.tmZone_fail [z])) zs)

/-! ## Cutting the main domains (R421, R422, R427) -/

/-- PCLK stops for as long as the main domains are cut: the loop is in mode TABLE. -/
def State.tableMode (s : State) : State := s.tableTrim.fset F.tmAon_mode [] 1

/-- The main domains are cut; the word in flight at the NVM port ends its grant. -/
def State.cutMain (s : State) : State :=
  if s.cut then s else
  let s1 := s.tableMode.coreReset true
  s1.setArb 9 { s1.arb 9 with owner := none, seized := false, revoke := false,
                              reqs := (s1.arb 9).reqs.filter fun e => decide (e.1 = 3) }

/-- R421, R422: a shutdown from a source with its reading; the recorder seizes the NVM arbiter for its record. -/
def State.shutdown (s : State) (src reading : Nat) : State :=
  let s1 := (((s.cutMain.fsat F.tmRstCause_shutdowns [] 1).fset F.tmRstCause_trip_src [] src).emit .trip)
  let s2 := (({ s1 with supply := { s1.supply with shut := true } }).arbGive 9 7 true).fset F.abInt_seize [9] 1
  let s3 := s2.logNow .shutdown src 0 reading 0
  s3.arbDrop 9 7

/-- Lowest valid sensor that has now given a reading at or above the shutdown threshold. -/
def State.tripped (s : State) (rs : List (Option Int)) : Option Nat :=
  (List.range 64).find? fun k => s.sensorOk k && ((rs[k]?).getD none).isSome
    && decide (4 * Int.ofNat (s.fget F.tmCfg_shut_c) ≤ s.reading k)

/-- R417, R421: one conversion period of the 64 sensors. While shut down only the sensors work. -/
def State.sensors (s : State) (rs : List (Option Int)) : State :=
  if s.supply.dip || !s.supply.vaon then s else
  let s1 := (List.range 64).foldl (fun t k => t.convert k ((rs[k]?).getD none)) s
  if s.supply.shut then s1 else
  let s2 := ((List.range 8).foldl State.zoneStep s1).thermStat
  match s2.tripped rs with
  | some k => s2.shutdown k (s2.fget F.tmSens_reading [k])
  | none => s2

def execSensorConversion (rs : List (Option Int)) (s : State) : Res := onUnit (decide (rs.length = 64)) (s.sensors rs)

/-- R414: a comparator trips; it has no reading to record, so the record's is a free value. -/
def execComparatorTrip (k : Nat) (s : State) : Res :=
  onUnit (decide (k < 8)) (if s.supply.shut || !s.supply.vaon then s else
    let (t, r) := s.drawNat
    t.shutdown (64 + k) r)

/-! ## Levels fall, acknowledgement (R415, R417, R432) -/

/-- dwell_ms at a level have passed: the level falls by one step when the zone is below its leave threshold. -/
def State.dwell (s : State) (z : Nat) : State :=
  let lv := s.fget F.tmZone_level [z]
  if s.cut || lv = 0 || s.fget F.tmZone_ack_pend [z] = 1 || (s.fget F.tmZone_forced [z] = 1 && decide (lv ≤ 2))
    || decide (s.leaveAt lv ≤ s.zoneTemp z) then s
  else (s.setLevel z (lv - 1)).thermStat

def execThrottleDwell (z : Nat) (s : State) : Res := onUnit (decide (z < 8)) (s.dwell z)

/-- A write of TM_FAIL_ACK. -/
def State.failAck (s : State) (zones : Nat) : State :=
  (List.range 8).foldl (fun t z => if bit zones z then t.fset F.tmZone_ack_pend [z] 0 else t) s

def execFailAck (zones : Nat) (s : State) : Res := .next (s.ifUp fun t => t.failAck zones)

/-! ## The hairspring loop (R416) -/

/-- A measurement of AONCLK over 275,000 PCLK. The corrected trim is a free value, and so is an error beyond 16 bits. -/
def State.calibrate (s : State) (count : Nat) : State :=
  if s.cut then s else
  let e := (Int.ofNat count - 25000) * 40
  let (s1, f) := s.drawNat
  let (s2, trim) := s1.drawNat
  let b := s2.binNow
  let ppm := if -32768 ≤ e && e ≤ 32767 then ofInt 16 e else f
  let s3 := { s2 with trims := tset s2.trims b (trim % 256), therm := { s2.therm with bin := b, trim := some (trim % 256) } }
  (s3.fset F.tmAon_err_ppm [] ppm).fset F.tmAon_mode [] 0

def execHairspringCalibrate (count : Nat) (s : State) : Res := .next (s.calibrate count)

/-! ## The power window (R424) -/

def State.setSkip (s : State) (x : Nat) : State :=
  (s.fset F.tmPwrStat_skip [] x).fset F.tmStat_pwr_skip [] (b2n (decide (x ≠ 0)))

/-- The window is spent. -/
def State.spend (s : State) : State := (s.fset F.tmPwrStat_win [] 2).raise 5 F.tmInt_pwr_win [] [(F.tmInt_first_zone, 0)]

/-- A field of eight bits that reports a number of watts; what it shows of a larger number is a free value (log entry 39). -/
def State.fsetByte (s : State) (f : Fld) (w : Nat) : State :=
  if w < 256 then s.fset f [] w else
  let (t, x) := s.drawNat
  t.fset f [] x

/-- R424: an estimate of the draw, in W. -/
def State.powerEstimate (s : State) (w : Nat) : State :=
  if s.cut then s else
  let s1 := s.fsetByte F.tmPwrStat_est_w w
  let env := s.fget F.tmPwrCfg_env_w
  let win := s.fget F.tmPwrStat_win
  let up := Nat.min (s.fget F.tmPwrStat_skip + 1) 12
  if win = 0 then (if env < w then (s1.fset F.tmPwrStat_win [] 1).fsat F.tmPwrStat_windows [] 1 else s1)
  else if win = 1 then (if s.fget F.tmPwrStat_grant_w < w then s1.setSkip up else s1)
  else if env < w then s1.setSkip up else s1

def execPowerEstimate (w : Nat) (s : State) : Res := .next (s.powerEstimate w)

/-- win_ms have passed. -/
def execPowerWindowExpire (s : State) : Res := .next (if s.fget F.tmPwrStat_win = 1 then s.spend else s)

/-- 100 µs with the estimate at or below env_w − relax_w. -/
def State.skipRelax (s : State) : State :=
  if s.fget F.tmPwrStat_win = 2 && decide (s.fget F.tmPwrStat_est_w + s.fget F.tmPwrCfg_relax_w ≤ s.fget F.tmPwrCfg_env_w) then
    s.setSkip (s.fget F.tmPwrStat_skip - 1)
  else s

def execPowerSkipRelax (s : State) : Res := .next s.skipRelax

/-- rearm_ms at or below the envelope. -/
def State.rearm (s : State) : State :=
  if s.fget F.tmPwrStat_win = 2 && decide (s.fget F.tmPwrStat_est_w ≤ s.fget F.tmPwrCfg_env_w) then
    (s.fset F.tmPwrStat_win [] 0).setSkip 0
  else s

def execPowerWindowRearm (s : State) : Res := .next s.rearm

/-- The sequencer supplies a grant, of up to 190 W. What the register shows of a larger one is not stated (log entry 39). -/
def State.takeGrant (s : State) (w : Nat) : State :=
  if s.cut then s
  else if w ≤ 190 then s.fset F.tmPwrStat_grant_w [] w
  else
    let (t, x) := s.drawNat
    t.fset F.tmPwrStat_grant_w [] x

def execPowerGrant (w : Nat) (s : State) : Res := .next (s.takeGrant w)

def State.grantWithdraw (s : State) : State :=
  if s.cut then s else
  let s1 := s.fset F.tmPwrStat_grant_w [] 0
  if s.fget F.tmPwrStat_win = 1 then s1.spend else s1

def execPowerGrantWithdraw (s : State) : Res := .next s.grantWithdraw

/-! ## Supplies (R427, R428) -/

/-- VDD falls below 0.68 V. -/
def State.vddFall (s : State) : State :=
  if s.supply.dip || !s.supply.vaon then s else
  let s1 := s.cutMain.fsat F.tmRstCause_dips [] 1
  ({ s1 with supply := { s1.supply with dip := true, again := false } }).logNow .powerFail 0 0 0 0

def execVddFall (s : State) : Res := .next s.vddFall

/-- The backup rail is exhausted while VDD is away. -/
def execVaonLoss (s : State) : Res :=
  .next (if s.supply.dip then { s with supply := { s.supply with vaon := false } } else s)

end Sys2Proof.Machine
end

