-- ==== Sys2Proof/Machine/BringUp.lean ====
section
/-! DEFINITION. Bring-up (R517 to R523): the cold reset, the warm reset and the two restarts, system-area initialisation, and
the identity on the management chain. A reset command runs its steps up to the one that waits for slot 63. -/
namespace Sys2Proof.Machine

/-- A site that shows no stack. -/
def StackReport.absent : StackReport := ⟨false, 0, false, [], [], [], 0, 0⟩
def bringStack (bu : BringUp) (k : Nat) : StackReport := (bu.reports[k]?).getD StackReport.absent
/-- The operands have the sizes that their parties give them. -/
def bringOk (bu : BringUp) : Bool := decide (bu.fuse.length = 8) && decide (bu.reports.length = 8)

/-! ## Step C4: fuses, identity, system descriptors -/

/-- R440: the fuse block is valid. -/
def fuseValid (fs : List Nat) : Bool :=
  let f := fun (i : Nat) => (fs[i]?).getD 0
  bit (f 7) 63 && decide (bits (f 0) 48 8 = 1) && decide (bits (f 0) 56 8 = 0) && decide (bits (f 1) 16 48 = 0)
    && decide (f 6 = 0) && decide (bits (f 7) 32 31 = 0)
    && decide (bits (f 7) 0 32 = crc32c (stepBytes ((List.range 7).map f)))

/-- R440: the fuse block is read; an invalid one leaves every site in use. -/
def State.readFuses (s : State) (bu : BringUp) : State :=
  let fs := (List.range 8).map fun i => ((bu.fuse[i]?).getD 0).toNat
  let ok := fuseValid fs
  let written := bit ((fs[7]?).getD 0) 63
  let s1 := (List.range 8).foldl (fun t i => t.rput .pkFuse [i] (BitVec.ofNat 64 ((fs[i]?).getD 0))) s
  let s2 := ((s1.fset F.pkFuseStat_valid [] (b2n ok)).fset F.pkFuseStat_written [] (b2n written)).fset F.pkFuseStat_pop []
    (if ok then bits ((fs[1]?).getD 0) 8 8 else 0xFF)
  let s3 := s2.fset F.btMciStat_prov [] (b2n ok)
  if ok || !written then s3 else (s3.raise 5 F.pkErr_fuse_bad [] [(F.pkErr_first_src, 0)]).log .fuseBad

/-- R522: the I3C identity, from the fuse block or from the random bits of the last cold reset. -/
def State.pid (s : State) : Nat :=
  let f0 := (s.rget .pkFuse [0]).toNat
  let f1 := (s.rget .pkFuse [1]).toNat
  if s.fget F.btStat_phase = 0 then 0
  else if s.fget F.pkFuseStat_valid = 1 then packWord [(33, 15, Config.mipiId), (24, 8, bits f1 0 8), (0, 24, bits f0 0 24)]
  else packWord [(33, 15, Config.mipiId), (32, 1, 1), (0, 32, s.boot.pidRand)]

/-- R266, R452: descriptors 0 to 7 without retired pseudo-channels. -/
def State.systemMap (s : State) : State :=
  let mine := fun (st : Nat) => ((List.range 64).map (64 * st + ·)).filter s.retired
  ({ s with descs := (List.range 8).foldl (fun m st => tput Desc.zero m st ((mine st).foldl Desc.without (sysDesc st))) s.descs }).recapOn
    fun i => decide (i < 8)

/-- R295: descriptors 8 to 4,095 at a warm reset with the map applied: reloaded from the copy, if that passes its check. -/
def State.reloadMap (s : State) : State :=
  if s.fget F.glMapCtl_applied = 0 then { s with descs := [] } else
  match s.mapCopy with
  | some m => { s with descs := m }
  | none => (({ s with descs := [] }).fset F.glMapCtl_applied [] 0).raise 2 F.glMapErr_tree_err []
      [(F.glMapErr_first_idx, 0), (F.glMapErr_first_check, 0)]

/-! ## Step C5: firmware, lifecycle and keys -/

/-- The hub's state is read; an interrupted change is resumed, and every LOAD meanwhile is answered BUSY (R471). -/
def State.bringKeys (s : State) (bu : BringUp) : State :=
  let s1 := s.takeHub bu.hub
  let s2 := if s1.sec.intent then
      ({ s1 with sec := { s1.sec with resume := true } }).raise 4 F.seErr_lc_resume [] [(F.seErr_first_slot, 0)]
    else s1
  let s3 := bu.keys.foldl (fun t e => if e.1 < 64 then t.keyLoad e.1 e.2 else t) s2
  if s3.sec.intent then s3.finishChange else s3

/-! ## Steps C6 and C7: training and fill -/

/-- R517, R521: every site is trained. A stack that kept its contents runs the changed form: no lane test. -/
def State.trainSites (s : State) (bu : BringUp) : State :=
  (List.range 8).foldl (fun t k =>
    let rep := bringStack bu k
    let r := if bit t.boot.kept k then { rep with bad := [], laneLost := false } else rep
    match t.train k r with
    | (u, some pcs) => { u with boot := { u.boot with trained := setBits u.boot.trained k 1 1, dead := u.boot.dead ++ pcs } }
    | (u, none) => if t.fused k then u.raise 3 F.btErr_stack_fail [] [(F.btErr_first_stack, k)] else u) s

/-- R309: the poison fill of every trained stack that did not keep its contents. -/
def State.fillSites (s : State) : State :=
  (List.range 8).foldl (fun t k => if bit t.boot.trained k && !bit t.boot.kept k then t.fillStack k else t) s

/-- C4 to C7, or W5 and W6: it ends before the step that needs slot 63, or as a scrapped device (R519). -/
def State.bringSites (s : State) (bu : BringUp) : State :=
  let s1 := (((s.fset F.btStat_phase [] 1).readFuses bu).systemMap).bringKeys bu
  if s1.scrapped then s1.fset F.btStat_phase [] 7
  else
    let s2 := ((s1.fset F.cpFwStat_reload_src [] 2).trainSites bu).fillSites
    (s2.fset F.btStat_stacks_ready [] s2.boot.trained).fset F.btStat_phase [] 5

/-! ## Steps C8 and C9, W7 and W8 -/

/-- R518: nothing is open, mapped or lodged. -/
def State.coldTables (s : State) : State :=
  { s with streams := [], lgUsed := [], lgSums := [], lgWalk := [], dir := [], recipes := [] }

/-- R149, R189: the tables are reloaded: a CLOSING stream is closed, a fetch in progress is forgotten, reference marks
clear. What lay on stacks whose contents are lost is lost, and the free lists are rebuilt. -/
def State.warmTables (s : State) : State :=
  let s1 := s.streams.foldl (fun t e => if e.2.st = .closing then (t.freeFrames e.1).freeStream e.1 else t) s
  let fix := fun (e : SegEnt) => if e.st = .fetching then { e with st := .far, ref := false } else { e with ref := false }
  let s2 : State := { s1 with dir := (s1.dir.map fun e => (e.1, fix e.2)).filter fun e => e.2 ≠ SegEnt.init }
  let gone := fun (k : Nat) => !(bit s.boot.kept k && bit s.boot.trained k)
  let s3 := (List.range 8).foldl (fun t k => if gone k then
    ((t.losePool k 0).loseLodging (bit s.boot.mirrors) gone k).loseMeta s.boot.metaDesc gone else t) s2
  s3.rebuildLists.loadBuiltIn

/-- A trained stack goes ONLINE: at a requested warm reset one that lost its contents takes its mirrored sectors from its partner,
if that serves (R245 step 5, R521). -/
def State.siteOn (s : State) (k : Nat) : State :=
  if !s.boot.warm || bit s.boot.kept k then s.setLink k 3
  else
    let s1 := s.fillSpares k
    (if s1.stackUp ((k + 4) % 8) then s1.resync k else s1.pairLost k).setLink k 3

/-- READY. -/
def State.goReady (s : State) : State :=
  let mine := (List.range 8).filter (bit s.boot.trained)
  let kept := mine.filter (bit s.boot.kept)
  let s1 := (mine.filter fun k => !bit s.boot.kept k).foldl State.siteOn (kept.foldl State.siteOn s)
  let (s2, ms) := (s1.retireDead s1.boot.dead).retireAgain.drawNat
  let s3 := { s2 with boot := { s2.boot with trained := 0, kept := 0, dead := [], ms := Nat.min ms 65535 } }
  ((s3.fset F.cpFwStat_state [] 1).fset F.btStat_phase [] 6).regrade 0

/-- R518: with slot 63 loaded the system area is initialised or reloaded; READY needs stack 0 or stack 4. -/
def State.sysinit (s : State) : State :=
  if s.fget F.btStat_phase ≠ 5 || (tfind s.keys 63).isNone || s.scrapped then s
  else
    let s1 := if s.boot.warm then s.warmTables else s.coldTables.loadBuiltIn
    if bit s.boot.trained 0 || bit s.boot.trained 4 then s1.goReady else s1

def execSysinit (s : State) : Res := .next (if s.cut then s else s.sysinit)

/-- R518: 1 s after C4 slot 63 is still missing. -/
def State.noKey (s : State) : State :=
  if (tfind s.keys 63).isSome || s.fget F.btStat_phase = 6 || s.fget F.btStat_phase = 7 then s
  else s.raise 3 F.btErr_no_key [] []

def execNoKeyTimeout (s : State) : Res := .next (if s.cut then s else s.noKey)

/-! ## Resets -/

/-- R517: the cold reset. The NVM store keeps what it holds; VAON and everything else starts afresh. -/
def State.coldReset (s : State) (bu : BringUp) : State :=
  let (s1, r) := (s.coreReset true).drawNat
  let o : Obs := { Obs.init with head := s1.obs.head, base := s1.obs.base, msHead := s1.obs.msHead, msDropped := s1.obs.msDropped,
                                 hours := s1.obs.hours, pcyc := (s1.obs.pcyc + 1) % 2 ^ 24, zeroing := s1.obs.zeroing }
  let s2 := { s1 with
    regs := s1.regs.filter fun e => match Reg.locate e.1 with
      | some (.pkRetired, _) => true
      | _ => false
    mem := []
    descs := []
    retPend := []
    pccs := []
    obs := o
    arbs := []
    i3at := 0
    therm := Therm.init
    supply := ⟨false, false, false, true⟩
    sec := { s1.sec with resume := false }
    boot := ⟨r, 0, 0, [], false, 0, 0, 0⟩ }
  (s2.coldTables.fset F.tmAon_mode [] 1).bringSites bu

def execColdReset (bu : BringUp) (s : State) : Res := onUnit (bringOk bu) (s.coldReset bu)

/-- What a warm reset keeps for the steps after W4. -/
def State.bootFrom (s : State) (kept : Nat) (warm : Bool) : Boot :=
  ⟨s.boot.pidRand, kept, 0, [], warm, 0, stackMask s.poolMirror, s.lgDesc metaPool⟩

/-- W1 to W8 of R520: stacks of the mask keep their contents; last is the cause for TM_RST_CAUSE. -/
def State.warmFrom (s : State) (bu : BringUp) (kept last : Nat) : State :=
  let s1 := (s.coreReset false).reloadMap
  let s2 := { s1 with boot := s.bootFrom kept (decide (last = 1)), sec := { s1.sec with resume := false } }
  ((((s2.fset F.tmRstCause_last [] last).fset F.btStat_warm [] 1).bringSites bu)).sysinit

/-- W2 and W3 of R520: the queues drain, and the ONLINE stacks enter self-refresh (R302). -/
def State.drainAndSleep (s : State) : State :=
  let s1 := s.pccs.foldl (fun t e => t.drainPcc e.1) s
  ((List.range 8).filter fun k => s1.link k = 3).foldl State.enterSref s1

/-- A requested warm reset: the queues drain, ONLINE stacks enter self-refresh and keep their contents (W2, W3). -/
def State.warmReset (s : State) (bu : BringUp) : State :=
  if s.cut then s else
  let s1 := s.drainAndSleep
  s1.warmFrom bu (stackMask s1.stackUp) 1

def execHubWarmReset (bu : BringUp) (s : State) : Res := onUnit (bringOk bu) (s.warmReset bu)

/-- R429: a restart: no stack keeps its contents, and every stack's cause reads 0. -/
def State.restart (s : State) (bu : BringUp) (last : Nat) : State :=
  let s1 := { s with supply := ⟨false, false, false, true⟩ }
  ((List.range 8).foldl (fun t k => t.fset F.scLinkStat_cause [k] 0) s1).warmFrom bu 0 last

/-- R422: every valid sensor has been below 90 °C for 1 s. -/
def State.coolDown (s : State) (bu : BringUp) : State :=
  let cool := (List.range 64).all fun k => !s.sensorOk k || decide (s.reading k < 360)
  if !s.supply.shut || s.supply.dip || !s.supply.vaon || !cool then s
  else s.restart bu (if s.supply.again then 3 else 2)

def execThermalRestart (bu : BringUp) (s : State) : Res := onUnit (bringOk bu) (s.coolDown bu)

/-- R427: VDD comes back before VAON is lost; a shutdown still in force delays the restart. -/
def State.vddRestore (s : State) (bu : BringUp) : State :=
  if !s.supply.dip || !s.supply.vaon then s
  else if s.supply.shut then { s with supply := { s.supply with dip := false, again := true } }
  else s.restart bu 3

def execVddRestore (bu : BringUp) (s : State) : Res := onUnit (bringOk bu) (s.vddRestore bu)

/-! ## Enumeration (R522, R523) -/

/-- R523: from the end of C4 the device takes part in ENTDAA and receives its address. -/
def State.entdaa (s : State) (addr : Nat) : State :=
  if s.cut || s.fget F.btStat_phase = 0 then s
  else ((s.fset F.btMciStat_dyn_addr [] addr).fset F.btMciStat_addr_valid [] 1).fset F.btMciStat_hotjoin [] 0

def execEntdaa (addr : Nat) (s : State) : Res := onUnit (decide (addr < 128)) (s.entdaa addr)

/-- R523: DAA was over before C4 ended: a Hot-Join is raised. -/
def State.hotJoin (s : State) : State :=
  if s.cut || s.fget F.btStat_phase = 0 || s.fget F.btMciStat_addr_valid = 1 then s else s.fset F.btMciStat_hotjoin [] 1

def execHotJoin (s : State) : Res := .next s.hotJoin

end Sys2Proof.Machine
end

