-- ==== Sys2Proof/Machine/MapRegs.lean ====
section
/-! DEFINITION. Registers that every access path has its own copy of (R389), the errors of the register window (R14), and the
map registers (R293 to R296). Path 0 is the hub configuration space, 1 the management chain, 2 the debug port. -/
namespace Sys2Proof.Machine

/-! ## Per-path copies and access errors -/

def pathKey (path : Nat) (r : Reg) (ix : List Nat) : Nat := 2 ^ 24 * path + r.addr ix
def State.pget (s : State) (path : Nat) (r : Reg) (ix : List Nat) : Word := tget 0 s.pregs (pathKey path r ix)
def State.pput (s : State) (path : Nat) (r : Reg) (ix : List Nat) (w : Word) : State :=
  { s with pregs := tput 0 s.pregs (pathKey path r ix) w }

/-- Interpreter 3, which serves the management chain (R94), reloads: requests of the chain wait (R96). A reload that has failed
ends the wait (R97). -/
def State.mgmtWaits (s : State) : Bool := (tget Interp.init s.interps 3).reload && s.fget F.cpFwStat_state ≠ 3

/-- R475: the debug port reads registers from level 1 and writes them at level 2. The management chain waits while interpreter 3
reloads (R96). -/
def State.pathOk (s : State) (path : Nat) (wr : Bool) : Bool :=
  !s.cut && (path ≠ 1 || !s.mgmtWaits) && (path ≠ 2 || decide ((if wr then 2 else 1) ≤ s.fget F.seDbgStat_level))

/-- A request of the management chain: it waits while interpreter 3 reloads (R96), and is lost while the main domains are cut. -/
def State.mgmt (s : State) (c : Instr) (f : State → State) : State :=
  if s.cut then s else if s.mgmtWaits then { s with mgmtQ := s.mgmtQ ++ [c] } else f s

/-- A register write by a path: by one that may not write it has no effect, and the management chain's may wait. -/
def State.byPath (s : State) (path : Nat) (c : Instr) (f : State → State) : State :=
  if path = 1 then s.mgmt c f else if s.pathOk path true then f s else s

/-- R14: an access error. No code is given for an access by the debug port: first_path is then a free value. -/
def State.regErr (s : State) (path off : Nat) (f : Fld) : State :=
  if path = 2 then
    (let (t, b) := s.drawNat
     t.raise 4 f [] [(F.glRegErr_first_offset, off), (F.glRegErr_first_path, b)])
  else s.raise 4 f [] [(F.glRegErr_first_offset, off), (F.glRegErr_first_path, path)]

def State.locked (s : State) : Bool := s.fget F.btLock_lock = 1

/-! ## Writing and applying the map (R294) -/

/-- The descriptor that a path has staged. -/
def State.staged (s : State) (path : Nat) : Desc :=
  ⟨s.pget path .glMapData [0], s.pget path .glMapData [1], s.pget path .glMapData [2], s.pget path .glMapData [3]⟩

def State.mapErr (s : State) (f : Fld) (idx check : Nat) : State :=
  s.raise 2 f [] [(F.glMapErr_first_idx, idx), (F.glMapErr_first_check, check)]

/-- GL_MAP_CTL.write. -/
def State.descWrite (s : State) (path : Nat) : State :=
  let idx := bits (s.pget path .glMapSel []).toNat 0 12
  let d := s.staged path
  if s.locked then s.regErr path (Reg.glMapCtl.addr []) F.glRegErr_lock_viol
  else if idx < 8 then s.mapErr F.glMapErr_desc_err idx 9
  else if s.fget F.glMapCtl_applied = 1 then s.mapErr F.glMapErr_desc_err idx 15
  else if !d.check1 then s.mapErr F.glMapErr_desc_err idx 1
  else s.setDesc idx d

def execMapDescWrite (path : Nat) (s : State) : Res :=
  onUnit (decide (path < 3)) (s.byPath path (.mapDescWrite 1) fun t => t.descWrite path)

/-- R452: retired pseudo-channels leave every staged descriptor, and capacities are computed. -/
def State.stripRetired (s : State) : State :=
  let gone := (List.range 512).filter s.retired
  let t := (s.mapWithout gone).recap
  if t.descs.any fun e => decide (8 ≤ e.1) && e.2.valid && e.2.kind = 0 && e.2.mask ≠ (s.desc e.1).mask then
    t.raise 5 F.pkErr_image_retired [] [(F.pkErr_first_src, 0)]
  else t

/-- GL_MAP_CTL.apply: the checks of R265 run, and when all pass the NVM copy is written and the map comes into force (R295). -/
def State.mapApply (s : State) : State :=
  if s.locked then s
  else
    let t := s.stripRetired
    match t.mapFail with
    | some e => t.mapErr F.glMapErr_tree_err e.1 e.2
    | none => (t.copyMap.fset F.glMapCtl_applied [] 1).ocRecompute

def execMapApply (path : Nat) (s : State) : Res :=
  onUnit (decide (path < 3)) (s.byPath path (.mapApply 1) State.mapApply)

/-! ## Snapshots (R182, R224, R293, R343) -/

def State.mapSnap (s : State) (path idx : Nat) : State :=
  let d := s.desc idx
  ((((s.pput path .glMapSel [] (BitVec.ofNat 64 idx)).pput path .glMapData [0] d.d0).pput path .glMapData [1] d.d1).pput path
    .glMapData [2] d.d2).pput path .glMapData [3] d.d3

def execMapSnapshot (path idx : Nat) (s : State) : Res :=
  onUnit (decide (path < 3 && idx < 4096)) (s.byPath path (.mapSnapshot 1 idx) fun t => t.mapSnap path idx)

/-- A FREE entry reads as zeros. -/
def State.grSnap (s : State) (path id : Nat) : State :=
  let ws := ((s.stream id).map Stream.words).getD [0, 0, 0, 0]
  (ws.zip (List.range 4)).foldl (fun t e => t.pput path .lgGrData [e.2] (BitVec.ofNat 64 e.1))
    (s.pput path .lgGrSel [] (BitVec.ofNat 64 id))

def execGrSnapshot (path id : Nat) (s : State) : Res :=
  onUnit (decide (path < 3 && id < 262144)) (s.byPath path (.grSnapshot 1 id) fun t => t.grSnap path id)

/-- The words T0 and T1 of a directory entry (R188). -/
def SegEnt.words (e : SegEnt) : Nat × Nat :=
  let st := match e.st with
    | .unmapped => 0
    | .far => 1
    | .loc => 2
    | .fetching => 3
    | .mem => 4
  (packWord [(0, 3, st), (3, 1, b2n e.pin), (4, 1, b2n e.ref), (8, 4, e.fmt), (12, 2, e.efmt), (16, 12, e.tenant), (32, 8, e.model),
    (40, 3, e.pool), (44, 19, e.frame)], bits e.home 0 48)

/-- With both copies of the entry's quarter offline its words are not known (R189, R219): free values. -/
def State.dirSnap (s : State) (path seg : Nat) : State :=
  let s1 := s.pput path .trDirSel [] (BitVec.ofNat 64 seg)
  if s.dirDown seg then
    (let (a, x) := s1.drawNat
     let (b, y) := a.drawNat
     (b.pput path .trDirData [0] (BitVec.ofNat 64 x)).pput path .trDirData [1] (BitVec.ofNat 64 y))
  else
    let w := (s.seg seg).words
    (s1.pput path .trDirData [0] (BitVec.ofNat 64 w.1)).pput path .trDirData [1] (BitVec.ofNat 64 w.2)

def execDirSnapshot (path seg : Nat) (s : State) : Res :=
  onUnit (decide (path < 3 && seg < numSegs)) (s.byPath path (.dirSnapshot 1 seg) fun t => t.dirSnap path seg)

/-- A remap entry in the layout of R325; an entry that is not valid reads as zeros. -/
def State.remapWord (s : State) (k idx : Nat) : Nat :=
  match tfind s.remaps (4096 * k + idx) with
  | none => 0
  | some e => packWord [(0, 1, 1), (2, 6, e.pc), (8, 6, e.bank), (14, 15, e.row), (29, 2, e.spare), (31, 1, b2n e.hard)]

def State.remapSnap (s : State) (path k idx : Nat) : State :=
  (s.pput path .scRemapSel [k] (BitVec.ofNat 64 idx)).pput path .scRemapData [k] (BitVec.ofNat 64 (s.remapWord k idx))

def execRemapSnapshot (path k idx : Nat) (s : State) : Res :=
  onUnit (decide (path < 3 && k < 8 && idx < 4096)) (s.byPath path (.remapSnapshot 1 k idx) fun t => t.remapSnap path k idx)

end Sys2Proof.Machine
end

