-- ==== Sys2Proof/Machine/Regs.lean ====
section
/-! DEFINITION. Reads and writes of the register window (R7 to R12): the value that a register shows, what a write sets, and the
writes that act on more than their register. -/
namespace Sys2Proof.Machine

/-! ## Values that status registers show -/

def PortState.code : PortState → Nat
  | .disabled => 0 | .linkup => 1 | .ready => 2 | .reset => 3 | .drain => 4 | .fault => 5

/-- Client capacity that can be reached, MiB (R32, R458). -/
def State.capacity (s : State) : Nat := sumBy (fun k => if s.stackUp k then 1528 * s.usable k else 0) (List.range 8)

/-- Smallest of a property over the 64 banks of the stack's 64 pseudo-channels, in four bits. -/
def minBanks (f : Nat → Nat → Nat) (k : Nat) : Nat :=
  (List.range 4096).foldl (fun m i => Nat.min m (f (64 * k + i / 64) (i % 64))) 15

def ChkState.code : ChkState → Nat
  | .idle => 0 | .armed => 1 | .run => 2 | .ended => 3

/-- Fields that follow other state: (place, width, value). -/
def State.derived (s : State) (r : Reg) (ix : List Nat) : List (Nat × Nat × Nat) :=
  let i := (ix[0]?).getD 0
  let j := (ix[1]?).getD 0
  match r with
  | .glPortStat =>
    let p := s.port i
    let hold := !p.fences.isEmpty || p.reqs.any fun q => q.stage = .fenceHold
    [(0, 3, p.st.code), (4, 4, p.drev), (8, 13, p.rspHeld - p.rspRsvd), (21, 13, s.outstanding i), (34, 1, b2n hold)]
  | .cpFwStat =>
    let st := s.fget F.cpFwStat_state
    [(8, 24, if st = 1 || st = 2 then Config.imageVer else 0), (48, 10, s.fwq.length)]
  | .cpDispStat =>
    [(0, 13, s.packets.length), (16, 16, s.packets.foldl (fun m e => match e.2.chan with
      | some c => setBits m c 1 1
      | none => m) 0)]
  | .cpRingStat =>
    let q := (s.port (i / 4)).ring (i % 4)
    let st := if s.fget F.cpRingCfg_en [i] = 0 then 0 else if q.halted then 2 else 1
    [(0, 2, st), (16, 16, q.seq), (32, 8, q.parse), (40, 9, (s.packets.filter fun e => e.2.port = i / 4 && e.2.ring = i % 4).length)]
  | .cnStat =>
    let busy := (List.range 16).foldl (fun m c => if s.coreBusy i c then setBits m c 1 1 else m) 0
    let st := if bit s.clReset i then 2 else if s.fget F.cnCtl_core_en [i] = 0 then 3 else if busy ≠ 0 then 1 else 0
    [(0, 2, st), (2, 2, s.fget F.tmZone_level [i]), (16, 16, busy)]
  | .lgStat =>
    [(0, 19, s.streams.length), (19, 19, (s.streams.filter fun e => e.2.st = .degraded || e.2.st = .metaLost).length),
     (38, 19, if s.fget F.lgMetaCfg_en = 0 then 0 else s.lgFree metaPool), (57, 1, b2n (!s.lgWalk.isEmpty))]
  | .lgPoolStat =>
    let en := s.fget F.lgPoolCfg_en [i] = 1
    [(0, 19, if en then s.lgFree i else 0),
     (20, 2, if !en then 0 else if !s.stackUp i then 2 else if s.lgWalk.contains i then 3 else 1)]
  | .trStat =>
    [(0, 26, (s.dir.filter fun e => e.2.st ≠ .unmapped).length), (26, 6, s.fetches.length),
     (32, 13, s.prefetchQ.length), (45, 1, b2n ((List.range 256).any s.ocModel))]
  | .trPoolStat =>
    let held := (s.dir.filter fun e => (e.2.st = .loc || e.2.st = .fetching) && e.2.pool = i).length
    let n := if s.poolState i = 0 then 0 else s.poolUsable i
    [(0, 16, ((List.range n).filter fun f => s.frameFree i f).length), (16, 16, held), (32, 16, n), (48, 2, s.poolState i)]
  | .scLinkStat => [(10, 7, if s.stackUp i then s.usable i else 0)]
  | .scPprStat =>
    let l := s.repairsOf i
    let left := fun (hard : Bool) (own : Nat) (pc b : Nat) =>
      own - (l.filter fun x => x.pc = pc % 64 && x.bank = b && x.hard = hard).length
    let up := fun (n : Nat) => if s.stackUp i then n else 0
    [(0, 16, up (l.filter fun x => !x.hard).length), (16, 16, (l.filter fun x => x.mark && !x.hard).length),
     (32, 4, up (minBanks (left false (Config.softSpares i)) i)), (36, 4, up (minBanks (left true (Config.hardSpares i)) i))]
  | .scLaneMap => [(0, 64, s.devLanes i j)]
  | .pcStat =>
    let pc := 64 * i + j
    let p := s.pcc pc
    [(0, 2, if s.retired pc then 2 else 0), (2, 1, b2n p.wturn), (3, 7, p.rqUsed), (10, 6, p.wq.length),
     (16, 4, p.mb.length), (20, 4, maxBy (fun e => e.2.debt) p.banks), (24, 7, (p.banks.filter fun e => e.2.row.isSome).length),
     (32, 32, p.turns)]
  | .pcRefStat => [(0, 32, (s.pcc (64 * i + j)).refIssued), (32, 16, Nat.min (s.pcc (64 * i + j)).refForced 65535)]
  | .pcEccStat =>
    let pc := 64 * i + j
    [(0, 8, (s.pcc pc).bucket), (16, 4, s.epoch pc), (20, 9, (s.remaps.filter fun e => e.1 / 4096 = i && e.2.pc = j).length)]
  | .scRemapSel => [(16, 13, (s.remaps.filter fun e => e.1 / 4096 = i).length)]
  | .scSpare =>
    match tfind s.spares (2 * i + j) with
    | some e => [(0, 2, e.st), (2, 6, e.pc), (8, 6, e.bank), (16, 9, e.base)]
    | none => []
  | .shStat =>
    [(0, 16, s.wheel), (16, 13, (s.tenants.filter fun e => e.2.ready).length), (32, 13, (s.tenants.filter fun e => e.2.slot.isSome).length)]
  | .shFclkCount => [(0, 64, s.fclk)]
  | .shTqCfg => [(0, 64, (s.tqWord (s.fget F.shTqSel_tenant)).toNat)]
  | .shGateStat =>
    let g := s.gate i
    let pos := if s.gateOn i then s.gatePos i g.cycle else 0
    let ent := if s.gateOn i then (entryAt (s.gateList i g.bank) pos 0).1 else 0
    [(0, 1, g.bank), (1, 1, b2n g.armed), (8, 6, ent), (14, 22, g.cycle), (36, 22, pos)]
  | .abStat =>
    let a := s.arb i
    let mask := fun (f : Nat → Bool) => (List.range 8).foldl (fun m p => if f p then setBits m p 1 1 else m) 0
    [(0, 3, a.owner.getD 0), (3, 1, b2n a.owner.isSome), (4, 8, mask fun p => (tfind a.reqs p).isSome), (12, 8, mask (s.arbMasked i)),
     (20, 1, b2n a.seize), (32, 32, if a.owner.isSome then Nat.min ((s.clk.now - a.grantAt) / tickUs) (2 ^ 32 - 1) else 0)]
  | .tmAon => [(4, 8, s.therm.trim.getD Config.factoryTrim)]
  | .pkHealth =>
    [(8, 8, stackMask s.stackUp), (16, 8, stackMask fun k => s.fused k && (s.link k = 5 || s.link k = 0)), (24, 10, s.retiredCount),
     (34, 4, s.spareCount), (38, 20, s.capacity)]
  | .seLcStat =>
    [(0, 3, s.effective), (3, 3, s.sec.hub), (6, 1, b2n s.sec.intent), (8, 3, s.sec.target)]
  | .seSlotStat => [(0, 64, s.keys.foldl (fun m e => setBits m e.1 1 1) 0)]
  | .seSlotPerm => [(0, 64, (List.range 64).foldl (fun m k => if lcPermits s.effective k then setBits m k 1 1 else m) 0)]
  | .seDbgStat =>
    [(4, 10, (List.range 10).foldl (fun m k => if (s.arb k).owner = some 7 && (s.arb k).seized && k < 9 then setBits m k 1 1 else m) 0),
     (16, 24, (s.sec.dbgEnd - s.clk.now) / tickSec)]
  | .obEvrStat => [(0, 7, s.obs.queue.length), (48, 8, stackMask fun k => decide (512 ≤ s.msHead k))]
  | .obLedgerHead => [(0, 40, s.obs.head)]
  | .obLedgerBase => [(0, 40, s.obs.base)]
  | .obHours => [(0, 32, s.obs.hours), (32, 24, s.obs.pcyc)]
  | .obClrStat =>
    match s.obs.zeroing, s.obs.clearReq with
    | some (t, left), none => [(0, 2, 2), (2, 4, t), (16, 16, left)]
    | _, some (t, n) => [(0, 2, 1), (2, 4, t), (32, 32, n)]
    | none, none => []
  | .obMsStat => [(0, 10, s.msHead i), (16, 16, tget 0 s.obs.msDropped i)]
  | .obChkStat =>
    let u := s.chk i
    [(0, 2, u.st.code), (2, 4, u.src), (6, 5, u.port), (16, 48, u.bytes)]
  | .obChkVal => [(0, 64, (s.chk i).value)]
  | .obChkCfg => [(0, 64, (s.chk i).ctl)]
  | .obChkPoly => [(0, 64, (s.chk i).poly)]
  | .btStat => [(16, 1, b2n (tfind s.keys 63).isSome), (32, 16, if s.fget F.btStat_phase = 6 then s.boot.ms else 0)]
  | .btMciId => [(0, 48, s.pid)]
  | .obLedgerW => [(0, 64, (tget 0 s.nvm i).toNat)]
  | .obMsW => [(0, 64, (tget 0 s.nvm (32768 + 2048 * i + j)).toNat)]
  | _ => []

/-! ## Fields (R9, R10) -/

/-- Registers that each path has its own copy of (R389). -/
def Reg.perPath (r : Reg) : Bool :=
  r = .glMapSel || r = .glMapData || r = .lgGrSel || r = .lgGrData || r = .trDirSel || r = .trDirData || r = .scRemapSel
    || r = .scRemapData

/-- Fields that a register of the family lacks: the FT ports' of GL_PORT_CFG (R67), GL_LT above 34 (R297), AB_PRIO(7) of the NVM
arbiter (R394), and those of a monitor of the other kind (R514). -/
def Reg.hasField (r : Reg) (ix : List Nat) (f : FieldDef) : Bool :=
  let i := (ix[0]?).getD 0
  match r with
  | .glPortCfg => decide (i < 24) || f.lo = 0 || f.lo = 4 || f.lo = 32 || f.lo = 43
  | .glLt => decide (i < 35)
  | .abPrio => !(i = 9 && (ix[1]?).getD 0 = 7)
  | .obLmonCfg => if i < 26 then f.lo ≠ 16 else f.lo ≠ 1
  | _ => true

def Reg.fieldsAt (r : Reg) (ix : List Nat) : List FieldDef := r.fields.filter (r.hasField ix)

/-- The value that a register shows a path: write-only and reserved fields read 0. -/
def State.readReg (s : State) (path : Nat) (r : Reg) (ix : List Nat) : Word :=
  let w := (if r.perPath then s.pget path r ix else s.rget r ix).toNat
  let d := (s.derived r ix).foldl (fun a e => setBits a e.1 e.2.1 e.2.2) w
  BitVec.ofNat 64 ((r.fieldsAt ix).foldl (fun a f => if f.acc = .wo then a else a + (bits d f.lo f.w <<< f.lo)) 0)

/-- Values that the tables call ignored: field at lo of the register, new value, and the word as it would be written. -/
def Reg.takes (r : Reg) (lo v w : Nat) : Bool :=
  match r, lo with
  | .glFtTmo, 0 => v ≠ 0
  | .trCfg, 4 => v ≠ 0
  | .scTrainCfg, 0 => decide (16 ≤ v)
  | .scTrainCfg, 8 => v ≠ 0
  | .glLt, 0 => decide (8 ≤ v)
  | .scRefCfg, 16 => decide (v ≤ 85)
  | .scSrefCfg, 4 => v ≠ 0
  | .scEccCfg, 0 => v ≠ 0
  | .scEccCfg, 8 => v ≠ 0
  | .scPatrolCfg, 8 => v ≠ 0
  | .abCfg, 0 => decide (1 ≤ v && v ≤ 16000)
  | .abCfg, 16 => v ≠ 0
  | .tmCfg, 8 => decide (80 ≤ v && v ≤ 113)
  | .tmCfg, 16 => v ≠ 0
  | .tmCfg, 20 => v ≠ 0
  | .tmCfg, 32 => decide (v ≤ 118 && bits w 8 8 + 2 * bits w 16 4 < v)
  | .tmCfg, 40 => v ≠ 0
  | .tmPwrCfg, 0 => decide (100 ≤ v && v ≤ 150)
  | .tmPwrCfg, 8 => decide (1 ≤ v && v ≤ 10)
  | .tmPwrCfg, 16 => v ≠ 0
  | .tmPwrCfg, 32 => decide (1 ≤ v && v ≤ 50)
  | .tmStackCfg, 0 => decide (v ≤ 95)
  | .tmStackCfg, 16 => v ≠ 0
  | .tmStackCfg, 24 => decide (2 ≤ v)
  | .pkCfg, 0 => v ≠ 0
  | .obPubCfg, 16 => v ≠ 0
  | .obVmonCfg, 32 => v ≠ 0
  | _, _ => true

/-- R9: the stored word after a write: field by field, lowest first. With BT_LOCK set RWL fields stay. -/
def Reg.written (r : Reg) (ix : List Nat) (old val : Nat) (locked : Bool) : Nat :=
  (r.fieldsAt ix).foldl (fun a f =>
    let v := bits val f.lo f.w
    match f.acc with
    | .rw => if r.takes f.lo v a then setBits a f.lo f.w v else a
    | .rwl => if !locked && r.takes f.lo v a then setBits a f.lo f.w v else a
    | .w1c => setBits a f.lo f.w (bits a f.lo f.w - (bits a f.lo f.w &&& v))
    | _ => a) old

def Reg.has (r : Reg) (ix : List Nat) (p : Acc → Bool) : Bool := (r.fieldsAt ix).any fun f => p f.acc

/-- R9: a write sets ro_write: fields to read and none to write. -/
def Reg.readOnly (r : Reg) (ix : List Nat) : Bool :=
  r.has ix (fun a => a = .ro || a = .rc) && !r.has ix fun a => a = .rw || a = .wo || a = .w1c || a = .rwl

/-! ## Writes that act -/

/-- A word that a path writes to one of its own copies; a selector takes its snapshot. -/
def State.writeOwn (s : State) (path : Nat) (r : Reg) (ix : List Nat) (v : Nat) : State :=
  match r with
  | .glMapSel => s.mapSnap path (bits v 0 12)
  | .lgGrSel => s.grSnap path (bits v 0 18)
  | .trDirSel => s.dirSnap path (bits v 0 25)
  | .scRemapSel => s.remapSnap path ((ix[0]?).getD 0) (bits v 0 12)
  | _ => s.pput path r ix (BitVec.ofNat 64 v)

/-- R520, W1 to W4 alone, for a write of BT_CTL.warm that carries no report of the steps after them. -/
def State.warmStart (s : State) : State :=
  let s1 := s.drainAndSleep
  let kept := stackMask s1.stackUp
  let s2 := (s1.coreReset false).reloadMap
  let s3 := { s2 with boot := s1.bootFrom kept true, sec := { s2.sec with resume := false } }
  ((s3.fset F.tmRstCause_last [] 1).fset F.btStat_warm [] 1).fset F.btStat_phase [] 1

/-- R530: a write of 1 to BT_LOCK.lock; it is ignored while the map is not applied. -/
def State.setLock (s : State) : State :=
  if s.fget F.glMapCtl_applied = 0 then s.raise 3 F.btErr_early_lock [] [] else s.fset F.btLock_lock [] 1

/-- Bit n of a word acts. -/
def State.when (s : State) (b : Bool) (f : State → State) : State := if b then f s else s

/-- A write of a register that the lock does not refuse: the word stored, and what the write does beside it. -/
def State.putReg (s : State) (path : Nat) (r : Reg) (ix : List Nat) (val : Nat) : State :=
  let i := (ix[0]?).getD 0
  let j := (ix[1]?).getD 0
  let w := BitVec.ofNat 64 (r.written ix (s.rget r ix).toNat val s.locked)
  match r with
  | .glPortCfg => s.portCfgWrite i w
  | .cpRingCfg => s.ringCfg (i / 4) (i % 4) w
  | .cpRingCtl => s.when (bit val 0) fun t => t.ringRestart (i / 4) (i % 4)
  | .cnCtl => (s.coreEnable i (bits val 0 16)).when (bit val 16) fun t => t.clusterReset i
  | .glMapCtl => (s.when (bit val 0) fun t => t.descWrite path).when (bit val 1) State.mapApply
  | .scLinkCtl => (s.rput r ix w).when (bit val 0) fun t => t.drawReport.1.stackReset i 1 t.drawReport.2
  | .shTqSel => s.tqSelect (bits val 0 12)
  | .shTqCfg => s.tqWrite (s.fget F.shTqSel_tenant) (BitVec.ofNat 64 val)
  | .shGateCfg => s.gateCfgWrite i w
  | .shGateCtl => s.when (bit val 0) fun t => t.gateSwap i
  | .shGateEnt => if s.gateOn i && (s.gate i).bank = j then s.gateBusy i else s.rput r ix w
  | .abPrio => s.prioWrite i j (bits val 0 2) (bits val 4 4)
  | .tmFailAck => s.failAck (bits val 0 8)
  | .obClrCtl => s.when (bit val 0) fun t => t.clearRequest (bits val 1 4)
  | .obPmcCtl => (s.rput r ix w).when (bit val 1) State.pmcClear
  | .obMonCtl => s.when (bit val 0) fun t => t.monSnap (bit val 1)
  | .obPmcCfg => s.pmcConfig i (BitVec.ofNat 64 val)
  | .obPmc => s.pmcWrite i (BitVec.ofNat 64 val)
  | .btLock => s.when (bit val 0) State.setLock
  | .btCtl => s.when (bit val 0) State.warmStart
  | .trPoolCfg => (s.rput r ix w).ocRecompute
  | _ => if r.perPath then s.writeOwn path r ix (r.written ix (s.pget path r ix).toNat val s.locked) else s.rput r ix w

/-! ## Accesses (R7 to R11) -/

/-- A write by a path: the state after it, and whether it set a bit of GL_REG_ERR. An access that is misaligned or short and lies at
an offset with no register sets size_err alone (DESIGN CHOICE, log entry 66). -/
def State.regWrite (s : State) (path off size : Nat) (val : Word) : State × Bool :=
  if size ≠ 8 || off % 8 ≠ 0 then (s.regErr path off F.glRegErr_size_err, true)
  else match Reg.locate off with
  | none => (s.regErr path off F.glRegErr_unmapped, true)
  | some (r, ix) =>
    if r.readOnly ix then (s.regErr path off F.glRegErr_ro_write, true)
    else
      let viol := s.locked && r.has ix fun a => a = .rwl
      let s1 := if viol then s.regErr path off F.glRegErr_lock_viol else s
      let t := if viol && !r.has ix (fun a => a = .rw || a = .wo || a = .w1c) then s1 else s1.putReg path r ix val.toNat
      (t, viol || (r = .glMapCtl && s.locked && bit val.toNat 0))

/-- A read by a path: the state after it, the value, and whether it set a bit of GL_REG_ERR. Misaligned or short at an offset with no
register: as for a write (DESIGN CHOICE, log entry 66). -/
def State.regRead (s : State) (path off size : Nat) : State × Word × Bool :=
  if size ≠ 8 || off % 8 ≠ 0 then (s.regErr path off F.glRegErr_size_err, 0, true)
  else match Reg.locate off with
  | none => (s.regErr path off F.glRegErr_unmapped, 0, true)
  | some (r, ix) =>
    let v := s.readReg path r ix
    let t := if r.has ix (fun a => a = .rc) then
        s.rput r ix (BitVec.ofNat 64 ((r.fieldsAt ix).foldl (fun a f => if f.acc = .rc then setBits a f.lo f.w 0 else a) (s.rget r ix).toNat))
      else s
    (t, v, false)

/-- The window holds 16 MiB (R7). -/
def windowOk (path off : Nat) : Bool := decide (path < 3) && decide (off < 2 ^ 24)

/-- A read by a path, with the value it returns. -/
def State.readBy (s : State) (path off size : Nat) : State :=
  match s.regRead path off size with
  | (t, v, _) => t.emit (.regValue path off v)

def execRegisterWrite (path off size : Nat) (val : Word) (s : State) : Res :=
  onUnit (windowOk path off)
    (s.byPath path (.registerWrite 1 off size val) fun t => (t.regWrite path off size val).1)

def execRegisterRead (path off size : Nat) (s : State) : Res :=
  onUnit (windowOk path off)
    (if path = 1 then s.mgmt (.registerRead 1 off size) fun t => t.readBy 1 off size
     else if s.pathOk path false then s.readBy path off size else s)

/-! ## Registers with a row of their own -/

/-- A write of a whole register by its name. -/
def State.writeAs (s : State) (path : Nat) (r : Reg) (ix : List Nat) (w : Word) : State :=
  s.byPath path (.registerWrite 1 (r.addr ix) 8 w) fun t => (t.regWrite path (r.addr ix) 8 w).1

def execPortEnable (path n : Nat) (s : State) : Res :=
  onUnit (decide (path < 3 && n < 26)) (s.writeAs path .glPortCfg [n] (s.rget .glPortCfg [n] ||| 1))
def execPortDisable (path n : Nat) (s : State) : Res :=
  onUnit (decide (path < 3 && n < 26)) (s.writeAs path .glPortCfg [n] (s.rget .glPortCfg [n] &&& BitVec.ofNat 64 (2 ^ 64 - 2)))
def execRingEnable (path n q : Nat) (s : State) : Res :=
  onUnit (decide (path < 3 && n < 24 && q < 4)) (s.writeAs path .cpRingCfg [4 * n + q] (s.rget .cpRingCfg [4 * n + q] ||| 1))
def execRingDisable (path n q : Nat) (s : State) : Res :=
  onUnit (decide (path < 3 && n < 24 && q < 4))
    (s.writeAs path .cpRingCfg [4 * n + q] (s.rget .cpRingCfg [4 * n + q] &&& BitVec.ofNat 64 (2 ^ 64 - 2)))
def execRingRestart (path n q : Nat) (s : State) : Res :=
  onUnit (decide (path < 3 && n < 24 && q < 4)) (s.writeAs path .cpRingCtl [4 * n + q] 1)
def execBtLockSet (path : Nat) (s : State) : Res := onUnit (decide (path < 3)) (s.writeAs path .btLock [] 1)

/-! ## The management endpoint (R523 to R526) -/

/-- Set Endpoint ID: the EID that the bus owner assigns. -/
def State.takeEid (s : State) (eid : Nat) : State :=
  ((s.fset F.btMciStat_eid [] eid).fset F.btMciStat_eid_valid [] 1).emit (.mctp 1 0 [eid])

def execSetEndpointId (eid : Nat) (s : State) : Res :=
  onUnit (decide (eid < 256)) (s.mgmt (.setEndpointId eid) fun t => t.takeEid eid)

/-- Get Endpoint ID. -/
def State.showEid (s : State) : State :=
  s.emit (.mctp 2 0 [if s.fget F.btMciStat_eid_valid = 1 then s.fget F.btMciStat_eid else 0])

def execGetEndpointId (s : State) : Res := .next (s.mgmt .getEndpointId State.showEid)

/-- R526: the UUID as a 128-bit number: custom_a [127:80], version 8, custom_b [75:64], variant 2, custom_c [61:0]. -/
def State.uuid (s : State) : Nat :=
  let ok := s.fget F.pkFuseStat_valid = 1
  let serial := if ok then bits (s.rget .pkFuse [0]).toNat 0 48 else 0
  let site := if ok then bits (s.rget .pkFuse [1]).toNat 0 8 else 0
  packWord [(80, 48, serial), (76, 4, 8), (68, 8, site), (62, 2, 2), (46, 16, 0x5A08)]

/-- Get Endpoint UUID: the most significant byte first. -/
def State.showUuid (s : State) : State := s.emit (.mctp 3 0 ((List.range 16).map fun i => bits s.uuid (8 * (15 - i)) 8))

def execGetEndpointUuid (s : State) : Res := .next (s.mgmt .getEndpointUuid State.showUuid)

def State.showVersions (s : State) : State := s.emit (.mctp 4 0 Config.mctpVersions)

def execGetMctpVersionSupport (s : State) : Res := .next (s.mgmt .getMctpVersionSupport State.showVersions)

/-- One message type for data: 0x7F. -/
def State.showTypes (s : State) : State := s.emit (.mctp 5 0 [0x7F])

def execGetMessageTypeSupport (s : State) : Res := .next (s.mgmt .getMessageTypeSupport State.showTypes)

/-- R524: REG_READ: a code and the value. -/
def State.mgmtRead (s : State) (off : Nat) : State :=
  match s.regRead 1 off 8 with
  | (t, v, e) => t.emit (.mctp 0x7F01 (b2n e) ((List.range 8).map fun i => bits v.toNat (8 * i) 8))

def execRegRead (off : Nat) (s : State) : Res :=
  onUnit (decide (off < 2 ^ 24)) (s.mgmt (.regRead off) fun t => t.mgmtRead off)

/-- R524: REG_WRITE: a code. -/
def State.mgmtWrite (s : State) (off : Nat) (val : Word) : State :=
  match s.regWrite 1 off 8 val with
  | (t, e) => t.emit (.mctp 0x7F02 (b2n e) [])

def execRegWrite (off : Nat) (val : Word) (s : State) : Res :=
  onUnit (decide (off < 2 ^ 24)) (s.mgmt (.regWrite off val) fun t => t.mgmtWrite off val)

/-- R533: a write of 1 to BT_CTL.warm from a register path. -/
def execWarmResetRequest (path : Nat) (bu : BringUp) (s : State) : Res :=
  onUnit (bringOk bu && decide (path < 2)) (s.byPath path (.warmResetRequest 1 bu) fun t => t.warmReset bu)

/-- A request of the management chain that has waited is served. -/
def State.serveOne (s : State) (c : Instr) : State :=
  match c with
  | .setEndpointId eid => s.takeEid eid
  | .getEndpointId => s.showEid
  | .getEndpointUuid => s.showUuid
  | .getMctpVersionSupport => s.showVersions
  | .getMessageTypeSupport => s.showTypes
  | .regRead off => s.mgmtRead off
  | .regWrite off val => s.mgmtWrite off val
  | .registerRead _ off size => s.readBy 1 off size
  | .registerWrite _ off size val => (s.regWrite 1 off size val).1
  | .warmResetRequest _ bu => s.warmReset bu
  | .mapDescWrite _ => s.descWrite 1
  | .mapApply _ => s.mapApply
  | .mapSnapshot _ idx => s.mapSnap 1 idx
  | .grSnapshot _ id => s.grSnap 1 id
  | .dirSnapshot _ seg => s.dirSnap 1 seg
  | .remapSnapshot _ k idx => s.remapSnap 1 k idx
  | _ => s

/-- The request of the management chain that has waited longest is served. -/
def State.serveNext (s : State) : State :=
  match s.mgmtQ with
  | [] => s
  | c :: rest => ({ s with mgmtQ := rest }).serveOne c

/-- R96: the requests that have waited are served in order once interpreter 3 no longer reloads; a reset among them ends the wait of
those after it. -/
def State.serveMgmt (s : State) : State :=
  if s.mgmtWaits then s else (List.range s.mgmtQ.length).foldl (fun t _ => t.serveNext) s

def execFwReloadDone (k src : Nat) (s : State) : Res := onUnit (decide (k < 4)) (s.fwReload k src).serveMgmt

/-! ## Interrupt lines toward the hub (R342, R393, R435, R461, R510) -/

/-- Interrupt lines of the device. -/
inductive IrqLine where
  | ecc (stack : Nat)
  | arbiter (inst : Nat)
  | thermal
  | package
  | observability
  deriving DecidableEq, Repr

/-- A line is asserted while an enabled bit is set. -/
def State.irq (s : State) (l : IrqLine) : Bool :=
  let on := fun (a b : Reg) (ix : List Nat) (n : Nat) => decide (bits ((s.rget a ix).toNat &&& (s.rget b ix).toNat) 0 n ≠ 0)
  match l with
  | .ecc k => on .scEccInt .scEccIntEn [k] 5
  | .arbiter i => on .abInt .abIntEn [i] 3
  | .thermal => on .tmInt .tmIntEn [] 5
  | .package => on .pkInt .pkIntEn [] 4
  | .observability => on .obInt .obIntEn [] 6

end Sys2Proof.Machine
end

