-- ==== Sys2Proof/Machine/Tensor.lean ====
section
/-! DEFINITION. The residency packets (R207 to R218): TENSOR_MAP, TENSOR_PIN, TENSOR_UNPIN, and PREFETCH with its gathers. -/
namespace Sys2Proof.Machine

/-! ## Ranges -/

/-- The segments of a range. -/
def segRange (a n : Nat) : List Nat := (List.range n).map (a + ·)

/-- R219, R221: residency is not in use, or a quarter that the range touches is out of reach. -/
def State.residStop (s : State) (a n : Nat) : Option KStatus :=
  if s.fget F.trCfg_en = 0 then some .denied
  else if (segRange a (min n 4)).any fun g => s.dirDown g then some .unavailable
  else none

/-- Every segment is mapped to the tenant (R209, R210, R216): the first that is not decides. -/
def State.ownSegs (s : State) (tenant a n : Nat) : Option KStatus :=
  (segRange a n).findSome? fun g =>
    if (s.seg g).st = .unmapped then some .notFound else if (s.seg g).tenant ≠ tenant then some .denied else none

/-! ## TENSOR_MAP (R207 to R209, R213) -/

def Packet.mapSeg0 (p : Packet) : Nat := bits (p.word 32) 0 25
def Packet.mapN (p : Packet) : Nat := bits (p.word 32) 32 26
def Packet.mapOp (p : Packet) : Nat := bits (p.word 32) 58 2

/-- R213: TR_MODEL of every marked model reports the shortfall. -/
def State.ocShort (s : State) : State :=
  let d := s.ocDemand
  let c := s.ocCapacity
  (List.range 256).foldl (fun t m => if t.ocModel m then t.fset F.trModel_short_segs [m] (d - c) else t) s

/-- R208, R213: the entries become visible together, and the model is marked while the demand exceeds the capacity. -/
def State.doMap (s : State) (p : Packet) : State :=
  let a := p.mapSeg0
  let n := p.mapN
  let attr := p.word 48
  let home := bits (p.word 40) 0 48
  let st : SegSt := if bit (p.word 40) 48 then .mem else .far
  let m := bits attr 8 8
  let s1 := (List.range n).foldl (fun (t : State) i =>
    t.setSeg (a + i) ⟨st, false, false, bits attr 0 4, bits attr 4 2, p.tenant, m, 0, 0, (home + segBytes * i) % 2 ^ 48⟩) s
  let ws := bits attr 16 26
  let s2 := if ws = 0 then s1 else s1.fset F.trModel_ws_segs [m] ws
  let d := s2.ocDemand
  let c := s2.ocCapacity
  if c < d then
    let short := segBytes * (d - c)
    let s3 := if s2.ocModel m then s2 else (s2.fset F.trModel_oc [m] 1).log .overcommit m 1 0 short
    s3.ocShort.fixPacket p .overcommit n 0 short
  else s2.ocShort.fixPacket p .done n

/-- R209: the entries become UNMAPPED; fetches stop, parked reads end UNMAPPED, frames are free once their readers are
done. -/
def State.unmapOne (s : State) (g : Nat) : State :=
  let s1 := if (s.seg g).st = .fetching then s.stopFetch g else s
  let s2 := ({ s1 with demandQ := s1.demandQ.filter (·.seg ≠ g), prefetchQ := s1.prefetchQ.filter (· ≠ g) }).setSeg g SegEnt.init
  s2.endParked g .unmapped

/-- The working set of a model with no mapped segment is 0. -/
def State.dropModel (s : State) (m : Nat) : State :=
  if s.dir.any fun e => e.2.st ≠ .unmapped && e.2.model = m then s else s.fset F.trModel_ws_segs [m] 0

def State.doUnmap (s : State) (p : Packet) : State :=
  let segs := segRange p.mapSeg0 p.mapN
  let models := (segs.map fun g => (s.seg g).model).eraseDups
  let s1 := models.foldl State.dropModel (segs.foldl State.unmapOne s)
  s1.ocRecompute.fixPacket p .done p.mapN

def State.mapRefused (s : State) (p : Packet) : Option KStatus :=
  let a := p.mapSeg0
  let n := p.mapN
  match s.residStop a n with
  | some k => some k
  | none =>
    if p.mapOp = 1 then s.ownSegs p.tenant a n
    else if (segRange a n).any fun g => (s.seg g).st ≠ .unmapped then some .malformed
    else if bit (p.word 40) 48 && (s.memRegion p.tenant 4096 (bits (p.word 40) 0 48) (segBytes * n)).isSome then some .denied
    else none

def State.runMap (s : State) (id : Nat) : State :=
  match s.takeFw id 0x30 with
  | none => s
  | some (s1, p) => match s1.mapRefused p with
    | some k => s1.fixPacket p k
    | none => if p.mapOp = 1 then s1.doUnmap p else s1.doMap p

def execTensorMap (id : Nat) (s : State) : Res := .next (s.runMap id)

/-! ## TENSOR_PIN and TENSOR_UNPIN (R210 to R212) -/

def Packet.pinSeg0 (p : Packet) : Nat := bits (p.word 32) 0 25
def Packet.pinN (p : Packet) : Nat := bits (p.word 40) 0 26

/-- Frames that hold pinned segments. -/
def State.pinnedFrames (s : State) : Nat :=
  (s.dir.filter fun e => e.2.pin && (e.2.st = .loc || e.2.st = .fetching)).length

/-- R211: there is no room for the pins. -/
def State.pinShort (s : State) (p : Packet) : Bool :=
  let more := ((segRange p.pinSeg0 p.pinN).filter fun g => !(s.seg g).pin && (s.seg g).st ≠ .mem).length
  decide (s.ocCapacity < s.pinnedFrames + more + s.fget F.trCfg_reserve)

/-- A FAR segment of the range gets a frame, and its fetch waits with demand priority. -/
def State.reserveSeg (s : State) (g : Nat) : State :=
  if (s.seg g).st ≠ .far || s.demandQ.any (·.seg = g) then s else
  match s.takeFrame g .twoPasses with
  | (t, some pf) =>
    let t1 := t.holdFrame g .demand pf
    { t1 with demandQ := t1.demandQ ++ [⟨g, .demand, 0, 0⟩], prefetchQ := t1.prefetchQ.filter (· ≠ g) }
  | (t, none) => t.demandFetch g 0

/-- R211: when every segment is held, the range is pinned at one update; until then the fetches go on. -/
def State.pinGo (s : State) (p : Packet) : State :=
  let segs := segRange p.pinSeg0 p.pinN
  if segs.any fun g => s.dirDown g || (s.seg g).st = .unmapped then s.fixPacket p .unavailable
  else if segs.all fun g => (s.seg g).st = .loc || (s.seg g).st = .mem then
    (segs.foldl (fun (t : State) g => t.setSeg g { t.seg g with pin := true }) s).fixPacket p .done p.pinN
  else
    let s1 := segs.foldl State.reserveSeg s
    s1.setPacket { p with waits := segs.filter fun g => (s1.seg g).st ≠ .loc && (s1.seg g).st ≠ .mem }

def State.runPin (s : State) (id : Nat) : State :=
  match s.live id 0x31 with
  | none => s
  | some p =>
    if p.st = .running then s.pinGo p else
    match s.takeFw id 0x31 with
    | none => s
    | some (s1, q) =>
      match [s1.residStop q.pinSeg0 q.pinN, s1.ownSegs q.tenant q.pinSeg0 q.pinN].findSome? fun x => x with
      | some k => s1.fixPacket q k
      | none => if s1.pinShort q then s1.fixPacket q .noSpace else s1.pinGo q

def execTensorPin (id : Nat) (s : State) : Res := .next (s.runPin id)

def State.runUnpin (s : State) (id : Nat) : State :=
  match s.takeFw id 0x32 with
  | none => s
  | some (s1, p) =>
    match [s1.residStop p.pinSeg0 p.pinN, s1.ownSegs p.tenant p.pinSeg0 p.pinN].findSome? fun x => x with
    | some k => s1.fixPacket p k
    | none =>
      ((segRange p.pinSeg0 p.pinN).foldl (fun (t : State) g => t.setSeg g { t.seg g with pin := false }) s1).fixPacket p .done p.pinN

def execTensorUnpin (id : Nat) (s : State) : Res := .next (s.runUnpin id)

/-! ## PREFETCH (R215, R216) -/

def Packet.pfSeg0 (p : Packet) : Nat := bits (p.word 32) 8 25

/-- R216: the FAR segments of the range enter the prefetch queue while it has room. -/
def State.pfQueue (s : State) (p : Packet) : State :=
  let far := (segRange p.pfSeg0 (bits (p.word 40) 0 26)).filter fun g => (s.seg g).st = .far
  let room := 4096 - s.prefetchQ.length
  let s1 := { s with prefetchQ := s.prefetchQ ++ far.take room }
  (s1.ev 0x605 0 (far.length - room)).fixPacket p .done (min room far.length)

/-! ## Gathers (R217, R218) -/

def Packet.gEfmt (p : Packet) : Nat := bits (p.word 32) 2 2
def Packet.gRsz (p : Packet) : Nat := bits (p.word 32) 40 8
def Packet.gList (p : Packet) : Nat := bits (p.word 40) 0 48
def Packet.gDst (p : Packet) : Nat := bits (p.word 48) 0 48
def Packet.gRows (p : Packet) : Nat := bits (p.word 56) 0 24

/-- Tensor-space offset of unit j of the tensor (R187). -/
def unitOffset (fmt seg0 j : Nat) : Nat :=
  if isMx fmt then segBytes * (seg0 + j / tilesPerSeg fmt) + j % tilesPerSeg fmt * tileBytes fmt
  else segBytes * seg0 + 64 * j

/-- Segments of a row. -/
def Packet.rowSegs (p : Packet) (fmt r : Nat) : List Nat :=
  let a := unitOffset fmt p.pfSeg0 (r * p.gRsz) / segBytes
  let b := unitOffset fmt p.pfSeg0 (r * p.gRsz + p.gRsz - 1) / segBytes
  segRange a (b + 1 - a)

/-- R217: the checks of the rows. -/
def State.rowsRefused (s : State) (p : Packet) (fmt : Nat) (rows : List Nat) : Option KStatus :=
  let one := fun (g : Nat) =>
    let e := s.seg g
    if s.dirDown g then some KStatus.unavailable
    else if numSegs ≤ g || e.st = .unmapped || e.fmt ≠ fmt then some KStatus.malformed
    else if e.tenant ≠ p.tenant then some .denied else none
  firstFail (rows.map fun v =>
    if v / 2 ^ 24 ≠ 0 then some .malformed else firstFail ((p.rowSegs fmt v).map one))

/-- A gather starts: the list is read whole and checked. -/
def State.gatherStart (s : State) (p : Packet) : State :=
  let fmt := (s.seg p.pfSeg0).fmt
  let n := p.gRows
  let out := p.gRsz * gatherUnit fmt p.gEfmt
  match firstFail [s.memRegion p.tenant 4096 p.gList (4 * n),
      if !isMx fmt && p.gEfmt ≠ 0 then some .malformed else none, s.memRegion p.tenant 4096 p.gDst (n * out)] with
  | some k => s.fixPacket p k
  | none =>
    match s.readBytes p.gList (4 * n) with
    | (t, ⟨.ok, _, d⟩) =>
      let rows := (List.range n).map fun i => bits d (32 * i) 32
      (match t.rowsRefused p fmt rows with
      | some k => t.fixPacket p k
      | none => t.setPacket { p with rows := rows, fmt := fmt })
    | (t, ⟨st, o, _⟩) => t.fixPacket p (ofPStatus st) 0 0 (t.failAddr (p.gList + o) st)

/-- Granules of one unit, or the first thing that stands in the way. -/
def State.unitRead (s : State) (id x n : Nat) : State × Except SrcGot Nat :=
  (List.range n).foldl (fun (a : State × Except SrcGot Nat) i =>
    match a.2 with
    | .ok v => match a.1.packTens id (x + 64 * i) with
      | (t, .ok d) => (t, .ok (v + (d.toNat <<< (512 * i))))
      | (t, r) => (t, .error r)
    | .error _ => a) (s, .ok 0)

/-- What a unit of a row becomes in the output: bytes, the values that saturated, and whether a NaN is among them. -/
def unitOut (fmt efmt v : Nat) : Nat × Nat × Bool := if efmt = 0 then (v, 0, false) else decodeTile fmt efmt v

/-- Segments that a row makes the gather fetch or pass through are noted once. -/
def State.markSegs (s : State) (id : Nat) (gs : List Nat) : State :=
  match s.packet id with
  | none => s
  | some p =>
    let far := gs.filter fun g => ((s.seg g).st = .far || (s.seg g).st = .fetching) && !p.segs.contains g
    s.setPacket { p with segs := p.segs ++ far }

/-- Segments that a row has read: noted ones count for the reply, and their reference bits are set (R196, R218). -/
def State.rowRead (s : State) (id : Nat) (gs : List Nat) : State :=
  let s1 := gs.foldl (fun t g => t.touchSeg g) s
  match s1.packet id with
  | none => s1
  | some p =>
    let more := (p.segs.filter fun g => gs.contains g && !p.fetched.contains g)
    s1.setPacket { p with fetched := p.fetched ++ more, count := (p.fetched ++ more).length }

/-- R218: the stack beside whose cluster a row is read: that of its first tile's frame or home, or the segment mod 8. -/
def State.rowStack (s : State) (x : Nat) : Nat :=
  let g := x / segBytes
  let e := s.seg g
  match e.st with
  | .loc => e.pool
  | .fetching => e.pool
  | .mem => match s.homePlace (e.home + x % segBytes) with
    | some pl => pl.pc / 64
    | none => g % 8
  | _ => g % 8

/-- R143, R144: what a row's emission shows in CN_ERR and CN_SAT_CNT of its cluster, and in TR_ERR (R205, R223). -/
def State.rowEvents (s : State) (cl sat : Nat) (nan : Bool) (segs : List Nat) : State :=
  let s1 := if nan then s.builtEvent F.cnErr_nan_out cl none else s
  match segs with
  | [] => s1
  | g :: _ => (((s1.builtEvent F.cnErr_sat cl none).fsat F.cnSatCnt_count [cl] sat).raise 4 F.trErr_sat [] [(F.trErr_first_seg, g)])

/-- What has been read of a row: output, saturated values, NaN, segments whose values saturated. -/
structure RowGot where
  out : Nat
  sat : Nat
  nan : Bool
  segs : List Nat

/-- Units of a row read and converted in order, until one is not there. -/
def State.rowUnits (s : State) (id : Nat) (p : Packet) (r : Nat) : State × Except SrcGot RowGot :=
  let ub := gatherUnit p.fmt p.gEfmt
  let inB := if isMx p.fmt then tileBytes p.fmt else 64
  (List.range p.gRsz).foldl (fun (a : State × Except SrcGot RowGot) j =>
    match a.2 with
    | .ok w =>
      let x := unitOffset p.fmt p.pfSeg0 (r * p.gRsz + j)
      (match a.1.unitRead id x (inB / 64) with
      | (t, .ok d) =>
        let o := unitOut p.fmt p.gEfmt d
        (t, .ok ⟨w.out + (o.1 <<< (8 * ub * j)), w.sat + o.2.1, w.nan || o.2.2, if o.2.1 = 0 then w.segs else w.segs ++ [x / segBytes]⟩)
      | (t, .error e) => (t, .error e))
    | .error _ => a) (s, .ok ⟨0, 0, false, []⟩)

/-- One row moves, or the packet waits or ends. -/
def State.gatherRow (s : State) (id : Nat) : State :=
  match s.packet id with
  | none => s
  | some p =>
    if p.st ≠ .running then s else
    match p.rows[p.prog]? with
    | none => s
    | some r =>
      match s.gatherCluster (s.rowStack (unitOffset p.fmt p.pfSeg0 (r * p.gRsz))) with
      | none => s.endGather p .unavailable 0
      | some cl =>
        let segs := p.rowSegs p.fmt r
        let (s1, got) := (s.markSegs id segs).rowUnits id p r
        match got with
        | .ok w =>
          let s2 := (s1.rowRead id segs).rowEvents cl w.sat w.nan w.segs
          let q := (s2.packet id).getD p
          let out := p.rowOut
          (match s2.writeBytes (p.gDst + p.prog * out) out w.out (clusterClass cl) with
          | (t, .ok, _) =>
            let q1 := { q with prog := p.prog + 1, waits := [], got := [] }
            if p.prog + 1 = p.rows.length then t.fixPacket q1 .done q.fetched.length else t.setPacket q1
          | (t, st, o) => t.endGather q (ofPStatus st) (p.gDst + p.prog * out + o))
        | .error (.wait g) =>
          let s2 := s1.rowRead id (segs.takeWhile (· ≠ g))
          s2.setPacket { (s2.packet id).getD p with waits := [g] }
        | .error (.fail k a) =>
          let s2 := (if k = .poisoned then s1.builtEvent F.cnErr_poison cl none
            else if k = .farErr then s1.builtEvent F.cnErr_far_err cl none else s1).rowRead id
              (segs.takeWhile (· ≠ a % 2 ^ 46 / segBytes))
          s2.endGather ((s2.packet id).getD p) k a
        | .error (.ok _) => s1

/-- R217, R218: rows move in order until one waits. -/
def State.gatherRun (s : State) (id : Nat) : State :=
  match s.packet id with
  | none => s
  | some p =>
    if p.st ≠ .running then s else (List.range (p.rows.length - p.prog)).foldl (fun t _ => t.gatherRow id) s

def State.runPrefetch (s : State) (id : Nat) : State :=
  match s.live id 0x33 with
  | none => s
  | some p =>
    if p.st = .running then s.gatherRun id else
    match s.takeFw id 0x33 with
    | none => s
    | some (s1, q) =>
      let gather := bits (q.word 32) 0 2 = 1
      match [s1.residStop q.pfSeg0 (if gather then 1 else bits (q.word 40) 0 26),
          if gather then none else s1.ownSegs q.tenant q.pfSeg0 (bits (q.word 40) 0 26)].findSome? fun x => x with
      | some k => s1.fixPacket q k
      | none => if gather then (s1.gatherStart q).gatherRun id else s1.pfQueue q

def execPrefetch (id : Nat) (s : State) : Res := .next (s.runPrefetch id)

end Sys2Proof.Machine
end

