-- ==== Sys2Proof/Machine/Dispatch.lean ====
section
/-! DEFINITION. The effect of a command on everything but the queue: one arm per row of spec/opcode_table.json, each one
call of that row's meaning. -/
namespace Sys2Proof.Machine

def exec (i : Instr) (s : State) : Host.Outcome State Fault Refusal :=
  match i with
  | .coldReset bu => Sys2Proof.Machine.execColdReset bu s
  | .hubWarmReset bu => Sys2Proof.Machine.execHubWarmReset bu s
  | .warmResetRequest path bu => Sys2Proof.Machine.execWarmResetRequest path bu s
  | .sysinit => Sys2Proof.Machine.execSysinit s
  | .noKeyTimeout => Sys2Proof.Machine.execNoKeyTimeout s
  | .btLockSet path => Sys2Proof.Machine.execBtLockSet path s
  | .registerWrite path off size val => Sys2Proof.Machine.execRegisterWrite path off size val s
  | .read n hdr => Sys2Proof.Machine.execRead n hdr s
  | .write n hdr data => Sys2Proof.Machine.execWrite n hdr data s
  | .writeMasked n hdr ext data => Sys2Proof.Machine.execWriteMasked n hdr ext data s
  | .atomic n hdr data => Sys2Proof.Machine.execAtomic n hdr data s
  | .apertureWrite n hdr data => Sys2Proof.Machine.execApertureWrite n hdr data s
  | .malformedFlit n slots => Sys2Proof.Machine.execMalformedFlit n slots s
  | .responseCreditGrant n k => Sys2Proof.Machine.execResponseCreditGrant n k s
  | .fenceHoldRelease n id => Sys2Proof.Machine.execFenceHoldRelease n id s
  | .tenantRelease n => Sys2Proof.Machine.execTenantRelease n s
  | .wheelSlot => Sys2Proof.Machine.execWheelSlot s
  | .creditReserve n id => Sys2Proof.Machine.execCreditReserve n id s
  | .pccAdmit pc => Sys2Proof.Machine.execPccAdmit pc s
  | .act pc => Sys2Proof.Machine.execAct pc s
  | .pre pc => Sys2Proof.Machine.execPre pc s
  | .rd pc => Sys2Proof.Machine.execRd pc s
  | .wr pc => Sys2Proof.Machine.execWr pc s
  | .refpb pc => Sys2Proof.Machine.execRefpb pc s
  | .escapementTick pc => Sys2Proof.Machine.execEscapementTick pc s
  | .readReturn pc noise sticky => Sys2Proof.Machine.execReadReturn pc noise sticky s
  | .ueReread pc noise sticky => Sys2Proof.Machine.execUeReread pc noise sticky s
  | .ceLeak pc => Sys2Proof.Machine.execCeLeak pc s
  | .mergeRelease pc => Sys2Proof.Machine.execMergeRelease pc s
  | .frameStart n => Sys2Proof.Machine.execFrameStart n s
  | .portReset n => Sys2Proof.Machine.execPortReset n s
  | .portResetRelease n prev => Sys2Proof.Machine.execPortResetRelease n prev s
  | .portReady n => Sys2Proof.Machine.execPortReady n s
  | .portEnable path n => Sys2Proof.Machine.execPortEnable path n s
  | .portDisable path n => Sys2Proof.Machine.execPortDisable path n s
  | .portDrainDone n => Sys2Proof.Machine.execPortDrainDone n s
  | .farResponse ft tag poison data => Sys2Proof.Machine.execFarResponse ft tag poison data s
  | .farTimeout ft tag => Sys2Proof.Machine.execFarTimeout ft tag s
  | .parsePacket n => Sys2Proof.Machine.execParsePacket n s
  | .progressWrite n q => Sys2Proof.Machine.execProgressWrite n q s
  | .progressRetry n q => Sys2Proof.Machine.execProgressRetry n q s
  | .fwQueueAdmit id => Sys2Proof.Machine.execFwQueueAdmit id s
  | .packetCommit id => Sys2Proof.Machine.execPacketCommit id s
  | .copy id k ahead => Sys2Proof.Machine.execCopy id k ahead s
  | .fill id k ahead => Sys2Proof.Machine.execFill id k ahead s
  | .copyChannelStart id => Sys2Proof.Machine.execCopyChannelStart id s
  | .scrub id => Sys2Proof.Machine.execScrub id s
  | .migrate id k ahead => Sys2Proof.Machine.execMigrate id k ahead s
  | .streamOpen id => Sys2Proof.Machine.execStreamOpen id s
  | .streamAppend id => Sys2Proof.Machine.execStreamAppend id s
  | .streamClose id => Sys2Proof.Machine.execStreamClose id s
  | .streamEvict id => Sys2Proof.Machine.execStreamEvict id s
  | .attnPartial id => Sys2Proof.Machine.execAttnPartial id s
  | .attnSelect id => Sys2Proof.Machine.execAttnSelect id s
  | .attnMerge id order => Sys2Proof.Machine.execAttnMerge id order s
  | .engineBlockDeal id cl e => Sys2Proof.Machine.execEngineBlockDeal id cl e s
  | .lossWalk k => Sys2Proof.Machine.execLossWalk k s
  | .tensorMap id => Sys2Proof.Machine.execTensorMap id s
  | .tensorPin id => Sys2Proof.Machine.execTensorPin id s
  | .tensorUnpin id => Sys2Proof.Machine.execTensorUnpin id s
  | .prefetch id => Sys2Proof.Machine.execPrefetch id s
  | .segmentFetchStart => Sys2Proof.Machine.execSegmentFetchStart s
  | .segmentFetchDone seg => Sys2Proof.Machine.execSegmentFetchDone seg s
  | .recipeLoad id => Sys2Proof.Machine.execRecipeLoad id s
  | .recipeRun id => Sys2Proof.Machine.execRecipeRun id s
  | .recipeSlotFree slot => Sys2Proof.Machine.execRecipeSlotFree slot s
  | .iterationStart cl core => Sys2Proof.Machine.execIterationStart cl core s
  | .iterationDone cl core => Sys2Proof.Machine.execIterationDone cl core s
  | .streamFetch cl core e src => Sys2Proof.Machine.execStreamFetch cl core e src s
  | .endStep cl core => Sys2Proof.Machine.execEndStep cl core s
  | .loopStep cl core => Sys2Proof.Machine.execLoopStep cl core s
  | .endlStep cl core => Sys2Proof.Machine.execEndlStep cl core s
  | .loadStep cl core => Sys2Proof.Machine.execLoadStep cl core s
  | .macStep cl core => Sys2Proof.Machine.execMacStep cl core s
  | .rmaxStep cl core => Sys2Proof.Machine.execRmaxStep cl core s
  | .expStep cl core => Sys2Proof.Machine.execExpStep cl core s
  | .scaleStep cl core => Sys2Proof.Machine.execScaleStep cl core s
  | .topnStep cl core => Sys2Proof.Machine.execTopnStep cl core s
  | .storeStep cl core => Sys2Proof.Machine.execStoreStep cl core s
  | .emitStep cl core => Sys2Proof.Machine.execEmitStep cl core s
  | .clusterReset cl => Sys2Proof.Machine.execClusterReset cl s
  | .clusterResetDone cl => Sys2Proof.Machine.execClusterResetDone cl s
  | .coreEnable cl mask => Sys2Proof.Machine.execCoreEnable cl mask s
  | .retire id => Sys2Proof.Machine.execRetire id s
  | .repair id => Sys2Proof.Machine.execRepair id s
  | .retrain id maint => Sys2Proof.Machine.execRetrain id maint s
  | .oppoint id stallNs => Sys2Proof.Machine.execOppoint id stallNs s
  | .abort id => Sys2Proof.Machine.execAbort id s
  | .fence id => Sys2Proof.Machine.execFence id s
  | .fenceDone id => Sys2Proof.Machine.execFenceDone id s
  | .checkArm id => Sys2Proof.Machine.execCheckArm id s
  | .checkRead id => Sys2Proof.Machine.execCheckRead id s
  | .fwTrap k addr => Sys2Proof.Machine.execFwTrap k addr s
  | .fwReloadDone k src => Sys2Proof.Machine.execFwReloadDone k src s
  | .ringEnable path n q => Sys2Proof.Machine.execRingEnable path n q s
  | .ringDisable path n q => Sys2Proof.Machine.execRingDisable path n q s
  | .ringRestart path n q => Sys2Proof.Machine.execRingRestart path n q s
  | .sreset k rep => Sys2Proof.Machine.execSreset k rep s
  | .clockLoss k rep => Sys2Proof.Machine.execClockLoss k rep s
  | .caParityError k c => Sys2Proof.Machine.execCaParityError k c s
  | .retrainPass k c badLane => Sys2Proof.Machine.execRetrainPass k c badLane s
  | .retrainDeferExpire k c => Sys2Proof.Machine.execRetrainDeferExpire k c s
  | .stackTempRead k temp => Sys2Proof.Machine.execStackTempRead k temp s
  | .stackTempStale k => Sys2Proof.Machine.execStackTempStale k s
  | .laneRepair k c g lane done => Sys2Proof.Machine.execLaneRepair k c g lane done s
  | .softRepair k idx => Sys2Proof.Machine.execSoftRepair k idx s
  | .rowRemap k p bank row => Sys2Proof.Machine.execRowRemap k p bank row s
  | .bankSpare k p bank => Sys2Proof.Machine.execBankSpare k p bank s
  | .autoRetire pc => Sys2Proof.Machine.execAutoRetire pc s
  | .patrolScrub k => Sys2Proof.Machine.execPatrolScrub k s
  | .srefEntry k => Sys2Proof.Machine.execSrefEntry k s
  | .srefExit k => Sys2Proof.Machine.execSrefExit k s
  | .mapDescWrite path => Sys2Proof.Machine.execMapDescWrite path s
  | .mapApply path => Sys2Proof.Machine.execMapApply path s
  | .mapSnapshot path idx => Sys2Proof.Machine.execMapSnapshot path idx s
  | .grSnapshot path id => Sys2Proof.Machine.execGrSnapshot path id s
  | .dirSnapshot path seg => Sys2Proof.Machine.execDirSnapshot path seg s
  | .remapSnapshot path k idx => Sys2Proof.Machine.execRemapSnapshot path k idx s
  | .tqSnapshot tenant => Sys2Proof.Machine.execTqSnapshot tenant s
  | .tqConfig val => Sys2Proof.Machine.execTqConfig val s
  | .gateEnable n => Sys2Proof.Machine.execGateEnable n s
  | .gateDisable n => Sys2Proof.Machine.execGateDisable n s
  | .gateSwap n => Sys2Proof.Machine.execGateSwap n s
  | .gateSwapTake n => Sys2Proof.Machine.execGateSwapTake n s
  | .arbRequest a j => Sys2Proof.Machine.execArbRequest a j s
  | .arbDrop a j => Sys2Proof.Machine.execArbDrop a j s
  | .arbGrant a => Sys2Proof.Machine.execArbGrant a s
  | .arbSeize a => Sys2Proof.Machine.execArbSeize a s
  | .arbRevoke a => Sys2Proof.Machine.execArbRevoke a s
  | .watchdogBite a => Sys2Proof.Machine.execWatchdogBite a s
  | .quotaWindow a => Sys2Proof.Machine.execQuotaWindow a s
  | .prioWrite a j prio quota => Sys2Proof.Machine.execPrioWrite a j prio quota s
  | .interp3Rerequest => Sys2Proof.Machine.execInterp3Rerequest s
  | .sensorConversion readings => Sys2Proof.Machine.execSensorConversion readings s
  | .throttleDwell z => Sys2Proof.Machine.execThrottleDwell z s
  | .comparatorTrip k => Sys2Proof.Machine.execComparatorTrip k s
  | .thermalRestart bu => Sys2Proof.Machine.execThermalRestart bu s
  | .failAck zones => Sys2Proof.Machine.execFailAck zones s
  | .hairspringCalibrate count => Sys2Proof.Machine.execHairspringCalibrate count s
  | .powerEstimate w => Sys2Proof.Machine.execPowerEstimate w s
  | .powerWindowExpire => Sys2Proof.Machine.execPowerWindowExpire s
  | .powerSkipRelax => Sys2Proof.Machine.execPowerSkipRelax s
  | .powerWindowRearm => Sys2Proof.Machine.execPowerWindowRearm s
  | .powerGrantWithdraw => Sys2Proof.Machine.execPowerGrantWithdraw s
  | .vddFall => Sys2Proof.Machine.execVddFall s
  | .vddRestore bu => Sys2Proof.Machine.execVddRestore bu s
  | .vaonLoss => Sys2Proof.Machine.execVaonLoss s
  | .hoursTick => Sys2Proof.Machine.execHoursTick s
  | .nvmWordWrite addr val => Sys2Proof.Machine.execNvmWordWrite addr val s
  | .keyLoad slot key => Sys2Proof.Machine.execKeyLoad slot key s
  | .keyClear slot => Sys2Proof.Machine.execKeyClear slot s
  | .keyClearDone slot => Sys2Proof.Machine.execKeyClearDone slot s
  | .lcQuery hub => Sys2Proof.Machine.execLcQuery hub s
  | .lcChange target => Sys2Proof.Machine.execLcChange target s
  | .dbgGrant level life => Sys2Proof.Machine.execDbgGrant level life s
  | .dbgRevoke => Sys2Proof.Machine.execDbgRevoke s
  | .debugExpire => Sys2Proof.Machine.execDebugExpire s
  | .logClear target nonce => Sys2Proof.Machine.execLogClear target nonce s
  | .logClearRequest target => Sys2Proof.Machine.execLogClearRequest target s
  | .nonceExpire => Sys2Proof.Machine.execNonceExpire s
  | .clearZeroingDone => Sys2Proof.Machine.execClearZeroingDone s
  | .recordWrite => Sys2Proof.Machine.execRecordWrite s
  | .pmcWrite a val => Sys2Proof.Machine.execPmcWrite a val s
  | .pmcClearAll => Sys2Proof.Machine.execPmcClearAll s
  | .pmcWrap a k => Sys2Proof.Machine.execPmcWrap a k s
  | .pmcConfig a val => Sys2Proof.Machine.execPmcConfig a val s
  | .publication => Sys2Proof.Machine.execPublication s
  | .monSnap clr => Sys2Proof.Machine.execMonSnap clr s
  | .levelSample v => Sys2Proof.Machine.execLevelSample v s
  | .setEndpointId eid => Sys2Proof.Machine.execSetEndpointId eid s
  | .getEndpointId => Sys2Proof.Machine.execGetEndpointId s
  | .getEndpointUuid => Sys2Proof.Machine.execGetEndpointUuid s
  | .getMctpVersionSupport => Sys2Proof.Machine.execGetMctpVersionSupport s
  | .getMessageTypeSupport => Sys2Proof.Machine.execGetMessageTypeSupport s
  | .regRead off => Sys2Proof.Machine.execRegRead off s
  | .regWrite off val => Sys2Proof.Machine.execRegWrite off val s
  | .entdaa addr => Sys2Proof.Machine.execEntdaa addr s
  | .hotJoin => Sys2Proof.Machine.execHotJoin s
  | .registerRead path off size => Sys2Proof.Machine.execRegisterRead path off size s
  | .farCreditReturn ft hdr wdat => Sys2Proof.Machine.execFarCreditReturn ft hdr wdat s
  | .powerGrant w => Sys2Proof.Machine.execPowerGrant w s
  | .debugHalt k op addr val => Sys2Proof.Machine.execDebugHalt k op addr val s

end Sys2Proof.Machine
end

