-- ==== Sys2Proof/Machine/Idle.lean ====
section
/-! DEFINITION. What happens while no command waits: time passes, and a stack whose training is over returns (log entries
1 and 10). -/
namespace Sys2Proof.Machine

/-- The length of an FCLK in ticks. -/
def idleTicks : Nat := 3

/-- The stack whose training, fill or copy is over first, with the tick; of two, the lower number. Training waits while interpreter 3
cannot work, or another requester holds the stack's maintenance port (R239). -/
def State.nextReturn (s : State) : Option (Nat × Nat) :=
  (minBy (fun e => e.2.due) (s.returns.filter fun e =>
      e.2.fill.isSome || (s.i3up && ((s.arb e.1).owner.isNone || s.owns e.1 2)))).map
    fun e => (e.1, e.2.due)

/-- Time passes up to the next step of a stack's return, which then takes place; with none to come, one FCLK passes. -/
def State.idle (s : State) : State :=
  match s.nextReturn with
  | some (k, due) => (s.tickTo due).returnStack k
  | none => s.tick idleTicks

end Sys2Proof.Machine
end

