-- ==== Sys2Proof/WellFormed.lean ====
section
/-! DEFINITION. Which commands are well formed: those whose operands name units, indexes and addresses that the device has (R4,
R36), with as many readings or reports as it has sensors or stacks. A command that is not well formed cannot arrive; no other
value of an operand is ill-formed (log entry 4). -/
namespace Sys2Proof

/-- Eight fuse words, and eight stacks in order. -/
def BringUp.wf (bu : BringUp) : Bool :=
  decide (bu.fuse.length = 8) && decide (bu.reports.length = 8)

/-- Sizes of the families of units (R4, R36, R59, R97, R108, R116, R145, R261, R375). -/
def isPort (n : Nat) : Bool := decide (n < 26)
def isFabric (n : Nat) : Bool := decide (n < 24)
def isFar (n : Nat) : Bool := decide (n < 2)
def isStack (k : Nat) : Bool := decide (k < 8)
def isPc (p : Nat) : Bool := decide (p < 512)
def isChannel (k c : Nat) : Bool := decide (k < 8 && c < 32)
def isCore (cl core : Nat) : Bool := decide (cl < 8 && core < 16)
def isPath (p : Nat) : Bool := decide (p < 3)
def isArb (i : Nat) : Bool := decide (i < 10)
def isRing (n q : Nat) : Bool := decide (n < 24 && q < 4)

/-- The operands name units that exist, one arm per command. -/
def Instr.wf : Instr → Bool
  | .coldReset bu | .hubWarmReset bu | .thermalRestart bu | .vddRestore bu => bu.wf
  | .warmResetRequest path bu => bu.wf && decide (path < 2)
  | .btLockSet path | .mapDescWrite path | .mapApply path => isPath path
  | .registerWrite path off _ _ | .registerRead path off _ => isPath path && decide (off < 2 ^ 24)
  | .regRead off | .regWrite off _ => decide (off < 2 ^ 24)
  | .read n _ | .write n _ _ | .writeMasked n _ _ _ | .atomic n _ _ | .apertureWrite n _ _ | .responseCreditGrant n _
  | .fenceHoldRelease n _ | .tenantRelease n | .creditReserve n _ | .frameStart n | .parsePacket n | .gateEnable n
  | .gateDisable n | .gateSwap n | .gateSwapTake n => isFabric n
  | .malformedFlit n _ | .portReset n | .portResetRelease n _ | .portReady n | .portDrainDone n => isPort n
  | .portEnable path n | .portDisable path n => isPath path && isPort n
  | .pccAdmit pc | .act pc | .pre pc | .rd pc | .wr pc | .refpb pc | .escapementTick pc | .readReturn pc _ _
  | .ueReread pc _ _ | .ceLeak pc | .mergeRelease pc | .autoRetire pc => isPc pc
  | .farResponse ft _ _ _ | .farTimeout ft _ | .farCreditReturn ft _ _ => isFar ft
  | .progressWrite n q | .progressRetry n q => isRing n q
  | .ringEnable path n q | .ringDisable path n q | .ringRestart path n q => isPath path && isRing n q
  | .engineBlockDeal _ cl e => decide (cl < 8 && e < 64)
  | .lossWalk k | .sreset k _ | .clockLoss k _ | .stackTempRead k _ | .stackTempStale k | .patrolScrub k | .srefEntry k
  | .srefExit k | .comparatorTrip k => isStack k
  | .segmentFetchDone seg => decide (seg < 2 ^ 25)
  | .recipeSlotFree slot => decide (slot < 256)
  | .iterationStart cl core | .iterationDone cl core | .endStep cl core | .loopStep cl core | .endlStep cl core
  | .loadStep cl core | .macStep cl core | .rmaxStep cl core | .expStep cl core | .scaleStep cl core | .topnStep cl core
  | .storeStep cl core | .emitStep cl core => isCore cl core
  | .streamFetch cl core e src => isCore cl core && decide (e < 4 && src < 6)
  | .clusterReset cl | .clusterResetDone cl | .coreEnable cl _ | .throttleDwell cl => decide (cl < 8)
  | .fwTrap k _ | .fwReloadDone k _ => decide (k < 4)
  | .debugHalt k op addr _ => decide (k < 4 && op < 5 && addr < 32768)
  | .caParityError k c | .retrainPass k c _ | .retrainDeferExpire k c => isChannel k c
  | .laneRepair k c g lane _ => isChannel k c && decide (g < 9 && lane < (if g = 8 then 11 else 10))
  | .softRepair k idx => isStack k && decide (idx < 4096)
  | .rowRemap k p bank row => isStack k && decide (p < 64 && bank < 64 && row < 24576)
  | .bankSpare k p bank => isStack k && decide (p < 64 && bank < 64)
  | .mapSnapshot path idx => isPath path && decide (idx < 4096)
  | .grSnapshot path id => isPath path && decide (id < 262144)
  | .dirSnapshot path seg => isPath path && decide (seg < 2 ^ 25)
  | .remapSnapshot path k idx => isPath path && isStack k && decide (idx < 4096)
  | .tqSnapshot tenant => decide (tenant < 4096)
  | .arbRequest i j | .arbDrop i j | .prioWrite i j _ _ => isArb i && decide (j < 8)
  | .arbGrant i | .arbSeize i | .arbRevoke i | .watchdogBite i | .quotaWindow i => isArb i
  | .sensorConversion readings => decide (readings.length = 64)
  | .nvmWordWrite addr _ => decide (addr < 262144)
  | .keyLoad slot _ | .keyClear slot | .keyClearDone slot => decide (slot < 64)
  | .pmcWrite i _ | .pmcWrap i _ | .pmcConfig i _ => decide (i < 256)
  | .levelSample v => decide (v < 32)
  | .setEndpointId eid => decide (eid < 256)
  | .entdaa addr => decide (addr < 128)
  | .lcQuery _ | .sysinit | .noKeyTimeout | .powerEstimate _ | .powerGrant _ | .wheelSlot | .fwQueueAdmit _ | .packetCommit _ | .copy _ _ _ | .fill _ _ _
  | .copyChannelStart _ | .scrub _ | .migrate _ _ _ | .streamOpen _ | .streamAppend _ | .streamClose _ | .streamEvict _
  | .attnPartial _ | .attnSelect _ | .attnMerge _ _ | .tensorMap _ | .tensorPin _ | .tensorUnpin _ | .prefetch _
  | .segmentFetchStart | .recipeLoad _ | .recipeRun _ | .retire _ | .repair _ | .retrain _ _ | .oppoint _ _ | .abort _
  | .fence _ | .fenceDone _ | .checkArm _ | .checkRead _ | .tqConfig _ | .interp3Rerequest | .failAck _
  | .hairspringCalibrate _ | .powerWindowExpire | .powerSkipRelax | .powerWindowRearm | .powerGrantWithdraw | .vddFall
  | .vaonLoss | .hoursTick | .lcChange _ | .dbgGrant _ _ | .dbgRevoke | .debugExpire | .logClear _ _ | .logClearRequest _
  | .nonceExpire | .clearZeroingDone | .recordWrite | .pmcClearAll | .publication | .monSnap _ | .getEndpointId
  | .getEndpointUuid | .getMctpVersionSupport | .getMessageTypeSupport | .hotJoin => true

end Sys2Proof
end

