-- ==== Sys2Proof/Safety.lean ====
section
/-! DEFINITION. What every step of the device respects, whatever the command: which components of the state each command may
change. Every other component is as it was before. -/
namespace Sys2Proof.Machine

/-- The components of State beside the queue of commands. -/
inductive Field where
| clk | regs | pregs | out | free | nextId | ports | gates | tenants | wheel | pccs | mem | descs | remaps | repairs |
  spares | rows | epochs | retPend | ladder | links | returns | laneMaps | keys | clearing | dir | hands | fetches |
  demandQ | prefetchQ | far | streams | lgUsed | lgSums | lgWalk | attns | recipes | runs | cores | clReset | packets
  | fwq | interps | obs | nvm | arbs | i3want | i3at | therm | supply | trims | sec | boot | mgmtQ | mapCopy
  deriving DecidableEq, Repr

/-- Component f of t is that of s. -/
def Field.same (s t : State) : Field → Prop
  | .clk => t.clk = s.clk
  | .regs => t.regs = s.regs
  | .pregs => t.pregs = s.pregs
  | .out => t.out = s.out
  | .free => t.free = s.free
  | .nextId => t.nextId = s.nextId
  | .ports => t.ports = s.ports
  | .gates => t.gates = s.gates
  | .tenants => t.tenants = s.tenants
  | .wheel => t.wheel = s.wheel
  | .pccs => t.pccs = s.pccs
  | .mem => t.mem = s.mem
  | .descs => t.descs = s.descs
  | .remaps => t.remaps = s.remaps
  | .repairs => t.repairs = s.repairs
  | .spares => t.spares = s.spares
  | .rows => t.rows = s.rows
  | .epochs => t.epochs = s.epochs
  | .retPend => t.retPend = s.retPend
  | .ladder => t.ladder = s.ladder
  | .links => t.links = s.links
  | .returns => t.returns = s.returns
  | .laneMaps => t.laneMaps = s.laneMaps
  | .keys => t.keys = s.keys
  | .clearing => t.clearing = s.clearing
  | .dir => t.dir = s.dir
  | .hands => t.hands = s.hands
  | .fetches => t.fetches = s.fetches
  | .demandQ => t.demandQ = s.demandQ
  | .prefetchQ => t.prefetchQ = s.prefetchQ
  | .far => t.far = s.far
  | .streams => t.streams = s.streams
  | .lgUsed => t.lgUsed = s.lgUsed
  | .lgSums => t.lgSums = s.lgSums
  | .lgWalk => t.lgWalk = s.lgWalk
  | .attns => t.attns = s.attns
  | .recipes => t.recipes = s.recipes
  | .runs => t.runs = s.runs
  | .cores => t.cores = s.cores
  | .clReset => t.clReset = s.clReset
  | .packets => t.packets = s.packets
  | .fwq => t.fwq = s.fwq
  | .interps => t.interps = s.interps
  | .obs => t.obs = s.obs
  | .nvm => t.nvm = s.nvm
  | .arbs => t.arbs = s.arbs
  | .i3want => t.i3want = s.i3want
  | .i3at => t.i3at = s.i3at
  | .therm => t.therm = s.therm
  | .supply => t.supply = s.supply
  | .trims => t.trims = s.trims
  | .sec => t.sec = s.sec
  | .boot => t.boot = s.boot
  | .mgmtQ => t.mgmtQ = s.mgmtQ
  | .mapCopy => t.mapCopy = s.mapCopy

/-- Registers at other offsets than those listed hold what they held. -/
def State.regsBut (s t : State) (as : List Nat) : Prop := ∀ a, a ∉ as → tfind t.regs a = tfind s.regs a

/-- Only the components listed may differ; the queue of commands does not. -/
def State.only (s t : State) (l : List Field) : Prop := t.pending = s.pending ∧ ∀ f, f ∉ l → f.same s t

/-- Families whose writes act on more than the register, or are kept per path. -/
def Reg.acts (r : Reg) : Bool :=
  r.perPath || [Reg.glPortCfg, .cpRingCfg, .cpRingCtl, .cnCtl, .glMapCtl, .scLinkCtl, .shTqSel, .shTqCfg, .shGateCfg, .shGateCtl,
    .shGateEnt, .abPrio, .tmFailAck, .obClrCtl, .obPmcCtl, .obMonCtl, .obPmcCfg, .obPmc, .btLock, .btCtl, .trPoolCfg].contains r

/-- What every reset of the core domain with its bring-up leaves: time does not run back, the queues, the gates, the shaper, the recipe
runs, the clusters and the management chain hold nothing, and the hub's state is the one it reported. -/
def State.freshAfter (s t : State) (bu : BringUp) : Prop :=
  s.clk.now ≤ t.clk.now ∧ t.pending = s.pending
  ∧ t.gates = [] ∧ t.tenants = [] ∧ t.wheel = 0 ∧ t.runs = [] ∧ t.cores = [] ∧ t.clReset = 0 ∧ t.mgmtQ = []
  ∧ (bu.hub ≤ 4 → t.sec.hub = bu.hub) ∧ t.sec.intent = false ∧ t.sec.resume = false

/-- Where a warm bring-up ends: a scrapped device, READY with slot 63 loaded, or waiting before READY. -/
def State.readyOrWaiting (t : State) : Prop :=
  (t.scrapped = true → t.fget F.btStat_phase = 7)
  ∧ (t.scrapped = false → t.fget F.btStat_phase = 5 ∨ (t.fget F.btStat_phase = 6 ∧ tfind t.keys 63 ≠ none))

/-- A packet whose terminal status is fixed, with the words of its reply (R84, R92). -/
def Packet.ended (p : Packet) (st : KStatus) (count aux detail : Nat) : Packet :=
  { p with st := .fixed, chan := none, status := st, count := count, aux := aux % 2 ^ 32, detail := detail, waits := [] }

/-- No request of a far-tier port waits to be sent. -/
def State.allSent (s : State) (ft : Nat) : Prop := ∀ q ∈ s.far, q.ft = ft → q.tries ≠ 0

/-- Every other packet of the in-flight table is as it was. -/
def State.othersKept (s t : State) (id : Nat) : Prop := ∀ j, j ≠ id → tfind t.packets j = tfind s.packets j

/-- What the stack gives for a stored sector: its bytes, or none for poison or a sector that does not decode. -/
def State.storedBytes (s : State) (pc bank row col : Nat) : Option (List Byte) :=
  match decodeSector (coordA pc bank row col (s.epoch pc)) (s.rawSector pc bank row col) with
  | (.clean, d) => some d
  | (.ce _, d) => some d
  | _ => none

/-- The core runs an iteration, and w with this opcode is its next step (R127, R128). -/
def State.nextStep (s : State) (cl core op : Nat) (c : Core) (w : Nat) : Prop :=
  s.coreAt cl core = some c ∧ c.ended = false ∧ stepOp w = op ∧ ∃ x, c.steps[c.pc]? = some x ∧ x.toNat = w

/-- Every component. -/
def Field.all : List Field :=
[.clk, .regs, .pregs, .out, .free, .nextId, .ports, .gates, .tenants, .wheel, .pccs, .mem, .descs, .remaps, .repairs,
   .spares, .rows, .epochs, .retPend, .ladder, .links, .returns, .laneMaps, .keys, .clearing, .dir, .hands, .fetches,
   .demandQ, .prefetchQ, .far, .streams, .lgUsed, .lgSums, .lgWalk, .attns, .recipes, .runs, .cores, .clReset,
   .packets, .fwq, .interps, .obs, .nvm, .arbs, .i3want, .i3at, .therm, .supply, .trims, .sec, .boot, .mgmtQ,
   .mapCopy]

/-- Every component but those listed. -/
def Field.but (l : List Field) : List Field := Field.all.filter fun f => !l.contains f

/-- What an access to a granule by a unit of the device may change: cells, the queues of its PCCs and what waits on them, error
counts and records, a stack that wakes with the time and the port that this takes, bytes that the spec leaves open. -/
def Field.access : List Field := [.clk, .regs, .free, .ports, .pccs, .mem, .rows, .ladder, .links, .dir, .obs, .arbs]

/-- What the end of a packet may change: its entry, the port and the frames that it held, and the check units. -/
def Field.packet : List Field := [.regs, .ports, .dir, .demandQ, .packets, .obs]

/-- What a write into the register window may change: with BT_CTL.warm, all that steps W1 to W4 of R520 change. -/
def Field.registerWrite : List Field :=
  Field.but [.nextId, .remaps, .repairs, .spares, .epochs, .laneMaps, .lgUsed, .lgSums, .nvm, .supply, .trims]

/-- The components that a command may change. -/
def mayChange : Instr → List Field
| .coldReset _ | .thermalRestart _ | .vddRestore _ => Field.but [.nextId]
| .hubWarmReset _ | .warmResetRequest _ _ | .fwReloadDone _ _ => Field.but [.nextId, .supply]
| .sysinit => Field.access ++ [.descs, .spares, .retPend, .fetches, .demandQ, .prefetchQ, .far, .streams, .lgUsed,
    .lgSums, .lgWalk, .recipes, .packets, .boot, .mapCopy]
| .noKeyTimeout | .malformedFlit _ _ | .tqSnapshot _ | .quotaWindow _ | .prioWrite _ _ _ _ | .failAck _ |
    .powerWindowExpire | .powerSkipRelax | .powerWindowRearm | .powerGrantWithdraw | .pmcWrite _ _ | .pmcClearAll |
    .pmcWrap _ _ | .pmcConfig _ _ | .entdaa _ | .hotJoin => [.regs]
| .btLockSet _ | .registerWrite _ _ _ _ | .portEnable _ _ | .portDisable _ _ | .ringEnable _ _ _ |
    .ringDisable _ _ _ | .ringRestart _ _ _ | .regWrite _ _ => Field.registerWrite
| .read _ _ | .write _ _ _ | .writeMasked _ _ _ _ | .atomic _ _ _ | .apertureWrite _ _ _ => [.regs, .out, .nextId,
    .ports, .tenants]
| .responseCreditGrant _ _ | .portReady _ => [.regs, .out, .ports]
| .fenceHoldRelease _ _ => [.regs, .out, .ports, .tenants]
| .tenantRelease _ => [.regs, .ports, .tenants]
| .wheelSlot => [.clk, .regs, .tenants, .wheel]
| .creditReserve _ _ => [.regs, .out, .free, .ports, .dir, .demandQ, .prefetchQ, .far]
| .pccAdmit _ => [.regs, .out, .free, .ports, .pccs, .dir]
| .act _ | .pre _ | .rd _ | .refpb _ => [.clk, .regs, .pccs]
| .wr _ => [.clk, .regs, .free, .ports, .pccs, .mem, .dir]
| .escapementTick _ | .ceLeak _ => [.pccs]
| .readReturn _ _ _ | .ueReread _ _ _ => [.clk, .regs, .free, .ports, .pccs, .mem, .rows, .ladder, .dir, .obs]
| .mergeRelease _ => [.regs, .free, .ports, .pccs, .dir]
| .frameStart _ => [.clk, .regs, .out, .free, .ports, .obs]
| .portReset _ => Field.access ++ [.pregs, .out, .tenants, .demandQ, .prefetchQ, .far, .attns, .runs, .packets, .fwq]
| .portResetRelease _ _ => [.out, .ports]
| .portDrainDone _ => [.ports]
| .farResponse _ _ _ _ => Field.access ++ [.out, .fetches, .far, .cores, .packets]
| .farTimeout _ _ => Field.access ++ [.out, .fetches, .demandQ, .far, .cores, .packets]
| .parsePacket _ => Field.access ++ [.out, .nextId, .packets]
| .progressWrite _ _ | .progressRetry _ _ => Field.access ++ [.out]
| .fwQueueAdmit _ | .tensorUnpin _ | .checkArm _ | .checkRead _ => Field.packet ++ [.fwq]
| .packetCommit _ | .fenceDone _ => Field.access ++ [.out, .attns, .runs, .packets, .fwq]
| .copy _ _ _ | .fill _ _ _ => Field.access ++ [.out, .demandQ, .prefetchQ, .far, .packets]
| .copyChannelStart _ | .abort _ => Field.packet
| .scrub _ => Field.access ++ [.remaps, .demandQ, .packets, .fwq]
| .migrate _ _ _ => Field.access ++ [.demandQ, .packets, .fwq]
| .streamOpen _ => Field.access ++ [.demandQ, .streams, .lgUsed, .packets, .fwq]
| .streamAppend _ => Field.access ++ [.demandQ, .streams, .lgUsed, .lgSums, .packets]
| .streamClose _ => Field.packet ++ [.streams, .lgUsed, .lgSums, .fwq]
| .streamEvict _ => Field.access ++ [.demandQ, .streams, .lgUsed, .lgSums, .packets, .fwq]
| .attnPartial _ | .attnSelect _ | .engineBlockDeal _ _ _ => Field.access ++ [.demandQ, .streams, .attns, .packets]
| .attnMerge _ _ | .coreEnable _ _ => Field.access ++ [.demandQ, .attns, .packets]
| .lossWalk _ => Field.access ++ [.streams, .lgUsed, .lgSums, .lgWalk]
| .tensorMap _ => Field.packet ++ [.free, .fetches, .prefetchQ, .far, .fwq]
| .tensorPin _ => Field.packet ++ [.hands, .prefetchQ, .fwq]
| .prefetch _ => Field.access ++ [.out, .demandQ, .prefetchQ, .far, .packets, .fwq]
| .segmentFetchStart => Field.packet ++ [.out, .hands, .fetches, .prefetchQ, .far]
| .segmentFetchDone _ => [.regs, .free, .ports, .dir, .fetches, .packets, .obs]
| .recipeLoad _ => Field.packet ++ [.recipes, .fwq]
| .recipeRun _ => Field.access ++ [.nextId, .demandQ, .attns, .runs, .packets]
| .recipeSlotFree _ => [.recipes]
| .iterationStart _ _ => [.nextId, .runs, .cores]
| .iterationDone _ _ | .loadStep _ _ => Field.packet ++ [.cores]
| .streamFetch _ _ _ _ => Field.access ++ [.out, .far, .cores, .packets]
| .endStep _ _ | .loopStep _ _ | .endlStep _ _ | .rmaxStep _ _ | .scaleStep _ _ | .topnStep _ _ | .storeStep _ _ =>
    [.cores]
| .macStep _ _ | .expStep _ _ => [.regs, .cores]
| .emitStep _ _ => Field.access ++ [.demandQ, .cores, .packets]
| .clusterReset _ => Field.access ++ [.demandQ, .attns, .runs, .cores, .clReset, .packets]
| .clusterResetDone _ => [.clReset]
| .retire _ => Field.access ++ [.descs, .spares, .retPend, .fetches, .demandQ, .prefetchQ, .far, .streams, .lgUsed,
    .lgSums, .packets, .fwq, .mapCopy]
| .repair _ => Field.access ++ [.remaps, .repairs, .spares, .demandQ, .packets, .fwq]
| .retrain _ _ => Field.packet ++ [.clk, .pccs, .ladder, .links, .laneMaps, .fwq, .arbs]
| .oppoint _ _ => Field.access ++ [.epochs, .returns, .demandQ, .packets, .fwq, .therm]
| .fence _ => [.packets]
| .fwTrap _ _ => Field.packet ++ [.interps]
| .sreset _ _ | .clockLoss _ _ => Field.access ++ [.pregs, .retPend, .returns, .fetches, .demandQ, .prefetchQ, .far,
    .streams, .lgWalk, .attns, .packets, .i3want, .i3at]
| .caParityError _ _ => [.links]
| .retrainPass _ _ _ | .retrainDeferExpire _ _ => [.regs, .ladder, .links, .obs, .arbs]
| .stackTempRead _ _ => [.regs, .links, .obs, .arbs, .therm]
| .stackTempStale _ => [.regs, .therm]
| .laneRepair _ _ _ _ _ => [.regs, .ladder, .links, .laneMaps, .obs, .arbs]
| .softRepair _ _ => [.regs, .free, .ports, .pccs, .mem, .remaps, .repairs, .rows, .ladder, .dir, .obs, .arbs]
| .rowRemap _ _ _ _ => [.regs, .free, .ports, .pccs, .mem, .remaps, .rows, .ladder, .dir, .obs]
| .bankSpare _ _ _ => Field.access ++ [.remaps, .spares]
| .autoRetire _ => Field.access ++ [.descs, .spares, .retPend, .fetches, .demandQ, .prefetchQ, .far, .streams,
    .lgUsed, .lgSums, .packets, .mapCopy]
| .patrolScrub _ => Field.access ++ [.remaps]
| .srefEntry _ => [.regs, .pccs, .links]
| .srefExit _ => [.clk, .regs, .pccs, .links, .obs, .arbs]
| .mapDescWrite _ => [.regs, .free, .descs, .mgmtQ]
| .mapApply _ => [.regs, .descs, .obs, .mgmtQ, .mapCopy]
| .mapSnapshot _ _ | .grSnapshot _ _ | .remapSnapshot _ _ _ => [.pregs, .mgmtQ]
| .dirSnapshot _ _ => [.pregs, .free, .mgmtQ]
| .tqConfig _ => [.tenants]
| .gateEnable _ | .gateDisable _ | .gateSwap _ => [.regs, .gates]
| .gateSwapTake _ => [.clk, .regs, .gates]
| .arbRequest _ _ => [.arbs]
| .arbDrop _ _ | .arbSeize _ | .watchdogBite _ => [.regs, .obs, .arbs]
| .arbGrant _ => [.regs, .arbs]
| .arbRevoke _ => [.regs, .obs, .arbs, .i3want, .i3at]
| .interp3Rerequest => [.arbs, .i3want]
| .sensorConversion _ | .vddFall => Field.but [.free, .nextId, .mem, .descs, .remaps, .repairs, .spares, .epochs,
    .laneMaps, .dir, .streams, .lgUsed, .lgSums, .lgWalk, .i3at, .trims, .boot, .mapCopy]
| .throttleDwell _ | .clearZeroingDone | .monSnap _ | .levelSample _ => [.regs, .obs]
| .comparatorTrip _ => Field.but [.nextId, .mem, .descs, .remaps, .repairs, .spares, .epochs, .laneMaps, .dir,
    .streams, .lgUsed, .lgSums, .lgWalk, .i3at, .trims, .boot, .mapCopy]
| .hairspringCalibrate _ => [.regs, .free, .therm, .trims]
| .powerEstimate _ | .powerGrant _ => [.regs, .free]
| .vaonLoss => [.supply]
| .hoursTick | .nonceExpire => [.obs]
| .nvmWordWrite _ _ => [.nvm]
| .keyLoad _ _ => [.regs, .out, .keys]
| .keyClear _ => [.out, .clearing]
| .keyClearDone _ => [.out, .keys, .clearing]
| .lcQuery _ => [.out, .free, .sec]
| .lcChange _ => Field.but [.nextId, .gates, .tenants, .wheel, .descs, .hands, .lgUsed, .lgSums, .runs, .cores,
    .clReset, .therm, .supply, .boot, .mgmtQ]
| .dbgGrant _ _ => [.regs, .out, .obs, .sec]
| .dbgRevoke => [.regs, .out, .interps, .obs, .arbs, .sec]
| .debugExpire => [.regs, .interps, .obs, .arbs, .sec]
| .logClear _ _ => [.regs, .out, .obs, .nvm]
| .logClearRequest _ => [.free, .obs]
| .recordWrite => [.regs, .obs, .nvm]
| .publication => Field.access
| .setEndpointId _ => [.regs, .out, .mgmtQ]
| .getEndpointId | .getEndpointUuid | .getMctpVersionSupport | .getMessageTypeSupport => [.out, .mgmtQ]
| .regRead _ | .registerRead _ _ _ => [.regs, .out, .free, .mgmtQ]
| .farCreditReturn _ _ _ => [.regs, .out, .ports, .far]
| .debugHalt _ _ _ _ => [.out, .interps]

end Sys2Proof.Machine
end

