-- ==== Sys2Proof/Certificates/Slice0/Obligations.lean ====
section
/-! DEFINITION. Statements about the device, one def Obligations.<Name> each. A statement about a command's own effect says, under
conditions on the state and the operands alone, which state exec answers. Where a clause gives the next state by named updates,
everything that the updates do not name is as before; elsewhere State.only and State.regsBut say what stays. -/
open Sys2Proof Sys2Proof.Machine

/-! ## The queue of commands and every command -/

/-- A step carries out the command at the front of the queue, on the state with the queue's rest. -/
def Obligations.StepRunsFrontCommand : Prop :=
  ∀ (s : State) (c : Instr) (rest : List Instr), s.pending = c :: rest → step s = exec c { s with pending := rest }

/-- With no command waiting the device idles (log entries 1 and 10): with no stack in training one FCLK passes and nothing but
the clock and the counts of cycles changes; a stack whose training, fill or copy can go on takes its next step at its time, and
time does not run back. -/
def Obligations.EmptyQueueIdles : Prop :=
  ∀ s : State, s.pending = [] →
    (s.returns = [] → s.nextReturn = none)
    ∧ (s.nextReturn = none → ∃ t, step s = .next t ∧ t.clk.now = s.clk.now + 3 ∧ s.only t [.clk, .regs])
    ∧ (∀ k r, s.returns = [(k, r)] →
        (r.fill ≠ none ∨ (s.i3up = true ∧ ((s.arb k).owner = none ∨ s.owns k 2 = true))) →
        step s = .next ((s.tickTo r.due).returnStack k))
    ∧ ∃ t, step s = .next t ∧ t.pending = [] ∧ s.clk.now ≤ t.clk.now

/-- A command whose operands name units, indexes and addresses of the device, and as many readings or reports as it has, is
carried out with every value; any other cannot arrive (model's choice, log entry 4). No
command is refused. -/
def Obligations.WellFormedCommandsComplete : Prop :=
  ∀ (c : Instr) (s : State),
    (c.wf = true → ∃ t, exec c s = .next t) ∧ (c.wf = false → exec c s = .fault .noSuchUnit)

/-- The stored cells of the stacks keep their canonical form over every step. -/
def Obligations.StepKeepsCells : Prop :=
  ∀ s t : State, Memory.wf s.epochs s.mem = true → step s = .next t → Memory.wf t.epochs t.mem = true

/-- The cells are in canonical form at reset. -/
def Obligations.ResetCells : Prop :=
  Memory.wf State.reset.epochs State.reset.mem = true

/-- Over every step time does not run back, what was shown stays shown, arrival numbers and free values are handed out once, and
the queue loses its front command and no other. -/
def Obligations.StepOnlyGoesOn : Prop :=
  ∀ s t : State, step s = .next t →
    s.clk.now ≤ t.clk.now ∧ s.out <+: t.out ∧ s.nextId ≤ t.nextId ∧ s.free ≤ t.free ∧ t.pending = s.pending.tail

/-- A command changes the components that its list in Safety names, and no other. -/
def Obligations.CommandsLeaveTheRest : Prop :=
  ∀ (c : Instr) (s t : State), exec c s = .next t → s.only t (mayChange c)

/-- A command whose list names neither the cells nor the write epochs leaves every stored sector as it was. -/
def Obligations.OtherCommandsStoreNothing : Prop :=
  ∀ (c : Instr) (s t : State), Field.mem ∉ mayChange c → Field.epochs ∉ mayChange c → exec c s = .next t →
    ∀ pc bank row col, t.rawSector pc bank row col = s.rawSector pc bank row col

/-! ## The register window -/

/-- R8: registers lie at multiples of 8; an access of another size or alignment reads 0 or has no effect, and sets size_err. -/
def Obligations.RegisterSizeErrors : Prop :=
  (∀ off r ix, Reg.locate off = some (r, ix) → off % 8 = 0)
  ∧ ∀ (s : State) (path off size : Nat) (val : Word), path < 3 → off < 2 ^ 24 → (size ≠ 8 ∨ off % 8 ≠ 0) →
    (s.pathOk path true = true → ∃ t, exec (.registerWrite path off size val) s = .next t
      ∧ t.fget F.glRegErr_size_err = 1 ∧ s.regsBut t [Reg.glRegErr.addr []] ∧ s.only t [.regs, .free])
    ∧ (s.pathOk path false = true → ∃ t, exec (.registerRead path off size) s = .next t
      ∧ t.out = s.out ++ [.regValue path off 0]
      ∧ t.fget F.glRegErr_size_err = 1 ∧ s.regsBut t [Reg.glRegErr.addr []] ∧ s.only t [.regs, .free, .out])

/-- R11: an offset of the window that holds no register reads 0, a write there has no effect, and both set unmapped. R14: the
first_ fields keep the offset and the path of the first access error while any error bit stands. -/
def Obligations.RegisterUnmapped : Prop :=
  (∀ (s : State) (path off : Nat) (val : Word), path < 3 → off < 2 ^ 24 → off % 8 = 0 → Reg.locate off = none →
    (s.pathOk path true = true → ∃ t, exec (.registerWrite path off 8 val) s = .next t
      ∧ t.fget F.glRegErr_unmapped = 1 ∧ s.regsBut t [Reg.glRegErr.addr []] ∧ s.only t [.regs, .free])
    ∧ (s.pathOk path false = true → ∃ t, exec (.registerRead path off 8) s = .next t
      ∧ t.out = s.out ++ [.regValue path off 0]
      ∧ t.fget F.glRegErr_unmapped = 1 ∧ s.regsBut t [Reg.glRegErr.addr []] ∧ s.only t [.regs, .free, .out]))
  ∧ (∀ (s : State) (path off size : Nat) (val : Word), path < 2 → off < 2 ^ 24 → (size ≠ 8 ∨ off % 8 ≠ 0) →
    s.pathOk path true = true →
    ∃ t, exec (.registerWrite path off size val) s = .next t
      ∧ (bits (s.rget .glRegErr []).toNat 0 4 = 0 →
          t.fget F.glRegErr_first_offset = off ∧ t.fget F.glRegErr_first_path = path)
      ∧ (bits (s.rget .glRegErr []).toNat 0 4 ≠ 0 →
          t.fget F.glRegErr_first_offset = s.fget F.glRegErr_first_offset
          ∧ t.fget F.glRegErr_first_path = s.fget F.glRegErr_first_path))

/-- R9, R10, R531: a plain write sets the writable fields of its register and nothing else; with BT_LOCK set a register whose
fields are all RWL keeps its value and lock_viol is set; a write of a read-only register sets ro_write. By REGISTER_WRITE and,
with its completion code, by REG_WRITE. -/
def Obligations.RegisterWrites : Prop :=
  ∀ (s : State) (path off : Nat) (val : Word) (r : Reg) (ix : List Nat), path < 3 → off < 2 ^ 24 → s.pathOk path true = true →
    Reg.locate off = some (r, ix) →
    (r.acts = false → r.readOnly ix = false → (s.locked = false ∨ r.has ix (fun a => a = .rwl) = false) →
      exec (.registerWrite path off 8 val) s
        = .next (s.rput r ix (BitVec.ofNat 64 (r.written ix (s.rget r ix).toNat val.toNat s.locked)))
      ∧ (path = 1 → exec (.regWrite off val) s
        = .next ((s.rput r ix (BitVec.ofNat 64 (r.written ix (s.rget r ix).toNat val.toNat s.locked))).emit (.mctp 0x7F02 0 []))))
    ∧ (r.readOnly ix = true → exec (.registerWrite path off 8 val) s = .next (s.regErr path off F.glRegErr_ro_write)
      ∧ (path = 1 → exec (.regWrite off val) s = .next ((s.regErr 1 off F.glRegErr_ro_write).emit (.mctp 0x7F02 1 []))))
    ∧ (s.locked = true → r.has ix (fun a => a = .rwl) = true → r.has ix (fun a => a = .rw || a = .wo || a = .w1c) = false →
      exec (.registerWrite path off 8 val) s = .next (s.regErr path off F.glRegErr_lock_viol))

/-- R9: a read returns what the register shows the path and clears its RC fields; every other register keeps its value. By
REGISTER_READ and by REG_READ of the management endpoint. R10: what lies outside the fields of a register reads 0, and so does a
write-only field. The offset at which a register is found is the register's own, and so is its value: two registers never share
an offset. R465, R479: no register shows a key: two devices that differ only in the contents of loaded slots read alike. -/
def Obligations.RegisterReads : Prop :=
  (∀ (s : State) (path off : Nat) (r : Reg) (ix : List Nat), path < 3 → off < 2 ^ 24 → Reg.locate off = some (r, ix) →
    (s.pathOk path false = true → ∃ t, exec (.registerRead path off 8) s = .next t
      ∧ t.out = s.out ++ [.regValue path off (s.readReg path r ix)]
      ∧ (∀ f ∈ r.fieldsAt ix, f.acc = .rc → bits (t.rget r ix).toNat f.lo f.w = 0)
      ∧ (r.has ix (fun a => a = .rc) = false → t.regs = s.regs)
      ∧ s.regsBut t [off] ∧ s.only t [.regs, .out])
    ∧ (s.pathOk 1 false = true → ∃ t, exec (.regRead off) s = .next t
      ∧ t.out = s.out ++ [.mctp 0x7F01 0 ((List.range 8).map fun i => bits (s.readReg 1 r ix).toNat (8 * i) 8)]
      ∧ s.regsBut t [off] ∧ s.only t [.regs, .out]))
  ∧ (∀ (s : State) (path : Nat) (r : Reg) (ix : List Nat) (b : Nat), b < 64 →
    (∀ f ∈ r.fieldsAt ix, f.acc ≠ .wo → b < f.lo ∨ f.lo + f.w ≤ b) → (s.readReg path r ix).getLsbD b = false)
  ∧ (∀ off r ix, Reg.locate off = some (r, ix) → r.addr ix = off)
  ∧ (∀ (s : State) (ks : Table (BitVec 512)) (path : Nat) (r : Reg) (ix : List Nat), ks.map (·.1) = s.keys.map (·.1) →
    ({ s with keys := ks }).readReg path r ix = s.readReg path r ix)

/-- R67, R69, R101, R104: enabling a disabled port brings it to LINKUP; disabling one takes away its requests, frames and credits,
and PRDY falls if it was high; enabling or disabling a ring clears it; a halted enabled ring starts again at granule 0 and
sequence 0 (a progress record that is due stays due, R77). -/
def Obligations.PortsAndRingsEnable : Prop :=
  (∀ r : Ring, r.cleared.parse = 0 ∧ r.cleared.seq = 0 ∧ r.cleared.halted = false)
  ∧ ∀ (s : State) (path n q : Nat), path < 3 → s.pathOk path true = true →
    (s.locked = false → n < 26 → (s.port n).st = .disabled → s.fget F.glPortCfg_en [n] = 0 →
      ∃ t, exec (.portEnable path n) s = .next t ∧ t.fget F.glPortCfg_en [n] = 1 ∧ t.port n = { s.port n with st := .linkup }
        ∧ (∀ m, m ≠ n → t.port m = s.port m) ∧ s.regsBut t [Reg.glPortCfg.addr [n]] ∧ s.only t [.regs, .ports])
    ∧ (s.locked = false → n < 26 → (s.port n).st ≠ .disabled → (s.port n).st ≠ .drain → s.fget F.glPortCfg_en [n] = 1 →
      ∃ t, exec (.portDisable path n) s = .next t ∧ (t.port n).st = .drain ∧ (t.port n).reqs = [] ∧ (t.port n).frames = []
        ∧ (t.port n).hdrHeld = 0 ∧ (t.port n).rspHeld = 0 ∧ (t.port n).drev = 0
        ∧ ((s.port n).st = .ready → n < 24 → .ready n false 0 ∈ t.out))
    ∧ (s.locked = false → n < 24 → q < 4 → s.fget F.cpRingCfg_en [4 * n + q] = 0 →
      ∃ t, exec (.ringEnable path n q) s = .next t ∧ t.fget F.cpRingCfg_en [4 * n + q] = 1
        ∧ t.port n = (s.port n).setRing q ((s.port n).ring q).cleared
        ∧ (∀ m, m ≠ n → t.port m = s.port m) ∧ s.regsBut t [Reg.cpRingCfg.addr [4 * n + q]] ∧ s.only t [.regs, .ports])
    ∧ (s.locked = false → n < 24 → q < 4 → s.fget F.cpRingCfg_en [4 * n + q] = 1 →
      ∃ t, exec (.ringDisable path n q) s = .next t ∧ t.fget F.cpRingCfg_en [4 * n + q] = 0
        ∧ t.port n = (s.port n).setRing q ((s.port n).ring q).cleared
        ∧ (∀ m, m ≠ n → t.port m = s.port m) ∧ s.regsBut t [Reg.cpRingCfg.addr [4 * n + q]] ∧ s.only t [.regs, .ports])
    ∧ (n < 24 → q < 4 → s.fget F.cpRingCfg_en [4 * n + q] = 1 → ((s.port n).ring q).halted = true →
      exec (.ringRestart path n q) s = .next (s.setPort n ((s.port n).setRing q ((s.port n).ring q).cleared)))

/-- R523, R524, R535: what the bus owner assigns is kept and shown; every answer carries code 0 and its bytes. R96: while
interpreter 3 reloads a request of the management chain waits, behind those that wait already. R526: the UUID, most significant
byte first (that order and the layout of RFC 9562 are presumed, log entry 46): custom_a the serial, version 8, custom_b the site
with 0 below, variant 2, custom_c 0x5A08 with 0 below; without a valid fuse block serial and site are 0. -/
def Obligations.EndpointAnswers : Prop :=
  (∀ s : State, s.pathOk 1 false = true →
    (∀ eid, eid < 256 → ∃ t, exec (.setEndpointId eid) s = .next t ∧ t.fget F.btMciStat_eid = eid
      ∧ t.fget F.btMciStat_eid_valid = 1 ∧ t.fget F.btMciStat_dyn_addr = s.fget F.btMciStat_dyn_addr
      ∧ t.out = s.out ++ [.mctp 1 0 [eid]] ∧ s.regsBut t [Reg.btMciStat.addr []] ∧ s.only t [.regs, .out])
    ∧ exec .getEndpointId s
        = .next (s.emit (.mctp 2 0 [if s.fget F.btMciStat_eid_valid = 1 then s.fget F.btMciStat_eid else 0]))
    ∧ exec .getMctpVersionSupport s = .next (s.emit (.mctp 4 0 Config.mctpVersions))
    ∧ exec .getMessageTypeSupport s = .next (s.emit (.mctp 5 0 [0x7F])))
  ∧ (∀ s : State, s.cut = false →
    (s.fget F.btStat_phase ≠ 0 →
        (∀ a, a < 128 → ∃ t, exec (.entdaa a) s = .next t ∧ t.fget F.btMciStat_dyn_addr = a ∧ t.fget F.btMciStat_addr_valid = 1
          ∧ t.fget F.btMciStat_hotjoin = 0 ∧ t.fget F.btMciStat_eid = s.fget F.btMciStat_eid
          ∧ s.regsBut t [Reg.btMciStat.addr []] ∧ s.only t [.regs])
        ∧ (s.fget F.btMciStat_addr_valid ≠ 1 → exec .hotJoin s = .next (s.fset F.btMciStat_hotjoin [] 1)))
    ∧ (s.fget F.btStat_phase = 0 → exec .hotJoin s = .next s ∧ ∀ a, a < 128 → exec (.entdaa a) s = .next s))
  ∧ (∀ s : State, s.cut = false → s.mgmtWaits = true →
    ∀ c ∈ [.getEndpointId, .getEndpointUuid, .getMctpVersionSupport, .getMessageTypeSupport],
      exec c s = .next { s with mgmtQ := s.mgmtQ ++ [c] })
  ∧ (∀ (s : State) (eid off size : Nat) (val : Word), s.cut = false → s.mgmtWaits = true → eid < 256 → off < 2 ^ 24 →
    ∀ c ∈ [Instr.setEndpointId eid, .regRead off, .regWrite off val, .registerRead 1 off size, .registerWrite 1 off size val],
      exec c s = .next { s with mgmtQ := s.mgmtQ ++ [c] })
  ∧ (∀ s : State, s.pathOk 1 false = true → ∃ bs : List Nat, exec .getEndpointUuid s = .next (s.emit (.mctp 3 0 bs))
    ∧ bs.length = 16 ∧ (∀ b ∈ bs, b < 256)
    ∧ (let u := bs.foldl (fun a b => 256 * a + b) 0
       let ok := s.fget F.pkFuseStat_valid = 1
       bits u 80 48 = (if ok then bits (s.rget .pkFuse [0]).toNat 0 48 else 0) ∧ bits u 76 4 = 8
       ∧ bits u 68 8 = (if ok then bits (s.rget .pkFuse [1]).toNat 0 8 else 0) ∧ bits u 64 4 = 0 ∧ bits u 62 2 = 2
       ∧ bits u 46 16 = 0x5A08 ∧ bits u 0 46 = 0))

/-! ## The age arbiters -/

/-- R377, R380: a contest runs while no grant is held; of the pending requests that no quota masks it grants the one of highest
priority, then largest age, then lowest position, and counts the grant. R377, R378, R380: no contest grants anything while a
grant is held, a seize waits, or a quota masks every pending request. R377, R379, R382, R387: a request is stamped with the time
at which it reaches the arbiter; one that waits keeps its stamp, and one that is dropped loses it. R382: an instance whose
grant is dropped while a seize waits goes to the seize. The debug port requests while it is open, interpreter 3 in ascending order
of the ports. -/
def Obligations.ArbiterContest : Prop :=
  (∀ (s : State) (i j stamp : Nat), i < 10 → j < 8 → (s.arb i).owner = none → (s.arb i).seize = false →
    (j, stamp) ∈ (s.arb i).reqs → s.arbMasked i j = false →
    (∀ e ∈ (s.arb i).reqs, e ≠ (j, stamp) → s.arbMasked i e.1 = true
      ∨ s.fget F.abPrio_prio [i, e.1] < s.fget F.abPrio_prio [i, j]
      ∨ (s.fget F.abPrio_prio [i, e.1] = s.fget F.abPrio_prio [i, j]
          ∧ (s.arbAge i e.2 < s.arbAge i stamp ∨ (s.arbAge i e.2 = s.arbAge i stamp ∧ j < e.1)))) →
    ∃ t, exec (.arbGrant i) s = .next t ∧ (t.arb i).owner = some j ∧ (t.arb i).grantAt = s.clk.now
      ∧ (t.arb i).seized = false ∧ tfind (t.arb i).reqs j = none
      ∧ (∀ k, k ≠ j → tfind (t.arb i).reqs k = tfind (s.arb i).reqs k) ∧ (∀ k, k ≠ i → t.arb k = s.arb k)
      ∧ t.fget F.abPrio_grants [i, j] = min (s.fget F.abPrio_grants [i, j] + 1) (2 ^ F.abPrio_grants.w - 1)
      ∧ s.regsBut t [Reg.abPrio.addr [i, j]] ∧ s.only t [.regs, .arbs])
  ∧ (∀ (s : State) (i : Nat), i < 10 →
    ((s.arb i).owner ≠ none ∨ (s.arb i).seize = true ∨ (∀ e ∈ (s.arb i).reqs, s.arbMasked i e.1 = true)) →
      exec (.arbGrant i) s = .next s)
  ∧ (∀ (s : State) (i j : Nat), i < 10 → j < 8 →
    (arbUses i j = true → (s.arb i).owner ≠ some j → tfind (s.arb i).reqs j = none → (j = 7 → s.fget F.seDbgStat_level ≠ 0) →
      (i < 8 → j = 2 ∨ j = 3 → s.i3above i = false) →
      ∃ t, exec (.arbRequest i j) s = .next t ∧ tfind (t.arb i).reqs j = some s.clk.now ∧ (t.arb i).owner = (s.arb i).owner
        ∧ (∀ k, k ≠ j → tfind (t.arb i).reqs k = tfind (s.arb i).reqs k) ∧ (∀ k, k ≠ i → t.arb k = s.arb k) ∧ s.only t [.arbs])
    ∧ ((tfind (s.arb i).reqs j).isSome = true → exec (.arbRequest i j) s = .next s)
    ∧ (i < 8 → j = 2 ∨ j = 3 → s.i3above i = true → exec (.arbRequest i j) s = .next s)
    ∧ ((s.arb i).owner = some j → (j = 7 ∨ (s.arb i).seize = false) → ∃ t, exec (.arbDrop i j) s = .next t
        ∧ (t.arb i).owner = none ∧ (t.arb i).reqs = (s.arb i).reqs ∧ (∀ k, k ≠ i → t.arb k = s.arb k) ∧ s.only t [.arbs])
    ∧ ((s.arb i).owner = some j → j ≠ 7 → (s.arb i).seize = true → ∃ t, exec (.arbDrop i j) s = .next t
        ∧ (t.arb i).owner = some 7 ∧ (t.arb i).seized = true ∧ (t.arb i).seize = false ∧ (t.arb i).grantAt = s.clk.now
        ∧ t.fget F.abInt_seize [i] = 1 ∧ t.obs = (s.log .arbSeize i j).obs
        ∧ (∀ k, k ≠ 7 → tfind (t.arb i).reqs k = tfind (s.arb i).reqs k) ∧ (∀ k, k ≠ i → t.arb k = s.arb k)
        ∧ s.regsBut t [Reg.abPrio.addr [i, 7], Reg.abInt.addr [i], Reg.obEvrStat.addr []] ∧ s.only t [.regs, .obs, .arbs])
    ∧ ((s.arb i).owner ≠ some j → ∃ t, exec (.arbDrop i j) s = .next t ∧ tfind (t.arb i).reqs j = none
        ∧ (t.arb i).owner = (s.arb i).owner ∧ (t.arb i).seize = ((s.arb i).seize && decide (j ≠ 7)) ∧ (∀ k, k ≠ j → tfind (t.arb i).reqs k = tfind (s.arb i).reqs k)
        ∧ (∀ k, k ≠ i → t.arb k = s.arb k) ∧ s.only t [.arbs]))

/-- R382, R383: a free instance is granted to its seize ahead of every request, with an ARB_SEIZE record and AB_INT.seize; a
held one is revoked at the safe boundary and then granted to the seize. A holder that the watchdog has marked just loses the
grant: the training sequencer and the NVM requesters ask again at once, interpreter 3 asks again later (R388). The record of a seize
that nobody held back is the model's choice (log entry 32). -/
def Obligations.EmergencySeize : Prop :=
  ∀ (s : State) (i : Nat), i < 10 → (i < 9 → s.fget F.seDbgStat_level = 2) →
    ((s.arb i).owner = none → ∃ t, exec (.arbSeize i) s = .next t ∧ (t.arb i).owner = some 7 ∧ (t.arb i).seized = true
      ∧ (t.arb i).grantAt = s.clk.now ∧ t.fget F.abInt_seize [i] = 1 ∧ t.obs = (s.log .arbSeize i 0).obs
      ∧ (∀ k, k ≠ 7 → tfind (t.arb i).reqs k = tfind (s.arb i).reqs k) ∧ (∀ k, k ≠ i → t.arb k = s.arb k)
      ∧ s.regsBut t [Reg.abPrio.addr [i, 7], Reg.abInt.addr [i], Reg.obEvrStat.addr []] ∧ s.only t [.regs, .obs, .arbs])
    ∧ (∀ j, (s.arb i).owner = some j → j ≠ 7 →
      exec (.arbSeize i) s = .next (s.setArb i { s.arb i with seize := true })
      ∧ ((s.arb i).seize = true → ∃ t, exec (.arbRevoke i) s = .next t ∧ (t.arb i).owner = some 7 ∧ (t.arb i).seized = true
          ∧ (t.arb i).seize = false ∧ t.fget F.abInt_seize [i] = 1
          ∧ (8 ≤ i ∨ j ≠ 3 → t.obs = (s.log .arbSeize i j).obs ∧ ∀ k, k ≠ i → t.arb k = s.arb k)
          ∧ s.only t [.regs, .obs, .arbs, .i3want, .i3at])
      ∧ ((s.arb i).seize = false → (s.arb i).revoke = true → ∃ t, exec (.arbRevoke i) s = .next t ∧ (t.arb i).owner = none
          ∧ (8 ≤ i ∨ j ≠ 3 → (∀ k, k ≠ i → t.arb k = s.arb k) ∧ t.obs = s.obs ∧ t.regs = s.regs)
          ∧ ((i < 8 ∧ j ∉ [1, 2, 3]) ∨ i = 8 → (t.arb i).reqs = (s.arb i).reqs ∧ t.i3want = s.i3want)
          ∧ ((i < 8 ∧ j = 1) ∨ (i = 9 ∧ arbUses 9 j = true) → tfind (s.arb i).reqs j = none →
              tfind (t.arb i).reqs j = some s.clk.now ∧ (∀ k, k ≠ j → tfind (t.arb i).reqs k = tfind (s.arb i).reqs k)
              ∧ t.i3want = s.i3want)
          ∧ (i < 8 → j = 2 ∨ j = 3 → (i, j) ∈ t.i3want ∧ t.i3at = s.clk.now)
          ∧ s.only t [.regs, .obs, .arbs, .i3want, .i3at])
      ∧ ((s.arb i).seize = false → (s.arb i).revoke = false → exec (.arbRevoke i) s = .next s))

/-- R384, R385: a bite marks the instance's own grant, or in a circle of waits the younger, which is read as the one given
last (log entry 32), to end at the safe
boundary; it is counted, recorded with instance, position and hold time, and the instance's count starts again. R388: 100 µs
after a revocation interpreter 3 requests the lowest port that it lost, as long as it waits for none. R380, R381, R394: a new
window sets the counts of the instance to 0; a write of AB_PRIO takes effect at once, leaves the count and every request with
its stamp, and a quota of 0 is ignored. -/
def Obligations.WatchdogBites : Prop :=
  (∀ (s : State) (i : Nat), i < 10 → (s.arb i).owner ≠ none →
    (s.arbChain i 10 i [] = none → ∃ t, exec (.watchdogBite i) s = .next t
      ∧ t.arb i = { s.arb i with revoke := true, wdAt := s.clk.now } ∧ (∀ k, k ≠ i → t.arb k = s.arb k)
      ∧ t.fget F.abWd_bites [i] = min (s.fget F.abWd_bites [i] + 1) 65535
      ∧ t.fget F.abWd_circles [i] = s.fget F.abWd_circles [i] ∧ t.fget F.abInt_wd_bite [i] = 1
      ∧ t.fget F.abInt_circle [i] = s.fget F.abInt_circle [i]
      ∧ t.obs = (s.log .arbWdog i ((s.arb i).owner.getD 0) i ((s.clk.now - (s.arb i).grantAt) / tickUs)).obs
      ∧ s.regsBut t [Reg.abWd.addr [i], Reg.abInt.addr [i], Reg.obEvrStat.addr []] ∧ s.only t [.regs, .obs, .arbs])
    ∧ (∀ l, s.arbChain i 10 i [] = some l → ∃ t v, exec (.watchdogBite i) s = .next t ∧ v ∈ l
      ∧ (∀ k ∈ l, s.clk.now - (s.arb v).grantAt ≤ s.clk.now - (s.arb k).grantAt)
      ∧ (t.arb v).revoke = true ∧ (t.arb i).wdAt = s.clk.now
      ∧ (∀ k, (t.arb k).owner = (s.arb k).owner ∧ (t.arb k).reqs = (s.arb k).reqs)
      ∧ (∀ k, k ≠ v → (t.arb k).revoke = (s.arb k).revoke)
      ∧ t.fget F.abWd_bites [i] = min (s.fget F.abWd_bites [i] + 1) 65535
      ∧ t.fget F.abWd_circles [i] = min (s.fget F.abWd_circles [i] + 1) 65535
      ∧ t.fget F.abInt_wd_bite [i] = 1 ∧ t.fget F.abInt_circle [i] = 1
      ∧ t.fget F.abWd_last_victim_inst [i] = v % 16 ∧ t.fget F.abWd_last_victim_req [i] = ((s.arb v).owner.getD 0) % 8
      ∧ t.obs = (s.log .arbCircle i ((s.arb v).owner.getD 0) v ((s.clk.now - (s.arb v).grantAt) / tickUs)).obs
      ∧ s.only t [.regs, .obs, .arbs]))
  ∧ (∀ (s : State) (i j : Nat), i < 8 → (j = 2 ∨ j = 3) → (i, j) ∈ s.i3want → (∀ e ∈ s.i3want, 8 * i + j ≤ 8 * e.1 + e.2 ∧ e.2 < 8) →
    (∀ k < 8, tfind (s.arb k).reqs 2 = none ∧ tfind (s.arb k).reqs 3 = none) →
    (s.i3at + 100 * tickUs ≤ s.clk.now → (∀ k < 8, i ≤ k → (s.arb k).owner ≠ some 2 ∧ (s.arb k).owner ≠ some 3) →
      ∃ t, exec .interp3Rerequest s = .next t ∧ tfind (t.arb i).reqs j = some s.clk.now ∧ t.i3want = s.i3want.erase (i, j)
        ∧ (t.arb i).owner = (s.arb i).owner ∧ (∀ k, k ≠ i → t.arb k = s.arb k) ∧ s.only t [.arbs, .i3want])
    ∧ (s.clk.now < s.i3at + 100 * tickUs → exec .interp3Rerequest s = .next s))
  ∧ (∀ (s : State) (i : Nat), i < 10 →
    (∃ t, exec (.quotaWindow i) s = .next t
      ∧ (∀ j < 8, t.fget F.abPrio_grants [i, j] = 0 ∧ t.fget F.abPrio_prio [i, j] = s.fget F.abPrio_prio [i, j]
          ∧ t.fget F.abPrio_quota [i, j] = s.fget F.abPrio_quota [i, j])
      ∧ s.regsBut t ((List.range 8).map fun j => Reg.abPrio.addr [i, j]) ∧ s.only t [.regs])
    ∧ (∀ j prio quota, j < 8 → ¬ (i = 9 ∧ j = 7) → s.cut = false → ∃ t, exec (.prioWrite i j prio quota) s = .next t
      ∧ t.fget F.abPrio_prio [i, j] = prio % 4
      ∧ t.fget F.abPrio_quota [i, j] = (if quota % 16 = 0 then s.fget F.abPrio_quota [i, j] else quota % 16)
      ∧ t.fget F.abPrio_grants [i, j] = s.fget F.abPrio_grants [i, j]
      ∧ s.regsBut t [Reg.abPrio.addr [i, j]] ∧ s.only t [.regs])
    ∧ ∀ prio quota, exec (.prioWrite 9 7 prio quota) s = .next s)

/-! ## Keys, lifecycle and debug -/

/-- R468, R471, R472: what a LOAD answers, and that a refused one leaves every slot as it is; slots by lifecycle state are the
table of R472. R468: a CLEAR of a loaded slot waits until the accesses admitted under the key have left; then the slot is empty
and the CLEAR answered OK. No other slot changes. An empty slot is answered OK at once
(model's choice, log entry 35). -/
def Obligations.KeyLoads : Prop :=
  ((∀ slot < 64, (lcPermits 0 slot = true ↔ slot = 0 ∨ slot = 63) ∧ (lcPermits 1 slot = true ↔ (1 ≤ slot ∧ slot ≤ 3) ∨ slot = 63)
    ∧ lcPermits 2 slot = true ∧ (lcPermits 3 slot = true ↔ slot = 1 ∨ slot = 63) ∧ lcPermits 4 slot = false)
  ∧ ∀ (s : State) (slot : Nat) (key : BitVec 512), slot < 64 → s.cut = false →
    (s.sec.resume = false → lcPermits s.effective slot = true → tfind s.keys slot = none →
      ∃ t, exec (.keyLoad slot key) s = .next t ∧ tfind t.keys slot = some key
        ∧ (∀ k, k ≠ slot → tfind t.keys k = tfind s.keys k) ∧ t.out = s.out ++ [.keyBus 0] ∧ s.only t [.keys, .out])
    ∧ (s.sec.resume = false → lcPermits s.effective slot = false →
      ∃ t, exec (.keyLoad slot key) s = .next t ∧ t.fget F.seErr_slot_denied = 1 ∧ t.out = s.out ++ [.keyBus 1]
        ∧ s.regsBut t [Reg.seErr.addr []] ∧ s.only t [.regs, .out])
    ∧ (s.sec.resume = true ∨ (lcPermits s.effective slot = true ∧ tfind s.keys slot ≠ none) →
      ∃ t, exec (.keyLoad slot key) s = .next t ∧ t.fget F.seErr_slot_busy = 1 ∧ t.out = s.out ++ [.keyBus 2]
        ∧ s.regsBut t [Reg.seErr.addr []] ∧ s.only t [.regs, .out]))
  ∧ (∀ (s : State) (slot : Nat), slot < 64 →
    (s.cut = false → tfind s.keys slot ≠ none → slot ∉ s.clearing →
      exec (.keyClear slot) s = .next { s with clearing := s.clearing ++ [slot] })
    ∧ (s.cut = false → tfind s.keys slot = none → exec (.keyClear slot) s = .next (s.emit (.keyBus 0)))
    ∧ (slot ∈ s.clearing → s.slotInUse slot = false →
      ∃ t, exec (.keyClearDone slot) s = .next t ∧ tfind t.keys slot = none ∧ (∀ k, k ≠ slot → tfind t.keys k = tfind s.keys k)
        ∧ slot ∉ t.clearing ∧ (∀ k, k ≠ slot → (k ∈ t.clearing ↔ k ∈ s.clearing)) ∧ t.out = s.out ++ [.keyBus 0]
        ∧ s.only t [.keys, .clearing, .out])
    ∧ (slot ∈ s.clearing → s.slotInUse slot = true → exec (.keyClearDone slot) s = .next s))

/-- R470: the effective state is the higher-ranked of the hub's state, which LC_QUERY returns, and the marker's: the committed
state, or with phase 1 the higher-ranked of committed and target. SE_LC_STAT shows it. For a hub code
that names no state the state taken is open (model's choice, log entry 4). -/
def Obligations.EffectiveState : Prop :=
  (lcRank 4 = 4 ∧ lcRank 3 = 3 ∧ lcRank 0 = 2 ∧ lcRank 1 = 1 ∧ lcRank 2 = 0)
  ∧ (∀ (s : State) (hub : Nat), hub ≤ 4 → s.cut = false →
      exec (.lcQuery hub) s = .next ({ s with sec := { s.sec with hub := hub } }.emit (.keyBus 0)))
  ∧ (∀ (s : State) (hub : Nat), 4 < hub → s.cut = false → ∃ t, exec (.lcQuery hub) s = .next t ∧ t.sec.hub ≤ 4
      ∧ t.out = s.out ++ [.keyBus 0] ∧ s.only t [.sec, .free, .out])
  ∧ ∀ s : State, s.sec.hub ≤ 4 → s.sec.committed ≤ 4 → s.sec.target ≤ 4 →
    (let marker := if s.sec.intent = true then [s.sec.committed, s.sec.target] else [s.sec.committed]
     s.effective ∈ s.sec.hub :: marker ∧ ∀ x ∈ s.sec.hub :: marker, lcRank x ≤ lcRank s.effective)
    ∧ ∀ path, bits (s.readReg path .seLcStat []).toNat 0 3 = s.effective

/-- R471, R473, R474, R476: an accepted change commits its target, empties every slot that the target does not permit and no
other, closes the debug port, and answers OK; to RMA it empties the customer slots of the recipe store; to SCRAPPED it leaves no
contents and no word of the NVM store outside the marker. A target that ranks lower is DENIED, but for the two changes that R471
excepts; a target above 4 is DENIED, and the debug port closes at a refused change too (model's reading, log entry 34). -/
def Obligations.LifecycleChanges : Prop :=
  ∀ (s : State) (target : Nat), s.cut = false →
    (lcAccepts s.effective target = true → ∃ t, exec (.lcChange target) s = .next t ∧ t.sec.committed = target
      ∧ t.sec.target = target ∧ t.sec.intent = false ∧ t.sec.hub = s.sec.hub ∧ t.fget F.seDbgStat_level = 0
      ∧ (∀ slot < 64, lcPermits target slot = false → tfind t.keys slot = none)
      ∧ (∀ slot < 64, lcPermits target slot = true → tfind t.keys slot = tfind s.keys slot)
      ∧ t.out.getLast? = some (.keyBus 0)
      ∧ (target = 3 → ∀ k, 32 ≤ k → (tget RecipeSlot.init t.recipes k).used = false)
      ∧ (target = 4 → t.mem = [] ∧ t.nvm = [] ∧ t.remaps = [] ∧ t.spares = [] ∧ t.trims = [] ∧ t.obs.hours = 0
          ∧ t.fget F.btStat_phase = 7))
    ∧ (lcAccepts s.effective target = false → ∃ t, exec (.lcChange target) s = .next t ∧ t.keys = s.keys
      ∧ t.sec.committed = s.sec.committed ∧ t.sec.intent = s.sec.intent ∧ t.out = s.out ++ [.keyBus 1]
      ∧ s.only t [.regs, .out, .interps, .obs, .arbs, .sec])
    ∧ (∀ a ≤ 4, ∀ b ≤ 4, lcAccepts a b = true ↔ lcRank a ≤ lcRank b ∨ (a = 0 ∧ b = 1) ∨ (a = 1 ∧ b = 2))

/-- R475, R476: a grant opens the debug port at its level for its lifetime; a revocation or the end of the lifetime closes it,
asks back its grants, drops its requests and releases every interpreter. Opening and closing are recorded. R475: at level 2 the
debug port halts and resumes an interpreter and reads and writes its memory, nothing else; at another level nothing happens.
What firmware does in a step is not given, and a step leaves the interpreter halted (model's choice). -/
def Obligations.DebugPort : Prop :=
  (∀ (s : State),
    (∀ level life, s.cut = false → level = 1 ∨ level = 2 → ∃ t, exec (.dbgGrant level life) s = .next t
      ∧ t.fget F.seDbgStat_level = level ∧ t.sec = { s.sec with dbgEnd := s.clk.now + life % 2 ^ 24 * tickSec }
      ∧ t.out = s.out ++ [.keyBus 0] ∧ t.obs = (s.log .debugOpen 0 level (life % 2 ^ 24)).obs
      ∧ s.regsBut t [Reg.seDbgStat.addr [], Reg.obEvrStat.addr []] ∧ s.only t [.regs, .sec, .out, .obs])
    ∧ (∀ c cause answer, (c, cause, answer) ∈ [(Instr.dbgRevoke, 1, [Out.keyBus 0]), (Instr.debugExpire, 0, [])] →
        s.cut = false → s.fget F.seDbgStat_level ≠ 0 → ∃ t, exec c s = .next t
      ∧ t.fget F.seDbgStat_level = 0 ∧ t.sec = { s.sec with dbgEnd := 0 } ∧ t.out = s.out ++ answer
      ∧ t.obs = (s.log .debugClose 0 cause).obs
      ∧ (∀ i < 9, (s.arb i).owner = some 7 → t.arb i = { s.arb i with revoke := true, seize := false })
      ∧ (∀ i < 9, (s.arb i).owner ≠ some 7 → (t.arb i).owner = (s.arb i).owner ∧ tfind (t.arb i).reqs 7 = none)
      ∧ t.arb 9 = s.arb 9
      ∧ (∀ k, (tget Interp.init t.interps k).halted = false
          ∧ (tget Interp.init t.interps k).mem = (tget Interp.init s.interps k).mem)
      ∧ s.regsBut t [Reg.seDbgStat.addr [], Reg.obEvrStat.addr []] ∧ s.only t [.regs, .sec, .out, .obs, .arbs, .interps])
    ∧ (s.cut = false → s.fget F.seDbgStat_level = 0 → exec .dbgRevoke s = .next (s.emit (.keyBus 0)))
    ∧ (s.fget F.seDbgStat_level = 0 → exec .debugExpire s = .next s))
  ∧ (∀ (s : State) (k addr : Nat) (val : Word), k < 4 → addr < 32768 →
    (s.fget F.seDbgStat_level ≠ 2 → ∀ op < 5, exec (.debugHalt k op addr val) s = .next s)
    ∧ (s.fget F.seDbgStat_level = 2 →
      (∀ op b, (op, b) ∈ [(0, true), (2, false)] → ∃ t, exec (.debugHalt k op addr val) s = .next t
        ∧ tget Interp.init t.interps k = { tget Interp.init s.interps k with halted := b }
        ∧ (∀ m, m ≠ k → tget Interp.init t.interps m = tget Interp.init s.interps m) ∧ s.only t [.interps])
      ∧ exec (.debugHalt k 1 addr val) s = .next s
      ∧ exec (.debugHalt k 3 addr val) s
          = .next (s.emit (.regValue 2 addr ((tfind (tget Interp.init s.interps k).mem addr).getD (Config.fwImage k addr))))
      ∧ ∃ t, exec (.debugHalt k 4 addr val) s = .next t ∧ tfind (tget Interp.init t.interps k).mem addr = some val
        ∧ (∀ a, a ≠ addr → tfind (tget Interp.init t.interps k).mem a = tfind (tget Interp.init s.interps k).mem a)
        ∧ (tget Interp.init t.interps k).halted = (tget Interp.init s.interps k).halted
        ∧ (∀ m, m ≠ k → tget Interp.init t.interps m = tget Interp.init s.interps m) ∧ s.only t [.interps]))

/-! ## The recorder, the counters and the monitors -/

/-- R482, R486, R487: the oldest record goes to the ledger slot of its sequence number, which is the head; a milestone of a
stack goes to that stack's log too, unless it holds 512; the rest of the queue keeps its order, and no other word of the store
changes. R488: once the queue has space again after records were dropped, one DROPPED record tells their number and OB_INT.drop
is set. R423, R469, R484: one word of the NVM store is written and no other, and the marker area is written by no such command;
the operating hours advance by one. Without a supply nothing happens. -/
def Obligations.RecordsAreWritten : Prop :=
  (∀ (s : State) (r : Rec) (rest : List Rec), s.supply = ⟨false, false, s.supply.again, true⟩ → s.nvmBusy = false → s.obs.lost = 0 →
    s.obs.tail ++ s.obs.queue = r :: rest →
    ∃ t, exec .recordWrite s = .next t ∧ t.obs.tail ++ t.obs.queue = rest ∧ t.obs.head = s.obs.head + 1 ∧ t.obs.base = s.obs.base
      ∧ (∀ w < 4, tget 0 t.nvm (ledgerWord (s.obs.head % 8192) w) = BitVec.ofNat 64 ((r.words s.obs.head)[w]?.getD 0))
      ∧ (∀ a < 32768, (∀ w < 4, a ≠ ledgerWord (s.obs.head % 8192) w) → tget 0 t.nvm a = tget 0 s.nvm a)
      ∧ (recMilestone r.ty = true → r.src < 8 → s.msHead r.src < 512 → t.msHead r.src = s.msHead r.src + 1
          ∧ (∀ w < 4, tget 0 t.nvm (msWord r.src (s.msHead r.src) w) = BitVec.ofNat 64 ((r.words (s.msHead r.src))[w]?.getD 0))
          ∧ (s.msHead r.src = 511 → t.fget F.obInt_ms_full = 1))
      ∧ (recMilestone r.ty = true → r.src < 8 → 512 ≤ s.msHead r.src → t.msHead r.src = s.msHead r.src ∧ t.regs = s.regs
          ∧ tget 0 t.obs.msDropped r.src = min (tget 0 s.obs.msDropped r.src + 1) 65535
          ∧ ∀ a, 32768 ≤ a → tget 0 t.nvm a = tget 0 s.nvm a)
      ∧ (recMilestone r.ty = false → t.regs = s.regs ∧ t.obs.msHead = s.obs.msHead ∧ t.obs.msDropped = s.obs.msDropped
          ∧ ∀ a, 32768 ≤ a → tget 0 t.nvm a = tget 0 s.nvm a)
      ∧ s.only t [.regs, .obs, .nvm])
  ∧ (∀ s : State, s.supply = ⟨false, false, s.supply.again, true⟩ → s.nvmBusy = false → 0 < s.obs.lost → s.obs.lost < 2 ^ 32 →
    s.obs.tail ++ s.obs.queue ≠ [] → s.obs.queue.length ≤ 64 → s.obs.tail.length ≤ 4 →
    ∃ t, exec .recordWrite s = .next t ∧ t.obs.lost = 0 ∧ t.fget F.obInt_drop = 1
      ∧ (t.obs.tail ++ t.obs.queue).getLast? = some ⟨0x57, 0, 0, s.obs.lost, 0, s.obs.hours, s.obs.pcyc⟩
      ∧ (t.obs.tail ++ t.obs.queue).dropLast = (s.obs.tail ++ s.obs.queue).tail)
  ∧ (∀ s : State,
    (s.supply.dip = false → s.supply.vaon = true →
      (∀ a val, a < 262136 → ∃ t, exec (.nvmWordWrite a val) s = .next t ∧ tget 0 t.nvm a = val
        ∧ (∀ b, b ≠ a → tget 0 t.nvm b = tget 0 s.nvm b) ∧ s.only t [.nvm])
      ∧ (∀ a val, 262136 ≤ a → a < 262144 → exec (.nvmWordWrite a val) s = .next s)
      ∧ exec .hoursTick s = .next { s with obs := { s.obs with hours := (s.obs.hours + 1) % 2 ^ 32 } })
    ∧ (s.supply.dip = true ∨ s.supply.vaon = false →
        exec .hoursTick s = .next s ∧ ∀ a val, a < 262144 → exec (.nvmWordWrite a val) s = .next s))

/-- R489, R492: a clear of the ledger sets base to the head, and the LOG_CLEAR record is the first at the new base; a clear of a
milestone log sets its head to 0. Cleared words read 0 at once; the other logs stay. R491, R492: a request draws a nonce, which
a new request replaces and the end of its time takes away; LOG_CLEAR with another target or nonce is DENIED and counted, and the
request stays. -/
def Obligations.LogsAreCleared : Prop :=
  (∀ (s : State) (target nonce : Nat), s.cut = false → s.obs.clearReq = some (target, nonce) →
    (target = 8 → ∃ t, exec (.logClear 8 nonce) s = .next t ∧ t.obs.base = s.obs.head ∧ t.obs.head = s.obs.head + 1
      ∧ t.obs.clearReq = none ∧ t.out = s.out ++ [.keyBus 0] ∧ t.obs.msHead = s.obs.msHead
      ∧ (∀ w < 4, tget 0 t.nvm (ledgerWord (s.obs.head % 8192) w)
          = BitVec.ofNat 64 (((Rec.mk 0x55 8 0 ((s.obs.head - s.obs.base) % 2 ^ 32) 0 s.obs.hours s.obs.pcyc).words s.obs.head)[w]?.getD 0))
      ∧ (∀ a < 32768, (∀ w < 4, a ≠ ledgerWord (s.obs.head % 8192) w) → tget 0 t.nvm a = 0)
      ∧ (∀ a, 32768 ≤ a → tget 0 t.nvm a = tget 0 s.nvm a) ∧ s.only t [.regs, .out, .obs, .nvm])
    ∧ (target < 8 → ∃ t, exec (.logClear target nonce) s = .next t ∧ t.msHead target = 0 ∧ t.obs.base = s.obs.base
      ∧ t.obs.head = s.obs.head + 1 ∧ t.obs.clearReq = none ∧ t.out = s.out ++ [.keyBus 0]
      ∧ (∀ k, k ≠ target → t.msHead k = s.msHead k)
      ∧ (∀ i < 2048, tget 0 t.nvm (msWord target 0 i) = 0)
      ∧ (∀ k < 8, k ≠ target → ∀ i < 2048, tget 0 t.nvm (msWord k 0 i) = tget 0 s.nvm (msWord k 0 i))
      ∧ (∀ w < 4, tget 0 t.nvm (ledgerWord (s.obs.head % 8192) w)
          = BitVec.ofNat 64 (((Rec.mk 0x55 target 0 (s.msHead target % 2 ^ 32) 0 s.obs.hours s.obs.pcyc).words s.obs.head)[w]?.getD 0))
      ∧ s.only t [.regs, .out, .obs, .nvm]))
  ∧ (∀ (s : State) (target nonce : Nat),
    (target ≤ 8 → s.cut = false → exec (.logClearRequest target) s
        = .next { s with
            free := s.free + 1
            obs := { s.obs with clearReq := some (target, (Config.freeNonce s.free).toNat) } })
    ∧ (8 < target → exec (.logClearRequest target) s = .next s)
    ∧ exec .nonceExpire s = .next { s with obs := { s.obs with clearReq := none } }
    ∧ (s.cut = false → s.obs.clearReq ≠ some (target, nonce) → ∃ t, exec (.logClear target nonce) s = .next t
      ∧ t.fget F.obClrStat_denied = min (s.fget F.obClrStat_denied + 1) (2 ^ F.obClrStat_denied.w - 1)
      ∧ t.out = s.out ++ [.keyBus 1] ∧ s.regsBut t [Reg.obClrStat.addr []] ∧ s.only t [.regs, .out])
    ∧ (s.obs.zeroing = none → exec .clearZeroingDone s = .next s)
    ∧ (s.obs.zeroing ≠ none → ∃ t, exec .clearZeroingDone s = .next t ∧ t.obs = { s.obs with zeroing := none }
      ∧ t.fget F.obInt_clr_done = 1 ∧ s.regsBut t [Reg.obInt.addr []] ∧ s.only t [.regs, .obs]))

/-- R493 to R495: a count is set by its write, all of them are set to 0 at once, a configuration with an event or a place that
does not exist is ignored, and a count that passes its 48 bits keeps the remainder and sets its overflow bit and the interrupt.
R493, R494: an event that occurs n times at one of its places adds n to a counter that selects it there or over all its group,
and leaves a counter that does not select it. R496, R497: with publication off nothing happens; a block outside a client group
of the tenant is skipped and OB_INT.pub_err set; otherwise the block carries the next sequence number, and the words of the
block are header, counters, overflow words and trailer. -/
def Obligations.CountersAreSet : Prop :=
  (∀ (s : State) (i : Nat), i < 256 → s.cut = false →
    (∀ val, ∃ t, exec (.pmcWrite i val) s = .next t ∧ t.fget F.obPmc_count [i] = val.toNat % 2 ^ 48
      ∧ s.regsBut t [Reg.obPmc.addr [i]] ∧ s.only t [.regs])
    ∧ (∃ t, exec .pmcClearAll s = .next t ∧ t.fget F.obPmc_count [i] = 0
      ∧ s.regsBut t ((List.range 256).map fun k => Reg.obPmc.addr [k]) ∧ s.only t [.regs])
    ∧ (∀ val : Word, eventOk (bits val.toNat 4 12) (bits val.toNat 16 12) = true → ∃ t, exec (.pmcConfig i val) s = .next t
      ∧ t.fget F.obPmcCfg_event [i] = bits val.toNat 4 12 ∧ t.fget F.obPmcCfg_inst [i] = bits val.toNat 16 12
      ∧ t.fget F.obPmcCfg_en [i] = bits val.toNat 0 1 ∧ t.fget F.obPmcCfg_all [i] = bits val.toNat 1 1
      ∧ s.regsBut t [Reg.obPmcCfg.addr [i]] ∧ s.only t [.regs])
    ∧ (∀ val : Word, eventOk (bits val.toNat 4 12) (bits val.toNat 16 12) = false → exec (.pmcConfig i val) s = .next s)
    ∧ (∀ k, s.fget F.obPmcCtl_en = 1 → s.fget F.obPmcCfg_en [i] = 1 → 2 ^ 48 ≤ s.fget F.obPmc_count [i] + k →
      ∃ t, exec (.pmcWrap i k) s = .next t ∧ t.fget F.obPmc_count [i] = (s.fget F.obPmc_count [i] + k) % 2 ^ 48
        ∧ (t.rget .obPmcOvf [i / 64]).getLsbD (i % 64) = true
        ∧ (∀ b < 64, b ≠ i % 64 → (t.rget .obPmcOvf [i / 64]).getLsbD b = (s.rget .obPmcOvf [i / 64]).getLsbD b)
        ∧ t.fget F.obInt_pmc_ovf = 1
        ∧ s.regsBut t [Reg.obPmc.addr [i], Reg.obPmcOvf.addr [i / 64], Reg.obInt.addr []] ∧ s.only t [.regs])
    ∧ (∀ k, s.fget F.obPmcCtl_en ≠ 1 ∨ s.fget F.obPmcCfg_en [i] ≠ 1 ∨ s.fget F.obPmc_count [i] + k < 2 ^ 48 →
      exec (.pmcWrap i k) s = .next s))
  ∧ (∀ (s : State) (code place n i : Nat), i < 256 → s.fget F.obPmcCtl_en = 1 →
    (s.fget F.obPmcCfg_en [i] = 1 → s.fget F.obPmcCfg_event [i] = code →
      s.fget F.obPmcCfg_all [i] = 1 ∨ s.fget F.obPmcCfg_inst [i] = place →
      (s.ev code place n).fget F.obPmc_count [i] = (s.fget F.obPmc_count [i] + n) % 2 ^ 48)
    ∧ (s.fget F.obPmcCfg_en [i] ≠ 1 ∨ s.fget F.obPmcCfg_event [i] ≠ code
        ∨ (s.fget F.obPmcCfg_all [i] ≠ 1 ∧ s.fget F.obPmcCfg_inst [i] ≠ place) →
      (s.ev code place n).fget F.obPmc_count [i] = s.fget F.obPmc_count [i]))
  ∧ (∀ s : State,
    (s.fget F.obPubCfg_en = 0 → exec .publication s = .next s)
    ∧ (s.fget F.obPubCfg_en = 1 → s.memRegion (s.fget F.obPubCfg_tenant) 4096 (s.fget F.obPubAddr_addr * 64) 2240 ≠ none →
      ∃ t, exec .publication s = .next t ∧ t.fget F.obInt_pub_err = 1 ∧ s.regsBut t [Reg.obInt.addr []] ∧ s.only t [.regs])
    ∧ (s.fget F.obPubCfg_en = 1 → s.memRegion (s.fget F.obPubCfg_tenant) 4096 (s.fget F.obPubAddr_addr * 64) 2240 = none →
      ∃ t, exec .publication s = .next t
        ∧ t.fget F.obPubCfg_seq = (s.fget F.obPubCfg_seq + 1) % 2 ^ F.obPubCfg_seq.w)
    ∧ ∀ q, (s.pubWords q).length = 280 ∧ (s.pubWords q)[0]? = some (q % 2 ^ 32) ∧ (s.pubWords q)[1]? = some s.fclk
      ∧ (∀ i < 256, (s.pubWords q)[8 + i]? = some (if s.userEn i = true then s.fget F.obPmc_count [i] else 0))
      ∧ (∀ w < 4, (s.pubWords q)[264 + w]? = some ((s.rget .obPmcOvf [w]) &&& (s.rget .obUserEn [w])).toNat)
      ∧ (s.pubWords q)[272]? = some (q % 2 ^ 32))

/-- R500: a snapshot copies the live values of every monitor to its registers at one moment; with clr they start afresh, without
it they go on. A later sample leaves the registers as they are. R501, R502: a sample of a level monitor: minimum, maximum, last
value and count; when it reaches the threshold and the sample before was below it, crossings increases and OB_INT.level is set;
with log a LEVEL record is written, at most one in a second. R499: a sample of a latency monitor: bin, minimum, maximum, count
and sum. -/
def Obligations.MonitorSnapshots : Prop :=
  (∀ (s : State) (clr : Bool), s.cut = false → ∃ t, exec (.monSnap clr) s = .next t
    ∧ (∀ m < 90, t.rget .obLmonMm [m] = pack2 (tget LMon.init s.obs.lmon m).min (tget LMon.init s.obs.lmon m).max
        ∧ t.rget .obLmonCnt [m] = BitVec.ofNat 64 (tget LMon.init s.obs.lmon m).samples
        ∧ t.rget .obLmonSum [m] = BitVec.ofNat 64 (tget LMon.init s.obs.lmon m).sum
        ∧ ∀ b < 32, t.rget .obLmonHist [m, b] = BitVec.ofNat 64 (tget 0 (tget LMon.init s.obs.lmon m).bins b))
    ∧ (∀ v < 32, t.rget .obVmonMm [v] = pack2 (tget VMon.init s.obs.vmon v).min (tget VMon.init s.obs.vmon v).max
        ∧ t.rget .obVmonLast [v] = BitVec.ofNat 64 (tget VMon.init s.obs.vmon v).last
        ∧ t.rget .obVmonSum [v] = BitVec.ofNat 64 (tget VMon.init s.obs.vmon v).sum
        ∧ t.rget .obVmonCnt [v] = BitVec.ofNat 64 (tget VMon.init s.obs.vmon v).samples
        ∧ t.fget F.obVmonThr_crossings [v] = (tget VMon.init s.obs.vmon v).crossings % 2 ^ F.obVmonThr_crossings.w
        ∧ t.fget F.obVmonThr_hi [v] = s.fget F.obVmonThr_hi [v])
    ∧ (clr = false → t.obs = s.obs)
    ∧ (clr = true → (∀ m, tget LMon.init t.obs.lmon m = LMon.init)
        ∧ ∀ v, tget VMon.init t.obs.vmon v = { VMon.init with logged := (tget VMon.init s.obs.vmon v).logged })
    ∧ s.only t [.regs, .obs]
    ∧ ∀ v < 32, ∀ u, exec (.levelSample v) s = .next u → s.regsBut u [Reg.obInt.addr [], Reg.obEvrStat.addr []])
  ∧ (∀ (s : State) (v : Nat) (x : Int), v < 32 → s.fget F.obVmonCfg_en [v] = 1 →
    s.levelOfSrc (s.fget F.obVmonCfg_src [v]) (s.fget F.obVmonCfg_inst [v]) = some x →
    let l := tget VMon.init s.obs.vmon v
    let hi := sInt 32 (s.fget F.obVmonThr_hi [v])
    let crossed := hi ≤ x ∧ l.samples ≠ 0 ∧ sInt 32 l.last < hi
    let told := s.fget F.obVmonCfg_log [v] = 1 ∧ ∀ at', l.logged = some at' → at' + 1000000 * tickUs ≤ s.clk.now
    ∃ t, exec (.levelSample v) s = .next t
      ∧ (let n := tget VMon.init t.obs.vmon v
         n.last = ofInt 32 x ∧ n.min = ofInt 32 (min (sInt 32 l.min) x) ∧ n.max = ofInt 32 (max (sInt 32 l.max) x)
         ∧ n.samples = min (l.samples + 1) (2 ^ 48 - 1) ∧ n.sum = sumSat l.sum x
         ∧ (crossed → n.crossings = min (l.crossings + 1) (2 ^ 32 - 1)) ∧ (¬ crossed → n.crossings = min l.crossings (2 ^ 32 - 1))
         ∧ (crossed ∧ told → n.logged = some s.clk.now) ∧ (¬ (crossed ∧ told) → n.logged = l.logged))
      ∧ (∀ w, w ≠ v → tget VMon.init t.obs.vmon w = tget VMon.init s.obs.vmon w)
      ∧ (crossed → t.fget F.obInt_level = 1) ∧ (¬ crossed → t.regs = s.regs)
      ∧ (crossed ∧ told → t.obs.queue = (s.log .level v 0 (ofInt 32 x) (s.fget F.obVmonThr_hi [v])).obs.queue
          ∧ t.obs.tail = (s.log .level v 0 (ofInt 32 x) (s.fget F.obVmonThr_hi [v])).obs.tail)
      ∧ (¬ (crossed ∧ told) → t.obs.queue = s.obs.queue ∧ t.obs.tail = s.obs.tail)
      ∧ s.only t [.regs, .obs])
  ∧ (∀ (m : LMon) (x : Nat), m.samples < 2 ^ 48 - 1 →
    let n := m.take x
    let v := min x (2 ^ 32 - 1)
    n.min = min m.min v ∧ n.max = max m.max v ∧ n.samples = m.samples + 1 ∧ n.sum = min (m.sum + x) (2 ^ 64 - 1)
    ∧ ∀ b < 32, (b = 0 ∧ x < 2) ∨ (0 < b ∧ b < 31 ∧ 2 ^ b ≤ x ∧ x < 2 ^ (b + 1)) ∨ (b = 31 ∧ 2 ^ 31 ≤ x) →
        tget 0 n.bins b = min (tget 0 m.bins b + 1) (2 ^ 32 - 1) ∧ ∀ c, c ≠ b → tget 0 n.bins c = tget 0 m.bins c)

/-! ## Heat, power, supplies and bring-up -/

/-- R413, R415: after a conversion a sensor in service shows its reading; the third period without one, a jump above 2 °C or a
reading outside the range makes it fail, with the reason in its state. A failed sensor is not read again. Its order of the last
two checks is the model's. R413, R417 to R419: a zone whose temperature reaches the entry threshold of a level above its own
comes to the highest such level, and its stack's column cap to the larger of the level's demand and the stack's; it does not
fall. With all sensors failed it is forced to level 2 at least. -/
def Obligations.SensorsConvert : Prop :=
  (∀ (s : State) (rs : List (Option Int)), rs.length = 64 → s.supply.dip = false → s.supply.vaon = true →
    ∃ t, exec (.sensorConversion rs) s = .next t ∧ t.mem = s.mem ∧ t.nextId = s.nextId
      ∧ ∀ k < 64,
        let r := (rs[k]?).getD none
        let n := tget 0 s.therm.misses k + 1
        (s.fget F.tmSens_state [k] ≠ 0 → t.rget .tmSens [k] = s.rget .tmSens [k])
        ∧ (s.fget F.tmSens_state [k] = 0 →
          (r = none → t.fget F.tmSens_reading [k] = s.fget F.tmSens_reading [k]
            ∧ t.fget F.tmSens_state [k] = (if n < 3 then 0 else 1))
          ∧ ∀ x, r = some x → t.fget F.tmSens_reading [k] = ofInt 11 x
            ∧ t.fget F.tmSens_state [k] = (if tget false s.therm.seen k = true ∧ 8 < (x - s.reading k).natAbs then 2
                else if x < -160 ∨ 600 < x then 3 else 0)))
  ∧ (∀ (s : State) (z : Nat) (x : Int), z < 8 → s.zoneNow z = some x → s.fget F.tmZone_fail [z] ≠ 255 →
    let u := s.zoneStep z
    let hot := if s.enterAt 3 ≤ x then 3 else if s.enterAt 2 ≤ x then 2 else if s.enterAt 1 ≤ x then 1 else 0
    u.fget F.tmZone_temp [z] = ofInt 11 x ∧ u.fget F.tmZone_level [z] = max (s.fget F.tmZone_level [z]) hot
    ∧ (s.fget F.tmZone_level [z] < hot →
        u.fget F.scSchedCfg_cmd_cap [z] = max (hot - 1) (s.stackDemand z) % 4 ∧ u.fget F.tmInt_throttle = 1)
    ∧ (hot ≤ s.fget F.tmZone_level [z] → u.fget F.scSchedCfg_cmd_cap [z] = s.fget F.scSchedCfg_cmd_cap [z])
    ∧ ∀ y, y ≠ z → u.rget .tmZone [y] = s.rget .tmZone [y])

/-- R415, R417: after the dwell time a level falls by one step below its leave threshold; a pending acknowledgement, a forced
level up to 2 or a higher temperature keeps it. The acknowledgement clears the zones that it names. R420, R286, R237: a reading
of a serving stack's temperature is shown, sets hot above hot_on_c and clears it at or below hot_off_c, and sets the stack's
demand; without a reading in its time the stack counts as hot and asks for a cap of 1 at least. R239: the reading takes the grant of the
stack's maintenance port and gives it back; while another requester holds the port it waits. -/
def Obligations.LevelsFall : Prop :=
  (∀ (s : State) (z : Nat), z < 8 →
    (s.cut = false → 0 < s.fget F.tmZone_level [z] → s.fget F.tmZone_ack_pend [z] = 0 →
      (s.fget F.tmZone_forced [z] = 1 → 2 < s.fget F.tmZone_level [z]) → s.zoneTemp z < s.leaveAt (s.fget F.tmZone_level [z]) →
      ∃ t, exec (.throttleDwell z) s = .next t ∧ t.fget F.tmZone_level [z] = s.fget F.tmZone_level [z] - 1
        ∧ t.fget F.scSchedCfg_cmd_cap [z] = max (s.fget F.tmZone_level [z] - 2) (s.stackDemand z) % 4
        ∧ t.fget F.tmInt_throttle = 1
        ∧ t.obs = (s.log .throttle z (s.fget F.tmZone_level [z] - 1) (s.fget F.tmZone_temp [z])).obs
        ∧ s.regsBut t [Reg.tmZone.addr [z], Reg.scSchedCfg.addr [z], Reg.tmInt.addr [], Reg.tmStat.addr [], Reg.obEvrStat.addr []]
        ∧ s.only t [.regs, .obs])
    ∧ (s.cut = true ∨ s.fget F.tmZone_level [z] = 0 ∨ s.fget F.tmZone_ack_pend [z] = 1
        ∨ (s.fget F.tmZone_forced [z] = 1 ∧ s.fget F.tmZone_level [z] ≤ 2) ∨ s.leaveAt (s.fget F.tmZone_level [z]) ≤ s.zoneTemp z →
      exec (.throttleDwell z) s = .next s)
    ∧ ∀ zones, s.cut = false → ∃ t, exec (.failAck zones) s = .next t
      ∧ t.fget F.tmZone_ack_pend [z] = (if bit zones z = true then 0 else s.fget F.tmZone_ack_pend [z])
      ∧ t.fget F.tmZone_level [z] = s.fget F.tmZone_level [z]
      ∧ s.regsBut t ((List.range 8).map fun y => Reg.tmZone.addr [y]) ∧ s.only t [.regs])
  ∧ (∀ (s : State) (k : Nat), k < 8 → s.cut = false →
    (∀ temp : Int, s.stackUp k = true → (s.askPort k 0).owns k 0 = true → ∃ t, exec (.stackTempRead k temp) s = .next t
      ∧ t.fget F.scLinkStat_temp_c [k] = ofInt 8 temp
      ∧ t.fget F.scRefCfg_hot [k] = (if (s.fget F.scRefCfg_hot_on_c [k] : Int) < temp then 1
          else if temp ≤ (s.fget F.scRefCfg_hot_off_c [k] : Int) then 0 else s.fget F.scRefCfg_hot [k])
      ∧ t.stackDemand k = s.demandAt k temp
      ∧ (s.demandAt k temp ≠ s.stackDemand k →
          t.fget F.scSchedCfg_cmd_cap [k] = max (s.fget F.tmZone_level [k] - 1) (s.demandAt k temp) % 4
          ∧ t.fget F.tmInt_stack_cap = 1)
      ∧ (s.fget F.scLinkCtl_periodic_en [k] = 1 → ∀ c < 32, bit (t.linkOf k).due c = (bit (s.linkOf k).due c
          || decide (s.fget F.scTrainCfg_drift_c [k] < (temp - tget 0 (s.linkOf k).passTemp c).natAbs)))
      ∧ (∀ j, j ≠ k → t.linkOf j = s.linkOf j ∧ t.stackDemand j = s.stackDemand j ∧ t.arb j = (s.askPort k 0).arb j)
      ∧ (t.arb k).owner ≠ some 0 ∧ s.only t [.regs, .links, .obs, .arbs, .therm])
    ∧ (∀ temp : Int, s.stackUp k = true → (s.askPort k 0).owns k 0 = false →
        exec (.stackTempRead k temp) s = .next (s.askPort k 0))
    ∧ (∀ temp, s.stackUp k = false → exec (.stackTempRead k temp) s = .next s)
    ∧ ∃ t, exec (.stackTempStale k) s = .next t ∧ t.fget F.scRefCfg_hot [k] = 1
      ∧ t.fget F.scRefCfg_trefi_pb [k] = (if s.fget F.glOpStat_op = 0 then 33 else 25)
      ∧ t.stackDemand k = max (tget 0 s.therm.demand k) 1 ∧ s.only t [.regs, .therm])

/-- R424: the power window: an estimate above the envelope opens it; above the grant in an open window, or above the envelope
with it spent, one more cycle of twelve is skipped; the window's end or the loss of its grant spends it; skips end step by step. What the register shows of an
estimate that its field does not hold, or of a grant above the 190 W of the sequencer, is open (model's choice, log entry 39). -/
def Obligations.PowerWindow : Prop :=
  ∀ s : State, s.cut = false →
    (∀ w, ∃ t, exec (.powerEstimate w) s = .next t ∧ (w < 256 → t.fget F.tmPwrStat_est_w = w ∧ t.free = s.free)
      ∧ (let env := s.fget F.tmPwrCfg_env_w
         let up := (s.fget F.tmPwrStat_win = 1 ∧ s.fget F.tmPwrStat_grant_w < w) ∨ (2 ≤ s.fget F.tmPwrStat_win ∧ env < w)
         (s.fget F.tmPwrStat_win = 0 → t.fget F.tmPwrStat_win = (if env < w then 1 else 0)
           ∧ t.fget F.tmPwrStat_windows = min (s.fget F.tmPwrStat_windows + (if env < w then 1 else 0)) 65535)
         ∧ (s.fget F.tmPwrStat_win ≠ 0 → t.fget F.tmPwrStat_win = s.fget F.tmPwrStat_win)
         ∧ (up → t.fget F.tmPwrStat_skip = min (s.fget F.tmPwrStat_skip + 1) 12 ∧ t.fget F.tmStat_pwr_skip = 1)
         ∧ (¬ up → t.fget F.tmPwrStat_skip = s.fget F.tmPwrStat_skip))
      ∧ t.fget F.tmPwrStat_grant_w = s.fget F.tmPwrStat_grant_w
      ∧ s.regsBut t [Reg.tmPwrStat.addr [], Reg.tmStat.addr []] ∧ s.only t [.regs, .free])
    ∧ (∀ w, 190 < w → ∃ t, exec (.powerGrant w) s = .next t ∧ t.fget F.tmPwrStat_win = s.fget F.tmPwrStat_win
      ∧ t.fget F.tmPwrStat_est_w = s.fget F.tmPwrStat_est_w ∧ s.regsBut t [Reg.tmPwrStat.addr []] ∧ s.only t [.regs, .free])
    ∧ (∀ w ≤ 190, ∃ t, exec (.powerGrant w) s = .next t ∧ t.fget F.tmPwrStat_grant_w = w
      ∧ t.fget F.tmPwrStat_win = s.fget F.tmPwrStat_win ∧ s.regsBut t [Reg.tmPwrStat.addr []] ∧ s.only t [.regs])
    ∧ (∃ t, exec .powerGrantWithdraw s = .next t ∧ t.fget F.tmPwrStat_grant_w = 0
      ∧ (s.fget F.tmPwrStat_win = 1 → t.fget F.tmPwrStat_win = 2 ∧ t.fget F.tmInt_pwr_win = 1)
      ∧ (s.fget F.tmPwrStat_win ≠ 1 → t.fget F.tmPwrStat_win = s.fget F.tmPwrStat_win)
      ∧ s.regsBut t [Reg.tmPwrStat.addr [], Reg.tmInt.addr []] ∧ s.only t [.regs])
    ∧ (s.fget F.tmPwrStat_win = 1 → ∃ t, exec .powerWindowExpire s = .next t ∧ t.fget F.tmPwrStat_win = 2
      ∧ t.fget F.tmInt_pwr_win = 1 ∧ s.regsBut t [Reg.tmPwrStat.addr [], Reg.tmInt.addr []] ∧ s.only t [.regs])
    ∧ (s.fget F.tmPwrStat_win ≠ 1 → exec .powerWindowExpire s = .next s)
    ∧ (s.fget F.tmPwrStat_win = 2 → s.fget F.tmPwrStat_est_w + s.fget F.tmPwrCfg_relax_w ≤ s.fget F.tmPwrCfg_env_w →
      ∃ t, exec .powerSkipRelax s = .next t ∧ t.fget F.tmPwrStat_skip = s.fget F.tmPwrStat_skip - 1
        ∧ t.fget F.tmStat_pwr_skip = (if s.fget F.tmPwrStat_skip ≤ 1 then 0 else 1)
        ∧ s.regsBut t [Reg.tmPwrStat.addr [], Reg.tmStat.addr []] ∧ s.only t [.regs])
    ∧ (s.fget F.tmPwrStat_win = 2 → s.fget F.tmPwrStat_est_w ≤ s.fget F.tmPwrCfg_env_w →
      ∃ t, exec .powerWindowRearm s = .next t ∧ t.fget F.tmPwrStat_win = 0 ∧ t.fget F.tmPwrStat_skip = 0
        ∧ t.fget F.tmStat_pwr_skip = 0 ∧ s.regsBut t [Reg.tmPwrStat.addr [], Reg.tmStat.addr []] ∧ s.only t [.regs])
    ∧ (s.fget F.tmPwrStat_win ≠ 2 → exec .powerSkipRelax s = .next s ∧ exec .powerWindowRearm s = .next s)

/-- R427: a fall of VDD cuts the main domains, counts a dip and leaves a POWER_FAIL record in the ledger; VAON is lost only
while VDD is away; a return of VDD during a shutdown waits for the thermal restart. R414, R421, R422: a comparator that trips
cuts the main domains: the trip signal is shown, every key slot is empty, no packet is in flight, the SHUTDOWN record names the
stack and stands in the ledger, the cause is kept, and the stacks' contents are untouched. The reading in the record is a free
value. R416: a calibration brings the hairspring loop to its corrected trim, a free value, which its bin learns, and shows the
measured error: (count − 25,000) × 40 ppm, a free value where 16 bits do not hold it. -/
def Obligations.SuppliesFall : Prop :=
  (∀ s : State,
    (s.cut = false → trising s.regs = true → ∃ t, exec .vddFall s = .next t
      ∧ t.supply = { s.supply with dip := true, again := false } ∧ t.keys = [] ∧ t.packets = [] ∧ t.mem = s.mem ∧ t.streams = s.streams
      ∧ t.fget F.tmRstCause_dips = min (s.fget F.tmRstCause_dips + 1) 65535 ∧ t.obs.head = s.obs.head + 1
      ∧ (∀ w < 4, tget 0 t.nvm (ledgerWord (s.obs.head % 8192) w) = BitVec.ofNat 64
          (((Rec.mk 0x44 0 0 0 0 s.obs.hours s.obs.pcyc).words s.obs.head)[w]?.getD 0)))
    ∧ (s.supply.dip = true ∨ s.supply.vaon = false → exec .vddFall s = .next s)
    ∧ (s.supply.dip = true → exec .vaonLoss s = .next { s with supply := { s.supply with vaon := false } })
    ∧ (s.supply.dip = false → exec .vaonLoss s = .next s)
    ∧ ∀ bu : BringUp, bu.wf = true →
      (s.supply.dip = true → s.supply.vaon = true → s.supply.shut = true →
        exec (.vddRestore bu) s = .next { s with supply := { s.supply with dip := false, again := true } })
      ∧ (s.supply.dip = false ∨ s.supply.vaon = false → exec (.vddRestore bu) s = .next s))
  ∧ (∀ (s : State) (k : Nat), k < 8 → s.cut = false → trising s.regs = true →
    ∃ t, exec (.comparatorTrip k) s = .next t ∧ t.supply = { s.supply with shut := true } ∧ t.out.getLast? = some .trip
      ∧ t.keys = [] ∧ t.packets = [] ∧ t.fwq = [] ∧ t.cores = [] ∧ t.mem = s.mem ∧ t.descs = s.descs ∧ t.streams = s.streams
      ∧ t.fget F.tmRstCause_trip_src = 64 + k
      ∧ t.fget F.tmRstCause_shutdowns = min (s.fget F.tmRstCause_shutdowns + 1) 65535
      ∧ t.obs.head = s.obs.head + 1
      ∧ (∀ w < 4, tget 0 t.nvm (ledgerWord (s.obs.head % 8192) w) = BitVec.ofNat 64
          (((Rec.mk 0x43 (64 + k) 0 (Config.freeNat s.free % 2 ^ 32) 0 s.obs.hours s.obs.pcyc).words s.obs.head)[w]?.getD 0))
      ∧ (∀ a, (∀ w < 4, a ≠ ledgerWord (s.obs.head % 8192) w) → tget 0 t.nvm a = tget 0 s.nvm a))
  ∧ (∀ (s : State) (count : Nat), s.cut = false →
    ∃ t, exec (.hairspringCalibrate count) s = .next t ∧ t.fget F.tmAon_mode = 0
      ∧ t.therm.trim = some (Config.freeNat (s.free + 1) % 256) ∧ t.therm.bin = s.binNow
      ∧ tfind t.trims s.binNow = some (Config.freeNat (s.free + 1) % 256)
      ∧ (∀ b, b ≠ s.binNow → tfind t.trims b = tfind s.trims b)
      ∧ (∀ e : Int, e = ((count : Int) - 25000) * 40 → -32768 ≤ e → e ≤ 32767 → t.fget F.tmAon_err_ppm = ofInt 16 e)
      ∧ s.regsBut t [Reg.tmAon.addr []] ∧ s.only t [.regs, .free, .therm, .trims])

/-- R429, R520: a warm reset by the hub or by BT_CTL, a restart after a shutdown once every valid sensor is below 90 °C, and a
restart after VDD comes back: each leaves its cause in TM_RST_CAUSE and ends READY, waiting for slot 63, or scrapped. R517,
R519, R470, R484: a cold reset starts the device afresh: one more power cycle, the supplies as they come up, the hub's state
read, no stack holds contents, nothing in flight; it ends waiting for slot 63, or as a scrapped device. R518: with slot 63
loaded and stack 0 or 4 trained the system area is set up and the device is READY; without them it waits, and after a second
without the key BT_ERR.no_key is set. -/
def Obligations.WarmResets : Prop :=
  (∀ (s : State) (bu : BringUp), bu.wf = true →
    (∀ c, c ∈ [Instr.hubWarmReset bu, .warmResetRequest 0 bu, .warmResetRequest 1 bu] →
      (s.cut = false → (c = .warmResetRequest 1 bu → s.mgmtWaits = false) → ∃ t, exec c s = .next t ∧ s.freshAfter t bu ∧ t.supply = s.supply ∧ t.fget F.tmRstCause_last = 1
        ∧ t.fget F.btStat_warm = 1 ∧ t.readyOrWaiting)
      ∧ (s.cut = true → exec c s = .next s))
    ∧ (s.supply.shut = true → s.supply.dip = false → s.supply.vaon = true →
        ((∀ k < 64, s.sensorOk k = true → s.reading k < 360) → ∃ t, exec (.thermalRestart bu) s = .next t ∧ s.freshAfter t bu
          ∧ t.supply = ⟨false, false, false, true⟩ ∧ t.fget F.tmRstCause_last = (if s.supply.again = true then 3 else 2)
          ∧ t.fget F.btStat_warm = 1 ∧ t.readyOrWaiting)
        ∧ (∀ k < 64, s.sensorOk k = true → 360 ≤ s.reading k → exec (.thermalRestart bu) s = .next s))
    ∧ (s.supply.shut = false → exec (.thermalRestart bu) s = .next s)
    ∧ (s.supply.dip = true → s.supply.vaon = true → s.supply.shut = false → ∃ t, exec (.vddRestore bu) s = .next t
      ∧ s.freshAfter t bu ∧ t.supply = ⟨false, false, false, true⟩ ∧ t.fget F.tmRstCause_last = 3 ∧ t.fget F.btStat_warm = 1
      ∧ t.readyOrWaiting))
  ∧ (∀ (s : State) (bu : BringUp), bu.wf = true →
    ∃ t, exec (.coldReset bu) s = .next t ∧ s.freshAfter t bu ∧ t.supply = ⟨false, false, false, true⟩
      ∧ t.fget F.btStat_phase = (if t.scrapped = true then 7 else 5) ∧ t.fget F.tmRstCause_last = 0 ∧ t.fget F.btStat_warm = 0
      ∧ (s.sec.intent = false → t.obs.pcyc = (s.obs.pcyc + 1) % 2 ^ 24 ∧ t.obs.hours = s.obs.hours ∧ t.obs.head = s.obs.head
          ∧ t.obs.base = s.obs.base ∧ t.mem = [] ∧ t.dir = [] ∧ t.streams = []))
  ∧ (∀ s : State, s.cut = false →
    (s.fget F.btStat_phase = 5 → tfind s.keys 63 ≠ none → s.scrapped = false →
      (bit s.boot.trained 0 = true ∨ bit s.boot.trained 4 = true → ∃ t, exec .sysinit s = .next t ∧ t.fget F.btStat_phase = 6
        ∧ t.fget F.cpFwStat_state = 1 ∧ t.boot.trained = 0 ∧ t.boot.kept = 0 ∧ t.boot.dead = [] ∧ t.keys = s.keys)
      ∧ (bit s.boot.trained 0 = false → bit s.boot.trained 4 = false → ∃ t, exec .sysinit s = .next t
        ∧ t.fget F.btStat_phase = 5 ∧ t.boot = s.boot))
    ∧ (s.fget F.btStat_phase ≠ 5 ∨ tfind s.keys 63 = none ∨ s.scrapped = true → exec .sysinit s = .next s)
    ∧ (tfind s.keys 63 = none → s.fget F.btStat_phase < 6 → ∃ t, exec .noKeyTimeout s = .next t ∧ t.fget F.btErr_no_key = 1
      ∧ s.regsBut t [Reg.btErr.addr []] ∧ s.only t [.regs])
    ∧ (tfind s.keys 63 ≠ none ∨ 6 ≤ s.fget F.btStat_phase → exec .noKeyTimeout s = .next s))

/-! ## Stored sectors and the pseudo-channel controllers -/

/-- R306, R310, R311: a sector written at a coordinate reads clean there with its bytes; one written as poison reads as poison.
R307: 36 symbols written to a sector read back, and no other sector changes. -/
def Obligations.SectorsDecode : Prop :=
  (∀ (a : Nat) (d : SectorData),
    (encodeSector a false d).length = 36 ∧ sectorOf (encodeSector a false d) = d
    ∧ decodeSector a (encodeSector a false d) = (.clean, encodeSector a false d)
    ∧ (decodeSector a (encodeSector a true d)).1 = .poison)
  ∧ (∀ (s : State) (pc bank row col : Nat) (l : List Byte), bank < 64 → row < 24576 → col < 32 → l.length = 36 →
    (s.putRaw pc bank row col l).rawSector pc bank row col = l
    ∧ (∀ pc' bank' row' col', bank' < 64 → row' < 24576 → col' < 32 → (pc', bank', row', col') ≠ (pc, bank, row, col) →
        (s.putRaw pc bank row col l).rawSector pc' bank' row' col' = s.rawSector pc' bank' row' col')
    ∧ (s.putRaw pc bank row col l).epochs = s.epochs)

/-- R311, R312: any one stored symbol in error is corrected, and a poisoned sector with one symbol in error stays poison. -/
def Obligations.OneSymbolIsCorrected : Prop :=
  ∀ (a : Nat) (d : SectorData) (n : Nat) (e : Byte), n < 36 → e ≠ 0 →
    (let w := encodeSector a false d
     decodeSector a (w.set n ((w[n]?).getD 0 ^^^ e)) = (.ce n, w))
    ∧ (let w := encodeSector a true d
       (decodeSector a (w.set n ((w[n]?).getD 0 ^^^ e))).1 = .poison)

/-- R47: the new word of an ATOMIC, by its operation; the rest of the granule stays. -/
def Obligations.AtomicResults : Prop :=
  ∀ (o : AtomOp) (old : Granule), o.aop ≤ 4 → o.off < 64 → o.off % (if o.asz = true then 8 else 4) = 0 →
    let w := if o.asz = true then 64 else 32
    let x := bits old.toNat (8 * o.off) w
    let y := o.operand % 2 ^ w
    bits (atomResult o old).toNat (8 * o.off) w
      = (if o.aop = 0 then (x + y) % 2 ^ w else if o.aop = 1 then (if sInt w x ≤ sInt w y then x else y)
         else if o.aop = 2 then (if sInt w x ≤ sInt w y then y else x) else if o.aop = 3 then min x y else max x y)
    ∧ ∀ b, b < 8 * o.off ∨ 8 * o.off + w ≤ b → (atomResult o old).getLsbD b = old.getLsbD b

/-- R271, R272, R318: the granule that comes first by urgency and age enters the queue that its request needs, with the next
position, and that of no other controller; without room it waits. R60: write-queue entries that fetch READs have reserved are no
room for others. R320: a write of a granule that gathers already joins its merge entry. An ATOMIC of a mirrored group is
performed at one copy and takes a write-queue entry at the other copy too (R262, R316; how it does so is the model's choice, log
entry 29). -/
def Obligations.GranulesAreAdmitted : Prop :=
  (∀ (s : State) (pc cls : Nat), cls < 33 → (s.wqFree pc cls = true ↔ (s.pcc pc).wq.length + s.wqReserved pc < 32))
  ∧ ∀ (s : State) (pc : Nat) (w : Waiting) (rest : List Waiting), pc < 512 → sortWaiting (s.waitingFor pc) = w :: rest →
    s.pcDown w.place.pc = none → (∀ k, w.place.key = some k → tfind s.keys k ≠ none ∧ k ∉ s.clearing) → s.link (w.place.pc / 64) = 3 →
    let p := s.pcc w.place.pc
    let src := Src.part w.port w.req.id w.idx
    let d := (w.req.data[w.idx]?).getD 0
    let full := w.req.kind = .write ∨ (w.req.kind = .masked ∧ w.req.mask = 2 ^ 64 - 1)
    let joins := p.mb.find? fun m => m.st = .gather && sameG m.place w.place
    (w.req.kind = .read → p.rqUsed < 64 → ∃ t, exec (.pccAdmit pc) s = .next t
      ∧ (t.pcc w.place.pc).rq = p.rq ++ [⟨p.nextSeq, .read, w.place, src, w.port, w.req.stamp, 3, 0, false, 0, 0, none, s.mclk⟩]
      ∧ (t.pcc w.place.pc).nextSeq = p.nextSeq + 1 ∧ (∀ k, k ≠ w.place.pc → t.pcc k = s.pcc k)
      ∧ s.only t [.regs, .out, .free, .ports, .pccs, .dir])
    ∧ (full → s.wqFree w.place.pc w.port = true → joins = none → ∃ t, exec (.pccAdmit pc) s = .next t
      ∧ (t.pcc w.place.pc).wq
          = p.wq ++ [⟨p.nextSeq, .write, w.place, src, w.port, w.req.stamp, 3, 0, true, s.encGranule w.place d, 0, none, s.mclk⟩]
      ∧ (t.pcc w.place.pc).nextSeq = p.nextSeq + 1 ∧ (∀ k, k ≠ w.place.pc → t.pcc k = s.pcc k))
    ∧ (w.req.kind = .masked → w.req.mask ≠ 2 ^ 64 - 1 → p.mb.length < 8 → joins = none → ∃ t, exec (.pccAdmit pc) s = .next t
      ∧ (t.pcc w.place.pc).mb
          = p.mb ++ [⟨p.nextSeq, w.place, .gather, d, w.req.mask, s.mclk, 0, 0, 0, [src], w.port, w.req.stamp⟩]
      ∧ (t.pcc w.place.pc).nextSeq = p.nextSeq + 1 ∧ (∀ k, k ≠ w.place.pc → t.pcc k = s.pcc k))
    ∧ (∀ m, w.req.kind = .masked → joins = some m → s.gatherOver w.place.pc m = false → m.mask ||| w.req.mask ≠ 2 ^ 64 - 1 →
      ∃ t, exec (.pccAdmit pc) s = .next t
      ∧ (t.pcc w.place.pc).mb = p.mb.map (fun x => if x.seq = m.seq then { m with
          data := gMerge m.data d w.req.mask
          mask := m.mask ||| w.req.mask
          srcs := m.srcs ++ [src] } else x)
      ∧ (t.pcc w.place.pc).wq = p.wq ∧ (∀ k, k ≠ w.place.pc → t.pcc k = s.pcc k))
    ∧ (w.req.kind = .atomic → p.rqUsed < 64 → s.wqFree w.place.pc w.port = true → s.mateOf w.place = none →
      ∃ t, exec (.pccAdmit pc) s = .next t
      ∧ (t.pcc w.place.pc).rq.length = p.rq.length + 1 ∧ (t.pcc w.place.pc).wq.length = p.wq.length + 1
      ∧ (t.pcc w.place.pc).nextSeq = p.nextSeq + 1 ∧ (∀ k, k ≠ w.place.pc → t.pcc k = s.pcc k))
    ∧ (∀ q, w.req.kind = .atomic → p.rqUsed < 64 → s.wqFree w.place.pc w.port = true → s.mateOf w.place = some q →
      q.pc ≠ w.place.pc → s.link (q.pc / 64) = 3 → s.wqFree q.pc w.port = true → ∃ t, exec (.pccAdmit pc) s = .next t
      ∧ (t.pcc w.place.pc).rq.length = p.rq.length + 1 ∧ (t.pcc w.place.pc).wq.length = p.wq.length + 1
      ∧ (t.pcc q.pc).wq.length = (s.pcc q.pc).wq.length + 1 ∧ (t.pcc q.pc).rq = (s.pcc q.pc).rq
      ∧ (∀ k, k ≠ w.place.pc → k ≠ q.pc → t.pcc k = s.pcc k))
    ∧ (w.req.kind = .read → 64 ≤ p.rqUsed → rest = [] → exec (.pccAdmit pc) s = .next s)

/-- R277, R278, R285: the row bus carries next, of the refreshes that may issue and the row misses of all banks, the command that
may issue first, and of two that may issue at once the one of higher urgency. ACT opens the row that a request of the turn
needs, at a tick that the limits of its bank and of the activations before leave; PRE closes the row of a bank that something
else needs; REFpb refreshes a closed bank with a debt and lowers the debt, or takes the held tick, and counts. Other banks keep
their rows. While another command is next, or none, the command does nothing but a turn that is due. R278 to R281: in a READ
turn RD issues a sector whose row is open, the first by time and then by rank: its symbols as the stack holds them now are on
their way; nothing stored changes. R280, R306, R319: in a WRITE turn WR stores the sector of the candidate that comes first, with
check bytes for the place it is written to, or as poison; every other sector of the stacks reads as before. R284, R285: an
escapement tick raises the debt of the next bank, or is held at 8. -/
def Obligations.RowCommands : Prop :=
  (∀ (s : State) (pc : Nat), pc < 512 → s.serving pc = true →
    let u := s.turnStep pc
    (∀ r, u.nextRow pc = some r → r ∈ u.rowCands pc
      ∧ ∀ d ∈ u.rowCands pc, r.at' ≤ d.at' ∧ (d.at' = r.at' → d.urg ≤ r.urg))
    ∧ (∀ c v st τ, u.nextRow pc = some ⟨.act c, v, st, τ⟩ → ∃ t, exec (.act pc) s = .next t ∧ c ∈ u.actCands pc
      ∧ ((u.pcc pc).bank c.place.bank).actOk ≤ τ ∧ u.actAfter pc c.place.bank ≤ τ
      ∧ ((t.pcc pc).bank c.place.bank).row = some c.row
      ∧ (t.pcc pc).acts.head? = some (τ, bankGroup c.place.bank) ∧ t.clk.now = max s.clk.now τ
      ∧ (∀ b, b ≠ c.place.bank → (t.pcc pc).bank b = (s.pcc pc).bank b) ∧ (∀ k, k ≠ pc → t.pcc k = s.pcc k)
      ∧ s.only t [.clk, .regs, .pccs])
    ∧ (∀ b v st τ, u.nextRow pc = some ⟨.pre b, v, st, τ⟩ → ∃ t, exec (.pre pc) s = .next t ∧ b < 64
      ∧ u.preNeeded pc b = some (v, st) ∧ ((u.pcc pc).bank b).preOk ≤ τ
      ∧ ((t.pcc pc).bank b).row = none ∧ τ + u.tim (pc / 64) F.scTim0_trp ≤ ((t.pcc pc).bank b).actOk
      ∧ t.clk.now = max s.clk.now τ
      ∧ (∀ d, d ≠ b → (t.pcc pc).bank d = (s.pcc pc).bank d) ∧ (∀ k, k ≠ pc → t.pcc k = s.pcc k)
      ∧ s.only t [.clk, .regs, .pccs])
    ∧ (∀ b v st τ, u.nextRow pc = some ⟨.ref b, v, st, τ⟩ → ∃ t, exec (.refpb pc) s = .next t ∧ (b, v) ∈ u.refBanks pc
      ∧ ((u.pcc pc).bank b).row = none ∧ 0 < ((u.pcc pc).bank b).debt
      ∧ ((u.pcc pc).bank b).actOk ≤ τ ∧ u.actAfter pc b ≤ τ
      ∧ ((t.pcc pc).bank b).held = false ∧ ((t.pcc pc).bank b).actOk = τ + u.tim (pc / 64) F.scTim1_trfcpb
      ∧ ((t.pcc pc).bank b).debt
          = (if ((u.pcc pc).bank b).held = true then ((u.pcc pc).bank b).debt else ((u.pcc pc).bank b).debt - 1)
      ∧ (t.pcc pc).refIssued = ((s.pcc pc).refIssued + 1) % 2 ^ 32
      ∧ (t.pcc pc).refForced = min ((s.pcc pc).refForced + if ((u.pcc pc).bank b).debt = 8 then 1 else 0) 65535
      ∧ t.clk.now = max s.clk.now τ
      ∧ (∀ d, d ≠ b → (t.pcc pc).bank d = (s.pcc pc).bank d) ∧ (∀ k, k ≠ pc → t.pcc k = s.pcc k) ∧ s.only t [.clk, .regs, .pccs])
    ∧ ((∀ c v st τ, u.nextRow pc ≠ some ⟨.act c, v, st, τ⟩) → exec (.act pc) s = .next u)
    ∧ ((∀ b v st τ, u.nextRow pc ≠ some ⟨.pre b, v, st, τ⟩) → exec (.pre pc) s = .next u)
    ∧ ((∀ b v st τ, u.nextRow pc ≠ some ⟨.ref b, v, st, τ⟩) → exec (.refpb pc) s = .next u))
  ∧ (∀ (s : State) (pc : Nat), pc < 512 → s.serving pc = true →
    let u := s.turnStep pc
    let l := (u.readCands pc).filter (u.pcc pc).isHit
    (∀ c τ, (u.pcc pc).wturn = false → pickCand (u.colTime pc) l = some (c, τ) → ∃ t, exec (.rd pc) s = .next t ∧ c ∈ l
      ∧ τ = u.colTime pc c ∧ (∀ d ∈ l, τ ≤ u.colTime pc d ∧ (u.colTime pc d = τ → c.above d = true))
      ∧ ((u.pcc pc).bank c.place.bank).colOk ≤ τ
      ∧ t.clk.now = max s.clk.now τ
      ∧ (∀ q h, c.key = .rq q h → (t.pcc pc).ret = (s.pcc pc).ret ++ [⟨.ent q, h, s.placeRaw c.place h, c.place, false,
          τ + u.tim (pc / 64) F.scTim0_cl⟩])
      ∧ (∀ q h, c.key = .mb q h → (t.pcc pc).ret = (s.pcc pc).ret ++ [⟨.merge q, h, s.placeRaw c.place h, c.place, false,
          τ + u.tim (pc / 64) F.scTim0_cl⟩])
      ∧ (∀ k, k ≠ pc → t.pcc k = s.pcc k) ∧ s.only t [.clk, .regs, .pccs])
    ∧ ((u.pcc pc).wturn = true ∨ l = [] → exec (.rd pc) s = .next u))
  ∧ (∀ (s : State) (pc : Nat), pc < 512 → s.serving pc = true →
    let u := s.turnStep pc
    let l := (u.writeCands pc).filter (u.pcc pc).isHit
    (∀ c τ, (u.pcc pc).wturn = true → pickCand (u.colTime pc) l = some (c, τ) →
      (∀ q h e, c.key = .wq q h → (u.pcc pc).wq.find? (fun (x : Ent) => x.seq = q && bit x.todo h) = some e →
        e.place.bank < 64 → s.issuedRow e.place.pc e.place.bank e.place.row < 24576 → e.place.col < 16 →
        ∃ t, exec (.wr pc) s = .next t ∧ t.clk.now = max s.clk.now τ
          ∧ t.placeRaw e.place h = encodeSector (s.coordOf e.place h) (bit e.poison h) (gSector e.data h)
          ∧ (∀ pc' b r c', b < 64 → r < 24576 → c' < 32 →
              (pc', b, r, c') ≠ (e.place.pc, e.place.bank, s.issuedRow e.place.pc e.place.bank e.place.row, 2 * e.place.col + h) →
              t.rawSector pc' b r c' = s.rawSector pc' b r c')
          ∧ s.only t [.clk, .regs, .free, .ports, .pccs, .mem, .dir])
      ∧ (∀ q h m, c.key = .mb q h → (u.pcc pc).mb.find? (fun (x : MgEnt) => x.seq = q && x.st = .wb) = some m →
        m.place.bank < 64 → s.issuedRow m.place.pc m.place.bank m.place.row < 24576 → m.place.col < 16 →
        ∃ t, exec (.wr pc) s = .next t ∧ t.clk.now = max s.clk.now τ
          ∧ t.placeRaw m.place h = encodeSector (s.coordOf m.place h) false (s.cipher true m.place h (gSector m.data h))
          ∧ (∀ pc' b r c', b < 64 → r < 24576 → c' < 32 →
              (pc', b, r, c') ≠ (m.place.pc, m.place.bank, s.issuedRow m.place.pc m.place.bank m.place.row, 2 * m.place.col + h) →
              t.rawSector pc' b r c' = s.rawSector pc' b r c')
          ∧ s.only t [.clk, .regs, .free, .ports, .pccs, .mem, .dir]))
    ∧ ((u.pcc pc).wturn = false ∨ l = [] → exec (.wr pc) s = .next u))
  ∧ (∀ (s : State) (pc : Nat), pc < 512 →
    (s.link (pc / 64) = 3 → ∃ t, exec (.escapementTick pc) s = .next t
      ∧ (let b := (s.pcc pc).nextTick
         let x := (s.pcc pc).bank b
         (t.pcc pc).bank b = (if x.debt < 8 then { x with debt := x.debt + 1 } else { x with held := true })
         ∧ (∀ d, d ≠ b → (t.pcc pc).bank d = (s.pcc pc).bank d) ∧ (t.pcc pc).nextTick = (b + 1) % 64)
      ∧ (∀ k, k ≠ pc → t.pcc k = s.pcc k) ∧ s.only t [.pccs])
    ∧ (s.link (pc / 64) ≠ 3 → exec (.escapementTick pc) s = .next s)
    ∧ (s.serving pc = false → ∀ c ∈ [Instr.act pc, .pre pc, .refpb pc, .rd pc, .wr pc], exec c s = .next s))

/-- R311 to R314, R322: the oldest sector is back: one that decodes, or is poison, leaves; a UE waits for its second read, and
nothing is counted yet. A UE that stands without a partner is counted, asks for a row repair, and is written back as poison.
What a stack's own fault stores is the only change of a cell. The leak lowers the bucket. R319, R320: the first gathering entry
that one of the events of R320 ends goes to RMW while a sector is incomplete, else to WB; with none due nothing changes. -/
def Obligations.SectorsReturn : Prop :=
  (∀ (s : State) (pc : Nat) (noise : List (Nat × Byte)), pc < 512 →
    (∀ r rest, (s.pcc pc).ret = r :: rest → r.again = false → r.place.pc = pc →
      let raw := addNoise r.raw noise
      let cls := (decodeSector (s.coordOf r.place r.half) raw).1
      (cls ≠ .ue → ∃ t, exec (.readReturn pc noise false) s = .next t ∧ (t.pcc pc).ret = rest ∧ t.mem = s.mem
        ∧ t.clk.now = max s.clk.now r.due)
      ∧ (cls = .ue → ∃ t, exec (.readReturn pc noise false) s = .next t ∧ t.mem = s.mem ∧ t.clk.now = max s.clk.now r.due
        ∧ (t.pcc pc).ret = { r with raw := raw, again := true, due := r.due + s.dramTicks (pc / 64) } :: rest
        ∧ (t.pcc pc).rq = (s.pcc pc).rq ∧ (t.pcc pc).wq = (s.pcc pc).wq ∧ (∀ k, k ≠ pc → t.pcc k = s.pcc k)
        ∧ t.obs = s.obs ∧ t.ladder = s.ladder)
      ∧ exec (.ueReread pc noise false) s = .next s)
    ∧ (∀ r rest, (s.pcc pc).ret = r :: rest → r.again = true → r.place.pc = pc → r.place.mirror = false →
      (∀ x ∈ (s.pcc pc).rq ++ (s.pcc pc).wq, x.isBack = true → x.seq ≠ r.use.seq) →
      (decodeSector (s.coordOf r.place r.half) (addNoise (s.placeRaw r.place r.half) noise)).1 = .ue →
      exec (.readReturn pc noise false) s = .next s
      ∧ ∃ t, exec (.ueReread pc noise false) s = .next t ∧ (t.pcc pc).ret = rest ∧ t.mem = s.mem
        ∧ t.fget F.pcEccCnt_ue [pc / 64, pc % 64]
            = min (s.fget F.pcEccCnt_ue [pc / 64, pc % 64] + 1) (2 ^ F.pcEccCnt_ue.w - 1)
        ∧ t.fget F.scEccInt_ue [pc / 64] = 1
        ∧ .row pc (bits (s.coordOf r.place r.half) 20 6) (bits (s.coordOf r.place r.half) 5 15) ∈ t.ladder
        ∧ ∃ e ∈ (t.pcc pc).rq ++ (t.pcc pc).wq, e.isBack = true ∧ e.seq = r.use.seq ∧ e.place = r.place
            ∧ e.todo = 1 <<< r.half ∧ e.poison = 1 <<< r.half)
    ∧ ((s.pcc pc).ret = [] → exec (.readReturn pc noise false) s = .next s ∧ exec (.ueReread pc noise false) s = .next s)
    ∧ exec (.ceLeak pc) s = .next (s.setPcc pc { s.pcc pc with bucket := (s.pcc pc).bucket - 1 }))
  ∧ (∀ (s : State) (pc : Nat), pc < 512 →
    let gs := (s.pcc pc).mb.filter fun m => m.st = .gather
    let due := fun (m : MgEnt) => s.releaseDue pc m (minBy (·.seq) gs = some m)
    (∀ m, gs.find? due = some m →
      let inc := (maskTouched m.mask) &&& (3 - maskFull m.mask)
      let put := fun (m' : MgEnt) => { s.pcc pc with mb := (s.pcc pc).mb.map fun x => if x.seq = m.seq then m' else x }
      (inc ≠ 0 → exec (.mergeRelease pc) s = .next (s.setPcc pc (put { m with st := .rmw, todo := inc, wait := 0 })))
      ∧ (inc = 0 → m.toWrite ≠ 0 →
          exec (.mergeRelease pc) s = .next (s.setPcc pc (put { m with st := .wb, todo := m.toWrite, wait := 0 }))))
    ∧ ((∀ m ∈ gs, due m = false) → exec (.mergeRelease pc) s = .next s))

/-! ## The fabric ports and the shaper -/

/-- R39, R41, R44, R48, R51, R536: a request whose data slots have come and that passes every check of its port takes its credits
and waits in the port with the next arrival number; a fenced one is held (R55), and so is one behind a FENCE (R56); any other
waits in its tenant's queue or goes on to the reservation of credits. -/
def Obligations.RequestsEnter : Prop :=
  ∀ (s : State) (n : Nat) (hdr x ext : BitVec 128) (d : DataSlot) (ds sl : List DataSlot) (data : List Granule) (c : Instr)
    (k : ReqKind), n < 24 →
    (c, ext, sl) ∈ [(Instr.read n hdr, 0, []), (.write n hdr ds, 0, ds), (.writeMasked n hdr x d, x, [d]), (.atomic n hdr d, 0, [d]),
      (.apertureWrite n hdr ds, 0, ds)] →
    let h := decodeHdr hdr
    (s.port n).st = .ready → kindOf h.kind = some k → bindSlots h.tag sl h.slots = some data → 1 + b2n h.ext ≤ (s.port n).hdrHeld →
    h.slots ≤ (s.port n).wdatHeld → s.ingressFail n h ext sl = none → (s.wantsMemory n h = true ∨ h.fence = true) →
    (∀ q ∈ (s.port n).reqs, q.id < s.nextId) →
    ∃ t, exec c s = .next t ∧ t.nextId = s.nextId + 1
      ∧ (∃ r ∈ (t.port n).reqs, r.id = s.nextId ∧ r.kind = k ∧ r.tag = h.tag ∧ r.len = h.len ∧ r.addr = h.addr
          ∧ r.tenant = h.tenant ∧ r.fence = h.fence ∧ r.data = data ∧ r.mask = bits ext.toNat 0 64 ∧ r.aop = h.aop ∧ r.asz = h.asz
          ∧ r.fetch = h.fetch ∧ (h.fence = true → r.stage = .fenceHold)
          ∧ (h.inAperture = false → (s.port n).fences ≠ [] → r.stage = .fenceHold)
          ∧ (h.fence = false → (s.port n).fences = [] → r.stage = .tenantQueue ∨ r.stage = .credit))
      ∧ (t.port n).hdrHeld = (s.port n).hdrHeld - (1 + b2n h.ext) ∧ (t.port n).wdatHeld = (s.port n).wdatHeld - h.slots
      ∧ (∀ m, m ≠ n → t.port m = s.port m) ∧ s.only t [.regs, .out, .nextId, .ports, .tenants]

/-- R57, R58, R70, R536: a request that fails a check is answered by one CPL with the status of the first check that fails; its
credits come back at once, no request enters, and the port's error bit for the status is set. R536: the order of the checks:
kind, form, permission, mapping, and for a READ of tensor space its segment's tenant and shape. That a CPL header
in C2D is an unsupported kind, and that dat and ext belong to the form, is the model's choice (log entry 66). -/
def Obligations.RequestsRefused : Prop :=
  (∀ (s : State) (n : Nat) (hdr x ext : BitVec 128) (d : DataSlot) (ds sl : List DataSlot) (c : Instr) (st : PStatus), n < 24 →
    (c, ext, sl) ∈ [(Instr.read n hdr, 0, []), (.write n hdr ds, 0, ds), (.writeMasked n hdr x d, x, [d]), (.atomic n hdr d, 0, [d]),
      (.apertureWrite n hdr ds, 0, ds)] →
    let h := decodeHdr hdr
    (s.port n).st = .ready → h.kind ≠ 0xF → bindSlots h.tag sl h.slots ≠ none → 1 + b2n h.ext ≤ (s.port n).hdrHeld →
    h.slots ≤ (s.port n).wdatHeld → (s.port n).tagBusy h.tag = false → s.ingressFail n h ext sl = some st →
    ∃ t f, exec c s = .next t ∧ (t.port n).frames = (s.port n).frames ++ [f] ∧ f.tag = h.tag ∧ f.status = st ∧ f.slots = none
      ∧ f.failMask = h.missed ∧ (t.port n).reqs = (s.port n).reqs ∧ (t.port n).hdrHeld = (s.port n).hdrHeld
      ∧ (t.port n).wdatHeld = (s.port n).wdatHeld ∧ t.out = s.out ++ [.credit n (1 + b2n h.ext) h.slots]
      ∧ (st = .unsupported → t.fget F.glPortErr_unsupported [n] = 1) ∧ (st = .malformed → t.fget F.glPortErr_malformed [n] = 1)
      ∧ (st = .denied → t.fget F.glPortErr_denied [n] = 1) ∧ (st = .unmapped → t.fget F.glPortErr_unmapped [n] = 1)
      ∧ (∀ m, m ≠ n → t.port m = s.port m) ∧ s.only t [.regs, .out, .nextId, .ports, .tenants])
  ∧ (∀ (s : State) (n : Nat) (h : Hdr) (ext : BitVec 128) (sl : List DataSlot),
    (4 ≤ h.kind ∨ (h.kind = 3 ∧ s.portRev n < 2) → s.ingressFail n h ext sl = some .unsupported)
    ∧ ∀ k, kindOf h.kind = some k → (k = .atomic → 2 ≤ s.portRev n) →
      (hdrMalformed (s.portRev n) h k ext sl = true → s.ingressFail n h ext sl = some .malformed)
      ∧ (hdrMalformed (s.portRev n) h k ext sl = false →
        (h.tenant < s.fget F.glPortCfg_tenant_base [n] ∨ s.fget F.glPortCfg_tenant_limit [n] < h.tenant
            ∨ (h.tensor = true ∧ (k ≠ .read ∨ s.fget F.trCfg_en = 0)) ∨ (k = .atomic ∧ s.fget F.glPortCfg_atomic_en [n] = 0) →
          s.ingressFail n h ext sl = some .denied)
        ∧ (s.fget F.glPortCfg_tenant_base [n] ≤ h.tenant → h.tenant ≤ s.fget F.glPortCfg_tenant_limit [n] →
            (k = .atomic → s.fget F.glPortCfg_atomic_en [n] = 1) → s.wantsMemory n h = true →
          (h.tensor = false →
            (s.scrapped = true → s.ingressFail n h ext sl = some .unavailable)
            ∧ (s.scrapped = false → s.rootOf h.addr = none → s.ingressFail n h ext sl = some .unmapped)
            ∧ (s.scrapped = false → ∀ r o, s.rootOf h.addr = some (r, o) →
                s.ingressFail n h ext sl = if s.keyOk r = true ∨ s.rootKey r = none then none else some .denied))
          ∧ (h.tensor = true → k = .read → s.fget F.trCfg_en ≠ 0 → s.scrapped = false →
            let g := h.addr % 2 ^ 46 / segBytes
            (s.dirDown g = true → s.ingressFail n h ext sl = some .unavailable)
            ∧ (s.dirDown g = false → (s.seg g).st = .unmapped → s.ingressFail n h ext sl = some .unmapped)
            ∧ (s.dirDown g = false → (s.seg g).st ≠ .unmapped → (s.seg g).tenant ≠ h.tenant →
                s.ingressFail n h ext sl = some .denied)
            ∧ (s.dirDown g = false → (s.seg g).st ≠ .unmapped → (s.seg g).tenant = h.tenant →
                tensorShape (s.seg g) (h.addr % 2 ^ 46) h.len = none → s.ingressFail n h ext sl = some .malformed)))))

/-- R72, R74: an accepted aperture WRITE puts its granules into the ring's granules that its address names, and its CPL is
ready. R39: while a data slot of a message is missing nothing happens. R38, R49, R50, R69: response credits add up to 8,191 held;
more of them, or a request without credits, puts the port into FAULT and PRDY falls; a flit with a reserved slot code is
discarded, marks the port, and takes no credit (model's choice, log entry 66). -/
def Obligations.ApertureWritesRings : Prop :=
  (∀ (s : State) (n : Nat) (hdr : BitVec 128) (ds : List DataSlot) (data : List Granule), n < 24 →
    let h := decodeHdr hdr
    (s.port n).st = .ready → h.kind = 1 → h.inAperture = true → h.fence = false → s.fget F.glPortCfg_aperture_en [n] = 1 →
    bindSlots h.tag ds h.slots = some data → 1 + b2n h.ext ≤ (s.port n).hdrHeld → h.slots ≤ (s.port n).wdatHeld →
    s.ingressFail n h 0 ds = none → (s.port n).tagBusy h.tag = false →
    ∃ t f, exec (.apertureWrite n hdr ds) s = .next t
      ∧ (∀ i < h.len, tfind ((t.port n).ring (apertureAt (h.addr + 64 * i)).1).gran (apertureAt (h.addr + 64 * i)).2
          = some ((data[i]?).getD 0))
      ∧ (∀ q k, (∀ i < h.len, apertureAt (h.addr + 64 * i) ≠ (q, k)) →
          tfind ((t.port n).ring q).gran k = tfind ((s.port n).ring q).gran k)
      ∧ (∀ q, ((t.port n).ring q).parse = ((s.port n).ring q).parse ∧ ((t.port n).ring q).seq = ((s.port n).ring q).seq)
      ∧ (t.port n).frames = (s.port n).frames ++ [f] ∧ f.status = .ok ∧ f.slots = none ∧ f.tag = h.tag
      ∧ t.out = s.out ++ [.credit n 1 h.len] ∧ (∀ m, m ≠ n → t.port m = s.port m) ∧ s.only t [.regs, .out, .nextId, .ports, .tenants])
  ∧ (∀ (s : State) (n : Nat), n < 24 → (s.port n).st = .ready →
    (∀ k, (s.port n).rspHeld + k ≤ 8191 →
      exec (.responseCreditGrant n k) s = .next (s.setPort n { s.port n with rspHeld := (s.port n).rspHeld + k }))
    ∧ (∀ c, (∃ k, c = .responseCreditGrant n k ∧ 8191 < (s.port n).rspHeld + k)
        ∨ (∃ hdr ds, (c = .write n hdr ds ∨ c = .apertureWrite n hdr ds) ∧ (decodeHdr hdr).kind ≠ 0xF
            ∧ bindSlots (decodeHdr hdr).tag ds (decodeHdr hdr).slots ≠ none
            ∧ ((s.port n).hdrHeld < 1 + b2n (decodeHdr hdr).ext ∨ (s.port n).wdatHeld < (decodeHdr hdr).slots))
        ∨ (∃ hdr, c = .read n hdr ∧ (decodeHdr hdr).kind ≠ 0xF ∧ (decodeHdr hdr).slots = 0
            ∧ (s.port n).hdrHeld < 1 + b2n (decodeHdr hdr).ext) →
      ∃ t, exec c s = .next t ∧ t.port n = { s.port n with st := .fault } ∧ t.fget F.glPortErr_crd_overflow [n] = 1
        ∧ t.out = s.out ++ [.ready n false (s.port n).drev]
        ∧ (∀ m, m ≠ n → t.port m = s.port m) ∧ s.regsBut t [Reg.glPortErr.addr [n]] ∧ s.only t [.regs, .out, .ports])
    ∧ (∀ hdr ds, bindSlots (decodeHdr hdr).tag ds (decodeHdr hdr).slots = none →
        exec (.write n hdr ds) s = .next s ∧ exec (.apertureWrite n hdr ds) s = .next s)
    ∧ (∀ slots : BitVec 16, (∃ k < 8, bits slots.toNat (2 * k) 2 = 3) → ∃ t, exec (.malformedFlit n slots) s = .next t
        ∧ t.fget F.glPortErr_malformed [n] = 1 ∧ s.only t [.regs])
    ∧ (∀ slots : BitVec 16, (∀ k < 8, bits slots.toNat (2 * k) 2 ≠ 3) → exec (.malformedFlit n slots) s = .next s))

/-- R352, R355: the tenant next in turn has its oldest request released, and with shaping on the release is charged: the queue's
eligible time moves on by the counted bytes at its rate. Without a releasable request nothing happens. R55, R56: a held request
goes on once no FENCE before it holds the port and, if it is fenced, all before it is complete; until then it stays. A fenced aperture WRITE then meets the rings as they are (R74). R354: the
next slot of the wheel begins, 704/5 FCLK after the one before; the queues entered at it or earlier, up to 128, become ready,
and no other queue changes. R349, R356, R357, R369: a write of a tenant queue's configuration sets its switches, rate and burst;
a rate of 0 with en is ignored. The selector's write shows the queue's bytes, its state, what waits and its debt. -/
def Obligations.TenantsRelease : Prop :=
  (∀ (s : State) (n : Nat), n < 24 →
    let ready := (s.port n).reqs.filter fun r => r.stage = .tenantQueue && s.releasable n r
    (∀ r, nextTenant (s.port n).lastTenant ready = some r → ∃ t, exec (.tenantRelease n) s = .next t
      ∧ (∃ q ∈ (t.port n).reqs, q.id = r.id ∧ q.stage = .credit) ∧ (∀ m, m ≠ n → t.port m = s.port m)
      ∧ s.only t [.regs, .ports, .tenants])
    ∧ (ready = [] → exec (.tenantRelease n) s = .next s)
    ∧ ∀ r, (s.charge n r).tenQ r.tenant = { s.tenQ r.tenant with
        elig := max (s.tenQ r.tenant).elig s.vt + ceilDiv (2 ^ 16 * 2200 * s.counted n r) (s.tenQ r.tenant).rate
        bytes := ((s.tenQ r.tenant).bytes + s.counted n r) % 2 ^ 48 })
  ∧ (∀ (s : State) (n id : Nat) (r : PortReq), n < 24 → s.findReq n id = some r → r.stage = .fenceHold →
    (s.fenceFree n r = true → r.inAperture = false → ∃ t r', exec (.fenceHoldRelease n id) s = .next t ∧ t.findReq n id = some r'
      ∧ (r'.stage = .tenantQueue ∨ r'.stage = .credit) ∧ r'.addr = r.addr ∧ r'.tag = r.tag ∧ r'.data = r.data
      ∧ (∀ m, m ≠ n → t.port m = s.port m) ∧ s.only t [.regs, .ports, .tenants])
    ∧ (s.fenceFree n r = true → r.inAperture = true → (s.port n).st = .ready →
      let bad := s.apertureRefuses n (apertureCells r.addr r.len)
      ∃ t f, exec (.fenceHoldRelease n id) s = .next t ∧ t.findReq n id = none
        ∧ (t.port n).frames = (s.port n).frames ++ [f] ∧ f.tag = r.tag ∧ f.slots = none
        ∧ f.status = (if bad = true then .denied else .ok) ∧ f.failMask = (if bad = true then 2 ^ r.len - 1 else 0)
        ∧ (bad = true → (t.port n).rings = (s.port n).rings ∧ t.fget F.glPortErr_denied [n] = 1)
        ∧ (bad = false → ∀ i < r.len,
            tfind ((t.port n).ring (apertureAt (r.addr + 64 * i)).1).gran (apertureAt (r.addr + 64 * i)).2
              = some ((r.data[i]?).getD 0))
        ∧ t.out = s.out ++ [.credit n 1 r.len] ∧ (∀ m, m ≠ n → t.port m = s.port m) ∧ s.only t [.regs, .out, .ports])
    ∧ (s.fenceFree n r = false → exec (.fenceHoldRelease n id) s = .next s))
  ∧ (∀ s : State, trising s.tenants = true → (∀ e ∈ s.tenants, e.1 < 4096) →
    (s.tenants.filter fun e => match e.2.slot with
      | some j => decide (j ≤ s.wheel + 1)
      | none => false).length ≤ 128 →
    ∃ t, exec .wheelSlot s = .next t ∧ t.wheel = s.wheel + 1
      ∧ t.clk.now = max s.clk.now (s.clk.fclk0 + 3 * ceilDiv (704 * (s.wheel + 1)) 5)
      ∧ (∀ i j, (s.tenQ i).slot = some j → j ≤ s.wheel + 1 → t.tenQ i = { s.tenQ i with slot := none, ready := true })
      ∧ (∀ i, (∀ j, (s.tenQ i).slot = some j → s.wheel + 1 < j) → t.tenQ i = s.tenQ i)
      ∧ s.only t [.clk, .regs, .tenants, .wheel])
  ∧ (∀ s : State, s.cut = false →
    (∀ w : Word, let i := s.fget F.shTqSel_tenant
      (bit w.toNat 0 = true → bits w.toNat 8 24 = 0 → exec (.tqConfig w) s = .next s)
      ∧ (bit w.toNat 0 = false ∨ bits w.toNat 8 24 ≠ 0 → ∃ t, exec (.tqConfig w) s = .next t ∧ (t.tenQ i).en = bit w.toNat 0
        ∧ (t.tenQ i).hold = bit w.toNat 1 ∧ (t.tenQ i).rate = bits w.toNat 8 24 ∧ (t.tenQ i).burst = bits w.toNat 32 16
        ∧ (t.tenQ i).bytes = (s.tenQ i).bytes
        ∧ ((s.tenQ i).en = true → bit w.toNat 0 = true → (s.tenQ i).rate ≠ 0 → s.vt < (s.tenQ i).elig →
            bits w.toNat 8 24 ≠ (s.tenQ i).rate →
            (t.tenQ i).elig = s.vt + ceilDiv (((s.tenQ i).elig - s.vt) * (s.tenQ i).rate) (bits w.toNat 8 24))
        ∧ (∀ k, k ≠ i → t.tenQ k = s.tenQ k) ∧ s.only t [.tenants]))
    ∧ ∀ i < 4096, ∃ t, exec (.tqSnapshot i) s = .next t ∧ t.fget F.shTqSel_tenant = i
      ∧ t.rget .shTqBytes [] = BitVec.ofNat 64 (s.tenQ i).bytes
      ∧ t.fget F.shTqStat_state = (if (s.tenQ i).en = false then 0 else if s.tenantWaiting i = 0 then 1
          else if (s.tenQ i).passes s.vt = true then 2 else 3)
      ∧ t.fget F.shTqStat_waiting = min (s.tenantWaiting i) 65535
      ∧ t.fget F.shTqStat_debt = min ((s.tenQ i).debt s.vt) (2 ^ 32 - 1)
      ∧ s.regsBut t [Reg.shTqSel.addr [], Reg.shTqStat.addr [], Reg.shTqBytes.addr []] ∧ s.only t [.regs])

/-- R361, R362: the frame of the highest class that its gate lets start is sent as it stands, and its credits and staging end;
while none may start, nothing happens. R49, R260, R365: a request whose response fits reserves its credits, is stamped, and its
granules go to the places that serve them; one that does not fit waits. R39: the data
slots of a response carry its tag, their index, their status code and the last mark; R57: a CPL carries status, info and
fail_mask. R199: a READ of a segment that is FAR waits for it, and its fetch is asked for. -/
def Obligations.FramesStart : Prop :=
  (∀ (s : State) (n : Nat), n < 24 → (s.port n).st = .ready → (s.port n).frames ≠ [] →
    let u := s.tickTo (s.port n).busy
    (∀ f, u.nextFrame n = some f → f ∈ (s.port n).frames ∧ u.gateAllows n f.cls f.flits = true
      ∧ (∀ g ∈ (s.port n).frames, u.gateAllows n g.cls g.flits = true → g.cls ≤ f.cls)
      ∧ (f.reused = false → ∃ t, exec (.frameStart n) s = .next t
        ∧ t.out = s.out ++ [match f.slots with
            | some l => .frame n f.cls (dataSlots f.tag (l.map fun e => (e.1.code, e.2))) none
            | none => .frame n f.cls [] (some (cplHeader f.tag f.status.code f.info f.failMask))]
        ∧ (t.port n).frames = (s.port n).frames.filter (fun g => g.id ≠ f.id)
        ∧ (t.port n).rspHeld = (s.port n).rspHeld - (f.slots.map (·.length)).getD 0
        ∧ (t.port n).rspRsvd = (s.port n).rspRsvd - f.credits ∧ (t.port n).staged = (s.port n).staged - f.staged
        ∧ (t.port n).busy = max s.clk.now (s.port n).busy + 3 * f.flits ∧ t.clk.now = max s.clk.now (s.port n).busy
        ∧ (∀ m, m ≠ n → t.port m = s.port m) ∧ s.only t [.clk, .regs, .out, .ports, .obs]))
    ∧ (u.nextFrame n = none → exec (.frameStart n) s = .next s))
  ∧ (∀ (s : State) (n id : Nat) (r : PortReq), n < 24 → s.findReq n id = some r → r.stage = .credit → r.tens = none →
    (∃ p ∈ s.memParts r, p.st ≠ .done) →
    let k := r.needs
    let stg := if s.gated n r.tc = true then k else 0
    ((s.port n).rspRsvd + k ≤ (s.port n).rspHeld → (stg = 0 ∨ s.fget F.glPortCfg_wdat_credits [n] + (s.port n).staged + stg ≤ 768) →
      ∃ t r', exec (.creditReserve n id) s = .next t ∧ t.findReq n id = some r' ∧ r'.stage = .issued ∧ r'.stamp = s.mclk ∧ r'.rsvd = k
        ∧ r'.parts = s.memParts r ∧ r'.addr = r.addr ∧ (t.port n).rspRsvd = (s.port n).rspRsvd + k
        ∧ (t.port n).staged = (s.port n).staged + stg ∧ (∀ m, m ≠ n → t.port m = s.port m) ∧ s.only t [.out, .ports])
    ∧ ((s.port n).rspHeld < (s.port n).rspRsvd + k → exec (.creditReserve n id) s = .next s))
  ∧ (∀ (s : State) (n id : Nat) (r : PortReq) (tr : TensRead), n < 24 → s.findReq n id = some r → r.stage = .credit →
    r.tens = some tr → (s.port n).rspRsvd + r.needs ≤ (s.port n).rspHeld → s.gated n r.tc = false → s.dirDown tr.seg = false →
    (s.seg tr.seg).st = .far → (s.seg tr.seg).tenant = r.tenant → (s.seg tr.seg).pin = false →
    ∃ t r', exec (.creditReserve n id) s = .next t ∧ t.findReq n id = some r' ∧ r'.stage = .parked tr.seg ∧ r'.stamp = s.mclk
      ∧ (∃ f ∈ t.demandQ, f.seg = tr.seg) ∧ (t.port n).rspRsvd = (s.port n).rspRsvd + r.needs ∧ (∀ m, m ≠ n → t.port m = s.port m)
      ∧ s.only t [.out, .ports, .demandQ, .prefetchQ])

/-- R62, R67 to R69: PRST_N falls and the port is in RESET with nothing of its own left, its rings start again (a progress record
that is due stays due, R77), and PRDY falls if it was high; it rises and the port links up, and on a far-tier port the device
shows its revision (R37); in LINKUP PREV other than 0 makes it READY at the lower revision, with its credits, which a fabric
port shows with DREV and PRDY; a drained port is DISABLED, or LINKUP if it has been enabled again. In DRAIN or DISABLED a fall
of PRST_N changes its level only (model's choice, log entry 66). -/
def Obligations.PortsResetAndReady : Prop :=
  ∀ (s : State) (n : Nat), n < 26 →
    ((s.port n).prstN = true → (s.port n).st = .linkup ∨ (s.port n).st = .ready ∨ (s.port n).st = .fault →
      ∃ t, exec (.portReset n) s = .next t ∧ (t.port n).st = .reset ∧ (t.port n).prstN = false ∧ (t.port n).reqs = []
        ∧ (t.port n).frames = [] ∧ (t.port n).rings = (s.port n).clearedRings ∧ (t.port n).fences = [] ∧ (t.port n).hdrHeld = 0
        ∧ (t.port n).rspHeld = 0 ∧ (t.port n).rspRsvd = 0
        ∧ ((s.port n).st = .ready → n < 24 → .ready n false 0 ∈ t.out))
    ∧ (∀ q < 4, tget Ring.init (s.port n).clearedRings q = ((s.port n).ring q).cleared)
    ∧ ((s.port n).prstN = true → (s.port n).st = .disabled ∨ (s.port n).st = .drain →
      exec (.portReset n) s = .next (s.setPort n { s.port n with prstN := false }))
    ∧ ((s.port n).prstN = false → exec (.portReset n) s = .next s)
    ∧ (∀ v, (s.port n).prstN = false → exec (.portResetRelease n v) s = .next
        (let u := s.setPort n { s.port n with
          prstN := true
          prev := v % 16
          st := if (s.port n).st = .reset then .linkup else (s.port n).st }
         if n < 24 then u else u.emit (.prev n 2)))
    ∧ (∀ v, (s.port n).prstN = true → exec (.portResetRelease n v) s = .next s)
    ∧ ((s.port n).st = .linkup → (s.port n).prstN = true →
      ((s.port n).prev ≠ 0 → ∃ t, exec (.portReady n) s = .next t
        ∧ (let d := min (s.port n).prev (s.fget F.glPortCfg_rev_cap [n])
           let h := s.fget F.glPortCfg_hdr_credits [n]
           let w := s.fget F.glPortCfg_wdat_credits [n]
           t.port n = { s.port n with st := .ready, drev := d, hdrHeld := if n < 24 then h else 0, wdatHeld := if n < 24 then w else 0 }
           ∧ t.out = s.out ++ if n < 24 then [.ready n true d, .credit n h w] else [])
        ∧ (∀ m, m ≠ n → t.port m = s.port m) ∧ s.regsBut t [Reg.pkRev.addr []] ∧ s.only t [.regs, .out, .ports])
      ∧ ((s.port n).prev = 0 → ∃ t, exec (.portReady n) s = .next t ∧ t.fget F.pkErr_rev_bad = 1
        ∧ s.regsBut t [Reg.pkErr.addr []] ∧ s.only t [.regs]))
    ∧ ((s.port n).st ≠ .linkup ∨ (s.port n).prstN = false → exec (.portReady n) s = .next s)
    ∧ ((s.port n).st = .drain → exec (.portDrainDone n) s
        = .next (s.setPort n { s.port n with st := if s.fget F.glPortCfg_en [n] = 1 then .linkup else .disabled }))
    ∧ ((s.port n).st ≠ .drain → exec (.portDrainDone n) s = .next s)

/-- R364, R366: a list that passes the checks comes into force when the gate is enabled, or when the cycle in force ends after a
swap was asked for; one that fails leaves the gate as it is and is reported; disabling opens every class. -/
def Obligations.GatesSwitch : Prop :=
  ∀ (s : State) (n : Nat), n < 24 →
    (s.cut = false →
      (s.gateOn n = false → s.gateCheck n 0 (s.fget F.shGateCfg_guard [n]) (s.fget F.shGateCfg_offset [n]) = [] →
        ∃ t, exec (.gateEnable n) s = .next t ∧ t.gateOn n = true ∧ t.gate n = ⟨0, false, cycleOf (s.gateList n 0)⟩
          ∧ (∀ m, m ≠ n → t.gate m = s.gate m) ∧ s.regsBut t [Reg.shGateCfg.addr [n]] ∧ s.only t [.regs, .gates])
      ∧ (s.gateOn n = false → s.gateCheck n 0 (s.fget F.shGateCfg_guard [n]) (s.fget F.shGateCfg_offset [n]) ≠ [] →
        ∃ t, exec (.gateEnable n) s = .next t ∧ t.gateOn n = false ∧ t.gate n = s.gate n
          ∧ bits (t.rget .shGateErr [n]).toNat 0 5 ≠ 0 ∧ s.regsBut t [Reg.shGateErr.addr [n]] ∧ s.only t [.regs])
      ∧ (s.gateOn n = true → exec (.gateEnable n) s = .next s)
      ∧ (s.gateOn n = true → ∃ t, exec (.gateDisable n) s = .next t ∧ t.gateOn n = false
          ∧ t.gate n = { s.gate n with armed := false } ∧ (∀ c f, t.gateAllows n c f = true)
          ∧ s.regsBut t [Reg.shGateCfg.addr [n]] ∧ s.only t [.regs, .gates])
      ∧ (s.gateOn n = true → (s.gate n).armed = false →
        (s.gateCheck n (1 - (s.gate n).bank) (s.fget F.shGateCfg_guard [n]) (s.fget F.shGateCfg_offset [n]) = [] →
          exec (.gateSwap n) s = .next (s.setGate n { s.gate n with armed := true }))
        ∧ (s.gateCheck n (1 - (s.gate n).bank) (s.fget F.shGateCfg_guard [n]) (s.fget F.shGateCfg_offset [n]) ≠ [] →
          ∃ t, exec (.gateSwap n) s = .next t ∧ bits (t.rget .shGateErr [n]).toNat 0 5 ≠ 0
            ∧ s.regsBut t [Reg.shGateErr.addr [n]] ∧ s.only t [.regs]))
      ∧ (s.gateOn n = false ∨ (s.gate n).armed = true → ∃ t, exec (.gateSwap n) s = .next t ∧ t.fget F.shGateErr_busy [n] = 1
          ∧ s.regsBut t [Reg.shGateErr.addr [n]] ∧ s.only t [.regs]))
    ∧ (s.gateOn n = true → (s.gate n).armed = true → ∃ t, exec (.gateSwapTake n) s = .next t
        ∧ t.gate n = ⟨1 - (s.gate n).bank, false, cycleOf (s.gateList n (1 - (s.gate n).bank))⟩
        ∧ t.clk.now = s.clk.now + 3 * ((s.gate n).cycle - s.gatePos n (s.gate n).cycle)
        ∧ (∀ m, m ≠ n → t.gate m = s.gate m) ∧ s.only t [.clk, .regs, .gates])
    ∧ (s.gateOn n = false ∨ (s.gate n).armed = false → exec (.gateSwapTake n) s = .next s)

/-! ## The far tier -/

/-- R48, R59 to R61: a response goes to the destination of the request that holds its tag, and the tag is free; a block that the
frame does not take waits. Without a response in its time the READ is sent again, up to four times in all, at the cost of a
credit; then it ends FAR_ERR with a record. While the port is not READY or holds no credit no attempt is made (model's choice, log
entry 66). Returned credits send the request that waits longest among those whose space can be reserved. -/
def Obligations.FarRequests : Prop :=
  ∀ (s : State) (ft tag : Nat) (r : FarReq), ft < 2 → s.farReq ft tag = some r →
    (∀ poison data, (s.port (24 + ft)).st = .ready → s.allSent ft →
      (∀ id g p, r.dest = .unit id g → tfind s.packets id = some p → p.st = .running →
        ∃ t, exec (.farResponse ft tag poison data) s = .next t
          ∧ tfind t.packets id = some { p with
              got := tset p.got g (if poison = true then .poisoned else .ok, (data[0]?).getD 0)
              asked := p.asked.filter (· ≠ g) }
          ∧ s.othersKept t id ∧ t.far = s.far.filter (· ≠ r) ∧ s.only t [.regs, .packets, .far])
      ∧ (∀ seg b u, r.dest = .fetch seg b → s.blockIn seg b poison data = some u →
        ∃ t, exec (.farResponse ft tag poison data) s = .next t ∧ t.far = s.far.filter (· ≠ r) ∧ t.mem = u.mem
          ∧ t.fetches = s.fetches.map fun f => if f.seg = seg then { f with got := f.got ||| (1 <<< b) } else f)
      ∧ (∀ seg b, r.dest = .fetch seg b → s.blockIn seg b poison data = none → exec (.farResponse ft tag poison data) s = .next s)
      ∧ (∀ cl core e slot g run c, r.dest = .stream cl core e slot g run → s.coreAt cl core = some c → c.run = run →
        ∃ t, exec (.farResponse ft tag poison data) s = .next t
          ∧ tfind t.cores (coreKey cl core) = some (c.setEng e { c.eng e with
              buf := tset (c.eng e).buf (bufKey slot g) (if poison = true then .poisoned else .ok, (data[0]?).getD 0)
              asked := (c.eng e).asked.filter (· ≠ bufKey slot g) })
          ∧ t.far = s.far.filter (· ≠ r) ∧ s.only t [.regs, .cores, .far])
      ∧ (∀ n id i, r.dest = .pass n id i → ∃ t, exec (.farResponse ft tag poison data) s = .next t
          ∧ t.far = s.far.filter (· ≠ r) ∧ s.only t [.regs, .free, .ports, .dir, .far]))
    ∧ (∀ poison data, (s.port (24 + ft)).st ≠ .ready → exec (.farResponse ft tag poison data) s = .next s)
    ∧ (r.tries < 4 → (s.port (24 + ft)).st = .ready → 0 < (s.port (24 + ft)).hdrHeld →
      ∃ t, exec (.farTimeout ft tag) s = .next t
        ∧ t.far = s.far.map (fun q => if q = r then { r with tries := r.tries + 1, sent := s.clk.now } else q)
        ∧ t.port (24 + ft) = { s.port (24 + ft) with hdrHeld := (s.port (24 + ft)).hdrHeld - 1 }
        ∧ t.out = s.out ++ [.farRead (24 + ft) tag r.addr r.len] ∧ s.only t [.regs, .out, .ports, .far])
    ∧ (r.tries < 4 → (s.port (24 + ft)).st ≠ .ready ∨ (s.port (24 + ft)).hdrHeld = 0 → exec (.farTimeout ft tag) s = .next s)
    ∧ (4 ≤ r.tries → s.allSent ft → ∀ id g p, r.dest = .unit id g → tfind s.packets id = some p → p.st = .running →
      ∃ t, exec (.farTimeout ft tag) s = .next t ∧ t.far = s.far.filter (· ≠ r) ∧ t.fget F.glPortErr_far_err [24 + ft] = 1
        ∧ t.obs = (s.log .farErr (24 + ft) r.tries 0 r.addr).obs
        ∧ tfind t.packets id = some { p with got := tset p.got g (.farErr, 0), asked := p.asked.filter (· ≠ g) }
        ∧ s.othersKept t id ∧ s.regsBut t [Reg.glPortErr.addr [24 + ft], Reg.obEvrStat.addr []]
        ∧ s.only t [.regs, .obs, .packets, .far])
    ∧ (∀ hdr wdat, (s.port (24 + ft)).st = .ready →
      (s.allSent ft → exec (.farCreditReturn ft hdr wdat) s = .next (s.setPort (24 + ft) { s.port (24 + ft) with
        hdrHeld := (s.port (24 + ft)).hdrHeld + hdr
        wdatHeld := (s.port (24 + ft)).wdatHeld + wdat }))
      ∧ (∀ q k, s.far.find? (fun x => x.ft = ft && x.tries = 0 && s.canReserve x.dest) = some q → s.freeFarTag ft = some k →
          0 < (s.port (24 + ft)).hdrHeld + hdr → ∃ t, exec (.farCreditReturn ft hdr wdat) s = .next t
        ∧ (s.out ++ [.farRead (24 + ft) k q.addr q.len]) <+: t.out
        ∧ { q with tag := k, tries := 1, sent := s.clk.now } ∈ t.far ∧ s.only t [.regs, .out, .ports, .far]))

/-- R196 to R200: a fetch starts while fewer than max_fetch run: the oldest waiting one, on demand before prefetches, in the
frame that the pools give it or that a TENSOR_PIN has reserved, with a READ of 4 KiB for each of its 512 blocks; one for which
there is no frame starts none. A
segment whose every block has come is LOCAL in its frame. -/
def Obligations.SegmentFetches : Prop :=
  ∀ s : State, (s.allSent 0 → s.allSent 1 →
    (s.fget F.trCfg_max_fetch ≤ s.fetches.length → exec .segmentFetchStart s = .next s)
    ∧ (s.fetches.length < s.fget F.trCfg_max_fetch →
      (∀ f rest u pool frame, s.demandQ = f :: rest → s.dirDown f.seg = false → (s.seg f.seg).st = .far →
        ({ s with demandQ := rest }).takeFrame f.seg (({ s with demandQ := rest }).victimFor f.seg .demand) = (u, some (pool, frame)) →
        ∃ t, exec .segmentFetchStart s = .next t ∧ t.fetches = s.fetches ++ [f] ∧ t.demandQ = rest
          ∧ t.seg f.seg = { u.seg f.seg with st := .fetching, pool := pool, frame := frame, ref := false }
          ∧ ∀ i < 512, ∃ q ∈ t.far, q.dest = .fetch f.seg ((f.start + i) % 512) ∧ q.ft = f.seg % 2 ∧ q.len = 64
              ∧ q.addr = (u.seg f.seg).home + 4096 * ((f.start + i) % 512))
      ∧ (∀ f rest, s.demandQ = f :: rest → s.dirDown f.seg = false → (s.seg f.seg).st = .fetching →
        ∃ t, exec .segmentFetchStart s = .next t ∧ t.fetches = s.fetches ++ [f] ∧ t.demandQ = rest ∧ t.dir = s.dir ∧ t.mem = s.mem)
      ∧ (∀ f rest u, s.demandQ = f :: rest → s.dirDown f.seg = false → (s.seg f.seg).st = .far →
        ({ s with demandQ := rest }).takeFrame f.seg (({ s with demandQ := rest }).victimFor f.seg .demand) = (u, none) →
        ∃ t, exec .segmentFetchStart s = .next t ∧ t.fetches = s.fetches ∧ t.mem = s.mem)
      ∧ (∀ n rest u pool frame, s.demandQ = [] → s.prefetchQ = n :: rest → s.dirDown n = false → (s.seg n).st = .far →
        ({ s with prefetchQ := rest }).takeFrame n (({ s with prefetchQ := rest }).victimFor n .prefetch) = (u, some (pool, frame)) →
        ∃ t, exec .segmentFetchStart s = .next t ∧ t.fetches = s.fetches ++ [⟨n, .prefetch, 0, 0⟩] ∧ t.prefetchQ = rest
          ∧ t.seg n = { u.seg n with st := .fetching, pool := pool, frame := frame, ref := true })
      ∧ (s.demandQ = [] → s.prefetchQ = [] → exec .segmentFetchStart s = .next s)))
    ∧ ∀ seg < 2 ^ 25, ∀ f, (s.fetches.find? fun x => x.seg = seg) = some f →
      (f.got % 2 ^ 512 = 2 ^ 512 - 1 → ∃ t, exec (.segmentFetchDone seg) s = .next t ∧ (t.seg seg).st = .loc
        ∧ (t.seg seg).pool = (s.seg seg).pool ∧ (t.seg seg).frame = (s.seg seg).frame ∧ (t.seg seg).pin = (s.seg seg).pin
        ∧ t.fetches = s.fetches.filter (fun x => x.seg ≠ seg) ∧ t.mem = s.mem)
      ∧ (f.got % 2 ^ 512 ≠ 2 ^ 512 - 1 → exec (.segmentFetchDone seg) s = .next s)

/-! ## Command packets -/

/-- R73, R75, R77, R79, R82 to R84: the ring next in turn has its packet taken, if its sequence number is the expected one: it
enters the in-flight table, refused by the first check that fails or waiting to start, and its granules and number are used up;
a wrong number halts the ring with BAD_SEQ. While the table or the port's share of it is full no ring of the port is parsed;
otherwise a ring is parsed in every state of its port (log entry 51), and in DRAIN the packet ends ABORTED_PORT. A packet that may start enters the firmware queue; with the
firmware path failed it ends UNAVAILABLE (R97); a packet with its status fixed has its reply posted and leaves. Progress is written when the pointer has moved. -/
def Obligations.PacketsAreTaken : Prop :=
  ∀ (s : State) (n q id : Nat) (g : Granule) (gs : List Granule), n < 24 → q < 4 →
    let r := (s.port n).ring q
    (s.tableFull n = false → ([1, 2, 3, 4].map fun k => ((s.port n).lastRing + k) % 4).find? (fun x => s.ringReady n x) = some q →
        r.head = some g →
      (bits g.toNat 16 16 = r.seq → r.packet = some gs → ∃ t p, exec (.parsePacket n) s = .next t ∧ t.nextId = s.nextId + 1 ∧ tfind t.packets s.nextId = some p ∧ s.othersKept t s.nextId
          ∧ (let f := packetOf s.nextId n q gs
             ((s.port n).st = .drain → p = { f with st := .fixed, status := .abortedPort })
             ∧ ((s.port n).st ≠ .drain → (s.scrapped = true → p = { f with st := .fixed, status := .unavailable })
             ∧ (s.scrapped = false → s.replyOk f.reply = false → p = { f with
                  st := .fixed
                  status := .malformed
                  reply := s.fget F.cpRingErrAddr_err_addr [4 * n + q] * 32 })
             ∧ (s.scrapped = false → s.replyOk f.reply = true → ∀ k, s.parseRefused f = some k →
                  p = { f with st := .fixed, status := k, aux := if f.opcode = 0x60 then 0xFF else 0 })
             ∧ (s.scrapped = false → s.replyOk f.reply = true → s.parseRefused f = none → p = f)
             ∧ (p = f → f.opcode = 0x61 → (t.port n).fences = (s.port n).fences ++ [(s.nextId, s.nextId)])))
          ∧ (let u := (t.port n).ring q
             u.parse = (r.parse + gs.length) % 256 ∧ u.seq = (r.seq + 1) % 65536 ∧ u.halted = r.halted ∧ u.moved = true
             ∧ ∀ k < 256, tfind u.gran k = if (k + 256 - r.parse) % 256 < gs.length then none else tfind r.gran k)
          ∧ (t.port n).lastRing = q ∧ (∀ m, m ≠ n → t.port m = s.port m) ∧ s.only t [.regs, .nextId, .ports, .packets])
      ∧ (bits g.toNat 16 16 ≠ r.seq → ∃ t lost, exec (.parsePacket n) s = .next t ∧ ((t.port n).ring q).halted = true
          ∧ t.packets = s.packets
          ∧ .reply n q (bits g.toNat 16 16) .badSeq (s.fget F.cpRingErrAddr_err_addr [4 * n + q] * 32) 0 r.seq 0 lost ∈ t.out))
    ∧ (s.tableFull n = true → exec (.parsePacket n) s = .next s)
    ∧ (∀ p row, tfind s.packets id = some p → p.id = id → opRow p.opcode = some row → row.fw = true → s.mayStart p = true →
      (s.fget F.cpFwStat_state = 3 → ∃ t, exec (.fwQueueAdmit id) s = .next t
        ∧ tfind t.packets id = some (p.ended .unavailable 0 0 0) ∧ s.othersKept t id)
      ∧ (s.fget F.cpFwStat_state ≠ 3 →
        (s.fwq.length < 512 → ∃ t, exec (.fwQueueAdmit id) s = .next t ∧ tfind t.packets id = some { p with st := .queued }
          ∧ t.fwq = s.fwq ++ [id] ∧ s.othersKept t id ∧ s.only t [.regs, .packets, .fwq])
        ∧ (512 ≤ s.fwq.length → exec (.fwQueueAdmit id) s = .next s)))
    ∧ (∀ p, tfind s.packets id = some p → p.id = id →
      (p.st = .fixed → ∃ t lost, exec (.packetCommit id) s = .next t ∧ tfind t.packets id = none ∧ s.othersKept t id
        ∧ t.fwq = s.fwq.filter (· ≠ id) ∧ tfind t.runs id = none ∧ tfind t.attns id = none
        ∧ .reply p.port p.ring p.seq p.status p.reply p.count (s.replyAux p) p.detail lost ∈ t.out)
      ∧ (p.st ≠ .fixed → exec (.packetCommit id) s = .next s))
    ∧ (let on := s.fget F.cpRingCfg_progress_en [4 * n + q] = 1
       ∀ c due, (c = .progressWrite n q ∧ due = r.moved) ∨ (c = .progressRetry n q ∧ due = (r.progFail && !r.moved)) →
        (on ∧ due = true → ∃ t failed, exec c s = .next t
          ∧ (t.port n).ring q = { r with moved := false, progFail := failed }
          ∧ (failed = false → t.out.getLast? = some (.progress n q r.seq r.parse))
          ∧ (failed = true → t.fget F.cpRingStat_prog_fail [4 * n + q] ≠ 0))
        ∧ (¬ (on ∧ due = true) → exec c s = .next s))

/-- R56, R91, R92, R95 to R97: an ABORT ends a waiting or running packet ABORTED and answers for one that it does not find or
that is too far; a FENCE is taken up, and ends when all before it is complete; a trap ends the interpreter's packet FW_RESTART
with what it had committed, but for one past its commit point, and waits for the reload, after which the memory holds the patch
image again and what waited on the management chain is served; with all copies failed the firmware path ends. -/
def Obligations.PacketsAreStopped : Prop :=
  ∀ (s : State) (id : Nat) (p : Packet),
    (s.live id 0x60 = some p → p.id = id → p.st = .waiting →
      let seq := bits (p.word 32) 16 16
      let same := s.packets.filter fun e => e.2.port = p.port && e.2.ring = bits (p.word 32) 0 2 && e.2.seq = seq
      let r := (s.port p.port).ring (bits (p.word 32) 0 2)
      let past := (r.seq + 65536 - seq) % 65536
      (same = [] → ∃ t, exec (.abort id) s = .next t ∧ s.othersKept t id
        ∧ tfind t.packets id = some (p.ended (if 1 ≤ past ∧ past ≤ min 32768 r.parsed then .tooLate else .notFound) 0 0xFF 0))
      ∧ ∀ k x, same.getLast? = some (k, x) → x.id = k → k ≠ id →
        (x.opcode ≠ 0x60 → x.st ≠ .fixed → (isMaint x.opcode = true → x.st ≠ .running) →
            (x.opcode = 0x12 → x.st = .running → (tfind s.streams x.target).map (·.st) ≠ some .closing) →
          ∃ t, exec (.abort id) s = .next t ∧ tfind t.packets k = some (x.ended .aborted x.count x.aux 0)
            ∧ tfind t.packets id = some (p.ended .done 0 0x02 0)
            ∧ (∀ j, j ≠ k → j ≠ id → tfind t.packets j = tfind s.packets j)
            ∧ (∀ f ∈ (t.port x.port).fences, f.1 ≠ k))
        ∧ (x.opcode = 0x60 → ∃ t, exec (.abort id) s = .next t ∧ s.othersKept t id
            ∧ tfind t.packets id = some (p.ended .denied 0 0xFF 0))
        ∧ (x.opcode ≠ 0x60 → x.st = .fixed → ∃ t, exec (.abort id) s = .next t ∧ s.othersKept t id
            ∧ tfind t.packets id = some (p.ended .tooLate 0 x.status.code 0))
        ∧ (isMaint x.opcode = true → x.st = .running → ∃ t, exec (.abort id) s = .next t ∧ s.othersKept t id
            ∧ tfind t.packets id = some (p.ended .tooLate 0 0xFF 0))
        ∧ (s.closePast x = true → ∃ t, exec (.abort id) s = .next t ∧ s.othersKept t id
            ∧ tfind t.packets id = some (p.ended .tooLate 0 0 0)))
    ∧ (s.live id 0x61 = some p → p.id = id →
      (p.st = .waiting → exec (.fence id) s = .next (s.setPacket { p with st := .running }))
      ∧ (p.st = .running → s.fenceOver p = true → ∃ t lost, exec (.fenceDone id) s = .next t ∧ tfind t.packets id = none
        ∧ s.othersKept t id ∧ .reply p.port p.ring p.seq .done p.reply p.count p.aux p.detail lost ∈ t.out
        ∧ ∀ f ∈ (t.port p.port).fences, f.1 ≠ id)
      ∧ (s.fenceOver p = false → exec (.fenceDone id) s = .next s))
    ∧ ∀ k addr src, k < 4 →
      let i := tget Interp.init s.interps k
      (s.fget F.cpFwStat_state = 1 ∨ s.fget F.cpFwStat_state = 2 → trising s.packets = true → (∀ e ∈ s.packets, e.2.id = e.1) →
        ∃ t, exec (.fwTrap k addr) s = .next t ∧ tget Interp.init t.interps k = { i with reload := true, trapAddr := addr }
          ∧ (∀ j, j ≠ k → tget Interp.init t.interps j = tget Interp.init s.interps j) ∧ t.fget F.cpFwStat_state = 2
          ∧ ∀ j x, tfind s.packets j = some x → tfind t.packets j =
              if x.st = .running ∧ x.interp = some k ∧ s.committed x = false then some (x.ended .fwRestart x.count x.aux 0)
              else some x)
      ∧ (s.fget F.cpFwStat_state ≠ 1 → s.fget F.cpFwStat_state ≠ 2 → exec (.fwTrap k addr) s = .next s)
      ∧ (i.reload = false → s.mgmtQ = [] → exec (.fwReloadDone k src) s = .next s)
      ∧ (∀ eid < 256, k = 3 → i.reload = true → src < 3 → s.mgmtQ = [.setEndpointId eid] → ∃ t,
          exec (.fwReloadDone k src) s = .next t ∧ t.mgmtQ = [] ∧ t.fget F.btMciStat_eid = eid
          ∧ t.out = s.out ++ [.mctp 1 0 [eid]])
      ∧ (i.reload = true → src < 3 → s.mgmtQ = [] → ∃ t, exec (.fwReloadDone k src) s = .next t
          ∧ tget Interp.init t.interps k = { i with reload := false, trapAddr := 0, mem := [] }
          ∧ t.fget F.cpFwStat_reload_src = src ∧ t.obs = (s.log .fwTrap k src 0 i.trapAddr).obs
          ∧ (s.fget F.cpFwStat_state ≠ 3 → (∀ j < 4, j ≠ k → (tget Interp.init s.interps j).reload = false) →
              t.fget F.cpFwStat_state = 1)
          ∧ s.regsBut t [Reg.cpFwStat.addr [], Reg.obEvrStat.addr []] ∧ s.only t [.regs, .obs, .interps])
      ∧ (i.reload = true → 3 ≤ src → s.mgmtQ = [] → trising s.packets = true → (∀ e ∈ s.packets, e.2.id = e.1) →
        ∃ t, exec (.fwReloadDone k src) s = .next t ∧ t.fget F.cpFwStat_state = 3 ∧ t.fwq = []
          ∧ ∀ j x row, tfind s.packets j = some x → opRow x.opcode = some row → row.fw = true → x.st ≠ .fixed →
              s.committed x = false → tfind t.packets j = some (x.ended .unavailable x.count x.aux 0))

/-- R83, R89, R90, R339: a COPY or FILL that may start takes a free channel (the lowest: model's choice, log entry 68), or is
refused; each granule whose source is good
and whose write is taken retires in order, the last one ends the packet DONE with its bytes; a source or a write that fails at the
prefix ends it with what it has done, a FETCHING source makes it wait. A MIGRATE moves its granules in the same way. -/
def Obligations.GranulesAreMoved : Prop :=
  ∀ (s : State) (id op : Nat) (p : Packet), p.id = id → (op = 1 ∨ op = 2) →
    (∀ c s1 q, tfind s.packets id = some p → p.opcode = op → s.freeChan = some c → s.takeFast id op = some (s1, q) →
      (s1.copyRefused q = none → ∃ t, exec (.copyChannelStart id) s = .next t ∧ tfind t.packets id = some { q with chan := some c }
        ∧ s.othersKept t id ∧ s.only t [.regs, .packets, .obs])
      ∧ (∀ k, s1.copyRefused q = some k → ∃ t, exec (.copyChannelStart id) s = .next t ∧ tfind t.packets id = some (q.ended k 0 0 0)
        ∧ s.othersKept t id ∧ t.mem = s.mem))
    ∧ (s.freeChan = none → exec (.copyChannelStart id) s = .next s)
    ∧ (∀ i, (∀ j, tfind p.got (aheadKey j) = none) → p.prog = i → p.st = .running → 64 ≤ p.bytes → 64 * i < p.bytes →
      (s.live id op = some p → p.chan ≠ none →
        ∀ c v got, (op = 1 ∧ c = Instr.copy id 1 []) ∨ (op = 2 ∧ c = Instr.fill id 1 []) →
          s.copySrc p i = (v, got) → tfind v.packets id = some p →
        (∀ d u a, got = .ok d → v.copyOverlaps p = false → v.writeMem (p.dst + 64 * i) d (2 ^ 64 - 1) copyClass = (u, .ok, a) →
          ∃ t, exec c s = .next t ∧ t.mem = u.mem ∧ t.pccs = u.pccs ∧ u.othersKept t id
            ∧ (64 * (i + 1) ≠ p.bytes → ∃ x, tfind t.packets id = some x ∧ x.st = .running ∧ x.prog = i + 1
                ∧ x.count = 64 * (i + 1) ∧ x.waits = [] ∧ x.chan = p.chan)
            ∧ (64 * (i + 1) = p.bytes → ∃ l, tfind t.packets id = some ({ p with prog := i + 1, got := l }.ended .done p.bytes 0 0)))
        ∧ (∀ d u a st, got = .ok d → v.copyOverlaps p = false → st ≠ .ok →
          v.writeMem (p.dst + 64 * i) d (2 ^ 64 - 1) copyClass = (u, st, a) →
          ∃ t, exec c s = .next t ∧ tfind t.packets id = some (p.ended (ofPStatus st) (64 * i) 0 (p.dst + 64 * i)))
        ∧ (∀ k a, got = .fail k a → ∃ t, exec c s = .next t ∧ t.mem = v.mem ∧ v.othersKept t id
            ∧ tfind t.packets id = some (p.ended k (64 * i) 0 a))
        ∧ (∀ g, got = .wait g → ∃ t, exec c s = .next t ∧ t.mem = v.mem ∧ v.othersKept t id
            ∧ tfind t.packets id = some { p with waits := [g] })
        ∧ (op = 2 → p.opcode = 2 → v = s ∧ got = .ok (gOfWords (List.replicate 8 (p.word 32)))))
      ∧ (s.live id 4 = some p →
        (∀ v a d u e, s.readMem (p.src + 64 * i) = (v, .ok, a, d) → v.writeMem (p.dst + 64 * i) d (2 ^ 64 - 1) fwClass = (u, .ok, e) →
          ∃ t, exec (.migrate id 1 []) s = .next t
            ∧ (bit (p.word 56) 1 = true → t.mem = u.mem ∧ u.othersKept t id)
            ∧ (64 * (i + 1) ≠ p.bytes → ∃ x, tfind t.packets id = some x ∧ x.st = .running ∧ x.prog = i + 1 ∧ x.count = 64 * (i + 1))
            ∧ (64 * (i + 1) = p.bytes → ∃ l, tfind t.packets id = some ({ p with prog := i + 1, got := l }.ended .done p.bytes 0 0)))
        ∧ (∀ v a d, bit (p.word 56) 0 = false → s.readMem (p.src + 64 * i) = (v, .poisoned, a, d) →
          ∃ t, exec (.migrate id 1 []) s = .next t ∧ t.mem = v.mem ∧ v.othersKept t id
            ∧ tfind t.packets id = some (p.ended .poisoned (64 * i) 0 (v.failAddr (p.src + 64 * i) .poisoned)))))
    ∧ (∀ s1 q, s.live id 4 = some p → p.st = .queued → s.takeFw id 4 = some (s1, q) →
      let f := firstFail [s1.anyRegion 4096 q.src q.bytes, s1.anyRegion 4096 q.dst q.bytes]
      ∃ t, exec (.migrate id 0 []) s = .next t ∧ s.othersKept t id ∧ t.fwq = s.fwq.filter (· ≠ id) ∧ t.mem = s.mem
        ∧ (f = none → tfind t.packets id = some q ∧ q.st = .running)
        ∧ ∀ k, f = some k → tfind t.packets id = some (q.ended k 0 0 0))

/-! ## Maintenance, repair and the stack links -/

/-- R335 to R338, R504, R506, R507: a SCRUB of a range or of a pseudo-channel reads every copy of its granules, writes its summary
and ends with its counts, DONE if all could be read and written (what of a system group the stacks do not list
reads without an error: model's choice, log entry 60); a patrol pass is counted. CHECK_ARM sets up its unit unless the packet that it names has started; CHECK_READ answers
the value and the bytes of its unit and frees it when asked. -/
def Obligations.ScrubsAndChecks : Prop :=
  ∀ (s : State) (id : Nat) (s1 : State) (p : Packet), p.id = id →
    (s.takeFw id 0x03 = some (s1, p) →
      let byPc := bit (p.word 56) 0
      let sum := s1.memRegion p.tenant 4096 (p.word 48) 64
      let refused := firstFail (if byPc then [sum] else [s1.memRegion p.tenant 4096 (p.word 32) (p.word 40), sum])
      (∀ k, refused = some k →
        ∃ t, exec (.scrub id) s = .next t ∧ tfind t.packets id = some (p.ended k 0 0 0) ∧ t.mem = s.mem ∧ s.othersKept t id)
      ∧ (∀ u x st w st1 i, refused = none →
        s1.scrubList (if byPc then s1.pcPlaces (p.word 32) else s1.rangePlaces (p.word 32) (p.word 40)) (bit (p.word 56) 1)
          (bit (p.word 56) 2) = (u, x, st) → byPc = false ∨ x.ue = 0 →
        u.writeMem (p.word 48) x.granule = (w, st1, i) →
        ∃ t, exec (.scrub id) s = .next t ∧ t.mem = w.mem ∧ t.remaps = w.remaps ∧ s.othersKept t id
          ∧ tfind t.packets id = some (p.ended (ofPStatus (if st = .ok then st1 else st)) x.sectors (min x.ue (2 ^ 32 - 1))
              (if st = .ok ∧ st1 ≠ .ok then p.word 48 else x.firstUe))))
    ∧ (∀ k < 8,
      (s.fget F.scPatrolCfg_period_h [k] = 0 ∨ s.link k ≠ 3 ∨ s.i3up = false → exec (.patrolScrub k) s = .next s)
      ∧ (s.fget F.scPatrolCfg_period_h [k] ≠ 0 → s.link k = 3 → s.i3up = true → ∃ t, exec (.patrolScrub k) s = .next t
          ∧ t.fget F.scPatrolCfg_passes [k] ≠ 0 ∧ t.descs = s.descs ∧ t.packets = s.packets))
    ∧ (s.takeFw id 0x70 = some (s1, p) →
      let ctl := p.word 32
      let src := bits ctl 4 4
      let gone := src < 2 ∧ s1.checkGone p.port (bits ctl 24 2) (bits ctl 32 16) = true
      (gone → ∃ t, exec (.checkArm id) s = .next t ∧ tfind t.packets id = some (p.ended .notFound 0 0 0)
        ∧ s.only t [.regs, .packets, .fwq, .obs] ∧ s.othersKept t id ∧ ∀ k, (t.chk k).st = .armed ↔ (s.chk k).st = .armed)
      ∧ (¬ gone → ∃ t, exec (.checkArm id) s = .next t ∧ tfind t.packets id = some (p.ended .done 0 0 0)
        ∧ t.chk (bits ctl 0 4) = ⟨if src = 3 then .run else .armed, p.port, 0, ctl, p.word 40, p.word 48, p.word 48, 0,
            if src = 3 then some (bits ctl 32 25 % 32) else none⟩
        ∧ s.only t [.regs, .packets, .fwq, .obs] ∧ s.othersKept t id))
    ∧ (s.takeFw id 0x71 = some (s1, p) →
      let k := bits (p.word 32) 0 4
      ((s.chk k).st = .idle → ∃ t, exec (.checkRead id) s = .next t ∧ tfind t.packets id = some (p.ended .notFound 0 0 0)
        ∧ s.othersKept t id)
      ∧ ((s.chk k).st ≠ .idle → ∃ t, exec (.checkRead id) s = .next t ∧ s.othersKept t id
        ∧ tfind t.packets id = some (p.ended .done (s.chk k).bytes 0 (s.chk k).value)
        ∧ (bit (p.word 32) 4 = true → t.chk k = ChkUnit.init)))

/-- R324 to R328: a row whose trigger stands is copied to a reserve row of its bank and gets a remap entry; without room level 3
is next. A soft repair frees the entry and goes on record; it waits for refresh and for the maintenance port. A bank is spared into
the partner's spare area; where there is none level 4 is next. Beside the reserve row, only a sector of the row that does not decode
changes when a row is remapped. -/
def Obligations.RowsAreRemapped : Prop :=
  ∀ (s : State) (k p bank row : Nat), k < 8 → p < 64 → bank < 64 → row < 24576 → s.inService (64 * k + p) = true →
    (s.i3up = true → .row (64 * k + p) bank row ∈ s.ladder → s.remapOf (64 * k + p) bank row = none →
      (∀ i j, s.remapRoom (64 * k + p) bank row = some (i, j) → s.pcc (64 * k + p) = Pcc.init →
        ∃ t, exec (.rowRemap k p bank row) s = .next t ∧ tfind t.remaps (4096 * k + i) = some ⟨p, bank, row, j, false⟩
          ∧ (∀ x, x ≠ 4096 * k + i → tfind t.remaps x = tfind s.remaps x) ∧ .row (64 * k + p) bank row ∉ t.ladder
          ∧ (∀ c < 32, t.rawSector (64 * k + p) bank (0x5FFC + j) c
              = encodeSector (coordA (64 * k + p) bank (0x5FFC + j) c (s.epoch (64 * k + p)))
                  (s.storedBytes (64 * k + p) bank row c).isNone
                  (sectorOf ((s.storedBytes (64 * k + p) bank row c).getD [])))
          ∧ (∀ pc < 512, ∀ b < 64, ∀ r < 24576, ∀ c < 32, ¬ (pc = 64 * k + p ∧ b = bank ∧ r = 0x5FFC + j) →
              (pc = 64 * k + p ∧ b = bank ∧ r = row → (decodeSector (coordA pc b r c (s.epoch pc)) (s.rawSector pc b r c)).1 ≠ .ue) →
              t.rawSector pc b r c = s.rawSector pc b r c))
      ∧ (s.remapRoom (64 * k + p) bank row = none → ∃ t, exec (.rowRemap k p bank row) s = .next t
          ∧ .bank (64 * k + p) bank ∈ t.ladder ∧ .row (64 * k + p) bank row ∉ t.ladder ∧ t.fget F.scEccInt_remap_full [k] = 1
          ∧ s.regsBut t [Reg.scEccInt.addr [k]] ∧ s.only t [.regs, .ladder]))
    ∧ (.row (64 * k + p) bank row ∉ s.ladder ∨ s.i3up = false → exec (.rowRemap k p bank row) s = .next s)
    ∧ (∀ idx < 4096, ∀ hard spare, tfind s.remaps (4096 * k + idx) = some ⟨p, bank, row, spare, hard⟩ →
      let may := s.softLeft k p bank ≠ 0 ∧ s.debtOk k (p / 2) = true ∧ s.i3up = true
      (may → (s.askPort k 1).owns k 1 = true → ∃ t, exec (.softRepair k idx) s = .next t
        ∧ tfind t.remaps (4096 * k + idx) = none ∧ (∀ x, x ≠ 4096 * k + idx → tfind t.remaps x = tfind s.remaps x)
        ∧ t.repairsOf k = s.repairsOf k ++ [⟨p, bank, row, true, false⟩] ∧ (∀ m, m ≠ k → t.repairsOf m = s.repairsOf m)
        ∧ t.owns k 1 = false)
      ∧ (may → (s.askPort k 1).owns k 1 = false → exec (.softRepair k idx) s = .next (s.askPort k 1))
      ∧ (¬ may → exec (.softRepair k idx) s = .next s))
    ∧ (∀ idx < 4096, tfind s.remaps (4096 * k + idx) = none → exec (.softRepair k idx) s = .next s)
    ∧ (s.i3up = true → .bank (64 * k + p) bank ∈ s.ladder → s.spareOf (64 * k + p) bank = none →
      (∀ i base, s.spareRoom (64 * k + p) bank = some (i, base) → ∃ t, exec (.bankSpare k p bank) s = .next t
        ∧ tfind t.spares (2 * k + i) = some ⟨2, p, bank, base⟩ ∧ (∀ x, x ≠ 2 * k + i → tfind t.spares x = tfind s.spares x)
        ∧ t.fget F.scEccInt_spare_used [k] = 1
        ∧ ∀ e ∈ t.remaps, ¬ (e.1 / 4096 = k ∧ e.2.pc = p ∧ e.2.bank = bank))
      ∧ (s.spareRoom (64 * k + p) bank = none → exec (.bankSpare k p bank) s
          = .next ((s.dropJobs (· = .bank (64 * k + p) bank)).addJob (.retire (64 * k + p) false))))
    ∧ (s.i3up = false → exec (.bankSpare k p bank) s = .next s)

/-- R330 to R334: a retirement that the ladder forces, or that a RETIRE asks for, takes up every pseudo-channel and root group
that leaves with it; when no stack that it needs is away it ends with those pseudo-channels retired, and the RETIRE's reply
tells the bytes moved. Without auto_retire the trigger only marks the pseudo-channel. A REPAIR applies one level to the row at
its address, if its tenant may reach it; a soft repair waits for refresh and for the maintenance port. -/
def Obligations.RetirementsAndRepairs : Prop :=
  ∀ (s : State) (pc id : Nat) (s1 : State) (p : Packet), pc < 512 → p.id = id →
    (s.i3up = false → exec (.autoRetire pc) s = .next s)
    ∧ (s.i3up = true → s.inService pc = true → (s.retPend.find? fun e => e.packet.isNone && e.pcs.contains pc) = none →
      (.retire pc true ∈ s.ladder → ∃ t, exec (.autoRetire pc) s = .next t
        ∧ t.retPend = s.retPend ++ [⟨pc, s.retireSet [pc], s.rewritten (s.retireSet [pc]), none, false⟩]
        ∧ .retire pc true ∉ t.ladder ∧ t.descs = s.descs)
      ∧ (.retire pc true ∉ s.ladder → .retire pc false ∈ s.ladder → s.fget F.scEccCfg_auto_retire [pc / 64] = 0 →
        ∃ t, exec (.autoRetire pc) s = .next t ∧ t.fget F.pcEccStat_retire_due [pc / 64, pc % 64] = 1
          ∧ t.fget F.scEccInt_retire_due [pc / 64] = 1 ∧ t.obs = (s.log .retireDue (pc / 64) (pc % 64)).obs
          ∧ .retire pc false ∉ t.ladder
          ∧ s.regsBut t [Reg.pcEccStat.addr [pc / 64, pc % 64], Reg.scEccInt.addr [pc / 64], Reg.obEvrStat.addr []]
          ∧ s.only t [.regs, .obs, .ladder])
      ∧ (.retire pc true ∉ s.ladder → .retire pc false ∉ s.ladder → exec (.autoRetire pc) s = .next s))
    ∧ (∀ e, (s.retPend.find? fun x => x.packet.isNone && x.pcs.contains pc) = some e → e.noMove = true ∨ s.retireWaits e.roots = true →
      exec (.autoRetire pc) s = .next s)
    ∧ (∀ e, e.noMove = false → s.retireWaits e.roots = false → (∀ q ∈ e.pcs, q < 512) →
      (s.i3up = true → (s.retPend.find? fun x => x.packet.isNone && x.pcs.contains pc) = some e → ∃ t, exec (.autoRetire pc) s = .next t
        ∧ t.retPend = s.retPend.erase e ∧ ∀ q ∈ e.pcs, t.retired q = true)
      ∧ ((s.retPend.find? fun x => x.packet = some id) = some e → tfind s.packets id = some p → ∃ t, exec (.retire id) s = .next t
        ∧ t.retPend = s.retPend.erase e ∧ (∀ q ∈ e.pcs, t.retired q = true) ∧ ∃ x, tfind t.packets id = some x ∧ x.st = .fixed
        ∧ x.status = .done ∧ x.count % 64 = 0))
    ∧ ((s.retPend.find? fun e => e.packet = some id) = none → s.takeFw id 0x50 = some (s1, p) →
      let pcs := p.retirePcs
      let k := bits (p.word 32) 0 3
      let bad := s1.stackUp k = false ∨ (∃ q ∈ pcs, s1.retired q = true) ∨ ∃ e ∈ s1.retPend, ∃ q ∈ e.pcs, q ∈ pcs
      (bad → ∃ t, exec (.retire id) s = .next t ∧ tfind t.packets id = some (p.ended .malformed 0 0 0) ∧ s.othersKept t id
        ∧ t.retPend = s.retPend)
      ∧ (¬ bad → s1.usable k < 18 + pcs.length → ∃ t, exec (.retire id) s = .next t
        ∧ tfind t.packets id = some (p.ended .noSpace 0 0 0) ∧ s.othersKept t id ∧ t.retPend = s.retPend)
      ∧ (¬ bad → 18 + pcs.length ≤ s1.usable k → ∃ t, exec (.retire id) s = .next t ∧ tfind t.packets id = some p
        ∧ t.retPend = s.retPend ++ [⟨(pcs[0]?).getD 0, s.retireSet pcs, s.rewritten (s.retireSet pcs), some id, false⟩]))
    ∧ (s.takeFw id 0x51 = some (s1, p) →
      let a := p.word 32 / 64 * 64
      let refused := s1.memRegion p.tenant 2 a 64
      (∀ k, refused = some k → ∃ t, exec (.repair id) s = .next t ∧ tfind t.packets id = some (p.ended k 0 0 0)
        ∧ s.othersKept t id ∧ t.mem = s.mem)
      ∧ (refused = none → s1.homePlace a = none → ∃ t, exec (.repair id) s = .next t
        ∧ tfind t.packets id = some (p.ended .malformed 0 0 0) ∧ s.othersKept t id ∧ t.mem = s.mem)
      ∧ ∀ pl, refused = none → s1.homePlace a = some pl →
        (∀ st, s1.pcDown pl.pc = some st → ∃ t, exec (.repair id) s = .next t
          ∧ tfind t.packets id = some (p.ended (ofPStatus st) 0 0 (p.word 32)) ∧ s.othersKept t id ∧ t.mem = s.mem)
        ∧ (s1.pcDown pl.pc = none →
          let level := if p.word 40 = 0 then s1.levelOf pl.pc pl.bank pl.row + 1 else p.word 40
          let got := if s1.inService pl.pc then s1.repairRow pl.pc pl.bank pl.row level else none
          let asked := s1.askPort (pl.pc / 64) 1
          (∀ u, got = some u → level ≠ 2 → ∃ t, exec (.repair id) s = .next t
            ∧ tfind t.packets id = some (p.ended .done 0 level (p.word 32)) ∧ t.remaps = u.remaps ∧ t.mem = u.mem
            ∧ t.spares = u.spares ∧ t.repairs = u.repairs)
          ∧ (got.isSome → level = 2 → s1.repairWaits pl = true → ∃ t, exec (.repair id) s = .next t
            ∧ tfind t.packets id = tfind s.packets id ∧ t.mem = s.mem ∧ s.only t [.regs, .arbs])
          ∧ (∀ u, got.isSome → level = 2 → s1.repairWaits pl = false → asked.repairRow pl.pc pl.bank pl.row 2 = some u →
            ∃ t, exec (.repair id) s = .next t ∧ tfind t.packets id = some (p.ended .done 0 level (p.word 32))
              ∧ t.remaps = u.remaps ∧ t.mem = u.mem ∧ t.repairs = u.repairs ∧ t.owns (pl.pc / 64) 1 = false)
          ∧ (got = none → ∃ t, exec (.repair id) s = .next t
            ∧ tfind t.packets id = some (p.ended .noSpace 0 level (p.word 32)) ∧ s.othersKept t id ∧ t.mem = s.mem)))

/-- R244, R245, R309: a stack reset takes the stack out of service at once: its queues are empty, the reset is counted with its cause,
and its training is due when its time is over. Another stack keeps its state, and no stored sector changes, unless a gather ends with
undefined bytes. When the training finds the stack good, its write epochs advance and every sector of it becomes poison; the return
goes in stages, each with its time (log entry 10). -/
def Obligations.StacksReset : Prop :=
  ∀ (s : State) (k : Nat), k < 8 →
    (∀ cause rep c, (c = Instr.sreset k rep ∧ cause = 1) ∨
        (c = Instr.clockLoss k rep ∧ cause = 2 ∧ (s.link k = 1 ∨ s.link k = 2 ∨ s.link k = 3)) →
      ∃ t, exec c s = .next t ∧ t.link k = 2 ∧ t.fget F.scLinkStat_cause [k] = cause ∧ t.fget F.pkInt_stack_off = 1
        ∧ (trising s.regs = true → t.fget F.scLinkStat_resets [k] = min (s.fget F.scLinkStat_resets [k] + 1) 65535)
        ∧ t.keys = s.keys ∧ (∃ due, tfind t.returns k = some ⟨due, rep, none, false⟩)
        ∧ ((∀ e ∈ s.packets, e.2.opcode ≠ 0x33) →
          tfind t.returns k = some ⟨s.clk.now + (2 + rep.trainUs) * tickUs, rep, none, false⟩
          ∧ (∀ i < 64, (t.pcc (64 * k + i)).rq = [] ∧ (t.pcc (64 * k + i)).wq = [] ∧ (t.pcc (64 * k + i)).mb = []
              ∧ (t.pcc (64 * k + i)).ret = [])
          ∧ (∀ j < 8, j ≠ k → t.link j = s.link j) ∧ t.mem = s.mem ∧ t.clk = s.clk))
    ∧ (∀ rep, s.link k ≠ 1 → s.link k ≠ 2 → s.link k ≠ 3 → exec (.clockLoss k rep) s = .next s)
    ∧ (∀ r u pcs, tfind s.returns k = some r → r.fill = none → s.train k r.rep = (u, some pcs) →
        let t := s.returnStack k
        tfind t.returns k = some ⟨u.clk.now + u.fillTicks, r.rep, some pcs, false⟩ ∧ t.pending = s.pending
        ∧ (∀ i < 64, t.epoch (64 * k + i) = (u.epoch (64 * k + i) + 1) % 16)
        ∧ (∀ i < 64, ∀ b < 64, ∀ row < 24576, ∀ c < 32, (decodeSector (coordA (64 * k + i) b row c
            (t.epoch (64 * k + i))) (t.rawSector (64 * k + i) b row c)).1 = .poison)
        ∧ ∀ c ∈ u.mem, c.1 / 64 / (24576 * 64 * 32) / 64 ≠ k → c ∈ t.mem)
    ∧ (∀ r u, tfind s.returns k = some r → r.fill = none → s.train k r.rep = (u, none) →
        s.returnStack k = { u with returns := tdel u.returns k })
    ∧ ∀ r pcs, tfind s.returns k = some r → r.fill = some pcs → r.copying = false → s.returnStack k = { s with
        returns := tset s.returns k ⟨s.clk.now + (if s.stackUp ((k + 4) % 8) then s.copyTicks k else 0), r.rep, some pcs, true⟩ }

/-- R228, R236 to R239, R241: the sixteenth parity error of a channel in a millisecond makes it due; a due channel's pass runs in its
turn when refreshes and urgent requests let it, or at the end of its deferral whatever is queued, with the maintenance port held (what
counts as its turn beside a deferred channel is the model's choice, log entry 70); it restarts the channel's period and asks for the repair of a bad lane. A lane repair writes both sides in three steps; a second lane
out in a group sends the channel's pseudo-channels to level 4. -/
def Obligations.ChannelsAreTrained : Prop :=
  ∀ (s : State) (k c : Nat), k < 8 → c < 32 →
    (let l := s.linkOf k
     let recent := (tget [] l.parity c).filter fun a => decide (s.clk.now < a + 1000 * tickUs)
     (s.stackUp k = true → recent.length < 15 →
        exec (.caParityError k c) s = .next (s.setLinkOf k { l with parity := tput [] l.parity c (s.clk.now :: recent) }))
     ∧ (s.stackUp k = true → 15 ≤ recent.length → ∃ t, exec (.caParityError k c) s = .next t ∧ bit (t.linkOf k).due c = true
        ∧ bit (t.linkOf k).parityDue c = true ∧ tget [] (t.linkOf k).parity c = []
        ∧ (∀ d, d ≠ c → bit (t.linkOf k).due d = bit l.due d) ∧ (∀ j, j ≠ k → t.linkOf j = s.linkOf j) ∧ s.only t [.links])
     ∧ (s.stackUp k = false → exec (.caParityError k c) s = .next s))
    ∧ (let late := s.setLinkOf k { s.linkOf k with expired := setBits (s.linkOf k).expired c 1 1 }
       let waits := s.link k = 3 ∧ (s.channelDue k c = true ∨ s.retrainWaits k = true)
       (∀ cmd v bad, (cmd = .retrainPass k c bad ∧ v = s) ∨ (cmd = .retrainDeferExpire k c ∧ bad = none ∧ waits ∧ v = late) →
         (v.passMay k c = true → v.passReady k c = true → (v.askPort k 1).owns k 1 = true → ∃ t, exec cmd s = .next t
           ∧ bit (t.linkOf k).due c = false ∧ bit (t.linkOf k).parityDue c = false ∧ bit (t.linkOf k).expired c = false
           ∧ tget 0 (t.linkOf k).dueAt c = s.clk.now + s.passPeriod k ∧ (t.linkOf k).lastPass = some s.clk.now
           ∧ tget 0 (t.linkOf k).passTemp c = s.stackTemp k
           ∧ (∀ g x, bad = some (g, x) → laneOk g x = true → .lane k c g x ∈ t.ladder)
           ∧ ((∀ g x, bad = some (g, x) → laneOk g x = false) → t.ladder = s.ladder)
           ∧ (∀ j, j ≠ k → t.linkOf j = s.linkOf j) ∧ t.owns k 1 = false ∧ s.only t [.regs, .ladder, .links, .obs, .arbs])
         ∧ (v.passMay k c = true → v.passReady k c = true → (v.askPort k 1).owns k 1 = false → exec cmd s = .next (v.askPort k 1))
         ∧ (v.passMay k c = false ∨ v.passReady k c = false → exec cmd s = .next v))
       ∧ (¬ waits → exec (.retrainDeferExpire k c) s = .next s)
       ∧ late.passReady k c = s.debtOk k c)
    ∧ ∀ g lane, g < 9 → lane < (if g = 8 then 11 else 10) →
      let may := .lane k c g lane ∈ s.ladder ∧ s.link k = 3 ∧ s.debtOk k c = true ∧ s.i3up = true
      (¬ may → ∀ n, exec (.laneRepair k c g lane n) s = .next s)
      ∧ (may → (s.askPort k 1).owns k 1 = false → ∀ n, exec (.laneRepair k c g lane n) s = .next (s.askPort k 1))
      ∧ (may → (s.askPort k 1).owns k 1 = true → s.channelPcs k c ≠ [] →
        (laneOut (s.devLanes k c) g = 15 →
          (∃ t, exec (.laneRepair k c g lane 3) s = .next t ∧ laneOut (t.devLanes k c) g = lane ∧ t.stackLanes k c = t.devLanes k c
            ∧ laneEpoch (t.devLanes k c) = nextLaneEpoch (laneEpoch (s.devLanes k c)) (laneEpoch (s.stackLanes k c))
            ∧ laneEpoch (t.devLanes k c) ≠ 0 ∧ (∀ h < 9, h ≠ g → laneOut (t.devLanes k c) h = laneOut (s.devLanes k c) h)
            ∧ .lane k c g lane ∉ t.ladder ∧ (∀ j, j ≠ 32 * k + c → tfind t.laneMaps j = tfind s.laneMaps j))
          ∧ (∃ t, exec (.laneRepair k c g lane 1) s = .next t ∧ laneEpoch (t.devLanes k c) = 0 ∧ t.stackLanes k c = s.stackLanes k c
            ∧ .lane k c g lane ∈ t.ladder)
          ∧ ∃ t, exec (.laneRepair k c g lane 2) s = .next t ∧ laneEpoch (t.devLanes k c) = 0
            ∧ laneOut (t.stackLanes k c) g = lane ∧ .lane k c g lane ∈ t.ladder)
        ∧ (laneOut (s.devLanes k c) g ≠ 15 → laneOut (s.devLanes k c) g ≠ lane → ∀ n, ∃ t,
            exec (.laneRepair k c g lane n) s = .next t ∧ .lane k c g lane ∉ t.ladder
            ∧ (∀ pc ∈ s.channelPcs k c, .retire pc true ∈ t.ladder) ∧ s.only t [.regs, .ladder, .obs, .arbs]))

/-- R249 to R251, R288 to R291: RETRAIN runs a pass on the channels of its scope, with a lane test and repair where it asks for one,
and waits until they may run; an idle stack enters self-refresh and leaves it for a request or for the debug port, after its shortest
stay; OPPOINT changes the operating point while everything stands still (how its stall divides is free, log entry 1), every serving stack is ONLINE after it, and one in training
is ready to go on with the stall's end. -/
def Obligations.LinkModes : Prop :=
  ∀ (s : State) (k id n : Nat) (s1 : State) (p : Packet), k < 8 → p.id = id →
    (let held := ∃ j, (s.arb k).owner = some j ∧ j ≠ 0
     let may := s.fget F.scSrefCfg_en [k] = 1 ∧ s.link k = 3 ∧ s.quiet k = true ∧ ¬ held
     (may → s.waitsFor k = false → ∃ t, exec (.srefEntry k) s = .next t ∧ t.link k = 4 ∧ (t.linkOf k).srefAt = s.clk.now
        ∧ (t.linkOf k).due = 0 ∧ (t.linkOf k).parityDue = 0 ∧ (t.linkOf k).srefTemp = s.stackTemp k
        ∧ t.fget F.scSrefStat_entries [k] = min (s.fget F.scSrefStat_entries [k] + 1) (2 ^ 32 - 1)
        ∧ (∀ i < 64, ∀ b, (tget Bank.init (t.pcc (64 * k + i)).banks b).row = none) ∧ (∀ j, j ≠ k → t.linkOf j = s.linkOf j)
        ∧ s.only t [.regs, .pccs, .links])
     ∧ (may → s.waitsFor k = true → ∃ t, exec (.srefEntry k) s = .next t ∧ t.link k = 3
        ∧ t.fget F.scSrefStat_cancels [k] = min (s.fget F.scSrefStat_cancels [k] + 1) 65535 ∧ s.only t [.regs, .pccs])
     ∧ (¬ may → exec (.srefEntry k) s = .next s))
    ∧ (let wanted := s.link k = 4 ∧ (s.waitsFor k = true ∨ s.debugWants k = true)
       let held := s.srefDrift k = true ∧ (s.askPort k 1).owns k 1 = false
       (wanted → ¬ held → ∃ t, exec (.srefExit k) s = .next t ∧ t.link k = 3
        ∧ (s.fget F.glOpStat_op = 0 → t.clk.now = max s.clk.now ((s.linkOf k).srefAt + 1650 * 6) + 660 * 6)
        ∧ (s.fget F.glOpStat_op = 1 → t.clk.now = max s.clk.now ((s.linkOf k).srefAt + 1238 * 8) + 496 * 8)
        ∧ (s.srefDrift k = true → s.owns k 1 = true → t.fget F.scSrefStat_retrains [k] ≠ 0)
        ∧ (s.srefDrift k = false → t.fget F.scSrefStat_retrains [k] = s.fget F.scSrefStat_retrains [k])
        ∧ s.only t [.clk, .regs, .pccs, .links, .obs, .arbs])
       ∧ (wanted → held → exec (.srefExit k) s = .next (s.askPort k 1))
       ∧ (¬ wanted → exec (.srefExit k) s = .next s))
    ∧ (∀ bad, s.takeFw id 0x52 = some (s1, p) →
      let w := p.word 32
      let st := bits w 0 3
      let v := s.wake st
      let cs := v.retrainChans st w
      (s1.stackUp st = false → ∃ t, exec (.retrain id ⟨n, bad⟩) s = .next t
        ∧ tfind t.packets id = some (p.ended .unavailable 0 0 0) ∧ s.othersKept t id ∧ t.links = s.links)
      ∧ (s1.stackUp st = true → cs = [] → ∃ t, exec (.retrain id ⟨n, bad⟩) s = .next t
        ∧ tfind t.packets id = some (p.ended .done 0 0 0) ∧ s.othersKept t id)
      ∧ (s1.stackUp st = true → (∃ c ∈ cs, v.passReady st c = false) → exec (.retrain id ⟨n, bad⟩) s = .next v)
      ∧ (s1.stackUp st = true → cs ≠ [] → (∀ c ∈ cs, v.passReady st c = true) → (v.askPort st 1).owns st 1 = false →
          exec (.retrain id ⟨n, bad⟩) s = .next (v.askPort st 1))
      ∧ (s1.link st = 3 → cs ≠ [] → (∀ c ∈ cs, v.passReady st c = true) → (v.askPort st 1).owns st 1 = true →
        ∃ t, exec (.retrain id ⟨n, bad⟩) s = .next t ∧ tfind t.packets id = some (p.ended .done cs.length n 0) ∧ s.othersKept t id
          ∧ (∀ c ∈ cs, bit (t.linkOf st).parityDue c = false ∧ bit (t.linkOf st).due c = false
              ∧ tget 0 (t.linkOf st).dueAt c = s.clk.now + s.passPeriod st ∧ tget 0 (t.linkOf st).passTemp c = s.stackTemp st)
          ∧ (∀ j, j ≠ st → t.linkOf j = s.linkOf j)
          ∧ ∀ c g x, bits w 4 2 = 2 → c ∈ cs → bad = [(g, x)] → laneOk g x = true → laneOut (s.devLanes st c) g = 15 →
              (∀ g' x', .lane st c g' x' ∉ s.ladder) → laneOut (t.devLanes st c) g = x))
    ∧ (s.takeFw id 0x53 = some (s1, p) →
      let op := bits (p.word 32) 0 1
      (op = s.fget F.glOpStat_op → ∃ t, exec (.oppoint id n) s = .next t ∧ tfind t.packets id = some (p.ended .done 0 0 0)
        ∧ t.clk = s.clk ∧ s.othersKept t id)
      ∧ (op ≠ s.fget F.glOpStat_op → op = 0 → (∃ j < 8, s.link j ≠ 0 ∧ s.fget F.scStackId_qual_op0 [j] = 0) →
        ∃ t, exec (.oppoint id n) s = .next t ∧ tfind t.packets id = some (p.ended .malformed 0 0 0) ∧ t.clk = s.clk
          ∧ t.fget F.glOpStat_op = s.fget F.glOpStat_op)
      ∧ (op ≠ s.fget F.glOpStat_op → (op = 0 → ∀ j < 8, s.link j = 0 ∨ s.fget F.scStackId_qual_op0 [j] ≠ 0) →
        ∃ t, exec (.oppoint id n) s = .next t ∧ tfind t.packets id = some (p.ended .done 0 n 0) ∧ s.othersKept t id
          ∧ t.fget F.glOpStat_op = op ∧ t.fget F.glOpStat_last_stall_ns = min n (2 ^ 32 - 1) ∧ t.fget F.glOpStat_changes ≠ 0
          ∧ t.clk.now = s.clk.now + n * 33 / 5 ∧ (∀ j < 8, s.stackUp j = true → t.link j = 3)
          ∧ ∀ j < 8, ∀ r, tfind s.returns j = some r → r.fill = none → tfind t.returns j = some { r with due := t.clk.now }))

/-! ## The map registers and snapshots -/

/-- R293, R294, R530: a descriptor that passes its check is staged under its number; the map comes into force when every check
passes and is then copied into the NVM store, and a failing one is reported and changes nothing in force; with BT_LOCK set neither happens. BT_LOCK takes hold only of
an applied map. R182, R224, R293, R343, R389: a snapshot copies one entry of its table into the data registers of the path that
asked, and of no other path. A path that may not write does nothing; the management chain waits while interpreter 3 reloads (R96).
A segment whose directory quarter is out of reach gives free values. -/
def Obligations.MapIsApplied : Prop :=
  (∀ (s : State) (path : Nat), path < 3 → s.pathOk path true = true →
    (let idx := bits (s.pget path .glMapSel []).toNat 0 12
     (s.locked = false → 8 ≤ idx → s.fget F.glMapCtl_applied = 0 →
       ((s.staged path).check1 = true → exec (.mapDescWrite path) s = .next (s.setDesc idx (s.staged path)))
       ∧ ((s.staged path).check1 = false → ∃ t, exec (.mapDescWrite path) s = .next t ∧ t.fget F.glMapErr_desc_err = 1
           ∧ (s.fget F.glMapErr_desc_err = 0 → s.fget F.glMapErr_tree_err = 0 →
               t.fget F.glMapErr_first_idx = idx ∧ t.fget F.glMapErr_first_check = 1)
           ∧ s.regsBut t [Reg.glMapErr.addr []] ∧ s.only t [.regs]))
     ∧ (s.locked = false → idx < 8 ∨ s.fget F.glMapCtl_applied = 1 → ∃ t, exec (.mapDescWrite path) s = .next t
         ∧ t.fget F.glMapErr_desc_err = 1 ∧ s.regsBut t [Reg.glMapErr.addr []] ∧ s.only t [.regs])
     ∧ (s.locked = true → ∃ t, exec (.mapDescWrite path) s = .next t ∧ t.fget F.glRegErr_lock_viol = 1
         ∧ s.regsBut t [Reg.glRegErr.addr []] ∧ s.only t [.regs, .free]))
    ∧ (s.locked = false → s.stripRetired.mapFail = none → ∃ t, exec (.mapApply path) s = .next t
        ∧ t.fget F.glMapCtl_applied = 1 ∧ t.descs = s.stripRetired.descs
        ∧ t.mapCopy = some (t.descs.filter fun e => decide (8 ≤ e.1)) ∧ s.only t [.regs, .descs, .obs, .mapCopy])
    ∧ (s.locked = false → ∀ idx check, s.stripRetired.mapFail = some (idx, check) → ∃ t, exec (.mapApply path) s = .next t
        ∧ t.fget F.glMapErr_tree_err = 1 ∧ t.fget F.glMapCtl_applied = s.fget F.glMapCtl_applied ∧ s.only t [.regs, .descs, .obs])
    ∧ (s.locked = true → exec (.mapApply path) s = .next s)
    ∧ (s.locked = false → s.fget F.glMapCtl_applied ≠ 0 → ∃ t, exec (.btLockSet path) s = .next t ∧ t.locked = true
        ∧ s.regsBut t [Reg.btLock.addr []] ∧ s.only t [.regs])
    ∧ (s.locked = false → s.fget F.glMapCtl_applied = 0 → ∃ t, exec (.btLockSet path) s = .next t ∧ t.locked = false
        ∧ t.fget F.btErr_early_lock = 1 ∧ s.only t [.regs]))
  ∧ (∀ (s : State) (path : Nat) (c q : Instr), path < 3 → s.pathOk path true = false →
    (c = .btLockSet path ∧ q = .registerWrite 1 (Reg.btLock.addr []) 8 1)
      ∨ (c = q ∧ (c = .mapDescWrite path ∨ c = .mapApply path ∨ (∃ x < 4096, c = .mapSnapshot path x)
        ∨ (∃ x < 262144, c = .grSnapshot path x) ∨ (∃ x < 2 ^ 25, c = .dirSnapshot path x)
        ∨ ∃ k < 8, ∃ x < 4096, c = .remapSnapshot path k x)) →
    (path = 1 → s.cut = false → exec c s = .next { s with mgmtQ := s.mgmtQ ++ [q] })
    ∧ (path ≠ 1 ∨ s.cut = true → exec c s = .next s))
  ∧ (∀ (s : State) (path : Nat), path < 3 → s.pathOk path true = true →
    (∀ idx < 4096, ∃ t, exec (.mapSnapshot path idx) s = .next t ∧ t.pget path .glMapSel [] = BitVec.ofNat 64 idx
      ∧ t.staged path = s.desc idx
      ∧ (∀ a < 2 ^ 24, ∀ q, q ≠ path → tfind t.pregs (2 ^ 24 * q + a) = tfind s.pregs (2 ^ 24 * q + a)) ∧ s.only t [.pregs])
    ∧ (∀ id < 262144, ∃ t, exec (.grSnapshot path id) s = .next t ∧ t.pget path .lgGrSel [] = BitVec.ofNat 64 id
      ∧ (∀ i < 4, t.pget path .lgGrData [i]
          = BitVec.ofNat 64 ((((s.stream id).map Stream.words).getD [0, 0, 0, 0])[i]?.getD 0))
      ∧ (∀ a < 2 ^ 24, ∀ q, q ≠ path → tfind t.pregs (2 ^ 24 * q + a) = tfind s.pregs (2 ^ 24 * q + a)) ∧ s.only t [.pregs])
    ∧ (∀ seg < 2 ^ 25, ∃ t, exec (.dirSnapshot path seg) s = .next t ∧ t.pget path .trDirSel [] = BitVec.ofNat 64 seg
      ∧ (s.dirDown seg = false → t.free = s.free ∧ t.pget path .trDirData [0] = BitVec.ofNat 64 (s.seg seg).words.1
          ∧ t.pget path .trDirData [1] = BitVec.ofNat 64 (s.seg seg).words.2)
      ∧ (s.dirDown seg = true → t.free = s.free + 2)
      ∧ (∀ a < 2 ^ 24, ∀ q, q ≠ path → tfind t.pregs (2 ^ 24 * q + a) = tfind s.pregs (2 ^ 24 * q + a))
      ∧ s.only t [.pregs, .free])
    ∧ (∀ k < 8, ∀ idx < 4096, ∃ t, exec (.remapSnapshot path k idx) s = .next t
      ∧ t.pget path .scRemapSel [k] = BitVec.ofNat 64 idx
      ∧ (∀ e, tfind s.remaps (4096 * k + idx) = some e → e.pc < 64 → e.bank < 64 → e.row < 24576 → e.spare < 4 →
          let w := (t.pget path .scRemapData [k]).toNat
          bit w 0 = true ∧ bits w 2 6 = e.pc ∧ bits w 8 6 = e.bank ∧ bits w 14 15 = e.row ∧ bits w 29 2 = e.spare ∧ bit w 31 = e.hard)
      ∧ (tfind s.remaps (4096 * k + idx) = none → t.pget path .scRemapData [k] = 0)
      ∧ (∀ a < 2 ^ 24, ∀ q, q ≠ path → tfind t.pregs (2 ^ 24 * q + a) = tfind s.pregs (2 ^ 24 * q + a)) ∧ s.only t [.pregs]))

/-! ## Streams, tensors and recipes -/

/-- R79, R148, R155 to R163, R177: STREAM_OPEN gives the lowest free stream a root and a directory page, the lowest frames
that are free (model's choice, log entry 19); STREAM_APPEND moves its
tokens and the length, or the pending layers; STREAM_EVICT turns whole pages into holes; STREAM_CLOSE frees every frame of the
stream once what runs on it has replied, and those of a stream whose directory is lost belong to none; the walk after a loss ends. A stream that no command names keeps its entry. -/
def Obligations.StreamsLive : Prop :=
  ∀ (s : State) (id : Nat) (s1 : State) (p : Packet), p.id = id →
    (s.takeFw id 0x10 = some (s1, p) →
      let sid := firstGap s.streams 0
      (s.fget F.lgMetaCfg_en = 0 → ∃ t, exec (.streamOpen id) s = .next t ∧ tfind t.packets id = some (p.ended .denied 0 0 0)
        ∧ t.streams = s.streams ∧ s.othersKept t id)
      ∧ (s.fget F.lgMetaCfg_en = 1 → 262144 ≤ sid → ∃ t, exec (.streamOpen id) s = .next t
        ∧ tfind t.packets id = some (p.ended .noSpace 0 0 0) ∧ t.streams = s.streams ∧ s.othersKept t id)
      ∧ (s.fget F.lgMetaCfg_en = 1 → sid < 262144 →
          (s1.takeMeta sid = none ∨ ∃ s2 r, s1.takeMeta sid = some (s2, r) ∧ s2.takeMeta sid = none) → ∃ t, exec (.streamOpen id) s = .next t
        ∧ tfind t.packets id = some (p.ended .noSpace 0 0 0) ∧ t.fget F.lgErr_meta_empty = 1 ∧ t.streams = s.streams)
      ∧ ∀ s2 s3 s4 root page i, s.fget F.lgMetaCfg_en = 1 → sid < 262144 → s1.takeMeta sid = some (s2, root) →
        s2.takeMeta sid = some (s3, page) →
        ((s3.clearMeta root).clearMeta page).writePool (s.lgDesc metaPool) (lgFrame * root) 8 (page + 2 ^ 63) = (s4, .ok, i) →
        ∃ t, exec (.streamOpen id) s = .next t ∧ tfind t.packets id = some (p.ended .done 0 sid 0)
          ∧ tfind t.streams sid = some ⟨.opened, p.tenant, 0, 0, 0, bits (p.word 32) 0 48,
              tppFor (64 * (bits (bits (p.word 32) 0 48) 26 6 + 1)), root, bits (p.word 40) 0 24, 0, 0, 0, []⟩
          ∧ (∀ x, x ≠ sid → tfind t.streams x = tfind s.streams x) ∧ t.mem = s4.mem
          ∧ tfind t.lgUsed (2 ^ 20 * 8 + root) = some (sid + 1) ∧ tfind t.lgUsed (2 ^ 20 * 8 + page) = some (sid + 1))
    ∧ (∀ p0 st, s.live id 0x11 = some p0 → s.takeFast id 0x11 = some (s1, p) → s.streamBusy p0 [0x11] = false → s.evicting p0 = false →
      (∀ k, s1.streamRefused p = some k → ∃ t, exec (.streamAppend id) s = .next t ∧ tfind t.packets id = some (p.ended k 0 0 0)
        ∧ t.streams = s.streams ∧ t.mem = s.mem ∧ s.othersKept t id)
      ∧ (s1.streamRefused p = none → s1.stream p.target = some st →
        let n := bits (p.word 32) 0 15 + 1
        let lay0 := bits (p.word 32) 16 8
        let nlay := bits (p.word 32) 24 8 + 1
        let t0 := bits (p.word 48) 0 24
        let cells := (List.range nlay).flatMap fun i => (pagesOf st.tpp t0 n).map fun q => (i, q)
        let full := fun (q : Nat) => decide ((q + 1) * st.tpp ≤ t0 + n)
        (∀ k, s1.memRegion p.tenant 4096 (p.word 40) (n * nlay * st.recBytes) = some k → ∃ t, exec (.streamAppend id) s = .next t
          ∧ tfind t.packets id = some (p.ended k 0 0 0) ∧ t.streams = s.streams ∧ t.mem = s.mem)
        ∧ (s1.memRegion p.tenant 4096 (p.word 40) (n * nlay * st.recBytes) = none →
        (∀ k, st.appendRefused t0 n lay0 nlay = some k → ∃ t, exec (.streamAppend id) s = .next t
          ∧ tfind t.packets id = some (p.ended k 0 0 0) ∧ t.streams = s.streams ∧ t.mem = s.mem)
        ∧ (st.appendRefused t0 n lay0 nlay = none → ∀ s2 s3 e,
          runApp s1 (cells.map fun c u => u.prepPage p.target c.2 (lay0 + c.1) (full c.2)) = .ok s2 →
          runApp s2 ((cells.map fun c u => u.fillPage p.target c.2 (lay0 + c.1) t0 n (p.word 40 + c.1 * n * st.recBytes))
            ++ ((cells.filter fun c => full c.2).map fun c u => u.sumPage p.target c.2 (lay0 + c.1))
            ++ (cells.filter fun c => full c.2).map fun c u => u.sumMark p.target c.2 (lay0 + c.1)) = .ok s3 →
          s3.stream p.target = some e →
          ∃ t, exec (.streamAppend id) s = .next t ∧ tfind t.packets id = some (p.ended .done n 0 0) ∧ t.mem = s3.mem
            ∧ tfind t.streams p.target = some (if lay0 + nlay = st.nlayers then
                { e with length := e.length + n, pendLayer := 0, pendN := 0 } else { e with pendLayer := lay0 + nlay, pendN := n })
            ∧ ∀ x, x ≠ p.target → tfind t.streams x = tfind s.streams x))))
    ∧ (∀ st, s.live id 0x12 = some p → p.st = .running → s.stream p.target = some st → st.st ≠ .metaLost →
      (s.streamBusy p [0x11, 0x20, 0x21] = false → ∃ t, exec (.streamClose id) s = .next t ∧ tfind t.streams p.target = none
        ∧ tfind t.packets id = some (p.ended (if p.status = .abortedPort then .abortedPort else .done) (s.pagesHeld p.target) 0 0)
        ∧ (∀ e ∈ t.lgUsed, e.2 ≠ p.target + 1) ∧ s.othersKept t id)
      ∧ (s.streamBusy p [0x11, 0x20, 0x21] = true → exec (.streamClose id) s = .next s))
    ∧ (∀ st, s.takeFw id 0x12 = some (s1, p) → s1.streamRefused p = none → s1.stream p.target = some st → st.st = .metaLost →
        p.status ≠ .abortedPort → ∃ t, exec (.streamClose id) s = .next t ∧ tfind t.streams p.target = none
        ∧ tfind t.packets id = some (p.ended .done 0 0 0) ∧ t.lgUsed.length = s.lgUsed.length
        ∧ (∀ e ∈ t.lgUsed, e.2 ≠ p.target + 1) ∧ t.mem = s.mem)
    ∧ (∀ st, s.takeFw id 0x12 = some (s1, p) → s1.streamRefused p = none → s1.stream p.target = some st → st.st ≠ .metaLost →
        p.status ≠ .abortedPort →
      (s.streamBusy p [0x11, 0x20, 0x21] = false → ∃ t, exec (.streamClose id) s = .next t ∧ tfind t.streams p.target = none
        ∧ (∀ e ∈ t.lgUsed, e.2 ≠ p.target + 1) ∧ (∀ e ∈ t.lgSums, e.2 ≠ p.target + 1)
        ∧ tfind t.packets id = some (p.ended .done (s.pagesHeld p.target) 0 0) ∧ s.othersKept t id ∧ t.mem = s.mem
        ∧ ∀ x, x ≠ p.target → tfind t.streams x = tfind s.streams x)
      ∧ (s.streamBusy p [0x11, 0x20, 0x21] = true → ∃ t, exec (.streamClose id) s = .next t
        ∧ tfind t.streams p.target = some { st with st := .closing } ∧ tfind t.packets id = some p ∧ t.lgUsed = s.lgUsed))
    ∧ (∀ st, s.takeFw id 0x13 = some (s1, p) → s1.streamRefused p = none → s1.stream p.target = some st →
      let t0 := bits (p.word 32) 0 24
      let t1 := bits (p.word 40) 0 24
      let ok := t0 % st.tpp = 0 ∧ t1 % st.tpp = 0 ∧ t0 < t1 ∧ t1 ≤ st.length / st.tpp * st.tpp
      (¬ ok → ∃ t, exec (.streamEvict id) s = .next t ∧ tfind t.packets id = some (p.ended .malformed 0 0 0)
        ∧ t.streams = s.streams ∧ t.mem = s.mem)
      ∧ (ok → s1.streamBusy p [0x11, 0x20, 0x21] = true → exec (.streamEvict id) s = .next s1)
      ∧ (ok → s1.streamBusy p [0x11, 0x20, 0x21] = false → ∀ s2 c,
        ((pagesOf st.tpp t0 (t1 - t0)).flatMap fun q => (List.range st.nlayers).map fun l => (q, l)).foldl
          (fun (a : State × Nat × Option PStatus) e =>
            match a.2.2 with
            | some _ => a
            | none => let (u, k, b) := a.1.evictOne p.target e.1 e.2; (u, a.2.1 + k, b)) (s1, 0, none) = (s2, c, none) →
        ∃ t, exec (.streamEvict id) s = .next t ∧ tfind t.packets id = some (p.ended .done c 0 0) ∧ t.mem = s2.mem
          ∧ t.lgUsed = s2.lgUsed ∧ ∀ x, x ≠ p.target → tfind t.streams x = tfind s.streams x))
    ∧ ∀ k < 8, (k ∉ s.lgWalk → exec (.lossWalk k) s = .next s)
      ∧ (k ∈ s.lgWalk → ∃ t, exec (.lossWalk k) s = .next t ∧ k ∉ t.lgWalk ∧ (∀ j, j ≠ k → (j ∈ t.lgWalk ↔ j ∈ s.lgWalk))
        ∧ ∀ x, x ∉ s.streamsOn k 0 → tfind t.streams x = tfind s.streams x)

/-- R164 to R176: an ATTN_PARTIAL that passes its checks, over a range of tokens or over a list of pages, has the blocks of its pages
dealt to the clusters, and a block folded into the engine that receives it, on the lowest free core of its cluster
(model's choice, log entry 69); the last block ends the packet. ATTN_SELECT writes the
list of the pages that it forces and selects, and its counts, and a chained one goes on with those pages; ATTN_MERGE combines the
tuples of each head and tells how many it merged and wrote. -/
def Obligations.AttentionRuns : Prop :=
  ∀ (s : State) (id : Nat) (s1 : State) (p : Packet) (st : Stream), p.id = id →
    (s.takeAttn id 0x20 = some (s1, p) → s1.stream p.target = some st → s1.streamRefused p = none →
      let a := p.partialPrm
      let t0 := bits (p.word 64) 0 23
      let t1 := bits (p.word 64) 32 24
      let la := p.word 64
      let isList := bit (p.word 32) 14
      let checks := [if a.fits st && (isList || decide (t1 ≤ st.bound a.layer)) then none else some .malformed,
        s1.memRegion p.tenant 4096 (p.word 48) (a.heads * st.dk * 2),
        s1.memRegion p.tenant 4096 (p.word 56) (8 * a.ppc * a.heads * tupleBytes st.dv),
        if isList then s1.memRegion p.tenant 4096 la 64 else none]
      (∀ k, firstFail checks = some k → ∃ t, exec (.attnPartial id) s = .next t
        ∧ tfind t.packets id = some (p.ended k 0 0 0) ∧ t.mem = s.mem)
      ∧ (firstFail checks = none → ∀ v spans,
        (isList = false ∧ v = s1 ∧ spans = spansOf st.tpp t0 t1
          ∨ isList = true ∧ ∃ u h l, s1.readBytes la 64 = (u, h) ∧ h.st = .ok
              ∧ u.memRegion p.tenant 4096 la (64 + 4 * bits h.data 0 16) = none
              ∧ u.readBytes (la + 64) (4 * bits h.data 0 16) = (v, l) ∧ l.st = .ok
              ∧ (let pages := (List.range (bits h.data 0 16)).map fun i => bits l.data (32 * i) 32
                 listOk st (st.bound a.layer) pages = true ∧ spans = pages.map fun x => (x, x * st.tpp, (x + 1) * st.tpp))) →
        ∀ s2 q s3 pg, v.readBytes (p.word 48) (a.heads * st.dk * 2) = (s2, q) → q.st = .ok →
        s2.collect st a.layer spans = (s3, pg) → pg.down = false → pg.bad = none → pg.blocks ≠ [] →
        ∃ t, exec (.attnPartial id) s = .next t ∧ tfind t.packets id = some { p with count := 0 } ∧ s.othersKept t id
          ∧ tfind t.attns id = some ⟨p.target, a.layer, a.heads, a.kv0, a.g, bits (p.word 40) 0 32, a.ppc, p.word 56,
              qWords (a.heads * st.dk) q.data, pg.blocks, [], [], 0 ||| pg.pools, 0, 0 + pg.skipped, st.st = .degraded, none⟩))
    ∧ (∀ r0 r cl e b core, cl < 8 → e < 64 → tfind s.packets id = some p → p.st = .running → tfind s.attns id = some r0 →
        s.redeal r0 = some r → tfind s.streams r0.stream = some st → e < r.engines cl → s.clusterUp cl = true →
        (r.queue.find? fun x => x.cl = cl) = some b → s.engineCore r cl e = some core →
      ∀ s2 g, s.readBlock st b (r.passes st) = (s2, g) →
        (g.st = .ok → r.queue.erase b ≠ [] → ∃ t r1, exec (.engineBlockDeal id cl e) s = .next t
          ∧ r1 = { r with
              queue := r.queue.erase b
              accs := tset r.accs (cl * 64 + e) (r.foldBlock st (tget ⟨[], []⟩ r.accs (cl * 64 + e)) b g.data)
              cores := tset r.cores (coreKey cl (e / 4)) core
              tokens := r.tokens + b.n }
          ∧ tfind t.attns id = some r1 ∧ tfind t.packets id = some { p with count := r1.count }
          ∧ s.othersKept t id ∧ t.mem = s2.mem)
        ∧ (g.st = .ok → r.queue.erase b = [] → ∃ t x, exec (.engineBlockDeal id cl e) s = .next t ∧ tfind t.packets id = some x
          ∧ x.st = .fixed ∧ tfind t.attns id = none ∧ s.othersKept t id)
        ∧ (g.st ≠ .ok → ∃ t x, exec (.engineBlockDeal id cl e) s = .next t ∧ tfind t.packets id = some x ∧ x.st = .fixed
          ∧ x.status = ofPStatus g.st ∧ x.count = r.count ∧ tfind t.attns id = none ∧ s.othersKept t id))
    ∧ (s.takeAttn id 0x21 = some (s1, p) → s1.stream p.target = some st → s1.streamRefused p = none →
      let a := p.selectPrm
      let c := p.word 32
      let n := bits c 14 6 + 1
      let b := st.bound a.layer
      let np := ceilDiv b st.tpp
      let deg := st.st = .degraded
      let checks := [if a.fits st then none else some .malformed,
        s1.memRegion p.tenant 4096 (p.word 48) (a.heads * st.dk * 2),
        s1.memRegion p.tenant 4096 (p.word 56) (listBytes (n + bits c 24 8 + bits c 32 8)),
        if bit c 20 then s1.memRegion p.tenant 4096 (p.word 64) (8 * a.ppc * a.heads * tupleBytes st.dv) else none]
      (∀ k, firstFail checks = some k → ∃ t, exec (.attnSelect id) s = .next t
        ∧ tfind t.packets id = some (p.ended k 0 0 0) ∧ t.mem = s.mem)
      ∧ (firstFail checks = none →
      ∀ s2 q s3 x s4 i, s1.readBytes (p.word 48) (a.heads * st.dk * 2) = (s2, q) → q.st = .ok → s2.clusterFor 0 ≠ none →
        (List.range np).foldl (fun (y : State × Scored) pg =>
          if y.2.bad.isSome then y
          else y.1.scorePage st a (qWords (a.heads * st.dk) q.data) b n (min (bits c 24 8) np) (np - bits c 32 8) pg y.2)
          (s2, ⟨[], [], 0, 0, 0, none⟩) = (s3, x) → x.bad = none →
        let pages := sortPages (x.forced ++ x.top.map (·.2))
        s3.writeBytes (p.word 56) (listBytes pages.length) (listNum a.layer b 0 pages) = (s4, .ok, i) →
        (bit c 20 = false → ∃ t, exec (.attnSelect id) s = .next t ∧ t.mem = s4.mem ∧ s.othersKept t id
          ∧ tfind t.packets id = some (p.ended (if deg then .degraded else .done) x.scored pages.length (if deg then x.skipped else 0)))
        ∧ (bit c 20 = true → ∀ s5 pg, s4.collect st a.layer (pages.map fun y => (y, y * st.tpp, min b ((y + 1) * st.tpp))) = (s5, pg) →
          pg.down = false → pg.bad = none → pg.blocks ≠ [] →
          ∃ t, exec (.attnSelect id) s = .next t ∧ s.othersKept t id ∧ tfind t.packets id = some { p with count := x.scored }
            ∧ tfind t.attns id = some ⟨p.target, a.layer, a.heads, a.kv0, a.g, bits (p.word 40) 0 32, a.ppc, p.word 64,
                qWords (a.heads * st.dk) q.data, pg.blocks, [], [], x.pools ||| pg.pools, 0, x.skipped + pg.skipped, deg,
                some (p.word 56, x.scored, pages, b)⟩)))
    ∧ (∀ order, s.takeAttn id 0x22 = some (s1, p) → s1.streamRefused p = none →
      let c := p.word 32
      let heads := bits c 0 6 + 1
      let dv := 32 * (bits c 6 6 + 1)
      let n := bits c 32 32
      let tb := tupleBytes dv
      let ob := if bit c 12 then dv * (if bits c 13 4 = 0 then 4 else 2) else tb
      let checks := [s1.memRegion p.tenant 4096 (p.word 40) (n * tb), s1.memRegion p.tenant 4096 (p.word 48) (heads * ob)]
      (∀ k, firstFail checks = some k → ∃ t, exec (.attnMerge id order) s = .next t
        ∧ tfind t.packets id = some (p.ended k 0 0 0) ∧ t.mem = s.mem)
      ∧ (firstFail checks = none → ∀ s2 g s3 i cl, s1.readBytes (p.word 40) (n * tb) = (s2, g) → g.st = .ok → s2.clusterFor 0 = some cl →
        let ts := (arrivalOrder n order).map fun j => Tuple.unpack dv (bits g.data (8 * tb * j) (8 * tb))
        (List.range heads).foldl (fun (x : State × PStatus × Nat) h =>
          if x.2.1 ≠ .ok then x else
          let v := if mergeNan (bit c 12) dv (ts.filter fun y => y.head = h) then x.1.builtEvent F.cnErr_nan_out cl none else x.1
          let (u, w, off) := v.writeBytes (p.word 48 + h * ob) ob
            (mergeOut (bit c 12) (bits c 13 4) dv h (ts.filter fun y => y.head = h)) (clusterClass cl)
          (u, w, p.word 48 + h * ob + off)) (s2, .ok, 0) = (s3, .ok, i) →
        ∃ t, exec (.attnMerge id order) s = .next t ∧ t.mem = s3.mem ∧ s.othersKept t id
          ∧ tfind t.packets id = some (p.ended .done (ts.filter fun y => decide (y.head < heads)).length
              ((List.range heads).filter fun h => !(ts.filter fun y => y.head = h).isEmpty).length 0)))

/-- R207 to R213, R216, R218: TENSOR_MAP makes its range of entries FAR or MEM at once, or UNMAPPED, and tells an overcommit with its
shortfall; TENSOR_PIN pins a range whose segments are held and waits while one is not, TENSOR_UNPIN takes the pins away;
PREFETCH queues the FAR segments for which there is room; the last row of a gather ends it with the segments that it had fetched. Segments outside the range keep their entries, and no stored sector
changes. -/
def Obligations.SegmentsAreManaged : Prop :=
  ∀ (s : State) (id : Nat) (s1 : State) (p : Packet), p.id = id →
    (s.takeFw id 0x30 = some (s1, p) →
      let a := p.mapSeg0
      let n := p.mapN
      (∀ k, s1.mapRefused p = some k → ∃ t, exec (.tensorMap id) s = .next t ∧ tfind t.packets id = some (p.ended k 0 0 0)
        ∧ t.dir = s.dir ∧ s.othersKept t id)
      ∧ (s1.mapRefused p = none → p.mapOp ≠ 1 → ∃ t, exec (.tensorMap id) s = .next t
        ∧ (∀ i < n, t.seg (a + i) = ⟨if bit (p.word 40) 48 = true then .mem else .far, false, false, bits (p.word 48) 0 4,
            bits (p.word 48) 4 2, p.tenant, bits (p.word 48) 8 8, 0, 0, (bits (p.word 40) 0 48 + segBytes * i) % 2 ^ 48⟩)
        ∧ (∀ g, g < a ∨ a + n ≤ g → t.seg g = s.seg g)
        ∧ (t.ocDemand ≤ t.ocCapacity → tfind t.packets id = some (p.ended .done n 0 0))
        ∧ (t.ocCapacity < t.ocDemand → t.ocModel (bits (p.word 48) 8 8) = true
            ∧ tfind t.packets id = some (p.ended .overcommit n 0 (segBytes * (t.ocDemand - t.ocCapacity))))
        ∧ s.othersKept t id ∧ t.mem = s.mem)
      ∧ (s1.mapRefused p = none → p.mapOp = 1 → ∃ t, exec (.tensorMap id) s = .next t
        ∧ (∀ i < n, t.seg (a + i) = SegEnt.init) ∧ (∀ g, g < a ∨ a + n ≤ g → t.seg g = s.seg g)
        ∧ (∀ f ∈ t.demandQ, f.seg < a ∨ a + n ≤ f.seg) ∧ (∀ g ∈ t.prefetchQ, g < a ∨ a + n ≤ g)
        ∧ tfind t.packets id = some (p.ended .done n 0 0) ∧ s.othersKept t id ∧ t.mem = s.mem))
    ∧ (s.takeFw id 0x31 = some (s1, p) →
      let a := p.pinSeg0
      let n := p.pinN
      (s1.residStop a n = none → s1.ownSegs p.tenant a n = none → s1.pinShort p = true → ∃ t, exec (.tensorPin id) s = .next t ∧ tfind t.packets id = some (p.ended .noSpace 0 0 0)
        ∧ (s.demandQ = [] → t.dir = s.dir) ∧ s.othersKept t id)
      ∧ (∀ k, s1.residStop a n = some k ∨ (s1.residStop a n = none ∧ s1.ownSegs p.tenant a n = some k) →
        ∃ t, exec (.tensorPin id) s = .next t ∧ tfind t.packets id = some (p.ended k 0 0 0) ∧ s.othersKept t id))
    ∧ (∀ v, (s.takeFw id 0x31 = some (v, p) ∧ v.residStop p.pinSeg0 p.pinN = none ∧ v.ownSegs p.tenant p.pinSeg0 p.pinN = none
          ∧ v.pinShort p = false) ∨ (s.live id 0x31 = some p ∧ p.st = .running ∧ v = s) →
      let a := p.pinSeg0
      let n := p.pinN
      (v = s → (∃ i < n, s.dirDown (a + i) = true ∨ (s.seg (a + i)).st = .unmapped) → ∃ t, exec (.tensorPin id) s = .next t
        ∧ tfind t.packets id = some (p.ended .unavailable 0 0 0) ∧ s.othersKept t id ∧ t.mem = s.mem)
      ∧ ((∀ i < n, s.dirDown (a + i) = false ∧ ((s.seg (a + i)).st = .loc ∨ (s.seg (a + i)).st = .mem)) →
        ∃ t, exec (.tensorPin id) s = .next t ∧ (∀ i < n, t.seg (a + i) = { s.seg (a + i) with pin := true })
          ∧ (∀ g, g < a ∨ a + n ≤ g → t.seg g = s.seg g) ∧ tfind t.packets id = some (p.ended .done n 0 0) ∧ s.othersKept t id
          ∧ t.mem = s.mem)
      ∧ ((∀ i < n, s.dirDown (a + i) = false ∧ (s.seg (a + i)).st ≠ .unmapped) →
        (∃ i < n, (s.seg (a + i)).st ≠ .loc ∧ (s.seg (a + i)).st ≠ .mem) →
        ∃ t x, exec (.tensorPin id) s = .next t ∧ tfind t.packets id = some x ∧ x.st = .running ∧ x.waits ≠ []
          ∧ s.othersKept t id ∧ t.mem = s.mem))
    ∧ (s.takeFw id 0x32 = some (s1, p) → s1.residStop p.pinSeg0 p.pinN = none → s1.ownSegs p.tenant p.pinSeg0 p.pinN = none →
      ∃ t, exec (.tensorUnpin id) s = .next t
        ∧ (∀ i < p.pinN, t.seg (p.pinSeg0 + i) = { s.seg (p.pinSeg0 + i) with pin := false })
        ∧ (∀ g, g < p.pinSeg0 ∨ p.pinSeg0 + p.pinN ≤ g → t.seg g = s.seg g)
        ∧ tfind t.packets id = some (p.ended .done p.pinN 0 0) ∧ s.othersKept t id ∧ t.mem = s.mem)
    ∧ (s.takeFw id 0x33 = some (s1, p) → bits (p.word 32) 0 2 ≠ 1 →
      let n := bits (p.word 40) 0 26
      let far := (segRange p.pfSeg0 n).filter fun g => (s.seg g).st = .far
      (∀ k, s1.residStop p.pfSeg0 n = some k ∨ (s1.residStop p.pfSeg0 n = none ∧ s1.ownSegs p.tenant p.pfSeg0 n = some k) →
        ∃ t, exec (.prefetch id) s = .next t ∧ tfind t.packets id = some (p.ended k 0 0 0) ∧ t.prefetchQ = s.prefetchQ)
      ∧ (s1.residStop p.pfSeg0 n = none → s1.ownSegs p.tenant p.pfSeg0 n = none → ∃ t, exec (.prefetch id) s = .next t
        ∧ t.prefetchQ = s.prefetchQ ++ far.take (4096 - s.prefetchQ.length) ∧ t.dir = s.dir ∧ s.othersKept t id
        ∧ tfind t.packets id = some (p.ended .done (min (4096 - s.prefetchQ.length) far.length) 0 0)))
    ∧ (∀ r, s.live id 0x33 = some p → p.st = .running → p.rows[p.prog]? = some r → p.prog + 1 = p.rows.length →
      let segs := p.rowSegs p.fmt r
      let at' := p.gDst + p.prog * p.rowOut
      let home := s.gatherCluster (s.rowStack (unitOffset p.fmt p.pfSeg0 (r * p.gRsz)))
      (∀ cl v w q u o, home = some cl → (s.markSegs id segs).rowUnits id p r = (v, .ok w) →
        tfind ((v.rowRead id segs).rowEvents cl w.sat w.nan w.segs).packets id = some q → q.id = id →
        ((v.rowRead id segs).rowEvents cl w.sat w.nan w.segs).writeBytes at' p.rowOut w.out (clusterClass cl) = (u, .ok, o) →
        ∃ t, exec (.prefetch id) s = .next t ∧ t.mem = u.mem ∧ u.othersKept t id
          ∧ tfind t.packets id = some ({ q with prog := p.prog + 1, got := [] }.ended .done q.fetched.length 0 0))
      ∧ (∀ v g, home ≠ none → (s.markSegs id segs).rowUnits id p r = (v, .error (.wait g)) → (∀ x, tfind v.packets id = some x → x.id = id) →
        (tfind v.packets id).isSome → ∃ t x, exec (.prefetch id) s = .next t ∧ tfind t.packets id = some x ∧ x.waits = [g]
          ∧ t.mem = v.mem)
      ∧ (home = none → ∃ t x, exec (.prefetch id) s = .next t ∧ tfind t.packets id = some x ∧ x.st = .fixed
          ∧ x.status = .unavailable ∧ x.count = p.fetched.length ∧ s.othersKept t id))

/-- R129 to R135: RECIPE_LOAD stores a recipe that passes every check in the lowest free slot and answers its handle, or
releases one; a slot that was released is empty once nothing runs on it. RECIPE_RUN starts under a valid handle of its tenant;
an idle enabled core takes the next iteration, reads ahead into its buffers (an engine's share of them is the model's choice, log
entry 69), and its end is counted: the last one ends the
packet; a read ahead that meets a FETCHING segment makes its packet wait on it (R201). R141, R537: a cluster reset takes the iterations of its cores away, to be run again, and keeps the cluster from work
until its end; new core enables are shown, and with nothing running nothing else changes. -/
def Obligations.RecipesRun : Prop :=
  (∀ (s : State) (id : Nat) (s1 : State) (p : Packet), p.id = id →
    (s.takeFw id 0x40 = some (s1, p) →
      (p.stepWords ≠ [] → recipeOk p.stepWords = false → ∃ t, exec (.recipeLoad id) s = .next t
        ∧ tfind t.packets id = some (p.ended .malformed 0 0 0) ∧ t.recipes = s.recipes)
      ∧ (∀ k, p.stepWords ≠ [] → recipeOk p.stepWords = true →
          (((List.range 224).map (32 + ·)).find? fun x => !(s.recipe x).used) = some k → ∃ t, exec (.recipeLoad id) s = .next t
        ∧ t.recipe k = ⟨p.tenant, (s.recipe k).gen, p.stepWords.map (BitVec.ofNat 64), true, false⟩
        ∧ (∀ x, x ≠ k → t.recipe x = s.recipe x) ∧ s.othersKept t id
        ∧ tfind t.packets id = some (p.ended .done p.stepWords.length 0 ((t.recipe k).handle k)))
      ∧ (∀ k, p.stepWords = [] → s.useHandle p.tenant (p.word 40) = (k, none) → ∃ t, exec (.recipeLoad id) s = .next t
        ∧ t.recipe k = { s.recipe k with released := true, gen := ((s.recipe k).gen + 1) % 256 }
        ∧ (∀ x, x ≠ k → t.recipe x = s.recipe x) ∧ tfind t.packets id = some (p.ended .done 0 0 (p.word 40)) ∧ s.othersKept t id))
    ∧ (∀ slot < 256,
      ((s.recipe slot).used = true → (s.recipe slot).released = true →
          (∀ e ∈ s.runs, e.2.slot = slot → s.packet e.1 = none) → ∃ t, exec (.recipeSlotFree slot) s = .next t
        ∧ t.recipe slot = { RecipeSlot.init with gen := (s.recipe slot).gen } ∧ (∀ x, x ≠ slot → t.recipe x = s.recipe x)
        ∧ s.only t [.recipes])
      ∧ ((s.recipe slot).used = false ∨ (s.recipe slot).released = false → exec (.recipeSlotFree slot) s = .next s))
    ∧ (s.takeFast id 0x41 = some (s1, p) →
      (∀ k f, s1.useHandle p.tenant (p.word 32) = (k, some f) → ∃ t, exec (.recipeRun id) s = .next t
        ∧ tfind t.packets id = some (p.ended f 0 0 0) ∧ t.runs = s.runs)
      ∧ ∀ k, s1.useHandle p.tenant (p.word 32) = (k, none) →
        let ws := (s1.recipe k).steps.map (·.toNat)
        (∀ f, s1.runRefused p.tenant (p.field 40 4) p.prms ws = some f → ∃ t, exec (.recipeRun id) s = .next t
          ∧ tfind t.packets id = some (p.ended f 0 0 0) ∧ t.runs = s.runs)
        ∧ (s1.runRefused p.tenant (p.field 40 4) p.prms ws = none → (∃ c < 8, s.clusterUp c = true ∧ bit (p.field 44 1) c = true) →
            trising s.runs = true → (∀ e ∈ s1.packets, e.2.id = e.1) → ∃ t, exec (.recipeRun id) s = .next t
          ∧ tfind t.packets id = some p ∧ t.nextId = s.nextId + 1
          ∧ tfind t.runs id = some ⟨k, s.nextId, (s1.recipe k).steps, p.field 40 4, p.field 44 1,
              if p.field 45 1 = 0 then 16 else p.field 45 1, 0, [], (List.range 6).map fun i => slotExtent p.prms ws i, p.prms⟩))
    ∧ ∀ cl core, cl < 8 → core < 16 →
      (∀ n r, s.coreFree cl core = true → s.nextRun cl = some (n, r) →
        ∃ t, exec (.iterationStart cl core) s = .next t ∧ t.nextId = s.nextId + 1
          ∧ tfind t.cores (coreKey cl core) = some ⟨n, if r.redo = [] then r.next else r.redo.headD 0, s.nextId, r.steps, r.prm, r.extents, 0, 0,
              [], List.replicate 4 Eng.init, false⟩
          ∧ tfind t.runs n = some (if r.redo = [] then { r with next := r.next + 1 } else { r with redo := r.redo.tail })
          ∧ (∀ j, j ≠ coreKey cl core → tfind t.cores j = tfind s.cores j) ∧ s.only t [.nextId, .runs, .cores])
      ∧ (s.clusterUp cl = false ∨ bit (s.fget F.cnCtl_core_en [cl]) core = false ∨ s.coreBusy cl core = true ∨ s.nextRun cl = none →
        exec (.iterationStart cl core) s = .next s)
      ∧ (∀ c r, s.coreAt cl core = some c → c.pkt = id → tfind s.packets id = some p → tfind s.runs id = some r →
        (c.ended = true → ∃ t, exec (.iterationDone cl core) s = .next t ∧ tfind t.cores (coreKey cl core) = none
          ∧ t.fget F.cnStat_iters [cl] = (s.fget F.cnStat_iters [cl] + 1) % 2 ^ F.cnStat_iters.w ∧ s.othersKept t id
          ∧ tfind t.packets id = some (if p.count + 1 = r.iters then { p with count := p.count + 1 }.ended .done (p.count + 1) 0 0
              else { p with count := p.count + 1 }))
        ∧ (c.ended = false → exec (.iterationDone cl core) s = .next s))
      ∧ (∀ c e slot g, e < 4 → slot < 6 → s.coreAt cl core = some c → (loadSlots c.words).contains slot = true →
        ((List.range (min (c.granules e slot - c.needFrom e slot) c.share)).map (c.needFrom e slot + ·)).find? (fun x =>
          (tfind (c.eng e).buf (bufKey slot x)).isNone && !(c.eng e).asked.contains (bufKey slot x)) = some g →
        let a := 64 * (c.base e slot / 64 + g)
        (bit a 47 = true → ∀ u seg q, s.tensAt (a % 2 ^ 46) = (u, .wait seg) → tfind u.packets c.pkt = some q → q.id = c.pkt →
          ∃ t x, exec (.streamFetch cl core e slot) s = .next t ∧ t.mem = u.mem ∧ tfind t.packets c.pkt = some x ∧ seg ∈ x.waits)
        ∧ (bit a 47 = false → ∀ u st i d, s.readMem a = (u, st, i, d) → ∃ t, exec (.streamFetch cl core e slot) s = .next t
          ∧ t.mem = u.mem
          ∧ tfind t.cores (coreKey cl core)
              = some (c.setEng e { c.eng e with buf := tset (c.eng e).buf (bufKey slot g) (st, d) })
          ∧ ∀ j, j ≠ coreKey cl core → tfind t.cores j = tfind s.cores j)))
  ∧ (∀ (s : State) (cl : Nat), cl < 8 →
    let quiet := ∀ e ∈ s.packets, e.2.opcode ≠ 0x33
    (s.cut = true → exec (.clusterReset cl) s = .next s ∧ ∀ mask, exec (.coreEnable cl mask) s = .next s)
    ∧ (s.cut = false → ∃ t, exec (.clusterReset cl) s = .next t ∧ bit t.clReset cl = true ∧ t.clusterUp cl = false
      ∧ (∀ d, d ≠ cl → bit t.clReset d = bit s.clReset d) ∧ (∀ k < 16, tfind t.cores (coreKey cl k) = none)
      ∧ (∀ j, j / 16 ≠ cl → tfind t.cores j = tfind s.cores j) ∧ t.fget F.cnStat_iters [cl] = 0 ∧ (quiet → t.mem = s.mem)
      ∧ ∀ k c r, k < 16 → s.coreAt cl k = some c → tfind s.runs c.pkt = some r →
          ∃ u, tfind t.runs c.pkt = some u ∧ c.iter ∈ u.redo ∧ u.next = r.next)
    ∧ (∃ t, exec (.clusterResetDone cl) s = .next t ∧ bit t.clReset cl = false ∧ (∀ d, d ≠ cl → bit t.clReset d = bit s.clReset d)
      ∧ s.only t [.clReset])
    ∧ ∀ mask : BitVec 16, s.cut = false → (∃ t, exec (.coreEnable cl mask) s = .next t ∧ t.fget F.cnCtl_core_en [cl] = mask.toNat
        ∧ t.cores = s.cores ∧ (quiet → t.mem = s.mem))
      ∧ (s.runs = [] → s.attns = [] → quiet → exec (.coreEnable cl mask) s = .next (s.fset F.cnCtl_core_en [cl] mask.toNat)))

/-- R119 to R128: a core carries out its next step on its four engines and goes on to the one after it: END ends the iteration,
LOOP with a count of 0 goes past its ENDL, ENDL goes back while passes are left, LOAD takes the elements of its slice when they
have come and waits until then, RMAX leaves the maximum and the correction, TOPN keeps at most N pairs, EMIT writes its bytes at
the engine's cursor. A step whose opcode is another's does nothing. -/
def Obligations.StepsAreCarriedOut : Prop :=
  ∀ (s : State) (cl core : Nat) (c : Core) (w : Nat), cl < 8 → core < 16 →
    let at' := fun (t : State) => tfind t.cores (coreKey cl core)
    let moved := fun (x : Core) => { x with pc := x.pc + 1, rep := 0 }
    (s.nextStep cl core 0x00 c w → exec (.endStep cl core) s = .next (s.setCore cl core { c with ended := true }))
    ∧ (s.nextStep cl core 0x01 c w →
      (loopCount c.prm w = 0 → exec (.loopStep cl core) s = .next (s.setCore cl core { c with
        pc := skipLoop 0 (c.pc + 1) (c.steps.drop (c.pc + 1))
        rep := 0 }))
      ∧ (loopCount c.prm w ≠ 0 → exec (.loopStep cl core) s = .next (s.setCore cl core { moved c with
        loops := ⟨c.pc, loopCount c.prm w - 1, 0⟩ :: c.loops })))
    ∧ (s.nextStep cl core 0x02 c w → ∀ l r, c.loops = l :: r →
      (l.left = 0 → exec (.endlStep cl core) s = .next (s.setCore cl core { moved c with loops := r }))
      ∧ (l.left ≠ 0 → exec (.endlStep cl core) s = .next (s.setCore cl core { c with
        pc := l.start + 1
        rep := 0
        loops := { l with left := l.left - 1, idx := l.idx + 1 } :: r })))
    ∧ (s.nextStep cl core 0x04 c w → c.rep = bits w 21 5 →
      (∀ d, c.loadRun w = some (.ok d) → exec (.loadStep cl core) s = .next (s.setCore cl core (moved d)))
      ∧ (c.loadRun w = none → ∃ t, exec (.loadStep cl core) s = .next t ∧ at' t = some c ∧ s.only t [.regs, .cores])
      ∧ (∀ st a p, c.loadRun w = some (.error (st, a)) → tfind s.packets c.pkt = some p → p.id = c.pkt →
        ∃ t x, exec (.loadStep cl core) s = .next t ∧ tfind t.packets c.pkt = some x ∧ x.st = .fixed ∧ x.status = ofPStatus st
          ∧ s.othersKept t c.pkt ∧ t.mem = s.mem))
    ∧ (s.nextStep cl core 0x08 c w → ∃ t, exec (.macStep cl core) s = .next t ∧ s.only t [.regs, .cores]
      ∧ at' t = some (moved (c.each fun _ e => e.runs (bits w 29 5 + 1) fun x j => x.mac w j))
      ∧ ∀ k < 4, bits w 29 5 = 0 → bits w 27 2 = 1 → bit w 37 = false → bit w 34 = false → bit w 35 = false → bit w 36 = false →
          0x40 ≤ bits w 20 7 → ∀ x, at' t = some x → (x.eng k).scalar (bits w 20 7 - 0x40)
            = tree512 ((((c.eng k).operand (bits w 6 7)).zip ((c.eng k).operand (bits w 13 7))).map fun q => q.1.mul q.2))
    ∧ (s.nextStep cl core 0x09 c w →
      exec (.rmaxStep cl core) s
        = .next (s.setCore cl core (moved (c.each fun _ e => e.runs (bits w 27 5 + 1) fun x j => x.rmax w j)))
      ∧ ∀ e : Eng, bit w 32 = false → bit w 33 = false → bit w 34 = false → bits w 13 7 ≠ bits w 20 7 →
          0x40 ≤ bits w 13 7 → bits w 13 7 < 0x60 → 0x40 ≤ bits w 20 7 →
          (e.rmax w 0).scalar (bits w 13 7 - 0x40) = fMax (e.one (bits w 13 7)) (e.one (bits w 6 7))
          ∧ (fMax (e.one (bits w 13 7)) (e.one (bits w 6 7)) ≠ e.one (bits w 13 7) →
              (e.rmax w 0).scalar (bits w 20 7 - 0x40)
                = fSub (e.one (bits w 13 7)) (fMax (e.one (bits w 13 7)) (e.one (bits w 6 7)))))
    ∧ (s.nextStep cl core 0x0A c w → ∃ t, exec (.expStep cl core) s = .next t ∧ s.only t [.regs, .cores]
      ∧ at' t = some (moved (c.each fun _ e => e.runs (bits w 28 5 + 1) fun x j => x.exp w j)))
    ∧ (s.nextStep cl core 0x0B c w → exec (.scaleStep cl core) s
        = .next (s.setCore cl core (moved (c.each fun _ e => e.runs (bits w 27 5 + 1) fun x j => x.scale w j))))
    ∧ (s.nextStep cl core 0x0C c w → ∃ t x, exec (.topnStep cl core) s = .next t ∧ at' t = some x ∧ x.pc = c.pc + 1
      ∧ s.only t [.cores] ∧ ∀ k < 4, (x.eng k).topN = bits w 13 6 + 1
        ∧ ((c.eng k).top.length ≤ bits w 13 6 + 1 → (x.eng k).top.length ≤ bits w 13 6 + 1)
        ∧ (bit w 21 = true → (x.eng k).top.length ≤ 1) ∧ (x.eng k).words = (c.eng k).words)
    ∧ (s.nextStep cl core 0x10 c w → exec (.storeStep cl core) s = .next (s.setCore cl core (moved (c.each fun _ e => e.store w))))
    ∧ (s.nextStep cl core 0x11 c w → ∀ u d a,
        (List.range 4).foldl (fun (x : State × Core × PStatus × Nat) e =>
          if x.2.2.1 = .ok then x.1.emitEng cl core w x.2.1 e else x) (s, c, .ok, 0) = (u, d, .ok, a) →
        ∃ t, exec (.emitStep cl core) s = .next t ∧ at' t = some (moved d) ∧ t.mem = u.mem ∧ t.packets = s.packets
          ∧ d.words = c.words ∧ ∀ k < 4, tget 0 (d.eng k).cur (bits w 29 3)
              = if k < c.engs.length then tget 0 (c.eng k).cur (bits w 29 3) + emitBytes w else 0)
    ∧ ∀ op x, (op, x) ∈ [(0x00, Instr.endStep cl core), (0x01, .loopStep cl core), (0x02, .endlStep cl core), (0x04, .loadStep cl core),
          (0x08, .macStep cl core), (0x09, .rmaxStep cl core), (0x0A, .expStep cl core), (0x0B, .scaleStep cl core),
          (0x0C, .topnStep cl core), (0x10, .storeStep cl core), (0x11, .emitStep cl core)] →
        ∀ other, other ≠ op → s.nextStep cl core other c w → exec x s = .next s
end

