-- ==== Sys2Proof/Laws/Follows.lean ====
section
/-! SUPPORT. The relation State.Follows: how a state may follow another while a command is carried out. Time does not run back,
what was shown stays shown, numbers are handed out once, the stored cells keep their canonical form, and only the
components of a set change. It is reflexive and transitive, and passes through updates and folds. A set of components is
a number: bit i stands for the i-th constructor of Field. -/
namespace Sys2Proof.Machine

/-! ## Sets of components -/

/-- Every component of a is one of m. -/
def Sub (a m : Nat) : Prop := a &&& m = a

theorem Sub.trans {a l m : Nat} (h : Sub l m) (e : a &&& l = a) : Sub a m := by
  unfold Sub at *
  rw [← e, Nat.and_assoc, h]

theorem Sub.has {a m i : Nat} (h : Sub a m) (e : m.testBit i = false) : a.testBit i = false := by
  unfold Sub at h
  rw [← h, Nat.testBit_and, e, Bool.and_false]

/-- The number of a list of components. -/
def fieldMask : List Field → Nat
  | [] => 0
  | f :: r => 1 <<< f.ctorIdx ||| fieldMask r

theorem fieldMask_not_mem : ∀ {l : List Field} {f : Field}, f ∉ l → (fieldMask l).testBit f.ctorIdx = false
  | [], f, _ => Nat.zero_testBit _
  | g :: r, f, h => by
    have ne : f ≠ g := fun e => h (e ▸ List.mem_cons_self)
    have idx : f.ctorIdx ≠ g.ctorIdx := fun e => ne (by cases f <;> cases g <;> first | rfl | exact absurd e (by decide))
    rw [fieldMask, Nat.testBit_or, fieldMask_not_mem fun k => h (List.mem_cons_of_mem _ k), Bool.or_false, Nat.one_shiftLeft,
      Nat.testBit_two_pow_of_ne (Ne.symm idx)]

/-! ## The relation -/

/-- A state may follow another while a command is carried out that changes components of m only. -/
structure State.Follows (m : Nat) (b s : State) : Prop where
  /-- the commands that wait are those that waited -/
  queue : s.pending = b.pending
  /-- time does not run back -/
  clock : b.clk.now ≤ s.clk.now
  /-- outputs are added behind those shown before -/
  shown : b.out <+: s.out
  /-- free values are drawn once -/
  drawn : b.free ≤ s.free
  /-- arrival and packet numbers are handed out once -/
  ids : b.nextId ≤ s.nextId
  /-- the stored cells stay in canonical form -/
  memory : Memory.wf b.epochs b.mem = true → Memory.wf s.epochs s.mem = true
  /-- the other components stay -/
  kept : ∀ f : Field, m.testBit f.ctorIdx = false → f.same b s

theorem Field.same_refl (s : State) (f : Field) : f.same s s := by cases f <;> rfl

theorem Field.same_trans {a b c : State} {f : Field} (h : f.same a b) (k : f.same b c) : f.same a c := by
  cases f <;> exact Eq.trans k h

theorem State.Follows.refl (m : Nat) (s : State) : s.Follows m s :=
  ⟨rfl, Nat.le_refl _, List.prefix_refl _, Nat.le_refl _, Nat.le_refl _, id, fun f _ => f.same_refl s⟩

theorem State.Follows.trans {m : Nat} {a b c : State} (h : a.Follows m b) (k : b.Follows m c) : a.Follows m c :=
  ⟨k.queue.trans h.queue, Nat.le_trans h.clock k.clock, h.shown.trans k.shown, Nat.le_trans h.drawn k.drawn, Nat.le_trans h.ids k.ids,
    fun w => k.memory (h.memory w), fun f e => Field.same_trans (h.kept f e) (k.kept f e)⟩

/-- The state with the components of a as in t and the others as in s. -/
def State.mix (a : Nat) (s t : State) : State :=
⟨s.pending, bif a.testBit 0 then t.clk else s.clk, bif a.testBit 1 then t.regs else s.regs, bif a.testBit 2 then
    t.pregs else s.pregs, bif a.testBit 3 then t.out else s.out, bif a.testBit 4 then t.free else s.free, bif
    a.testBit 5 then t.nextId else s.nextId, bif a.testBit 6 then t.ports else s.ports, bif a.testBit 7 then t.gates
    else s.gates, bif a.testBit 8 then t.tenants else s.tenants, bif a.testBit 9 then t.wheel else s.wheel, bif
    a.testBit 10 then t.pccs else s.pccs, bif a.testBit 11 then t.mem else s.mem, bif a.testBit 12 then t.descs else
    s.descs, bif a.testBit 54 then t.mapCopy else s.mapCopy, bif a.testBit 13 then t.remaps else s.remaps, bif
    a.testBit 14 then t.repairs else s.repairs, bif a.testBit 15 then t.spares else s.spares, bif a.testBit 16 then
    t.rows else s.rows, bif a.testBit 17 then t.epochs else s.epochs, bif a.testBit 18 then t.retPend else s.retPend,
    bif a.testBit 19 then t.ladder else s.ladder, bif a.testBit 20 then t.links else s.links, bif a.testBit 21 then
    t.returns else s.returns, bif a.testBit 22 then t.laneMaps else s.laneMaps, bif a.testBit 23 then t.keys else
    s.keys, bif a.testBit 24 then t.clearing else s.clearing, bif a.testBit 25 then t.dir else s.dir, bif a.testBit 26
    then t.hands else s.hands, bif a.testBit 27 then t.fetches else s.fetches, bif a.testBit 28 then t.demandQ else
    s.demandQ, bif a.testBit 29 then t.prefetchQ else s.prefetchQ, bif a.testBit 30 then t.far else s.far, bif
    a.testBit 31 then t.streams else s.streams, bif a.testBit 32 then t.lgUsed else s.lgUsed, bif a.testBit 33 then
    t.lgSums else s.lgSums, bif a.testBit 34 then t.lgWalk else s.lgWalk, bif a.testBit 35 then t.attns else s.attns,
    bif a.testBit 36 then t.recipes else s.recipes, bif a.testBit 37 then t.runs else s.runs, bif a.testBit 38 then
    t.cores else s.cores, bif a.testBit 39 then t.clReset else s.clReset, bif a.testBit 40 then t.packets else
    s.packets, bif a.testBit 41 then t.fwq else s.fwq, bif a.testBit 42 then t.interps else s.interps, bif a.testBit
    53 then t.mgmtQ else s.mgmtQ, bif a.testBit 43 then t.obs else s.obs, bif a.testBit 44 then t.nvm else s.nvm, bif
    a.testBit 45 then t.arbs else s.arbs, bif a.testBit 46 then t.i3want else s.i3want, bif a.testBit 47 then t.i3at
    else s.i3at, bif a.testBit 48 then t.therm else s.therm, bif a.testBit 49 then t.supply else s.supply, bif
    a.testBit 50 then t.trims else s.trims, bif a.testBit 51 then t.sec else s.sec, bif a.testBit 52 then t.boot else
    s.boot⟩

theorem State.mix_same {a : Nat} {s t : State} (e : t = State.mix a s t) (f : Field) (h : a.testBit f.ctorIdx = false) :
    f.same s t := by
  cases f <;> exact (congrArg _ e).trans (by exact congrArg (fun c => bif c then _ else _) h)

/-- Components outside a set a that lies in m stay. -/
theorem State.Follows.keep {m a : Nat} {b s t : State} (h : b.Follows m s) (ok : Sub a m)
    (k : t = State.mix a s t) (f : Field) (e : m.testBit f.ctorIdx = false) : f.same b t :=
  Field.same_trans (h.kept f e) (State.mix_same k f (ok.has e))

/-- Another state with the same queue, outputs, counters and cells, and a clock no earlier. -/
theorem State.Follows.same {m a : Nat} {b s t : State} (h : b.Follows m s) (e1 : t.pending = s.pending)
    (e2 : s.clk.now ≤ t.clk.now) (e3 : t.out = s.out) (e4 : t.free = s.free) (e5 : t.nextId = s.nextId) (e6 : t.mem = s.mem)
    (e7 : t.epochs = s.epochs) (ok : Sub a m) (k : t = State.mix a s t) : b.Follows m t :=
  ⟨e1.trans h.queue, Nat.le_trans h.clock e2, e3 ▸ h.shown, e4 ▸ h.drawn, e5 ▸ h.ids, fun w => by rw [e6, e7]; exact h.memory w,
    h.keep ok k⟩

/-! ## Updates, by the components that they set -/

theorem State.mix_clk {s : State} {v} :
    ({ s with clk := v } : State) = State.mix 0x1 s
    { s with clk := v } := rfl
theorem State.Follows.set_regs {m : Nat} {b s : State} {v} (h : b.Follows m s)
    (ok : Sub 0x2 m := by exact Sub.trans (by assumption) (by decide)) :
    b.Follows m { s with regs := v } :=
  h.same rfl (Nat.le_refl _) rfl rfl rfl rfl rfl ok rfl
theorem State.Follows.set_pregs {m : Nat} {b s : State} {v} (h : b.Follows m s)
    (ok : Sub 0x4 m := by exact Sub.trans (by assumption) (by decide)) :
    b.Follows m { s with pregs := v } :=
  h.same rfl (Nat.le_refl _) rfl rfl rfl rfl rfl ok rfl
theorem State.mix_out {s : State} {v} :
    ({ s with out := v } : State) = State.mix 0x8 s
    { s with out := v } := rfl
theorem State.mix_free {s : State} {v} :
    ({ s with free := v } : State) = State.mix 0x10 s
    { s with free := v } := rfl
theorem State.mix_nextId {s : State} {v} :
    ({ s with nextId := v } : State) = State.mix 0x20 s
    { s with nextId := v } := rfl
theorem State.Follows.set_ports {m : Nat} {b s : State} {v} (h : b.Follows m s)
    (ok : Sub 0x40 m := by exact Sub.trans (by assumption) (by decide)) :
    b.Follows m { s with ports := v } :=
  h.same rfl (Nat.le_refl _) rfl rfl rfl rfl rfl ok rfl
theorem State.Follows.set_gates {m : Nat} {b s : State} {v} (h : b.Follows m s)
    (ok : Sub 0x80 m := by exact Sub.trans (by assumption) (by decide)) :
    b.Follows m { s with gates := v } :=
  h.same rfl (Nat.le_refl _) rfl rfl rfl rfl rfl ok rfl
theorem State.Follows.set_tenants {m : Nat} {b s : State} {v} (h : b.Follows m s)
    (ok : Sub 0x100 m := by exact Sub.trans (by assumption) (by decide)) :
    b.Follows m { s with tenants := v } :=
  h.same rfl (Nat.le_refl _) rfl rfl rfl rfl rfl ok rfl
theorem State.Follows.set_wheel {m : Nat} {b s : State} {v} (h : b.Follows m s)
    (ok : Sub 0x200 m := by exact Sub.trans (by assumption) (by decide)) :
    b.Follows m { s with wheel := v } :=
  h.same rfl (Nat.le_refl _) rfl rfl rfl rfl rfl ok rfl
theorem State.Follows.set_pccs {m : Nat} {b s : State} {v} (h : b.Follows m s)
    (ok : Sub 0x400 m := by exact Sub.trans (by assumption) (by decide)) :
    b.Follows m { s with pccs := v } :=
  h.same rfl (Nat.le_refl _) rfl rfl rfl rfl rfl ok rfl
theorem State.mix_mem {s : State} {v} :
    ({ s with mem := v } : State) = State.mix 0x800 s
    { s with mem := v } := rfl
theorem State.Follows.set_descs {m : Nat} {b s : State} {v} (h : b.Follows m s)
    (ok : Sub 0x1000 m := by exact Sub.trans (by assumption) (by decide)) :
    b.Follows m { s with descs := v } :=
  h.same rfl (Nat.le_refl _) rfl rfl rfl rfl rfl ok rfl
theorem State.Follows.set_remaps {m : Nat} {b s : State} {v} (h : b.Follows m s)
    (ok : Sub 0x2000 m := by exact Sub.trans (by assumption) (by decide)) :
    b.Follows m { s with remaps := v } :=
  h.same rfl (Nat.le_refl _) rfl rfl rfl rfl rfl ok rfl
theorem State.Follows.set_repairs {m : Nat} {b s : State} {v} (h : b.Follows m s)
    (ok : Sub 0x4000 m := by exact Sub.trans (by assumption) (by decide)) :
    b.Follows m { s with repairs := v } :=
  h.same rfl (Nat.le_refl _) rfl rfl rfl rfl rfl ok rfl
theorem State.Follows.set_spares {m : Nat} {b s : State} {v} (h : b.Follows m s)
    (ok : Sub 0x8000 m := by exact Sub.trans (by assumption) (by decide)) :
    b.Follows m { s with spares := v } :=
  h.same rfl (Nat.le_refl _) rfl rfl rfl rfl rfl ok rfl
theorem State.Follows.set_rows {m : Nat} {b s : State} {v} (h : b.Follows m s)
    (ok : Sub 0x10000 m := by exact Sub.trans (by assumption) (by decide)) :
    b.Follows m { s with rows := v } :=
  h.same rfl (Nat.le_refl _) rfl rfl rfl rfl rfl ok rfl
theorem State.Follows.set_retPend {m : Nat} {b s : State} {v} (h : b.Follows m s)
    (ok : Sub 0x40000 m := by exact Sub.trans (by assumption) (by decide)) :
    b.Follows m { s with retPend := v } :=
  h.same rfl (Nat.le_refl _) rfl rfl rfl rfl rfl ok rfl
theorem State.Follows.set_ladder {m : Nat} {b s : State} {v} (h : b.Follows m s)
    (ok : Sub 0x80000 m := by exact Sub.trans (by assumption) (by decide)) :
    b.Follows m { s with ladder := v } :=
  h.same rfl (Nat.le_refl _) rfl rfl rfl rfl rfl ok rfl
theorem State.Follows.set_links {m : Nat} {b s : State} {v} (h : b.Follows m s)
    (ok : Sub 0x100000 m := by exact Sub.trans (by assumption) (by decide)) :
    b.Follows m { s with links := v } :=
  h.same rfl (Nat.le_refl _) rfl rfl rfl rfl rfl ok rfl
theorem State.Follows.set_returns {m : Nat} {b s : State} {v} (h : b.Follows m s)
    (ok : Sub 0x200000 m := by exact Sub.trans (by assumption) (by decide)) :
    b.Follows m { s with returns := v } :=
  h.same rfl (Nat.le_refl _) rfl rfl rfl rfl rfl ok rfl
theorem State.Follows.set_laneMaps {m : Nat} {b s : State} {v} (h : b.Follows m s)
    (ok : Sub 0x400000 m := by exact Sub.trans (by assumption) (by decide)) :
    b.Follows m { s with laneMaps := v } :=
  h.same rfl (Nat.le_refl _) rfl rfl rfl rfl rfl ok rfl
theorem State.Follows.set_keys {m : Nat} {b s : State} {v} (h : b.Follows m s)
    (ok : Sub 0x800000 m := by exact Sub.trans (by assumption) (by decide)) :
    b.Follows m { s with keys := v } :=
  h.same rfl (Nat.le_refl _) rfl rfl rfl rfl rfl ok rfl
theorem State.Follows.set_clearing {m : Nat} {b s : State} {v} (h : b.Follows m s)
    (ok : Sub 0x1000000 m := by exact Sub.trans (by assumption) (by decide)) :
    b.Follows m { s with clearing := v } :=
  h.same rfl (Nat.le_refl _) rfl rfl rfl rfl rfl ok rfl
theorem State.Follows.set_dir {m : Nat} {b s : State} {v} (h : b.Follows m s)
    (ok : Sub 0x2000000 m := by exact Sub.trans (by assumption) (by decide)) :
    b.Follows m { s with dir := v } :=
  h.same rfl (Nat.le_refl _) rfl rfl rfl rfl rfl ok rfl
theorem State.Follows.set_hands {m : Nat} {b s : State} {v} (h : b.Follows m s)
    (ok : Sub 0x4000000 m := by exact Sub.trans (by assumption) (by decide)) :
    b.Follows m { s with hands := v } :=
  h.same rfl (Nat.le_refl _) rfl rfl rfl rfl rfl ok rfl
theorem State.Follows.set_fetches {m : Nat} {b s : State} {v} (h : b.Follows m s)
    (ok : Sub 0x8000000 m := by exact Sub.trans (by assumption) (by decide)) :
    b.Follows m { s with fetches := v } :=
  h.same rfl (Nat.le_refl _) rfl rfl rfl rfl rfl ok rfl
theorem State.Follows.set_demandQ {m : Nat} {b s : State} {v} (h : b.Follows m s)
    (ok : Sub 0x10000000 m := by exact Sub.trans (by assumption) (by decide)) :
    b.Follows m { s with demandQ := v } :=
  h.same rfl (Nat.le_refl _) rfl rfl rfl rfl rfl ok rfl
theorem State.Follows.set_prefetchQ {m : Nat} {b s : State} {v} (h : b.Follows m s)
    (ok : Sub 0x20000000 m := by exact Sub.trans (by assumption) (by decide)) :
    b.Follows m { s with prefetchQ := v } :=
  h.same rfl (Nat.le_refl _) rfl rfl rfl rfl rfl ok rfl
theorem State.Follows.set_far {m : Nat} {b s : State} {v} (h : b.Follows m s)
    (ok : Sub 0x40000000 m := by exact Sub.trans (by assumption) (by decide)) :
    b.Follows m { s with far := v } :=
  h.same rfl (Nat.le_refl _) rfl rfl rfl rfl rfl ok rfl
theorem State.Follows.set_streams {m : Nat} {b s : State} {v} (h : b.Follows m s)
    (ok : Sub 0x80000000 m := by exact Sub.trans (by assumption) (by decide)) :
    b.Follows m { s with streams := v } :=
  h.same rfl (Nat.le_refl _) rfl rfl rfl rfl rfl ok rfl
theorem State.Follows.set_lgUsed {m : Nat} {b s : State} {v} (h : b.Follows m s)
    (ok : Sub 0x100000000 m := by exact Sub.trans (by assumption) (by decide)) :
    b.Follows m { s with lgUsed := v } :=
  h.same rfl (Nat.le_refl _) rfl rfl rfl rfl rfl ok rfl
theorem State.Follows.set_lgSums {m : Nat} {b s : State} {v} (h : b.Follows m s)
    (ok : Sub 0x200000000 m := by exact Sub.trans (by assumption) (by decide)) :
    b.Follows m { s with lgSums := v } :=
  h.same rfl (Nat.le_refl _) rfl rfl rfl rfl rfl ok rfl
theorem State.Follows.set_lgWalk {m : Nat} {b s : State} {v} (h : b.Follows m s)
    (ok : Sub 0x400000000 m := by exact Sub.trans (by assumption) (by decide)) :
    b.Follows m { s with lgWalk := v } :=
  h.same rfl (Nat.le_refl _) rfl rfl rfl rfl rfl ok rfl
theorem State.Follows.set_attns {m : Nat} {b s : State} {v} (h : b.Follows m s)
    (ok : Sub 0x800000000 m := by exact Sub.trans (by assumption) (by decide)) :
    b.Follows m { s with attns := v } :=
  h.same rfl (Nat.le_refl _) rfl rfl rfl rfl rfl ok rfl
theorem State.Follows.set_recipes {m : Nat} {b s : State} {v} (h : b.Follows m s)
    (ok : Sub 0x1000000000 m := by exact Sub.trans (by assumption) (by decide)) :
    b.Follows m { s with recipes := v } :=
  h.same rfl (Nat.le_refl _) rfl rfl rfl rfl rfl ok rfl
theorem State.Follows.set_runs {m : Nat} {b s : State} {v} (h : b.Follows m s)
    (ok : Sub 0x2000000000 m := by exact Sub.trans (by assumption) (by decide)) :
    b.Follows m { s with runs := v } :=
  h.same rfl (Nat.le_refl _) rfl rfl rfl rfl rfl ok rfl
theorem State.Follows.set_cores {m : Nat} {b s : State} {v} (h : b.Follows m s)
    (ok : Sub 0x4000000000 m := by exact Sub.trans (by assumption) (by decide)) :
    b.Follows m { s with cores := v } :=
  h.same rfl (Nat.le_refl _) rfl rfl rfl rfl rfl ok rfl
theorem State.Follows.set_clReset {m : Nat} {b s : State} {v} (h : b.Follows m s)
    (ok : Sub 0x8000000000 m := by exact Sub.trans (by assumption) (by decide)) :
    b.Follows m { s with clReset := v } :=
  h.same rfl (Nat.le_refl _) rfl rfl rfl rfl rfl ok rfl
theorem State.Follows.set_packets {m : Nat} {b s : State} {v} (h : b.Follows m s)
    (ok : Sub 0x10000000000 m := by exact Sub.trans (by assumption) (by decide)) :
    b.Follows m { s with packets := v } :=
  h.same rfl (Nat.le_refl _) rfl rfl rfl rfl rfl ok rfl
theorem State.Follows.set_fwq {m : Nat} {b s : State} {v} (h : b.Follows m s)
    (ok : Sub 0x20000000000 m := by exact Sub.trans (by assumption) (by decide)) :
    b.Follows m { s with fwq := v } :=
  h.same rfl (Nat.le_refl _) rfl rfl rfl rfl rfl ok rfl
theorem State.Follows.set_interps {m : Nat} {b s : State} {v} (h : b.Follows m s)
    (ok : Sub 0x40000000000 m := by exact Sub.trans (by assumption) (by decide)) :
    b.Follows m { s with interps := v } :=
  h.same rfl (Nat.le_refl _) rfl rfl rfl rfl rfl ok rfl
theorem State.Follows.set_obs {m : Nat} {b s : State} {v} (h : b.Follows m s)
    (ok : Sub 0x80000000000 m := by exact Sub.trans (by assumption) (by decide)) :
    b.Follows m { s with obs := v } :=
  h.same rfl (Nat.le_refl _) rfl rfl rfl rfl rfl ok rfl
theorem State.Follows.set_nvm {m : Nat} {b s : State} {v} (h : b.Follows m s)
    (ok : Sub 0x100000000000 m := by exact Sub.trans (by assumption) (by decide)) :
    b.Follows m { s with nvm := v } :=
  h.same rfl (Nat.le_refl _) rfl rfl rfl rfl rfl ok rfl
theorem State.Follows.set_arbs {m : Nat} {b s : State} {v} (h : b.Follows m s)
    (ok : Sub 0x200000000000 m := by exact Sub.trans (by assumption) (by decide)) :
    b.Follows m { s with arbs := v } :=
  h.same rfl (Nat.le_refl _) rfl rfl rfl rfl rfl ok rfl
theorem State.Follows.set_i3want {m : Nat} {b s : State} {v} (h : b.Follows m s)
    (ok : Sub 0x400000000000 m := by exact Sub.trans (by assumption) (by decide)) :
    b.Follows m { s with i3want := v } :=
  h.same rfl (Nat.le_refl _) rfl rfl rfl rfl rfl ok rfl
theorem State.Follows.set_therm {m : Nat} {b s : State} {v} (h : b.Follows m s)
    (ok : Sub 0x1000000000000 m := by exact Sub.trans (by assumption) (by decide)) :
    b.Follows m { s with therm := v } :=
  h.same rfl (Nat.le_refl _) rfl rfl rfl rfl rfl ok rfl
theorem State.Follows.set_supply {m : Nat} {b s : State} {v} (h : b.Follows m s)
    (ok : Sub 0x2000000000000 m := by exact Sub.trans (by assumption) (by decide)) :
    b.Follows m { s with supply := v } :=
  h.same rfl (Nat.le_refl _) rfl rfl rfl rfl rfl ok rfl
theorem State.Follows.set_sec {m : Nat} {b s : State} {v} (h : b.Follows m s)
    (ok : Sub 0x8000000000000 m := by exact Sub.trans (by assumption) (by decide)) :
    b.Follows m { s with sec := v } :=
  h.same rfl (Nat.le_refl _) rfl rfl rfl rfl rfl ok rfl
theorem State.Follows.set_boot {m : Nat} {b s : State} {v} (h : b.Follows m s)
    (ok : Sub 0x10000000000000 m := by exact Sub.trans (by assumption) (by decide)) :
    b.Follows m { s with boot := v } :=
  h.same rfl (Nat.le_refl _) rfl rfl rfl rfl rfl ok rfl
theorem State.Follows.set_mgmtQ {m : Nat} {b s : State} {v} (h : b.Follows m s)
    (ok : Sub 0x20000000000000 m := by exact Sub.trans (by assumption) (by decide)) :
    b.Follows m { s with mgmtQ := v } :=
  h.same rfl (Nat.le_refl _) rfl rfl rfl rfl rfl ok rfl
theorem State.Follows.set_mapCopy {m : Nat} {b s : State} {v} (h : b.Follows m s)
    (ok : Sub 0x40000000000000 m := by exact Sub.trans (by assumption) (by decide)) :
    b.Follows m { s with mapCopy := v } :=
  h.same rfl (Nat.le_refl _) rfl rfl rfl rfl rfl ok rfl
theorem State.mix_free_obs {s : State} {v0 v1} :
    ({ s with free := v0, obs := v1 } : State) = State.mix 0x80000000010 s
    { s with free := v0, obs := v1 } := rfl
theorem State.Follows.set_ports_dir {m : Nat} {b s : State} {v0 v1} (h : b.Follows m s)
    (ok : Sub 0x2000040 m := by exact Sub.trans (by assumption) (by decide)) :
    b.Follows m { s with ports := v0, dir := v1 } :=
  h.same rfl (Nat.le_refl _) rfl rfl rfl rfl rfl ok rfl
theorem State.mix_mem_epochs {s : State} {v0 v1} :
    ({ s with mem := v0, epochs := v1 } : State) = State.mix 0x20800 s
    { s with mem := v0, epochs := v1 } := rfl
theorem State.Follows.set_remaps_spares {m : Nat} {b s : State} {v0 v1} (h : b.Follows m s)
    (ok : Sub 0xa000 m := by exact Sub.trans (by assumption) (by decide)) :
    b.Follows m { s with remaps := v0, spares := v1 } :=
  h.same rfl (Nat.le_refl _) rfl rfl rfl rfl rfl ok rfl
theorem State.Follows.set_links_returns {m : Nat} {b s : State} {v0 v1} (h : b.Follows m s)
    (ok : Sub 0x300000 m := by exact Sub.trans (by assumption) (by decide)) :
    b.Follows m { s with links := v0, returns := v1 } :=
  h.same rfl (Nat.le_refl _) rfl rfl rfl rfl rfl ok rfl
theorem State.Follows.set_keys_clearing {m : Nat} {b s : State} {v0 v1} (h : b.Follows m s)
    (ok : Sub 0x1800000 m := by exact Sub.trans (by assumption) (by decide)) :
    b.Follows m { s with keys := v0, clearing := v1 } :=
  h.same rfl (Nat.le_refl _) rfl rfl rfl rfl rfl ok rfl
theorem State.Follows.set_fetches_far {m : Nat} {b s : State} {v0 v1} (h : b.Follows m s)
    (ok : Sub 0x48000000 m := by exact Sub.trans (by assumption) (by decide)) :
    b.Follows m { s with fetches := v0, far := v1 } :=
  h.same rfl (Nat.le_refl _) rfl rfl rfl rfl rfl ok rfl
theorem State.Follows.set_demandQ_prefetchQ {m : Nat} {b s : State} {v0 v1} (h : b.Follows m s)
    (ok : Sub 0x30000000 m := by exact Sub.trans (by assumption) (by decide)) :
    b.Follows m { s with demandQ := v0, prefetchQ := v1 } :=
  h.same rfl (Nat.le_refl _) rfl rfl rfl rfl rfl ok rfl
theorem State.Follows.set_lgUsed_lgSums {m : Nat} {b s : State} {v0 v1} (h : b.Follows m s)
    (ok : Sub 0x300000000 m := by exact Sub.trans (by assumption) (by decide)) :
    b.Follows m { s with lgUsed := v0, lgSums := v1 } :=
  h.same rfl (Nat.le_refl _) rfl rfl rfl rfl rfl ok rfl
theorem State.Follows.set_interps_sec {m : Nat} {b s : State} {v0 v1} (h : b.Follows m s)
    (ok : Sub 0x8040000000000 m := by exact Sub.trans (by assumption) (by decide)) :
    b.Follows m { s with interps := v0, sec := v1 } :=
  h.same rfl (Nat.le_refl _) rfl rfl rfl rfl rfl ok rfl
theorem State.Follows.set_obs_nvm {m : Nat} {b s : State} {v0 v1} (h : b.Follows m s)
    (ok : Sub 0x180000000000 m := by exact Sub.trans (by assumption) (by decide)) :
    b.Follows m { s with obs := v0, nvm := v1 } :=
  h.same rfl (Nat.le_refl _) rfl rfl rfl rfl rfl ok rfl
theorem State.Follows.set_i3want_i3at {m : Nat} {b s : State} {v0 v1} (h : b.Follows m s)
    (ok : Sub 0xc00000000000 m := by exact Sub.trans (by assumption) (by decide)) :
    b.Follows m { s with i3want := v0, i3at := v1 } :=
  h.same rfl (Nat.le_refl _) rfl rfl rfl rfl rfl ok rfl
theorem State.Follows.set_therm_trims {m : Nat} {b s : State} {v0 v1} (h : b.Follows m s)
    (ok : Sub 0x5000000000000 m := by exact Sub.trans (by assumption) (by decide)) :
    b.Follows m { s with therm := v0, trims := v1 } :=
  h.same rfl (Nat.le_refl _) rfl rfl rfl rfl rfl ok rfl
theorem State.Follows.set_sec_boot {m : Nat} {b s : State} {v0 v1} (h : b.Follows m s)
    (ok : Sub 0x18000000000000 m := by exact Sub.trans (by assumption) (by decide)) :
    b.Follows m { s with sec := v0, boot := v1 } :=
  h.same rfl (Nat.le_refl _) rfl rfl rfl rfl rfl ok rfl
theorem State.Follows.set_attns_runs_packets_fwq {m : Nat} {b s : State} {v0 v1 v2 v3} (h : b.Follows m s)
    (ok : Sub 0x32800000000 m := by exact Sub.trans (by assumption) (by decide)) :
    b.Follows m { s with attns := v0, runs := v1, packets := v2, fwq := v3 } :=
  h.same rfl (Nat.le_refl _) rfl rfl rfl rfl rfl ok rfl
theorem State.Follows.set_dir_streams_lgUsed_lgSums_lgWalk_recipes {m : Nat} {b s : State} {v0 v1 v2 v3 v4 v5} (h :
    b.Follows m s)
    (ok : Sub 0x1782000000 m := by exact Sub.trans (by assumption) (by decide)) :
    b.Follows m { s with
      dir := v0, streams := v1, lgUsed := v2, lgSums := v3, lgWalk := v4, recipes := v5 } :=
  h.same rfl (Nat.le_refl _) rfl rfl rfl rfl rfl ok rfl
theorem State.mix_cold {s : State} {v0 v1 v2 v3 v4 v5 v6 v7 v8 v9 v10 v11} :
    ({ s with
      regs := v0, pccs := v1, mem := v2, descs := v3, retPend := v4, obs := v5,
      arbs := v6, i3at := v7, therm := v8, supply := v9, sec := v10, boot := v11 } : State) = State.mix 0x1ba80000041c02 s
    { s with
      regs := v0, pccs := v1, mem := v2, descs := v3, retPend := v4, obs := v5,
      arbs := v6, i3at := v7, therm := v8, supply := v9, sec := v10, boot := v11 } := rfl
theorem State.mix_wipe {s : State} {v0 v1 v2 v3 v4 v5 v6 v7 v8 v9 v10 v11} :
    ({ s with
      mem := v0, mapCopy := v1, remaps := v2, repairs := v3, spares := v4, epochs := v5,
      retPend := v6, ladder := v7, laneMaps := v8, obs := v9, nvm := v10, trims := v11 } : State) = State.mix 0x441800004ee800 s
    { s with
      mem := v0, mapCopy := v1, remaps := v2, repairs := v3, spares := v4, epochs := v5,
      retPend := v6, ladder := v7, laneMaps := v8, obs := v9, nvm := v10, trims := v11 } := rfl
theorem State.mix_core {s : State} {v0 v1 v2 v3 v4 v5 v6 v7 v8 v9 v10 v11 v12 v13 v14 v15 v16 v17 v18 v19 v20 v21 v22 v23 v24 v25 v26 v27 v28 v29 v30 v31} :
    ({ s with
      clk := v0, pregs := v1, ports := v2, gates := v3, tenants := v4, wheel := v5,
      pccs := v6, rows := v7, retPend := v8, ladder := v9, links := v10, returns := v11,
      keys := v12, clearing := v13, hands := v14, fetches := v15, demandQ := v16, prefetchQ := v17,
      far := v18, attns := v19, recipes := v20, runs := v21, cores := v22, clReset := v23,
      packets := v24, fwq := v25, interps := v26, mgmtQ := v27, obs := v28, i3want := v29,
      therm := v30, sec := v31 } : State) = State.mix 0x294ff87dbd07c5 s
    { s with
      clk := v0, pregs := v1, ports := v2, gates := v3, tenants := v4, wheel := v5,
      pccs := v6, rows := v7, retPend := v8, ladder := v9, links := v10, returns := v11,
      keys := v12, clearing := v13, hands := v14, fetches := v15, demandQ := v16, prefetchQ := v17,
      far := v18, attns := v19, recipes := v20, runs := v21, cores := v22, clReset := v23,
      packets := v24, fwq := v25, interps := v26, mgmtQ := v27, obs := v28, i3want := v29,
      therm := v30, sec := v31 } := rfl

/-! ## Pairs and folds -/

theorem State.Follows.fst {α : Type} {m : Nat} {b : State} {p : State × α} {t : State} {x : α} (e : p = (t, x))
    (h : b.Follows m p.1) : b.Follows m t := by subst e; exact h

theorem State.Follows.foldl {α : Type} {m : Nat} {b : State} {f : State → α → State}
    (hf : ∀ t x, b.Follows m t → b.Follows m (f t x)) : ∀ (l : List α) {s : State}, b.Follows m s → b.Follows m (l.foldl f s)
  | [], _, h => h
  | x :: r, _, h => State.Follows.foldl hf r (hf _ x h)

theorem State.Follows.foldlFst {α β : Type} {m : Nat} {b : State} {f : State × β → α → State × β}
    (hf : ∀ t x, b.Follows m t.1 → b.Follows m (f t x).1) :
    ∀ (l : List α) {s : State × β}, b.Follows m s.1 → b.Follows m (l.foldl f s).1
  | [], _, h => h
  | x :: r, _, h => State.Follows.foldlFst hf r (hf _ x h)

theorem State.Follows.getD {m : Nat} {b : State} {o : Option State} {t : State} (ho : ∀ u, o = some u → b.Follows m u)
    (ht : b.Follows m t) : b.Follows m (o.getD t) := by
  cases o with
  | none => exact ht
  | some u => exact ho u rfl

/-! ## Operations that touch the fields of the relation -/

section
variable {m : Nat} {b s : State}

theorem State.drawGranule_follows (hb : b.Follows m s) (ok : Sub 0x10 m := by exact Sub.trans (by assumption) (by decide)) :
    b.Follows m s.drawGranule.1 :=
  ⟨hb.queue, hb.clock, hb.shown, Nat.le_succ_of_le hb.drawn, hb.ids, hb.memory, hb.keep ok rfl⟩

theorem State.drawNat_follows (hb : b.Follows m s) (ok : Sub 0x10 m := by exact Sub.trans (by assumption) (by decide)) :
    b.Follows m s.drawNat.1 :=
  ⟨hb.queue, hb.clock, hb.shown, Nat.le_succ_of_le hb.drawn, hb.ids, hb.memory, hb.keep ok rfl⟩

theorem State.drawReport_follows (hb : b.Follows m s) (ok : Sub 0x10 m := by exact Sub.trans (by assumption) (by decide)) :
    b.Follows m s.drawReport.1 :=
  ⟨hb.queue, hb.clock, hb.shown, Nat.le_succ_of_le hb.drawn, hb.ids, hb.memory, hb.keep ok rfl⟩

theorem State.freshId_follows (hb : b.Follows m s) (ok : Sub 0x20 m := by exact Sub.trans (by assumption) (by decide)) :
    b.Follows m s.freshId.1 :=
  ⟨hb.queue, hb.clock, hb.shown, hb.drawn, Nat.le_succ_of_le hb.ids, hb.memory, hb.keep ok rfl⟩

theorem State.emit_follows (o : Out) (hb : b.Follows m s) (ok : Sub 0x8 m := by exact Sub.trans (by assumption) (by decide)) :
    b.Follows m (s.emit o) :=
  ⟨hb.queue, hb.clock, hb.shown.trans (List.prefix_append _ _), hb.drawn, hb.ids, hb.memory,
    hb.keep ok rfl⟩

end
end Sys2Proof.Machine
end

