-- ==== Sys2Proof/Laws/Tables.lean ====
section
/-! SUPPORT. Finite tables: reading after a change, and the canonical form. -/
namespace Sys2Proof.Machine

variable {α : Type}

@[simp] theorem tfind_nil (k : Nat) : tfind ([] : Table α) k = none := rfl

@[simp] theorem tget_nil (d : α) (k : Nat) : tget d ([] : Table α) k = d := rfl

theorem tfind_tset_same (m : Table α) (k : Nat) (v : α) : tfind (tset m k v) k = some v := by
  induction m with
  | nil => simp [tset, tfind]
  | cons e r ih =>
    obtain ⟨a, w⟩ := e
    unfold tset
    split
    · rename_i h; simp [tfind, Nat.ne_of_lt h, ih]
    · split <;> simp [tfind]

theorem tfind_tset_other (m : Table α) {k j : Nat} (v : α) (h : j ≠ k) : tfind (tset m k v) j = tfind m j := by
  induction m with
  | nil => simp [tset, tfind, Ne.symm h]
  | cons e r ih =>
    obtain ⟨a, w⟩ := e
    unfold tset
    split
    · simp only [tfind, ih]
    · split
      · rename_i h2; subst h2; simp [tfind, Ne.symm h]
      · simp [tfind, Ne.symm h]

theorem tfind_tdel_same (m : Table α) (k : Nat) : tfind (tdel m k) k = none := by
  induction m with
  | nil => rfl
  | cons e r ih =>
    obtain ⟨a, w⟩ := e
    unfold tdel
    split
    · exact ih
    · rename_i h; simp [tfind, h, ih]

theorem tfind_tdel_other (m : Table α) {k j : Nat} (h : j ≠ k) : tfind (tdel m k) j = tfind m j := by
  induction m with
  | nil => rfl
  | cons e r ih =>
    obtain ⟨a, w⟩ := e
    unfold tdel
    split
    · rename_i h2; subst h2; simp [tfind, Ne.symm h, ih]
    · simp only [tfind, ih]

theorem tfind_tput_other [DecidableEq α] (d : α) (m : Table α) {k j : Nat} (v : α) (h : j ≠ k) :
    tfind (tput d m k v) j = tfind m j := by
  unfold tput
  split
  · exact tfind_tdel_other m h
  · exact tfind_tset_other m v h

@[simp] theorem tget_tput_same [DecidableEq α] (d : α) (m : Table α) (k : Nat) (v : α) : tget d (tput d m k v) k = v := by
  unfold tget tput
  split
  · rename_i h; simp [tfind_tdel_same, h]
  · simp [tfind_tset_same]

theorem tget_tput_other [DecidableEq α] (d e : α) (m : Table α) {k j : Nat} (v : α) (h : j ≠ k) :
    tget e (tput d m k v) j = tget e m j := by
  unfold tget; rw [tfind_tput_other d m v h]

/-! ## The canonical form -/

theorem mem_tset {m : Table α} {k : Nat} {v : α} {e : Nat × α} (h : e ∈ tset m k v) : e = (k, v) ∨ e ∈ m := by
  induction m with
  | nil => simpa [tset] using h
  | cons f r ih =>
    obtain ⟨a, w⟩ := f
    unfold tset at h
    split at h
    · rcases List.mem_cons.mp h with h | h
      · exact .inr (h ▸ List.mem_cons_self)
      · exact (ih h).imp id (List.mem_cons_of_mem _)
    · split at h
      · rcases List.mem_cons.mp h with h | h
        · exact .inl h
        · exact .inr (List.mem_cons_of_mem _ h)
      · rcases List.mem_cons.mp h with h | h
        · exact .inl h
        · exact .inr h

theorem mem_tdel {m : Table α} {k : Nat} {e : Nat × α} (h : e ∈ tdel m k) : e ∈ m := by
  induction m with
  | nil => simp [tdel] at h
  | cons f r ih =>
    obtain ⟨a, w⟩ := f
    unfold tdel at h
    split at h
    · exact List.mem_cons_of_mem _ (ih h)
    · rcases List.mem_cons.mp h with h | h
      · exact h ▸ List.mem_cons_self
      · exact List.mem_cons_of_mem _ (ih h)

/-- Keys strictly rise exactly when they are pairwise rising. -/
theorem trising_iff (m : Table α) : trising m = true ↔ m.Pairwise fun x y => x.1 < y.1 := by
  induction m with
  | nil => simp [trising]
  | cons e r ih =>
    obtain ⟨a, w⟩ := e
    cases r with
    | nil => simp [trising]
    | cons f q =>
      obtain ⟨c, x⟩ := f
      rw [List.pairwise_cons, ← ih]
      simp only [trising, Bool.and_eq_true, decide_eq_true_eq]
      constructor
      · rintro ⟨h, t⟩
        refine ⟨fun y hy => ?_, t⟩
        rcases List.mem_cons.mp hy with hy | hy
        · exact hy ▸ h
        · exact Nat.lt_trans h ((List.pairwise_cons.mp (ih.mp t)).1 y hy)
      · rintro ⟨h, t⟩
        exact ⟨h _ List.mem_cons_self, t⟩

theorem trising_tdel {m : Table α} (k : Nat) (h : trising m = true) : trising (tdel m k) = true := by
  rw [trising_iff] at *
  induction m with
  | nil => exact h
  | cons e r ih =>
    obtain ⟨a, w⟩ := e
    rw [List.pairwise_cons] at h
    unfold tdel
    split
    · exact ih h.2
    · exact List.pairwise_cons.mpr ⟨fun y hy => h.1 y (mem_tdel hy), ih h.2⟩

theorem trising_tset {m : Table α} (k : Nat) (v : α) (h : trising m = true) : trising (tset m k v) = true := by
  rw [trising_iff] at *
  induction m with
  | nil => simp [tset]
  | cons e r ih =>
    obtain ⟨a, w⟩ := e
    have h' := List.pairwise_cons.mp h
    unfold tset
    split
    · rename_i lt
      refine List.pairwise_cons.mpr ⟨fun y hy => ?_, ih h'.2⟩
      rcases mem_tset hy with hy | hy
      · subst hy; exact lt
      · exact h'.1 y hy
    · split
      · rename_i eq; subst eq
        exact List.pairwise_cons.mpr ⟨fun y hy => h'.1 y hy, h'.2⟩
      · rename_i nlt ne
        have lt : k < a := by omega
        refine List.pairwise_cons.mpr ⟨fun y hy => ?_, h⟩
        rcases List.mem_cons.mp hy with hy | hy
        · subst hy; exact lt
        · exact Nat.lt_trans lt (h'.1 y hy)

theorem trising_tput [DecidableEq α] (d : α) {m : Table α} (k : Nat) (v : α) (h : trising m = true) :
    trising (tput d m k v) = true := by
  unfold tput
  split
  · exact trising_tdel k h
  · exact trising_tset k v h

theorem trising_filter {m : Table α} (p : Nat × α → Bool) (h : trising m = true) : trising (m.filter p) = true := by
  rw [trising_iff] at *
  exact h.filter _

end Sys2Proof.Machine
end

