-- ==== Sys2Proof/Laws/Memory.lean ====
section
/-! SUPPORT. The stored cells keep their canonical form (Memory.wf) under the operations that touch them: a sector written and
a stack filled with poison. -/
namespace Sys2Proof.Machine

theorem Memory.wf_nil (ep : Table Nat) : Memory.wf ep [] = true := rfl

theorem Memory.wf_iff (ep : Table Nat) (m : List Host.Cell) :
    Memory.wf ep m = true ↔ trising m = true ∧ ∀ c ∈ m, c.1 % 64 < 36 ∧ c.2 ≠ cellFill ep c.1 := by
  unfold Memory.wf
  simp only [Bool.and_eq_true, List.all_eq_true, decide_eq_true_eq]

/-- One symbol of a sector is written: symbol n of sector k. -/
theorem Memory.wf_put {ep : Table Nat} {m : List Host.Cell} (k n : Nat) (v : Byte) (hn : n < 36) (h : Memory.wf ep m = true) :
    Memory.wf ep (tput (((fillSector ep k)[n]?).getD 0) m (64 * k + n) v) = true := by
  rw [Memory.wf_iff] at *
  refine ⟨trising_tput _ _ _ h.1, fun c hc => ?_⟩
  unfold tput at hc
  split at hc
  · exact h.2 c (mem_tdel hc)
  · rename_i ne
    rcases mem_tset hc with e | hc
    · subst e
      have h1 : (64 * k + n) % 64 = n := by omega
      have h2 : (64 * k + n) / 64 = k := by omega
      simp only [cellFill, h1, h2]
      exact ⟨hn, ne⟩
    · exact h.2 c hc

theorem Memory.wf_putRaw {s : State} (pc bank row col : Nat) (l : List Byte) (h : Memory.wf s.epochs s.mem = true) :
    Memory.wf (s.putRaw pc bank row col l).epochs (s.putRaw pc bank row col l).mem = true := by
  have : ∀ (ns : List Nat) (m : List Host.Cell), (∀ n ∈ ns, n < 36) → Memory.wf s.epochs m = true →
      Memory.wf s.epochs (ns.foldl (fun m n => tput (((fillSector s.epochs (sectorIndex pc bank row col))[n]?).getD 0) m
        (64 * sectorIndex pc bank row col + n) ((l[n]?).getD 0)) m) = true := by
    intro ns
    induction ns with
    | nil => intro m _ hm; exact hm
    | cons n r ih =>
      intro m hr hm
      exact ih _ (fun x hx => hr x (List.mem_cons_of_mem _ hx)) (Memory.wf_put _ n _ (hr n List.mem_cons_self) hm)
  exact this _ _ (fun n hn => List.mem_range.mp hn) h

/-- Epochs of pseudo-channels outside a run of keys stay. -/
theorem tget_epochs_other (f : Table Nat → Nat → Nat) (base k : Nat) : ∀ (ns : List Nat) (m : Table Nat), (∀ n ∈ ns, base + n ≠ k) →
    tget 0 (ns.foldl (fun m i => tput 0 m (base + i) (f m i)) m) k = tget 0 m k
  | [], _, _ => rfl
  | n :: r, m, h => by
    rw [List.foldl_cons, tget_epochs_other f base k r _ (fun x hx => h x (List.mem_cons_of_mem _ hx))]
    exact tget_tput_other 0 0 m _ (Ne.symm (h n List.mem_cons_self))

theorem Memory.wf_fillStack {s : State} (k : Nat) (h : Memory.wf s.epochs s.mem = true) :
    Memory.wf (s.fillStack k).epochs (s.fillStack k).mem = true := by
  rw [Memory.wf_iff] at *
  refine ⟨trising_filter _ h.1, fun c hc => ?_⟩
  obtain ⟨hc, hk⟩ := List.mem_filter.mp hc
  refine ⟨(h.2 c hc).1, ?_⟩
  have hk' : c.1 / 64 / (24576 * 64 * 32) / 64 ≠ k := of_decide_eq_true hk
  have e : tget 0 (s.fillStack k).epochs (c.1 / 64 / (24576 * 64 * 32)) = tget 0 s.epochs (c.1 / 64 / (24576 * 64 * 32)) := by
    have far : ∀ n ∈ List.range 64, 64 * k + n ≠ c.1 / 64 / (24576 * 64 * 32) := fun n hn eq => hk' (by
      have := List.mem_range.mp hn
      omega)
    have := tget_epochs_other (fun m i => (tget 0 m (64 * k + i) + 1) % 16) (64 * k) _ _ s.epochs far
    simpa only [State.fillStack] using this
  have : cellFill (s.fillStack k).epochs c.1 = cellFill s.epochs c.1 := by
    simp only [cellFill, fillSector, e]
  exact fun e => (h.2 c hc).2 (e.trans this)

end Sys2Proof.Machine
end

