-- ==== Sys2Proof/Laws/FollowsBase.lean ====
section
/-! SUPPORT. What each operation may do to the fields of State.Follows, one lemma per operation: the shared operations,
the arbiters and the pseudo-channel controllers. -/
namespace Sys2Proof.Machine

set_option Elab.async false
set_option linter.unusedVariables false
set_option linter.unusedTactic false
set_option linter.unreachableTactic false

theorem State.Follows.ite {μ : Nat} {c : Prop} [Decidable c] {b x y : State}
    (h1 : c → b.Follows μ x) (h2 : ¬c → b.Follows μ y) : b.Follows μ (if c then x else y) := by
  split <;> simp_all

/-! ## Ops -/

theorem onUnit_follows {μ : Nat} {b s t : State} {ok : Bool} (h : b.Follows μ s) (ee : onUnit ok s = .next t) : b.Follows μ t := by
  unfold onUnit at ee
  split at ee
  · cases ee; exact h
  · cases ee

theorem State.ifUp_follows {μ : Nat} {b : State} {s : State} (f : State → State) (hb : b.Follows μ s)
    (hf : ∀ t : State, b.Follows μ t → b.Follows μ (f t)) : b.Follows μ (State.ifUp s f) := by
  unfold State.ifUp
  split
  · exact hb
  · exact hf _ hb

theorem State.rput_follows {μ : Nat} {b : State} {s : State} (r : Reg) (ix : List Nat) (w : Word) (hb : b.Follows μ s)
    (okm : Sub 0x2 μ := by exact Sub.trans (by assumption) (by decide)) :
    b.Follows μ (State.rput s r ix w) := by
  unfold State.rput
  repeat' (first
    | with_reducible assumption
    | (fail_if_no_progress with_reducible refine State.Follows.set_regs ?_ (Sub.trans okm (by decide))))

theorem State.fset_follows {μ : Nat} {b : State} {s : State} (f : Fld) (ix : List Nat) (v : Nat) (hb : b.Follows μ s)
    (okm : Sub 0x2 μ := by exact Sub.trans (by assumption) (by decide)) :
    b.Follows μ (State.fset s f ix v) := by
  unfold State.fset
  repeat' (first
    | (with_reducible exact Sub.trans okm (by decide))
    | with_reducible assumption
    | (with_reducible apply State.rput_follows))

theorem State.fsat_follows {μ : Nat} {b : State} {s : State} (f : Fld) (ix : List Nat) (n : Nat) (hb : b.Follows μ s)
    (okm : Sub 0x2 μ := by exact Sub.trans (by assumption) (by decide)) :
    b.Follows μ (State.fsat s f ix n) := by
  unfold State.fsat
  repeat' (first
    | (with_reducible exact Sub.trans okm (by decide))
    | with_reducible assumption
    | (with_reducible apply State.fset_follows))

theorem State.fadd_follows {μ : Nat} {b : State} {s : State} (f : Fld) (ix : List Nat) (n : Nat) (hb : b.Follows μ s)
    (okm : Sub 0x2 μ := by exact Sub.trans (by assumption) (by decide)) :
    b.Follows μ (State.fadd s f ix n) := by
  unfold State.fadd
  repeat' (first
    | (with_reducible exact Sub.trans okm (by decide))
    | with_reducible assumption
    | (with_reducible apply State.fset_follows))

theorem State.raise_follows {μ : Nat} {b : State} {s : State} (n : Nat) (f : Fld) (ix : List Nat) (firsts : List (Fld × Nat)) (hb : b.Follows μ s)
    (okm : Sub 0x2 μ := by exact Sub.trans (by assumption) (by decide)) :
    b.Follows μ (State.raise s n f ix firsts) := by
  unfold State.raise
  repeat' (first
    | (with_reducible exact Sub.trans okm (by decide))
    | with_reducible assumption
    | (with_reducible apply State.fset_follows)
    | (with_reducible apply State.Follows.foldl)
    | (with_reducible apply State.Follows.ite)
    | (intro _ _ _; beta_reduce)
    | (intro _))

theorem State.pmcAdd_follows {μ : Nat} {b : State} {s : State} (i : Nat) (n : Nat) (hb : b.Follows μ s)
    (okm : Sub 0x2 μ := by exact Sub.trans (by assumption) (by decide)) :
    b.Follows μ (State.pmcAdd s i n) := by
  unfold State.pmcAdd
  repeat' (first
    | (with_reducible exact Sub.trans okm (by decide))
    | with_reducible assumption
    | (with_reducible apply State.fset_follows)
    | (with_reducible apply State.raise_follows)
    | (with_reducible apply State.rput_follows)
    | (with_reducible apply State.Follows.ite)
    | (intro _))

theorem State.ev_follows {μ : Nat} {b : State} {s : State} (code : Nat) (inst : Nat) (n : Nat) (hb : b.Follows μ s)
    (okm : Sub 0x2 μ := by exact Sub.trans (by assumption) (by decide)) :
    b.Follows μ (State.ev s code inst n) := by
  unfold State.ev
  repeat' (first
    | (with_reducible exact Sub.trans okm (by decide))
    | with_reducible assumption
    | (with_reducible apply State.pmcAdd_follows)
    | (with_reducible apply State.Follows.foldl)
    | (with_reducible apply State.Follows.ite)
    | (intro _ _ _; beta_reduce)
    | (intro _))

theorem State.logRec_follows {μ : Nat} {b : State} {s : State} (r : Rec) (hb : b.Follows μ s)
    (okm : Sub 0x80000000002 μ := by exact Sub.trans (by assumption) (by decide)) :
    b.Follows μ (State.logRec s r) := by
  unfold State.logRec
  repeat' (first
    | (with_reducible exact Sub.trans okm (by decide))
    | with_reducible assumption
    | (with_reducible apply State.fsat_follows)
    | (fail_if_no_progress with_reducible refine State.Follows.set_obs ?_ (Sub.trans okm (by decide)))
    | (with_reducible apply State.Follows.ite)
    | (intro _))

theorem State.log_follows {μ : Nat} {b : State} {s : State} (ty : RecTy) (src : Nat) (sub : Nat) (a0 : Nat) (a1 : Nat) (hb : b.Follows μ s)
    (okm : Sub 0x80000000002 μ := by exact Sub.trans (by assumption) (by decide)) :
    b.Follows μ (State.log s ty src sub a0 a1) := by
  unfold State.log
  repeat' (first
    | (with_reducible exact Sub.trans okm (by decide))
    | with_reducible assumption
    | (with_reducible apply State.logRec_follows))

theorem State.setPort_follows {μ : Nat} {b : State} {s : State} (n : Nat) (p : Port) (hb : b.Follows μ s)
    (okm : Sub 0x40 μ := by exact Sub.trans (by assumption) (by decide)) :
    b.Follows μ (State.setPort s n p) := by
  unfold State.setPort
  repeat' (first
    | with_reducible assumption
    | (fail_if_no_progress with_reducible refine State.Follows.set_ports ?_ (Sub.trans okm (by decide))))

theorem State.setPcc_follows {μ : Nat} {b : State} {s : State} (pc : Nat) (p : Pcc) (hb : b.Follows μ s)
    (okm : Sub 0x400 μ := by exact Sub.trans (by assumption) (by decide)) :
    b.Follows μ (State.setPcc s pc p) := by
  unfold State.setPcc
  repeat' (first
    | with_reducible assumption
    | (fail_if_no_progress with_reducible refine State.Follows.set_pccs ?_ (Sub.trans okm (by decide))))

theorem State.setDesc_follows {μ : Nat} {b : State} {s : State} (i : Nat) (d : Desc) (hb : b.Follows μ s)
    (okm : Sub 0x1000 μ := by exact Sub.trans (by assumption) (by decide)) :
    b.Follows μ (State.setDesc s i d) := by
  unfold State.setDesc
  repeat' (first
    | with_reducible assumption
    | (fail_if_no_progress with_reducible refine State.Follows.set_descs ?_ (Sub.trans okm (by decide))))

theorem State.setTenQ_follows {μ : Nat} {b : State} {s : State} (t : Nat) (q : TenQ) (hb : b.Follows μ s)
    (okm : Sub 0x100 μ := by exact Sub.trans (by assumption) (by decide)) :
    b.Follows μ (State.setTenQ s t q) := by
  unfold State.setTenQ
  repeat' (first
    | with_reducible assumption
    | (fail_if_no_progress with_reducible refine State.Follows.set_tenants ?_ (Sub.trans okm (by decide))))

theorem State.setGate_follows {μ : Nat} {b : State} {s : State} (n : Nat) (g : Gate) (hb : b.Follows μ s)
    (okm : Sub 0x80 μ := by exact Sub.trans (by assumption) (by decide)) :
    b.Follows μ (State.setGate s n g) := by
  unfold State.setGate
  repeat' (first
    | with_reducible assumption
    | (fail_if_no_progress with_reducible refine State.Follows.set_gates ?_ (Sub.trans okm (by decide))))

/-! ## AddrMap -/

theorem State.putRaw_follows {μ : Nat} {b s : State} (pc bank row col : Nat) (l : List Byte) (hb : b.Follows μ s)
    (okm : Sub 0x800 μ := by exact Sub.trans (by assumption) (by decide)) :
    b.Follows μ (s.putRaw pc bank row col l) :=
  ⟨hb.queue, hb.clock, hb.shown, hb.drawn, hb.ids, fun w => Memory.wf_putRaw pc bank row col l (hb.memory w),
    hb.keep okm State.mix_mem⟩

theorem State.storeSector_follows {μ : Nat} {b : State} {s : State} (p : Place) (h : Nat) (poison : Bool) (d : SectorData) (hb : b.Follows μ s)
    (okm : Sub 0x800 μ := by exact Sub.trans (by assumption) (by decide)) :
    b.Follows μ (State.storeSector s p h poison d) := by
  unfold State.storeSector
  repeat' (first
    | (with_reducible exact Sub.trans okm (by decide))
    | with_reducible assumption
    | (with_reducible apply State.putRaw_follows))

theorem State.copyMap_follows {μ : Nat} {b : State} {s : State} (hb : b.Follows μ s)
    (okm : Sub 0x40000000000000 μ := by exact Sub.trans (by assumption) (by decide)) :
    b.Follows μ (State.copyMap s) := by
  unfold State.copyMap
  repeat' (first
    | with_reducible assumption
    | (fail_if_no_progress with_reducible refine State.Follows.set_mapCopy ?_ (Sub.trans okm (by decide))))

theorem State.recapOn_follows {μ : Nat} {b : State} {s : State} (t : Nat → Bool) (hb : b.Follows μ s)
    (okm : Sub 0x1000 μ := by exact Sub.trans (by assumption) (by decide)) :
    b.Follows μ (State.recapOn s t) := by
  unfold State.recapOn
  repeat' (first
    | with_reducible assumption
    | (fail_if_no_progress with_reducible refine State.Follows.set_descs ?_ (Sub.trans okm (by decide)))
    | (with_reducible apply State.Follows.foldl)
    | (intro _ _ _; beta_reduce))

theorem State.recap_follows {μ : Nat} {b : State} {s : State} (hb : b.Follows μ s)
    (okm : Sub 0x1000 μ := by exact Sub.trans (by assumption) (by decide)) :
    b.Follows μ (State.recap s) := by
  unfold State.recap
  repeat' (first
    | (with_reducible exact Sub.trans okm (by decide))
    | with_reducible assumption
    | (with_reducible apply State.recapOn_follows))

theorem State.mapWithout_follows {μ : Nat} {b : State} {s : State} (pcs : List Nat) (hb : b.Follows μ s)
    (okm : Sub 0x1000 μ := by exact Sub.trans (by assumption) (by decide)) :
    b.Follows μ (State.mapWithout s pcs) := by
  unfold State.mapWithout
  repeat' (first
    | (with_reducible exact Sub.trans okm (by decide))
    | with_reducible assumption
    | (with_reducible apply State.recapOn_follows)
    | (fail_if_no_progress with_reducible refine State.Follows.set_descs ?_ (Sub.trans okm (by decide))))

/-! ## Arbiter -/

theorem State.setArb_follows {μ : Nat} {b : State} {s : State} (i : Nat) (a : Arb) (hb : b.Follows μ s)
    (okm : Sub 0x200000000000 μ := by exact Sub.trans (by assumption) (by decide)) :
    b.Follows μ (State.setArb s i a) := by
  unfold State.setArb
  repeat' (first
    | with_reducible assumption
    | (fail_if_no_progress with_reducible refine State.Follows.set_arbs ?_ (Sub.trans okm (by decide))))

theorem State.arbRequest_follows {μ : Nat} {b : State} {s : State} (i : Nat) (j : Nat) (hb : b.Follows μ s)
    (okm : Sub 0x200000000000 μ := by exact Sub.trans (by assumption) (by decide)) :
    b.Follows μ (State.arbRequest s i j) := by
  unfold State.arbRequest
  repeat' (first
    | (with_reducible exact Sub.trans okm (by decide))
    | with_reducible assumption
    | (with_reducible apply State.setArb_follows)
    | (with_reducible apply State.Follows.ite)
    | (intro _))

theorem execArbRequest_follows {μ : Nat} {b : State} {i : Nat} {j : Nat} {s : State} (hb : b.Follows μ s) {tt : State} (ee : execArbRequest i j s = .next tt)
    (okm : Sub 0x200000000000 μ := by exact Sub.trans (by assumption) (by decide)) :
    b.Follows μ tt := by
  unfold execArbRequest at ee
  first | refine onUnit_follows ?_ ee | cases ee
  repeat' (first
    | (with_reducible exact Sub.trans okm (by decide))
    | with_reducible assumption
    | (with_reducible apply State.arbRequest_follows))

theorem State.arbGive_follows {μ : Nat} {b : State} {s : State} (i : Nat) (j : Nat) (seized : Bool) (hb : b.Follows μ s)
    (okm : Sub 0x200000000002 μ := by exact Sub.trans (by assumption) (by decide)) :
    b.Follows μ (State.arbGive s i j seized) := by
  unfold State.arbGive
  repeat' (first
    | (with_reducible exact Sub.trans okm (by decide))
    | with_reducible assumption
    | (with_reducible apply State.setArb_follows)
    | (with_reducible apply State.fsat_follows))

theorem State.arbGrant_follows {μ : Nat} {b : State} {s : State} (i : Nat) (hb : b.Follows μ s)
    (okm : Sub 0x200000000002 μ := by exact Sub.trans (by assumption) (by decide)) :
    b.Follows μ (State.arbGrant s i) := by
  unfold State.arbGrant
  repeat' (first
    | (with_reducible exact Sub.trans okm (by decide))
    | with_reducible assumption
    | (with_reducible apply State.arbGive_follows)
    | (with_reducible apply State.Follows.ite)
    | (intro _)
    | split)

theorem execArbGrant_follows {μ : Nat} {b : State} {i : Nat} {s : State} (hb : b.Follows μ s) {tt : State} (ee : execArbGrant i s = .next tt)
    (okm : Sub 0x200000000002 μ := by exact Sub.trans (by assumption) (by decide)) :
    b.Follows μ tt := by
  unfold execArbGrant at ee
  first | refine onUnit_follows ?_ ee | cases ee
  repeat' (first
    | (with_reducible exact Sub.trans okm (by decide))
    | with_reducible assumption
    | (with_reducible apply State.arbGrant_follows))

theorem State.arbSeized_follows {μ : Nat} {b : State} {s : State} (i : Nat) (holder : Nat) (hb : b.Follows μ s)
    (okm : Sub 0x280000000002 μ := by exact Sub.trans (by assumption) (by decide)) :
    b.Follows μ (State.arbSeized s i holder) := by
  unfold State.arbSeized
  repeat' (first
    | (with_reducible exact Sub.trans okm (by decide))
    | with_reducible assumption
    | (with_reducible apply State.arbGive_follows)
    | (with_reducible apply State.fset_follows)
    | (with_reducible apply State.log_follows))

theorem State.arbDrop_follows {μ : Nat} {b : State} {s : State} (i : Nat) (j : Nat) (hb : b.Follows μ s)
    (okm : Sub 0x280000000002 μ := by exact Sub.trans (by assumption) (by decide)) :
    b.Follows μ (State.arbDrop s i j) := by
  unfold State.arbDrop
  repeat' (first
    | (with_reducible exact Sub.trans okm (by decide))
    | with_reducible assumption
    | (with_reducible apply State.setArb_follows)
    | (with_reducible apply State.arbSeized_follows)
    | (with_reducible apply State.Follows.ite)
    | (intro _))

theorem execArbDrop_follows {μ : Nat} {b : State} {i : Nat} {j : Nat} {s : State} (hb : b.Follows μ s) {tt : State} (ee : execArbDrop i j s = .next tt)
    (okm : Sub 0x280000000002 μ := by exact Sub.trans (by assumption) (by decide)) :
    b.Follows μ tt := by
  unfold execArbDrop at ee
  first | refine onUnit_follows ?_ ee | cases ee
  repeat' (first
    | (with_reducible exact Sub.trans okm (by decide))
    | with_reducible assumption
    | (with_reducible apply State.arbDrop_follows))

theorem State.askPort_follows {μ : Nat} {b : State} {s : State} (i : Nat) (j : Nat) (hb : b.Follows μ s)
    (okm : Sub 0x200000000002 μ := by exact Sub.trans (by assumption) (by decide)) :
    b.Follows μ (State.askPort s i j) := by
  unfold State.askPort
  repeat' (first
    | (with_reducible exact Sub.trans okm (by decide))
    | with_reducible assumption
    | (with_reducible apply State.arbGrant_follows)
    | (with_reducible apply State.arbRequest_follows)
    | (with_reducible apply State.Follows.ite)
    | (intro _))

theorem State.withPort_follows {μ : Nat} {b s : State} (i j : Nat) (f : State → State)
    (hf : ∀ t, b.Follows μ t → b.Follows μ (f t)) (hb : b.Follows μ s)
    (okm : Sub 0x280000000002 μ := by exact Sub.trans (by assumption) (by decide)) : b.Follows μ (s.withPort i j f) := by
  unfold State.withPort
  extract_lets t
  have ht : b.Follows μ t := State.askPort_follows _ _ hb
  exact State.Follows.ite (fun _ => State.arbDrop_follows _ _ (hf _ ht)) fun _ => ht

theorem State.holdArbs_follows {μ : Nat} {b : State} {s : State} (n : Nat) (hb : b.Follows μ s)
    (okm : Sub 0x200000000000 μ := by exact Sub.trans (by assumption) (by decide)) :
    b.Follows μ (State.holdArbs s n) := by
  unfold State.holdArbs
  repeat' (first
    | with_reducible assumption
    | (fail_if_no_progress with_reducible refine State.Follows.set_arbs ?_ (Sub.trans okm (by decide))))

theorem State.arbSeize_follows {μ : Nat} {b : State} {s : State} (i : Nat) (hb : b.Follows μ s)
    (okm : Sub 0x280000000002 μ := by exact Sub.trans (by assumption) (by decide)) :
    b.Follows μ (State.arbSeize s i) := by
  unfold State.arbSeize
  repeat' (first
    | (with_reducible exact Sub.trans okm (by decide))
    | with_reducible assumption
    | (with_reducible apply State.setArb_follows)
    | (with_reducible apply State.arbSeized_follows)
    | (with_reducible apply State.Follows.ite)
    | (intro _))

theorem execArbSeize_follows {μ : Nat} {b : State} {i : Nat} {s : State} (hb : b.Follows μ s) {tt : State} (ee : execArbSeize i s = .next tt)
    (okm : Sub 0x280000000002 μ := by exact Sub.trans (by assumption) (by decide)) :
    b.Follows μ tt := by
  unfold execArbSeize at ee
  first | refine onUnit_follows ?_ ee | cases ee
  repeat' (first
    | (with_reducible exact Sub.trans okm (by decide))
    | with_reducible assumption
    | (with_reducible apply State.arbSeize_follows))

theorem State.i3again_follows {μ : Nat} {b : State} {s : State} (i : Nat) (j : Nat) (hb : b.Follows μ s)
    (okm : Sub 0xc00000000000 μ := by exact Sub.trans (by assumption) (by decide)) :
    b.Follows μ (State.i3again s i j) := by
  unfold State.i3again
  repeat' (first
    | with_reducible assumption
    | (fail_if_no_progress with_reducible refine State.Follows.set_i3want_i3at ?_ (Sub.trans okm (by decide))))

theorem State.i3drop_follows {μ : Nat} {b : State} {s : State} (hb : b.Follows μ s)
    (okm : Sub 0xe80000000002 μ := by exact Sub.trans (by assumption) (by decide)) :
    b.Follows μ (State.i3drop s) := by
  unfold State.i3drop
  repeat' (first
    | (with_reducible exact Sub.trans okm (by decide))
    | with_reducible assumption
    | (with_reducible apply State.arbDrop_follows)
    | (with_reducible apply State.i3again_follows)
    | (with_reducible apply State.Follows.foldl)
    | (with_reducible apply State.Follows.ite)
    | (intro _ _ _; beta_reduce)
    | (intro _))

theorem State.arbEnd_follows {μ : Nat} {b : State} {s : State} (i : Nat) (hb : b.Follows μ s)
    (okm : Sub 0xe80000000002 μ := by exact Sub.trans (by assumption) (by decide)) :
    b.Follows μ (State.arbEnd s i) := by
  unfold State.arbEnd
  repeat' (first
    | (with_reducible exact Sub.trans okm (by decide))
    | with_reducible assumption
    | (with_reducible apply State.setArb_follows)
    | (with_reducible apply State.i3drop_follows)
    | (with_reducible apply State.arbRequest_follows)
    | (with_reducible apply State.i3again_follows)
    | (with_reducible apply State.Follows.ite)
    | (intro _)
    | split
    | fail_if_no_progress extract_lets)

theorem State.arbRevoke_follows {μ : Nat} {b : State} {s : State} (i : Nat) (hb : b.Follows μ s)
    (okm : Sub 0xe80000000002 μ := by exact Sub.trans (by assumption) (by decide)) :
    b.Follows μ (State.arbRevoke s i) := by
  unfold State.arbRevoke
  repeat' (first
    | (with_reducible exact Sub.trans okm (by decide))
    | with_reducible assumption
    | (with_reducible apply State.arbEnd_follows)
    | (with_reducible apply State.arbSeized_follows)
    | (with_reducible apply State.Follows.ite)
    | (intro _))

theorem execArbRevoke_follows {μ : Nat} {b : State} {i : Nat} {s : State} (hb : b.Follows μ s) {tt : State} (ee : execArbRevoke i s = .next tt)
    (okm : Sub 0xe80000000002 μ := by exact Sub.trans (by assumption) (by decide)) :
    b.Follows μ tt := by
  unfold execArbRevoke at ee
  first | refine onUnit_follows ?_ ee | cases ee
  repeat' (first
    | (with_reducible exact Sub.trans okm (by decide))
    | with_reducible assumption
    | (with_reducible apply State.arbRevoke_follows))

theorem State.i3request_follows {μ : Nat} {b : State} {s : State} (hb : b.Follows μ s)
    (okm : Sub 0x600000000000 μ := by exact Sub.trans (by assumption) (by decide)) :
    b.Follows μ (State.i3request s) := by
  unfold State.i3request
  repeat' (first
    | (with_reducible exact Sub.trans okm (by decide))
    | with_reducible assumption
    | (with_reducible apply State.arbRequest_follows)
    | (fail_if_no_progress with_reducible refine State.Follows.set_i3want ?_ (Sub.trans okm (by decide)))
    | (with_reducible apply State.Follows.ite)
    | (intro _)
    | split)

theorem execInterp3Rerequest_follows {μ : Nat} {b : State} {s : State} (hb : b.Follows μ s) {tt : State} (ee : execInterp3Rerequest s = .next tt)
    (okm : Sub 0x600000000000 μ := by exact Sub.trans (by assumption) (by decide)) :
    b.Follows μ tt := by
  unfold execInterp3Rerequest at ee
  first | refine onUnit_follows ?_ ee | cases ee
  repeat' (first
    | (with_reducible exact Sub.trans okm (by decide))
    | with_reducible assumption
    | (with_reducible apply State.i3request_follows))

theorem State.arbBite_follows {μ : Nat} {b : State} {s : State} (i : Nat) (hb : b.Follows μ s)
    (okm : Sub 0x280000000002 μ := by exact Sub.trans (by assumption) (by decide)) :
    b.Follows μ (State.arbBite s i) := by
  unfold State.arbBite
  repeat' (first
    | (with_reducible exact Sub.trans okm (by decide))
    | with_reducible assumption
    | (with_reducible apply State.setArb_follows)
    | (with_reducible apply State.fset_follows)
    | (with_reducible apply State.fsat_follows)
    | (with_reducible apply State.log_follows)
    | (with_reducible apply State.Follows.ite)
    | (intro _))

theorem execWatchdogBite_follows {μ : Nat} {b : State} {i : Nat} {s : State} (hb : b.Follows μ s) {tt : State} (ee : execWatchdogBite i s = .next tt)
    (okm : Sub 0x280000000002 μ := by exact Sub.trans (by assumption) (by decide)) :
    b.Follows μ tt := by
  unfold execWatchdogBite at ee
  first | refine onUnit_follows ?_ ee | cases ee
  repeat' (first
    | (with_reducible exact Sub.trans okm (by decide))
    | with_reducible assumption
    | (with_reducible apply State.arbBite_follows))

theorem State.quotaWindow_follows {μ : Nat} {b : State} {s : State} (i : Nat) (hb : b.Follows μ s)
    (okm : Sub 0x2 μ := by exact Sub.trans (by assumption) (by decide)) :
    b.Follows μ (State.quotaWindow s i) := by
  unfold State.quotaWindow
  repeat' (first
    | (with_reducible exact Sub.trans okm (by decide))
    | with_reducible assumption
    | (with_reducible apply State.fset_follows)
    | (with_reducible apply State.Follows.foldl)
    | (intro _ _ _; beta_reduce))

theorem execQuotaWindow_follows {μ : Nat} {b : State} {i : Nat} {s : State} (hb : b.Follows μ s) {tt : State} (ee : execQuotaWindow i s = .next tt)
    (okm : Sub 0x2 μ := by exact Sub.trans (by assumption) (by decide)) :
    b.Follows μ tt := by
  unfold execQuotaWindow at ee
  first | refine onUnit_follows ?_ ee | cases ee
  repeat' (first
    | (with_reducible exact Sub.trans okm (by decide))
    | with_reducible assumption
    | (with_reducible apply State.quotaWindow_follows))

theorem State.prioWrite_follows {μ : Nat} {b : State} {s : State} (i : Nat) (j : Nat) (prio : Nat) (quota : Nat) (hb : b.Follows μ s)
    (okm : Sub 0x2 μ := by exact Sub.trans (by assumption) (by decide)) :
    b.Follows μ (State.prioWrite s i j prio quota) := by
  unfold State.prioWrite
  repeat' (first
    | (with_reducible exact Sub.trans okm (by decide))
    | with_reducible assumption
    | (with_reducible apply State.fset_follows)
    | (with_reducible apply State.Follows.ite)
    | (intro _))

theorem execPrioWrite_follows {μ : Nat} {b : State} {i : Nat} {j : Nat} {prio : Nat} {quota : Nat} {s : State} (hb : b.Follows μ s) {tt : State} (ee : execPrioWrite i j prio quota s = .next tt)
    (okm : Sub 0x2 μ := by exact Sub.trans (by assumption) (by decide)) :
    b.Follows μ tt := by
  unfold execPrioWrite at ee
  first | refine onUnit_follows ?_ ee | cases ee
  repeat' (first
    | (with_reducible exact Sub.trans okm (by decide))
    | with_reducible assumption
    | (with_reducible apply State.prioWrite_follows)
    | (with_reducible apply State.ifUp_follows)
    | (intro _))

theorem State.resetArb_follows {μ : Nat} {b : State} {s : State} (i : Nat) (hb : b.Follows μ s)
    (okm : Sub 0xe00000000002 μ := by exact Sub.trans (by assumption) (by decide)) :
    b.Follows μ (State.resetArb s i) := by
  unfold State.resetArb
  repeat' (first
    | (with_reducible exact Sub.trans okm (by decide))
    | with_reducible assumption
    | (with_reducible apply State.setArb_follows)
    | (with_reducible apply State.quotaWindow_follows)
    | (with_reducible apply State.i3again_follows)
    | (with_reducible apply State.Follows.foldl)
    | (intro _ _ _; beta_reduce))

/-! ## Seg -/

theorem State.setSeg_follows {μ : Nat} {b : State} {s : State} (n : Nat) (e : SegEnt) (hb : b.Follows μ s)
    (okm : Sub 0x2000042 μ := by exact Sub.trans (by assumption) (by decide)) :
    b.Follows μ (State.setSeg s n e) := by
  unfold State.setSeg
  repeat' (first
    | (with_reducible exact Sub.trans okm (by decide))
    | with_reducible assumption
    | (with_reducible apply State.raise_follows)
    | (fail_if_no_progress with_reducible refine State.Follows.set_ports_dir ?_ (Sub.trans okm (by decide)))
    | (with_reducible apply State.Follows.ite)
    | (intro _))

theorem State.dropSeg_follows {μ : Nat} {b : State} {s : State} (n : Nat) (hb : b.Follows μ s)
    (okm : Sub 0x2000042 μ := by exact Sub.trans (by assumption) (by decide)) :
    b.Follows μ (State.dropSeg s n) := by
  unfold State.dropSeg
  repeat' (first
    | (with_reducible exact Sub.trans okm (by decide))
    | with_reducible assumption
    | (with_reducible apply State.setSeg_follows))

theorem State.clockHand_follows {μ : Nat} {b : State} (p : Nat) : ∀ (n : Nat) {s : State}, b.Follows μ s →
    (okm : Sub 0x6000042 μ := by exact Sub.trans (by assumption) (by decide)) → b.Follows μ (s.clockHand p n).1
  | 0, _, h, _ => h
  | n + 1, s, h, okm => by
    unfold State.clockHand
    repeat' (first
    | (with_reducible exact Sub.trans okm (by decide))
      | (with_reducible assumption)
      | (with_reducible apply State.clockHand_follows)
      | (with_reducible apply State.ev_follows)
      | (with_reducible apply State.dropSeg_follows)
      | (fail_if_no_progress with_reducible refine State.Follows.set_hands ?_ (Sub.trans okm (by decide)))
      | (with_reducible apply State.setSeg_follows)
      | split
      | fail_if_no_progress extract_lets)

theorem State.frameFrom_follows {μ : Nat} {b : State} {s : State} (p : Nat) (v : Victim) (hb : b.Follows μ s)
    (okm : Sub 0x6000042 μ := by exact Sub.trans (by assumption) (by decide)) :
    b.Follows μ (State.frameFrom s p v).1 := by
  unfold State.frameFrom
  repeat' (first
    | (with_reducible exact Sub.trans okm (by decide))
    | with_reducible assumption
    | (with_reducible apply State.clockHand_follows)
    | split)

theorem State.takeFrame_follows {μ : Nat} {b : State} {s : State} (n : Nat) (v : Victim) (hb : b.Follows μ s)
    (okm : Sub 0x6000042 μ := by exact Sub.trans (by assumption) (by decide)) :
    b.Follows μ (State.takeFrame s n v).1 := by
  unfold State.takeFrame
  repeat' (first
    | (with_reducible exact Sub.trans okm (by decide))
    | with_reducible assumption
    | (with_reducible apply State.frameFrom_follows)
    | (with_reducible apply State.Follows.foldlFst)
    | (intro _ _ _; beta_reduce)
    | split)

theorem State.ocRecompute_follows {μ : Nat} {b : State} {s : State} (hb : b.Follows μ s)
    (okm : Sub 0x80000000002 μ := by exact Sub.trans (by assumption) (by decide)) :
    b.Follows μ (State.ocRecompute s) := by
  unfold State.ocRecompute
  repeat' (first
    | (with_reducible exact Sub.trans okm (by decide))
    | with_reducible assumption
    | (with_reducible apply State.fset_follows)
    | (with_reducible apply State.log_follows)
    | (with_reducible apply State.Follows.foldl)
    | (with_reducible apply State.Follows.ite)
    | (intro _ _ _; beta_reduce)
    | (intro _))

theorem State.demandFetch_follows {μ : Nat} {b : State} {s : State} (n : Nat) (start : Nat) (hb : b.Follows μ s)
    (okm : Sub 0x30000000 μ := by exact Sub.trans (by assumption) (by decide)) :
    b.Follows μ (State.demandFetch s n start) := by
  unfold State.demandFetch
  repeat' (first
    | with_reducible assumption
    | (fail_if_no_progress with_reducible refine State.Follows.set_demandQ_prefetchQ ?_ (Sub.trans okm (by decide)))
    | (with_reducible apply State.Follows.ite)
    | (intro _))

/-! ## Requests -/

theorem State.setReq_follows {μ : Nat} {b : State} {s : State} (n : Nat) (r : PortReq) (hb : b.Follows μ s)
    (okm : Sub 0x40 μ := by exact Sub.trans (by assumption) (by decide)) :
    b.Follows μ (State.setReq s n r) := by
  unfold State.setReq
  repeat' (first
    | (with_reducible exact Sub.trans okm (by decide))
    | with_reducible assumption
    | (with_reducible apply State.setPort_follows))

theorem State.fillFailed_follows {μ : Nat} {b : State} : ∀ (l : List (PStatus × Granule)) {s : State}, b.Follows μ s →
    (okm : Sub 0x10 μ := by exact Sub.trans (by assumption) (by decide)) → b.Follows μ (s.fillFailed l).1
  | [], _, h, _ => h
  | (st, g) :: r, s, h, okm => by
    unfold State.fillFailed
    split
    · exact State.fillFailed_follows r h
    · exact State.fillFailed_follows r (State.drawGranule_follows h)

theorem State.portErr_follows {μ : Nat} {b : State} {s : State} (n : Nat) (st : PStatus) (tag : Nat) (kind : Nat) (hb : b.Follows μ s)
    (okm : Sub 0x2 μ := by exact Sub.trans (by assumption) (by decide)) :
    b.Follows μ (State.portErr s n st tag kind) := by
  unfold State.portErr
  repeat' (first
    | (with_reducible exact Sub.trans okm (by decide))
    | with_reducible assumption
    | (with_reducible apply State.raise_follows)
    | split)

theorem State.lateErr_follows {μ : Nat} {b : State} {s : State} (n : Nat) (r : PortReq) (hb : b.Follows μ s)
    (okm : Sub 0x2 μ := by exact Sub.trans (by assumption) (by decide)) :
    b.Follows μ (State.lateErr s n r) := by
  unfold State.lateErr
  repeat' (first
    | (with_reducible exact Sub.trans okm (by decide))
    | with_reducible assumption
    | (with_reducible apply State.portErr_follows)
    | (with_reducible apply State.Follows.foldl)
    | (with_reducible apply State.Follows.ite)
    | (intro _ _ _; beta_reduce)
    | (intro _))

theorem State.answer_follows {μ : Nat} {b : State} {s0 : State} (n : Nat) (r : PortReq) (hb : b.Follows μ s0)
    (okm : Sub 0x2000052 μ := by exact Sub.trans (by assumption) (by decide)) :
    b.Follows μ (State.answer s0 n r) := by
  unfold State.answer
  repeat' (first
    | (with_reducible exact Sub.trans okm (by decide))
    | with_reducible assumption
    | (with_reducible apply State.setPort_follows)
    | (with_reducible apply State.fillFailed_follows)
    | (with_reducible apply State.ev_follows)
    | (with_reducible apply State.dropSeg_follows)
    | (with_reducible apply State.lateErr_follows)
    | (with_reducible apply State.raise_follows)
    | (with_reducible apply State.drawGranule_follows)
    | (with_reducible apply State.Follows.ite)
    | (intro _)
    | split)

theorem State.sweep_follows {μ : Nat} {b : State} {s : State} (n : Nat) (id : Nat) (hb : b.Follows μ s)
    (okm : Sub 0x2000052 μ := by exact Sub.trans (by assumption) (by decide)) :
    b.Follows μ (State.sweep s n id) := by
  unfold State.sweep
  repeat' (first
    | (with_reducible exact Sub.trans okm (by decide))
    | with_reducible assumption
    | (with_reducible apply State.answer_follows)
    | (with_reducible apply State.Follows.ite)
    | (intro _)
    | split)

theorem State.setPart_follows {μ : Nat} {b : State} {s : State} (n : Nat) (id : Nat) (i : Nat) (f : Part → Part) (hb : b.Follows μ s)
    (okm : Sub 0x2000052 μ := by exact Sub.trans (by assumption) (by decide)) :
    b.Follows μ (State.setPart s n id i f) := by
  unfold State.setPart
  repeat' (first
    | (with_reducible exact Sub.trans okm (by decide))
    | with_reducible assumption
    | (with_reducible apply State.setReq_follows)
    | (with_reducible apply State.sweep_follows)
    | split)

theorem State.deliver_follows {μ : Nat} {b : State} {s : State} (src : Src) (st : PStatus) (info : Nat) (d : Granule) (hb : b.Follows μ s)
    (okm : Sub 0x2000052 μ := by exact Sub.trans (by assumption) (by decide)) :
    b.Follows μ (State.deliver s src st info d) := by
  unfold State.deliver
  repeat' (first
    | (with_reducible exact Sub.trans okm (by decide))
    | with_reducible assumption
    | (with_reducible apply State.setPart_follows)
    | split)

theorem State.mergeOutcome_follows {μ : Nat} {b : State} {s : State} (src : Src) (refused : Bool) (hb : b.Follows μ s)
    (okm : Sub 0x2000052 μ := by exact Sub.trans (by assumption) (by decide)) :
    b.Follows μ (State.mergeOutcome s src refused) := by
  unfold State.mergeOutcome
  repeat' (first
    | (with_reducible exact Sub.trans okm (by decide))
    | with_reducible assumption
    | (with_reducible apply State.setPart_follows)
    | split)

theorem State.creditBack_follows {μ : Nat} {b : State} {s : State} (n : Nat) (h : Nat) (w : Nat) (hb : b.Follows μ s)
    (okm : Sub 0x48 μ := by exact Sub.trans (by assumption) (by decide)) :
    b.Follows μ (State.creditBack s n h w) := by
  unfold State.creditBack
  repeat' (first
    | (with_reducible exact Sub.trans okm (by decide))
    | with_reducible assumption
    | (with_reducible apply State.setPort_follows)
    | (with_reducible apply State.emit_follows)
    | (with_reducible apply State.Follows.ite)
    | (intro _))

/-! ## Clock -/

theorem State.tickTo_follows {μ : Nat} {b s : State} (t : Nat) (hb : b.Follows μ s)
    (okm : Sub 0x3 μ := by exact Sub.trans (by assumption) (by decide)) : b.Follows μ (s.tickTo t) := by
  unfold State.tickTo
  split
  · exact hb
  · rename_i h
    have h1 : b.Follows μ { s with clk := { s.clk with now := t } } :=
      hb.same rfl (Nat.le_of_lt (Nat.not_le.mp h)) rfl rfl rfl rfl rfl okm State.mix_clk
    extract_lets src s1 n s2
    have h2 : b.Follows μ s2 := State.ev_follows _ _ _ (State.ev_follows _ _ _ h1)
    split
    · exact h2
    · refine State.Follows.foldl ?_ _ h2
      intro u x hu
      extract_lets v
      have hv : b.Follows μ v := State.Follows.ite (fun _ => State.ev_follows _ _ _ hu) fun _ => hu
      exact State.Follows.ite (fun _ => hv) fun _ => State.ev_follows _ _ _ hv

theorem State.tick_follows {μ : Nat} {b : State} {s : State} (n : Nat) (hb : b.Follows μ s)
    (okm : Sub 0x3 μ := by exact Sub.trans (by assumption) (by decide)) :
    b.Follows μ (State.tick s n) := by
  unfold State.tick
  repeat' (first
    | (with_reducible exact Sub.trans okm (by decide))
    | with_reducible assumption
    | (with_reducible apply State.tickTo_follows))

theorem State.tableTrim_follows {μ : Nat} {b : State} {s : State} (hb : b.Follows μ s)
    (okm : Sub 0x1000000000000 μ := by exact Sub.trans (by assumption) (by decide)) :
    b.Follows μ (State.tableTrim s) := by
  unfold State.tableTrim
  repeat' (first
    | with_reducible assumption
    | (fail_if_no_progress with_reducible refine State.Follows.set_therm ?_ (Sub.trans okm (by decide))))

/-! ## Monitors -/

theorem State.lmonTake_follows {μ : Nat} {b : State} {s : State} (m : Nat) (x : Nat) (hb : b.Follows μ s)
    (okm : Sub 0x80000000000 μ := by exact Sub.trans (by assumption) (by decide)) :
    b.Follows μ (State.lmonTake s m x) := by
  unfold State.lmonTake
  repeat' (first
    | with_reducible assumption
    | (fail_if_no_progress with_reducible refine State.Follows.set_obs ?_ (Sub.trans okm (by decide))))

theorem State.groupSample_follows {μ : Nat} {b : State} {s : State} (root : Nat) (pc : Nat) (x : Nat) (hb : b.Follows μ s)
    (okm : Sub 0x80000000000 μ := by exact Sub.trans (by assumption) (by decide)) :
    b.Follows μ (State.groupSample s root pc x) := by
  unfold State.groupSample
  repeat' (first
    | (with_reducible exact Sub.trans okm (by decide))
    | with_reducible assumption
    | (with_reducible apply State.lmonTake_follows)
    | (with_reducible apply State.Follows.foldl)
    | (with_reducible apply State.Follows.ite)
    | (intro _ _ _; beta_reduce)
    | (intro _))

theorem State.setChk_follows {μ : Nat} {b : State} {s : State} (k : Nat) (u : ChkUnit) (hb : b.Follows μ s)
    (okm : Sub 0x80000000000 μ := by exact Sub.trans (by assumption) (by decide)) :
    b.Follows μ (State.setChk s k u) := by
  unfold State.setChk
  repeat' (first
    | with_reducible assumption
    | (fail_if_no_progress with_reducible refine State.Follows.set_obs ?_ (Sub.trans okm (by decide))))

theorem State.snoop_follows {μ : Nat} {b : State} {s : State} (src : Nat) (bound : Nat) (addr : Nat) (g : Granule) (hb : b.Follows μ s)
    (okm : Sub 0x80000000000 μ := by exact Sub.trans (by assumption) (by decide)) :
    b.Follows μ (State.snoop s src bound addr g) := by
  unfold State.snoop
  repeat' (first
    | (with_reducible exact Sub.trans okm (by decide))
    | with_reducible assumption
    | (with_reducible apply State.setChk_follows)
    | (with_reducible apply State.Follows.foldl)
    | (with_reducible apply State.Follows.ite)
    | (intro _ _ _; beta_reduce)
    | (intro _))

theorem State.snoopEnd_follows {μ : Nat} {b : State} {s : State} (src : Nat) (bound : Nat) (hb : b.Follows μ s)
    (okm : Sub 0x80000000000 μ := by exact Sub.trans (by assumption) (by decide)) :
    b.Follows μ (State.snoopEnd s src bound) := by
  unfold State.snoopEnd
  repeat' (first
    | (with_reducible exact Sub.trans okm (by decide))
    | with_reducible assumption
    | (with_reducible apply State.setChk_follows)
    | (with_reducible apply State.Follows.foldl)
    | (with_reducible apply State.Follows.ite)
    | (intro _ _ _; beta_reduce)
    | (intro _))

theorem State.snoopFetch_follows {μ : Nat} {b : State} {s : State} (seg : Nat) (hb : b.Follows μ s)
    (okm : Sub 0x80000000000 μ := by exact Sub.trans (by assumption) (by decide)) :
    b.Follows μ (State.snoopFetch s seg) := by
  unfold State.snoopFetch
  repeat' (first
    | (with_reducible exact Sub.trans okm (by decide))
    | with_reducible assumption
    | (with_reducible apply State.setChk_follows)
    | (with_reducible apply State.Follows.foldl)
    | (with_reducible apply State.Follows.ite)
    | (intro _ _ _; beta_reduce)
    | (intro _))

theorem State.snoopPacket_follows {μ : Nat} {b : State} {s : State} (src : Nat) (port : Nat) (ring : Nat) (seq : Nat) (id : Nat) (hb : b.Follows μ s)
    (okm : Sub 0x80000000000 μ := by exact Sub.trans (by assumption) (by decide)) :
    b.Follows μ (State.snoopPacket s src port ring seq id) := by
  unfold State.snoopPacket
  repeat' (first
    | (with_reducible exact Sub.trans okm (by decide))
    | with_reducible assumption
    | (with_reducible apply State.setChk_follows)
    | (with_reducible apply State.Follows.foldl)
    | (with_reducible apply State.Follows.ite)
    | (intro _ _ _; beta_reduce)
    | (intro _))

/-! ## Pcc -/

theorem State.flipTurn_follows {μ : Nat} {b : State} {s : State} (pc : Nat) (hb : b.Follows μ s)
    (okm : Sub 0x402 μ := by exact Sub.trans (by assumption) (by decide)) :
    b.Follows μ (State.flipTurn s pc) := by
  unfold State.flipTurn
  repeat' (first
    | (with_reducible exact Sub.trans okm (by decide))
    | with_reducible assumption
    | (with_reducible apply State.setPcc_follows)
    | (with_reducible apply State.ev_follows))

theorem State.turnStep_follows {μ : Nat} {b : State} {s : State} (pc : Nat) (hb : b.Follows μ s)
    (okm : Sub 0x402 μ := by exact Sub.trans (by assumption) (by decide)) :
    b.Follows μ (State.turnStep s pc) := by
  unfold State.turnStep
  repeat' (first
    | (with_reducible exact Sub.trans okm (by decide))
    | with_reducible assumption
    | (with_reducible apply State.flipTurn_follows)
    | (with_reducible apply State.Follows.ite)
    | (intro _))

theorem State.addJob_follows {μ : Nat} {b : State} {s : State} (j : LadderJob) (hb : b.Follows μ s)
    (okm : Sub 0x80000 μ := by exact Sub.trans (by assumption) (by decide)) :
    b.Follows μ (State.addJob s j) := by
  unfold State.addJob
  repeat' (first
    | with_reducible assumption
    | (fail_if_no_progress with_reducible refine State.Follows.set_ladder ?_ (Sub.trans okm (by decide)))
    | (with_reducible apply State.Follows.ite)
    | (intro _))

theorem State.bucketFull_follows {μ : Nat} {b : State} {s : State} (pc : Nat) (a : Nat) (hb : b.Follows μ s)
    (okm : Sub 0x80000080402 μ := by exact Sub.trans (by assumption) (by decide)) :
    b.Follows μ (State.bucketFull s pc a) := by
  unfold State.bucketFull
  repeat' (first
    | (with_reducible exact Sub.trans okm (by decide))
    | with_reducible assumption
    | (with_reducible apply State.fsat_follows)
    | (with_reducible apply State.setPcc_follows)
    | (with_reducible apply State.log_follows)
    | (with_reducible apply State.raise_follows)
    | (with_reducible apply State.addJob_follows)
    | (with_reducible apply State.Follows.ite)
    | (intro _))

theorem State.laneJob_follows {μ : Nat} {b : State} {s : State} (pc : Nat) (k : Nat) (hb : b.Follows μ s)
    (okm : Sub 0x80000 μ := by exact Sub.trans (by assumption) (by decide)) :
    b.Follows μ (State.laneJob s pc k) := by
  unfold State.laneJob
  repeat' (first
    | (with_reducible exact Sub.trans okm (by decide))
    | with_reducible assumption
    | (with_reducible apply State.addJob_follows)
    | (with_reducible apply State.Follows.ite)
    | (intro _))

theorem State.countCe_follows {μ : Nat} {b : State} {s : State} (pc : Nat) (a : Nat) (n : Option Nat) (hb : b.Follows μ s)
    (okm : Sub 0x80000090402 μ := by exact Sub.trans (by assumption) (by decide)) :
    b.Follows μ (State.countCe s pc a n) := by
  unfold State.countCe
  repeat' (first
    | (with_reducible exact Sub.trans okm (by decide))
    | with_reducible assumption
    | (with_reducible apply State.setPcc_follows)
    | (with_reducible apply State.ev_follows)
    | (with_reducible apply State.fadd_follows)
    | (with_reducible apply State.laneJob_follows)
    | (with_reducible apply State.bucketFull_follows)
    | (with_reducible apply State.addJob_follows)
    | (fail_if_no_progress with_reducible refine State.Follows.set_rows ?_ (Sub.trans okm (by decide)))
    | (with_reducible apply State.Follows.ite)
    | (intro _)
    | split)

theorem State.countUe_follows {μ : Nat} {b : State} {s : State} (pc : Nat) (a : Nat) (hb : b.Follows μ s)
    (okm : Sub 0x80000080002 μ := by exact Sub.trans (by assumption) (by decide)) :
    b.Follows μ (State.countUe s pc a) := by
  unfold State.countUe
  repeat' (first
    | (with_reducible exact Sub.trans okm (by decide))
    | with_reducible assumption
    | (with_reducible apply State.fsat_follows)
    | (with_reducible apply State.ev_follows)
    | (with_reducible apply State.log_follows)
    | (with_reducible apply State.raise_follows)
    | (with_reducible apply State.addJob_follows))

theorem State.partnerTake_follows {μ : Nat} {b : State} {s : State} (pl : Place) (h : Nat) (hb : b.Follows μ s)
    (okm : Sub 0x80000090402 μ := by exact Sub.trans (by assumption) (by decide)) :
    b.Follows μ (State.partnerTake s pl h).1 := by
  unfold State.partnerTake
  repeat' (first
    | (with_reducible exact Sub.trans okm (by decide))
    | with_reducible assumption
    | (with_reducible apply State.countCe_follows)
    | split
    | fail_if_no_progress extract_lets)

theorem State.writeBack_follows {μ : Nat} {b : State} {s : State} (pl : Place) (seq : Nat) (h : Nat) (poison : Bool) (stored : SectorData) (hb : b.Follows μ s)
    (okm : Sub 0x400 μ := by exact Sub.trans (by assumption) (by decide)) :
    b.Follows μ (State.writeBack s pl seq h poison stored) := by
  unfold State.writeBack
  repeat' (first
    | (with_reducible exact Sub.trans okm (by decide))
    | with_reducible assumption
    | (with_reducible apply State.setPcc_follows)
    | (with_reducible apply State.Follows.ite)
    | (intro _))

theorem State.reserveMate_follows {μ : Nat} {b : State} {s : State} {pl : Place} {cls stamp h : Nat} (hb : b.Follows μ s) {tt : State}
    (ee : State.reserveMate s pl cls stamp h = some tt)
    (okm : Sub 0x400 μ := by exact Sub.trans (by assumption) (by decide)) : b.Follows μ tt := by
  unfold State.reserveMate at ee
  split at ee
  · cases ee; exact hb
  · extract_lets p at ee
    split at ee
    · cases ee; exact State.setPcc_follows _ _ hb
    · cases ee

theorem State.mateWrite_follows {μ : Nat} {b : State} {s : State} (pl : Place) (f : Ent → Option Ent) (hb : b.Follows μ s)
    (okm : Sub 0x400 μ := by exact Sub.trans (by assumption) (by decide)) :
    b.Follows μ (State.mateWrite s pl f) := by
  unfold State.mateWrite
  split
  · exact hb
  · exact State.setPcc_follows _ _ hb

theorem State.entDone_follows {μ : Nat} {b : State} {s : State} (pc : Nat) (e : Ent) (hb : b.Follows μ s)
    (okm : Sub 0x80002000452 μ := by exact Sub.trans (by assumption) (by decide)) :
    b.Follows μ (State.entDone s pc e) := by
  unfold State.entDone
  repeat' (first
    | (with_reducible exact Sub.trans okm (by decide))
    | with_reducible assumption
    | (with_reducible apply State.groupSample_follows)
    | (with_reducible apply State.setPcc_follows)
    | (with_reducible apply State.mateWrite_follows)
    | (with_reducible apply State.deliver_follows)
    | (with_reducible apply State.Follows.ite)
    | (intro _)
    | split)

theorem State.mergeFree_follows {μ : Nat} {b : State} {s : State} (pc : Nat) (m : MgEnt) (hb : b.Follows μ s)
    (okm : Sub 0x2000452 μ := by exact Sub.trans (by assumption) (by decide)) :
    b.Follows μ (State.mergeFree s pc m) := by
  unfold State.mergeFree
  repeat' (first
    | (with_reducible exact Sub.trans okm (by decide))
    | with_reducible assumption
    | (with_reducible apply State.setPcc_follows)
    | (with_reducible apply State.mergeOutcome_follows)
    | (with_reducible apply State.Follows.foldl)
    | (intro _ _ _; beta_reduce))

theorem State.mergeToWb_follows {μ : Nat} {b : State} {s : State} (pc : Nat) (m : MgEnt) (hb : b.Follows μ s)
    (okm : Sub 0x2000452 μ := by exact Sub.trans (by assumption) (by decide)) :
    b.Follows μ (State.mergeToWb s pc m) := by
  unfold State.mergeToWb
  repeat' (first
    | (with_reducible exact Sub.trans okm (by decide))
    | with_reducible assumption
    | (with_reducible apply State.setPcc_follows)
    | (with_reducible apply State.mergeFree_follows)
    | (with_reducible apply State.Follows.ite)
    | (intro _))

theorem State.mergeRelease_follows {μ : Nat} {b : State} {s : State} (pc : Nat) (m : MgEnt) (hb : b.Follows μ s)
    (okm : Sub 0x2000452 μ := by exact Sub.trans (by assumption) (by decide)) :
    b.Follows μ (State.mergeRelease s pc m) := by
  unfold State.mergeRelease
  repeat' (first
    | (with_reducible exact Sub.trans okm (by decide))
    | with_reducible assumption
    | (with_reducible apply State.setPcc_follows)
    | (with_reducible apply State.mergeToWb_follows)
    | (with_reducible apply State.Follows.ite)
    | (intro _))

theorem State.mergeSector_follows {μ : Nat} {b : State} {s : State} (pc : Nat) (seq : Nat) (h : Nat) (d : Option SectorData) (hb : b.Follows μ s)
    (okm : Sub 0x2000452 μ := by exact Sub.trans (by assumption) (by decide)) :
    b.Follows μ (State.mergeSector s pc seq h d) := by
  unfold State.mergeSector
  repeat' (first
    | (with_reducible exact Sub.trans okm (by decide))
    | with_reducible assumption
    | (with_reducible apply State.setPcc_follows)
    | (with_reducible apply State.mergeToWb_follows)
    | (with_reducible apply State.Follows.ite)
    | (intro _)
    | split)

theorem State.entSector_follows {μ : Nat} {b : State} {s : State} (pc : Nat) (seq : Nat) (h : Nat) (d : Option SectorData) (hb : b.Follows μ s)
    (okm : Sub 0x80002000452 μ := by exact Sub.trans (by assumption) (by decide)) :
    b.Follows μ (State.entSector s pc seq h d) := by
  unfold State.entSector
  repeat' (first
    | (with_reducible exact Sub.trans okm (by decide))
    | with_reducible assumption
    | (with_reducible apply State.setPcc_follows)
    | (with_reducible apply State.entDone_follows)
    | (with_reducible apply State.Follows.ite)
    | (intro _)
    | split)

theorem State.sectorTo_follows {μ : Nat} {b : State} {s : State} (pc : Nat) (u : RetFor) (h : Nat) (d : Option SectorData) (hb : b.Follows μ s)
    (okm : Sub 0x80002000452 μ := by exact Sub.trans (by assumption) (by decide)) :
    b.Follows μ (State.sectorTo s pc u h d) := by
  unfold State.sectorTo
  repeat' (first
    | (with_reducible exact Sub.trans okm (by decide))
    | with_reducible assumption
    | (with_reducible apply State.entSector_follows)
    | (with_reducible apply State.mergeSector_follows)
    | split)

theorem State.sectorBack_follows {μ : Nat} {b : State} {s : State} (u : RetFor) (pl : Place) (h : Nat) (raw : List Byte) (second : Bool) (hb : b.Follows μ s)
    (okm : Sub 0x80002090452 μ := by exact Sub.trans (by assumption) (by decide)) :
    b.Follows μ (State.sectorBack s u pl h raw second) := by
  unfold State.sectorBack
  repeat' (first
    | (with_reducible exact Sub.trans okm (by decide))
    | with_reducible assumption
    | (with_reducible apply State.fsat_follows)
    | (with_reducible apply State.sectorTo_follows)
    | (with_reducible apply State.countCe_follows)
    | (with_reducible apply State.countUe_follows)
    | (with_reducible apply State.fadd_follows)
    | (with_reducible apply State.partnerTake_follows)
    | (with_reducible apply State.writeBack_follows)
    | (refine State.Follows.fst (by with_reducible assumption) ?_)
    | (with_reducible apply State.Follows.ite)
    | (intro _)
    | split
    | fail_if_no_progress extract_lets)

theorem State.rereadBack_follows {μ : Nat} {b : State} {s : State} (u : RetFor) (pl : Place) (h : Nat) (raw : List Byte) (hb : b.Follows μ s)
    (okm : Sub 0x80002090452 μ := by exact Sub.trans (by assumption) (by decide)) :
    b.Follows μ (State.rereadBack s u pl h raw) := by
  unfold State.rereadBack
  repeat' (first
    | (with_reducible exact Sub.trans okm (by decide))
    | with_reducible assumption
    | (with_reducible apply State.countCe_follows)
    | (with_reducible apply State.sectorBack_follows)
    | split
    | fail_if_no_progress extract_lets)

theorem State.sectorNow_follows {μ : Nat} {b : State} {s : State} (u : RetFor) (pl : Place) (h : Nat) (raw : List Byte) (hb : b.Follows μ s)
    (okm : Sub 0x80002090452 μ := by exact Sub.trans (by assumption) (by decide)) :
    b.Follows μ (State.sectorNow s u pl h raw) := by
  unfold State.sectorNow
  repeat' (first
    | (with_reducible exact Sub.trans okm (by decide))
    | with_reducible assumption
    | (with_reducible apply State.rereadBack_follows)
    | (with_reducible apply State.sectorBack_follows)
    | (with_reducible apply State.Follows.ite)
    | (intro _))

theorem State.returnNow_follows {μ : Nat} {b : State} {s : State} (r : Ret) (hb : b.Follows μ s)
    (okm : Sub 0x80002090452 μ := by exact Sub.trans (by assumption) (by decide)) :
    b.Follows μ (State.returnNow s r) := by
  unfold State.returnNow
  repeat' (first
    | (with_reducible exact Sub.trans okm (by decide))
    | with_reducible assumption
    | (with_reducible apply State.rereadBack_follows)
    | (with_reducible apply State.sectorNow_follows)
    | (with_reducible apply State.Follows.ite)
    | (intro _))

theorem State.closeGather_follows {μ : Nat} {b : State} {s : State} (pl : Place) (hb : b.Follows μ s)
    (okm : Sub 0x2000452 μ := by exact Sub.trans (by assumption) (by decide)) :
    b.Follows μ (State.closeGather s pl) := by
  unfold State.closeGather
  repeat' (first
    | (with_reducible exact Sub.trans okm (by decide))
    | with_reducible assumption
    | (with_reducible apply State.mergeRelease_follows)
    | (with_reducible apply State.Follows.ite)
    | (intro _)
    | split)

theorem State.acceptOpen_follows {μ : Nat} {b s : State} {pl : Place} {data : Granule} {mask : Nat} {src : Src} {cls stamp : Nat}
    (hb : b.Follows μ s) {tt : State} {yy : Bool} (ee : s.acceptOpen pl data mask src cls stamp = some (tt, yy))
    (okm : Sub 0x2000452 μ := by exact Sub.trans (by assumption) (by decide)) : b.Follows μ tt := by
  unfold State.acceptOpen at ee
  extract_lets p full at ee
  split at ee
  · extract_lets m1 s1 at ee
    have h1 : b.Follows μ s1 := State.setPcc_follows _ _ hb
    simp only [Option.some.injEq, Prod.mk.injEq] at ee
    obtain ⟨rfl, rfl⟩ := ee
    exact State.Follows.ite (fun _ => State.mergeToWb_follows _ _ h1) fun _ => h1
  · split at ee
    · split at ee
      · simp only [Option.some.injEq, Prod.mk.injEq] at ee
        obtain ⟨rfl, rfl⟩ := ee
        exact State.setPcc_follows _ _ hb
      · cases ee
    · split at ee
      · simp only [Option.some.injEq, Prod.mk.injEq] at ee
        obtain ⟨rfl, rfl⟩ := ee
        exact State.setPcc_follows _ _ hb
      · cases ee

theorem State.acceptWrite_follows {μ : Nat} {b : State} {s : State} {pl : Place} {data : Granule} {mask : Nat} {src : Src} {cls : Nat} {stamp : Nat} (hb : b.Follows μ s) {tt : State} {yy : Bool} (ee : State.acceptWrite s pl data mask src cls stamp = some (tt, yy))
    (okm : Sub 0x2000452 μ := by exact Sub.trans (by assumption) (by decide)) :
    b.Follows μ tt := by
  unfold State.acceptWrite at ee
  repeat' (first | split at ee | fail_if_no_progress extract_lets at ee | (cases ee))
  repeat' (first
    | (with_reducible exact Sub.trans okm (by decide))
    | with_reducible assumption
    | (with_reducible apply State.closeGather_follows)
    | (with_reducible refine State.acceptOpen_follows (hb := ?_) (ee := by with_reducible assumption)))

theorem State.acceptRead_follows {μ : Nat} {b : State} {s : State} {pl : Place} {src : Src} {cls : Nat} {stamp : Nat} (hb : b.Follows μ s) {tt : State} (ee : State.acceptRead s pl src cls stamp = some tt)
    (okm : Sub 0x400 μ := by exact Sub.trans (by assumption) (by decide)) :
    b.Follows μ tt := by
  unfold State.acceptRead at ee
  repeat' (first | split at ee | fail_if_no_progress extract_lets at ee | (cases ee))
  repeat' (first
    | (with_reducible exact Sub.trans okm (by decide))
    | with_reducible assumption
    | (with_reducible apply State.setPcc_follows))

theorem State.acceptAtomic_follows {μ : Nat} {b : State} {s : State} {pl : Place} {o : AtomOp} {src : Src} {cls : Nat} {stamp : Nat} (hb : b.Follows μ s) {tt : State} (ee : State.acceptAtomic s pl o src cls stamp = some tt)
    (okm : Sub 0x400 μ := by exact Sub.trans (by assumption) (by decide)) :
    b.Follows μ tt := by
  unfold State.acceptAtomic at ee
  repeat' (first | split at ee | fail_if_no_progress extract_lets at ee | (cases ee))
  repeat' (first
    | (with_reducible exact Sub.trans okm (by decide))
    | with_reducible assumption
    | (with_reducible apply State.setPcc_follows))

theorem State.issueWrite_follows {μ : Nat} {b : State} {s : State} (pc : Nat) (seq : Nat) (todo : Nat) (h : Nat) (kind : EKind) (hb : b.Follows μ s)
    (okm : Sub 0xc00 μ := by exact Sub.trans (by assumption) (by decide)) :
    b.Follows μ (State.issueWrite s pc seq todo h kind) := by
  unfold State.issueWrite
  repeat' (first
    | (with_reducible exact Sub.trans okm (by decide))
    | with_reducible assumption
    | (with_reducible apply State.setPcc_follows)
    | (with_reducible apply State.storeSector_follows)
    | (with_reducible apply State.Follows.ite)
    | (intro _)
    | split)

theorem State.issueMerge_follows {μ : Nat} {b : State} {s : State} (pc : Nat) (seq : Nat) (h : Nat) (hb : b.Follows μ s)
    (okm : Sub 0x2000c52 μ := by exact Sub.trans (by assumption) (by decide)) :
    b.Follows μ (State.issueMerge s pc seq h) := by
  unfold State.issueMerge
  repeat' (first
    | (with_reducible exact Sub.trans okm (by decide))
    | with_reducible assumption
    | (with_reducible apply State.setPcc_follows)
    | (with_reducible apply State.storeSector_follows)
    | (with_reducible apply State.mergeFree_follows)
    | (with_reducible apply State.Follows.ite)
    | (intro _)
    | split)

theorem State.forceRead_follows {μ : Nat} {b : State} {s : State} (pc : Nat) (e : Ent) (hb : b.Follows μ s)
    (okm : Sub 0x80002090452 μ := by exact Sub.trans (by assumption) (by decide)) :
    b.Follows μ (State.forceRead s pc e) := by
  unfold State.forceRead
  repeat' (first
    | (with_reducible exact Sub.trans okm (by decide))
    | with_reducible assumption
    | (with_reducible apply State.setPcc_follows)
    | (with_reducible apply State.sectorNow_follows)
    | (with_reducible apply State.returnNow_follows)
    | (with_reducible apply State.Follows.foldl)
    | (intro _ _ _; beta_reduce))

theorem State.forceWrite_follows {μ : Nat} {b : State} {s : State} (pc : Nat) (e : Ent) (hb : b.Follows μ s)
    (okm : Sub 0xc00 μ := by exact Sub.trans (by assumption) (by decide)) :
    b.Follows μ (State.forceWrite s pc e) := by
  unfold State.forceWrite
  repeat' (first
    | (with_reducible exact Sub.trans okm (by decide))
    | with_reducible assumption
    | (with_reducible apply State.setPcc_follows)
    | (with_reducible apply State.storeSector_follows)
    | (with_reducible apply State.Follows.foldl)
    | (with_reducible apply State.Follows.ite)
    | (intro _ _ _; beta_reduce)
    | (intro _))

theorem State.forceBacks_follows {μ : Nat} {b : State} {s : State} (pc : Nat) (seq : Nat) (hb : b.Follows μ s)
    (okm : Sub 0xc00 μ := by exact Sub.trans (by assumption) (by decide)) :
    b.Follows μ (State.forceBacks s pc seq) := by
  unfold State.forceBacks
  repeat' (first
    | (with_reducible exact Sub.trans okm (by decide))
    | with_reducible assumption
    | (with_reducible apply State.forceWrite_follows)
    | (with_reducible apply State.Follows.foldl)
    | (intro _ _ _; beta_reduce))

theorem State.forceMerge_follows {μ : Nat} {b s : State} (pc : Nat) (m : MgEnt) (hb : b.Follows μ s)
    (okm : Sub 0x80002090c52 μ := by exact Sub.trans (by assumption) (by decide)) : b.Follows μ (s.forceMerge pc m) := by
  unfold State.forceMerge
  extract_lets p rets s0 s1 s2 s3
  have h0 : b.Follows μ s0 := State.setPcc_follows _ _ hb
  have h1 : b.Follows μ s1 := State.Follows.ite (fun _ => State.mergeRelease_follows _ _ h0) fun _ =>
    State.Follows.foldl (fun _ _ h => State.returnNow_follows _ h) _ h0
  have h2 : b.Follows μ s2 := by
    dsimp only [s2]
    split
    · exact h1
    · refine State.Follows.foldl ?_ _ h1
      intro u x hu
      exact State.sectorNow_follows _ _ _ _ (State.setPcc_follows _ _ hu)
  have h3 : b.Follows μ s3 := State.forceBacks_follows _ _ h2
  split
  · exact h3
  · exact State.Follows.foldl (fun u x hu => State.issueMerge_follows _ _ _ hu) _ h3

theorem State.settle_follows {μ : Nat} {b : State} (pc : Nat) (t : Place → Bool) : ∀ (n : Nat) {s : State}, b.Follows μ s →
    (okm : Sub 0x80002090c52 μ := by exact Sub.trans (by assumption) (by decide)) → b.Follows μ (s.settle pc t n)
  | 0, _, h, _ => h
  | n + 1, s, h, okm => by
    unfold State.settle
    split
    · exact h
    · exact State.settle_follows pc t n (State.forceRead_follows _ _ h)
    · split
      · exact State.settle_follows pc t n (State.settle_follows _ _ n h)
      · exact State.settle_follows pc t n (State.forceWrite_follows _ _ h)
    · exact State.settle_follows pc t n (State.forceMerge_follows _ _ h)

theorem State.restartPeriods_follows {μ : Nat} {b : State} {s : State} (k : Nat) (hb : b.Follows μ s)
    (okm : Sub 0x100000 μ := by exact Sub.trans (by assumption) (by decide)) :
    b.Follows μ (State.restartPeriods s k) := by
  unfold State.restartPeriods
  repeat' (first
    | with_reducible assumption
    | (fail_if_no_progress with_reducible refine State.Follows.set_links ?_ (Sub.trans okm (by decide))))

theorem State.passTemps_follows {μ : Nat} {b : State} {s : State} (k : Nat) (hb : b.Follows μ s)
    (okm : Sub 0x100000 μ := by exact Sub.trans (by assumption) (by decide)) :
    b.Follows μ (State.passTemps s k) := by
  unfold State.passTemps
  repeat' (first
    | with_reducible assumption
    | (fail_if_no_progress with_reducible refine State.Follows.set_links ?_ (Sub.trans okm (by decide))))

theorem State.exitPass_follows {μ : Nat} {b : State} {s : State} (k : Nat) (hb : b.Follows μ s)
    (okm : Sub 0x280000100002 μ := by exact Sub.trans (by assumption) (by decide)) :
    b.Follows μ (State.exitPass s k) := by
  unfold State.exitPass
  repeat' (first
    | (with_reducible exact Sub.trans okm (by decide))
    | with_reducible assumption
    | (with_reducible apply State.arbDrop_follows)
    | (with_reducible apply State.askPort_follows)
    | (with_reducible apply State.fsat_follows)
    | (with_reducible apply State.ev_follows)
    | (with_reducible apply State.passTemps_follows)
    | (fail_if_no_progress with_reducible refine State.Follows.set_links ?_ (Sub.trans okm (by decide)))
    | (with_reducible apply State.Follows.ite)
    | (intro _))

theorem State.wake_follows {μ : Nat} {b : State} {s : State} (k : Nat) (hb : b.Follows μ s)
    (okm : Sub 0x280000100403 μ := by exact Sub.trans (by assumption) (by decide)) :
    b.Follows μ (State.wake s k) := by
  unfold State.wake
  repeat' (first
    | (with_reducible exact Sub.trans okm (by decide))
    | with_reducible assumption
    | (with_reducible apply State.tickTo_follows)
    | (with_reducible apply State.exitPass_follows)
    | (with_reducible apply State.fset_follows)
    | (with_reducible apply State.restartPeriods_follows)
    | (with_reducible apply State.tick_follows)
    | (fail_if_no_progress with_reducible refine State.Follows.set_pccs ?_ (Sub.trans okm (by decide)))
    | (with_reducible apply State.Follows.ite)
    | (intro _))

theorem State.settleGranule_follows {μ : Nat} {b : State} {s : State} (pl : Place) (hb : b.Follows μ s)
    (okm : Sub 0x280002190c53 μ := by exact Sub.trans (by assumption) (by decide)) :
    b.Follows μ (State.settleGranule s pl) := by
  unfold State.settleGranule
  repeat' (first
    | (with_reducible exact Sub.trans okm (by decide))
    | with_reducible assumption
    | (with_reducible apply State.wake_follows)
    | (with_reducible apply State.settle_follows))

theorem State.drainPcc_follows {μ : Nat} {b : State} {s : State} (pc : Nat) (hb : b.Follows μ s)
    (okm : Sub 0x80002090c52 μ := by exact Sub.trans (by assumption) (by decide)) :
    b.Follows μ (State.drainPcc s pc) := by
  unfold State.drainPcc
  repeat' (first
    | (with_reducible exact Sub.trans okm (by decide))
    | with_reducible assumption
    | (with_reducible apply State.settle_follows))

theorem State.readSector_follows {μ : Nat} {b : State} {s : State} (pl : Place) (h : Nat) (hb : b.Follows μ s)
    (okm : Sub 0x80000090c02 μ := by exact Sub.trans (by assumption) (by decide)) :
    b.Follows μ (State.readSector s pl h).1 := by
  unfold State.readSector
  repeat' (first
    | (with_reducible exact Sub.trans okm (by decide))
    | with_reducible assumption
    | (with_reducible apply State.fsat_follows)
    | (with_reducible apply State.countCe_follows)
    | (with_reducible apply State.countUe_follows)
    | (with_reducible apply State.fadd_follows)
    | (with_reducible apply State.storeSector_follows)
    | (with_reducible apply State.partnerTake_follows)
    | (refine State.Follows.fst (by with_reducible assumption) ?_)
    | split
    | fail_if_no_progress extract_lets)

theorem State.readPlace_follows {μ : Nat} {b : State} {s : State} (pl : Place) (hb : b.Follows μ s)
    (okm : Sub 0x280002190c53 μ := by exact Sub.trans (by assumption) (by decide)) :
    b.Follows μ (State.readPlace s pl).1 := by
  unfold State.readPlace
  repeat' (first
    | (with_reducible exact Sub.trans okm (by decide))
    | with_reducible assumption
    | (with_reducible apply State.settleGranule_follows)
    | (with_reducible apply State.readSector_follows)
    | (refine State.Follows.fst (by with_reducible assumption) ?_)
    | split
    | fail_if_no_progress extract_lets)

theorem State.roomFor_follows {μ : Nat} {b : State} {s : State} (pc : Nat) (cls : Nat) (hb : b.Follows μ s)
    (okm : Sub 0x80002090c52 μ := by exact Sub.trans (by assumption) (by decide)) :
    b.Follows μ (State.roomFor s pc cls) := by
  unfold State.roomFor
  repeat' (first
    | (with_reducible exact Sub.trans okm (by decide))
    | with_reducible assumption
    | (with_reducible apply State.settle_follows)
    | (with_reducible apply State.Follows.ite)
    | (intro _)
    | split)

theorem State.postWrite_follows {μ : Nat} {b : State} {s : State} {pl : Place} {data : Granule} {cls : Nat} (hb : b.Follows μ s)
    {tt : State} (ee : State.postWrite s pl data cls = some tt)
    (okm : Sub 0x280002190c53 μ := by exact Sub.trans (by assumption) (by decide)) : b.Follows μ tt := by
  unfold State.postWrite at ee
  extract_lets s1 at ee
  have h1 : b.Follows μ s1 := State.roomFor_follows _ _ (State.wake_follows _ hb)
  obtain ⟨⟨u, y⟩, e, rfl⟩ := Option.map_eq_some_iff.mp ee
  exact State.acceptWrite_follows h1 e

theorem State.writePlace_follows {μ : Nat} {b : State} {s : State} (pl : Place) (data : Granule) (mask : Nat) (cls : Nat)
    (hb : b.Follows μ s) (okm : Sub 0x280002190c53 μ := by exact Sub.trans (by assumption) (by decide)) :
    b.Follows μ (State.writePlace s pl data mask cls).1 := by
  unfold State.writePlace
  split
  · exact hb
  · split
    · next t e =>
      split at e
      · exact State.postWrite_follows hb e
      · cases e
    · repeat' (first
        | (with_reducible exact Sub.trans okm (by decide))
        | with_reducible assumption
        | (with_reducible apply State.settleGranule_follows)
        | (with_reducible apply State.storeSector_follows)
        | (with_reducible apply State.readSector_follows)
        | (with_reducible apply State.Follows.foldlFst)
        | (refine State.Follows.fst (by with_reducible assumption) ?_)
        | (intro _ _ _; beta_reduce)
        | split
        | fail_if_no_progress extract_lets)

theorem State.readRoot_follows {μ : Nat} {b : State} {s : State} (root : Nat) (x : Nat) (hb : b.Follows μ s)
    (okm : Sub 0x280002190c53 μ := by exact Sub.trans (by assumption) (by decide)) :
    b.Follows μ (State.readRoot s root x).1 := by
  unfold State.readRoot
  repeat' (first
    | (with_reducible exact Sub.trans okm (by decide))
    | with_reducible assumption
    | (with_reducible apply State.readPlace_follows)
    | split)

theorem State.writeRoot_follows {μ : Nat} {b s : State} (root x : Nat) (data : Granule) (mask : Nat) (cls : Nat) (hb : b.Follows μ s)
    (okm : Sub 0x280002190c53 μ := by exact Sub.trans (by assumption) (by decide)) :
    b.Follows μ (s.writeRoot root x data mask cls).1 := by
  unfold State.writeRoot
  split
  · exact hb
  · split
    · exact hb
    · extract_lets up
      clear_value up
      split
      · exact hb
      · refine State.Follows.foldlFst ?_ _ (State.writePlace_follows _ _ _ _ hb)
        intro u y hu
        exact State.writePlace_follows _ _ _ _ hu

theorem State.readMem_follows {μ : Nat} {b : State} {s : State} (addr : Nat) (hb : b.Follows μ s)
    (okm : Sub 0x280002190c53 μ := by exact Sub.trans (by assumption) (by decide)) :
    b.Follows μ (State.readMem s addr).1 := by
  unfold State.readMem
  repeat' (first
    | (with_reducible exact Sub.trans okm (by decide))
    | with_reducible assumption
    | (with_reducible apply State.readRoot_follows)
    | split)

theorem State.writeMem_follows {μ : Nat} {b : State} {s : State} (addr : Nat) (data : Granule) (mask : Nat) (cls : Nat) (hb : b.Follows μ s)
    (okm : Sub 0x280002190c53 μ := by exact Sub.trans (by assumption) (by decide)) :
    b.Follows μ (State.writeMem s addr data mask cls).1 := by
  unfold State.writeMem
  repeat' (first
    | (with_reducible exact Sub.trans okm (by decide))
    | with_reducible assumption
    | (with_reducible apply State.writeRoot_follows)
    | split)

theorem State.poisonRoot_follows {μ : Nat} {b : State} {s : State} (root : Nat) (x : Nat) (hb : b.Follows μ s)
    (okm : Sub 0x280002190c53 μ := by exact Sub.trans (by assumption) (by decide)) :
    b.Follows μ (State.poisonRoot s root x) := by
  unfold State.poisonRoot
  repeat' (first
    | (with_reducible exact Sub.trans okm (by decide))
    | with_reducible assumption
    | (with_reducible apply State.settleGranule_follows)
    | (with_reducible apply State.storeSector_follows)
    | (with_reducible apply State.Follows.foldl)
    | (with_reducible apply State.Follows.ite)
    | (intro _ _ _; beta_reduce)
    | (intro _))

end Sys2Proof.Machine
end

