-- ==== Sys2Proof/Laws/FollowsFabric.lean ====
section
/-! SUPPORT. What each operation may do to the fields of State.Follows, one lemma per operation: ports, channels, packets,
copies, streams, attention, recipes and tensors. -/
namespace Sys2Proof.Machine

set_option Elab.async false
set_option linter.unusedVariables false
set_option linter.unusedTactic false
set_option linter.unreachableTactic false

/-! ## Grade -/

theorem State.regrade_follows {μ : Nat} {b : State} {s : State} (st : Nat) (hb : b.Follows μ s)
    (okm : Sub 0x2 μ := by exact Sub.trans (by assumption) (by decide)) :
    b.Follows μ (State.regrade s st) := by
  unfold State.regrade
  repeat' (first
    | (with_reducible exact Sub.trans okm (by decide))
    | with_reducible assumption
    | (with_reducible apply State.fset_follows)
    | (with_reducible apply State.raise_follows)
    | (with_reducible apply State.Follows.ite)
    | (intro _))

theorem State.setLink_follows {μ : Nat} {b : State} {s : State} (st : Nat) (v : Nat) (hb : b.Follows μ s)
    (okm : Sub 0x2 μ := by exact Sub.trans (by assumption) (by decide)) :
    b.Follows μ (State.setLink s st v) := by
  unfold State.setLink
  repeat' (first
    | (with_reducible exact Sub.trans okm (by decide))
    | with_reducible assumption
    | (with_reducible apply State.regrade_follows)
    | (with_reducible apply State.fset_follows))

/-! ## Shaper -/

theorem State.enterWheel_follows {μ : Nat} {b : State} {s : State} (t : Nat) (hb : b.Follows μ s)
    (okm : Sub 0x100 μ := by exact Sub.trans (by assumption) (by decide)) :
    b.Follows μ (State.enterWheel s t) := by
  unfold State.enterWheel
  repeat' (first
    | (with_reducible exact Sub.trans okm (by decide))
    | with_reducible assumption
    | (with_reducible apply State.setTenQ_follows)
    | (with_reducible apply State.Follows.ite)
    | (intro _))

theorem State.enqueue_follows {μ : Nat} {b : State} {s : State} (n : Nat) (r : PortReq) (hb : b.Follows μ s)
    (okm : Sub 0x140 μ := by exact Sub.trans (by assumption) (by decide)) :
    b.Follows μ (State.enqueue s n r) := by
  unfold State.enqueue
  repeat' (first
    | (with_reducible exact Sub.trans okm (by decide))
    | with_reducible assumption
    | (with_reducible apply State.setReq_follows)
    | (with_reducible apply State.enterWheel_follows)
    | (with_reducible apply State.setTenQ_follows)
    | (with_reducible apply State.Follows.ite)
    | (intro _))

theorem State.charge_follows {μ : Nat} {b : State} {s : State} (n : Nat) (r : PortReq) (hb : b.Follows μ s)
    (okm : Sub 0x102 μ := by exact Sub.trans (by assumption) (by decide)) :
    b.Follows μ (State.charge s n r) := by
  unfold State.charge
  repeat' (first
    | (with_reducible exact Sub.trans okm (by decide))
    | with_reducible assumption
    | (with_reducible apply State.ev_follows)
    | (with_reducible apply State.setTenQ_follows))

theorem State.release_follows {μ : Nat} {b : State} {s : State} (n : Nat) (r : PortReq) (hb : b.Follows μ s)
    (okm : Sub 0x142 μ := by exact Sub.trans (by assumption) (by decide)) :
    b.Follows μ (State.release s n r) := by
  unfold State.release
  repeat' (first
    | (with_reducible exact Sub.trans okm (by decide))
    | with_reducible assumption
    | (with_reducible apply State.setPort_follows)
    | (with_reducible apply State.setReq_follows)
    | (with_reducible apply State.charge_follows)
    | (with_reducible apply State.enterWheel_follows)
    | (with_reducible apply State.Follows.ite)
    | (intro _))

theorem State.releaseUpTo_follows {μ : Nat} {b : State} (n : Nat) : ∀ (k : Nat) {s : State}, b.Follows μ s →
    (okm : Sub 0x142 μ := by exact Sub.trans (by assumption) (by decide)) → b.Follows μ (s.releaseUpTo n k)
  | 0, _, h, _ => h
  | k + 1, s, h, okm => by
    unfold State.releaseUpTo
    extract_lets
    split
    · exact h
    · exact State.releaseUpTo_follows n k (State.release_follows _ _ h)

theorem execTenantRelease_follows {μ : Nat} {b : State} {n : Nat} {s : State} (hb : b.Follows μ s) {tt : State} (ee : execTenantRelease n s = .next tt)
    (okm : Sub 0x142 μ := by exact Sub.trans (by assumption) (by decide)) :
    b.Follows μ tt := by
  unfold execTenantRelease at ee
  first | refine onUnit_follows ?_ ee | cases ee
  repeat' (first
    | (with_reducible exact Sub.trans okm (by decide))
    | with_reducible assumption
    | (with_reducible apply State.releaseUpTo_follows))

theorem State.wheelStep_follows {μ : Nat} {b : State} {s : State} (hb : b.Follows μ s)
    (okm : Sub 0x303 μ := by exact Sub.trans (by assumption) (by decide)) :
    b.Follows μ (State.wheelStep s) := by
  unfold State.wheelStep
  repeat' (first
    | (with_reducible exact Sub.trans okm (by decide))
    | with_reducible assumption
    | (with_reducible apply State.tickTo_follows)
    | (with_reducible apply State.setTenQ_follows)
    | (fail_if_no_progress with_reducible refine State.Follows.set_wheel ?_ (Sub.trans okm (by decide)))
    | (with_reducible apply State.Follows.foldl)
    | (intro _ _ _; beta_reduce))

theorem execWheelSlot_follows {μ : Nat} {b : State} {s : State} (hb : b.Follows μ s) {tt : State} (ee : execWheelSlot s = .next tt)
    (okm : Sub 0x303 μ := by exact Sub.trans (by assumption) (by decide)) :
    b.Follows μ tt := by
  unfold execWheelSlot at ee
  first | refine onUnit_follows ?_ ee | cases ee
  repeat' (first
    | (with_reducible exact Sub.trans okm (by decide))
    | with_reducible assumption
    | (with_reducible apply State.wheelStep_follows))

theorem State.tqWrite_follows {μ : Nat} {b : State} {s : State} (t : Nat) (w : Word) (hb : b.Follows μ s)
    (okm : Sub 0x100 μ := by exact Sub.trans (by assumption) (by decide)) :
    b.Follows μ (State.tqWrite s t w) := by
  unfold State.tqWrite
  repeat' (first
    | (with_reducible exact Sub.trans okm (by decide))
    | with_reducible assumption
    | (with_reducible apply State.enterWheel_follows)
    | (with_reducible apply State.setTenQ_follows)
    | (with_reducible apply State.Follows.ite)
    | (intro _))

theorem execTqConfig_follows {μ : Nat} {b : State} {w : Word} {s : State} (hb : b.Follows μ s) {tt : State} (ee : execTqConfig w s = .next tt)
    (okm : Sub 0x100 μ := by exact Sub.trans (by assumption) (by decide)) :
    b.Follows μ tt := by
  unfold execTqConfig at ee
  first | refine onUnit_follows ?_ ee | cases ee
  repeat' (first
    | (with_reducible exact Sub.trans okm (by decide))
    | with_reducible assumption
    | (with_reducible apply State.tqWrite_follows)
    | (with_reducible apply State.ifUp_follows)
    | (intro _))

theorem State.tqSelect_follows {μ : Nat} {b : State} {s : State} (t : Nat) (hb : b.Follows μ s)
    (okm : Sub 0x2 μ := by exact Sub.trans (by assumption) (by decide)) :
    b.Follows μ (State.tqSelect s t) := by
  unfold State.tqSelect
  repeat' (first
    | (with_reducible exact Sub.trans okm (by decide))
    | with_reducible assumption
    | (with_reducible apply State.fset_follows)
    | (with_reducible apply State.rput_follows))

theorem execTqSnapshot_follows {μ : Nat} {b : State} {t : Nat} {s : State} (hb : b.Follows μ s) {tt : State} (ee : execTqSnapshot t s = .next tt)
    (okm : Sub 0x2 μ := by exact Sub.trans (by assumption) (by decide)) :
    b.Follows μ tt := by
  unfold execTqSnapshot at ee
  first | refine onUnit_follows ?_ ee | cases ee
  repeat' (first
    | (with_reducible exact Sub.trans okm (by decide))
    | with_reducible assumption
    | (with_reducible apply State.tqSelect_follows)
    | (with_reducible apply State.ifUp_follows)
    | (intro _))

/-! ## Gates -/

theorem State.gateFail_follows {μ : Nat} {b : State} {s : State} (n : Nat) (a : GateFail) (hb : b.Follows μ s)
    (okm : Sub 0x2 μ := by exact Sub.trans (by assumption) (by decide)) :
    b.Follows μ (State.gateFail s n a) := by
  unfold State.gateFail
  repeat' (first
    | (with_reducible exact Sub.trans okm (by decide))
    | with_reducible assumption
    | (with_reducible apply State.raise_follows)
    | split)

theorem State.gateFails_follows {μ : Nat} {b : State} {s : State} (n : Nat) (l : List GateFail) (hb : b.Follows μ s)
    (okm : Sub 0x2 μ := by exact Sub.trans (by assumption) (by decide)) :
    b.Follows μ (State.gateFails s n l) := by
  unfold State.gateFails
  repeat' (first
    | (with_reducible exact Sub.trans okm (by decide))
    | with_reducible assumption
    | (with_reducible apply State.gateFail_follows)
    | (with_reducible apply State.Follows.foldl)
    | (intro _ _ _; beta_reduce))

theorem State.gateBusy_follows {μ : Nat} {b : State} {s : State} (n : Nat) (hb : b.Follows μ s)
    (okm : Sub 0x2 μ := by exact Sub.trans (by assumption) (by decide)) :
    b.Follows μ (State.gateBusy s n) := by
  unfold State.gateBusy
  repeat' (first
    | (with_reducible exact Sub.trans okm (by decide))
    | with_reducible assumption
    | (with_reducible apply State.raise_follows))

theorem State.gateCfgWrite_follows {μ : Nat} {b : State} {s : State} (n : Nat) (w : Word) (hb : b.Follows μ s)
    (okm : Sub 0x82 μ := by exact Sub.trans (by assumption) (by decide)) :
    b.Follows μ (State.gateCfgWrite s n w) := by
  unfold State.gateCfgWrite
  repeat' (first
    | (with_reducible exact Sub.trans okm (by decide))
    | with_reducible assumption
    | (with_reducible apply State.fset_follows)
    | (with_reducible apply State.setGate_follows)
    | (with_reducible apply State.gateFails_follows)
    | (with_reducible apply State.gateBusy_follows)
    | (with_reducible apply State.Follows.ite)
    | (intro _)
    | split)

theorem State.gateSwap_follows {μ : Nat} {b : State} {s : State} (n : Nat) (hb : b.Follows μ s)
    (okm : Sub 0x82 μ := by exact Sub.trans (by assumption) (by decide)) :
    b.Follows μ (State.gateSwap s n) := by
  unfold State.gateSwap
  repeat' (first
    | (with_reducible exact Sub.trans okm (by decide))
    | with_reducible assumption
    | (with_reducible apply State.setGate_follows)
    | (with_reducible apply State.gateFails_follows)
    | (with_reducible apply State.gateBusy_follows)
    | (with_reducible apply State.Follows.ite)
    | (intro _)
    | split)

theorem State.gateTake_follows {μ : Nat} {b : State} {s : State} (n : Nat) (hb : b.Follows μ s)
    (okm : Sub 0x83 μ := by exact Sub.trans (by assumption) (by decide)) :
    b.Follows μ (State.gateTake s n) := by
  unfold State.gateTake
  repeat' (first
    | (with_reducible exact Sub.trans okm (by decide))
    | with_reducible assumption
    | (with_reducible apply State.setGate_follows)
    | (with_reducible apply State.tick_follows)
    | (with_reducible apply State.Follows.ite)
    | (intro _))

theorem execGateEnable_follows {μ : Nat} {b : State} {n : Nat} {s : State} (hb : b.Follows μ s) {tt : State} (ee : execGateEnable n s = .next tt)
    (okm : Sub 0x82 μ := by exact Sub.trans (by assumption) (by decide)) :
    b.Follows μ tt := by
  unfold execGateEnable at ee
  first | refine onUnit_follows ?_ ee | cases ee
  repeat' (first
    | (with_reducible exact Sub.trans okm (by decide))
    | with_reducible assumption
    | (with_reducible apply State.gateCfgWrite_follows)
    | (with_reducible apply State.ifUp_follows)
    | (intro _))

theorem execGateDisable_follows {μ : Nat} {b : State} {n : Nat} {s : State} (hb : b.Follows μ s) {tt : State} (ee : execGateDisable n s = .next tt)
    (okm : Sub 0x82 μ := by exact Sub.trans (by assumption) (by decide)) :
    b.Follows μ tt := by
  unfold execGateDisable at ee
  first | refine onUnit_follows ?_ ee | cases ee
  repeat' (first
    | (with_reducible exact Sub.trans okm (by decide))
    | with_reducible assumption
    | (with_reducible apply State.gateCfgWrite_follows)
    | (with_reducible apply State.ifUp_follows)
    | (intro _))

theorem execGateSwap_follows {μ : Nat} {b : State} {n : Nat} {s : State} (hb : b.Follows μ s) {tt : State} (ee : execGateSwap n s = .next tt)
    (okm : Sub 0x82 μ := by exact Sub.trans (by assumption) (by decide)) :
    b.Follows μ tt := by
  unfold execGateSwap at ee
  first | refine onUnit_follows ?_ ee | cases ee
  repeat' (first
    | (with_reducible exact Sub.trans okm (by decide))
    | with_reducible assumption
    | (with_reducible apply State.gateSwap_follows)
    | (with_reducible apply State.ifUp_follows)
    | (intro _))

theorem execGateSwapTake_follows {μ : Nat} {b : State} {n : Nat} {s : State} (hb : b.Follows μ s) {tt : State} (ee : execGateSwapTake n s = .next tt)
    (okm : Sub 0x83 μ := by exact Sub.trans (by assumption) (by decide)) :
    b.Follows μ tt := by
  unfold execGateSwapTake at ee
  first | refine onUnit_follows ?_ ee | cases ee
  repeat' (first
    | (with_reducible exact Sub.trans okm (by decide))
    | with_reducible assumption
    | (with_reducible apply State.gateTake_follows))

/-! ## FarTier -/

theorem State.sendOne_follows {μ : Nat} {b : State} {s : State} {ft : Nat} (hb : b.Follows μ s) {tt : State} (ee : State.sendOne s ft = some tt)
    (okm : Sub 0x4000004a μ := by exact Sub.trans (by assumption) (by decide)) :
    b.Follows μ tt := by
  unfold State.sendOne at ee
  repeat' (first | split at ee | fail_if_no_progress extract_lets at ee | (cases ee))
  repeat' (first
    | (with_reducible exact Sub.trans okm (by decide))
    | with_reducible assumption
    | (with_reducible apply State.setPort_follows)
    | (with_reducible apply State.ev_follows)
    | (with_reducible apply State.emit_follows)
    | (fail_if_no_progress with_reducible refine State.Follows.set_far ?_ (Sub.trans okm (by decide))))

theorem State.pumpFar_follows {μ : Nat} {b : State} (ft : Nat) : ∀ (n : Nat) {s : State}, b.Follows μ s →
    (okm : Sub 0x4000004a μ := by exact Sub.trans (by assumption) (by decide)) → b.Follows μ (s.pumpFar ft n)
  | 0, _, h, _ => h
  | n + 1, s, h, okm => by
    unfold State.pumpFar
    split
    · exact State.pumpFar_follows ft n (State.sendOne_follows h (by assumption))
    · exact h

theorem State.pump_follows {μ : Nat} {b : State} {s : State} (ft : Nat) (hb : b.Follows μ s)
    (okm : Sub 0x4000004a μ := by exact Sub.trans (by assumption) (by decide)) :
    b.Follows μ (State.pump s ft) := by
  unfold State.pump
  repeat' (first
    | (with_reducible exact Sub.trans okm (by decide))
    | with_reducible assumption
    | (with_reducible apply State.pumpFar_follows))

theorem State.askFar_follows {μ : Nat} {b : State} {s : State} (ft : Nat) (addr : Nat) (len : Nat) (d : FarDest) (hb : b.Follows μ s)
    (okm : Sub 0x40000000 μ := by exact Sub.trans (by assumption) (by decide)) :
    b.Follows μ (State.askFar s ft addr len d) := by
  unfold State.askFar
  repeat' (first
    | with_reducible assumption
    | (fail_if_no_progress with_reducible refine State.Follows.set_far ?_ (Sub.trans okm (by decide))))

theorem State.touchSeg_follows {μ : Nat} {b : State} {s : State} (n : Nat) (hb : b.Follows μ s)
    (okm : Sub 0x2000042 μ := by exact Sub.trans (by assumption) (by decide)) :
    b.Follows μ (State.touchSeg s n) := by
  unfold State.touchSeg
  repeat' (first
    | (with_reducible exact Sub.trans okm (by decide))
    | with_reducible assumption
    | (with_reducible apply State.setSeg_follows)
    | (with_reducible apply State.Follows.ite)
    | (intro _))

theorem State.startTensor_follows {μ : Nat} {b : State} {s : State} (n : Nat) (r : PortReq) (t : TensRead) (hb : b.Follows μ s)
    (okm : Sub 0x2000052 μ := by exact Sub.trans (by assumption) (by decide)) :
    b.Follows μ (State.startTensor s n r t) := by
  unfold State.startTensor
  repeat' (first
    | (with_reducible exact Sub.trans okm (by decide))
    | with_reducible assumption
    | (with_reducible apply State.touchSeg_follows)
    | (with_reducible apply State.setReq_follows)
    | (with_reducible apply State.sweep_follows)
    | (with_reducible apply State.Follows.ite)
    | (intro _))

theorem State.passThrough_follows {μ : Nat} {b : State} {s : State} (n : Nat) (r : PortReq) (t : TensRead) (hb : b.Follows μ s)
    (okm : Sub 0x4000004a μ := by exact Sub.trans (by assumption) (by decide)) :
    b.Follows μ (State.passThrough s n r t) := by
  unfold State.passThrough
  repeat' (first
    | (with_reducible exact Sub.trans okm (by decide))
    | with_reducible assumption
    | (with_reducible apply State.pump_follows)
    | (with_reducible apply State.setReq_follows)
    | (with_reducible apply State.askFar_follows)
    | (with_reducible apply State.raise_follows)
    | (with_reducible apply State.Follows.foldl)
    | (with_reducible apply State.Follows.ite)
    | (intro _ _ _; beta_reduce)
    | (intro _))

theorem State.endOne_follows {μ : Nat} {b : State} {s : State} (n : Nat) (r : PortReq) (st : PStatus) (hb : b.Follows μ s)
    (okm : Sub 0x42 μ := by exact Sub.trans (by assumption) (by decide)) :
    b.Follows μ (State.endOne s n r st) := by
  unfold State.endOne
  repeat' (first
    | (with_reducible exact Sub.trans okm (by decide))
    | with_reducible assumption
    | (with_reducible apply State.setPort_follows)
    | (with_reducible apply State.portErr_follows))

theorem State.endParked_follows {μ : Nat} {b : State} {s : State} (seg : Nat) (st : PStatus) (hb : b.Follows μ s)
    (okm : Sub 0x2000052 μ := by exact Sub.trans (by assumption) (by decide)) :
    b.Follows μ (State.endParked s seg st) := by
  unfold State.endParked
  repeat' (first
    | (with_reducible exact Sub.trans okm (by decide))
    | with_reducible assumption
    | (with_reducible apply State.setReq_follows)
    | (with_reducible apply State.sweep_follows)
    | (with_reducible apply State.endOne_follows)
    | (with_reducible apply State.Follows.foldl)
    | (with_reducible apply State.Follows.ite)
    | (intro _ _ _; beta_reduce)
    | (intro _))

theorem State.spoilRange_follows {μ : Nat} {b : State} {s : State} (a : Nat) (n : Nat) (hb : b.Follows μ s)
    (okm : Sub 0x280002190c53 μ := by exact Sub.trans (by assumption) (by decide)) :
    b.Follows μ (State.spoilRange s a n) := by
  unfold State.spoilRange
  repeat' (first
    | (with_reducible exact Sub.trans okm (by decide))
    | with_reducible assumption
    | (with_reducible apply State.writeMem_follows)
    | (with_reducible apply State.drawGranule_follows)
    | (with_reducible apply State.Follows.foldl)
    | (intro _ _ _; beta_reduce))

theorem State.spoil_follows {μ : Nat} {b : State} {s : State} (p : Packet) (hb : b.Follows μ s)
    (okm : Sub 0x280002190c53 μ := by exact Sub.trans (by assumption) (by decide)) :
    b.Follows μ (State.spoil s p) := by
  unfold State.spoil
  repeat' (first
    | (with_reducible exact Sub.trans okm (by decide))
    | with_reducible assumption
    | (with_reducible apply State.spoilRange_follows)
    | (with_reducible apply State.Follows.ite)
    | (intro _))

theorem State.dropReserves_follows {μ : Nat} {b : State} {s : State} (hb : b.Follows μ s)
    (okm : Sub 0x12000042 μ := by exact Sub.trans (by assumption) (by decide)) :
    b.Follows μ (State.dropReserves s) := by
  unfold State.dropReserves
  repeat' (first
    | (with_reducible exact Sub.trans okm (by decide))
    | with_reducible assumption
    | (with_reducible apply State.dropSeg_follows)
    | (fail_if_no_progress with_reducible refine State.Follows.set_demandQ ?_ (Sub.trans okm (by decide)))
    | (with_reducible apply State.Follows.foldl)
    | (with_reducible apply State.Follows.ite)
    | (intro _ _ _; beta_reduce)
    | (intro _))

theorem State.failWaiters_follows {μ : Nat} {b : State} {s : State} (seg : Nat) (hb : b.Follows μ s)
    (okm : Sub 0x290012190c53 μ := by exact Sub.trans (by assumption) (by decide)) :
    b.Follows μ (State.failWaiters s seg) := by
  unfold State.failWaiters
  repeat' (first
    | (with_reducible exact Sub.trans okm (by decide))
    | with_reducible assumption
    | (with_reducible apply State.snoopEnd_follows)
    | (with_reducible apply State.spoil_follows)
    | (with_reducible apply State.dropReserves_follows)
    | (fail_if_no_progress with_reducible refine State.Follows.set_packets ?_ (Sub.trans okm (by decide)))
    | (with_reducible apply State.Follows.foldl)
    | (with_reducible apply State.Follows.ite)
    | (intro _ _ _; beta_reduce)
    | (intro _))

theorem State.stopFetch_follows {μ : Nat} {b : State} {s : State} (seg : Nat) (hb : b.Follows μ s)
    (okm : Sub 0x80048000000 μ := by exact Sub.trans (by assumption) (by decide)) :
    b.Follows μ (State.stopFetch s seg) := by
  unfold State.stopFetch
  repeat' (first
    | (with_reducible exact Sub.trans okm (by decide))
    | with_reducible assumption
    | (with_reducible apply State.snoopEnd_follows)
    | (fail_if_no_progress with_reducible refine State.Follows.set_fetches_far ?_ (Sub.trans okm (by decide))))

theorem State.fetchFailed_follows {μ : Nat} {b : State} {s : State} (seg : Nat) (hb : b.Follows μ s)
    (okm : Sub 0x29005a190c53 μ := by exact Sub.trans (by assumption) (by decide)) :
    b.Follows μ (State.fetchFailed s seg) := by
  unfold State.fetchFailed
  repeat' (first
    | (with_reducible exact Sub.trans okm (by decide))
    | with_reducible assumption
    | (with_reducible apply State.dropSeg_follows)
    | (with_reducible apply State.raise_follows)
    | (with_reducible apply State.endParked_follows)
    | (with_reducible apply State.stopFetch_follows)
    | (with_reducible apply State.failWaiters_follows))

theorem State.releaseParked_follows {μ : Nat} {b : State} {s : State} (seg : Nat) (hb : b.Follows μ s)
    (okm : Sub 0x2000052 μ := by exact Sub.trans (by assumption) (by decide)) :
    b.Follows μ (State.releaseParked s seg) := by
  unfold State.releaseParked
  repeat' (first
    | (with_reducible exact Sub.trans okm (by decide))
    | with_reducible assumption
    | (with_reducible apply State.startTensor_follows)
    | (with_reducible apply State.Follows.foldl)
    | (with_reducible apply State.Follows.ite)
    | (intro _ _ _; beta_reduce)
    | (intro _)
    | split)

theorem State.feedFetch_follows {μ : Nat} {b : State} (k seg : Nat) : ∀ (n : Nat) {s : State}, b.Follows μ s →
    (okm : Sub 0x280002190c53 μ := by exact Sub.trans (by assumption) (by decide)) → b.Follows μ (s.feedFetch k seg n)
  | 0, _, h, _ => h
  | n + 1, s, h, okm => by
    unfold State.feedFetch
    repeat' (first
    | (with_reducible exact Sub.trans okm (by decide))
      | (with_reducible assumption)
      | (with_reducible apply State.feedFetch_follows)
      | (with_reducible apply State.setChk_follows)
      | (with_reducible apply State.readRoot_follows)
      | (with_reducible apply State.drawGranule_follows)
      | (refine State.Follows.fst (by with_reducible assumption) ?_)
      | split
      | fail_if_no_progress extract_lets)

theorem State.snoopBlocks_follows {μ : Nat} {b : State} {s : State} (seg : Nat) (hb : b.Follows μ s)
    (okm : Sub 0x280002190c53 μ := by exact Sub.trans (by assumption) (by decide)) :
    b.Follows μ (State.snoopBlocks s seg) := by
  unfold State.snoopBlocks
  repeat' (first
    | (with_reducible exact Sub.trans okm (by decide))
    | with_reducible assumption
    | (with_reducible apply State.feedFetch_follows)
    | (with_reducible apply State.Follows.foldl)
    | (intro _ _ _; beta_reduce))

theorem State.blockIn_follows {μ : Nat} {b s t : State} {seg blk : Nat} {poison : Bool} {data : List Granule} (hb : b.Follows μ s)
    (ee : s.blockIn seg blk poison data = some t)
    (okm : Sub 0x28000a190c53 μ := by exact Sub.trans (by assumption) (by decide)) : b.Follows μ t := by
  unfold State.blockIn at ee
  extract_lets e d at ee
  split at ee
  · cases ee
  · split at ee
    rename_i s1 ok heq
    have h1 : b.Follows μ s1 := by
      refine State.Follows.fst heq (State.Follows.foldlFst ?_ _ hb)
      intro u x hu
      dsimp only
      split
      · exact State.poisonRoot_follows _ _ hu
      · exact State.writeRoot_follows _ _ _ _ _ hu
    split at ee
    · cases ee
    · simp only [Option.some.injEq] at ee
      subst ee
      exact State.releaseParked_follows _ (State.snoopBlocks_follows _ (State.Follows.set_fetches h1))

theorem State.passIn_follows {μ : Nat} {b : State} {s : State} (n : Nat) (id : Nat) (i : Nat) (poison : Bool) (data : List Granule) (len : Nat) (hb : b.Follows μ s)
    (okm : Sub 0x2000052 μ := by exact Sub.trans (by assumption) (by decide)) :
    b.Follows μ (State.passIn s n id i poison data len) := by
  unfold State.passIn
  repeat' (first
    | (with_reducible exact Sub.trans okm (by decide))
    | with_reducible assumption
    | (with_reducible apply State.setPart_follows)
    | (with_reducible apply State.ev_follows)
    | (with_reducible apply State.Follows.foldl)
    | (intro _ _ _; beta_reduce))

/-! ## Ports -/

theorem State.keyMissing_follows {μ : Nat} {b : State} {s : State} (slot : Nat) (hb : b.Follows μ s)
    (okm : Sub 0x2 μ := by exact Sub.trans (by assumption) (by decide)) :
    b.Follows μ (State.keyMissing s slot) := by
  unfold State.keyMissing
  repeat' (first
    | (with_reducible exact Sub.trans okm (by decide))
    | with_reducible assumption
    | (with_reducible apply State.raise_follows))

theorem State.creditOverflow_follows {μ : Nat} {b : State} {s : State} (n : Nat) (tag : Nat) (kind : Nat) (hb : b.Follows μ s)
    (okm : Sub 0x4a μ := by exact Sub.trans (by assumption) (by decide)) :
    b.Follows μ (State.creditOverflow s n tag kind) := by
  unfold State.creditOverflow
  repeat' (first
    | (with_reducible exact Sub.trans okm (by decide))
    | with_reducible assumption
    | (with_reducible apply State.setPort_follows)
    | (with_reducible apply State.raise_follows)
    | (with_reducible apply State.emit_follows))

theorem State.refuse_follows {μ : Nat} {b : State} {s : State} (n : Nat) (h : Hdr) (st : PStatus) (hb : b.Follows μ s)
    (okm : Sub 0x6a μ := by exact Sub.trans (by assumption) (by decide)) :
    b.Follows μ (State.refuse s n h st) := by
  unfold State.refuse
  repeat' (first
    | (with_reducible exact Sub.trans okm (by decide))
    | with_reducible assumption
    | (with_reducible apply State.creditBack_follows)
    | (with_reducible apply State.setPort_follows)
    | (with_reducible apply State.portErr_follows)
    | (with_reducible apply State.freshId_follows)
    | (with_reducible apply State.ev_follows))

theorem State.takeCredits_follows {μ : Nat} {b : State} {s : State} (n : Nat) (h : Hdr) (hb : b.Follows μ s)
    (okm : Sub 0x42 μ := by exact Sub.trans (by assumption) (by decide)) :
    b.Follows μ (State.takeCredits s n h) := by
  unfold State.takeCredits
  repeat' (first
    | (with_reducible exact Sub.trans okm (by decide))
    | with_reducible assumption
    | (with_reducible apply State.setPort_follows)
    | (with_reducible apply State.ev_follows))

theorem State.releaseOpen_follows {μ : Nat} {b : State} {s : State} (n : Nat) (id : Nat) (hb : b.Follows μ s)
    (okm : Sub 0x142 μ := by exact Sub.trans (by assumption) (by decide)) :
    b.Follows μ (State.releaseOpen s n id) := by
  unfold State.releaseOpen
  repeat' (first
    | (with_reducible exact Sub.trans okm (by decide))
    | with_reducible assumption
    | (with_reducible apply State.release_follows)
    | (with_reducible apply State.Follows.ite)
    | (intro _)
    | split)

theorem State.reqEvents_follows {μ : Nat} {b : State} {s : State} (n : Nat) (k : ReqKind) (len : Nat) (hb : b.Follows μ s)
    (okm : Sub 0x2 μ := by exact Sub.trans (by assumption) (by decide)) :
    b.Follows μ (State.reqEvents s n k len) := by
  unfold State.reqEvents
  repeat' (first
    | (with_reducible exact Sub.trans okm (by decide))
    | with_reducible assumption
    | (with_reducible apply State.ev_follows)
    | split)

theorem State.enter_follows {μ : Nat} {b : State} {s : State} (n : Nat) (h : Hdr) (k : ReqKind) (mask : Nat) (data : List Granule) (hb : b.Follows μ s)
    (okm : Sub 0x162 μ := by exact Sub.trans (by assumption) (by decide)) :
    b.Follows μ (State.enter s n h k mask data) := by
  unfold State.enter
  repeat' (first
    | (with_reducible exact Sub.trans okm (by decide))
    | with_reducible assumption
    | (with_reducible apply State.setPort_follows)
    | (with_reducible apply State.enqueue_follows)
    | (with_reducible apply State.freshId_follows)
    | (with_reducible apply State.releaseOpen_follows)
    | (with_reducible apply State.reqEvents_follows)
    | (with_reducible apply State.Follows.ite)
    | (intro _))

theorem State.apertureIn_follows {μ : Nat} {b : State} {s : State} (n : Nat) (h : Hdr) (data : List Granule) (hb : b.Follows μ s)
    (okm : Sub 0x6a μ := by exact Sub.trans (by assumption) (by decide)) :
    b.Follows μ (State.apertureIn s n h data) := by
  unfold State.apertureIn
  repeat' (first
    | (with_reducible exact Sub.trans okm (by decide))
    | with_reducible assumption
    | (with_reducible apply State.creditBack_follows)
    | (with_reducible apply State.setPort_follows)
    | (with_reducible apply State.freshId_follows)
    | (with_reducible apply State.reqEvents_follows))

theorem State.apertureGo_follows {μ : Nat} {b : State} {s : State} (n : Nat) (r : PortReq) (hb : b.Follows μ s)
    (okm : Sub 0x4a μ := by exact Sub.trans (by assumption) (by decide)) :
    b.Follows μ (State.apertureGo s n r) := by
  unfold State.apertureGo
  repeat' (first
    | (with_reducible exact Sub.trans okm (by decide))
    | with_reducible assumption
    | (with_reducible apply State.creditBack_follows)
    | (with_reducible apply State.setPort_follows)
    | (with_reducible apply State.portErr_follows)
    | (with_reducible apply State.ev_follows)
    | (with_reducible apply State.Follows.ite)
    | (intro _))

theorem State.arrive_follows {μ : Nat} {b : State} {s : State} (n : Nat) (hdr : BitVec 128) (ext : BitVec 128) (ds : List DataSlot) (hb : b.Follows μ s)
    (okm : Sub 0x16a μ := by exact Sub.trans (by assumption) (by decide)) :
    b.Follows μ (State.arrive s n hdr ext ds) := by
  unfold State.arrive
  repeat' (first
    | (with_reducible exact Sub.trans okm (by decide))
    | with_reducible assumption
    | (with_reducible apply State.creditOverflow_follows)
    | (with_reducible apply State.apertureIn_follows)
    | (with_reducible apply State.refuse_follows)
    | (with_reducible apply State.takeCredits_follows)
    | (with_reducible apply State.enter_follows)
    | (with_reducible apply State.keyMissing_follows)
    | (with_reducible apply State.Follows.ite)
    | (intro _)
    | split
    | fail_if_no_progress extract_lets)

theorem execRead_follows {μ : Nat} {b : State} {n : Nat} {hdr : BitVec 128} {s : State} (hb : b.Follows μ s) {tt : State} (ee : execRead n hdr s = .next tt)
    (okm : Sub 0x16a μ := by exact Sub.trans (by assumption) (by decide)) :
    b.Follows μ tt := by
  unfold execRead at ee
  first | refine onUnit_follows ?_ ee | cases ee
  repeat' (first
    | (with_reducible exact Sub.trans okm (by decide))
    | with_reducible assumption
    | (with_reducible apply State.arrive_follows))

theorem execWrite_follows {μ : Nat} {b : State} {n : Nat} {hdr : BitVec 128} {data : List DataSlot} {s : State} (hb : b.Follows μ s) {tt : State} (ee : execWrite n hdr data s = .next tt)
    (okm : Sub 0x16a μ := by exact Sub.trans (by assumption) (by decide)) :
    b.Follows μ tt := by
  unfold execWrite at ee
  first | refine onUnit_follows ?_ ee | cases ee
  repeat' (first
    | (with_reducible exact Sub.trans okm (by decide))
    | with_reducible assumption
    | (with_reducible apply State.arrive_follows))

theorem execWriteMasked_follows {μ : Nat} {b : State} {n : Nat} {hdr : BitVec 128} {ext : BitVec 128} {data : DataSlot} {s : State} (hb : b.Follows μ s) {tt : State} (ee : execWriteMasked n hdr ext data s = .next tt)
    (okm : Sub 0x16a μ := by exact Sub.trans (by assumption) (by decide)) :
    b.Follows μ tt := by
  unfold execWriteMasked at ee
  first | refine onUnit_follows ?_ ee | cases ee
  repeat' (first
    | (with_reducible exact Sub.trans okm (by decide))
    | with_reducible assumption
    | (with_reducible apply State.arrive_follows))

theorem execAtomic_follows {μ : Nat} {b : State} {n : Nat} {hdr : BitVec 128} {data : DataSlot} {s : State} (hb : b.Follows μ s) {tt : State} (ee : execAtomic n hdr data s = .next tt)
    (okm : Sub 0x16a μ := by exact Sub.trans (by assumption) (by decide)) :
    b.Follows μ tt := by
  unfold execAtomic at ee
  first | refine onUnit_follows ?_ ee | cases ee
  repeat' (first
    | (with_reducible exact Sub.trans okm (by decide))
    | with_reducible assumption
    | (with_reducible apply State.arrive_follows))

theorem execApertureWrite_follows {μ : Nat} {b : State} {n : Nat} {hdr : BitVec 128} {data : List DataSlot} {s : State} (hb : b.Follows μ s) {tt : State} (ee : execApertureWrite n hdr data s = .next tt)
    (okm : Sub 0x16a μ := by exact Sub.trans (by assumption) (by decide)) :
    b.Follows μ tt := by
  unfold execApertureWrite at ee
  first | refine onUnit_follows ?_ ee | cases ee
  repeat' (first
    | (with_reducible exact Sub.trans okm (by decide))
    | with_reducible assumption
    | (with_reducible apply State.arrive_follows))

theorem State.badFlit_follows {μ : Nat} {b : State} {s : State} (n : Nat) (slots : BitVec 16) (hb : b.Follows μ s)
    (okm : Sub 0x2 μ := by exact Sub.trans (by assumption) (by decide)) :
    b.Follows μ (State.badFlit s n slots) := by
  unfold State.badFlit
  repeat' (first
    | (with_reducible exact Sub.trans okm (by decide))
    | with_reducible assumption
    | (with_reducible apply State.portErr_follows)
    | (with_reducible apply State.ev_follows)
    | (with_reducible apply State.Follows.ite)
    | (intro _))

theorem execMalformedFlit_follows {μ : Nat} {b : State} {n : Nat} {slots : BitVec 16} {s : State} (hb : b.Follows μ s) {tt : State} (ee : execMalformedFlit n slots s = .next tt)
    (okm : Sub 0x2 μ := by exact Sub.trans (by assumption) (by decide)) :
    b.Follows μ tt := by
  unfold execMalformedFlit at ee
  first | refine onUnit_follows ?_ ee | cases ee
  repeat' (first
    | (with_reducible exact Sub.trans okm (by decide))
    | with_reducible assumption
    | (with_reducible apply State.badFlit_follows))

theorem State.grantCredits_follows {μ : Nat} {b : State} {s : State} (n : Nat) (k : Nat) (hb : b.Follows μ s)
    (okm : Sub 0x4a μ := by exact Sub.trans (by assumption) (by decide)) :
    b.Follows μ (State.grantCredits s n k) := by
  unfold State.grantCredits
  repeat' (first
    | (with_reducible exact Sub.trans okm (by decide))
    | with_reducible assumption
    | (with_reducible apply State.setPort_follows)
    | (with_reducible apply State.creditOverflow_follows)
    | (with_reducible apply State.Follows.ite)
    | (intro _))

theorem execResponseCreditGrant_follows {μ : Nat} {b : State} {n : Nat} {k : Nat} {s : State} (hb : b.Follows μ s) {tt : State} (ee : execResponseCreditGrant n k s = .next tt)
    (okm : Sub 0x4a μ := by exact Sub.trans (by assumption) (by decide)) :
    b.Follows μ tt := by
  unfold execResponseCreditGrant at ee
  first | refine onUnit_follows ?_ ee | cases ee
  repeat' (first
    | (with_reducible exact Sub.trans okm (by decide))
    | with_reducible assumption
    | (with_reducible apply State.grantCredits_follows))

theorem State.fenceRelease_follows {μ : Nat} {b : State} {s : State} (n : Nat) (id : Nat) (hb : b.Follows μ s)
    (okm : Sub 0x14a μ := by exact Sub.trans (by assumption) (by decide)) :
    b.Follows μ (State.fenceRelease s n id) := by
  unfold State.fenceRelease
  repeat' (first
    | (with_reducible exact Sub.trans okm (by decide))
    | with_reducible assumption
    | (with_reducible apply State.enqueue_follows)
    | (with_reducible apply State.releaseOpen_follows)
    | (with_reducible apply State.apertureGo_follows)
    | (with_reducible apply State.Follows.ite)
    | (intro _)
    | split)

theorem execFenceHoldRelease_follows {μ : Nat} {b : State} {n : Nat} {id : Nat} {s : State} (hb : b.Follows μ s) {tt : State} (ee : execFenceHoldRelease n id s = .next tt)
    (okm : Sub 0x14a μ := by exact Sub.trans (by assumption) (by decide)) :
    b.Follows μ tt := by
  unfold execFenceHoldRelease at ee
  first | refine onUnit_follows ?_ ee | cases ee
  repeat' (first
    | (with_reducible exact Sub.trans okm (by decide))
    | with_reducible assumption
    | (with_reducible apply State.fenceRelease_follows))

theorem State.mapStage_follows {μ : Nat} {b : State} {s : State} (n : Nat) (r : PortReq) (hb : b.Follows μ s)
    (okm : Sub 0x7200005a μ := by exact Sub.trans (by assumption) (by decide)) :
    b.Follows μ (State.mapStage s n r) := by
  unfold State.mapStage
  repeat' (first
    | (with_reducible exact Sub.trans okm (by decide))
    | with_reducible assumption
    | (with_reducible apply State.creditBack_follows)
    | (with_reducible apply State.setPort_follows)
    | (with_reducible apply State.passThrough_follows)
    | (with_reducible apply State.startTensor_follows)
    | (with_reducible apply State.setReq_follows)
    | (with_reducible apply State.demandFetch_follows)
    | (with_reducible apply State.sweep_follows)
    | (with_reducible apply State.endOne_follows)
    | (with_reducible apply State.Follows.ite)
    | (intro _)
    | split)

theorem State.reserve_follows {μ : Nat} {b : State} {s : State} (n : Nat) (id : Nat) (hb : b.Follows μ s)
    (okm : Sub 0x7200005a μ := by exact Sub.trans (by assumption) (by decide)) :
    b.Follows μ (State.reserve s n id) := by
  unfold State.reserve
  repeat' (first
    | (with_reducible exact Sub.trans okm (by decide))
    | with_reducible assumption
    | (with_reducible apply State.creditBack_follows)
    | (with_reducible apply State.setPort_follows)
    | (with_reducible apply State.setReq_follows)
    | (with_reducible apply State.mapStage_follows)
    | (with_reducible apply State.Follows.ite)
    | (intro _)
    | split)

theorem execCreditReserve_follows {μ : Nat} {b : State} {n : Nat} {id : Nat} {s : State} (hb : b.Follows μ s) {tt : State} (ee : execCreditReserve n id s = .next tt)
    (okm : Sub 0x7200005a μ := by exact Sub.trans (by assumption) (by decide)) :
    b.Follows μ tt := by
  unfold execCreditReserve at ee
  first | refine onUnit_follows ?_ ee | cases ee
  repeat' (first
    | (with_reducible exact Sub.trans okm (by decide))
    | with_reducible assumption
    | (with_reducible apply State.reserve_follows))

theorem State.latencyCheck_follows {μ : Nat} {b : State} {s : State} (n : Nat) (tag : Nat) (x : Nat) (hb : b.Follows μ s)
    (okm : Sub 0x80000000002 μ := by exact Sub.trans (by assumption) (by decide)) :
    b.Follows μ (State.latencyCheck s n tag x) := by
  unfold State.latencyCheck
  repeat' (first
    | (with_reducible exact Sub.trans okm (by decide))
    | with_reducible assumption
    | (with_reducible apply State.fsat_follows)
    | (with_reducible apply State.log_follows)
    | (with_reducible apply State.raise_follows)
    | (with_reducible apply State.Follows.ite)
    | (intro _))

theorem State.portSample_follows {μ : Nat} {b : State} {s : State} (n : Nat) (f : Frame) (contract : Nat) (endToEnd : Nat) (hb : b.Follows μ s)
    (okm : Sub 0x80000000000 μ := by exact Sub.trans (by assumption) (by decide)) :
    b.Follows μ (State.portSample s n f contract endToEnd) := by
  unfold State.portSample
  repeat' (first
    | (with_reducible exact Sub.trans okm (by decide))
    | with_reducible assumption
    | (with_reducible apply State.lmonTake_follows)
    | (with_reducible apply State.Follows.ite)
    | (intro _))

theorem State.drawSlots_follows {μ : Nat} {b : State} : ∀ (n : Nat) {s : State}, b.Follows μ s →
    (okm : Sub 0x10 μ := by exact Sub.trans (by assumption) (by decide)) → b.Follows μ (s.drawSlots n).1
  | 0, _, h, _ => h
  | n + 1, s, h, okm => State.drawSlots_follows n (State.drawGranule_follows (State.drawNat_follows h))

theorem State.frameOut_follows {μ : Nat} {b : State} {s : State} (n : Nat) (f : Frame) (hb : b.Follows μ s)
    (okm : Sub 0x18 μ := by exact Sub.trans (by assumption) (by decide)) :
    b.Follows μ (State.frameOut s n f) := by
  unfold State.frameOut
  repeat' (first
    | (with_reducible exact Sub.trans okm (by decide))
    | with_reducible assumption
    | (with_reducible apply State.drawNat_follows)
    | (with_reducible apply State.drawSlots_follows)
    | (with_reducible apply State.emit_follows)
    | (with_reducible apply State.Follows.ite)
    | (intro _)
    | split)

theorem State.snoopPort_follows {μ : Nat} {b : State} {s : State} (n : Nat) (f : Frame) (hb : b.Follows μ s)
    (okm : Sub 0x80000000000 μ := by exact Sub.trans (by assumption) (by decide)) :
    b.Follows μ (State.snoopPort s n f) := by
  unfold State.snoopPort
  repeat' (first
    | (with_reducible exact Sub.trans okm (by decide))
    | with_reducible assumption
    | (with_reducible apply State.snoop_follows)
    | (with_reducible apply State.Follows.foldl)
    | (intro _ _ _; beta_reduce)
    | split)

theorem State.sendFrame_follows {μ : Nat} {b : State} {s : State} (n : Nat) (f : Frame) (hb : b.Follows μ s)
    (okm : Sub 0x8000000005a μ := by exact Sub.trans (by assumption) (by decide)) :
    b.Follows μ (State.sendFrame s n f) := by
  unfold State.sendFrame
  repeat' (first
    | (with_reducible exact Sub.trans okm (by decide))
    | with_reducible assumption
    | (with_reducible apply State.portSample_follows)
    | (with_reducible apply State.setPort_follows)
    | (with_reducible apply State.frameOut_follows)
    | (with_reducible apply State.ev_follows)
    | (with_reducible apply State.snoopPort_follows)
    | (with_reducible apply State.latencyCheck_follows)
    | (with_reducible apply State.Follows.ite)
    | (intro _))

theorem State.startFrame_follows {μ : Nat} {b : State} {s : State} (n : Nat) (hb : b.Follows μ s)
    (okm : Sub 0x8000000005b μ := by exact Sub.trans (by assumption) (by decide)) :
    b.Follows μ (State.startFrame s n) := by
  unfold State.startFrame
  repeat' (first
    | (with_reducible exact Sub.trans okm (by decide))
    | with_reducible assumption
    | (with_reducible apply State.tickTo_follows)
    | (with_reducible apply State.sendFrame_follows)
    | (with_reducible apply State.Follows.ite)
    | (intro _)
    | split
    | fail_if_no_progress extract_lets)

theorem execFrameStart_follows {μ : Nat} {b : State} {n : Nat} {s : State} (hb : b.Follows μ s) {tt : State} (ee : execFrameStart n s = .next tt)
    (okm : Sub 0x8000000005b μ := by exact Sub.trans (by assumption) (by decide)) :
    b.Follows μ tt := by
  unfold execFrameStart at ee
  first | refine onUnit_follows ?_ ee | cases ee
  repeat' (first
    | (with_reducible exact Sub.trans okm (by decide))
    | with_reducible assumption
    | (with_reducible apply State.startFrame_follows))

/-! ## Packets -/

theorem State.setPacket_follows {μ : Nat} {b : State} {s : State} (p : Packet) (hb : b.Follows μ s)
    (okm : Sub 0x10000000000 μ := by exact Sub.trans (by assumption) (by decide)) :
    b.Follows μ (State.setPacket s p) := by
  unfold State.setPacket
  repeat' (first
    | with_reducible assumption
    | (fail_if_no_progress with_reducible refine State.Follows.set_packets ?_ (Sub.trans okm (by decide))))

theorem State.fixPacket_follows {μ : Nat} {b : State} {s : State} (p : Packet) (st : KStatus) (count : Nat) (aux : Nat) (detail : Nat) (hb : b.Follows μ s)
    (okm : Sub 0x90012000042 μ := by exact Sub.trans (by assumption) (by decide)) :
    b.Follows μ (State.fixPacket s p st count aux detail) := by
  unfold State.fixPacket
  repeat' (first
    | (with_reducible exact Sub.trans okm (by decide))
    | with_reducible assumption
    | (with_reducible apply State.setPacket_follows)
    | (with_reducible apply State.snoopEnd_follows)
    | (with_reducible apply State.dropReserves_follows)
    | (with_reducible apply State.Follows.ite)
    | (intro _))

theorem State.write32_follows {μ : Nat} {b : State} {s : State} (addr : Nat) (ws : List Nat) (hb : b.Follows μ s)
    (okm : Sub 0x280002190c53 μ := by exact Sub.trans (by assumption) (by decide)) :
    b.Follows μ (State.write32 s addr ws).1 := by
  unfold State.write32
  repeat' (first
    | (with_reducible exact Sub.trans okm (by decide))
    | with_reducible assumption
    | (with_reducible apply State.writeMem_follows))

theorem State.postReply_follows {μ : Nat} {b : State} {s : State} (port : Nat) (ring : Nat) (seq : Nat) (op : Nat) (cookie : Nat) (addr : Nat) (st : KStatus) (count : Nat) (aux : Nat) (detail : Nat) (hb : b.Follows μ s)
    (okm : Sub 0x280002190c5b μ := by exact Sub.trans (by assumption) (by decide)) :
    b.Follows μ (State.postReply s port ring seq op cookie addr st count aux detail) := by
  unfold State.postReply
  repeat' (first
    | (with_reducible exact Sub.trans okm (by decide))
    | with_reducible assumption
    | (with_reducible apply State.write32_follows)
    | (with_reducible apply State.fsat_follows)
    | (with_reducible apply State.ev_follows)
    | (with_reducible apply State.log_follows)
    | (with_reducible apply State.emit_follows)
    | (with_reducible apply State.Follows.ite)
    | (intro _))

theorem State.retirePacket_follows {μ : Nat} {b : State} {s : State} (p : Packet) (hb : b.Follows μ s)
    (okm : Sub 0x2b2802190c5b μ := by exact Sub.trans (by assumption) (by decide)) :
    b.Follows μ (State.retirePacket s p) := by
  unfold State.retirePacket
  repeat' (first
    | (with_reducible exact Sub.trans okm (by decide))
    | with_reducible assumption
    | (with_reducible apply State.postReply_follows)
    | (fail_if_no_progress with_reducible refine State.Follows.set_attns_runs_packets_fwq ?_ (Sub.trans okm (by decide))))

theorem execPacketCommit_follows {μ : Nat} {b : State} {id : Nat} {s : State} (hb : b.Follows μ s) {tt : State} (ee : execPacketCommit id s = .next tt)
    (okm : Sub 0x2b2802190c5b μ := by exact Sub.trans (by assumption) (by decide)) :
    b.Follows μ tt := by
  unfold execPacketCommit at ee
  first | refine onUnit_follows ?_ ee | cases ee
  repeat' (first
    | (with_reducible exact Sub.trans okm (by decide))
    | with_reducible assumption
    | (with_reducible apply State.retirePacket_follows)
    | (with_reducible apply State.Follows.ite)
    | (intro _)
    | split)

theorem State.takeFw_follows {μ : Nat} {b s t : State} {id op : Nat} {y : Packet} (hb : b.Follows μ s) (ee : s.takeFw id op = some (t, y))
    (okm : Sub 0x30000000000 μ := by exact Sub.trans (by assumption) (by decide)) :
    b.Follows μ t := by
  unfold State.takeFw at ee
  split at ee
  · cases ee
  · split at ee
    · cases ee
    · split at ee
      · cases ee
      · simp only [Option.some.injEq, Prod.mk.injEq] at ee
        obtain ⟨rfl, rfl⟩ := ee
        exact State.Follows.set_fwq (State.setPacket_follows _ hb)

theorem State.takeFast_follows {μ : Nat} {b s t : State} {id op : Nat} {y : Packet} (hb : b.Follows μ s)
    (ee : s.takeFast id op = some (t, y))
    (okm : Sub 0x10000000002 μ := by exact Sub.trans (by assumption) (by decide)) : b.Follows μ t := by
  unfold State.takeFast at ee
  split at ee
  · cases ee
  · split at ee
    · simp only [Option.some.injEq, Prod.mk.injEq] at ee
      obtain ⟨rfl, rfl⟩ := ee
      exact State.ev_follows _ _ _ (State.setPacket_follows _ hb)
    · cases ee

theorem State.admitFw_follows {μ : Nat} {b : State} {s : State} (id : Nat) (hb : b.Follows μ s)
    (okm : Sub 0xb0012000042 μ := by exact Sub.trans (by assumption) (by decide)) :
    b.Follows μ (State.admitFw s id) := by
  unfold State.admitFw
  repeat' (first
    | (with_reducible exact Sub.trans okm (by decide))
    | with_reducible assumption
    | (with_reducible apply State.setPacket_follows)
    | (with_reducible apply State.ev_follows)
    | (with_reducible apply State.fixPacket_follows)
    | (fail_if_no_progress with_reducible refine State.Follows.set_fwq ?_ (Sub.trans okm (by decide)))
    | (with_reducible apply State.Follows.ite)
    | (intro _)
    | split)

theorem execFwQueueAdmit_follows {μ : Nat} {b : State} {id : Nat} {s : State} (hb : b.Follows μ s) {tt : State} (ee : execFwQueueAdmit id s = .next tt)
    (okm : Sub 0xb0012000042 μ := by exact Sub.trans (by assumption) (by decide)) :
    b.Follows μ tt := by
  unfold execFwQueueAdmit at ee
  first | refine onUnit_follows ?_ ee | cases ee
  repeat' (first
    | (with_reducible exact Sub.trans okm (by decide))
    | with_reducible assumption
    | (with_reducible apply State.admitFw_follows))

theorem State.dropFence_follows {μ : Nat} {b : State} {s : State} (n : Nat) (id : Nat) (hb : b.Follows μ s)
    (okm : Sub 0x40 μ := by exact Sub.trans (by assumption) (by decide)) :
    b.Follows μ (State.dropFence s n id) := by
  unfold State.dropFence
  repeat' (first
    | (with_reducible exact Sub.trans okm (by decide))
    | with_reducible assumption
    | (with_reducible apply State.setPort_follows))

theorem State.abortTarget_follows {μ : Nat} {b : State} {s : State} (p : Packet) (hb : b.Follows μ s)
    (okm : Sub 0x90012000042 μ := by exact Sub.trans (by assumption) (by decide)) :
    b.Follows μ (State.abortTarget s p).1 := by
  unfold State.abortTarget
  repeat' (first
    | (with_reducible exact Sub.trans okm (by decide))
    | with_reducible assumption
    | (with_reducible apply State.dropFence_follows)
    | (with_reducible apply State.fixPacket_follows)
    | split
    | fail_if_no_progress extract_lets)

theorem State.runAbort_follows {μ : Nat} {b : State} {s : State} (id : Nat) (hb : b.Follows μ s)
    (okm : Sub 0x90012000042 μ := by exact Sub.trans (by assumption) (by decide)) :
    b.Follows μ (State.runAbort s id) := by
  unfold State.runAbort
  repeat' (first
    | (with_reducible exact Sub.trans okm (by decide))
    | with_reducible assumption
    | (with_reducible apply State.fixPacket_follows)
    | (with_reducible apply State.abortTarget_follows)
    | (with_reducible apply State.Follows.ite)
    | (intro _)
    | split)

theorem execAbort_follows {μ : Nat} {b : State} {id : Nat} {s : State} (hb : b.Follows μ s) {tt : State} (ee : execAbort id s = .next tt)
    (okm : Sub 0x90012000042 μ := by exact Sub.trans (by assumption) (by decide)) :
    b.Follows μ tt := by
  unfold execAbort at ee
  first | refine onUnit_follows ?_ ee | cases ee
  repeat' (first
    | (with_reducible exact Sub.trans okm (by decide))
    | with_reducible assumption
    | (with_reducible apply State.runAbort_follows))

theorem State.runFence_follows {μ : Nat} {b : State} {s : State} (id : Nat) (hb : b.Follows μ s)
    (okm : Sub 0x10000000000 μ := by exact Sub.trans (by assumption) (by decide)) :
    b.Follows μ (State.runFence s id) := by
  unfold State.runFence
  repeat' (first
    | (with_reducible exact Sub.trans okm (by decide))
    | with_reducible assumption
    | (with_reducible apply State.setPacket_follows)
    | (with_reducible apply State.Follows.ite)
    | (intro _)
    | split)

theorem execFence_follows {μ : Nat} {b : State} {id : Nat} {s : State} (hb : b.Follows μ s) {tt : State} (ee : execFence id s = .next tt)
    (okm : Sub 0x10000000000 μ := by exact Sub.trans (by assumption) (by decide)) :
    b.Follows μ tt := by
  unfold execFence at ee
  first | refine onUnit_follows ?_ ee | cases ee
  repeat' (first
    | (with_reducible exact Sub.trans okm (by decide))
    | with_reducible assumption
    | (with_reducible apply State.runFence_follows))

theorem State.runFenceDone_follows {μ : Nat} {b : State} {s : State} (id : Nat) (hb : b.Follows μ s)
    (okm : Sub 0x2b2802190c5b μ := by exact Sub.trans (by assumption) (by decide)) :
    b.Follows μ (State.runFenceDone s id) := by
  unfold State.runFenceDone
  repeat' (first
    | (with_reducible exact Sub.trans okm (by decide))
    | with_reducible assumption
    | (with_reducible apply State.dropFence_follows)
    | (with_reducible apply State.retirePacket_follows)
    | (with_reducible apply State.Follows.ite)
    | (intro _)
    | split)

theorem execFenceDone_follows {μ : Nat} {b : State} {id : Nat} {s : State} (hb : b.Follows μ s) {tt : State} (ee : execFenceDone id s = .next tt)
    (okm : Sub 0x2b2802190c5b μ := by exact Sub.trans (by assumption) (by decide)) :
    b.Follows μ tt := by
  unfold execFenceDone at ee
  first | refine onUnit_follows ?_ ee | cases ee
  repeat' (first
    | (with_reducible exact Sub.trans okm (by decide))
    | with_reducible assumption
    | (with_reducible apply State.runFenceDone_follows))

theorem State.clearRing_follows {μ : Nat} {b : State} {s : State} (n : Nat) (q : Nat) (hb : b.Follows μ s)
    (okm : Sub 0x40 μ := by exact Sub.trans (by assumption) (by decide)) :
    b.Follows μ (State.clearRing s n q) := by
  unfold State.clearRing
  repeat' (first
    | (with_reducible exact Sub.trans okm (by decide))
    | with_reducible assumption
    | (with_reducible apply State.setPort_follows))

theorem State.ringCfg_follows {μ : Nat} {b : State} {s : State} (n : Nat) (q : Nat) (w : Word) (hb : b.Follows μ s)
    (okm : Sub 0x42 μ := by exact Sub.trans (by assumption) (by decide)) :
    b.Follows μ (State.ringCfg s n q w) := by
  unfold State.ringCfg
  repeat' (first
    | (with_reducible exact Sub.trans okm (by decide))
    | with_reducible assumption
    | (with_reducible apply State.clearRing_follows)
    | (with_reducible apply State.rput_follows)
    | (with_reducible apply State.Follows.ite)
    | (intro _))

theorem State.ringRestart_follows {μ : Nat} {b : State} {s : State} (n : Nat) (q : Nat) (hb : b.Follows μ s)
    (okm : Sub 0x40 μ := by exact Sub.trans (by assumption) (by decide)) :
    b.Follows μ (State.ringRestart s n q) := by
  unfold State.ringRestart
  repeat' (first
    | (with_reducible exact Sub.trans okm (by decide))
    | with_reducible assumption
    | (with_reducible apply State.clearRing_follows)
    | (with_reducible apply State.Follows.ite)
    | (intro _))

theorem State.progress_follows {μ : Nat} {b : State} {s : State} (n : Nat) (q : Nat) (hb : b.Follows μ s)
    (okm : Sub 0x280002190c5b μ := by exact Sub.trans (by assumption) (by decide)) :
    b.Follows μ (State.progress s n q) := by
  unfold State.progress
  repeat' (first
    | (with_reducible exact Sub.trans okm (by decide))
    | with_reducible assumption
    | (with_reducible apply State.write32_follows)
    | (with_reducible apply State.setPort_follows)
    | (with_reducible apply State.fsat_follows)
    | (with_reducible apply State.emit_follows)
    | (with_reducible apply State.Follows.ite)
    | (intro _))

theorem State.progressDue_follows {μ : Nat} {b : State} {s : State} (n : Nat) (q : Nat) (retry : Bool) (hb : b.Follows μ s)
    (okm : Sub 0x280002190c5b μ := by exact Sub.trans (by assumption) (by decide)) :
    b.Follows μ (State.progressDue s n q retry) := by
  unfold State.progressDue
  repeat' (first
    | (with_reducible exact Sub.trans okm (by decide))
    | with_reducible assumption
    | (with_reducible apply State.progress_follows)
    | (with_reducible apply State.Follows.ite)
    | (intro _))

theorem execProgressWrite_follows {μ : Nat} {b : State} {n : Nat} {q : Nat} {s : State} (hb : b.Follows μ s) {tt : State} (ee : execProgressWrite n q s = .next tt)
    (okm : Sub 0x280002190c5b μ := by exact Sub.trans (by assumption) (by decide)) :
    b.Follows μ tt := by
  unfold execProgressWrite at ee
  first | refine onUnit_follows ?_ ee | cases ee
  repeat' (first
    | (with_reducible exact Sub.trans okm (by decide))
    | with_reducible assumption
    | (with_reducible apply State.progressDue_follows))

theorem execProgressRetry_follows {μ : Nat} {b : State} {n : Nat} {q : Nat} {s : State} (hb : b.Follows μ s) {tt : State} (ee : execProgressRetry n q s = .next tt)
    (okm : Sub 0x280002190c5b μ := by exact Sub.trans (by assumption) (by decide)) :
    b.Follows μ tt := by
  unfold execProgressRetry at ee
  first | refine onUnit_follows ?_ ee | cases ee
  repeat' (first
    | (with_reducible exact Sub.trans okm (by decide))
    | with_reducible assumption
    | (with_reducible apply State.progressDue_follows))

theorem State.trapPackets_follows {μ : Nat} {b : State} {s : State} (k : Nat) (hb : b.Follows μ s)
    (okm : Sub 0x90012000042 μ := by exact Sub.trans (by assumption) (by decide)) :
    b.Follows μ (State.trapPackets s k) := by
  unfold State.trapPackets
  repeat' (first
    | (with_reducible exact Sub.trans okm (by decide))
    | with_reducible assumption
    | (with_reducible apply State.fixPacket_follows)
    | (with_reducible apply State.Follows.foldl)
    | (with_reducible apply State.Follows.ite)
    | (intro _ _ _; beta_reduce)
    | (intro _))

theorem State.fwTrap_follows {μ : Nat} {b : State} {s : State} (k : Nat) (addr : Nat) (hb : b.Follows μ s)
    (okm : Sub 0xd0012000042 μ := by exact Sub.trans (by assumption) (by decide)) :
    b.Follows μ (State.fwTrap s k addr) := by
  unfold State.fwTrap
  repeat' (first
    | (with_reducible exact Sub.trans okm (by decide))
    | with_reducible assumption
    | (with_reducible apply State.trapPackets_follows)
    | (with_reducible apply State.fset_follows)
    | (with_reducible apply State.fsat_follows)
    | (fail_if_no_progress with_reducible refine State.Follows.set_interps ?_ (Sub.trans okm (by decide)))
    | (with_reducible apply State.Follows.ite)
    | (intro _))

theorem execFwTrap_follows {μ : Nat} {b : State} {k : Nat} {addr : Nat} {s : State} (hb : b.Follows μ s) {tt : State} (ee : execFwTrap k addr s = .next tt)
    (okm : Sub 0xd0012000042 μ := by exact Sub.trans (by assumption) (by decide)) :
    b.Follows μ tt := by
  unfold execFwTrap at ee
  first | refine onUnit_follows ?_ ee | cases ee
  repeat' (first
    | (with_reducible exact Sub.trans okm (by decide))
    | with_reducible assumption
    | (with_reducible apply State.fwTrap_follows))

theorem State.failFw_follows {μ : Nat} {b : State} {s : State} (hb : b.Follows μ s)
    (okm : Sub 0x2b0012190c53 μ := by exact Sub.trans (by assumption) (by decide)) :
    b.Follows μ (State.failFw s) := by
  unfold State.failFw
  repeat' (first
    | (with_reducible exact Sub.trans okm (by decide))
    | with_reducible assumption
    | (with_reducible apply State.fixPacket_follows)
    | (with_reducible apply State.spoil_follows)
    | (fail_if_no_progress with_reducible refine State.Follows.set_fwq ?_ (Sub.trans okm (by decide)))
    | (with_reducible apply State.Follows.foldl)
    | (with_reducible apply State.Follows.ite)
    | (intro _ _ _; beta_reduce)
    | (intro _))

theorem State.fwReload_follows {μ : Nat} {b : State} {s : State} (k : Nat) (src : Nat) (hb : b.Follows μ s)
    (okm : Sub 0x2f0012190c53 μ := by exact Sub.trans (by assumption) (by decide)) :
    b.Follows μ (State.fwReload s k src) := by
  unfold State.fwReload
  repeat' (first
    | (with_reducible exact Sub.trans okm (by decide))
    | with_reducible assumption
    | (with_reducible apply State.regrade_follows)
    | (with_reducible apply State.fset_follows)
    | (with_reducible apply State.log_follows)
    | (with_reducible apply State.failFw_follows)
    | (fail_if_no_progress with_reducible refine State.Follows.set_interps ?_ (Sub.trans okm (by decide)))
    | (with_reducible apply State.Follows.ite)
    | (intro _))

/-! ## Bytes -/

theorem State.readSpan_follows {μ : Nat} {b s : State} (rd : State → Nat → State × PStatus × Granule) (addr len : Nat)
    (hrd : ∀ t n, b.Follows μ t → b.Follows μ (rd t n).1) (hb : b.Follows μ s) : b.Follows μ (s.readSpan rd addr len).1 := by
  unfold State.readSpan
  refine State.Follows.foldlFst ?_ _ hb
  intro u x hu
  dsimp only
  split
  · exact hu
  · split <;> exact hrd _ _ hu

theorem State.writeSpan_follows {μ : Nat} {b s : State} (wr : State → Nat → Granule → Nat → State × PStatus) (addr len data : Nat)
    (hwr : ∀ t n d m, b.Follows μ t → b.Follows μ (wr t n d m).1) (hb : b.Follows μ s) :
    b.Follows μ (s.writeSpan wr addr len data).1 := by
  unfold State.writeSpan
  refine State.Follows.foldlFst ?_ _ hb
  intro u x hu
  dsimp only
  split
  · exact hu
  · exact hwr _ _ _ _ hu

theorem State.readBytes_follows {μ : Nat} {b s : State} (addr len : Nat) (hb : b.Follows μ s)
    (okm : Sub 0x280002190c53 μ := by exact Sub.trans (by assumption) (by decide)) : b.Follows μ (s.readBytes addr len).1 :=
  State.readSpan_follows _ addr len (fun _ _ h => State.readMem_follows _ h) hb

theorem State.writeBytes_follows {μ : Nat} {b s : State} (addr len data cls : Nat) (hb : b.Follows μ s)
    (okm : Sub 0x280002190c53 μ := by exact Sub.trans (by assumption) (by decide)) :
    b.Follows μ (s.writeBytes addr len data cls).1 :=
  State.writeSpan_follows _ addr len data (fun _ _ _ _ h => State.writeMem_follows _ _ _ _ h) hb

theorem State.readPool_follows {μ : Nat} {b s : State} (root x len : Nat) (hb : b.Follows μ s)
    (okm : Sub 0x280002190c53 μ := by exact Sub.trans (by assumption) (by decide)) : b.Follows μ (s.readPool root x len).1 :=
  State.readSpan_follows _ x len (fun _ _ h => State.readRoot_follows _ _ h) hb

theorem State.writePool_follows {μ : Nat} {b s : State} (root x len data cls : Nat) (hb : b.Follows μ s)
    (okm : Sub 0x280002190c53 μ := by exact Sub.trans (by assumption) (by decide)) :
    b.Follows μ (s.writePool root x len data cls).1 :=
  State.writeSpan_follows _ x len data (fun _ _ _ _ h => State.writeRoot_follows _ _ _ _ _ h) hb

theorem State.tensAt_follows {μ : Nat} {b : State} {s : State} (x : Nat) (hb : b.Follows μ s)
    (okm : Sub 0x280002190c53 μ := by exact Sub.trans (by assumption) (by decide)) :
    b.Follows μ (State.tensAt s x).1 := by
  unfold State.tensAt
  repeat' (first
    | (with_reducible exact Sub.trans okm (by decide))
    | with_reducible assumption
    | (with_reducible apply State.readRoot_follows)
    | (with_reducible apply State.dropSeg_follows)
    | (with_reducible apply State.readMem_follows)
    | (with_reducible apply State.Follows.ite)
    | (intro _)
    | split
    | fail_if_no_progress extract_lets)

/-! ## CopyCh -/

theorem State.startCopy_follows {μ : Nat} {b : State} {s : State} (id : Nat) (op : Nat) (hb : b.Follows μ s)
    (okm : Sub 0x90012000042 μ := by exact Sub.trans (by assumption) (by decide)) :
    b.Follows μ (State.startCopy s id op) := by
  unfold State.startCopy
  repeat' (first
    | (with_reducible exact Sub.trans okm (by decide))
    | with_reducible assumption
    | (with_reducible apply State.setPacket_follows)
    | (with_reducible apply State.snoopPacket_follows)
    | (with_reducible apply State.fixPacket_follows)
    | (with_reducible refine State.takeFast_follows (hb := ?_) (ee := by with_reducible assumption))
    | split)

theorem State.packPass_follows {μ : Nat} {b : State} {s : State} (id : Nat) (x : Nat) (g : Nat) (hb : b.Follows μ s)
    (okm : Sub 0x1004000004a μ := by exact Sub.trans (by assumption) (by decide)) :
    b.Follows μ (State.packPass s id x g).1 := by
  unfold State.packPass
  repeat' (first
    | (with_reducible exact Sub.trans okm (by decide))
    | with_reducible assumption
    | (with_reducible apply State.pump_follows)
    | (with_reducible apply State.setPacket_follows)
    | (with_reducible apply State.askFar_follows)
    | (with_reducible apply State.raise_follows)
    | (with_reducible apply State.Follows.ite)
    | (intro _)
    | split)

theorem State.packTens_follows {μ : Nat} {b : State} {s : State} (id : Nat) (x : Nat) (hb : b.Follows μ s)
    (okm : Sub 0x290072190c5b μ := by exact Sub.trans (by assumption) (by decide)) :
    b.Follows μ (State.packTens s id x).1 := by
  unfold State.packTens
  repeat' (first
    | (with_reducible exact Sub.trans okm (by decide))
    | with_reducible assumption
    | (with_reducible apply State.demandFetch_follows)
    | (with_reducible apply State.tensAt_follows)
    | (with_reducible apply State.packPass_follows)
    | (refine State.Follows.fst (by with_reducible assumption) ?_)
    | split)

theorem State.copySrc_follows {μ : Nat} {b : State} {s : State} (p : Packet) (i : Nat) (hb : b.Follows μ s)
    (okm : Sub 0x290072190c5b μ := by exact Sub.trans (by assumption) (by decide)) :
    b.Follows μ (State.copySrc s p i).1 := by
  unfold State.copySrc
  repeat' (first
    | (with_reducible exact Sub.trans okm (by decide))
    | with_reducible assumption
    | (with_reducible apply State.packTens_follows)
    | (with_reducible apply State.readMem_follows)
    | (refine State.Follows.fst (by with_reducible assumption) ?_)
    | split
    | fail_if_no_progress extract_lets)

theorem State.copyData_follows {μ : Nat} {b : State} {s : State} (p : Packet) (d : Granule) (hb : b.Follows μ s)
    (okm : Sub 0x10 μ := by exact Sub.trans (by assumption) (by decide)) :
    b.Follows μ (State.copyData s p d).1 := by
  unfold State.copyData
  repeat' (first
    | (with_reducible exact Sub.trans okm (by decide))
    | with_reducible assumption
    | (with_reducible apply State.drawGranule_follows)
    | split)

theorem State.retireRun_follows {μ : Nat} {b : State} (id : Nat) (each : State → Packet → Granule → State)
    (hf : ∀ t p d, b.Follows μ t → b.Follows μ (each t p d)) : ∀ (n : Nat) {s : State}, b.Follows μ s →
    (okm : Sub 0x90012000042 μ := by exact Sub.trans (by assumption) (by decide)) → b.Follows μ (s.retireRun id each n)
  | 0, _, h, _ => h
  | n + 1, s, h, okm => by
    unfold State.retireRun
    split
    · exact h
    · split
      · exact h
      · next p _ _ _ d _ =>
        have h1 := hf s p d h
        exact State.Follows.ite (fun _ => State.fixPacket_follows _ _ _ _ _ h1) fun _ =>
          State.retireRun_follows id each hf n (State.setPacket_follows _ h1)

theorem State.copyAt_follows {μ : Nat} {b s : State} (id i : Nat) (hb : b.Follows μ s)
    (okm : Sub 0x290072190c5b μ := by exact Sub.trans (by assumption) (by decide)) : b.Follows μ (s.copyAt id i) := by
  unfold State.copyAt
  split
  · exact hb
  · next p _ =>
    split
    · exact hb
    · split
      next t got ht =>
      have h1 : b.Follows μ t := State.Follows.fst ht (State.copySrc_follows _ _ hb)
      extract_lets q head a
      split
      · exact State.Follows.ite (fun _ => State.setPacket_follows _ h1) fun _ => h1
      · exact State.Follows.ite (fun _ => State.fixPacket_follows _ _ _ _ _ h1) fun _ => h1
      · next d =>
        split
        next t1 d1 h2 =>
        have h3 : b.Follows μ t1 := State.Follows.fst h2 (State.copyData_follows _ _ h1)
        have h4 := State.writeMem_follows a d1 (2 ^ 64 - 1) copyClass h3
        split
        · next u _ hu =>
          exact State.retireRun_follows _ _ (fun v q x h => State.snoop_follows _ _ _ _ h) _
            (State.setPacket_follows _ (State.Follows.fst hu h4))
        · next u st _ _ hu =>
          have h5 : b.Follows μ u := State.Follows.fst hu h4
          exact State.Follows.ite (fun _ => State.fixPacket_follows _ _ _ _ _ h5) fun _ => h5

theorem State.copyOne_follows {μ : Nat} {b : State} {s : State} (id : Nat) (hb : b.Follows μ s)
    (okm : Sub 0x290072190c5b μ := by exact Sub.trans (by assumption) (by decide)) :
    b.Follows μ (State.copyOne s id) := by
  unfold State.copyOne
  repeat' (first
    | (with_reducible exact Sub.trans okm (by decide))
    | with_reducible assumption
    | (with_reducible apply State.copyAt_follows))

theorem State.copyStep_follows {μ : Nat} {b : State} {s : State} (id : Nat) (op : Nat) (k : Nat) (ahead : List Nat) (hb : b.Follows μ s)
    (okm : Sub 0x290072190c5b μ := by exact Sub.trans (by assumption) (by decide)) :
    b.Follows μ (State.copyStep s id op k ahead) := by
  unfold State.copyStep
  repeat' (first
    | (with_reducible exact Sub.trans okm (by decide))
    | with_reducible assumption
    | (with_reducible apply State.copyOne_follows)
    | (with_reducible apply State.copyAt_follows)
    | (with_reducible apply State.startCopy_follows)
    | (with_reducible apply State.Follows.foldl)
    | (with_reducible apply State.Follows.ite)
    | (intro _ _ _; beta_reduce)
    | (intro _)
    | split)

theorem execCopy_follows {μ : Nat} {b : State} {id : Nat} {k : Nat} {ahead : List Nat} {s : State} (hb : b.Follows μ s) {tt : State} (ee : execCopy id k ahead s = .next tt)
    (okm : Sub 0x290072190c5b μ := by exact Sub.trans (by assumption) (by decide)) :
    b.Follows μ tt := by
  unfold execCopy at ee
  first | refine onUnit_follows ?_ ee | cases ee
  repeat' (first
    | (with_reducible exact Sub.trans okm (by decide))
    | with_reducible assumption
    | (with_reducible apply State.copyStep_follows))

theorem execFill_follows {μ : Nat} {b : State} {id : Nat} {k : Nat} {ahead : List Nat} {s : State} (hb : b.Follows μ s) {tt : State} (ee : execFill id k ahead s = .next tt)
    (okm : Sub 0x290072190c5b μ := by exact Sub.trans (by assumption) (by decide)) :
    b.Follows μ tt := by
  unfold execFill at ee
  first | refine onUnit_follows ?_ ee | cases ee
  repeat' (first
    | (with_reducible exact Sub.trans okm (by decide))
    | with_reducible assumption
    | (with_reducible apply State.copyStep_follows))

theorem execCopyChannelStart_follows {μ : Nat} {b : State} {id : Nat} {s : State} (hb : b.Follows μ s) {tt : State} (ee : execCopyChannelStart id s = .next tt)
    (okm : Sub 0x90012000042 μ := by exact Sub.trans (by assumption) (by decide)) :
    b.Follows μ tt := by
  unfold execCopyChannelStart at ee
  first | refine onUnit_follows ?_ ee | cases ee
  repeat' (first
    | (with_reducible exact Sub.trans okm (by decide))
    | with_reducible assumption
    | (with_reducible apply State.startCopy_follows)
    | (with_reducible apply State.Follows.ite)
    | (intro _)
    | split)

theorem State.migrated_follows {μ : Nat} {b : State} {s : State} (p : Packet) (d : Granule) (hb : b.Follows μ s)
    (okm : Sub 0x280002190c53 μ := by exact Sub.trans (by assumption) (by decide)) :
    b.Follows μ (State.migrated s p d) := by
  unfold State.migrated
  repeat' (first
    | (with_reducible exact Sub.trans okm (by decide))
    | with_reducible assumption
    | (with_reducible apply State.snoop_follows)
    | (with_reducible apply State.poisonRoot_follows)
    | (with_reducible apply State.Follows.ite)
    | (intro _)
    | split)

theorem State.carryPoison_follows {μ : Nat} {b : State} {s : State} (r : Nat) (x : Nat) (x3 : Nat) (hb : b.Follows μ s)
    (okm : Sub 0x280002190c53 μ := by exact Sub.trans (by assumption) (by decide)) :
    b.Follows μ (State.carryPoison s r x x3).1 := by
  unfold State.carryPoison
  repeat' (first
    | (with_reducible exact Sub.trans okm (by decide))
    | with_reducible assumption
    | (with_reducible apply State.writeRoot_follows)
    | (with_reducible apply State.drawGranule_follows)
    | (with_reducible apply State.poisonRoot_follows)
    | (with_reducible apply State.Follows.foldl)
    | (refine State.Follows.fst (by with_reducible assumption) ?_)
    | (intro _ _ _; beta_reduce)
    | split)

theorem State.migrateAt_follows {μ : Nat} {b s : State} (id i : Nat) (hb : b.Follows μ s)
    (okm : Sub 0x290012190c53 μ := by exact Sub.trans (by assumption) (by decide)) : b.Follows μ (s.migrateAt id i) := by
  unfold State.migrateAt
  split
  · exact hb
  · next p _ =>
    split
    · exact hb
    · extract_lets a c head goOn stop
      have hgo : ∀ u d, b.Follows μ u → b.Follows μ (goOn u d) := fun u d h =>
        State.retireRun_follows _ _ (fun v q x k => State.migrated_follows _ _ k) _ (State.setPacket_follows _ h)
      have hst : ∀ u k x, b.Follows μ u → b.Follows μ (stop u k x) := fun u k x h =>
        State.Follows.ite (fun _ => State.fixPacket_follows _ _ _ _ _ h) fun _ => h
      clear_value goOn stop
      split
      · next t _ d ht =>
        have h1 : b.Follows μ t := State.Follows.fst ht (State.readMem_follows _ hb)
        have h2 := State.writeMem_follows a d (2 ^ 64 - 1) fwClass h1
        split
        · next u _ hu => exact hgo _ _ (State.Follows.fst hu h2)
        · next u st _ _ hu => exact hst _ _ _ (State.Follows.fst hu h2)
      · next t _ _ ht =>
        have h1 : b.Follows μ t := State.Follows.fst ht (State.readMem_follows _ hb)
        split
        · exact hst _ _ _ h1
        · split
          · exact hst _ _ _ h1
          · split
            · exact hst _ _ _ h1
            · split
              next u f hu => exact hgo _ _ (State.Follows.fst hu (State.carryPoison_follows _ _ _ h1))
      · next t st _ _ _ _ ht => exact hst _ _ _ (State.Follows.fst ht (State.readMem_follows _ hb))

theorem State.migrateOne_follows {μ : Nat} {b : State} {s : State} (id : Nat) (hb : b.Follows μ s)
    (okm : Sub 0x290012190c53 μ := by exact Sub.trans (by assumption) (by decide)) :
    b.Follows μ (State.migrateOne s id) := by
  unfold State.migrateOne
  repeat' (first
    | (with_reducible exact Sub.trans okm (by decide))
    | with_reducible assumption
    | (with_reducible apply State.migrateAt_follows))

theorem State.migrateStep_follows {μ : Nat} {b : State} {s : State} (id : Nat) (k : Nat) (ahead : List Nat) (hb : b.Follows μ s)
    (okm : Sub 0x2b0012190c53 μ := by exact Sub.trans (by assumption) (by decide)) :
    b.Follows μ (State.migrateStep s id k ahead) := by
  unfold State.migrateStep
  repeat' (first
    | (with_reducible exact Sub.trans okm (by decide))
    | with_reducible assumption
    | (with_reducible apply State.snoopPacket_follows)
    | (with_reducible apply State.fixPacket_follows)
    | (with_reducible apply State.migrateOne_follows)
    | (with_reducible apply State.migrateAt_follows)
    | (with_reducible refine State.takeFw_follows (hb := ?_) (ee := by with_reducible assumption))
    | (with_reducible apply State.Follows.foldl)
    | (with_reducible apply State.Follows.ite)
    | (intro _ _ _; beta_reduce)
    | (intro _)
    | split)

theorem execMigrate_follows {μ : Nat} {b : State} {id : Nat} {k : Nat} {ahead : List Nat} {s : State} (hb : b.Follows μ s) {tt : State} (ee : execMigrate id k ahead s = .next tt)
    (okm : Sub 0x2b0012190c53 μ := by exact Sub.trans (by assumption) (by decide)) :
    b.Follows μ tt := by
  unfold execMigrate at ee
  first | refine onUnit_follows ?_ ee | cases ee
  repeat' (first
    | (with_reducible exact Sub.trans okm (by decide))
    | with_reducible assumption
    | (with_reducible apply State.migrateStep_follows))

/-! ## Streams -/

theorem State.lgTake_follows {μ : Nat} {b : State} {s : State} (p : Nat) (f : Nat) (id : Nat) (hb : b.Follows μ s)
    (okm : Sub 0x100000000 μ := by exact Sub.trans (by assumption) (by decide)) :
    b.Follows μ (State.lgTake s p f id) := by
  unfold State.lgTake
  repeat' (first
    | with_reducible assumption
    | (fail_if_no_progress with_reducible refine State.Follows.set_lgUsed ?_ (Sub.trans okm (by decide))))

theorem State.lgDrop_follows {μ : Nat} {b : State} {s : State} (p : Nat) (f : Nat) (hb : b.Follows μ s)
    (okm : Sub 0x100000000 μ := by exact Sub.trans (by assumption) (by decide)) :
    b.Follows μ (State.lgDrop s p f) := by
  unfold State.lgDrop
  repeat' (first
    | with_reducible assumption
    | (fail_if_no_progress with_reducible refine State.Follows.set_lgUsed ?_ (Sub.trans okm (by decide))))

theorem State.takeMeta_follows {μ : Nat} {b s t : State} {id y : Nat} (hb : b.Follows μ s) (ee : s.takeMeta id = some (t, y))
    (okm : Sub 0x100000000 μ := by exact Sub.trans (by assumption) (by decide)) :
    b.Follows μ t := by
  unfold State.takeMeta at ee
  split at ee
  · cases ee
  · obtain ⟨f, -, hf⟩ := Option.map_eq_some_iff.mp ee
    simp only [Prod.mk.injEq] at hf
    obtain ⟨rfl, -⟩ := hf
    exact State.lgTake_follows _ _ _ hb

theorem State.takePage_follows {μ : Nat} {b s t : State} {id : Nat} {st : Stream} {p layer : Nat} {y : Nat × Nat} (hb : b.Follows μ s)
    (ee : s.takePage id st p layer = some (t, y))
    (okm : Sub 0x100000000 μ := by exact Sub.trans (by assumption) (by decide)) : b.Follows μ t := by
  unfold State.takePage at ee
  extract_lets m at ee
  obtain ⟨l1, q, l2, -, hq, -⟩ := List.findSome?_eq_some_iff.mp ee
  split at hq
  · obtain ⟨f, -, hf⟩ := Option.map_eq_some_iff.mp hq
    simp only [Prod.mk.injEq] at hf
    obtain ⟨rfl, -⟩ := hf
    exact State.lgTake_follows _ _ _ hb
  · cases hq

theorem State.setStream_follows {μ : Nat} {b : State} {s : State} (id : Nat) (st : Stream) (hb : b.Follows μ s)
    (okm : Sub 0x80000002 μ := by exact Sub.trans (by assumption) (by decide)) :
    b.Follows μ (State.setStream s id st) := by
  unfold State.setStream
  repeat' (first
    | (with_reducible exact Sub.trans okm (by decide))
    | with_reducible assumption
    | (with_reducible apply State.raise_follows)
    | (fail_if_no_progress with_reducible refine State.Follows.set_streams ?_ (Sub.trans okm (by decide)))
    | (with_reducible apply State.Follows.ite)
    | (intro _))

theorem State.freeStream_follows {μ : Nat} {b : State} {s : State} (id : Nat) (hb : b.Follows μ s)
    (okm : Sub 0x80000002 μ := by exact Sub.trans (by assumption) (by decide)) :
    b.Follows μ (State.freeStream s id) := by
  unfold State.freeStream
  repeat' (first
    | (with_reducible exact Sub.trans okm (by decide))
    | with_reducible assumption
    | (with_reducible apply State.raise_follows)
    | (fail_if_no_progress with_reducible refine State.Follows.set_streams ?_ (Sub.trans okm (by decide)))
    | (with_reducible apply State.Follows.ite)
    | (intro _))

theorem State.dirPage_follows {μ : Nat} {b : State} {s : State} (st : Stream) (r : Nat) (hb : b.Follows μ s)
    (okm : Sub 0x280002190c53 μ := by exact Sub.trans (by assumption) (by decide)) :
    b.Follows μ (State.dirPage s st r).1 := by
  unfold State.dirPage
  repeat' (first
    | (with_reducible exact Sub.trans okm (by decide))
    | with_reducible assumption
    | (with_reducible apply State.readPool_follows))

theorem State.dirGet_follows {μ : Nat} {b : State} {s : State} (st : Stream) (p : Nat) (layer : Nat) (hb : b.Follows μ s)
    (okm : Sub 0x280002190c53 μ := by exact Sub.trans (by assumption) (by decide)) :
    b.Follows μ (State.dirGet s st p layer).1 := by
  unfold State.dirGet
  repeat' (first
    | (with_reducible exact Sub.trans okm (by decide))
    | with_reducible assumption
    | (with_reducible apply State.readPool_follows)
    | (with_reducible apply State.dirPage_follows)
    | (refine State.Follows.fst (by with_reducible assumption) ?_)
    | split
    | fail_if_no_progress extract_lets)

theorem State.dirPut_follows {μ : Nat} {b : State} {s : State} (st : Stream) (p : Nat) (layer : Nat) (d : DirEnt) (hb : b.Follows μ s)
    (okm : Sub 0x280002190c53 μ := by exact Sub.trans (by assumption) (by decide)) :
    b.Follows μ (State.dirPut s st p layer d) := by
  unfold State.dirPut
  repeat' (first
    | (with_reducible exact Sub.trans okm (by decide))
    | with_reducible assumption
    | (with_reducible apply State.writePool_follows)
    | (with_reducible apply State.dirPage_follows)
    | (refine State.Follows.fst (by with_reducible assumption) ?_)
    | split
    | fail_if_no_progress extract_lets)

theorem State.clearMeta_follows {μ : Nat} {b : State} {s : State} (f : Nat) (hb : b.Follows μ s)
    (okm : Sub 0x280002190c53 μ := by exact Sub.trans (by assumption) (by decide)) :
    b.Follows μ (State.clearMeta s f) := by
  unfold State.clearMeta
  repeat' (first
    | (with_reducible exact Sub.trans okm (by decide))
    | with_reducible assumption
    | (with_reducible apply State.writeRoot_follows)
    | (with_reducible apply State.Follows.foldl)
    | (intro _ _ _; beta_reduce))

theorem State.metaLost_follows {μ : Nat} {b : State} {s : State} (id : Nat) (hb : b.Follows μ s)
    (okm : Sub 0x80000002 μ := by exact Sub.trans (by assumption) (by decide)) :
    b.Follows μ (State.metaLost s id) := by
  unfold State.metaLost
  repeat' (first
    | (with_reducible exact Sub.trans okm (by decide))
    | with_reducible assumption
    | (with_reducible apply State.setStream_follows)
    | split)

theorem State.poolFail_follows {μ : Nat} {b : State} {s : State} (p : Packet) (st : PStatus) (isMeta : Bool) (count : Nat) (hb : b.Follows μ s)
    (okm : Sub 0x90092000052 μ := by exact Sub.trans (by assumption) (by decide)) :
    b.Follows μ (State.poolFail s p st isMeta count) := by
  unfold State.poolFail
  repeat' (first
    | (with_reducible exact Sub.trans okm (by decide))
    | with_reducible assumption
    | (with_reducible apply State.metaLost_follows)
    | (with_reducible apply State.fixPacket_follows)
    | (with_reducible apply State.drawNat_follows)
    | (with_reducible apply State.Follows.ite)
    | (intro _))

theorem State.takeSlot_follows {μ : Nat} {b s t : State} {id : Nat} {st : Stream} {y : Nat × Nat} (hb : b.Follows μ s)
    (ee : s.takeSlot id st = some (t, y))
    (okm : Sub 0x300000000 μ := by exact Sub.trans (by assumption) (by decide)) : b.Follows μ t := by
  unfold State.takeSlot at ee
  extract_lets mine free at ee
  clear_value free
  split at ee
  · simp only [Option.some.injEq, Prod.mk.injEq] at ee
    obtain ⟨rfl, -⟩ := ee
    exact State.Follows.set_lgSums hb
  · split at ee
    · rename_i heq
      simp only [Option.some.injEq, Prod.mk.injEq] at ee
      obtain ⟨rfl, -⟩ := ee
      exact State.Follows.set_lgSums (State.takeMeta_follows hb heq)
    · cases ee

theorem State.dropSlot_follows {μ : Nat} {b : State} {s : State} (f : Nat) (k : Nat) (hb : b.Follows μ s)
    (okm : Sub 0x300000000 μ := by exact Sub.trans (by assumption) (by decide)) :
    b.Follows μ (State.dropSlot s f k) := by
  unfold State.dropSlot
  repeat' (first
    | (with_reducible exact Sub.trans okm (by decide))
    | with_reducible assumption
    | (with_reducible apply State.lgDrop_follows)
    | (fail_if_no_progress with_reducible refine State.Follows.set_lgSums ?_ (Sub.trans okm (by decide)))
    | (with_reducible apply State.Follows.ite)
    | (intro _))

theorem State.runOpen_follows {μ : Nat} {b : State} {s : State} (id : Nat) (hb : b.Follows μ s)
    (okm : Sub 0x2b0192190c53 μ := by exact Sub.trans (by assumption) (by decide)) :
    b.Follows μ (State.runOpen s id) := by
  unfold State.runOpen
  repeat' (first
    | (with_reducible exact Sub.trans okm (by decide))
    | with_reducible assumption
    | (with_reducible apply State.setStream_follows)
    | (with_reducible apply State.writePool_follows)
    | (with_reducible apply State.fixPacket_follows)
    | (with_reducible apply State.clearMeta_follows)
    | (with_reducible apply State.raise_follows)
    | (with_reducible apply State.lgDrop_follows)
    | (with_reducible refine State.takeFw_follows (hb := ?_) (ee := by with_reducible assumption))
    | (with_reducible refine State.takeMeta_follows (hb := ?_) (ee := by with_reducible assumption))
    | (with_reducible apply State.Follows.ite)
    | (intro _)
    | split)

theorem execStreamOpen_follows {μ : Nat} {b : State} {id : Nat} {s : State} (hb : b.Follows μ s) {tt : State} (ee : execStreamOpen id s = .next tt)
    (okm : Sub 0x2b0192190c53 μ := by exact Sub.trans (by assumption) (by decide)) :
    b.Follows μ tt := by
  unfold execStreamOpen at ee
  first | refine onUnit_follows ?_ ee | cases ee
  repeat' (first
    | (with_reducible exact Sub.trans okm (by decide))
    | with_reducible assumption
    | (with_reducible apply State.runOpen_follows))

def AppOut.Fine (μ : Nat) (b : State) : AppOut → Prop
  | .ok s => b.Follows μ s
  | .noSpace _ => True
  | .fail s _ _ => b.Follows μ s
  | .src s _ _ => b.Follows μ s

theorem runApp_fine {μ : Nat} {b s : State} {l : List (State → AppOut)} (hl : ∀ f ∈ l, ∀ t, b.Follows μ t → (f t).Fine μ b) (hb : b.Follows μ s) :
    (runApp s l).Fine μ b := by
  have : ∀ (l : List (State → AppOut)) (a : AppOut), (∀ f ∈ l, ∀ t, b.Follows μ t → (f t).Fine μ b) → a.Fine μ b →
      AppOut.Fine μ b (l.foldl (fun a f => match a with
        | .ok t => f t
        | x => x) a) := by
    intro l
    induction l with
    | nil => intro a _ ha; exact ha
    | cons f r ih =>
      intro a hl ha
      refine ih _ (fun g hg => hl g (List.mem_cons_of_mem _ hg)) ?_
      cases a with
      | ok t => exact hl f List.mem_cons_self t ha
      | noSpace _ => trivial
      | fail _ _ _ => exact ha
      | src _ _ _ => exact ha
  exact this l _ hl hb

theorem State.prepPage_fine {μ : Nat} {b s : State} (id p layer : Nat) (full : Bool) (hb : b.Follows μ s)
    (okm : Sub 0x280382190c53 μ := by exact Sub.trans (by assumption) (by decide)) :
    (s.prepPage id p layer full).Fine μ b := by
  unfold State.prepPage
  split
  · exact hb
  · rename_i st _
    extract_lets e withPage
    have hw : ∀ u, withPage = some u → b.Follows μ u := by
      intro u hu
      have hd : b.Follows μ (s.dirPage st (e / 16384)).1 := State.dirPage_follows _ _ hb
      dsimp only [withPage] at hu
      split at hu
      · obtain ⟨⟨v, f⟩, hv, rfl⟩ := Option.map_eq_some_iff.mp hu
        exact State.writePool_follows _ _ _ _ _ (State.clearMeta_follows _ (State.takeMeta_follows
          (State.Follows.fst (by assumption) hd) hv))
      · rw [Option.some.injEq] at hu
        subst hu
        exact State.Follows.fst (by assumption) hd
    clear_value withPage
    split
    · trivial
    · rename_i s1
      have hd := State.dirGet_follows st p layer (hw s1 rfl)
      split
      · rename_i heq; rw [heq] at hd; exact hd
      · rename_i heq; rw [heq] at hd; exact hd
      · rename_i t d heq
        rw [heq] at hd
        split
        · exact hd
        · extract_lets held
          have hh : ∀ u, held = some u → b.Follows μ u.1 := by
            intro u hu
            dsimp only [held] at hu
            split at hu
            · cases hu; exact hd
            · obtain ⟨⟨v, q, f⟩, hv, rfl⟩ := Option.map_eq_some_iff.mp hu
              exact State.setStream_follows _ _ (State.takePage_follows hd hv)
          clear_value held
          split
          · trivial
          · rename_i u d1
            have hu := hh _ rfl
            extract_lets slotted
            have hs : ∀ v, slotted = some v → b.Follows μ v.1 := by
              intro v hv
              dsimp only [slotted] at hv
              split at hv
              · cases hv; exact hu
              · obtain ⟨⟨v', q, f⟩, hv', rfl⟩ := Option.map_eq_some_iff.mp hv
                exact State.takeSlot_follows hu hv'
            clear_value slotted
            split
            · trivial
            · exact State.dirPut_follows _ _ _ _ (hs _ rfl)

theorem State.fillPage_fine {μ : Nat} {b s : State} (id p layer t0 n src : Nat) (hb : b.Follows μ s)
    (okm : Sub 0x280002190c53 μ := by exact Sub.trans (by assumption) (by decide)) :
    (s.fillPage id p layer t0 n src).Fine μ b := by
  unfold State.fillPage
  split
  · exact hb
  · rename_i st _
    have hd := State.dirGet_follows st p layer hb
    split
    · rename_i heq; rw [heq] at hd; exact hd
    · rename_i heq; rw [heq] at hd; exact hd
    · rename_i t d heq
      replace hd : b.Follows μ t := State.Follows.fst heq hd
      split
      · exact hd
      · extract_lets lo hi a
        split
        rename_i u g hu'
        have hu : b.Follows μ u := State.Follows.fst hu' (State.readBytes_follows _ _ hd)
        split
        · exact hu
        · split
          rename_i v w z hv'
          have hv : b.Follows μ v := State.Follows.fst hv' (State.writePool_follows _ _ _ _ _ hu)
          split
          · exact hv
          · exact hv

theorem State.sumPage_fine {μ : Nat} {b s : State} (id p layer : Nat) (hb : b.Follows μ s)
    (okm : Sub 0x280002190c53 μ := by exact Sub.trans (by assumption) (by decide)) : (s.sumPage id p layer).Fine μ b := by
  unfold State.sumPage
  split
  · exact hb
  · rename_i st _
    have hd := State.dirGet_follows st p layer hb
    split
    · rename_i heq; rw [heq] at hd; exact hd
    · rename_i heq; rw [heq] at hd; exact hd
    · rename_i t d heq
      replace hd : b.Follows μ t := State.Follows.fst heq hd
      split
      · exact hd
      · split
        rename_i x pg hx'
        have hx : b.Follows μ x := State.Follows.fst hx' (State.readPool_follows _ _ _ hd)
        split
        · exact hx
        · split
          rename_i y z q hy'
          have hy : b.Follows μ y := State.Follows.fst hy' (State.writePool_follows _ _ _ _ _ hx)
          split <;> exact hy

theorem State.sumMark_fine {μ : Nat} {b s : State} (id p layer : Nat) (hb : b.Follows μ s)
    (okm : Sub 0x280002190c53 μ := by exact Sub.trans (by assumption) (by decide)) : (s.sumMark id p layer).Fine μ b := by
  unfold State.sumMark
  split
  · exact hb
  · rename_i st _
    have hd := State.dirGet_follows st p layer hb
    split
    · rename_i heq; rw [heq] at hd; exact hd
    · rename_i heq; rw [heq] at hd; exact hd
    · rename_i t d heq
      replace hd : b.Follows μ t := State.Follows.fst heq hd
      exact State.Follows.ite (fun _ => hd) fun _ => State.dirPut_follows _ _ _ _ hd

theorem State.append_follows {μ : Nat} {b s : State} (p : Packet) (st : Stream) (hb : b.Follows μ s)
    (okm : Sub 0x290392190c53 μ := by exact Sub.trans (by assumption) (by decide)) : b.Follows μ (s.append p st) := by
  unfold State.append
  extract_lets n lay0 nlay t0 id full cells filled
  split
  · exact State.fixPacket_follows _ _ _ _ _ hb
  · exact State.fixPacket_follows _ _ _ _ _ hb
  · have h1 : (runApp s (cells.map fun c t => t.prepPage id c.2 (lay0 + c.1) (full c.2))).Fine μ b := by
      refine runApp_fine ?_ hb
      intro f hf t ht
      obtain ⟨c, -, rfl⟩ := List.mem_map.mp hf
      exact State.prepPage_fine _ _ _ _ ht
    split
    · exact State.fixPacket_follows _ _ _ _ _ (State.Follows.ite (fun _ => State.raise_follows _ _ _ _ hb)
        fun _ => State.raise_follows _ _ _ _ hb)
    · rename_i heq; rw [heq] at h1; exact State.poolFail_follows _ _ _ _ h1
    · rename_i heq; rw [heq] at h1; exact State.fixPacket_follows _ _ _ _ _ h1
    · rename_i s1 heq
      rw [heq] at h1
      have h2 : (runApp s1 ((cells.map fun c t => t.fillPage id c.2 (lay0 + c.1) t0 n (p.word 40 + c.1 * n * st.recBytes))
          ++ (filled.map fun c t => t.sumPage id c.2 (lay0 + c.1))
          ++ filled.map fun c t => t.sumMark id c.2 (lay0 + c.1))).Fine μ b := by
        refine runApp_fine ?_ h1
        intro f hf t ht
        rcases List.mem_append.mp hf with hf | hf
        · rcases List.mem_append.mp hf with hf | hf
          · obtain ⟨c, -, rfl⟩ := List.mem_map.mp hf
            exact State.fillPage_fine _ _ _ _ _ _ ht
          · obtain ⟨c, -, rfl⟩ := List.mem_map.mp hf
            exact State.sumPage_fine _ _ _ ht
        · obtain ⟨c, -, rfl⟩ := List.mem_map.mp hf
          exact State.sumMark_fine _ _ _ ht
      split
      · exact State.fixPacket_follows _ _ _ _ _ h1
      · rename_i heq2; rw [heq2] at h2; exact State.poolFail_follows _ _ _ _ h2
      · rename_i heq2; rw [heq2] at h2; exact State.fixPacket_follows _ _ _ _ _ h2
      · rename_i s2 heq2
        rw [heq2] at h2
        split
        · exact State.fixPacket_follows _ _ _ _ _ h2
        · exact State.fixPacket_follows _ _ _ _ _ (State.ev_follows _ _ _ (State.setStream_follows _ _ h2))

theorem State.runAppend_follows {μ : Nat} {b : State} {s : State} (id : Nat) (hb : b.Follows μ s)
    (okm : Sub 0x290392190c53 μ := by exact Sub.trans (by assumption) (by decide)) :
    b.Follows μ (State.runAppend s id) := by
  unfold State.runAppend
  repeat' (first
    | (with_reducible exact Sub.trans okm (by decide))
    | with_reducible assumption
    | (with_reducible apply State.append_follows)
    | (with_reducible apply State.fixPacket_follows)
    | (with_reducible refine State.takeFast_follows (hb := ?_) (ee := by with_reducible assumption))
    | (with_reducible apply State.Follows.ite)
    | (intro _)
    | split)

theorem execStreamAppend_follows {μ : Nat} {b : State} {id : Nat} {s : State} (hb : b.Follows μ s) {tt : State} (ee : execStreamAppend id s = .next tt)
    (okm : Sub 0x290392190c53 μ := by exact Sub.trans (by assumption) (by decide)) :
    b.Follows μ tt := by
  unfold execStreamAppend at ee
  first | refine onUnit_follows ?_ ee | cases ee
  repeat' (first
    | (with_reducible exact Sub.trans okm (by decide))
    | with_reducible assumption
    | (with_reducible apply State.runAppend_follows))

theorem State.evictOne_follows {μ : Nat} {b : State} {s : State} (id : Nat) (p : Nat) (layer : Nat) (hb : b.Follows μ s)
    (okm : Sub 0x280382190c53 μ := by exact Sub.trans (by assumption) (by decide)) :
    b.Follows μ (State.evictOne s id p layer).1 := by
  unfold State.evictOne
  repeat' (first
    | (with_reducible exact Sub.trans okm (by decide))
    | with_reducible assumption
    | (with_reducible apply State.dirGet_follows)
    | (with_reducible apply State.setStream_follows)
    | (with_reducible apply State.dirPut_follows)
    | (with_reducible apply State.dropSlot_follows)
    | (with_reducible apply State.lgDrop_follows)
    | (refine State.Follows.fst (by with_reducible assumption) ?_)
    | (with_reducible apply State.Follows.ite)
    | (intro _)
    | split)

theorem State.runEvict_follows {μ : Nat} {b s : State} (id : Nat) (hb : b.Follows μ s)
    (okm : Sub 0x2b0392190c53 μ := by exact Sub.trans (by assumption) (by decide)) : b.Follows μ (s.runEvict id) := by
  unfold State.runEvict
  extract_lets start
  have hs : ∀ y, start = some y → b.Follows μ y.1 := by
    intro y hy
    dsimp only [start] at hy
    split at hy
    · split at hy
      · cases hy; exact hb
      · exact State.takeFw_follows hb hy
    · cases hy
  clear_value start
  split
  · exact hb
  · rename_i s1 p
    have h1 : b.Follows μ s1 := hs _ rfl
    split
    · exact State.fixPacket_follows _ _ _ _ _ h1
    · exact State.fixPacket_follows _ _ _ _ _ h1
    · extract_lets t0 t1
      split
      · exact State.fixPacket_follows _ _ _ _ _ h1
      · split
        · exact h1
        · split
          rename_i s2 c bad heq2
          have h2 : b.Follows μ s2 := by
            refine State.Follows.fst heq2 (State.Follows.foldlFst ?_ _ h1)
            intro u e hu
            split
            · exact hu
            · exact State.evictOne_follows _ _ _ hu
          split
          · exact State.poolFail_follows _ _ _ _ h2
          · exact State.fixPacket_follows _ _ _ _ _ (by
              split
              · exact State.Follows.ite (fun _ => State.setStream_follows _ _ h2) fun _ => h2
              · exact h2)

theorem execStreamEvict_follows {μ : Nat} {b : State} {id : Nat} {s : State} (hb : b.Follows μ s) {tt : State} (ee : execStreamEvict id s = .next tt)
    (okm : Sub 0x2b0392190c53 μ := by exact Sub.trans (by assumption) (by decide)) :
    b.Follows μ tt := by
  unfold execStreamEvict at ee
  first | refine onUnit_follows ?_ ee | cases ee
  repeat' (first
    | (with_reducible exact Sub.trans okm (by decide))
    | with_reducible assumption
    | (with_reducible apply State.runEvict_follows))

theorem State.freeFrames_follows {μ : Nat} {b : State} {s : State} (id : Nat) (hb : b.Follows μ s)
    (okm : Sub 0x300000000 μ := by exact Sub.trans (by assumption) (by decide)) :
    b.Follows μ (State.freeFrames s id) := by
  unfold State.freeFrames
  repeat' (first
    | with_reducible assumption
    | (fail_if_no_progress with_reducible refine State.Follows.set_lgUsed_lgSums ?_ (Sub.trans okm (by decide))))

theorem State.orphan_follows {μ : Nat} {b : State} {s : State} (id : Nat) (hb : b.Follows μ s)
    (okm : Sub 0x300000000 μ := by exact Sub.trans (by assumption) (by decide)) :
    b.Follows μ (State.orphan s id) := by
  unfold State.orphan
  repeat' (first
    | with_reducible assumption
    | (fail_if_no_progress with_reducible refine State.Follows.set_lgUsed_lgSums ?_ (Sub.trans okm (by decide))))

theorem State.rebuildLists_follows {μ : Nat} {b : State} {s : State} (hb : b.Follows μ s)
    (okm : Sub 0x300000000 μ := by exact Sub.trans (by assumption) (by decide)) :
    b.Follows μ (State.rebuildLists s) := by
  unfold State.rebuildLists
  repeat' (first
    | with_reducible assumption
    | (fail_if_no_progress with_reducible refine State.Follows.set_lgUsed_lgSums ?_ (Sub.trans okm (by decide))))

theorem State.endClose_follows {μ : Nat} {b : State} {s : State} (p : Packet) (st : Stream) (hb : b.Follows μ s)
    (okm : Sub 0x90392000042 μ := by exact Sub.trans (by assumption) (by decide)) :
    b.Follows μ (State.endClose s p st) := by
  unfold State.endClose
  repeat' (first
    | (with_reducible exact Sub.trans okm (by decide))
    | with_reducible assumption
    | (with_reducible apply State.orphan_follows)
    | (with_reducible apply State.fixPacket_follows)
    | (with_reducible apply State.freeFrames_follows)
    | (with_reducible apply State.freeStream_follows)
    | (with_reducible apply State.Follows.ite)
    | (intro _))

theorem State.runClose_follows {μ : Nat} {b : State} {s : State} (id : Nat) (hb : b.Follows μ s)
    (okm : Sub 0xb0392000042 μ := by exact Sub.trans (by assumption) (by decide)) :
    b.Follows μ (State.runClose s id) := by
  unfold State.runClose
  repeat' (first
    | (with_reducible exact Sub.trans okm (by decide))
    | with_reducible assumption
    | (with_reducible apply State.setStream_follows)
    | (with_reducible apply State.endClose_follows)
    | (with_reducible apply State.fixPacket_follows)
    | (with_reducible refine State.takeFw_follows (hb := ?_) (ee := by with_reducible assumption))
    | (with_reducible apply State.Follows.ite)
    | (intro _)
    | split)

theorem execStreamClose_follows {μ : Nat} {b : State} {id : Nat} {s : State} (hb : b.Follows μ s) {tt : State} (ee : execStreamClose id s = .next tt)
    (okm : Sub 0xb0392000042 μ := by exact Sub.trans (by assumption) (by decide)) :
    b.Follows μ tt := by
  unfold execStreamClose at ee
  first | refine onUnit_follows ?_ ee | cases ee
  repeat' (first
    | (with_reducible exact Sub.trans okm (by decide))
    | with_reducible assumption
    | (with_reducible apply State.runClose_follows))

theorem State.walkOne_follows {μ : Nat} {b : State} {s : State} (k : Nat) (lo : Nat) (id : Nat) (p : Nat) (layer : Nat) (hb : b.Follows μ s)
    (okm : Sub 0x280382190c53 μ := by exact Sub.trans (by assumption) (by decide)) :
    b.Follows μ (State.walkOne s k lo id p layer) := by
  unfold State.walkOne
  repeat' (first
    | (with_reducible exact Sub.trans okm (by decide))
    | with_reducible assumption
    | (with_reducible apply State.setStream_follows)
    | (with_reducible apply State.fsat_follows)
    | (with_reducible apply State.dirPut_follows)
    | (with_reducible apply State.raise_follows)
    | (with_reducible apply State.readPool_follows)
    | (with_reducible apply State.dirPage_follows)
    | (with_reducible apply State.dropSlot_follows)
    | (with_reducible apply State.lgDrop_follows)
    | (refine State.Follows.fst (by with_reducible assumption) ?_)
    | (with_reducible apply State.Follows.ite)
    | (intro _)
    | split
    | fail_if_no_progress extract_lets)

theorem State.walkFrames_follows {μ : Nat} {b : State} {s : State} (k : Nat) (lo : Nat) (hb : b.Follows μ s)
    (okm : Sub 0x280382190c53 μ := by exact Sub.trans (by assumption) (by decide)) :
    b.Follows μ (State.walkFrames s k lo) := by
  unfold State.walkFrames
  repeat' (first
    | (with_reducible exact Sub.trans okm (by decide))
    | with_reducible assumption
    | (with_reducible apply State.walkOne_follows)
    | (with_reducible apply State.Follows.foldl)
    | (with_reducible apply State.Follows.ite)
    | (intro _ _ _; beta_reduce)
    | (intro _)
    | split)

theorem State.lossWalk_follows {μ : Nat} {b : State} {s : State} (k : Nat) (hb : b.Follows μ s)
    (okm : Sub 0x280782190c53 μ := by exact Sub.trans (by assumption) (by decide)) :
    b.Follows μ (State.lossWalk s k) := by
  unfold State.lossWalk
  repeat' (first
    | (with_reducible exact Sub.trans okm (by decide))
    | with_reducible assumption
    | (with_reducible apply State.walkFrames_follows)
    | (fail_if_no_progress with_reducible refine State.Follows.set_lgWalk ?_ (Sub.trans okm (by decide)))
    | (with_reducible apply State.Follows.ite)
    | (intro _))

theorem execLossWalk_follows {μ : Nat} {b : State} {k : Nat} {s : State} (hb : b.Follows μ s) {tt : State} (ee : execLossWalk k s = .next tt)
    (okm : Sub 0x280782190c53 μ := by exact Sub.trans (by assumption) (by decide)) :
    b.Follows μ tt := by
  unfold execLossWalk at ee
  first | refine onUnit_follows ?_ ee | cases ee
  repeat' (first
    | (with_reducible exact Sub.trans okm (by decide))
    | with_reducible assumption
    | (with_reducible apply State.lossWalk_follows))

/-! ## Attention -/

theorem State.builtEvent_follows {μ : Nat} {b : State} {s : State} (f : Fld) (cl : Nat) (core : Option Nat) (hb : b.Follows μ s)
    (okm : Sub 0x12 μ := by exact Sub.trans (by assumption) (by decide)) :
    b.Follows μ (State.builtEvent s f cl core) := by
  unfold State.builtEvent
  repeat' (first
    | (with_reducible exact Sub.trans okm (by decide))
    | with_reducible assumption
    | (with_reducible apply State.raise_follows)
    | (with_reducible apply State.drawNat_follows)
    | split)

theorem State.builtLoad_follows {μ : Nat} {b : State} {s : State} (st : PStatus) (cl : Nat) (core : Option Nat) (hb : b.Follows μ s)
    (okm : Sub 0x12 μ := by exact Sub.trans (by assumption) (by decide)) :
    b.Follows μ (State.builtLoad s st cl core) := by
  unfold State.builtLoad
  repeat' (first
    | (with_reducible exact Sub.trans okm (by decide))
    | with_reducible assumption
    | (with_reducible apply State.builtEvent_follows)
    | (with_reducible apply State.Follows.ite)
    | (intro _))

theorem State.endGather_follows {μ : Nat} {b : State} {s : State} (p : Packet) (k : KStatus) (addr : Nat) (hb : b.Follows μ s)
    (okm : Sub 0x290012190c53 μ := by exact Sub.trans (by assumption) (by decide)) :
    b.Follows μ (State.endGather s p k addr) := by
  unfold State.endGather
  repeat' (first
    | (with_reducible exact Sub.trans okm (by decide))
    | with_reducible assumption
    | (with_reducible apply State.fixPacket_follows)
    | (with_reducible apply State.spoil_follows))

theorem State.collect_follows {μ : Nat} {b : State} {s : State} (st : Stream) (layer : Nat) (spans : List (Nat × Nat × Nat)) (hb : b.Follows μ s)
    (okm : Sub 0x280002190c53 μ := by exact Sub.trans (by assumption) (by decide)) :
    b.Follows μ (State.collect s st layer spans).1 := by
  unfold State.collect
  repeat' (first
    | (with_reducible exact Sub.trans okm (by decide))
    | with_reducible assumption
    | (with_reducible apply State.dirGet_follows)
    | (with_reducible apply State.Follows.foldlFst)
    | (refine State.Follows.fst (by with_reducible assumption) ?_)
    | (intro _ _ _; beta_reduce)
    | split)

theorem State.setAttn_follows {μ : Nat} {b : State} {s : State} (id : Nat) (r : AttnRun) (hb : b.Follows μ s)
    (okm : Sub 0x800000000 μ := by exact Sub.trans (by assumption) (by decide)) :
    b.Follows μ (State.setAttn s id r) := by
  unfold State.setAttn
  repeat' (first
    | with_reducible assumption
    | (fail_if_no_progress with_reducible refine State.Follows.set_attns ?_ (Sub.trans okm (by decide))))

theorem State.dropAttn_follows {μ : Nat} {b : State} {s : State} (id : Nat) (hb : b.Follows μ s)
    (okm : Sub 0x800000000 μ := by exact Sub.trans (by assumption) (by decide)) :
    b.Follows μ (State.dropAttn s id) := by
  unfold State.dropAttn
  repeat' (first
    | with_reducible assumption
    | (fail_if_no_progress with_reducible refine State.Follows.set_attns ?_ (Sub.trans okm (by decide))))

theorem State.attnFail_follows {μ : Nat} {b : State} {s : State} (p : Packet) (st : PStatus) (addr : Nat) (count : Nat) (hb : b.Follows μ s)
    (okm : Sub 0x90812000042 μ := by exact Sub.trans (by assumption) (by decide)) :
    b.Follows μ (State.attnFail s p st addr count) := by
  unfold State.attnFail
  repeat' (first
    | (with_reducible exact Sub.trans okm (by decide))
    | with_reducible assumption
    | (with_reducible apply State.fixPacket_follows)
    | (with_reducible apply State.dropAttn_follows))

theorem State.writeTuples_follows {μ : Nat} {b : State} {s : State} (r : AttnRun) (dv : Nat) (k : Nat) (cl : Nat) (e : Nat) (a : EngAcc) (hb : b.Follows μ s)
    (okm : Sub 0x280002190c53 μ := by exact Sub.trans (by assumption) (by decide)) :
    b.Follows μ (State.writeTuples s r dv k cl e a).1 := by
  unfold State.writeTuples
  repeat' (first
    | (with_reducible exact Sub.trans okm (by decide))
    | with_reducible assumption
    | (with_reducible apply State.builtEvent_follows)
    | (with_reducible apply State.writeBytes_follows)
    | (with_reducible apply State.Follows.foldlFst)
    | (with_reducible apply State.Follows.ite)
    | (intro _ _ _; beta_reduce)
    | (intro _)
    | split)

theorem State.attnFinish_follows {μ : Nat} {b : State} {s : State} (p : Packet) (r : AttnRun) (dv : Nat) (hb : b.Follows μ s)
    (okm : Sub 0x290812190c53 μ := by exact Sub.trans (by assumption) (by decide)) :
    b.Follows μ (State.attnFinish s p r dv) := by
  unfold State.attnFinish
  repeat' (first
    | (with_reducible exact Sub.trans okm (by decide))
    | with_reducible assumption
    | (with_reducible apply State.writeBytes_follows)
    | (with_reducible apply State.ev_follows)
    | (with_reducible apply State.fixPacket_follows)
    | (with_reducible apply State.dropAttn_follows)
    | (with_reducible apply State.attnFail_follows)
    | (with_reducible apply State.fadd_follows)
    | (with_reducible apply State.writeTuples_follows)
    | (with_reducible apply State.Follows.foldl)
    | (with_reducible apply State.Follows.foldlFst)
    | (with_reducible apply State.Follows.ite)
    | (intro _ _ _; beta_reduce)
    | (intro _)
    | split)

theorem State.spoilList_follows {μ : Nat} {b : State} {s : State} (st : PStatus) (r : AttnRun) (hb : b.Follows μ s)
    (okm : Sub 0x280002190c53 μ := by exact Sub.trans (by assumption) (by decide)) :
    b.Follows μ (State.spoilList s st r) := by
  unfold State.spoilList
  repeat' (first
    | (with_reducible exact Sub.trans okm (by decide))
    | with_reducible assumption
    | (with_reducible apply State.spoilRange_follows)
    | (with_reducible apply State.Follows.ite)
    | (intro _)
    | split)

theorem State.attnStart_follows {μ : Nat} {b : State} {s : State} (p : Packet) (r : AttnRun) (pg : Pages) (dv : Nat) (hb : b.Follows μ s)
    (okm : Sub 0x290892190c53 μ := by exact Sub.trans (by assumption) (by decide)) :
    b.Follows μ (State.attnStart s p r pg dv) := by
  unfold State.attnStart
  repeat' (first
    | (with_reducible exact Sub.trans okm (by decide))
    | with_reducible assumption
    | (with_reducible apply State.poolFail_follows)
    | (with_reducible apply State.setAttn_follows)
    | (with_reducible apply State.setPacket_follows)
    | (with_reducible apply State.attnFinish_follows)
    | (with_reducible apply State.attnFail_follows)
    | (with_reducible apply State.Follows.ite)
    | (intro _)
    | split)

theorem State.takeAttn_follows {μ : Nat} {b : State} {s : State} {id : Nat} {op : Nat} (hb : b.Follows μ s) {tt : State} {yy : Packet} (ee : State.takeAttn s id op = some (tt, yy))
    (okm : Sub 0x10000000002 μ := by exact Sub.trans (by assumption) (by decide)) :
    b.Follows μ tt := by
  unfold State.takeAttn at ee
  repeat' (first | split at ee | fail_if_no_progress extract_lets at ee | (cases ee))
  repeat' (first
    | with_reducible assumption
    | (with_reducible refine State.takeFast_follows (hb := ?_) (ee := by with_reducible assumption)))

theorem State.partialFrom_follows {μ : Nat} {b : State} {s : State} (p : Packet) (st : Stream) (a : AttnPrm) (spans : List (Nat × Nat × Nat)) (hb : b.Follows μ s)
    (okm : Sub 0x290892190c53 μ := by exact Sub.trans (by assumption) (by decide)) :
    b.Follows μ (State.partialFrom s p st a spans) := by
  unfold State.partialFrom
  repeat' (first
    | (with_reducible exact Sub.trans okm (by decide))
    | with_reducible assumption
    | (with_reducible apply State.attnFail_follows)
    | (with_reducible apply State.readBytes_follows)
    | (with_reducible apply State.collect_follows)
    | (with_reducible apply State.attnStart_follows)
    | (with_reducible apply State.Follows.ite)
    | (intro _))

theorem State.runPartial_follows {μ : Nat} {b : State} {s : State} (id : Nat) (hb : b.Follows μ s)
    (okm : Sub 0x290892190c53 μ := by exact Sub.trans (by assumption) (by decide)) :
    b.Follows μ (State.runPartial s id) := by
  unfold State.runPartial
  repeat' (first
    | (with_reducible exact Sub.trans okm (by decide))
    | with_reducible assumption
    | (with_reducible apply State.fixPacket_follows)
    | (with_reducible apply State.partialFrom_follows)
    | (with_reducible apply State.attnFail_follows)
    | (with_reducible apply State.readBytes_follows)
    | (with_reducible refine State.takeAttn_follows (hb := ?_) (ee := by with_reducible assumption))
    | (with_reducible apply State.Follows.ite)
    | (intro _)
    | split
    | fail_if_no_progress extract_lets)

theorem execAttnPartial_follows {μ : Nat} {b : State} {id : Nat} {s : State} (hb : b.Follows μ s) {tt : State} (ee : execAttnPartial id s = .next tt)
    (okm : Sub 0x290892190c53 μ := by exact Sub.trans (by assumption) (by decide)) :
    b.Follows μ tt := by
  unfold execAttnPartial at ee
  first | refine onUnit_follows ?_ ee | cases ee
  repeat' (first
    | (with_reducible exact Sub.trans okm (by decide))
    | with_reducible assumption
    | (with_reducible apply State.runPartial_follows))

theorem State.readBlock_follows {μ : Nat} {b : State} (st : Stream) (k : Block) : ∀ (n : Nat) {s : State}, b.Follows μ s →
    (okm : Sub 0x280002190c53 μ := by exact Sub.trans (by assumption) (by decide)) → b.Follows μ (s.readBlock st k n).1
  | 0, _, h, _ => h
  | 1, _, h, _ => State.readPool_follows _ _ _ h
  | n + 2, s, h, okm => by
    have h1 := State.readPool_follows (s.lgDesc k.pool) (lgFrame * k.frame + k.tok * st.recBytes) (k.n * st.recBytes) h
    rw [State.readBlock]
    · split
      next t g e =>
      replace h1 : b.Follows μ t := State.Follows.fst e h1
      split
      · exact h1
      · exact State.readBlock_follows st k (n + 1) h1
    · exact Nat.succ_ne_zero n

theorem State.dealBlock_follows {μ : Nat} {b : State} {s : State} (id : Nat) (cl : Nat) (e : Nat) (hb : b.Follows μ s)
    (okm : Sub 0x290892190c53 μ := by exact Sub.trans (by assumption) (by decide)) :
    b.Follows μ (State.dealBlock s id cl e) := by
  unfold State.dealBlock
  repeat' (first
    | (with_reducible exact Sub.trans okm (by decide))
    | with_reducible assumption
    | (with_reducible apply State.poolFail_follows)
    | (with_reducible apply State.setAttn_follows)
    | (with_reducible apply State.readBlock_follows)
    | (with_reducible apply State.setPacket_follows)
    | (with_reducible apply State.attnFinish_follows)
    | (with_reducible apply State.ev_follows)
    | (with_reducible apply State.dropAttn_follows)
    | (with_reducible apply State.spoilList_follows)
    | (with_reducible apply State.attnFail_follows)
    | (with_reducible apply State.builtLoad_follows)
    | (with_reducible apply State.Follows.ite)
    | (intro _)
    | split)

theorem execEngineBlockDeal_follows {μ : Nat} {b : State} {id : Nat} {cl : Nat} {e : Nat} {s : State} (hb : b.Follows μ s) {tt : State} (ee : execEngineBlockDeal id cl e s = .next tt)
    (okm : Sub 0x290892190c53 μ := by exact Sub.trans (by assumption) (by decide)) :
    b.Follows μ tt := by
  unfold execEngineBlockDeal at ee
  first | refine onUnit_follows ?_ ee | cases ee
  repeat' (first
    | (with_reducible exact Sub.trans okm (by decide))
    | with_reducible assumption
    | (with_reducible apply State.dealBlock_follows))

theorem State.scorePage_follows {μ : Nat} {b : State} {s : State} (st : Stream) (a : AttnPrm) (q : List Nat) (bound : Nat) (n : Nat) (lowForced : Nat) (hiForced : Nat) (p : Nat) (x : Scored) (hb : b.Follows μ s)
    (okm : Sub 0x280002190c53 μ := by exact Sub.trans (by assumption) (by decide)) :
    b.Follows μ (State.scorePage s st a q bound n lowForced hiForced p x).1 := by
  unfold State.scorePage
  repeat' (first
    | (with_reducible exact Sub.trans okm (by decide))
    | with_reducible assumption
    | (with_reducible apply State.dirGet_follows)
    | (with_reducible apply State.readPool_follows)
    | (with_reducible apply State.builtLoad_follows)
    | (refine State.Follows.fst (by with_reducible assumption) ?_)
    | split)

theorem State.runSelect_follows {μ : Nat} {b : State} {s : State} (id : Nat) (hb : b.Follows μ s)
    (okm : Sub 0x290892190c53 μ := by exact Sub.trans (by assumption) (by decide)) :
    b.Follows μ (State.runSelect s id) := by
  unfold State.runSelect
  repeat' (first
    | (with_reducible exact Sub.trans okm (by decide))
    | with_reducible assumption
    | (with_reducible apply State.poolFail_follows)
    | (with_reducible apply State.writeBytes_follows)
    | (with_reducible apply State.fixPacket_follows)
    | (with_reducible apply State.attnFail_follows)
    | (with_reducible apply State.readBytes_follows)
    | (with_reducible apply State.collect_follows)
    | (with_reducible apply State.scorePage_follows)
    | (with_reducible apply State.attnStart_follows)
    | (with_reducible refine State.takeAttn_follows (hb := ?_) (ee := by with_reducible assumption))
    | (with_reducible apply State.Follows.foldlFst)
    | (refine State.Follows.fst (by with_reducible assumption) ?_)
    | (with_reducible apply State.Follows.ite)
    | (intro _ _ _; beta_reduce)
    | (intro _)
    | split
    | fail_if_no_progress extract_lets)

theorem execAttnSelect_follows {μ : Nat} {b : State} {id : Nat} {s : State} (hb : b.Follows μ s) {tt : State} (ee : execAttnSelect id s = .next tt)
    (okm : Sub 0x290892190c53 μ := by exact Sub.trans (by assumption) (by decide)) :
    b.Follows μ tt := by
  unfold execAttnSelect at ee
  first | refine onUnit_follows ?_ ee | cases ee
  repeat' (first
    | (with_reducible exact Sub.trans okm (by decide))
    | with_reducible assumption
    | (with_reducible apply State.runSelect_follows))

theorem State.runMerge_follows {μ : Nat} {b : State} {s : State} (id : Nat) (order : List Nat) (hb : b.Follows μ s)
    (okm : Sub 0x290812190c53 μ := by exact Sub.trans (by assumption) (by decide)) :
    b.Follows μ (State.runMerge s id order) := by
  unfold State.runMerge
  repeat' (first
    | (with_reducible exact Sub.trans okm (by decide))
    | with_reducible assumption
    | (with_reducible apply State.builtEvent_follows)
    | (with_reducible apply State.writeBytes_follows)
    | (with_reducible apply State.fixPacket_follows)
    | (with_reducible apply State.attnFail_follows)
    | (with_reducible apply State.readBytes_follows)
    | (with_reducible refine State.takeAttn_follows (hb := ?_) (ee := by with_reducible assumption))
    | (with_reducible apply State.Follows.foldlFst)
    | (with_reducible apply State.Follows.ite)
    | (intro _ _ _; beta_reduce)
    | (intro _)
    | split
    | fail_if_no_progress extract_lets)

theorem execAttnMerge_follows {μ : Nat} {b : State} {id : Nat} {order : List Nat} {s : State} (hb : b.Follows μ s) {tt : State} (ee : execAttnMerge id order s = .next tt)
    (okm : Sub 0x290812190c53 μ := by exact Sub.trans (by assumption) (by decide)) :
    b.Follows μ tt := by
  unfold execAttnMerge at ee
  first | refine onUnit_follows ?_ ee | cases ee
  repeat' (first
    | (with_reducible exact Sub.trans okm (by decide))
    | with_reducible assumption
    | (with_reducible apply State.runMerge_follows))

/-! ## Recipes -/

theorem State.setRecipe_follows {μ : Nat} {b : State} {s : State} (k : Nat) (r : RecipeSlot) (hb : b.Follows μ s)
    (okm : Sub 0x1000000000 μ := by exact Sub.trans (by assumption) (by decide)) :
    b.Follows μ (State.setRecipe s k r) := by
  unfold State.setRecipe
  repeat' (first
    | with_reducible assumption
    | (fail_if_no_progress with_reducible refine State.Follows.set_recipes ?_ (Sub.trans okm (by decide))))

theorem State.loadBuiltIn_follows {μ : Nat} {b : State} {s : State} (hb : b.Follows μ s)
    (okm : Sub 0x1000000000 μ := by exact Sub.trans (by assumption) (by decide)) :
    b.Follows μ (State.loadBuiltIn s) := by
  unfold State.loadBuiltIn
  repeat' (first
    | (with_reducible exact Sub.trans okm (by decide))
    | with_reducible assumption
    | (with_reducible apply State.setRecipe_follows)
    | (with_reducible apply State.Follows.foldl)
    | (intro _ _ _; beta_reduce))

theorem State.runLoad_follows {μ : Nat} {b : State} {s : State} (id : Nat) (hb : b.Follows μ s)
    (okm : Sub 0xb1012000042 μ := by exact Sub.trans (by assumption) (by decide)) :
    b.Follows μ (State.runLoad s id) := by
  unfold State.runLoad
  repeat' (first
    | (with_reducible exact Sub.trans okm (by decide))
    | with_reducible assumption
    | (with_reducible apply State.setRecipe_follows)
    | (with_reducible apply State.fixPacket_follows)
    | (with_reducible refine State.takeFw_follows (hb := ?_) (ee := by with_reducible assumption))
    | (with_reducible apply State.Follows.ite)
    | (intro _)
    | split
    | fail_if_no_progress extract_lets)

theorem execRecipeLoad_follows {μ : Nat} {b : State} {id : Nat} {s : State} (hb : b.Follows μ s) {tt : State} (ee : execRecipeLoad id s = .next tt)
    (okm : Sub 0xb1012000042 μ := by exact Sub.trans (by assumption) (by decide)) :
    b.Follows μ tt := by
  unfold execRecipeLoad at ee
  first | refine onUnit_follows ?_ ee | cases ee
  repeat' (first
    | (with_reducible exact Sub.trans okm (by decide))
    | with_reducible assumption
    | (with_reducible apply State.runLoad_follows))

theorem State.freeSlot_follows {μ : Nat} {b : State} {s : State} (k : Nat) (hb : b.Follows μ s)
    (okm : Sub 0x1000000000 μ := by exact Sub.trans (by assumption) (by decide)) :
    b.Follows μ (State.freeSlot s k) := by
  unfold State.freeSlot
  repeat' (first
    | (with_reducible exact Sub.trans okm (by decide))
    | with_reducible assumption
    | (with_reducible apply State.setRecipe_follows)
    | (with_reducible apply State.Follows.ite)
    | (intro _))

theorem execRecipeSlotFree_follows {μ : Nat} {b : State} {slot : Nat} {s : State} (hb : b.Follows μ s) {tt : State} (ee : execRecipeSlotFree slot s = .next tt)
    (okm : Sub 0x1000000000 μ := by exact Sub.trans (by assumption) (by decide)) :
    b.Follows μ tt := by
  unfold execRecipeSlotFree at ee
  first | refine onUnit_follows ?_ ee | cases ee
  repeat' (first
    | (with_reducible exact Sub.trans okm (by decide))
    | with_reducible assumption
    | (with_reducible apply State.freeSlot_follows))

theorem State.starveGathers_follows {μ : Nat} {b : State} {s : State} (hb : b.Follows μ s)
    (okm : Sub 0x290012190c53 μ := by exact Sub.trans (by assumption) (by decide)) :
    b.Follows μ (State.starveGathers s) := by
  unfold State.starveGathers
  repeat' (first
    | (with_reducible exact Sub.trans okm (by decide))
    | with_reducible assumption
    | (with_reducible apply State.endGather_follows)
    | (with_reducible apply State.Follows.foldl)
    | (with_reducible apply State.Follows.ite)
    | (intro _ _ _; beta_reduce)
    | (intro _))

theorem State.starve_follows {μ : Nat} {b : State} {s : State} (hb : b.Follows μ s)
    (okm : Sub 0x290812190c53 μ := by exact Sub.trans (by assumption) (by decide)) :
    b.Follows μ (State.starve s) := by
  unfold State.starve
  repeat' (first
    | (with_reducible exact Sub.trans okm (by decide))
    | with_reducible assumption
    | (with_reducible apply State.starveGathers_follows)
    | (with_reducible apply State.fixPacket_follows)
    | (with_reducible apply State.attnFail_follows)
    | (with_reducible apply State.Follows.foldl)
    | (with_reducible apply State.Follows.ite)
    | (intro _ _ _; beta_reduce)
    | (intro _)
    | split)

theorem State.runRun_follows {μ : Nat} {b : State} {s : State} (id : Nat) (hb : b.Follows μ s)
    (okm : Sub 0x292812190c73 μ := by exact Sub.trans (by assumption) (by decide)) :
    b.Follows μ (State.runRun s id) := by
  unfold State.runRun
  repeat' (first
    | (with_reducible exact Sub.trans okm (by decide))
    | with_reducible assumption
    | (with_reducible apply State.freshId_follows)
    | (with_reducible apply State.starve_follows)
    | (with_reducible apply State.fixPacket_follows)
    | (with_reducible refine State.takeFast_follows (hb := ?_) (ee := by with_reducible assumption))
    | (fail_if_no_progress with_reducible refine State.Follows.set_runs ?_ (Sub.trans okm (by decide)))
    | (refine State.Follows.fst (by with_reducible assumption) ?_)
    | split
    | fail_if_no_progress extract_lets)

theorem execRecipeRun_follows {μ : Nat} {b : State} {id : Nat} {s : State} (hb : b.Follows μ s) {tt : State} (ee : execRecipeRun id s = .next tt)
    (okm : Sub 0x292812190c73 μ := by exact Sub.trans (by assumption) (by decide)) :
    b.Follows μ tt := by
  unfold execRecipeRun at ee
  first | refine onUnit_follows ?_ ee | cases ee
  repeat' (first
    | (with_reducible exact Sub.trans okm (by decide))
    | with_reducible assumption
    | (with_reducible apply State.runRun_follows))

theorem State.setCore_follows {μ : Nat} {b : State} {s : State} (cl : Nat) (core : Nat) (c : Core) (hb : b.Follows μ s)
    (okm : Sub 0x4000000000 μ := by exact Sub.trans (by assumption) (by decide)) :
    b.Follows μ (State.setCore s cl core c) := by
  unfold State.setCore
  repeat' (first
    | with_reducible assumption
    | (fail_if_no_progress with_reducible refine State.Follows.set_cores ?_ (Sub.trans okm (by decide))))

theorem State.dropCore_follows {μ : Nat} {b : State} {s : State} (cl : Nat) (core : Nat) (hb : b.Follows μ s)
    (okm : Sub 0x4000000000 μ := by exact Sub.trans (by assumption) (by decide)) :
    b.Follows μ (State.dropCore s cl core) := by
  unfold State.dropCore
  repeat' (first
    | with_reducible assumption
    | (fail_if_no_progress with_reducible refine State.Follows.set_cores ?_ (Sub.trans okm (by decide))))

theorem State.startIteration_follows {μ : Nat} {b : State} {s : State} (cl : Nat) (core : Nat) (hb : b.Follows μ s)
    (okm : Sub 0x6000000020 μ := by exact Sub.trans (by assumption) (by decide)) :
    b.Follows μ (State.startIteration s cl core) := by
  unfold State.startIteration
  repeat' (first
    | (with_reducible exact Sub.trans okm (by decide))
    | with_reducible assumption
    | (with_reducible apply State.freshId_follows)
    | (with_reducible apply State.setCore_follows)
    | (fail_if_no_progress with_reducible refine State.Follows.set_runs ?_ (Sub.trans okm (by decide)))
    | (with_reducible apply State.Follows.ite)
    | (intro _)
    | split)

theorem execIterationStart_follows {μ : Nat} {b : State} {cl : Nat} {core : Nat} {s : State} (hb : b.Follows μ s) {tt : State} (ee : execIterationStart cl core s = .next tt)
    (okm : Sub 0x6000000020 μ := by exact Sub.trans (by assumption) (by decide)) :
    b.Follows μ tt := by
  unfold execIterationStart at ee
  first | refine onUnit_follows ?_ ee | cases ee
  repeat' (first
    | (with_reducible exact Sub.trans okm (by decide))
    | with_reducible assumption
    | (with_reducible apply State.startIteration_follows))

theorem State.endIteration_follows {μ : Nat} {b : State} {s : State} (cl : Nat) (core : Nat) (hb : b.Follows μ s)
    (okm : Sub 0x94012000042 μ := by exact Sub.trans (by assumption) (by decide)) :
    b.Follows μ (State.endIteration s cl core) := by
  unfold State.endIteration
  repeat' (first
    | (with_reducible exact Sub.trans okm (by decide))
    | with_reducible assumption
    | (with_reducible apply State.setPacket_follows)
    | (with_reducible apply State.ev_follows)
    | (with_reducible apply State.fixPacket_follows)
    | (with_reducible apply State.fadd_follows)
    | (with_reducible apply State.dropCore_follows)
    | (with_reducible apply State.Follows.ite)
    | (intro _)
    | split
    | fail_if_no_progress extract_lets)

theorem execIterationDone_follows {μ : Nat} {b : State} {cl : Nat} {core : Nat} {s : State} (hb : b.Follows μ s) {tt : State} (ee : execIterationDone cl core s = .next tt)
    (okm : Sub 0x94012000042 μ := by exact Sub.trans (by assumption) (by decide)) :
    b.Follows μ tt := by
  unfold execIterationDone at ee
  first | refine onUnit_follows ?_ ee | cases ee
  repeat' (first
    | (with_reducible exact Sub.trans okm (by decide))
    | with_reducible assumption
    | (with_reducible apply State.endIteration_follows))

theorem State.redoCores_follows {μ : Nat} {b : State} {s : State} (cl : Nat) (hb : b.Follows μ s)
    (okm : Sub 0x6000000000 μ := by exact Sub.trans (by assumption) (by decide)) :
    b.Follows μ (State.redoCores s cl) := by
  unfold State.redoCores
  repeat' (first
    | (with_reducible exact Sub.trans okm (by decide))
    | with_reducible assumption
    | (with_reducible apply State.dropCore_follows)
    | (fail_if_no_progress with_reducible refine State.Follows.set_runs ?_ (Sub.trans okm (by decide)))
    | (with_reducible apply State.Follows.foldl)
    | (intro _ _ _; beta_reduce)
    | split
    | fail_if_no_progress extract_lets)

theorem State.undealAttn_follows {μ : Nat} {b : State} {s : State} (cl : Nat) (hb : b.Follows μ s)
    (okm : Sub 0x800000000 μ := by exact Sub.trans (by assumption) (by decide)) :
    b.Follows μ (State.undealAttn s cl) := by
  unfold State.undealAttn
  repeat' (first
    | (with_reducible exact Sub.trans okm (by decide))
    | with_reducible assumption
    | (with_reducible apply State.setAttn_follows)
    | (with_reducible apply State.Follows.foldl)
    | (intro _ _ _; beta_reduce)
    | split
    | fail_if_no_progress extract_lets)

theorem State.clusterReset_follows {μ : Nat} {b : State} {s : State} (cl : Nat) (hb : b.Follows μ s)
    (okm : Sub 0x29e812190c53 μ := by exact Sub.trans (by assumption) (by decide)) :
    b.Follows μ (State.clusterReset s cl) := by
  unfold State.clusterReset
  repeat' (first
    | (with_reducible exact Sub.trans okm (by decide))
    | with_reducible assumption
    | (with_reducible apply State.redoCores_follows)
    | (with_reducible apply State.undealAttn_follows)
    | (with_reducible apply State.fset_follows)
    | (with_reducible apply State.starve_follows)
    | (fail_if_no_progress with_reducible refine State.Follows.set_clReset ?_ (Sub.trans okm (by decide))))

theorem execClusterReset_follows {μ : Nat} {b : State} {cl : Nat} {s : State} (hb : b.Follows μ s) {tt : State} (ee : execClusterReset cl s = .next tt)
    (okm : Sub 0x29e812190c53 μ := by exact Sub.trans (by assumption) (by decide)) :
    b.Follows μ tt := by
  unfold execClusterReset at ee
  first | refine onUnit_follows ?_ ee | cases ee
  repeat' (first
    | (with_reducible exact Sub.trans okm (by decide))
    | with_reducible assumption
    | (with_reducible apply State.clusterReset_follows)
    | (with_reducible apply State.ifUp_follows)
    | (intro _))

theorem execClusterResetDone_follows {μ : Nat} {b : State} {cl : Nat} {s : State} (hb : b.Follows μ s) {tt : State} (ee : execClusterResetDone cl s = .next tt)
    (okm : Sub 0x8000000000 μ := by exact Sub.trans (by assumption) (by decide)) :
    b.Follows μ tt := by
  unfold execClusterResetDone at ee
  first | refine onUnit_follows ?_ ee | cases ee
  repeat' (first
    | with_reducible assumption
    | (fail_if_no_progress with_reducible refine State.Follows.set_clReset ?_ (Sub.trans okm (by decide))))

theorem State.coreEnable_follows {μ : Nat} {b : State} {s : State} (cl : Nat) (mask : Nat) (hb : b.Follows μ s)
    (okm : Sub 0x290812190c53 μ := by exact Sub.trans (by assumption) (by decide)) :
    b.Follows μ (State.coreEnable s cl mask) := by
  unfold State.coreEnable
  repeat' (first
    | (with_reducible exact Sub.trans okm (by decide))
    | with_reducible assumption
    | (with_reducible apply State.fset_follows)
    | (with_reducible apply State.starve_follows))

theorem execCoreEnable_follows {μ : Nat} {b : State} {cl : Nat} {mask : BitVec 16} {s : State} (hb : b.Follows μ s) {tt : State} (ee : execCoreEnable cl mask s = .next tt)
    (okm : Sub 0x290812190c53 μ := by exact Sub.trans (by assumption) (by decide)) :
    b.Follows μ tt := by
  unfold execCoreEnable at ee
  first | refine onUnit_follows ?_ ee | cases ee
  repeat' (first
    | (with_reducible exact Sub.trans okm (by decide))
    | with_reducible assumption
    | (with_reducible apply State.coreEnable_follows)
    | (with_reducible apply State.ifUp_follows)
    | (intro _))

/-! ## Steps -/

theorem State.atStep_follows {μ : Nat} {b s : State} (cl core op : Nat) (f : Core → Nat → State) (hf : ∀ c w, b.Follows μ (f c w))
    (hb : b.Follows μ s)
    (okm : Sub 0x4000000000 μ := by exact Sub.trans (by assumption) (by decide)) : b.Follows μ (s.atStep cl core op f) := by
  unfold State.atStep
  split
  · exact State.dropCore_follows _ _ hb
  · split
    · split
      · exact hf _ _
      · exact hb
    · exact hb

theorem State.endStep_follows {μ : Nat} {b : State} {s : State} (cl : Nat) (core : Nat) (hb : b.Follows μ s)
    (okm : Sub 0x4000000000 μ := by exact Sub.trans (by assumption) (by decide)) :
    b.Follows μ (State.endStep s cl core) := by
  unfold State.endStep
  repeat' (first
    | (with_reducible exact Sub.trans okm (by decide))
    | with_reducible assumption
    | (with_reducible apply State.setCore_follows)
    | (with_reducible apply State.atStep_follows)
    | (intro _))

theorem State.loopStep_follows {μ : Nat} {b : State} {s : State} (cl : Nat) (core : Nat) (hb : b.Follows μ s)
    (okm : Sub 0x4000000000 μ := by exact Sub.trans (by assumption) (by decide)) :
    b.Follows μ (State.loopStep s cl core) := by
  unfold State.loopStep
  repeat' (first
    | (with_reducible exact Sub.trans okm (by decide))
    | with_reducible assumption
    | (with_reducible apply State.setCore_follows)
    | (with_reducible apply State.atStep_follows)
    | (intro _))

theorem State.endlStep_follows {μ : Nat} {b : State} {s : State} (cl : Nat) (core : Nat) (hb : b.Follows μ s)
    (okm : Sub 0x4000000000 μ := by exact Sub.trans (by assumption) (by decide)) :
    b.Follows μ (State.endlStep s cl core) := by
  unfold State.endlStep
  repeat' (first
    | (with_reducible exact Sub.trans okm (by decide))
    | with_reducible assumption
    | (with_reducible apply State.setCore_follows)
    | (with_reducible apply State.atStep_follows)
    | (intro _))

theorem execEndStep_follows {μ : Nat} {b : State} {cl : Nat} {core : Nat} {s : State} (hb : b.Follows μ s) {tt : State} (ee : execEndStep cl core s = .next tt)
    (okm : Sub 0x4000000000 μ := by exact Sub.trans (by assumption) (by decide)) :
    b.Follows μ tt := by
  unfold execEndStep at ee
  first | refine onUnit_follows ?_ ee | cases ee
  repeat' (first
    | (with_reducible exact Sub.trans okm (by decide))
    | with_reducible assumption
    | (with_reducible apply State.endStep_follows))

theorem execLoopStep_follows {μ : Nat} {b : State} {cl : Nat} {core : Nat} {s : State} (hb : b.Follows μ s) {tt : State} (ee : execLoopStep cl core s = .next tt)
    (okm : Sub 0x4000000000 μ := by exact Sub.trans (by assumption) (by decide)) :
    b.Follows μ tt := by
  unfold execLoopStep at ee
  first | refine onUnit_follows ?_ ee | cases ee
  repeat' (first
    | (with_reducible exact Sub.trans okm (by decide))
    | with_reducible assumption
    | (with_reducible apply State.loopStep_follows))

theorem execEndlStep_follows {μ : Nat} {b : State} {cl : Nat} {core : Nat} {s : State} (hb : b.Follows μ s) {tt : State} (ee : execEndlStep cl core s = .next tt)
    (okm : Sub 0x4000000000 μ := by exact Sub.trans (by assumption) (by decide)) :
    b.Follows μ tt := by
  unfold execEndlStep at ee
  first | refine onUnit_follows ?_ ee | cases ee
  repeat' (first
    | (with_reducible exact Sub.trans okm (by decide))
    | with_reducible assumption
    | (with_reducible apply State.endlStep_follows))

theorem State.noteWait_follows {μ : Nat} {b : State} {s : State} (id : Nat) (seg : Nat) (hb : b.Follows μ s)
    (okm : Sub 0x10000000000 μ := by exact Sub.trans (by assumption) (by decide)) :
    b.Follows μ (State.noteWait s id seg) := by
  unfold State.noteWait
  repeat' (first
    | (with_reducible exact Sub.trans okm (by decide))
    | with_reducible assumption
    | (with_reducible apply State.setPacket_follows)
    | (with_reducible apply State.Follows.ite)
    | (intro _)
    | split)

theorem State.noWait_follows {μ : Nat} {b : State} {s : State} (id : Nat) (seg : Nat) (hb : b.Follows μ s)
    (okm : Sub 0x10000000000 μ := by exact Sub.trans (by assumption) (by decide)) :
    b.Follows μ (State.noWait s id seg) := by
  unfold State.noWait
  repeat' (first
    | (with_reducible exact Sub.trans okm (by decide))
    | with_reducible assumption
    | (with_reducible apply State.setPacket_follows)
    | (with_reducible apply State.Follows.ite)
    | (intro _)
    | split)

theorem State.streamFetch_follows {μ : Nat} {b : State} {s : State} (cl : Nat) (core : Nat) (e : Nat) (slot : Nat) (hb : b.Follows μ s)
    (okm : Sub 0x294042190c5b μ := by exact Sub.trans (by assumption) (by decide)) :
    b.Follows μ (State.streamFetch s cl core e slot) := by
  unfold State.streamFetch
  repeat' (first
    | (with_reducible exact Sub.trans okm (by decide))
    | with_reducible assumption
    | (with_reducible apply State.pump_follows)
    | (with_reducible apply State.noWait_follows)
    | (with_reducible apply State.noteWait_follows)
    | (with_reducible apply State.tensAt_follows)
    | (with_reducible apply State.askFar_follows)
    | (with_reducible apply State.setCore_follows)
    | (with_reducible apply State.readMem_follows)
    | (refine State.Follows.fst (by with_reducible assumption) ?_)
    | (with_reducible apply State.Follows.ite)
    | (intro _)
    | split)

theorem execStreamFetch_follows {μ : Nat} {b : State} {cl : Nat} {core : Nat} {e : Nat} {src : Nat} {s : State} (hb : b.Follows μ s) {tt : State} (ee : execStreamFetch cl core e src s = .next tt)
    (okm : Sub 0x294042190c5b μ := by exact Sub.trans (by assumption) (by decide)) :
    b.Follows μ tt := by
  unfold execStreamFetch at ee
  first | refine onUnit_follows ?_ ee | cases ee
  repeat' (first
    | (with_reducible exact Sub.trans okm (by decide))
    | with_reducible assumption
    | (with_reducible apply State.streamFetch_follows))

theorem State.loadFail_follows {μ : Nat} {b : State} {s : State} (cl : Nat) (core : Nat) (c : Core) (st : PStatus) (addr : Nat) (hb : b.Follows μ s)
    (okm : Sub 0x90012000042 μ := by exact Sub.trans (by assumption) (by decide)) :
    b.Follows μ (State.loadFail s cl core c st addr) := by
  unfold State.loadFail
  repeat' (first
    | (with_reducible exact Sub.trans okm (by decide))
    | with_reducible assumption
    | (with_reducible apply State.fixPacket_follows)
    | (with_reducible apply State.raise_follows)
    | split
    | fail_if_no_progress extract_lets)

theorem State.loadRuns_follows {μ : Nat} {b s : State} (cl core w : Nat) : ∀ (n : Nat) (c : Core), b.Follows μ s →
    (okm : Sub 0x94012000042 μ := by exact Sub.trans (by assumption) (by decide)) → b.Follows μ (s.loadRuns cl core w n c)
  | 0, c, h, okm => State.setCore_follows _ _ _ h
  | n + 1, c, h, okm => by
    unfold State.loadRuns
    split
    · exact State.loadRuns_follows cl core w n _ h
    · exact State.loadFail_follows _ _ _ _ _ h
    · exact State.ev_follows _ _ _ (State.setCore_follows _ _ _ h)

theorem State.loadStep_follows {μ : Nat} {b : State} {s : State} (cl : Nat) (core : Nat) (hb : b.Follows μ s)
    (okm : Sub 0x94012000042 μ := by exact Sub.trans (by assumption) (by decide)) :
    b.Follows μ (State.loadStep s cl core) := by
  unfold State.loadStep
  repeat' (first
    | (with_reducible exact Sub.trans okm (by decide))
    | with_reducible assumption
    | (with_reducible apply State.loadRuns_follows)
    | (with_reducible apply State.atStep_follows)
    | (intro _))

theorem execLoadStep_follows {μ : Nat} {b : State} {cl : Nat} {core : Nat} {s : State} (hb : b.Follows μ s) {tt : State} (ee : execLoadStep cl core s = .next tt)
    (okm : Sub 0x94012000042 μ := by exact Sub.trans (by assumption) (by decide)) :
    b.Follows μ tt := by
  unfold execLoadStep at ee
  first | refine onUnit_follows ?_ ee | cases ee
  repeat' (first
    | (with_reducible exact Sub.trans okm (by decide))
    | with_reducible assumption
    | (with_reducible apply State.loadStep_follows))

theorem State.macStep_follows {μ : Nat} {b : State} {s : State} (cl : Nat) (core : Nat) (hb : b.Follows μ s)
    (okm : Sub 0x4000000002 μ := by exact Sub.trans (by assumption) (by decide)) :
    b.Follows μ (State.macStep s cl core) := by
  unfold State.macStep
  repeat' (first
    | (with_reducible exact Sub.trans okm (by decide))
    | with_reducible assumption
    | (with_reducible apply State.ev_follows)
    | (with_reducible apply State.setCore_follows)
    | (with_reducible apply State.atStep_follows)
    | (intro _))

theorem State.rmaxStep_follows {μ : Nat} {b : State} {s : State} (cl : Nat) (core : Nat) (hb : b.Follows μ s)
    (okm : Sub 0x4000000000 μ := by exact Sub.trans (by assumption) (by decide)) :
    b.Follows μ (State.rmaxStep s cl core) := by
  unfold State.rmaxStep
  repeat' (first
    | (with_reducible exact Sub.trans okm (by decide))
    | with_reducible assumption
    | (with_reducible apply State.setCore_follows)
    | (with_reducible apply State.atStep_follows)
    | (intro _))

theorem State.expStep_follows {μ : Nat} {b : State} {s : State} (cl : Nat) (core : Nat) (hb : b.Follows μ s)
    (okm : Sub 0x4000000002 μ := by exact Sub.trans (by assumption) (by decide)) :
    b.Follows μ (State.expStep s cl core) := by
  unfold State.expStep
  repeat' (first
    | (with_reducible exact Sub.trans okm (by decide))
    | with_reducible assumption
    | (with_reducible apply State.ev_follows)
    | (with_reducible apply State.setCore_follows)
    | (with_reducible apply State.atStep_follows)
    | (intro _))

theorem State.scaleStep_follows {μ : Nat} {b : State} {s : State} (cl : Nat) (core : Nat) (hb : b.Follows μ s)
    (okm : Sub 0x4000000000 μ := by exact Sub.trans (by assumption) (by decide)) :
    b.Follows μ (State.scaleStep s cl core) := by
  unfold State.scaleStep
  repeat' (first
    | (with_reducible exact Sub.trans okm (by decide))
    | with_reducible assumption
    | (with_reducible apply State.setCore_follows)
    | (with_reducible apply State.atStep_follows)
    | (intro _))

theorem State.topnStep_follows {μ : Nat} {b : State} {s : State} (cl : Nat) (core : Nat) (hb : b.Follows μ s)
    (okm : Sub 0x4000000000 μ := by exact Sub.trans (by assumption) (by decide)) :
    b.Follows μ (State.topnStep s cl core) := by
  unfold State.topnStep
  repeat' (first
    | (with_reducible exact Sub.trans okm (by decide))
    | with_reducible assumption
    | (with_reducible apply State.setCore_follows)
    | (with_reducible apply State.atStep_follows)
    | (intro _))

theorem execMacStep_follows {μ : Nat} {b : State} {cl : Nat} {core : Nat} {s : State} (hb : b.Follows μ s) {tt : State} (ee : execMacStep cl core s = .next tt)
    (okm : Sub 0x4000000002 μ := by exact Sub.trans (by assumption) (by decide)) :
    b.Follows μ tt := by
  unfold execMacStep at ee
  first | refine onUnit_follows ?_ ee | cases ee
  repeat' (first
    | (with_reducible exact Sub.trans okm (by decide))
    | with_reducible assumption
    | (with_reducible apply State.macStep_follows))

theorem execRmaxStep_follows {μ : Nat} {b : State} {cl : Nat} {core : Nat} {s : State} (hb : b.Follows μ s) {tt : State} (ee : execRmaxStep cl core s = .next tt)
    (okm : Sub 0x4000000000 μ := by exact Sub.trans (by assumption) (by decide)) :
    b.Follows μ tt := by
  unfold execRmaxStep at ee
  first | refine onUnit_follows ?_ ee | cases ee
  repeat' (first
    | (with_reducible exact Sub.trans okm (by decide))
    | with_reducible assumption
    | (with_reducible apply State.rmaxStep_follows))

theorem execExpStep_follows {μ : Nat} {b : State} {cl : Nat} {core : Nat} {s : State} (hb : b.Follows μ s) {tt : State} (ee : execExpStep cl core s = .next tt)
    (okm : Sub 0x4000000002 μ := by exact Sub.trans (by assumption) (by decide)) :
    b.Follows μ tt := by
  unfold execExpStep at ee
  first | refine onUnit_follows ?_ ee | cases ee
  repeat' (first
    | (with_reducible exact Sub.trans okm (by decide))
    | with_reducible assumption
    | (with_reducible apply State.expStep_follows))

theorem execScaleStep_follows {μ : Nat} {b : State} {cl : Nat} {core : Nat} {s : State} (hb : b.Follows μ s) {tt : State} (ee : execScaleStep cl core s = .next tt)
    (okm : Sub 0x4000000000 μ := by exact Sub.trans (by assumption) (by decide)) :
    b.Follows μ tt := by
  unfold execScaleStep at ee
  first | refine onUnit_follows ?_ ee | cases ee
  repeat' (first
    | (with_reducible exact Sub.trans okm (by decide))
    | with_reducible assumption
    | (with_reducible apply State.scaleStep_follows))

theorem execTopnStep_follows {μ : Nat} {b : State} {cl : Nat} {core : Nat} {s : State} (hb : b.Follows μ s) {tt : State} (ee : execTopnStep cl core s = .next tt)
    (okm : Sub 0x4000000000 μ := by exact Sub.trans (by assumption) (by decide)) :
    b.Follows μ tt := by
  unfold execTopnStep at ee
  first | refine onUnit_follows ?_ ee | cases ee
  repeat' (first
    | (with_reducible exact Sub.trans okm (by decide))
    | with_reducible assumption
    | (with_reducible apply State.topnStep_follows))

theorem State.storeStep_follows {μ : Nat} {b : State} {s : State} (cl : Nat) (core : Nat) (hb : b.Follows μ s)
    (okm : Sub 0x4000000000 μ := by exact Sub.trans (by assumption) (by decide)) :
    b.Follows μ (State.storeStep s cl core) := by
  unfold State.storeStep
  repeat' (first
    | (with_reducible exact Sub.trans okm (by decide))
    | with_reducible assumption
    | (with_reducible apply State.setCore_follows)
    | (with_reducible apply State.atStep_follows)
    | (intro _))

theorem execStoreStep_follows {μ : Nat} {b : State} {cl : Nat} {core : Nat} {s : State} (hb : b.Follows μ s) {tt : State} (ee : execStoreStep cl core s = .next tt)
    (okm : Sub 0x4000000000 μ := by exact Sub.trans (by assumption) (by decide)) :
    b.Follows μ tt := by
  unfold execStoreStep at ee
  first | refine onUnit_follows ?_ ee | cases ee
  repeat' (first
    | (with_reducible exact Sub.trans okm (by decide))
    | with_reducible assumption
    | (with_reducible apply State.storeStep_follows))

theorem State.emitEng_follows {μ : Nat} {b : State} {s : State} (cl : Nat) (core : Nat) (w : Nat) (c : Core) (e : Nat) (hb : b.Follows μ s)
    (okm : Sub 0x280002190c53 μ := by exact Sub.trans (by assumption) (by decide)) :
    b.Follows μ (State.emitEng s cl core w c e).1 := by
  unfold State.emitEng
  repeat' (first
    | (with_reducible exact Sub.trans okm (by decide))
    | with_reducible assumption
    | (with_reducible apply State.writeBytes_follows)
    | (with_reducible apply State.fsat_follows)
    | (with_reducible apply State.raise_follows)
    | (with_reducible apply State.Follows.ite)
    | (intro _))

theorem State.emitStep_follows {μ : Nat} {b : State} {s : State} (cl : Nat) (core : Nat) (hb : b.Follows μ s)
    (okm : Sub 0x294012190c53 μ := by exact Sub.trans (by assumption) (by decide)) :
    b.Follows μ (State.emitStep s cl core) := by
  unfold State.emitStep
  repeat' (first
    | (with_reducible exact Sub.trans okm (by decide))
    | with_reducible assumption
    | (with_reducible apply State.fixPacket_follows)
    | (with_reducible apply State.emitEng_follows)
    | (with_reducible apply State.setCore_follows)
    | (with_reducible apply State.atStep_follows)
    | (with_reducible apply State.Follows.foldlFst)
    | (with_reducible apply State.Follows.ite)
    | (intro _ _ _; beta_reduce)
    | (intro _)
    | split)

theorem execEmitStep_follows {μ : Nat} {b : State} {cl : Nat} {core : Nat} {s : State} (hb : b.Follows μ s) {tt : State} (ee : execEmitStep cl core s = .next tt)
    (okm : Sub 0x294012190c53 μ := by exact Sub.trans (by assumption) (by decide)) :
    b.Follows μ tt := by
  unfold execEmitStep at ee
  first | refine onUnit_follows ?_ ee | cases ee
  repeat' (first
    | (with_reducible exact Sub.trans okm (by decide))
    | with_reducible assumption
    | (with_reducible apply State.emitStep_follows))

/-! ## FarCmds -/

theorem State.dropFar_follows {μ : Nat} {b : State} {s : State} (r : FarReq) (hb : b.Follows μ s)
    (okm : Sub 0x40000000 μ := by exact Sub.trans (by assumption) (by decide)) :
    b.Follows μ (State.dropFar s r) := by
  unfold State.dropFar
  repeat' (first
    | with_reducible assumption
    | (fail_if_no_progress with_reducible refine State.Follows.set_far ?_ (Sub.trans okm (by decide))))

theorem State.streamIn_follows {μ : Nat} {b : State} {s : State} (cl : Nat) (core : Nat) (e : Nat) (slot : Nat) (g : Nat) (run : Nat) (st : PStatus) (d : Granule) (hb : b.Follows μ s)
    (okm : Sub 0x4000000000 μ := by exact Sub.trans (by assumption) (by decide)) :
    b.Follows μ (State.streamIn s cl core e slot g run st d) := by
  unfold State.streamIn
  repeat' (first
    | (with_reducible exact Sub.trans okm (by decide))
    | with_reducible assumption
    | (with_reducible apply State.setCore_follows)
    | (with_reducible apply State.Follows.ite)
    | (intro _)
    | split)

theorem State.unitIn_follows {μ : Nat} {b : State} {s : State} (id : Nat) (g : Nat) (st : PStatus) (d : Granule) (hb : b.Follows μ s)
    (okm : Sub 0x10000000000 μ := by exact Sub.trans (by assumption) (by decide)) :
    b.Follows μ (State.unitIn s id g st d) := by
  unfold State.unitIn
  repeat' (first
    | with_reducible assumption
    | (fail_if_no_progress with_reducible refine State.Follows.set_packets ?_ (Sub.trans okm (by decide)))
    | (with_reducible apply State.Follows.ite)
    | (intro _)
    | split)

theorem State.farDeliver_follows {μ : Nat} {b s t : State} {r : FarReq} {poison : Bool} {data : List Granule} (hb : b.Follows μ s)
    (ee : s.farDeliver r poison data = some t)
    (okm : Sub 0x29400a190c53 μ := by exact Sub.trans (by assumption) (by decide)) : b.Follows μ t := by
  unfold State.farDeliver at ee
  extract_lets st d at ee
  split at ee
  · exact State.blockIn_follows hb ee
  · simp only [Option.some.injEq] at ee; subst ee; exact State.passIn_follows _ _ _ _ _ _ hb
  · simp only [Option.some.injEq] at ee; subst ee
    exact State.ev_follows _ _ _ (State.streamIn_follows _ _ _ _ _ _ _ _ hb)
  · simp only [Option.some.injEq] at ee; subst ee
    exact State.ev_follows _ _ _ (State.unitIn_follows _ _ _ _ hb)

theorem State.farResponse_follows {μ : Nat} {b : State} {s : State} (ft : Nat) (tag : Nat) (poison : Bool) (data : List Granule) (hb : b.Follows μ s)
    (okm : Sub 0x29404a190c5b μ := by exact Sub.trans (by assumption) (by decide)) :
    b.Follows μ (State.farResponse s ft tag poison data) := by
  unfold State.farResponse
  repeat' (first
    | (with_reducible exact Sub.trans okm (by decide))
    | with_reducible assumption
    | (with_reducible apply State.pump_follows)
    | (with_reducible apply State.dropFar_follows)
    | (with_reducible refine State.farDeliver_follows (hb := ?_) (ee := by with_reducible assumption))
    | (with_reducible apply State.Follows.ite)
    | (intro _)
    | split)

theorem execFarResponse_follows {μ : Nat} {b : State} {ft : Nat} {tag : Nat} {poison : Bool} {data : List Granule} {s : State} (hb : b.Follows μ s) {tt : State} (ee : execFarResponse ft tag poison data s = .next tt)
    (okm : Sub 0x29404a190c5b μ := by exact Sub.trans (by assumption) (by decide)) :
    b.Follows μ tt := by
  unfold execFarResponse at ee
  first | refine onUnit_follows ?_ ee | cases ee
  repeat' (first
    | (with_reducible exact Sub.trans okm (by decide))
    | with_reducible assumption
    | (with_reducible apply State.farResponse_follows))

theorem State.farFailed_follows {μ : Nat} {b : State} {s : State} (r : FarReq) (hb : b.Follows μ s)
    (okm : Sub 0x29405a190c53 μ := by exact Sub.trans (by assumption) (by decide)) :
    b.Follows μ (State.farFailed s r) := by
  unfold State.farFailed
  repeat' (first
    | (with_reducible exact Sub.trans okm (by decide))
    | with_reducible assumption
    | (with_reducible apply State.setPart_follows)
    | (with_reducible apply State.fetchFailed_follows)
    | (with_reducible apply State.unitIn_follows)
    | (with_reducible apply State.streamIn_follows)
    | (with_reducible apply State.Follows.foldl)
    | (intro _ _ _; beta_reduce)
    | split)

theorem State.farTimeout_follows {μ : Nat} {b : State} {s : State} (ft : Nat) (tag : Nat) (hb : b.Follows μ s)
    (okm : Sub 0x29405a190c5b μ := by exact Sub.trans (by assumption) (by decide)) :
    b.Follows μ (State.farTimeout s ft tag) := by
  unfold State.farTimeout
  repeat' (first
    | (with_reducible exact Sub.trans okm (by decide))
    | with_reducible assumption
    | (with_reducible apply State.setPort_follows)
    | (with_reducible apply State.pump_follows)
    | (with_reducible apply State.farFailed_follows)
    | (with_reducible apply State.ev_follows)
    | (with_reducible apply State.log_follows)
    | (with_reducible apply State.raise_follows)
    | (with_reducible apply State.dropFar_follows)
    | (with_reducible apply State.emit_follows)
    | (fail_if_no_progress with_reducible refine State.Follows.set_far ?_ (Sub.trans okm (by decide)))
    | (with_reducible apply State.Follows.ite)
    | (intro _)
    | split)

theorem execFarTimeout_follows {μ : Nat} {b : State} {ft : Nat} {tag : Nat} {s : State} (hb : b.Follows μ s) {tt : State} (ee : execFarTimeout ft tag s = .next tt)
    (okm : Sub 0x29405a190c5b μ := by exact Sub.trans (by assumption) (by decide)) :
    b.Follows μ tt := by
  unfold execFarTimeout at ee
  first | refine onUnit_follows ?_ ee | cases ee
  repeat' (first
    | (with_reducible exact Sub.trans okm (by decide))
    | with_reducible assumption
    | (with_reducible apply State.farTimeout_follows))

theorem State.farCredits_follows {μ : Nat} {b : State} {s : State} (ft : Nat) (hdr : Nat) (wdat : Nat) (hb : b.Follows μ s)
    (okm : Sub 0x4000004a μ := by exact Sub.trans (by assumption) (by decide)) :
    b.Follows μ (State.farCredits s ft hdr wdat) := by
  unfold State.farCredits
  repeat' (first
    | (with_reducible exact Sub.trans okm (by decide))
    | with_reducible assumption
    | (with_reducible apply State.setPort_follows)
    | (with_reducible apply State.pump_follows)
    | (with_reducible apply State.Follows.ite)
    | (intro _))

theorem execFarCreditReturn_follows {μ : Nat} {b : State} {ft : Nat} {hdr : Nat} {wdat : Nat} {s : State} (hb : b.Follows μ s) {tt : State} (ee : execFarCreditReturn ft hdr wdat s = .next tt)
    (okm : Sub 0x4000004a μ := by exact Sub.trans (by assumption) (by decide)) :
    b.Follows μ tt := by
  unfold execFarCreditReturn at ee
  first | refine onUnit_follows ?_ ee | cases ee
  repeat' (first
    | (with_reducible exact Sub.trans okm (by decide))
    | with_reducible assumption
    | (with_reducible apply State.farCredits_follows))

theorem State.beginFetch_follows {μ : Nat} {b : State} {s : State} (f : Fetch) (hb : b.Follows μ s)
    (okm : Sub 0x8004800004a μ := by exact Sub.trans (by assumption) (by decide)) :
    b.Follows μ (State.beginFetch s f) := by
  unfold State.beginFetch
  repeat' (first
    | (with_reducible exact Sub.trans okm (by decide))
    | with_reducible assumption
    | (with_reducible apply State.pump_follows)
    | (with_reducible apply State.askFar_follows)
    | (with_reducible apply State.snoopFetch_follows)
    | (fail_if_no_progress with_reducible refine State.Follows.set_fetches ?_ (Sub.trans okm (by decide)))
    | (with_reducible apply State.Follows.foldl)
    | (intro _ _ _; beta_reduce))

theorem State.holdFrame_follows {μ : Nat} {b : State} {s : State} (seg : Nat) (k : FetchKind) (pf : Nat × Nat) (hb : b.Follows μ s)
    (okm : Sub 0x2000042 μ := by exact Sub.trans (by assumption) (by decide)) :
    b.Follows μ (State.holdFrame s seg k pf) := by
  unfold State.holdFrame
  repeat' (first
    | (with_reducible exact Sub.trans okm (by decide))
    | with_reducible assumption
    | (with_reducible apply State.setSeg_follows))

theorem State.noFrame_follows {μ : Nat} {b : State} {s : State} (f : Fetch) (hb : b.Follows μ s)
    (okm : Sub 0x1005000004a μ := by exact Sub.trans (by assumption) (by decide)) :
    b.Follows μ (State.noFrame s f) := by
  unfold State.noFrame
  repeat' (first
    | (with_reducible exact Sub.trans okm (by decide))
    | with_reducible assumption
    | (with_reducible apply State.passThrough_follows)
    | (fail_if_no_progress with_reducible refine State.Follows.set_demandQ ?_ (Sub.trans okm (by decide)))
    | (fail_if_no_progress with_reducible refine State.Follows.set_packets ?_ (Sub.trans okm (by decide)))
    | (with_reducible apply State.Follows.foldl)
    | (with_reducible apply State.Follows.ite)
    | (intro _ _ _; beta_reduce)
    | (intro _))

theorem State.startFetch_follows {μ : Nat} {b : State} {s' : State} (hb : b.Follows μ s')
    (okm : Sub 0x9007e00004a μ := by exact Sub.trans (by assumption) (by decide)) :
    b.Follows μ (State.startFetch s') := by
  unfold State.startFetch
  repeat' (first
    | (with_reducible exact Sub.trans okm (by decide))
    | with_reducible assumption
    | (with_reducible apply State.pump_follows)
    | (with_reducible apply State.beginFetch_follows)
    | (with_reducible apply State.ev_follows)
    | (with_reducible apply State.holdFrame_follows)
    | (with_reducible apply State.noFrame_follows)
    | (with_reducible apply State.takeFrame_follows)
    | (fail_if_no_progress with_reducible refine State.Follows.set_demandQ ?_ (Sub.trans okm (by decide)))
    | (fail_if_no_progress with_reducible refine State.Follows.set_prefetchQ ?_ (Sub.trans okm (by decide)))
    | (refine State.Follows.fst (by with_reducible assumption) ?_)
    | (with_reducible apply State.Follows.ite)
    | (intro _)
    | split)

theorem execSegmentFetchStart_follows {μ : Nat} {b : State} {s : State} (hb : b.Follows μ s) {tt : State} (ee : execSegmentFetchStart s = .next tt)
    (okm : Sub 0x9007e00004a μ := by exact Sub.trans (by assumption) (by decide)) :
    b.Follows μ tt := by
  unfold execSegmentFetchStart at ee
  first | refine onUnit_follows ?_ ee | cases ee
  repeat' (first
    | (with_reducible exact Sub.trans okm (by decide))
    | with_reducible assumption
    | (with_reducible apply State.startFetch_follows))

theorem State.fetchDone_follows {μ : Nat} {b : State} {s : State} (seg : Nat) (hb : b.Follows μ s)
    (okm : Sub 0x9000a000052 μ := by exact Sub.trans (by assumption) (by decide)) :
    b.Follows μ (State.fetchDone s seg) := by
  unfold State.fetchDone
  repeat' (first
    | (with_reducible exact Sub.trans okm (by decide))
    | with_reducible assumption
    | (with_reducible apply State.noWait_follows)
    | (with_reducible apply State.ev_follows)
    | (with_reducible apply State.setSeg_follows)
    | (with_reducible apply State.snoopEnd_follows)
    | (with_reducible apply State.releaseParked_follows)
    | (fail_if_no_progress with_reducible refine State.Follows.set_fetches ?_ (Sub.trans okm (by decide)))
    | (with_reducible apply State.Follows.foldl)
    | (with_reducible apply State.Follows.ite)
    | (intro _ _ _; beta_reduce)
    | (intro _)
    | split)

theorem execSegmentFetchDone_follows {μ : Nat} {b : State} {seg : Nat} {s : State} (hb : b.Follows μ s) {tt : State} (ee : execSegmentFetchDone seg s = .next tt)
    (okm : Sub 0x9000a000052 μ := by exact Sub.trans (by assumption) (by decide)) :
    b.Follows μ tt := by
  unfold execSegmentFetchDone at ee
  first | refine onUnit_follows ?_ ee | cases ee
  repeat' (first
    | (with_reducible exact Sub.trans okm (by decide))
    | with_reducible assumption
    | (with_reducible apply State.fetchDone_follows))

/-! ## RegOps -/

theorem State.resetRegs_follows {μ : Nat} {b : State} {s : State} (sel : Reg → List Nat → Bool) (keep : Reg → FieldDef → Bool) (hb : b.Follows μ s)
    (okm : Sub 0x2 μ := by exact Sub.trans (by assumption) (by decide)) :
    b.Follows μ (State.resetRegs s sel keep) := by
  unfold State.resetRegs
  repeat' (first
    | with_reducible assumption
    | (fail_if_no_progress with_reducible refine State.Follows.set_regs ?_ (Sub.trans okm (by decide))))

theorem State.localReset_follows {μ : Nat} {b : State} {s : State} (sc : Scope) (i : Nat) (hb : b.Follows μ s)
    (okm : Sub 0x6 μ := by exact Sub.trans (by assumption) (by decide)) :
    b.Follows μ (State.localReset s sc i) := by
  unfold State.localReset
  repeat' (first
    | (with_reducible exact Sub.trans okm (by decide))
    | with_reducible assumption
    | (with_reducible apply State.resetRegs_follows)
    | (fail_if_no_progress with_reducible refine State.Follows.set_pregs ?_ (Sub.trans okm (by decide))))

/-! ## Channels -/

theorem State.copyAccepted_follows {μ : Nat} {b : State} {s : State} (w : Waiting) (merging : Bool) (hb : b.Follows μ s)
    (okm : Sub 0x200005a μ := by exact Sub.trans (by assumption) (by decide)) :
    b.Follows μ (State.copyAccepted s w merging) := by
  unfold State.copyAccepted
  repeat' (first
    | (with_reducible exact Sub.trans okm (by decide))
    | with_reducible assumption
    | (with_reducible apply State.creditBack_follows)
    | (with_reducible apply State.setPart_follows)
    | (with_reducible apply State.Follows.ite)
    | (intro _))

theorem State.letIn_follows {μ : Nat} {b s t : State} {w : Waiting} (hb : b.Follows μ s) (ee : s.letIn w = some t)
    (okm : Sub 0x200045a μ := by exact Sub.trans (by assumption) (by decide)) : b.Follows μ t := by
  unfold State.letIn at ee
  extract_lets src keyGone at ee
  split at ee
  · simp only [Option.some.injEq] at ee
    subst ee
    exact State.creditBack_follows _ _ _ (State.deliver_follows _ _ _ _ hb)
  · split at ee
    · cases ee
    · split at ee
      · obtain ⟨u, hu, rfl⟩ := Option.map_eq_some_iff.mp ee
        exact State.setPart_follows _ _ _ _ (State.acceptRead_follows hb hu)
      · obtain ⟨u, hu, rfl⟩ := Option.map_eq_some_iff.mp ee
        obtain ⟨v, hv, hw⟩ := Option.bind_eq_some_iff.mp hu
        exact State.creditBack_follows _ _ _ (State.setPart_follows _ _ _ _
          (State.reserveMate_follows (State.acceptAtomic_follows hb hv) hw))
      · obtain ⟨⟨u, y⟩, hu, rfl⟩ := Option.map_eq_some_iff.mp ee
        exact State.copyAccepted_follows _ _ (State.acceptWrite_follows hb hu)

theorem State.admitFirst_follows {μ : Nat} {b s : State} (hb : b.Follows μ s) : ∀ (l : List Waiting)
    (okm : Sub 0x200045a μ := by exact Sub.trans (by assumption) (by decide)), b.Follows μ (s.admitFirst l)
  | [], _ => hb
  | w :: r, okm => by
    unfold State.admitFirst
    split
    · rename_i t h; exact State.letIn_follows hb h
    · exact State.admitFirst_follows hb r

theorem execPccAdmit_follows {μ : Nat} {b : State} {pc : Nat} {s : State} (hb : b.Follows μ s) {tt : State} (ee : execPccAdmit pc s = .next tt)
    (okm : Sub 0x200045a μ := by exact Sub.trans (by assumption) (by decide)) :
    b.Follows μ tt := by
  unfold execPccAdmit at ee
  first | refine onUnit_follows ?_ ee | cases ee
  repeat' (first
    | (with_reducible exact Sub.trans okm (by decide))
    | with_reducible assumption
    | (with_reducible apply State.admitFirst_follows))

theorem State.doAct_follows {μ : Nat} {b : State} {s : State} (pc : Nat) (c : Cand) (t : Nat) (hb : b.Follows μ s)
    (okm : Sub 0x403 μ := by exact Sub.trans (by assumption) (by decide)) :
    b.Follows μ (State.doAct s pc c t) := by
  unfold State.doAct
  repeat' (first
    | (with_reducible exact Sub.trans okm (by decide))
    | with_reducible assumption
    | (with_reducible apply State.tickTo_follows)
    | (with_reducible apply State.setPcc_follows)
    | (with_reducible apply State.ev_follows))

theorem State.stepAct_follows {μ : Nat} {b : State} {s : State} (pc : Nat) (hb : b.Follows μ s)
    (okm : Sub 0x403 μ := by exact Sub.trans (by assumption) (by decide)) :
    b.Follows μ (State.stepAct s pc) := by
  unfold State.stepAct
  repeat' (first
    | (with_reducible exact Sub.trans okm (by decide))
    | with_reducible assumption
    | (with_reducible apply State.doAct_follows)
    | (with_reducible apply State.turnStep_follows)
    | (with_reducible apply State.Follows.ite)
    | (intro _)
    | split
    | fail_if_no_progress extract_lets)

theorem execAct_follows {μ : Nat} {b : State} {pc : Nat} {s : State} (hb : b.Follows μ s) {tt : State} (ee : execAct pc s = .next tt)
    (okm : Sub 0x403 μ := by exact Sub.trans (by assumption) (by decide)) :
    b.Follows μ tt := by
  unfold execAct at ee
  first | refine onUnit_follows ?_ ee | cases ee
  repeat' (first
    | (with_reducible exact Sub.trans okm (by decide))
    | with_reducible assumption
    | (with_reducible apply State.stepAct_follows))

theorem State.doPre_follows {μ : Nat} {b : State} {s : State} (pc : Nat) (x2 : Nat) (t : Nat) (hb : b.Follows μ s)
    (okm : Sub 0x403 μ := by exact Sub.trans (by assumption) (by decide)) :
    b.Follows μ (State.doPre s pc x2 t) := by
  unfold State.doPre
  repeat' (first
    | (with_reducible exact Sub.trans okm (by decide))
    | with_reducible assumption
    | (with_reducible apply State.tickTo_follows)
    | (with_reducible apply State.setPcc_follows))

theorem State.stepPre_follows {μ : Nat} {b : State} {s : State} (pc : Nat) (hb : b.Follows μ s)
    (okm : Sub 0x403 μ := by exact Sub.trans (by assumption) (by decide)) :
    b.Follows μ (State.stepPre s pc) := by
  unfold State.stepPre
  repeat' (first
    | (with_reducible exact Sub.trans okm (by decide))
    | with_reducible assumption
    | (with_reducible apply State.doPre_follows)
    | (with_reducible apply State.turnStep_follows)
    | (with_reducible apply State.Follows.ite)
    | (intro _)
    | split
    | fail_if_no_progress extract_lets)

theorem execPre_follows {μ : Nat} {b : State} {pc : Nat} {s : State} (hb : b.Follows μ s) {tt : State} (ee : execPre pc s = .next tt)
    (okm : Sub 0x403 μ := by exact Sub.trans (by assumption) (by decide)) :
    b.Follows μ tt := by
  unfold execPre at ee
  first | refine onUnit_follows ?_ ee | cases ee
  repeat' (first
    | (with_reducible exact Sub.trans okm (by decide))
    | with_reducible assumption
    | (with_reducible apply State.stepPre_follows))

theorem State.doRef_follows {μ : Nat} {b : State} {s : State} (pc : Nat) (x2 : Nat) (t : Nat) (hb : b.Follows μ s)
    (okm : Sub 0x403 μ := by exact Sub.trans (by assumption) (by decide)) :
    b.Follows μ (State.doRef s pc x2 t) := by
  unfold State.doRef
  repeat' (first
    | (with_reducible exact Sub.trans okm (by decide))
    | with_reducible assumption
    | (with_reducible apply State.tickTo_follows)
    | (with_reducible apply State.setPcc_follows)
    | (with_reducible apply State.ev_follows)
    | (with_reducible apply State.Follows.ite)
    | (intro _))

theorem State.stepRef_follows {μ : Nat} {b : State} {s : State} (pc : Nat) (hb : b.Follows μ s)
    (okm : Sub 0x403 μ := by exact Sub.trans (by assumption) (by decide)) :
    b.Follows μ (State.stepRef s pc) := by
  unfold State.stepRef
  repeat' (first
    | (with_reducible exact Sub.trans okm (by decide))
    | with_reducible assumption
    | (with_reducible apply State.doRef_follows)
    | (with_reducible apply State.turnStep_follows)
    | (with_reducible apply State.Follows.ite)
    | (intro _)
    | split
    | fail_if_no_progress extract_lets)

theorem execRefpb_follows {μ : Nat} {b : State} {pc : Nat} {s : State} (hb : b.Follows μ s) {tt : State} (ee : execRefpb pc s = .next tt)
    (okm : Sub 0x403 μ := by exact Sub.trans (by assumption) (by decide)) :
    b.Follows μ tt := by
  unfold execRefpb at ee
  first | refine onUnit_follows ?_ ee | cases ee
  repeat' (first
    | (with_reducible exact Sub.trans okm (by decide))
    | with_reducible assumption
    | (with_reducible apply State.stepRef_follows))

theorem State.stepTick_follows {μ : Nat} {b : State} {s : State} (pc : Nat) (hb : b.Follows μ s)
    (okm : Sub 0x400 μ := by exact Sub.trans (by assumption) (by decide)) :
    b.Follows μ (State.stepTick s pc) := by
  unfold State.stepTick
  repeat' (first
    | (with_reducible exact Sub.trans okm (by decide))
    | with_reducible assumption
    | (with_reducible apply State.setPcc_follows)
    | (with_reducible apply State.Follows.ite)
    | (intro _))

theorem execEscapementTick_follows {μ : Nat} {b : State} {pc : Nat} {s : State} (hb : b.Follows μ s) {tt : State} (ee : execEscapementTick pc s = .next tt)
    (okm : Sub 0x400 μ := by exact Sub.trans (by assumption) (by decide)) :
    b.Follows μ tt := by
  unfold execEscapementTick at ee
  first | refine onUnit_follows ?_ ee | cases ee
  repeat' (first
    | (with_reducible exact Sub.trans okm (by decide))
    | with_reducible assumption
    | (with_reducible apply State.stepTick_follows))

theorem State.afterCol_follows {μ : Nat} {b : State} {s : State} (pc : Nat) (x2 : Nat) (t : Nat) (wr : Bool) (hb : b.Follows μ s)
    (okm : Sub 0x402 μ := by exact Sub.trans (by assumption) (by decide)) :
    b.Follows μ (State.afterCol s pc x2 t wr) := by
  unfold State.afterCol
  repeat' (first
    | (with_reducible exact Sub.trans okm (by decide))
    | with_reducible assumption
    | (with_reducible apply State.setPcc_follows)
    | (with_reducible apply State.ev_follows)
    | (with_reducible apply State.Follows.ite)
    | (intro _))

theorem State.countTurn_follows {μ : Nat} {b : State} {s : State} (pc : Nat) (hb : b.Follows μ s)
    (okm : Sub 0x400 μ := by exact Sub.trans (by assumption) (by decide)) :
    b.Follows μ (State.countTurn s pc) := by
  unfold State.countTurn
  repeat' (first
    | (with_reducible exact Sub.trans okm (by decide))
    | with_reducible assumption
    | (with_reducible apply State.setPcc_follows))

theorem State.doRd_follows {μ : Nat} {b : State} {s : State} (pc : Nat) (c : Cand) (t : Nat) (hb : b.Follows μ s)
    (okm : Sub 0x403 μ := by exact Sub.trans (by assumption) (by decide)) :
    b.Follows μ (State.doRd s pc c t) := by
  unfold State.doRd
  repeat' (first
    | (with_reducible exact Sub.trans okm (by decide))
    | with_reducible assumption
    | (with_reducible apply State.tickTo_follows)
    | (with_reducible apply State.countTurn_follows)
    | (with_reducible apply State.afterCol_follows)
    | (with_reducible apply State.setPcc_follows)
    | (with_reducible apply State.ev_follows)
    | (with_reducible apply State.Follows.ite)
    | (intro _)
    | split)

theorem State.doWr_follows {μ : Nat} {b : State} {s : State} (pc : Nat) (c : Cand) (t : Nat) (hb : b.Follows μ s)
    (okm : Sub 0x2000c53 μ := by exact Sub.trans (by assumption) (by decide)) :
    b.Follows μ (State.doWr s pc c t) := by
  unfold State.doWr
  repeat' (first
    | (with_reducible exact Sub.trans okm (by decide))
    | with_reducible assumption
    | (with_reducible apply State.tickTo_follows)
    | (with_reducible apply State.countTurn_follows)
    | (with_reducible apply State.afterCol_follows)
    | (with_reducible apply State.issueWrite_follows)
    | (with_reducible apply State.issueMerge_follows)
    | (with_reducible apply State.Follows.ite)
    | (intro _)
    | split
    | fail_if_no_progress extract_lets)

theorem State.stepRd_follows {μ : Nat} {b : State} {s : State} (pc : Nat) (hb : b.Follows μ s)
    (okm : Sub 0x403 μ := by exact Sub.trans (by assumption) (by decide)) :
    b.Follows μ (State.stepRd s pc) := by
  unfold State.stepRd
  repeat' (first
    | (with_reducible exact Sub.trans okm (by decide))
    | with_reducible assumption
    | (with_reducible apply State.turnStep_follows)
    | (with_reducible apply State.doRd_follows)
    | (with_reducible apply State.Follows.ite)
    | (intro _)
    | split)

theorem State.stepWr_follows {μ : Nat} {b : State} {s : State} (pc : Nat) (hb : b.Follows μ s)
    (okm : Sub 0x2000c53 μ := by exact Sub.trans (by assumption) (by decide)) :
    b.Follows μ (State.stepWr s pc) := by
  unfold State.stepWr
  repeat' (first
    | (with_reducible exact Sub.trans okm (by decide))
    | with_reducible assumption
    | (with_reducible apply State.turnStep_follows)
    | (with_reducible apply State.doWr_follows)
    | (with_reducible apply State.Follows.ite)
    | (intro _)
    | split)

theorem execRd_follows {μ : Nat} {b : State} {pc : Nat} {s : State} (hb : b.Follows μ s) {tt : State} (ee : execRd pc s = .next tt)
    (okm : Sub 0x403 μ := by exact Sub.trans (by assumption) (by decide)) :
    b.Follows μ tt := by
  unfold execRd at ee
  first | refine onUnit_follows ?_ ee | cases ee
  repeat' (first
    | (with_reducible exact Sub.trans okm (by decide))
    | with_reducible assumption
    | (with_reducible apply State.stepRd_follows))

theorem execWr_follows {μ : Nat} {b : State} {pc : Nat} {s : State} (hb : b.Follows μ s) {tt : State} (ee : execWr pc s = .next tt)
    (okm : Sub 0x2000c53 μ := by exact Sub.trans (by assumption) (by decide)) :
    b.Follows μ tt := by
  unfold execWr at ee
  first | refine onUnit_follows ?_ ee | cases ee
  repeat' (first
    | (with_reducible exact Sub.trans okm (by decide))
    | with_reducible assumption
    | (with_reducible apply State.stepWr_follows))

theorem State.stickNoise_follows {μ : Nat} {b : State} {s : State} (pl : Place) (h : Nat) (noise : List (Nat × Byte)) (sticky : Bool) (hb : b.Follows μ s)
    (okm : Sub 0x800 μ := by exact Sub.trans (by assumption) (by decide)) :
    b.Follows μ (State.stickNoise s pl h noise sticky) := by
  unfold State.stickNoise
  repeat' (first
    | (with_reducible exact Sub.trans okm (by decide))
    | with_reducible assumption
    | (with_reducible apply State.putRaw_follows)
    | (with_reducible apply State.Follows.ite)
    | (intro _))

theorem State.stepReturn_follows {μ : Nat} {b : State} {s : State} (pc : Nat) (noise : List (Nat × Byte)) (sticky : Bool) (hb : b.Follows μ s)
    (okm : Sub 0x80002090c53 μ := by exact Sub.trans (by assumption) (by decide)) :
    b.Follows μ (State.stepReturn s pc noise sticky) := by
  unfold State.stepReturn
  repeat' (first
    | (with_reducible exact Sub.trans okm (by decide))
    | with_reducible assumption
    | (with_reducible apply State.tickTo_follows)
    | (with_reducible apply State.setPcc_follows)
    | (with_reducible apply State.stickNoise_follows)
    | (with_reducible apply State.sectorBack_follows)
    | (with_reducible apply State.Follows.ite)
    | (intro _)
    | split
    | fail_if_no_progress extract_lets)

theorem execReadReturn_follows {μ : Nat} {b : State} {pc : Nat} {noise : List (Nat × Byte)} {sticky : Bool} {s : State} (hb : b.Follows μ s) {tt : State} (ee : execReadReturn pc noise sticky s = .next tt)
    (okm : Sub 0x80002090c53 μ := by exact Sub.trans (by assumption) (by decide)) :
    b.Follows μ tt := by
  unfold execReadReturn at ee
  first | refine onUnit_follows ?_ ee | cases ee
  repeat' (first
    | (with_reducible exact Sub.trans okm (by decide))
    | with_reducible assumption
    | (with_reducible apply State.stepReturn_follows))

theorem State.stepReread_follows {μ : Nat} {b : State} {s : State} (pc : Nat) (noise : List (Nat × Byte)) (sticky : Bool) (hb : b.Follows μ s)
    (okm : Sub 0x80002090c53 μ := by exact Sub.trans (by assumption) (by decide)) :
    b.Follows μ (State.stepReread s pc noise sticky) := by
  unfold State.stepReread
  repeat' (first
    | (with_reducible exact Sub.trans okm (by decide))
    | with_reducible assumption
    | (with_reducible apply State.tickTo_follows)
    | (with_reducible apply State.setPcc_follows)
    | (with_reducible apply State.stickNoise_follows)
    | (with_reducible apply State.rereadBack_follows)
    | (with_reducible apply State.Follows.ite)
    | (intro _)
    | split
    | fail_if_no_progress extract_lets)

theorem execUeReread_follows {μ : Nat} {b : State} {pc : Nat} {noise : List (Nat × Byte)} {sticky : Bool} {s : State} (hb : b.Follows μ s) {tt : State} (ee : execUeReread pc noise sticky s = .next tt)
    (okm : Sub 0x80002090c53 μ := by exact Sub.trans (by assumption) (by decide)) :
    b.Follows μ tt := by
  unfold execUeReread at ee
  first | refine onUnit_follows ?_ ee | cases ee
  repeat' (first
    | (with_reducible exact Sub.trans okm (by decide))
    | with_reducible assumption
    | (with_reducible apply State.stepReread_follows))

theorem State.stepLeak_follows {μ : Nat} {b : State} {s : State} (pc : Nat) (hb : b.Follows μ s)
    (okm : Sub 0x400 μ := by exact Sub.trans (by assumption) (by decide)) :
    b.Follows μ (State.stepLeak s pc) := by
  unfold State.stepLeak
  repeat' (first
    | (with_reducible exact Sub.trans okm (by decide))
    | with_reducible assumption
    | (with_reducible apply State.setPcc_follows))

theorem execCeLeak_follows {μ : Nat} {b : State} {pc : Nat} {s : State} (hb : b.Follows μ s) {tt : State} (ee : execCeLeak pc s = .next tt)
    (okm : Sub 0x400 μ := by exact Sub.trans (by assumption) (by decide)) :
    b.Follows μ tt := by
  unfold execCeLeak at ee
  first | refine onUnit_follows ?_ ee | cases ee
  repeat' (first
    | (with_reducible exact Sub.trans okm (by decide))
    | with_reducible assumption
    | (with_reducible apply State.stepLeak_follows))

theorem State.stepMerge_follows {μ : Nat} {b : State} {s : State} (pc : Nat) (hb : b.Follows μ s)
    (okm : Sub 0x2000452 μ := by exact Sub.trans (by assumption) (by decide)) :
    b.Follows μ (State.stepMerge s pc) := by
  unfold State.stepMerge
  repeat' (first
    | (with_reducible exact Sub.trans okm (by decide))
    | with_reducible assumption
    | (with_reducible apply State.mergeRelease_follows)
    | split
    | fail_if_no_progress extract_lets)

theorem execMergeRelease_follows {μ : Nat} {b : State} {pc : Nat} {s : State} (hb : b.Follows μ s) {tt : State} (ee : execMergeRelease pc s = .next tt)
    (okm : Sub 0x2000452 μ := by exact Sub.trans (by assumption) (by decide)) :
    b.Follows μ tt := by
  unfold execMergeRelease at ee
  first | refine onUnit_follows ?_ ee | cases ee
  repeat' (first
    | (with_reducible exact Sub.trans okm (by decide))
    | with_reducible assumption
    | (with_reducible apply State.stepMerge_follows))

/-! ## Parse -/

theorem State.haltRing_follows {μ : Nat} {b : State} {s : State} (n : Nat) (q : Nat) (g : Granule) (hb : b.Follows μ s)
    (okm : Sub 0x280002190c5b μ := by exact Sub.trans (by assumption) (by decide)) :
    b.Follows μ (State.haltRing s n q g) := by
  unfold State.haltRing
  repeat' (first
    | (with_reducible exact Sub.trans okm (by decide))
    | with_reducible assumption
    | (with_reducible apply State.setPort_follows)
    | (with_reducible apply State.log_follows)
    | (with_reducible apply State.postReply_follows))

theorem State.takeIn_follows {μ : Nat} {b : State} {s : State} (p : Packet) (hb : b.Follows μ s)
    (okm : Sub 0x10000000042 μ := by exact Sub.trans (by assumption) (by decide)) :
    b.Follows μ (State.takeIn s p) := by
  unfold State.takeIn
  repeat' (first
    | (with_reducible exact Sub.trans okm (by decide))
    | with_reducible assumption
    | (with_reducible apply State.setPort_follows)
    | (with_reducible apply State.setPacket_follows)
    | (with_reducible apply State.ev_follows)
    | (with_reducible apply State.Follows.ite)
    | (intro _)
    | split)

theorem State.parseOne_follows {μ : Nat} {b : State} {s : State} (n : Nat) (hb : b.Follows μ s)
    (okm : Sub 0x290002190c7b μ := by exact Sub.trans (by assumption) (by decide)) :
    b.Follows μ (State.parseOne s n) := by
  unfold State.parseOne
  repeat' (first
    | (with_reducible exact Sub.trans okm (by decide))
    | with_reducible assumption
    | (with_reducible apply State.setPort_follows)
    | (with_reducible apply State.haltRing_follows)
    | (with_reducible apply State.freshId_follows)
    | (with_reducible apply State.takeIn_follows)
    | (with_reducible apply State.Follows.ite)
    | (intro _)
    | split)

theorem execParsePacket_follows {μ : Nat} {b : State} {n : Nat} {s : State} (hb : b.Follows μ s) {tt : State} (ee : execParsePacket n s = .next tt)
    (okm : Sub 0x290002190c7b μ := by exact Sub.trans (by assumption) (by decide)) :
    b.Follows μ tt := by
  unfold execParsePacket at ee
  first | refine onUnit_follows ?_ ee | cases ee
  repeat' (first
    | (with_reducible exact Sub.trans okm (by decide))
    | with_reducible assumption
    | (with_reducible apply State.parseOne_follows))

/-! ## PortCtl -/

theorem State.finishCopy_follows {μ : Nat} {b : State} {s : State} (r : PortReq) (i : Nat) (pl : Place) (hb : b.Follows μ s)
    (okm : Sub 0x280002190c53 μ := by exact Sub.trans (by assumption) (by decide)) :
    b.Follows μ (State.finishCopy s r i pl) := by
  unfold State.finishCopy
  repeat' (first
    | (with_reducible exact Sub.trans okm (by decide))
    | with_reducible assumption
    | (with_reducible apply State.writePlace_follows)
    | (with_reducible apply State.readPlace_follows)
    | (refine State.Follows.fst (by with_reducible assumption) ?_)
    | split
    | fail_if_no_progress extract_lets)

theorem State.finishSilently_follows {μ : Nat} {b : State} {s : State} (n : Nat) (r : PortReq) (hb : b.Follows μ s)
    (okm : Sub 0x280072190d5b μ := by exact Sub.trans (by assumption) (by decide)) :
    b.Follows μ (State.finishSilently s n r) := by
  unfold State.finishSilently
  repeat' (first
    | (with_reducible exact Sub.trans okm (by decide))
    | with_reducible assumption
    | (with_reducible apply State.finishCopy_follows)
    | (with_reducible apply State.charge_follows)
    | (with_reducible apply State.mapStage_follows)
    | (with_reducible apply State.Follows.foldl)
    | (with_reducible apply State.Follows.ite)
    | (intro _ _ _; beta_reduce)
    | (intro _)
    | split)

theorem State.endPackets_follows {μ : Nat} {b : State} {s : State} (n : Nat) (hb : b.Follows μ s)
    (okm : Sub 0x2b2812190c5b μ := by exact Sub.trans (by assumption) (by decide)) :
    b.Follows μ (State.endPackets s n) := by
  unfold State.endPackets
  repeat' (first
    | (with_reducible exact Sub.trans okm (by decide))
    | with_reducible assumption
    | (with_reducible apply State.setPacket_follows)
    | (with_reducible apply State.fixPacket_follows)
    | (with_reducible apply State.retirePacket_follows)
    | (with_reducible apply State.Follows.foldl)
    | (with_reducible apply State.Follows.ite)
    | (intro _ _ _; beta_reduce)
    | (intro _)
    | split)

theorem State.portClear_follows {μ : Nat} {b : State} {s : State} (n : Nat) (hb : b.Follows μ s)
    (okm : Sub 0x2b2872190d5b μ := by exact Sub.trans (by assumption) (by decide)) :
    b.Follows μ (State.portClear s n) := by
  unfold State.portClear
  repeat' (first
    | (with_reducible exact Sub.trans okm (by decide))
    | with_reducible assumption
    | (with_reducible apply State.finishSilently_follows)
    | (with_reducible apply State.setPort_follows)
    | (with_reducible apply State.snoopEnd_follows)
    | (with_reducible apply State.endPackets_follows)
    | (with_reducible apply State.Follows.foldl)
    | (intro _ _ _; beta_reduce))

theorem State.readyFalls_follows {μ : Nat} {b : State} {s : State} (n : Nat) (hb : b.Follows μ s)
    (okm : Sub 0x8 μ := by exact Sub.trans (by assumption) (by decide)) :
    b.Follows μ (State.readyFalls s n) := by
  unfold State.readyFalls
  repeat' (first
    | (with_reducible exact Sub.trans okm (by decide))
    | with_reducible assumption
    | (with_reducible apply State.emit_follows)
    | (with_reducible apply State.Follows.ite)
    | (intro _))

theorem State.portReset_follows {μ : Nat} {b : State} {s : State} (n : Nat) (hb : b.Follows μ s)
    (okm : Sub 0x2b2872190d5f μ := by exact Sub.trans (by assumption) (by decide)) :
    b.Follows μ (State.portReset s n) := by
  unfold State.portReset
  repeat' (first
    | (with_reducible exact Sub.trans okm (by decide))
    | with_reducible assumption
    | (with_reducible apply State.setPort_follows)
    | (with_reducible apply State.fsat_follows)
    | (with_reducible apply State.portClear_follows)
    | (with_reducible apply State.readyFalls_follows)
    | (with_reducible apply State.log_follows)
    | (with_reducible apply State.localReset_follows)
    | (with_reducible apply State.Follows.ite)
    | (intro _))

theorem execPortReset_follows {μ : Nat} {b : State} {n : Nat} {s : State} (hb : b.Follows μ s) {tt : State} (ee : execPortReset n s = .next tt)
    (okm : Sub 0x2b2872190d5f μ := by exact Sub.trans (by assumption) (by decide)) :
    b.Follows μ tt := by
  unfold execPortReset at ee
  first | refine onUnit_follows ?_ ee | cases ee
  repeat' (first
    | (with_reducible exact Sub.trans okm (by decide))
    | with_reducible assumption
    | (with_reducible apply State.portReset_follows))

theorem State.portRelease_follows {μ : Nat} {b : State} {s : State} (n : Nat) (prev : Nat) (hb : b.Follows μ s)
    (okm : Sub 0x48 μ := by exact Sub.trans (by assumption) (by decide)) :
    b.Follows μ (State.portRelease s n prev) := by
  unfold State.portRelease
  repeat' (first
    | (with_reducible exact Sub.trans okm (by decide))
    | with_reducible assumption
    | (with_reducible apply State.setPort_follows)
    | (with_reducible apply State.emit_follows)
    | (with_reducible apply State.Follows.ite)
    | (intro _))

theorem execPortResetRelease_follows {μ : Nat} {b : State} {n : Nat} {prev : Nat} {s : State} (hb : b.Follows μ s) {tt : State} (ee : execPortResetRelease n prev s = .next tt)
    (okm : Sub 0x48 μ := by exact Sub.trans (by assumption) (by decide)) :
    b.Follows μ tt := by
  unfold execPortResetRelease at ee
  first | refine onUnit_follows ?_ ee | cases ee
  repeat' (first
    | (with_reducible exact Sub.trans okm (by decide))
    | with_reducible assumption
    | (with_reducible apply State.portRelease_follows))

theorem State.comparePrev_follows {μ : Nat} {b : State} {s : State} (n : Nat) (prev : Nat) (drev : Nat) (hb : b.Follows μ s)
    (okm : Sub 0x2 μ := by exact Sub.trans (by assumption) (by decide)) :
    b.Follows μ (State.comparePrev s n prev drev) := by
  unfold State.comparePrev
  repeat' (first
    | (with_reducible exact Sub.trans okm (by decide))
    | with_reducible assumption
    | (with_reducible apply State.rput_follows)
    | (with_reducible apply State.Follows.ite)
    | (intro _))

theorem State.portReady_follows {μ : Nat} {b : State} {s : State} (n : Nat) (hb : b.Follows μ s)
    (okm : Sub 0x4a μ := by exact Sub.trans (by assumption) (by decide)) :
    b.Follows μ (State.portReady s n) := by
  unfold State.portReady
  repeat' (first
    | (with_reducible exact Sub.trans okm (by decide))
    | with_reducible assumption
    | (with_reducible apply State.setPort_follows)
    | (with_reducible apply State.raise_follows)
    | (with_reducible apply State.comparePrev_follows)
    | (with_reducible apply State.emit_follows)
    | (with_reducible apply State.Follows.ite)
    | (intro _))

theorem execPortReady_follows {μ : Nat} {b : State} {n : Nat} {s : State} (hb : b.Follows μ s) {tt : State} (ee : execPortReady n s = .next tt)
    (okm : Sub 0x4a μ := by exact Sub.trans (by assumption) (by decide)) :
    b.Follows μ tt := by
  unfold execPortReady at ee
  first | refine onUnit_follows ?_ ee | cases ee
  repeat' (first
    | (with_reducible exact Sub.trans okm (by decide))
    | with_reducible assumption
    | (with_reducible apply State.portReady_follows))

theorem State.portUp_follows {μ : Nat} {b : State} {s : State} (n : Nat) (hb : b.Follows μ s)
    (okm : Sub 0x40 μ := by exact Sub.trans (by assumption) (by decide)) :
    b.Follows μ (State.portUp s n) := by
  unfold State.portUp
  repeat' (first
    | (with_reducible exact Sub.trans okm (by decide))
    | with_reducible assumption
    | (with_reducible apply State.setPort_follows)
    | (with_reducible apply State.Follows.ite)
    | (intro _))

theorem State.portDown_follows {μ : Nat} {b : State} {s : State} (n : Nat) (hb : b.Follows μ s)
    (okm : Sub 0x2b2872190d5b μ := by exact Sub.trans (by assumption) (by decide)) :
    b.Follows μ (State.portDown s n) := by
  unfold State.portDown
  repeat' (first
    | (with_reducible exact Sub.trans okm (by decide))
    | with_reducible assumption
    | (with_reducible apply State.setPort_follows)
    | (with_reducible apply State.portClear_follows)
    | (with_reducible apply State.readyFalls_follows)
    | (with_reducible apply State.Follows.ite)
    | (intro _))

theorem State.portDrained_follows {μ : Nat} {b : State} {s : State} (n : Nat) (hb : b.Follows μ s)
    (okm : Sub 0x40 μ := by exact Sub.trans (by assumption) (by decide)) :
    b.Follows μ (State.portDrained s n) := by
  unfold State.portDrained
  repeat' (first
    | (with_reducible exact Sub.trans okm (by decide))
    | with_reducible assumption
    | (with_reducible apply State.setPort_follows)
    | (with_reducible apply State.Follows.ite)
    | (intro _))

theorem execPortDrainDone_follows {μ : Nat} {b : State} {n : Nat} {s : State} (hb : b.Follows μ s) {tt : State} (ee : execPortDrainDone n s = .next tt)
    (okm : Sub 0x40 μ := by exact Sub.trans (by assumption) (by decide)) :
    b.Follows μ tt := by
  unfold execPortDrainDone at ee
  first | refine onUnit_follows ?_ ee | cases ee
  repeat' (first
    | (with_reducible exact Sub.trans okm (by decide))
    | with_reducible assumption
    | (with_reducible apply State.portDrained_follows))

theorem State.portCfgWrite_follows {μ : Nat} {b : State} {s : State} (n : Nat) (w : Word) (hb : b.Follows μ s)
    (okm : Sub 0x2b2872190d5b μ := by exact Sub.trans (by assumption) (by decide)) :
    b.Follows μ (State.portCfgWrite s n w) := by
  unfold State.portCfgWrite
  repeat' (first
    | (with_reducible exact Sub.trans okm (by decide))
    | with_reducible assumption
    | (with_reducible apply State.portUp_follows)
    | (with_reducible apply State.portDown_follows)
    | (with_reducible apply State.rput_follows)
    | (with_reducible apply State.Follows.ite)
    | (intro _))

/-! ## Tensor -/

theorem State.ocShort_follows {μ : Nat} {b : State} {s : State} (hb : b.Follows μ s)
    (okm : Sub 0x2 μ := by exact Sub.trans (by assumption) (by decide)) :
    b.Follows μ (State.ocShort s) := by
  unfold State.ocShort
  repeat' (first
    | (with_reducible exact Sub.trans okm (by decide))
    | with_reducible assumption
    | (with_reducible apply State.fset_follows)
    | (with_reducible apply State.Follows.foldl)
    | (with_reducible apply State.Follows.ite)
    | (intro _ _ _; beta_reduce)
    | (intro _))

theorem State.doMap_follows {μ : Nat} {b : State} {s : State} (p : Packet) (hb : b.Follows μ s)
    (okm : Sub 0x90012000042 μ := by exact Sub.trans (by assumption) (by decide)) :
    b.Follows μ (State.doMap s p) := by
  unfold State.doMap
  repeat' (first
    | (with_reducible exact Sub.trans okm (by decide))
    | with_reducible assumption
    | (with_reducible apply State.fset_follows)
    | (with_reducible apply State.ocShort_follows)
    | (with_reducible apply State.setSeg_follows)
    | (with_reducible apply State.fixPacket_follows)
    | (with_reducible apply State.log_follows)
    | (with_reducible apply State.Follows.foldl)
    | (with_reducible apply State.Follows.ite)
    | (intro _ _ _; beta_reduce)
    | (intro _))

theorem State.unmapOne_follows {μ : Nat} {b : State} {s : State} (g : Nat) (hb : b.Follows μ s)
    (okm : Sub 0x8007a000052 μ := by exact Sub.trans (by assumption) (by decide)) :
    b.Follows μ (State.unmapOne s g) := by
  unfold State.unmapOne
  repeat' (first
    | (with_reducible exact Sub.trans okm (by decide))
    | with_reducible assumption
    | (with_reducible apply State.setSeg_follows)
    | (with_reducible apply State.endParked_follows)
    | (with_reducible apply State.stopFetch_follows)
    | (fail_if_no_progress with_reducible refine State.Follows.set_demandQ_prefetchQ ?_ (Sub.trans okm (by decide)))
    | (with_reducible apply State.Follows.ite)
    | (intro _))

theorem State.dropModel_follows {μ : Nat} {b : State} {s : State} (m : Nat) (hb : b.Follows μ s)
    (okm : Sub 0x2 μ := by exact Sub.trans (by assumption) (by decide)) :
    b.Follows μ (State.dropModel s m) := by
  unfold State.dropModel
  repeat' (first
    | (with_reducible exact Sub.trans okm (by decide))
    | with_reducible assumption
    | (with_reducible apply State.fset_follows)
    | (with_reducible apply State.Follows.ite)
    | (intro _))

theorem State.doUnmap_follows {μ : Nat} {b : State} {s : State} (p : Packet) (hb : b.Follows μ s)
    (okm : Sub 0x9007a000052 μ := by exact Sub.trans (by assumption) (by decide)) :
    b.Follows μ (State.doUnmap s p) := by
  unfold State.doUnmap
  repeat' (first
    | (with_reducible exact Sub.trans okm (by decide))
    | with_reducible assumption
    | (with_reducible apply State.fixPacket_follows)
    | (with_reducible apply State.dropModel_follows)
    | (with_reducible apply State.unmapOne_follows)
    | (with_reducible apply State.ocRecompute_follows)
    | (with_reducible apply State.Follows.foldl)
    | (intro _ _ _; beta_reduce))

theorem State.runMap_follows {μ : Nat} {b : State} {s : State} (id : Nat) (hb : b.Follows μ s)
    (okm : Sub 0xb007a000052 μ := by exact Sub.trans (by assumption) (by decide)) :
    b.Follows μ (State.runMap s id) := by
  unfold State.runMap
  repeat' (first
    | (with_reducible exact Sub.trans okm (by decide))
    | with_reducible assumption
    | (with_reducible apply State.doUnmap_follows)
    | (with_reducible apply State.doMap_follows)
    | (with_reducible apply State.fixPacket_follows)
    | (with_reducible refine State.takeFw_follows (hb := ?_) (ee := by with_reducible assumption))
    | (with_reducible apply State.Follows.ite)
    | (intro _)
    | split)

theorem execTensorMap_follows {μ : Nat} {b : State} {id : Nat} {s : State} (hb : b.Follows μ s) {tt : State} (ee : execTensorMap id s = .next tt)
    (okm : Sub 0xb007a000052 μ := by exact Sub.trans (by assumption) (by decide)) :
    b.Follows μ tt := by
  unfold execTensorMap at ee
  first | refine onUnit_follows ?_ ee | cases ee
  repeat' (first
    | (with_reducible exact Sub.trans okm (by decide))
    | with_reducible assumption
    | (with_reducible apply State.runMap_follows))

theorem State.reserveSeg_follows {μ : Nat} {b : State} {s : State} (g : Nat) (hb : b.Follows μ s)
    (okm : Sub 0x36000042 μ := by exact Sub.trans (by assumption) (by decide)) :
    b.Follows μ (State.reserveSeg s g) := by
  unfold State.reserveSeg
  repeat' (first
    | (with_reducible exact Sub.trans okm (by decide))
    | with_reducible assumption
    | (with_reducible apply State.demandFetch_follows)
    | (with_reducible apply State.holdFrame_follows)
    | (with_reducible apply State.takeFrame_follows)
    | (fail_if_no_progress with_reducible refine State.Follows.set_demandQ_prefetchQ ?_ (Sub.trans okm (by decide)))
    | (refine State.Follows.fst (by with_reducible assumption) ?_)
    | (with_reducible apply State.Follows.ite)
    | (intro _)
    | split)

theorem State.pinGo_follows {μ : Nat} {b : State} {s : State} (p : Packet) (hb : b.Follows μ s)
    (okm : Sub 0x90036000042 μ := by exact Sub.trans (by assumption) (by decide)) :
    b.Follows μ (State.pinGo s p) := by
  unfold State.pinGo
  repeat' (first
    | (with_reducible exact Sub.trans okm (by decide))
    | with_reducible assumption
    | (with_reducible apply State.setPacket_follows)
    | (with_reducible apply State.setSeg_follows)
    | (with_reducible apply State.fixPacket_follows)
    | (with_reducible apply State.reserveSeg_follows)
    | (with_reducible apply State.Follows.foldl)
    | (with_reducible apply State.Follows.ite)
    | (intro _ _ _; beta_reduce)
    | (intro _))

theorem State.runPin_follows {μ : Nat} {b : State} {s : State} (id : Nat) (hb : b.Follows μ s)
    (okm : Sub 0xb0036000042 μ := by exact Sub.trans (by assumption) (by decide)) :
    b.Follows μ (State.runPin s id) := by
  unfold State.runPin
  repeat' (first
    | (with_reducible exact Sub.trans okm (by decide))
    | with_reducible assumption
    | (with_reducible apply State.fixPacket_follows)
    | (with_reducible apply State.pinGo_follows)
    | (with_reducible refine State.takeFw_follows (hb := ?_) (ee := by with_reducible assumption))
    | (with_reducible apply State.Follows.ite)
    | (intro _)
    | split)

theorem execTensorPin_follows {μ : Nat} {b : State} {id : Nat} {s : State} (hb : b.Follows μ s) {tt : State} (ee : execTensorPin id s = .next tt)
    (okm : Sub 0xb0036000042 μ := by exact Sub.trans (by assumption) (by decide)) :
    b.Follows μ tt := by
  unfold execTensorPin at ee
  first | refine onUnit_follows ?_ ee | cases ee
  repeat' (first
    | (with_reducible exact Sub.trans okm (by decide))
    | with_reducible assumption
    | (with_reducible apply State.runPin_follows))

theorem State.runUnpin_follows {μ : Nat} {b : State} {s : State} (id : Nat) (hb : b.Follows μ s)
    (okm : Sub 0xb0012000042 μ := by exact Sub.trans (by assumption) (by decide)) :
    b.Follows μ (State.runUnpin s id) := by
  unfold State.runUnpin
  repeat' (first
    | (with_reducible exact Sub.trans okm (by decide))
    | with_reducible assumption
    | (with_reducible apply State.setSeg_follows)
    | (with_reducible apply State.fixPacket_follows)
    | (with_reducible refine State.takeFw_follows (hb := ?_) (ee := by with_reducible assumption))
    | (with_reducible apply State.Follows.foldl)
    | (intro _ _ _; beta_reduce)
    | split)

theorem execTensorUnpin_follows {μ : Nat} {b : State} {id : Nat} {s : State} (hb : b.Follows μ s) {tt : State} (ee : execTensorUnpin id s = .next tt)
    (okm : Sub 0xb0012000042 μ := by exact Sub.trans (by assumption) (by decide)) :
    b.Follows μ tt := by
  unfold execTensorUnpin at ee
  first | refine onUnit_follows ?_ ee | cases ee
  repeat' (first
    | (with_reducible exact Sub.trans okm (by decide))
    | with_reducible assumption
    | (with_reducible apply State.runUnpin_follows))

theorem State.pfQueue_follows {μ : Nat} {b : State} {s : State} (p : Packet) (hb : b.Follows μ s)
    (okm : Sub 0x90032000042 μ := by exact Sub.trans (by assumption) (by decide)) :
    b.Follows μ (State.pfQueue s p) := by
  unfold State.pfQueue
  repeat' (first
    | (with_reducible exact Sub.trans okm (by decide))
    | with_reducible assumption
    | (with_reducible apply State.ev_follows)
    | (with_reducible apply State.fixPacket_follows)
    | (fail_if_no_progress with_reducible refine State.Follows.set_prefetchQ ?_ (Sub.trans okm (by decide))))

theorem State.gatherStart_follows {μ : Nat} {b : State} {s : State} (p : Packet) (hb : b.Follows μ s)
    (okm : Sub 0x290012190c53 μ := by exact Sub.trans (by assumption) (by decide)) :
    b.Follows μ (State.gatherStart s p) := by
  unfold State.gatherStart
  repeat' (first
    | (with_reducible exact Sub.trans okm (by decide))
    | with_reducible assumption
    | (with_reducible apply State.setPacket_follows)
    | (with_reducible apply State.fixPacket_follows)
    | (with_reducible apply State.readBytes_follows)
    | (refine State.Follows.fst (by with_reducible assumption) ?_)
    | split
    | fail_if_no_progress extract_lets)

theorem State.unitRead_follows {μ : Nat} {b : State} {s : State} (id : Nat) (x : Nat) (n : Nat) (hb : b.Follows μ s)
    (okm : Sub 0x290072190c5b μ := by exact Sub.trans (by assumption) (by decide)) :
    b.Follows μ (State.unitRead s id x n).1 := by
  unfold State.unitRead
  repeat' (first
    | (with_reducible exact Sub.trans okm (by decide))
    | with_reducible assumption
    | (with_reducible apply State.packTens_follows)
    | (with_reducible apply State.Follows.foldlFst)
    | (refine State.Follows.fst (by with_reducible assumption) ?_)
    | (intro _ _ _; beta_reduce)
    | split)

theorem State.markSegs_follows {μ : Nat} {b : State} {s : State} (id : Nat) (gs : List Nat) (hb : b.Follows μ s)
    (okm : Sub 0x10000000000 μ := by exact Sub.trans (by assumption) (by decide)) :
    b.Follows μ (State.markSegs s id gs) := by
  unfold State.markSegs
  repeat' (first
    | (with_reducible exact Sub.trans okm (by decide))
    | with_reducible assumption
    | (with_reducible apply State.setPacket_follows)
    | split)

theorem State.rowRead_follows {μ : Nat} {b : State} {s : State} (id : Nat) (gs : List Nat) (hb : b.Follows μ s)
    (okm : Sub 0x10002000042 μ := by exact Sub.trans (by assumption) (by decide)) :
    b.Follows μ (State.rowRead s id gs) := by
  unfold State.rowRead
  repeat' (first
    | (with_reducible exact Sub.trans okm (by decide))
    | with_reducible assumption
    | (with_reducible apply State.touchSeg_follows)
    | (with_reducible apply State.setPacket_follows)
    | (with_reducible apply State.Follows.foldl)
    | (intro _ _ _; beta_reduce)
    | split
    | fail_if_no_progress extract_lets)

theorem State.rowEvents_follows {μ : Nat} {b : State} {s : State} (cl : Nat) (sat : Nat) (nan : Bool) (segs : List Nat) (hb : b.Follows μ s)
    (okm : Sub 0x12 μ := by exact Sub.trans (by assumption) (by decide)) :
    b.Follows μ (State.rowEvents s cl sat nan segs) := by
  unfold State.rowEvents
  repeat' (first
    | (with_reducible exact Sub.trans okm (by decide))
    | with_reducible assumption
    | (with_reducible apply State.builtEvent_follows)
    | (with_reducible apply State.fsat_follows)
    | (with_reducible apply State.raise_follows)
    | split)

theorem State.rowUnits_follows {μ : Nat} {b : State} {s : State} (id : Nat) (p : Packet) (r : Nat) (hb : b.Follows μ s)
    (okm : Sub 0x290072190c5b μ := by exact Sub.trans (by assumption) (by decide)) :
    b.Follows μ (State.rowUnits s id p r).1 := by
  unfold State.rowUnits
  repeat' (first
    | (with_reducible exact Sub.trans okm (by decide))
    | with_reducible assumption
    | (with_reducible apply State.unitRead_follows)
    | (with_reducible apply State.Follows.foldlFst)
    | (refine State.Follows.fst (by with_reducible assumption) ?_)
    | (intro _ _ _; beta_reduce)
    | split
    | fail_if_no_progress extract_lets)

theorem State.gatherRow_follows {μ : Nat} {b : State} {s : State} (id : Nat) (hb : b.Follows μ s)
    (okm : Sub 0x290072190c5b μ := by exact Sub.trans (by assumption) (by decide)) :
    b.Follows μ (State.gatherRow s id) := by
  unfold State.gatherRow
  repeat' (first
    | (with_reducible exact Sub.trans okm (by decide))
    | with_reducible assumption
    | (with_reducible apply State.builtEvent_follows)
    | (with_reducible apply State.writeBytes_follows)
    | (with_reducible apply State.endGather_follows)
    | (with_reducible apply State.setPacket_follows)
    | (with_reducible apply State.fixPacket_follows)
    | (with_reducible apply State.rowUnits_follows)
    | (with_reducible apply State.rowEvents_follows)
    | (with_reducible apply State.rowRead_follows)
    | (with_reducible apply State.markSegs_follows)
    | (refine State.Follows.fst (by with_reducible assumption) ?_)
    | (with_reducible apply State.Follows.ite)
    | (intro _)
    | split
    | fail_if_no_progress extract_lets)

theorem State.gatherRun_follows {μ : Nat} {b : State} {s : State} (id : Nat) (hb : b.Follows μ s)
    (okm : Sub 0x290072190c5b μ := by exact Sub.trans (by assumption) (by decide)) :
    b.Follows μ (State.gatherRun s id) := by
  unfold State.gatherRun
  repeat' (first
    | (with_reducible exact Sub.trans okm (by decide))
    | with_reducible assumption
    | (with_reducible apply State.gatherRow_follows)
    | (with_reducible apply State.Follows.foldl)
    | (with_reducible apply State.Follows.ite)
    | (intro _ _ _; beta_reduce)
    | (intro _)
    | split)

theorem State.runPrefetch_follows {μ : Nat} {b : State} {s : State} (id : Nat) (hb : b.Follows μ s)
    (okm : Sub 0x2b0072190c5b μ := by exact Sub.trans (by assumption) (by decide)) :
    b.Follows μ (State.runPrefetch s id) := by
  unfold State.runPrefetch
  repeat' (first
    | (with_reducible exact Sub.trans okm (by decide))
    | with_reducible assumption
    | (with_reducible apply State.pfQueue_follows)
    | (with_reducible apply State.fixPacket_follows)
    | (with_reducible apply State.gatherRun_follows)
    | (with_reducible apply State.gatherStart_follows)
    | (with_reducible refine State.takeFw_follows (hb := ?_) (ee := by with_reducible assumption))
    | (with_reducible apply State.Follows.ite)
    | (intro _)
    | split
    | fail_if_no_progress extract_lets)

theorem execPrefetch_follows {μ : Nat} {b : State} {id : Nat} {s : State} (hb : b.Follows μ s) {tt : State} (ee : execPrefetch id s = .next tt)
    (okm : Sub 0x2b0072190c5b μ := by exact Sub.trans (by assumption) (by decide)) :
    b.Follows μ tt := by
  unfold execPrefetch at ee
  first | refine onUnit_follows ?_ ee | cases ee
  repeat' (first
    | (with_reducible exact Sub.trans okm (by decide))
    | with_reducible assumption
    | (with_reducible apply State.runPrefetch_follows))

end Sys2Proof.Machine
end

