-- ==== Sys2Proof/Laws/FollowsDevice.lean ====
section
/-! SUPPORT. What each operation may do to the fields of State.Follows, one lemma per operation: links, repair, security,
heat, resets and the register window. -/
namespace Sys2Proof.Machine

set_option Elab.async false
set_option linter.unusedVariables false
set_option linter.unusedTactic false
set_option linter.unreachableTactic false

/-! ## Recorder -/

theorem State.nvmPut_follows {μ : Nat} {b : State} {s : State} (a : Nat) (w : Word) (hb : b.Follows μ s)
    (okm : Sub 0x100000000000 μ := by exact Sub.trans (by assumption) (by decide)) :
    b.Follows μ (State.nvmPut s a w) := by
  unfold State.nvmPut
  repeat' (first
    | with_reducible assumption
    | (fail_if_no_progress with_reducible refine State.Follows.set_nvm ?_ (Sub.trans okm (by decide))))

theorem State.nvmWrite_follows {μ : Nat} {b : State} {s : State} (a : Nat) (w : Word) (hb : b.Follows μ s)
    (okm : Sub 0x100000000000 μ := by exact Sub.trans (by assumption) (by decide)) :
    b.Follows μ (State.nvmWrite s a w) := by
  unfold State.nvmWrite
  repeat' (first
    | (with_reducible exact Sub.trans okm (by decide))
    | with_reducible assumption
    | (with_reducible apply State.nvmPut_follows)
    | (with_reducible apply State.Follows.ite)
    | (intro _))

theorem execNvmWordWrite_follows {μ : Nat} {b : State} {a : Nat} {w : Word} {s : State} (hb : b.Follows μ s) {tt : State} (ee : execNvmWordWrite a w s = .next tt)
    (okm : Sub 0x100000000000 μ := by exact Sub.trans (by assumption) (by decide)) :
    b.Follows μ tt := by
  unfold execNvmWordWrite at ee
  first | refine onUnit_follows ?_ ee | cases ee
  repeat' (first
    | (with_reducible exact Sub.trans okm (by decide))
    | with_reducible assumption
    | (with_reducible apply State.nvmWrite_follows)
    | (with_reducible apply State.Follows.ite)
    | (intro _))

theorem State.putWords_follows {μ : Nat} {b : State} {s : State} (a : Nat) (ws : List Nat) (hb : b.Follows μ s)
    (okm : Sub 0x100000000000 μ := by exact Sub.trans (by assumption) (by decide)) :
    b.Follows μ (State.putWords s a ws) := by
  unfold State.putWords
  repeat' (first
    | (with_reducible exact Sub.trans okm (by decide))
    | with_reducible assumption
    | (with_reducible apply State.nvmPut_follows)
    | (with_reducible apply State.Follows.foldl)
    | (intro _ _ _; beta_reduce))

theorem State.ledgerWrite_follows {μ : Nat} {b : State} {s : State} (r : Rec) (hb : b.Follows μ s)
    (okm : Sub 0x180000000000 μ := by exact Sub.trans (by assumption) (by decide)) :
    b.Follows μ (State.ledgerWrite s r) := by
  unfold State.ledgerWrite
  repeat' (first
    | (with_reducible exact Sub.trans okm (by decide))
    | with_reducible assumption
    | (with_reducible apply State.putWords_follows)
    | (fail_if_no_progress with_reducible refine State.Follows.set_obs ?_ (Sub.trans okm (by decide))))

theorem State.msWrite_follows {μ : Nat} {b : State} {s : State} (st : Nat) (r : Rec) (hb : b.Follows μ s)
    (okm : Sub 0x180000000002 μ := by exact Sub.trans (by assumption) (by decide)) :
    b.Follows μ (State.msWrite s st r) := by
  unfold State.msWrite
  repeat' (first
    | (with_reducible exact Sub.trans okm (by decide))
    | with_reducible assumption
    | (with_reducible apply State.putWords_follows)
    | (with_reducible apply State.raise_follows)
    | (fail_if_no_progress with_reducible refine State.Follows.set_obs ?_ (Sub.trans okm (by decide)))
    | (with_reducible apply State.Follows.ite)
    | (intro _))

theorem State.dropRecord_follows {μ : Nat} {b : State} {s : State} (hb : b.Follows μ s)
    (okm : Sub 0x80000000002 μ := by exact Sub.trans (by assumption) (by decide)) :
    b.Follows μ (State.dropRecord s) := by
  unfold State.dropRecord
  repeat' (first
    | (with_reducible exact Sub.trans okm (by decide))
    | with_reducible assumption
    | (with_reducible apply State.log_follows)
    | (with_reducible apply State.raise_follows)
    | (fail_if_no_progress with_reducible refine State.Follows.set_obs ?_ (Sub.trans okm (by decide)))
    | (with_reducible apply State.Follows.ite)
    | (intro _))

theorem State.recordWrite_follows {μ : Nat} {b : State} {s : State} (hb : b.Follows μ s)
    (okm : Sub 0x180000000002 μ := by exact Sub.trans (by assumption) (by decide)) :
    b.Follows μ (State.recordWrite s) := by
  unfold State.recordWrite
  repeat' (first
    | (with_reducible exact Sub.trans okm (by decide))
    | with_reducible assumption
    | (with_reducible apply State.ledgerWrite_follows)
    | (with_reducible apply State.dropRecord_follows)
    | (with_reducible apply State.msWrite_follows)
    | (fail_if_no_progress with_reducible refine State.Follows.set_obs ?_ (Sub.trans okm (by decide)))
    | (with_reducible apply State.Follows.ite)
    | (intro _)
    | split
    | fail_if_no_progress extract_lets)

theorem execRecordWrite_follows {μ : Nat} {b : State} {s : State} (hb : b.Follows μ s) {tt : State} (ee : execRecordWrite s = .next tt)
    (okm : Sub 0x180000000002 μ := by exact Sub.trans (by assumption) (by decide)) :
    b.Follows μ tt := by
  unfold execRecordWrite at ee
  first | refine onUnit_follows ?_ ee | cases ee
  repeat' (first
    | (with_reducible exact Sub.trans okm (by decide))
    | with_reducible assumption
    | (with_reducible apply State.recordWrite_follows))

theorem State.logNow_follows {μ : Nat} {b : State} {s : State} (ty : RecTy) (src : Nat) (sub : Nat) (a0 : Nat) (a1 : Nat) (hb : b.Follows μ s)
    (okm : Sub 0x180000000000 μ := by exact Sub.trans (by assumption) (by decide)) :
    b.Follows μ (State.logNow s ty src sub a0 a1) := by
  unfold State.logNow
  repeat' (first
    | (with_reducible exact Sub.trans okm (by decide))
    | with_reducible assumption
    | (with_reducible apply State.ledgerWrite_follows))

theorem State.clearRequest_follows {μ : Nat} {b s : State} (target : Nat) (hb : b.Follows μ s)
    (okm : Sub 0x80000000010 μ := by exact Sub.trans (by assumption) (by decide)) : b.Follows μ (s.clearRequest target) := by
  unfold State.clearRequest
  split
  · exact hb
  · exact ⟨hb.queue, hb.clock, hb.shown, Nat.le_succ_of_le hb.drawn, hb.ids, hb.memory,
    hb.keep okm State.mix_free_obs⟩

theorem execLogClearRequest_follows {μ : Nat} {b : State} {target : Nat} {s : State} (hb : b.Follows μ s) {tt : State} (ee : execLogClearRequest target s = .next tt)
    (okm : Sub 0x80000000010 μ := by exact Sub.trans (by assumption) (by decide)) :
    b.Follows μ tt := by
  unfold execLogClearRequest at ee
  first | refine onUnit_follows ?_ ee | cases ee
  repeat' (first
    | (with_reducible exact Sub.trans okm (by decide))
    | with_reducible assumption
    | (with_reducible apply State.clearRequest_follows)
    | (with_reducible apply State.ifUp_follows)
    | (intro _))

theorem execNonceExpire_follows {μ : Nat} {b : State} {s : State} (hb : b.Follows μ s) {tt : State} (ee : execNonceExpire s = .next tt)
    (okm : Sub 0x80000000000 μ := by exact Sub.trans (by assumption) (by decide)) :
    b.Follows μ tt := by
  unfold execNonceExpire at ee
  first | refine onUnit_follows ?_ ee | cases ee
  repeat' (first
    | with_reducible assumption
    | (fail_if_no_progress with_reducible refine State.Follows.set_obs ?_ (Sub.trans okm (by decide))))

theorem State.zeroDone_follows {μ : Nat} {b : State} {s : State} (hb : b.Follows μ s)
    (okm : Sub 0x80000000002 μ := by exact Sub.trans (by assumption) (by decide)) :
    b.Follows μ (State.zeroDone s) := by
  unfold State.zeroDone
  repeat' (first
    | (with_reducible exact Sub.trans okm (by decide))
    | with_reducible assumption
    | (with_reducible apply State.raise_follows)
    | (fail_if_no_progress with_reducible refine State.Follows.set_obs ?_ (Sub.trans okm (by decide)))
    | split)

theorem execClearZeroingDone_follows {μ : Nat} {b : State} {s : State} (hb : b.Follows μ s) {tt : State} (ee : execClearZeroingDone s = .next tt)
    (okm : Sub 0x80000000002 μ := by exact Sub.trans (by assumption) (by decide)) :
    b.Follows μ tt := by
  unfold execClearZeroingDone at ee
  first | refine onUnit_follows ?_ ee | cases ee
  repeat' (first
    | (with_reducible exact Sub.trans okm (by decide))
    | with_reducible assumption
    | (with_reducible apply State.zeroDone_follows))

theorem State.clearLog_follows {μ : Nat} {b : State} {s0 : State} (target : Nat) (hb : b.Follows μ s0)
    (okm : Sub 0x180000000002 μ := by exact Sub.trans (by assumption) (by decide)) :
    b.Follows μ (State.clearLog s0 target) := by
  unfold State.clearLog
  repeat' (first
    | (with_reducible exact Sub.trans okm (by decide))
    | with_reducible assumption
    | (with_reducible apply State.logNow_follows)
    | (with_reducible apply State.zeroDone_follows)
    | (fail_if_no_progress with_reducible refine State.Follows.set_obs_nvm ?_ (Sub.trans okm (by decide)))
    | (with_reducible apply State.Follows.ite)
    | (intro _))

theorem State.keyLogClear_follows {μ : Nat} {b : State} {s : State} (target : Nat) (nonce : Nat) (hb : b.Follows μ s)
    (okm : Sub 0x18000000000a μ := by exact Sub.trans (by assumption) (by decide)) :
    b.Follows μ (State.keyLogClear s target nonce) := by
  unfold State.keyLogClear
  repeat' (first
    | (with_reducible exact Sub.trans okm (by decide))
    | with_reducible assumption
    | (with_reducible apply State.fsat_follows)
    | (with_reducible apply State.clearLog_follows)
    | (with_reducible apply State.emit_follows)
    | (with_reducible apply State.Follows.ite)
    | (intro _))

theorem execLogClear_follows {μ : Nat} {b : State} {target : Nat} {nonce : Nat} {s : State} (hb : b.Follows μ s) {tt : State} (ee : execLogClear target nonce s = .next tt)
    (okm : Sub 0x18000000000a μ := by exact Sub.trans (by assumption) (by decide)) :
    b.Follows μ tt := by
  unfold execLogClear at ee
  first | refine onUnit_follows ?_ ee | cases ee
  repeat' (first
    | (with_reducible exact Sub.trans okm (by decide))
    | with_reducible assumption
    | (with_reducible apply State.keyLogClear_follows)
    | (with_reducible apply State.Follows.ite)
    | (intro _))

theorem State.hoursTick_follows {μ : Nat} {b : State} {s : State} (hb : b.Follows μ s)
    (okm : Sub 0x80000000000 μ := by exact Sub.trans (by assumption) (by decide)) :
    b.Follows μ (State.hoursTick s) := by
  unfold State.hoursTick
  repeat' (first
    | with_reducible assumption
    | (fail_if_no_progress with_reducible refine State.Follows.set_obs ?_ (Sub.trans okm (by decide)))
    | (with_reducible apply State.Follows.ite)
    | (intro _))

theorem execHoursTick_follows {μ : Nat} {b : State} {s : State} (hb : b.Follows μ s) {tt : State} (ee : execHoursTick s = .next tt)
    (okm : Sub 0x80000000000 μ := by exact Sub.trans (by assumption) (by decide)) :
    b.Follows μ tt := by
  unfold execHoursTick at ee
  first | refine onUnit_follows ?_ ee | cases ee
  repeat' (first
    | (with_reducible exact Sub.trans okm (by decide))
    | with_reducible assumption
    | (with_reducible apply State.hoursTick_follows))

/-! ## Counters -/

theorem State.pmcConfig_follows {μ : Nat} {b : State} {s : State} (i : Nat) (w : Word) (hb : b.Follows μ s)
    (okm : Sub 0x2 μ := by exact Sub.trans (by assumption) (by decide)) :
    b.Follows μ (State.pmcConfig s i w) := by
  unfold State.pmcConfig
  repeat' (first
    | (with_reducible exact Sub.trans okm (by decide))
    | with_reducible assumption
    | (with_reducible apply State.rput_follows)
    | (with_reducible apply State.Follows.ite)
    | (intro _))

theorem execPmcConfig_follows {μ : Nat} {b : State} {i : Nat} {w : Word} {s : State} (hb : b.Follows μ s) {tt : State} (ee : execPmcConfig i w s = .next tt)
    (okm : Sub 0x2 μ := by exact Sub.trans (by assumption) (by decide)) :
    b.Follows μ tt := by
  unfold execPmcConfig at ee
  first | refine onUnit_follows ?_ ee | cases ee
  repeat' (first
    | (with_reducible exact Sub.trans okm (by decide))
    | with_reducible assumption
    | (with_reducible apply State.ifUp_follows)
    | (with_reducible apply State.pmcConfig_follows)
    | (intro _))

theorem State.pmcWrite_follows {μ : Nat} {b : State} {s : State} (i : Nat) (w : Word) (hb : b.Follows μ s)
    (okm : Sub 0x2 μ := by exact Sub.trans (by assumption) (by decide)) :
    b.Follows μ (State.pmcWrite s i w) := by
  unfold State.pmcWrite
  repeat' (first
    | (with_reducible exact Sub.trans okm (by decide))
    | with_reducible assumption
    | (with_reducible apply State.fset_follows))

theorem execPmcWrite_follows {μ : Nat} {b : State} {i : Nat} {w : Word} {s : State} (hb : b.Follows μ s) {tt : State} (ee : execPmcWrite i w s = .next tt)
    (okm : Sub 0x2 μ := by exact Sub.trans (by assumption) (by decide)) :
    b.Follows μ tt := by
  unfold execPmcWrite at ee
  first | refine onUnit_follows ?_ ee | cases ee
  repeat' (first
    | (with_reducible exact Sub.trans okm (by decide))
    | with_reducible assumption
    | (with_reducible apply State.pmcWrite_follows)
    | (with_reducible apply State.ifUp_follows)
    | (intro _))

theorem State.pmcClear_follows {μ : Nat} {b : State} {s : State} (hb : b.Follows μ s)
    (okm : Sub 0x2 μ := by exact Sub.trans (by assumption) (by decide)) :
    b.Follows μ (State.pmcClear s) := by
  unfold State.pmcClear
  repeat' (first
    | (with_reducible exact Sub.trans okm (by decide))
    | with_reducible assumption
    | (with_reducible apply State.fset_follows)
    | (with_reducible apply State.Follows.foldl)
    | (intro _ _ _; beta_reduce))

theorem execPmcClearAll_follows {μ : Nat} {b : State} {s : State} (hb : b.Follows μ s) {tt : State} (ee : execPmcClearAll s = .next tt)
    (okm : Sub 0x2 μ := by exact Sub.trans (by assumption) (by decide)) :
    b.Follows μ tt := by
  unfold execPmcClearAll at ee
  first | refine onUnit_follows ?_ ee | cases ee
  repeat' (first
    | (with_reducible exact Sub.trans okm (by decide))
    | with_reducible assumption
    | (with_reducible apply State.pmcClear_follows)
    | (with_reducible apply State.ifUp_follows)
    | (intro _))

theorem State.pmcWrap_follows {μ : Nat} {b : State} {s : State} (i : Nat) (k : Nat) (hb : b.Follows μ s)
    (okm : Sub 0x2 μ := by exact Sub.trans (by assumption) (by decide)) :
    b.Follows μ (State.pmcWrap s i k) := by
  unfold State.pmcWrap
  repeat' (first
    | (with_reducible exact Sub.trans okm (by decide))
    | with_reducible assumption
    | (with_reducible apply State.pmcAdd_follows)
    | (with_reducible apply State.Follows.ite)
    | (intro _))

theorem execPmcWrap_follows {μ : Nat} {b : State} {i : Nat} {k : Nat} {s : State} (hb : b.Follows μ s) {tt : State} (ee : execPmcWrap i k s = .next tt)
    (okm : Sub 0x2 μ := by exact Sub.trans (by assumption) (by decide)) :
    b.Follows μ tt := by
  unfold execPmcWrap at ee
  first | refine onUnit_follows ?_ ee | cases ee
  repeat' (first
    | (with_reducible exact Sub.trans okm (by decide))
    | with_reducible assumption
    | (with_reducible apply State.pmcWrap_follows))

theorem State.publish_follows {μ : Nat} {b : State} {s : State} (hb : b.Follows μ s)
    (okm : Sub 0x280002190c53 μ := by exact Sub.trans (by assumption) (by decide)) :
    b.Follows μ (State.publish s) := by
  unfold State.publish
  repeat' (first
    | (with_reducible exact Sub.trans okm (by decide))
    | with_reducible assumption
    | (with_reducible apply State.writeMem_follows)
    | (with_reducible apply State.fset_follows)
    | (with_reducible apply State.raise_follows)
    | (with_reducible apply State.Follows.foldlFst)
    | (with_reducible apply State.Follows.ite)
    | (intro _ _ _; beta_reduce)
    | (intro _)
    | split)

theorem execPublication_follows {μ : Nat} {b : State} {s : State} (hb : b.Follows μ s) {tt : State} (ee : execPublication s = .next tt)
    (okm : Sub 0x280002190c53 μ := by exact Sub.trans (by assumption) (by decide)) :
    b.Follows μ tt := by
  unfold execPublication at ee
  first | refine onUnit_follows ?_ ee | cases ee
  repeat' (first
    | (with_reducible exact Sub.trans okm (by decide))
    | with_reducible assumption
    | (with_reducible apply State.publish_follows))

theorem State.monSnap_follows {μ : Nat} {b : State} {s : State} (clr : Bool) (hb : b.Follows μ s)
    (okm : Sub 0x80000000002 μ := by exact Sub.trans (by assumption) (by decide)) :
    b.Follows μ (State.monSnap s clr) := by
  unfold State.monSnap
  repeat' (first
    | (with_reducible exact Sub.trans okm (by decide))
    | with_reducible assumption
    | (with_reducible apply State.fset_follows)
    | (with_reducible apply State.rput_follows)
    | (fail_if_no_progress with_reducible refine State.Follows.set_obs ?_ (Sub.trans okm (by decide)))
    | (with_reducible apply State.Follows.foldl)
    | (with_reducible apply State.Follows.ite)
    | (intro _ _ _; beta_reduce)
    | (intro _))

theorem execMonSnap_follows {μ : Nat} {b : State} {clr : Bool} {s : State} (hb : b.Follows μ s) {tt : State} (ee : execMonSnap clr s = .next tt)
    (okm : Sub 0x80000000002 μ := by exact Sub.trans (by assumption) (by decide)) :
    b.Follows μ tt := by
  unfold execMonSnap at ee
  first | refine onUnit_follows ?_ ee | cases ee
  repeat' (first
    | (with_reducible exact Sub.trans okm (by decide))
    | with_reducible assumption
    | (with_reducible apply State.monSnap_follows)
    | (with_reducible apply State.ifUp_follows)
    | (intro _))

theorem State.levelSample_follows {μ : Nat} {b : State} {s : State} (v : Nat) (hb : b.Follows μ s)
    (okm : Sub 0x80000000002 μ := by exact Sub.trans (by assumption) (by decide)) :
    b.Follows μ (State.levelSample s v) := by
  unfold State.levelSample
  repeat' (first
    | (with_reducible exact Sub.trans okm (by decide))
    | with_reducible assumption
    | (with_reducible apply State.log_follows)
    | (with_reducible apply State.raise_follows)
    | (fail_if_no_progress with_reducible refine State.Follows.set_obs ?_ (Sub.trans okm (by decide)))
    | (with_reducible apply State.Follows.ite)
    | (intro _)
    | split)

theorem execLevelSample_follows {μ : Nat} {b : State} {v : Nat} {s : State} (hb : b.Follows μ s) {tt : State} (ee : execLevelSample v s = .next tt)
    (okm : Sub 0x80000000002 μ := by exact Sub.trans (by assumption) (by decide)) :
    b.Follows μ tt := by
  unfold execLevelSample at ee
  first | refine onUnit_follows ?_ ee | cases ee
  repeat' (first
    | (with_reducible exact Sub.trans okm (by decide))
    | with_reducible assumption
    | (with_reducible apply State.levelSample_follows))

theorem State.runCheckArm_follows {μ : Nat} {b : State} {s : State} (id : Nat) (hb : b.Follows μ s)
    (okm : Sub 0xb0012000042 μ := by exact Sub.trans (by assumption) (by decide)) :
    b.Follows μ (State.runCheckArm s id) := by
  unfold State.runCheckArm
  repeat' (first
    | (with_reducible exact Sub.trans okm (by decide))
    | with_reducible assumption
    | (with_reducible apply State.fixPacket_follows)
    | (with_reducible apply State.setChk_follows)
    | (with_reducible refine State.takeFw_follows (hb := ?_) (ee := by with_reducible assumption))
    | (with_reducible apply State.Follows.ite)
    | (intro _)
    | split)

theorem execCheckArm_follows {μ : Nat} {b : State} {id : Nat} {s : State} (hb : b.Follows μ s) {tt : State} (ee : execCheckArm id s = .next tt)
    (okm : Sub 0xb0012000042 μ := by exact Sub.trans (by assumption) (by decide)) :
    b.Follows μ tt := by
  unfold execCheckArm at ee
  first | refine onUnit_follows ?_ ee | cases ee
  repeat' (first
    | (with_reducible exact Sub.trans okm (by decide))
    | with_reducible assumption
    | (with_reducible apply State.runCheckArm_follows))

theorem State.runCheckRead_follows {μ : Nat} {b : State} {s : State} (id : Nat) (hb : b.Follows μ s)
    (okm : Sub 0xb0012000042 μ := by exact Sub.trans (by assumption) (by decide)) :
    b.Follows μ (State.runCheckRead s id) := by
  unfold State.runCheckRead
  repeat' (first
    | (with_reducible exact Sub.trans okm (by decide))
    | with_reducible assumption
    | (with_reducible apply State.fixPacket_follows)
    | (with_reducible apply State.setChk_follows)
    | (with_reducible refine State.takeFw_follows (hb := ?_) (ee := by with_reducible assumption))
    | (with_reducible apply State.Follows.ite)
    | (intro _)
    | split)

theorem execCheckRead_follows {μ : Nat} {b : State} {id : Nat} {s : State} (hb : b.Follows μ s) {tt : State} (ee : execCheckRead id s = .next tt)
    (okm : Sub 0xb0012000042 μ := by exact Sub.trans (by assumption) (by decide)) :
    b.Follows μ tt := by
  unfold execCheckRead at ee
  first | refine onUnit_follows ?_ ee | cases ee
  repeat' (first
    | (with_reducible exact Sub.trans okm (by decide))
    | with_reducible assumption
    | (with_reducible apply State.runCheckRead_follows))

/-! ## Offline -/

theorem State.mergeLost_follows {μ : Nat} {b : State} {s : State} (src : Src) (pc : Nat) (hb : b.Follows μ s)
    (okm : Sub 0x2000052 μ := by exact Sub.trans (by assumption) (by decide)) :
    b.Follows μ (State.mergeLost s src pc) := by
  unfold State.mergeLost
  repeat' (first
    | (with_reducible exact Sub.trans okm (by decide))
    | with_reducible assumption
    | (with_reducible apply State.setPart_follows)
    | split)

theorem State.meetOff_follows {μ : Nat} {b : State} {s : State} (n : Nat) (id : Nat) (hb : b.Follows μ s)
    (okm : Sub 0x40 μ := by exact Sub.trans (by assumption) (by decide)) :
    b.Follows μ (State.meetOff s n id) := by
  unfold State.meetOff
  repeat' (first
    | (with_reducible exact Sub.trans okm (by decide))
    | with_reducible assumption
    | (with_reducible apply State.setReq_follows)
    | split)

theorem State.readLost_follows {μ : Nat} {b : State} {s0 : State} (e : Ent) (hb : b.Follows μ s0)
    (okm : Sub 0x2000052 μ := by exact Sub.trans (by assumption) (by decide)) :
    b.Follows μ (State.readLost s0 e) := by
  unfold State.readLost
  repeat' (first
    | (with_reducible exact Sub.trans okm (by decide))
    | with_reducible assumption
    | (with_reducible apply State.setPart_follows)
    | (with_reducible apply State.meetOff_follows)
    | (with_reducible apply State.deliver_follows)
    | (with_reducible apply State.Follows.ite)
    | (intro _)
    | split
    | fail_if_no_progress extract_lets)

theorem State.dropQueues_follows {μ : Nat} {b : State} {s : State} (pc : Nat) (hb : b.Follows μ s)
    (okm : Sub 0x2000452 μ := by exact Sub.trans (by assumption) (by decide)) :
    b.Follows μ (State.dropQueues s pc) := by
  unfold State.dropQueues
  repeat' (first
    | (with_reducible exact Sub.trans okm (by decide))
    | with_reducible assumption
    | (with_reducible apply State.readLost_follows)
    | (with_reducible apply State.setPcc_follows)
    | (with_reducible apply State.mateWrite_follows)
    | (with_reducible apply State.mergeLost_follows)
    | (with_reducible apply State.Follows.foldl)
    | (with_reducible apply State.Follows.ite)
    | (intro _ _ _; beta_reduce)
    | (intro _))

theorem State.reroute_follows {μ : Nat} {b : State} {s : State} (k : Nat) (hb : b.Follows μ s)
    (okm : Sub 0x2000052 μ := by exact Sub.trans (by assumption) (by decide)) :
    b.Follows μ (State.reroute s k) := by
  unfold State.reroute
  repeat' (first
    | (with_reducible exact Sub.trans okm (by decide))
    | with_reducible assumption
    | (with_reducible apply State.setPart_follows)
    | (with_reducible apply State.meetOff_follows)
    | (with_reducible apply State.Follows.foldl)
    | (with_reducible apply State.Follows.ite)
    | (intro _ _ _; beta_reduce)
    | (intro _))

theorem State.loseFrame_follows {μ : Nat} {b : State} {s : State} (g : Nat) (hb : b.Follows μ s)
    (okm : Sub 0x8007a000042 μ := by exact Sub.trans (by assumption) (by decide)) :
    b.Follows μ (State.loseFrame s g) := by
  unfold State.loseFrame
  repeat' (first
    | (with_reducible exact Sub.trans okm (by decide))
    | with_reducible assumption
    | (with_reducible apply State.demandFetch_follows)
    | (with_reducible apply State.dropSeg_follows)
    | (with_reducible apply State.stopFetch_follows)
    | (fail_if_no_progress with_reducible refine State.Follows.set_demandQ ?_ (Sub.trans okm (by decide)))
    | (with_reducible apply State.Follows.ite)
    | (intro _)
    | split)

theorem State.losePool_follows {μ : Nat} {b : State} {s : State} (k : Nat) (lo : Nat) (hb : b.Follows μ s)
    (okm : Sub 0x8007a000042 μ := by exact Sub.trans (by assumption) (by decide)) :
    b.Follows μ (State.losePool s k lo) := by
  unfold State.losePool
  repeat' (first
    | (with_reducible exact Sub.trans okm (by decide))
    | with_reducible assumption
    | (with_reducible apply State.loseFrame_follows)
    | (with_reducible apply State.Follows.foldl)
    | (with_reducible apply State.Follows.ite)
    | (intro _ _ _; beta_reduce)
    | (intro _))

theorem State.degrade_follows {μ : Nat} {b : State} {s : State} (k : Nat) (lo : Nat) (hb : b.Follows μ s)
    (okm : Sub 0x80000002 μ := by exact Sub.trans (by assumption) (by decide)) :
    b.Follows μ (State.degrade s k lo) := by
  unfold State.degrade
  repeat' (first
    | (with_reducible exact Sub.trans okm (by decide))
    | with_reducible assumption
    | (with_reducible apply State.setStream_follows)
    | (with_reducible apply State.Follows.foldl)
    | (with_reducible apply State.Follows.ite)
    | (intro _ _ _; beta_reduce)
    | (intro _)
    | split)

theorem State.loseLodging_follows {μ : Nat} {b : State} {s : State} (mirror : Nat → Bool) (gone : Nat → Bool) (k : Nat) (hb : b.Follows μ s)
    (okm : Sub 0x480000002 μ := by exact Sub.trans (by assumption) (by decide)) :
    b.Follows μ (State.loseLodging s mirror gone k) := by
  unfold State.loseLodging
  repeat' (first
    | (with_reducible exact Sub.trans okm (by decide))
    | with_reducible assumption
    | (with_reducible apply State.degrade_follows)
    | (fail_if_no_progress with_reducible refine State.Follows.set_lgWalk ?_ (Sub.trans okm (by decide)))
    | (with_reducible apply State.Follows.foldl)
    | (with_reducible apply State.Follows.ite)
    | (intro _ _ _; beta_reduce)
    | (intro _))

theorem State.loseMeta_follows {μ : Nat} {b : State} {s : State} (desc : Nat) (gone : Nat → Bool) (hb : b.Follows μ s)
    (okm : Sub 0x80000002 μ := by exact Sub.trans (by assumption) (by decide)) :
    b.Follows μ (State.loseMeta s desc gone) := by
  unfold State.loseMeta
  repeat' (first
    | (with_reducible exact Sub.trans okm (by decide))
    | with_reducible assumption
    | (with_reducible apply State.setStream_follows)
    | (with_reducible apply State.Follows.foldl)
    | (with_reducible apply State.Follows.ite)
    | (intro _ _ _; beta_reduce)
    | (intro _))

theorem State.loseAttn_follows {μ : Nat} {b : State} {s : State} (k : Nat) (hb : b.Follows μ s)
    (okm : Sub 0x90812000042 μ := by exact Sub.trans (by assumption) (by decide)) :
    b.Follows μ (State.loseAttn s k) := by
  unfold State.loseAttn
  repeat' (first
    | (with_reducible exact Sub.trans okm (by decide))
    | with_reducible assumption
    | (with_reducible apply State.attnFail_follows)
    | (with_reducible apply State.Follows.foldl)
    | (with_reducible apply State.Follows.ite)
    | (intro _ _ _; beta_reduce)
    | (intro _)
    | split)

theorem State.dirLost_follows {μ : Nat} {b : State} {s : State} (k : Nat) (hb : b.Follows μ s)
    (okm : Sub 0x290012190c53 μ := by exact Sub.trans (by assumption) (by decide)) :
    b.Follows μ (State.dirLost s k) := by
  unfold State.dirLost
  repeat' (first
    | (with_reducible exact Sub.trans okm (by decide))
    | with_reducible assumption
    | (with_reducible apply State.endGather_follows)
    | (with_reducible apply State.fixPacket_follows)
    | (with_reducible apply State.endParked_follows)
    | (with_reducible apply State.Follows.foldl)
    | (with_reducible apply State.Follows.ite)
    | (intro _ _ _; beta_reduce)
    | (intro _))

theorem State.stopRetire_follows {μ : Nat} {b : State} {s : State} (k : Nat) (hb : b.Follows μ s)
    (okm : Sub 0x90012040042 μ := by exact Sub.trans (by assumption) (by decide)) :
    b.Follows μ (State.stopRetire s k) := by
  unfold State.stopRetire
  repeat' (first
    | (with_reducible exact Sub.trans okm (by decide))
    | with_reducible assumption
    | (with_reducible apply State.fixPacket_follows)
    | (fail_if_no_progress with_reducible refine State.Follows.set_retPend ?_ (Sub.trans okm (by decide)))
    | (with_reducible apply State.Follows.foldl)
    | (with_reducible apply State.Follows.ite)
    | (intro _ _ _; beta_reduce)
    | (intro _)
    | split)

theorem State.stackOff_follows {μ : Nat} {b : State} {s : State} (k : Nat) (cause : Nat) (hb : b.Follows μ s)
    (okm : Sub 0xe90cfa3d0c57 μ := by exact Sub.trans (by assumption) (by decide)) :
    b.Follows μ (State.stackOff s k cause) := by
  unfold State.stackOff
  repeat' (first
    | (with_reducible exact Sub.trans okm (by decide))
    | with_reducible assumption
    | (with_reducible apply State.regrade_follows)
    | (with_reducible apply State.dirLost_follows)
    | (with_reducible apply State.fset_follows)
    | (with_reducible apply State.fsat_follows)
    | (with_reducible apply State.reroute_follows)
    | (with_reducible apply State.log_follows)
    | (with_reducible apply State.raise_follows)
    | (with_reducible apply State.dropQueues_follows)
    | (with_reducible apply State.localReset_follows)
    | (with_reducible apply State.loseMeta_follows)
    | (with_reducible apply State.ocRecompute_follows)
    | (with_reducible apply State.loseLodging_follows)
    | (with_reducible apply State.stopRetire_follows)
    | (with_reducible apply State.resetArb_follows)
    | (with_reducible apply State.loseAttn_follows)
    | (with_reducible apply State.losePool_follows)
    | (fail_if_no_progress with_reducible refine State.Follows.set_links_returns ?_ (Sub.trans okm (by decide)))
    | (fail_if_no_progress with_reducible refine State.Follows.set_pccs ?_ (Sub.trans okm (by decide)))
    | (with_reducible apply State.Follows.foldl)
    | (with_reducible apply State.Follows.ite)
    | (intro _ _ _; beta_reduce)
    | (intro _))

/-! ## Repair -/

theorem State.writeStored_follows {μ : Nat} {b : State} {s : State} (pc : Nat) (bank : Nat) (row : Nat) (col : Nat) (d : Option (List Byte)) (hb : b.Follows μ s)
    (okm : Sub 0x800 μ := by exact Sub.trans (by assumption) (by decide)) :
    b.Follows μ (State.writeStored s pc bank row col d) := by
  unfold State.writeStored
  repeat' (first
    | (with_reducible exact Sub.trans okm (by decide))
    | with_reducible assumption
    | (with_reducible apply State.putRaw_follows))

theorem State.readStored_follows {μ : Nat} {b : State} {s : State} (pc : Nat) (bank : Nat) (row : Nat) (col : Nat) (hb : b.Follows μ s)
    (okm : Sub 0x80000090c02 μ := by exact Sub.trans (by assumption) (by decide)) :
    b.Follows μ (State.readStored s pc bank row col).1 := by
  unfold State.readStored
  repeat' (first
    | (with_reducible exact Sub.trans okm (by decide))
    | with_reducible assumption
    | (with_reducible apply State.fsat_follows)
    | (with_reducible apply State.countCe_follows)
    | (with_reducible apply State.countUe_follows)
    | (with_reducible apply State.writeStored_follows)
    | split
    | fail_if_no_progress extract_lets)

theorem State.copyRow_follows {μ : Nat} {b : State} {s : State} (pc : Nat) (bank : Nat) (src : Nat) (dst : Nat) (hb : b.Follows μ s)
    (okm : Sub 0x80000090c02 μ := by exact Sub.trans (by assumption) (by decide)) :
    b.Follows μ (State.copyRow s pc bank src dst) := by
  unfold State.copyRow
  repeat' (first
    | (with_reducible exact Sub.trans okm (by decide))
    | with_reducible assumption
    | (with_reducible apply State.readStored_follows)
    | (with_reducible apply State.writeStored_follows)
    | (with_reducible apply State.Follows.foldl)
    | (intro _ _ _; beta_reduce))

theorem State.dropJobs_follows {μ : Nat} {b : State} {s : State} (t : LadderJob → Bool) (hb : b.Follows μ s)
    (okm : Sub 0x80000 μ := by exact Sub.trans (by assumption) (by decide)) :
    b.Follows μ (State.dropJobs s t) := by
  unfold State.dropJobs
  repeat' (first
    | with_reducible assumption
    | (fail_if_no_progress with_reducible refine State.Follows.set_ladder ?_ (Sub.trans okm (by decide))))

theorem State.setRepairs_follows {μ : Nat} {b : State} {s : State} (k : Nat) (l : List Repair) (hb : b.Follows μ s)
    (okm : Sub 0x4000 μ := by exact Sub.trans (by assumption) (by decide)) :
    b.Follows μ (State.setRepairs s k l) := by
  unfold State.setRepairs
  repeat' (first
    | with_reducible assumption
    | (fail_if_no_progress with_reducible refine State.Follows.set_repairs ?_ (Sub.trans okm (by decide))))

theorem State.remapRow_follows {μ : Nat} {b s t : State} {pc bank row : Nat} (hb : b.Follows μ s) (ee : s.remapRow pc bank row = some t)
    (okm : Sub 0x80002092c52 μ := by exact Sub.trans (by assumption) (by decide)) :
    b.Follows μ t := by
  unfold State.remapRow at ee
  split at ee
  · cases ee
  · extract_lets k s1 s2 s3 at ee
    have h1 : b.Follows μ s1 := State.copyRow_follows _ _ _ _ (State.settle_follows _ _ _ hb)
    have h2 : b.Follows μ s2 := State.Follows.set_remaps h1
    have h3 : b.Follows μ s3 := State.log_follows _ _ _ _ _ (State.dropJobs_follows _ h2)
    simp only [Option.some.injEq] at ee
    subst ee
    exact State.Follows.ite (fun _ => State.addJob_follows _ h3) fun _ => h3

theorem State.rowStep_follows {μ : Nat} {b : State} {s : State} (pc : Nat) (bank : Nat) (row : Nat) (hb : b.Follows μ s)
    (okm : Sub 0x80002092c52 μ := by exact Sub.trans (by assumption) (by decide)) :
    b.Follows μ (State.rowStep s pc bank row) := by
  unfold State.rowStep
  repeat' (first
    | (with_reducible exact Sub.trans okm (by decide))
    | with_reducible assumption
    | (with_reducible apply State.dropJobs_follows)
    | (with_reducible apply State.raise_follows)
    | (with_reducible apply State.addJob_follows)
    | (with_reducible refine State.remapRow_follows (hb := ?_) (ee := by with_reducible assumption))
    | (with_reducible apply State.Follows.ite)
    | (intro _)
    | split)

theorem execRowRemap_follows {μ : Nat} {b : State} {k : Nat} {p : Nat} {bank : Nat} {row : Nat} {s : State} (hb : b.Follows μ s) {tt : State} (ee : execRowRemap k p bank row s = .next tt)
    (okm : Sub 0x80002092c52 μ := by exact Sub.trans (by assumption) (by decide)) :
    b.Follows μ tt := by
  unfold execRowRemap at ee
  first | refine onUnit_follows ?_ ee | cases ee
  repeat' (first
    | (with_reducible exact Sub.trans okm (by decide))
    | with_reducible assumption
    | (with_reducible apply State.rowStep_follows))

theorem State.softRepair_follows {μ : Nat} {b s t : State} {k idx : Nat} (hb : b.Follows μ s) (ee : s.softRepair k idx = some t)
    (okm : Sub 0x80002096c52 μ := by exact Sub.trans (by assumption) (by decide)) :
    b.Follows μ t := by
  unfold State.softRepair at ee
  split at ee
  · cases ee
  · extract_lets pc s1 s2 at ee
    have h1 : b.Follows μ s1 := State.copyRow_follows _ _ _ _ (State.settle_follows _ _ _ hb)
    have h2 : b.Follows μ s2 := State.Follows.set_remaps h1
    split at ee
    · cases ee
    · simp only [Option.some.injEq] at ee
      subst ee
      exact State.log_follows _ _ _ _ _ (State.setRepairs_follows _ _ h2)

theorem State.softPass_follows {μ : Nat} {b s : State} (k idx : Nat) (hb : b.Follows μ s)
    (okm : Sub 0x280002096c52 μ := by exact Sub.trans (by assumption) (by decide)) : b.Follows μ (s.softPass k idx) := by
  unfold State.softPass
  split
  · exact hb
  · exact State.Follows.ite (fun _ => hb) fun _ => State.withPort_follows _ _ _
      (fun _ h => State.Follows.getD (fun _ e => State.softRepair_follows h e) h) hb

theorem execSoftRepair_follows {μ : Nat} {b : State} {k : Nat} {idx : Nat} {s : State} (hb : b.Follows μ s) {tt : State} (ee : execSoftRepair k idx s = .next tt)
    (okm : Sub 0x280002096c52 μ := by exact Sub.trans (by assumption) (by decide)) :
    b.Follows μ tt := by
  unfold execSoftRepair at ee
  first | refine onUnit_follows ?_ ee | cases ee
  repeat' (first
    | (with_reducible exact Sub.trans okm (by decide))
    | with_reducible assumption
    | (with_reducible apply State.softPass_follows))

theorem State.rePlace_follows {μ : Nat} {b : State} {s : State} (hb : b.Follows μ s)
    (okm : Sub 0x40 μ := by exact Sub.trans (by assumption) (by decide)) :
    b.Follows μ (State.rePlace s) := by
  unfold State.rePlace
  repeat' (first
    | with_reducible assumption
    | (fail_if_no_progress with_reducible refine State.Follows.set_ports ?_ (Sub.trans okm (by decide))))

theorem State.copyBank_follows {μ : Nat} {b : State} {s : State} (pc : Nat) (bank : Nat) (base : Nat) (hb : b.Follows μ s)
    (okm : Sub 0x80000090c02 μ := by exact Sub.trans (by assumption) (by decide)) :
    b.Follows μ (State.copyBank s pc bank base) := by
  unfold State.copyBank
  repeat' (first
    | (with_reducible exact Sub.trans okm (by decide))
    | with_reducible assumption
    | (with_reducible apply State.readStored_follows)
    | (with_reducible apply State.writeStored_follows)
    | (with_reducible apply State.Follows.foldl)
    | (intro _ _ _; beta_reduce)
    | split)

theorem State.spareBank_follows {μ : Nat} {b s t : State} {pc bank : Nat} (hb : b.Follows μ s) (ee : s.spareBank pc bank = some t)
    (okm : Sub 0x28000219ac53 μ := by exact Sub.trans (by assumption) (by decide)) :
    b.Follows μ t := by
  unfold State.spareBank at ee
  split at ee
  · cases ee
  · extract_lets k s1 mine s2 gone s3 at ee
    have h1 : b.Follows μ s1 := State.copyBank_follows _ _ _ (State.settle_follows _ _ _ (State.wake_follows _ hb))
    have h2 : b.Follows μ s2 := State.Follows.set_remaps_spares h1
    have h3 : b.Follows μ s3 := State.log_follows _ _ _ _ _ (State.raise_follows _ _ _ _ (State.rePlace_follows
      (State.dropJobs_follows _ h2)))
    simp only [Option.some.injEq] at ee
    subst ee
    exact State.regrade_follows _ h3

theorem State.bankStep_follows {μ : Nat} {b : State} {s : State} (pc : Nat) (bank : Nat) (hb : b.Follows μ s)
    (okm : Sub 0x28000219ac53 μ := by exact Sub.trans (by assumption) (by decide)) :
    b.Follows μ (State.bankStep s pc bank) := by
  unfold State.bankStep
  repeat' (first
    | (with_reducible exact Sub.trans okm (by decide))
    | with_reducible assumption
    | (with_reducible apply State.dropJobs_follows)
    | (with_reducible apply State.addJob_follows)
    | (with_reducible refine State.spareBank_follows (hb := ?_) (ee := by with_reducible assumption))
    | (with_reducible apply State.Follows.ite)
    | (intro _)
    | split)

theorem execBankSpare_follows {μ : Nat} {b : State} {k : Nat} {p : Nat} {bank : Nat} {s : State} (hb : b.Follows μ s) {tt : State} (ee : execBankSpare k p bank s = .next tt)
    (okm : Sub 0x28000219ac53 μ := by exact Sub.trans (by assumption) (by decide)) :
    b.Follows μ tt := by
  unfold execBankSpare at ee
  first | refine onUnit_follows ?_ ee | cases ee
  repeat' (first
    | (with_reducible exact Sub.trans okm (by decide))
    | with_reducible assumption
    | (with_reducible apply State.bankStep_follows))

theorem State.mapRetired_follows {μ : Nat} {b : State} {s : State} (pcs : List Nat) (hb : b.Follows μ s)
    (okm : Sub 0x40000000009000 μ := by exact Sub.trans (by assumption) (by decide)) :
    b.Follows μ (State.mapRetired s pcs) := by
  unfold State.mapRetired
  repeat' (first
    | (with_reducible exact Sub.trans okm (by decide))
    | with_reducible assumption
    | (with_reducible apply State.mapWithout_follows)
    | (with_reducible apply State.copyMap_follows)
    | (fail_if_no_progress with_reducible refine State.Follows.set_spares ?_ (Sub.trans okm (by decide)))
    | (with_reducible apply State.Follows.ite)
    | (intro _))

theorem State.takeOld_follows {μ : Nat} {b : State} {s : State} (dead : List Nat) (root : Nat) (x : Nat) (hb : b.Follows μ s)
    (okm : Sub 0x280002190c53 μ := by exact Sub.trans (by assumption) (by decide)) :
    b.Follows μ (State.takeOld s dead root x).1 := by
  unfold State.takeOld
  repeat' (first
    | (with_reducible exact Sub.trans okm (by decide))
    | with_reducible assumption
    | (with_reducible apply State.settleGranule_follows)
    | (with_reducible apply State.readSector_follows)
    | split)

theorem State.putNew_follows {μ : Nat} {b : State} {s : State} (root : Nat) (x : Nat) (d : List (Option SectorData)) (hb : b.Follows μ s)
    (okm : Sub 0x800 μ := by exact Sub.trans (by assumption) (by decide)) :
    b.Follows μ (State.putNew s root x d) := by
  unfold State.putNew
  repeat' (first
    | (with_reducible exact Sub.trans okm (by decide))
    | with_reducible assumption
    | (with_reducible apply State.storeSector_follows)
    | (with_reducible apply State.Follows.foldl)
    | (intro _ _ _; beta_reduce)
    | split)

theorem State.moveAll_follows {μ : Nat} {b : State} {s : State} (dead : List Nat) (pcs : List Nat) (roots : List Nat) (hb : b.Follows μ s)
    (okm : Sub 0x40280002199c53 μ := by exact Sub.trans (by assumption) (by decide)) :
    b.Follows μ (State.moveAll s dead pcs roots).1 := by
  unfold State.moveAll
  repeat' (first
    | (with_reducible exact Sub.trans okm (by decide))
    | with_reducible assumption
    | (with_reducible apply State.mapRetired_follows)
    | (with_reducible apply State.putNew_follows)
    | (with_reducible apply State.takeOld_follows)
    | (with_reducible apply State.Follows.foldl)
    | (with_reducible apply State.Follows.foldlFst)
    | (intro _ _ _; beta_reduce))

theorem State.clearRoots_follows {μ : Nat} {b : State} {s : State} (pc : Nat) (roots : List Nat) (hb : b.Follows μ s)
    (okm : Sub 0x80002090c52 μ := by exact Sub.trans (by assumption) (by decide)) :
    b.Follows μ (State.clearRoots s pc roots) := by
  unfold State.clearRoots
  repeat' (first
    | (with_reducible exact Sub.trans okm (by decide))
    | with_reducible assumption
    | (with_reducible apply State.setPart_follows)
    | (with_reducible apply State.settle_follows)
    | (with_reducible apply State.Follows.foldl)
    | (with_reducible apply State.Follows.ite)
    | (intro _ _ _; beta_reduce)
    | (intro _))

theorem State.afterShrink_follows {μ : Nat} {b : State} {s : State} (old : State) (roots : List Nat) (k : Nat) (pc : Nat) (hb : b.Follows μ s)
    (okm : Sub 0x2803fa190c53 μ := by exact Sub.trans (by assumption) (by decide)) :
    b.Follows μ (State.afterShrink s old roots k pc) := by
  unfold State.afterShrink
  repeat' (first
    | (with_reducible exact Sub.trans okm (by decide))
    | with_reducible assumption
    | (with_reducible apply State.walkFrames_follows)
    | (with_reducible apply State.log_follows)
    | (with_reducible apply State.degrade_follows)
    | (with_reducible apply State.losePool_follows)
    | (with_reducible apply State.Follows.foldl)
    | (with_reducible apply State.Follows.ite)
    | (intro _ _ _; beta_reduce)
    | (intro _))

theorem State.retireNow_follows {μ : Nat} {b : State} {s : State} (dead : List Nat) (pcs : List Nat) (move : Bool) (hb : b.Follows μ s)
    (okm : Sub 0x402803fa199c53 μ := by exact Sub.trans (by assumption) (by decide)) :
    b.Follows μ (State.retireNow s dead pcs move).1 := by
  unfold State.retireNow
  repeat' (first
    | (with_reducible exact Sub.trans okm (by decide))
    | with_reducible assumption
    | (with_reducible apply State.regrade_follows)
    | (with_reducible apply State.mapRetired_follows)
    | (with_reducible apply State.dropJobs_follows)
    | (with_reducible apply State.rePlace_follows)
    | (with_reducible apply State.clearRoots_follows)
    | (with_reducible apply State.fset_follows)
    | (with_reducible apply State.log_follows)
    | (with_reducible apply State.moveAll_follows)
    | (with_reducible apply State.afterShrink_follows)
    | (with_reducible apply State.dropQueues_follows)
    | (with_reducible apply State.rput_follows)
    | (with_reducible apply State.ocRecompute_follows)
    | (with_reducible apply State.Follows.foldl)
    | (intro _ _ _; beta_reduce)
    | split)

theorem State.retire_follows {μ : Nat} {b : State} {s : State} (pcs : List Nat) (packet : Option Nat) (hb : b.Follows μ s)
    (okm : Sub 0x800020d0c52 μ := by exact Sub.trans (by assumption) (by decide)) :
    b.Follows μ (State.retire s pcs packet) := by
  unfold State.retire
  repeat' (first
    | (with_reducible exact Sub.trans okm (by decide))
    | with_reducible assumption
    | (with_reducible apply State.clearRoots_follows)
    | (fail_if_no_progress with_reducible refine State.Follows.set_retPend ?_ (Sub.trans okm (by decide))))

theorem State.endRetire_follows {μ : Nat} {b : State} {s : State} (e : RetPend) (hb : b.Follows μ s)
    (okm : Sub 0x402903fa1d9c53 μ := by exact Sub.trans (by assumption) (by decide)) :
    b.Follows μ (State.endRetire s e) := by
  unfold State.endRetire
  repeat' (first
    | (with_reducible exact Sub.trans okm (by decide))
    | with_reducible assumption
    | (with_reducible apply State.retireNow_follows)
    | (with_reducible apply State.fixPacket_follows)
    | (fail_if_no_progress with_reducible refine State.Follows.set_retPend ?_ (Sub.trans okm (by decide)))
    | (refine State.Follows.fst (by with_reducible assumption) ?_)
    | (with_reducible apply State.Follows.ite)
    | (intro _)
    | split)

theorem State.retireAgain_follows {μ : Nat} {b : State} {s : State} (hb : b.Follows μ s)
    (okm : Sub 0x402903fa1d9c53 μ := by exact Sub.trans (by assumption) (by decide)) :
    b.Follows μ (State.retireAgain s) := by
  unfold State.retireAgain
  repeat' (first
    | (with_reducible exact Sub.trans okm (by decide))
    | with_reducible assumption
    | (with_reducible apply State.retireNow_follows)
    | (with_reducible apply State.endRetire_follows)
    | (fail_if_no_progress with_reducible refine State.Follows.set_retPend ?_ (Sub.trans okm (by decide)))
    | (with_reducible apply State.Follows.foldl)
    | (with_reducible apply State.Follows.ite)
    | (intro _ _ _; beta_reduce)
    | (intro _))

theorem State.autoRetire_follows {μ : Nat} {b : State} {s : State} (pc : Nat) (hb : b.Follows μ s)
    (okm : Sub 0x402903fa1d9c53 μ := by exact Sub.trans (by assumption) (by decide)) :
    b.Follows μ (State.autoRetire s pc) := by
  unfold State.autoRetire
  repeat' (first
    | (with_reducible exact Sub.trans okm (by decide))
    | with_reducible assumption
    | (with_reducible apply State.retire_follows)
    | (with_reducible apply State.dropJobs_follows)
    | (with_reducible apply State.fset_follows)
    | (with_reducible apply State.endRetire_follows)
    | (with_reducible apply State.log_follows)
    | (with_reducible apply State.raise_follows)
    | (with_reducible apply State.Follows.ite)
    | (intro _)
    | split)

theorem execAutoRetire_follows {μ : Nat} {b : State} {pc : Nat} {s : State} (hb : b.Follows μ s) {tt : State} (ee : execAutoRetire pc s = .next tt)
    (okm : Sub 0x402903fa1d9c53 μ := by exact Sub.trans (by assumption) (by decide)) :
    b.Follows μ tt := by
  unfold execAutoRetire at ee
  first | refine onUnit_follows ?_ ee | cases ee
  repeat' (first
    | (with_reducible exact Sub.trans okm (by decide))
    | with_reducible assumption
    | (with_reducible apply State.autoRetire_follows))

theorem State.runRetire_follows {μ : Nat} {b : State} {s : State} (id : Nat) (hb : b.Follows μ s)
    (okm : Sub 0x402b03fa1d9c53 μ := by exact Sub.trans (by assumption) (by decide)) :
    b.Follows μ (State.runRetire s id) := by
  unfold State.runRetire
  repeat' (first
    | (with_reducible exact Sub.trans okm (by decide))
    | with_reducible assumption
    | (with_reducible apply State.retire_follows)
    | (with_reducible apply State.fixPacket_follows)
    | (with_reducible apply State.endRetire_follows)
    | (with_reducible refine State.takeFw_follows (hb := ?_) (ee := by with_reducible assumption))
    | (with_reducible apply State.Follows.ite)
    | (intro _)
    | split)

theorem execRetire_follows {μ : Nat} {b : State} {id : Nat} {s : State} (hb : b.Follows μ s) {tt : State} (ee : execRetire id s = .next tt)
    (okm : Sub 0x402b03fa1d9c53 μ := by exact Sub.trans (by assumption) (by decide)) :
    b.Follows μ tt := by
  unfold execRetire at ee
  first | refine onUnit_follows ?_ ee | cases ee
  repeat' (first
    | (with_reducible exact Sub.trans okm (by decide))
    | with_reducible assumption
    | (with_reducible apply State.runRetire_follows))

theorem State.harden_follows {μ : Nat} {b : State} {s : State} {pc : Nat} {bank : Nat} {row : Nat} (hb : b.Follows μ s) {tt : State} (ee : State.harden s pc bank row = some tt)
    (okm : Sub 0x6000 μ := by exact Sub.trans (by assumption) (by decide)) :
    b.Follows μ tt := by
  unfold State.harden at ee
  repeat' (first | split at ee | fail_if_no_progress extract_lets at ee | (cases ee))
  repeat' (first
    | (with_reducible exact Sub.trans okm (by decide))
    | with_reducible assumption
    | (with_reducible apply State.setRepairs_follows)
    | (fail_if_no_progress with_reducible refine State.Follows.set_remaps ?_ (Sub.trans okm (by decide))))

theorem State.repairRow_follows {μ : Nat} {b : State} {s : State} {pc : Nat} {bank : Nat} {row : Nat} {level : Nat} (hb : b.Follows μ s) {tt : State} (ee : State.repairRow s pc bank row level = some tt)
    (okm : Sub 0x28000219ec53 μ := by exact Sub.trans (by assumption) (by decide)) :
    b.Follows μ tt := by
  unfold State.repairRow at ee
  repeat' (first | split at ee | fail_if_no_progress extract_lets at ee | (cases ee))
  repeat' (first
    | with_reducible assumption
    | (with_reducible refine State.remapRow_follows (hb := ?_) (ee := by with_reducible assumption))
    | (with_reducible refine State.softRepair_follows (hb := ?_) (ee := by with_reducible assumption))
    | (with_reducible refine State.spareBank_follows (hb := ?_) (ee := by with_reducible assumption))
    | (with_reducible refine State.harden_follows (hb := ?_) (ee := by with_reducible assumption)))

theorem State.repairAt_follows {μ : Nat} {b s : State} (p : Packet) (pl : Place) (hb : b.Follows μ s)
    (okm : Sub 0x29001219ec53 μ := by exact Sub.trans (by assumption) (by decide)) : b.Follows μ (s.repairAt p pl) := by
  unfold State.repairAt
  extract_lets level
  split
  · next u e =>
    have hu : b.Follows μ u := by
      split at e
      · exact State.repairRow_follows hb e
      · cases e
    exact State.fixPacket_follows _ _ _ _ _ (State.Follows.ite (fun _ => State.arbDrop_follows _ _
      (State.Follows.getD (fun _ e => State.repairRow_follows (State.askPort_follows _ _ hb) e) hu)) fun _ => hu)
  · exact State.fixPacket_follows _ _ _ _ _ hb

theorem State.runRepair_follows {μ : Nat} {b : State} {s : State} (id : Nat) (hb : b.Follows μ s)
    (okm : Sub 0x2b001219ec53 μ := by exact Sub.trans (by assumption) (by decide)) :
    b.Follows μ (State.runRepair s id) := by
  unfold State.runRepair
  repeat' (first
    | (with_reducible exact Sub.trans okm (by decide))
    | with_reducible assumption
    | (with_reducible apply State.askPort_follows)
    | (with_reducible apply State.fixPacket_follows)
    | (with_reducible apply State.repairAt_follows)
    | (with_reducible refine State.takeFw_follows (hb := ?_) (ee := by with_reducible assumption))
    | (with_reducible apply State.Follows.ite)
    | (intro _)
    | split
    | fail_if_no_progress extract_lets)

theorem execRepair_follows {μ : Nat} {b : State} {id : Nat} {s : State} (hb : b.Follows μ s) {tt : State} (ee : execRepair id s = .next tt)
    (okm : Sub 0x2b001219ec53 μ := by exact Sub.trans (by assumption) (by decide)) :
    b.Follows μ tt := by
  unfold execRepair at ee
  first | refine onUnit_follows ?_ ee | cases ee
  repeat' (first
    | (with_reducible exact Sub.trans okm (by decide))
    | with_reducible assumption
    | (with_reducible apply State.runRepair_follows))

theorem State.scrubSector_follows {μ : Nat} {b : State} {s : State} (pl : Place) (h : Nat) (addr : Nat) (fix : Bool) (x : Scrub) (hb : b.Follows μ s)
    (okm : Sub 0x80000090c02 μ := by exact Sub.trans (by assumption) (by decide)) :
    b.Follows μ (State.scrubSector s pl h addr fix x).1 := by
  unfold State.scrubSector
  repeat' (first
    | (with_reducible exact Sub.trans okm (by decide))
    | with_reducible assumption
    | (with_reducible apply State.storeSector_follows)
    | (with_reducible apply State.readSector_follows)
    | (refine State.Follows.fst (by with_reducible assumption) ?_)
    | split)

theorem State.scrubLadder_follows {μ : Nat} {b s t : State} (repair : Bool) (x : Scrub) (ht : b.Follows μ t)
    (okm : Sub 0x80002092c52 μ := by exact Sub.trans (by assumption) (by decide)) :
    b.Follows μ (s.scrubLadder t repair x).1 := by
  unfold State.scrubLadder
  split
  · exact State.Follows.set_ladder ht
  · refine State.Follows.foldlFst ?_ _ ht
    intro u j hu
    split
    · exact State.rowStep_follows _ _ _ hu
    · exact hu

theorem State.scrubPlace_follows {μ : Nat} {b : State} {s : State} (pl : Place) (addr : Nat) (fix : Bool) (repair : Bool) (x : Scrub) (hb : b.Follows μ s)
    (okm : Sub 0x280002192c53 μ := by exact Sub.trans (by assumption) (by decide)) :
    b.Follows μ (State.scrubPlace s pl addr fix repair x).1 := by
  unfold State.scrubPlace
  repeat' (first
    | (with_reducible exact Sub.trans okm (by decide))
    | with_reducible assumption
    | (with_reducible apply State.settleGranule_follows)
    | (with_reducible apply State.scrubLadder_follows)
    | (with_reducible apply State.scrubSector_follows)
    | split)

theorem State.scrubList_follows {μ : Nat} {b : State} {s : State} (l : List (Place × Nat)) (fix : Bool) (repair : Bool) (hb : b.Follows μ s)
    (okm : Sub 0x280002192c53 μ := by exact Sub.trans (by assumption) (by decide)) :
    b.Follows μ (State.scrubList s l fix repair).1 := by
  unfold State.scrubList
  repeat' (first
    | (with_reducible exact Sub.trans okm (by decide))
    | with_reducible assumption
    | (with_reducible apply State.scrubPlace_follows)
    | (with_reducible apply State.Follows.foldlFst)
    | (intro _ _ _; beta_reduce)
    | split)

theorem State.scrubEnd_follows {μ : Nat} {b : State} {s : State} (p : Packet) (x : Scrub) (st : PStatus) (hb : b.Follows μ s)
    (okm : Sub 0x290012190c53 μ := by exact Sub.trans (by assumption) (by decide)) :
    b.Follows μ (State.scrubEnd s p x st) := by
  unfold State.scrubEnd
  repeat' (first
    | (with_reducible exact Sub.trans okm (by decide))
    | with_reducible assumption
    | (with_reducible apply State.writeMem_follows)
    | (with_reducible apply State.fixPacket_follows)
    | (with_reducible apply State.drawNat_follows)
    | split)

theorem State.runScrub_follows {μ : Nat} {b : State} {s : State} (id : Nat) (hb : b.Follows μ s)
    (okm : Sub 0x2b0012192c53 μ := by exact Sub.trans (by assumption) (by decide)) :
    b.Follows μ (State.runScrub s id) := by
  unfold State.runScrub
  repeat' (first
    | (with_reducible exact Sub.trans okm (by decide))
    | with_reducible assumption
    | (with_reducible apply State.fixPacket_follows)
    | (with_reducible apply State.scrubList_follows)
    | (with_reducible apply State.scrubEnd_follows)
    | (with_reducible refine State.takeFw_follows (hb := ?_) (ee := by with_reducible assumption))
    | split
    | fail_if_no_progress extract_lets)

theorem execScrub_follows {μ : Nat} {b : State} {id : Nat} {s : State} (hb : b.Follows μ s) {tt : State} (ee : execScrub id s = .next tt)
    (okm : Sub 0x2b0012192c53 μ := by exact Sub.trans (by assumption) (by decide)) :
    b.Follows μ tt := by
  unfold execScrub at ee
  first | refine onUnit_follows ?_ ee | cases ee
  repeat' (first
    | (with_reducible exact Sub.trans okm (by decide))
    | with_reducible assumption
    | (with_reducible apply State.runScrub_follows))

theorem State.patrol_follows {μ : Nat} {b : State} {s : State} (k : Nat) (hb : b.Follows μ s)
    (okm : Sub 0x280002192c53 μ := by exact Sub.trans (by assumption) (by decide)) :
    b.Follows μ (State.patrol s k) := by
  unfold State.patrol
  repeat' (first
    | (with_reducible exact Sub.trans okm (by decide))
    | with_reducible assumption
    | (with_reducible apply State.fsat_follows)
    | (with_reducible apply State.log_follows)
    | (with_reducible apply State.scrubList_follows)
    | (with_reducible apply State.Follows.foldlFst)
    | (with_reducible apply State.Follows.ite)
    | (intro _ _ _; beta_reduce)
    | (intro _)
    | split)

theorem execPatrolScrub_follows {μ : Nat} {b : State} {k : Nat} {s : State} (hb : b.Follows μ s) {tt : State} (ee : execPatrolScrub k s = .next tt)
    (okm : Sub 0x280002192c53 μ := by exact Sub.trans (by assumption) (by decide)) :
    b.Follows μ tt := by
  unfold execPatrolScrub at ee
  first | refine onUnit_follows ?_ ee | cases ee
  repeat' (first
    | (with_reducible exact Sub.trans okm (by decide))
    | with_reducible assumption
    | (with_reducible apply State.patrol_follows))

/-! ## Link -/

theorem State.setLinkOf_follows {μ : Nat} {b : State} {s : State} (k : Nat) (l : Link) (hb : b.Follows μ s)
    (okm : Sub 0x100000 μ := by exact Sub.trans (by assumption) (by decide)) :
    b.Follows μ (State.setLinkOf s k l) := by
  unfold State.setLinkOf
  repeat' (first
    | with_reducible assumption
    | (fail_if_no_progress with_reducible refine State.Follows.set_links ?_ (Sub.trans okm (by decide))))

theorem State.setDevLanes_follows {μ : Nat} {b : State} {s : State} (k : Nat) (c : Nat) (w : Nat) (hb : b.Follows μ s)
    (okm : Sub 0x400000 μ := by exact Sub.trans (by assumption) (by decide)) :
    b.Follows μ (State.setDevLanes s k c w) := by
  unfold State.setDevLanes
  repeat' (first
    | with_reducible assumption
    | (fail_if_no_progress with_reducible refine State.Follows.set_laneMaps ?_ (Sub.trans okm (by decide))))

theorem State.setStackLanes_follows {μ : Nat} {b : State} {s : State} (k : Nat) (c : Nat) (w : Nat) (hb : b.Follows μ s)
    (okm : Sub 0x100000 μ := by exact Sub.trans (by assumption) (by decide)) :
    b.Follows μ (State.setStackLanes s k c w) := by
  unfold State.setStackLanes
  repeat' (first
    | (with_reducible exact Sub.trans okm (by decide))
    | with_reducible assumption
    | (with_reducible apply State.setLinkOf_follows))

theorem State.trainLanes_follows {μ : Nat} {b : State} {s : State} (k : Nat) (rep : StackReport) (c : Nat) (hb : b.Follows μ s)
    (okm : Sub 0x80000500002 μ := by exact Sub.trans (by assumption) (by decide)) :
    b.Follows μ (State.trainLanes s k rep c).1 := by
  unfold State.trainLanes
  repeat' (first
    | (with_reducible exact Sub.trans okm (by decide))
    | with_reducible assumption
    | (with_reducible apply State.setDevLanes_follows)
    | (with_reducible apply State.log_follows)
    | (with_reducible apply State.setStackLanes_follows)
    | (with_reducible apply State.Follows.foldl)
    | (intro _ _ _; beta_reduce)
    | split
    | fail_if_no_progress extract_lets)

theorem State.compareId_follows {μ : Nat} {b : State} {s : State} (k : Nat) (hb : b.Follows μ s)
    (okm : Sub 0x80000000002 μ := by exact Sub.trans (by assumption) (by decide)) :
    b.Follows μ (State.compareId s k) := by
  unfold State.compareId
  repeat' (first
    | (with_reducible exact Sub.trans okm (by decide))
    | with_reducible assumption
    | (with_reducible apply State.fset_follows)
    | (with_reducible apply State.log_follows)
    | (with_reducible apply State.raise_follows)
    | (with_reducible apply State.Follows.ite)
    | (intro _))

theorem State.hardenAll_follows {μ : Nat} {b s : State} (k : Nat) (hb : b.Follows μ s)
    (okm : Sub 0x80000004002 μ := by exact Sub.trans (by assumption) (by decide)) : b.Follows μ (s.hardenAll k) := by
  have fold : ∀ (f : List Repair × List (Nat × Nat) × State → Repair → List Repair × List (Nat × Nat) × State)
      (_ : ∀ a r, b.Follows μ a.2.2 → b.Follows μ (f a r).2.2) (l : List Repair) (a : List Repair × List (Nat × Nat) × State),
      b.Follows μ a.2.2 → b.Follows μ (l.foldl f a).2.2 := by
    intro f hf l
    induction l with
    | nil => intro a ha; exact ha
    | cons r q ih => intro a ha; exact ih _ (hf a r ha)
  unfold State.hardenAll
  refine State.setRepairs_follows _ _ (fold _ ?_ _ _ hb)
  intro a r ha
  dsimp only
  split
  · exact State.log_follows _ _ _ _ _ ha
  · exact ha

theorem State.setRefi_follows {μ : Nat} {b : State} {s : State} (k : Nat) (hb : b.Follows μ s)
    (okm : Sub 0x2 μ := by exact Sub.trans (by assumption) (by decide)) :
    b.Follows μ (State.setRefi s k) := by
  unfold State.setRefi
  repeat' (first
    | (with_reducible exact Sub.trans okm (by decide))
    | with_reducible assumption
    | (with_reducible apply State.fset_follows))

theorem State.setHot_follows {μ : Nat} {b : State} {s : State} (k : Nat) (temp : Int) (hb : b.Follows μ s)
    (okm : Sub 0x2 μ := by exact Sub.trans (by assumption) (by decide)) :
    b.Follows μ (State.setHot s k temp) := by
  unfold State.setHot
  repeat' (first
    | (with_reducible exact Sub.trans okm (by decide))
    | with_reducible assumption
    | (with_reducible apply State.fset_follows)
    | (with_reducible apply State.setRefi_follows)
    | (with_reducible apply State.Follows.ite)
    | (intro _))

theorem State.takeTemp_follows {μ : Nat} {b : State} {s : State} (k : Nat) (temp : Int) (hb : b.Follows μ s)
    (okm : Sub 0x2 μ := by exact Sub.trans (by assumption) (by decide)) :
    b.Follows μ (State.takeTemp s k temp) := by
  unfold State.takeTemp
  repeat' (first
    | (with_reducible exact Sub.trans okm (by decide))
    | with_reducible assumption
    | (with_reducible apply State.fset_follows)
    | (with_reducible apply State.setHot_follows))

theorem State.restartPasses_follows {μ : Nat} {b : State} {s : State} (k : Nat) (hb : b.Follows μ s)
    (okm : Sub 0x100000 μ := by exact Sub.trans (by assumption) (by decide)) :
    b.Follows μ (State.restartPasses s k) := by
  unfold State.restartPasses
  repeat' (first
    | (with_reducible exact Sub.trans okm (by decide))
    | with_reducible assumption
    | (with_reducible apply State.restartPeriods_follows)
    | (with_reducible apply State.passTemps_follows))

theorem State.setModes_follows {μ : Nat} {b : State} {s : State} (k : Nat) (hb : b.Follows μ s)
    (okm : Sub 0x100000 μ := by exact Sub.trans (by assumption) (by decide)) :
    b.Follows μ (State.setModes s k) := by
  unfold State.setModes
  repeat' (first
    | (with_reducible exact Sub.trans okm (by decide))
    | with_reducible assumption
    | (with_reducible apply State.setLinkOf_follows))

theorem State.stackFailed_follows {μ : Nat} {b : State} {s : State} (k : Nat) (cause : Nat) (hb : b.Follows μ s)
    (okm : Sub 0x2 μ := by exact Sub.trans (by assumption) (by decide)) :
    b.Follows μ (State.stackFailed s k cause) := by
  unfold State.stackFailed
  repeat' (first
    | (with_reducible exact Sub.trans okm (by decide))
    | with_reducible assumption
    | (with_reducible apply State.fset_follows)
    | (with_reducible apply State.setLink_follows))

theorem State.train_follows {μ : Nat} {b : State} {s : State} (k : Nat) (rep : StackReport) (hb : b.Follows μ s)
    (okm : Sub 0x80000504002 μ := by exact Sub.trans (by assumption) (by decide)) :
    b.Follows μ (State.train s k rep).1 := by
  unfold State.train
  repeat' (first
    | (with_reducible exact Sub.trans okm (by decide))
    | with_reducible assumption
    | (with_reducible apply State.restartPasses_follows)
    | (with_reducible apply State.stackFailed_follows)
    | (with_reducible apply State.fset_follows)
    | (with_reducible apply State.setModes_follows)
    | (with_reducible apply State.takeTemp_follows)
    | (with_reducible apply State.setDevLanes_follows)
    | (with_reducible apply State.hardenAll_follows)
    | (with_reducible apply State.log_follows)
    | (with_reducible apply State.trainLanes_follows)
    | (with_reducible apply State.raise_follows)
    | (with_reducible apply State.setRefi_follows)
    | (with_reducible apply State.setLink_follows)
    | (with_reducible apply State.rput_follows)
    | (with_reducible apply State.compareId_follows)
    | (with_reducible apply State.Follows.foldl)
    | (with_reducible apply State.Follows.foldlFst)
    | (refine State.Follows.fst (by with_reducible assumption) ?_)
    | (with_reducible apply State.Follows.ite)
    | (intro _ _ _; beta_reduce)
    | (intro _)
    | split
    | fail_if_no_progress extract_lets)

theorem State.fillStack_follows {μ : Nat} {b s : State} (k : Nat) (hb : b.Follows μ s)
    (okm : Sub 0x20800 μ := by exact Sub.trans (by assumption) (by decide)) : b.Follows μ (s.fillStack k) :=
  ⟨hb.queue, hb.clock, hb.shown, hb.drawn, hb.ids, fun w => Memory.wf_fillStack k (hb.memory w),
    hb.keep okm State.mix_mem_epochs⟩

theorem State.fillSpares_follows {μ : Nat} {b : State} {s : State} (k : Nat) (hb : b.Follows μ s)
    (okm : Sub 0x800 μ := by exact Sub.trans (by assumption) (by decide)) :
    b.Follows μ (State.fillSpares s k) := by
  unfold State.fillSpares
  repeat' (first
    | (with_reducible exact Sub.trans okm (by decide))
    | with_reducible assumption
    | (with_reducible apply State.writeStored_follows)
    | (with_reducible apply State.Follows.foldl)
    | (with_reducible apply State.Follows.ite)
    | (intro _ _ _; beta_reduce)
    | (intro _)
    | split)

theorem State.resyncGranule_follows {μ : Nat} {b : State} {s : State} (frm : Place) (own : Place) (hb : b.Follows μ s)
    (okm : Sub 0x280002190c53 μ := by exact Sub.trans (by assumption) (by decide)) :
    b.Follows μ (State.resyncGranule s frm own) := by
  unfold State.resyncGranule
  repeat' (first
    | (with_reducible exact Sub.trans okm (by decide))
    | with_reducible assumption
    | (with_reducible apply State.settleGranule_follows)
    | (with_reducible apply State.readStored_follows)
    | (with_reducible apply State.writeStored_follows)
    | (with_reducible apply State.Follows.foldl)
    | (intro _ _ _; beta_reduce))

theorem State.resync_follows {μ : Nat} {b : State} {s : State} (k : Nat) (hb : b.Follows μ s)
    (okm : Sub 0x280002190c53 μ := by exact Sub.trans (by assumption) (by decide)) :
    b.Follows μ (State.resync s k) := by
  unfold State.resync
  repeat' (first
    | (with_reducible exact Sub.trans okm (by decide))
    | with_reducible assumption
    | (with_reducible apply State.resyncGranule_follows)
    | (with_reducible apply State.Follows.foldl)
    | (intro _ _ _; beta_reduce)
    | split
    | fail_if_no_progress extract_lets)

theorem State.pairLost_follows {μ : Nat} {b : State} {s : State} (k : Nat) (hb : b.Follows μ s)
    (okm : Sub 0x8007a000052 μ := by exact Sub.trans (by assumption) (by decide)) :
    b.Follows μ (State.pairLost s k) := by
  unfold State.pairLost
  repeat' (first
    | (with_reducible exact Sub.trans okm (by decide))
    | with_reducible assumption
    | (with_reducible apply State.setSeg_follows)
    | (with_reducible apply State.log_follows)
    | (with_reducible apply State.raise_follows)
    | (with_reducible apply State.endParked_follows)
    | (with_reducible apply State.stopFetch_follows)
    | (fail_if_no_progress with_reducible refine State.Follows.set_demandQ_prefetchQ ?_ (Sub.trans okm (by decide)))
    | (with_reducible apply State.Follows.foldl)
    | (intro _ _ _; beta_reduce))

theorem State.retireDead_follows {μ : Nat} {b : State} {s : State} (pcs : List Nat) (hb : b.Follows μ s)
    (okm : Sub 0x402803fa1d9c53 μ := by exact Sub.trans (by assumption) (by decide)) :
    b.Follows μ (State.retireDead s pcs) := by
  unfold State.retireDead
  repeat' (first
    | (with_reducible exact Sub.trans okm (by decide))
    | with_reducible assumption
    | (with_reducible apply State.retireNow_follows)
    | (fail_if_no_progress with_reducible refine State.Follows.set_retPend ?_ (Sub.trans okm (by decide)))
    | (with_reducible apply State.Follows.ite)
    | (intro _))

theorem State.startFill_follows {μ : Nat} {b : State} {s : State} (k : Nat) (rep : StackReport) (pcs : List Nat) (hb : b.Follows μ s)
    (okm : Sub 0x220800 μ := by exact Sub.trans (by assumption) (by decide)) :
    b.Follows μ (State.startFill s k rep pcs) := by
  unfold State.startFill
  repeat' (first
    | (with_reducible exact Sub.trans okm (by decide))
    | with_reducible assumption
    | (with_reducible apply State.fillStack_follows)
    | (fail_if_no_progress with_reducible refine State.Follows.set_returns ?_ (Sub.trans okm (by decide))))

theorem State.trainDone_follows {μ : Nat} {b : State} {s : State} (k : Nat) (rep : StackReport) (hb : b.Follows μ s)
    (okm : Sub 0x80000724802 μ := by exact Sub.trans (by assumption) (by decide)) :
    b.Follows μ (State.trainDone s k rep) := by
  unfold State.trainDone
  repeat' (first
    | (with_reducible exact Sub.trans okm (by decide))
    | with_reducible assumption
    | (with_reducible apply State.train_follows)
    | (with_reducible apply State.startFill_follows)
    | (fail_if_no_progress with_reducible refine State.Follows.set_returns ?_ (Sub.trans okm (by decide)))
    | (refine State.Follows.fst (by with_reducible assumption) ?_)
    | split)

theorem State.fillOver_follows {μ : Nat} {b : State} {s : State} (k : Nat) (r : Return) (hb : b.Follows μ s)
    (okm : Sub 0x200000 μ := by exact Sub.trans (by assumption) (by decide)) :
    b.Follows μ (State.fillOver s k r) := by
  unfold State.fillOver
  repeat' (first
    | with_reducible assumption
    | (fail_if_no_progress with_reducible refine State.Follows.set_returns ?_ (Sub.trans okm (by decide))))

theorem State.fillDone_follows {μ : Nat} {b : State} {s : State} (k : Nat) (pcs : List Nat) (hb : b.Follows μ s)
    (okm : Sub 0x402903fa3d9c53 μ := by exact Sub.trans (by assumption) (by decide)) :
    b.Follows μ (State.fillDone s k pcs) := by
  unfold State.fillDone
  repeat' (first
    | (with_reducible exact Sub.trans okm (by decide))
    | with_reducible assumption
    | (with_reducible apply State.pairLost_follows)
    | (with_reducible apply State.log_follows)
    | (with_reducible apply State.raise_follows)
    | (with_reducible apply State.fillSpares_follows)
    | (with_reducible apply State.setLink_follows)
    | (with_reducible apply State.resync_follows)
    | (with_reducible apply State.retireAgain_follows)
    | (with_reducible apply State.retireDead_follows)
    | (with_reducible apply State.ocRecompute_follows)
    | (fail_if_no_progress with_reducible refine State.Follows.set_returns ?_ (Sub.trans okm (by decide)))
    | (with_reducible apply State.Follows.ite)
    | (intro _))

theorem State.stackReset_follows {μ : Nat} {b : State} {s : State} (k : Nat) (cause : Nat) (rep : StackReport) (hb : b.Follows μ s)
    (okm : Sub 0xe90cfa3d0c57 μ := by exact Sub.trans (by assumption) (by decide)) :
    b.Follows μ (State.stackReset s k cause rep) := by
  unfold State.stackReset
  repeat' (first
    | (with_reducible exact Sub.trans okm (by decide))
    | with_reducible assumption
    | (with_reducible apply State.stackOff_follows)
    | (with_reducible apply State.setLink_follows)
    | (fail_if_no_progress with_reducible refine State.Follows.set_returns ?_ (Sub.trans okm (by decide))))

theorem State.returnStack_follows {μ : Nat} {b : State} {s : State} (k : Nat) (hb : b.Follows μ s)
    (okm : Sub 0x402903fa7fdc53 μ := by exact Sub.trans (by assumption) (by decide)) :
    b.Follows μ (State.returnStack s k) := by
  unfold State.returnStack
  repeat' (first
    | (with_reducible exact Sub.trans okm (by decide))
    | with_reducible assumption
    | (with_reducible apply State.trainDone_follows)
    | (with_reducible apply State.fillDone_follows)
    | (with_reducible apply State.fillOver_follows)
    | (with_reducible apply State.Follows.ite)
    | (intro _)
    | split)

theorem execSreset_follows {μ : Nat} {b : State} {k : Nat} {rep : StackReport} {s : State} (hb : b.Follows μ s) {tt : State} (ee : execSreset k rep s = .next tt)
    (okm : Sub 0xe90cfa3d0c57 μ := by exact Sub.trans (by assumption) (by decide)) :
    b.Follows μ tt := by
  unfold execSreset at ee
  first | refine onUnit_follows ?_ ee | cases ee
  repeat' (first
    | (with_reducible exact Sub.trans okm (by decide))
    | with_reducible assumption
    | (with_reducible apply State.stackReset_follows))

theorem execClockLoss_follows {μ : Nat} {b : State} {k : Nat} {rep : StackReport} {s : State} (hb : b.Follows μ s) {tt : State} (ee : execClockLoss k rep s = .next tt)
    (okm : Sub 0xe90cfa3d0c57 μ := by exact Sub.trans (by assumption) (by decide)) :
    b.Follows μ tt := by
  unfold execClockLoss at ee
  first | refine onUnit_follows ?_ ee | cases ee
  repeat' (first
    | (with_reducible exact Sub.trans okm (by decide))
    | with_reducible assumption
    | (with_reducible apply State.stackReset_follows)
    | (with_reducible apply State.Follows.ite)
    | (intro _))

theorem State.parityError_follows {μ : Nat} {b : State} {s : State} (k : Nat) (c : Nat) (hb : b.Follows μ s)
    (okm : Sub 0x100000 μ := by exact Sub.trans (by assumption) (by decide)) :
    b.Follows μ (State.parityError s k c) := by
  unfold State.parityError
  repeat' (first
    | (with_reducible exact Sub.trans okm (by decide))
    | with_reducible assumption
    | (with_reducible apply State.setLinkOf_follows)
    | (with_reducible apply State.Follows.ite)
    | (intro _))

theorem execCaParityError_follows {μ : Nat} {b : State} {k : Nat} {c : Nat} {s : State} (hb : b.Follows μ s) {tt : State} (ee : execCaParityError k c s = .next tt)
    (okm : Sub 0x100000 μ := by exact Sub.trans (by assumption) (by decide)) :
    b.Follows μ tt := by
  unfold execCaParityError at ee
  first | refine onUnit_follows ?_ ee | cases ee
  repeat' (first
    | (with_reducible exact Sub.trans okm (by decide))
    | with_reducible assumption
    | (with_reducible apply State.parityError_follows))

theorem State.passDone_follows {μ : Nat} {b : State} {s : State} (k : Nat) (c : Nat) (badLane : Option (Nat × Nat)) (hb : b.Follows μ s)
    (okm : Sub 0x180002 μ := by exact Sub.trans (by assumption) (by decide)) :
    b.Follows μ (State.passDone s k c badLane) := by
  unfold State.passDone
  repeat' (first
    | (with_reducible exact Sub.trans okm (by decide))
    | with_reducible assumption
    | (with_reducible apply State.ev_follows)
    | (with_reducible apply State.setLinkOf_follows)
    | (with_reducible apply State.addJob_follows)
    | split)

theorem State.retrainPass_follows {μ : Nat} {b : State} {s : State} (k : Nat) (c : Nat) (badLane : Option (Nat × Nat)) (hb : b.Follows μ s)
    (okm : Sub 0x280000180002 μ := by exact Sub.trans (by assumption) (by decide)) :
    b.Follows μ (State.retrainPass s k c badLane) := by
  unfold State.retrainPass
  repeat' (first
    | (with_reducible exact Sub.trans okm (by decide))
    | with_reducible assumption
    | (with_reducible apply State.passDone_follows)
    | (with_reducible apply State.withPort_follows)
    | (with_reducible apply State.Follows.ite)
    | (intro _))

theorem execRetrainPass_follows {μ : Nat} {b : State} {k : Nat} {c : Nat} {badLane : Option (Nat × Nat)} {s : State} (hb : b.Follows μ s) {tt : State} (ee : execRetrainPass k c badLane s = .next tt)
    (okm : Sub 0x280000180002 μ := by exact Sub.trans (by assumption) (by decide)) :
    b.Follows μ tt := by
  unfold execRetrainPass at ee
  first | refine onUnit_follows ?_ ee | cases ee
  repeat' (first
    | (with_reducible exact Sub.trans okm (by decide))
    | with_reducible assumption
    | (with_reducible apply State.retrainPass_follows))

theorem State.deferExpire_follows {μ : Nat} {b : State} {s : State} (k : Nat) (c : Nat) (hb : b.Follows μ s)
    (okm : Sub 0x280000180002 μ := by exact Sub.trans (by assumption) (by decide)) :
    b.Follows μ (State.deferExpire s k c) := by
  unfold State.deferExpire
  repeat' (first
    | (with_reducible exact Sub.trans okm (by decide))
    | with_reducible assumption
    | (with_reducible apply State.retrainPass_follows)
    | (with_reducible apply State.setLinkOf_follows)
    | (with_reducible apply State.Follows.ite)
    | (intro _))

theorem execRetrainDeferExpire_follows {μ : Nat} {b : State} {k : Nat} {c : Nat} {s : State} (hb : b.Follows μ s) {tt : State} (ee : execRetrainDeferExpire k c s = .next tt)
    (okm : Sub 0x280000180002 μ := by exact Sub.trans (by assumption) (by decide)) :
    b.Follows μ tt := by
  unfold execRetrainDeferExpire at ee
  first | refine onUnit_follows ?_ ee | cases ee
  repeat' (first
    | (with_reducible exact Sub.trans okm (by decide))
    | with_reducible assumption
    | (with_reducible apply State.deferExpire_follows))

theorem State.laneSteps_follows {μ : Nat} {b : State} {s : State} (k : Nat) (c : Nat) (g : Nat) (lane : Nat) (done : Nat) (hb : b.Follows μ s)
    (okm : Sub 0x80000580002 μ := by exact Sub.trans (by assumption) (by decide)) :
    b.Follows μ (State.laneSteps s k c g lane done) := by
  unfold State.laneSteps
  repeat' (first
    | (with_reducible exact Sub.trans okm (by decide))
    | with_reducible assumption
    | (with_reducible apply State.dropJobs_follows)
    | (with_reducible apply State.setDevLanes_follows)
    | (with_reducible apply State.log_follows)
    | (with_reducible apply State.setStackLanes_follows)
    | (with_reducible apply State.Follows.ite)
    | (intro _))

theorem State.laneRepair_follows {μ : Nat} {b : State} {s : State} (k : Nat) (c : Nat) (g : Nat) (lane : Nat) (done : Nat) (hb : b.Follows μ s)
    (okm : Sub 0x80000580002 μ := by exact Sub.trans (by assumption) (by decide)) :
    b.Follows μ (State.laneRepair s k c g lane done) := by
  unfold State.laneRepair
  repeat' (first
    | (with_reducible exact Sub.trans okm (by decide))
    | with_reducible assumption
    | (with_reducible apply State.laneSteps_follows)
    | (with_reducible apply State.dropJobs_follows)
    | (with_reducible apply State.addJob_follows)
    | (with_reducible apply State.Follows.foldl)
    | (with_reducible apply State.Follows.ite)
    | (intro _ _ _; beta_reduce)
    | (intro _))

theorem State.lanePass_follows {μ : Nat} {b : State} {s : State} (k : Nat) (c : Nat) (g : Nat) (lane : Nat) (done : Nat) (hb : b.Follows μ s)
    (okm : Sub 0x280000580002 μ := by exact Sub.trans (by assumption) (by decide)) :
    b.Follows μ (State.lanePass s k c g lane done) := by
  unfold State.lanePass
  repeat' (first
    | (with_reducible exact Sub.trans okm (by decide))
    | with_reducible assumption
    | (with_reducible apply State.laneRepair_follows)
    | (with_reducible apply State.withPort_follows)
    | (with_reducible apply State.Follows.ite)
    | (intro _))

theorem execLaneRepair_follows {μ : Nat} {b : State} {k : Nat} {c : Nat} {g : Nat} {lane : Nat} {done : Nat} {s : State} (hb : b.Follows μ s) {tt : State} (ee : execLaneRepair k c g lane done s = .next tt)
    (okm : Sub 0x280000580002 μ := by exact Sub.trans (by assumption) (by decide)) :
    b.Follows μ tt := by
  unfold execLaneRepair at ee
  first | refine onUnit_follows ?_ ee | cases ee
  repeat' (first
    | (with_reducible exact Sub.trans okm (by decide))
    | with_reducible assumption
    | (with_reducible apply State.lanePass_follows))

theorem State.tempRead_follows {μ : Nat} {b : State} {s : State} (k : Nat) (temp : Int) (hb : b.Follows μ s)
    (okm : Sub 0x100002 μ := by exact Sub.trans (by assumption) (by decide)) :
    b.Follows μ (State.tempRead s k temp) := by
  unfold State.tempRead
  repeat' (first
    | (with_reducible exact Sub.trans okm (by decide))
    | with_reducible assumption
    | (with_reducible apply State.takeTemp_follows)
    | (with_reducible apply State.setLinkOf_follows)
    | (with_reducible apply State.Follows.ite)
    | (intro _))

theorem State.repairLanes_follows {μ : Nat} {b : State} {s : State} (k : Nat) (c : Nat) (bad : List (Nat × Nat)) (hb : b.Follows μ s)
    (okm : Sub 0x80000580002 μ := by exact Sub.trans (by assumption) (by decide)) :
    b.Follows μ (State.repairLanes s k c bad) := by
  unfold State.repairLanes
  repeat' (first
    | (with_reducible exact Sub.trans okm (by decide))
    | with_reducible assumption
    | (with_reducible apply State.laneRepair_follows)
    | (with_reducible apply State.addJob_follows)
    | (with_reducible apply State.Follows.foldl)
    | (with_reducible apply State.Follows.ite)
    | (intro _ _ _; beta_reduce)
    | (intro _)
    | split)

theorem State.retrainAll_follows {μ : Nat} {b : State} {s : State} (k : Nat) (cs : List Nat) (test : Bool) (bad : List (Nat × Nat)) (hb : b.Follows μ s)
    (okm : Sub 0x280000580002 μ := by exact Sub.trans (by assumption) (by decide)) :
    b.Follows μ (State.retrainAll s k cs test bad) := by
  unfold State.retrainAll
  repeat' (first
    | (with_reducible exact Sub.trans okm (by decide))
    | with_reducible assumption
    | (with_reducible apply State.arbDrop_follows)
    | (with_reducible apply State.arbGive_follows)
    | (with_reducible apply State.passDone_follows)
    | (with_reducible apply State.repairLanes_follows)
    | (with_reducible apply State.Follows.foldl)
    | (with_reducible apply State.Follows.ite)
    | (intro _ _ _; beta_reduce)
    | (intro _))

theorem State.runRetrain_follows {μ : Nat} {b : State} {s : State} (id : Nat) (maint : MaintReport) (hb : b.Follows μ s)
    (okm : Sub 0x2b0012580443 μ := by exact Sub.trans (by assumption) (by decide)) :
    b.Follows μ (State.runRetrain s id maint) := by
  unfold State.runRetrain
  repeat' (first
    | (with_reducible exact Sub.trans okm (by decide))
    | with_reducible assumption
    | (with_reducible apply State.askPort_follows)
    | (with_reducible apply State.wake_follows)
    | (with_reducible apply State.fixPacket_follows)
    | (with_reducible apply State.retrainAll_follows)
    | (with_reducible refine State.takeFw_follows (hb := ?_) (ee := by with_reducible assumption))
    | (with_reducible apply State.Follows.ite)
    | (intro _)
    | split)

theorem execRetrain_follows {μ : Nat} {b : State} {id : Nat} {maint : MaintReport} {s : State} (hb : b.Follows μ s) {tt : State} (ee : execRetrain id maint s = .next tt)
    (okm : Sub 0x2b0012580443 μ := by exact Sub.trans (by assumption) (by decide)) :
    b.Follows μ tt := by
  unfold execRetrain at ee
  first | refine onUnit_follows ?_ ee | cases ee
  repeat' (first
    | (with_reducible exact Sub.trans okm (by decide))
    | with_reducible assumption
    | (with_reducible apply State.runRetrain_follows))

theorem State.closeBanks_follows {μ : Nat} {b : State} {s : State} (k : Nat) (hb : b.Follows μ s)
    (okm : Sub 0x400 μ := by exact Sub.trans (by assumption) (by decide)) :
    b.Follows μ (State.closeBanks s k) := by
  unfold State.closeBanks
  repeat' (first
    | with_reducible assumption
    | (fail_if_no_progress with_reducible refine State.Follows.set_pccs ?_ (Sub.trans okm (by decide))))

theorem State.enterSref_follows {μ : Nat} {b : State} {s : State} (k : Nat) (hb : b.Follows μ s)
    (okm : Sub 0x100402 μ := by exact Sub.trans (by assumption) (by decide)) :
    b.Follows μ (State.enterSref s k) := by
  unfold State.enterSref
  repeat' (first
    | (with_reducible exact Sub.trans okm (by decide))
    | with_reducible assumption
    | (with_reducible apply State.closeBanks_follows)
    | (with_reducible apply State.fset_follows)
    | (with_reducible apply State.fsat_follows)
    | (with_reducible apply State.ev_follows)
    | (with_reducible apply State.setLinkOf_follows))

theorem State.srefEntry_follows {μ : Nat} {b : State} {s : State} (k : Nat) (granted : Bool) (hb : b.Follows μ s)
    (okm : Sub 0x100402 μ := by exact Sub.trans (by assumption) (by decide)) :
    b.Follows μ (State.srefEntry s k granted) := by
  unfold State.srefEntry
  repeat' (first
    | (with_reducible exact Sub.trans okm (by decide))
    | with_reducible assumption
    | (with_reducible apply State.closeBanks_follows)
    | (with_reducible apply State.fsat_follows)
    | (with_reducible apply State.enterSref_follows)
    | (with_reducible apply State.Follows.ite)
    | (intro _))

theorem execSrefEntry_follows {μ : Nat} {b : State} {k : Nat} {s : State} (hb : b.Follows μ s) {tt : State} (ee : execSrefEntry k s = .next tt)
    (okm : Sub 0x100402 μ := by exact Sub.trans (by assumption) (by decide)) :
    b.Follows μ tt := by
  unfold execSrefEntry at ee
  first | refine onUnit_follows ?_ ee | cases ee
  repeat' (first
    | (with_reducible exact Sub.trans okm (by decide))
    | with_reducible assumption
    | (with_reducible apply State.srefEntry_follows))

theorem State.srefExit_follows {μ : Nat} {b : State} {s : State} (k : Nat) (hb : b.Follows μ s)
    (okm : Sub 0x280000100403 μ := by exact Sub.trans (by assumption) (by decide)) :
    b.Follows μ (State.srefExit s k) := by
  unfold State.srefExit
  repeat' (first
    | (with_reducible exact Sub.trans okm (by decide))
    | with_reducible assumption
    | (with_reducible apply State.askPort_follows)
    | (with_reducible apply State.wake_follows)
    | (with_reducible apply State.Follows.ite)
    | (intro _))

theorem execSrefExit_follows {μ : Nat} {b : State} {k : Nat} {s : State} (hb : b.Follows μ s) {tt : State} (ee : execSrefExit k s = .next tt)
    (okm : Sub 0x280000100403 μ := by exact Sub.trans (by assumption) (by decide)) :
    b.Follows μ tt := by
  unfold execSrefExit at ee
  first | refine onUnit_follows ?_ ee | cases ee
  repeat' (first
    | (with_reducible exact Sub.trans okm (by decide))
    | with_reducible assumption
    | (with_reducible apply State.srefExit_follows))

theorem State.markStall_follows {μ : Nat} {b : State} {s : State} (hb : b.Follows μ s)
    (okm : Sub 0x40 μ := by exact Sub.trans (by assumption) (by decide)) :
    b.Follows μ (State.markStall s) := by
  unfold State.markStall
  repeat' (first
    | with_reducible assumption
    | (fail_if_no_progress with_reducible refine State.Follows.set_ports ?_ (Sub.trans okm (by decide))))

theorem State.relock_follows {μ : Nat} {b s : State} (n : Nat) (hb : b.Follows μ s)
    (okm : Sub 0x1200000000003 μ := by exact Sub.trans (by assumption) (by decide)) : b.Follows μ (s.relock n) :=
  State.tableTrim_follows (State.holdArbs_follows _ (State.tick_follows _
    (hb.same rfl (Nat.le_refl _) rfl rfl rfl rfl rfl (a := 0x1) (Sub.trans okm (by decide)) State.mix_clk)))

theorem State.newOp_follows {μ : Nat} {b : State} {s : State} (op : Nat) (stallNs : Nat) (hb : b.Follows μ s)
    (okm : Sub 0x1200000100413 μ := by exact Sub.trans (by assumption) (by decide)) :
    b.Follows μ (State.newOp s op stallNs) := by
  unfold State.newOp
  repeat' (first
    | (with_reducible exact Sub.trans okm (by decide))
    | with_reducible assumption
    | (with_reducible apply State.fset_follows)
    | (with_reducible apply State.tick_follows)
    | (with_reducible apply State.drawNat_follows)
    | (with_reducible apply State.enterSref_follows)
    | (with_reducible apply State.relock_follows)
    | (with_reducible apply State.Follows.foldl)
    | (intro _ _ _; beta_reduce))

theorem State.retrained_follows {μ : Nat} {b : State} {s : State} (k : Nat) (hb : b.Follows μ s)
    (okm : Sub 0x100412 μ := by exact Sub.trans (by assumption) (by decide)) :
    b.Follows μ (State.retrained s k) := by
  unfold State.retrained
  repeat' (first
    | (with_reducible exact Sub.trans okm (by decide))
    | with_reducible assumption
    | (with_reducible apply State.restartPasses_follows)
    | (with_reducible apply State.fset_follows)
    | (with_reducible apply State.setModes_follows)
    | (with_reducible apply State.setRefi_follows)
    | (with_reducible apply State.drawNat_follows)
    | (fail_if_no_progress with_reducible refine State.Follows.set_pccs ?_ (Sub.trans okm (by decide))))

theorem State.heldBack_follows {μ : Nat} {b : State} {s : State} (k : Nat) (hb : b.Follows μ s)
    (okm : Sub 0x320802 μ := by exact Sub.trans (by assumption) (by decide)) :
    b.Follows μ (State.heldBack s k) := by
  unfold State.heldBack
  repeat' (first
    | (with_reducible exact Sub.trans okm (by decide))
    | with_reducible assumption
    | (with_reducible apply State.setModes_follows)
    | (with_reducible apply State.setRefi_follows)
    | (with_reducible apply State.startFill_follows)
    | (fail_if_no_progress with_reducible refine State.Follows.set_returns ?_ (Sub.trans okm (by decide)))
    | split)

theorem State.changeOp_follows {μ : Nat} {b : State} {s : State} (op : Nat) (stallNs : Nat) (hb : b.Follows μ s)
    (okm : Sub 0x12800023b0c53 μ := by exact Sub.trans (by assumption) (by decide)) :
    b.Follows μ (State.changeOp s op stallNs) := by
  unfold State.changeOp
  repeat' (first
    | (with_reducible exact Sub.trans okm (by decide))
    | with_reducible assumption
    | (with_reducible apply State.tickTo_follows)
    | (with_reducible apply State.retrained_follows)
    | (with_reducible apply State.fset_follows)
    | (with_reducible apply State.fsat_follows)
    | (with_reducible apply State.heldBack_follows)
    | (with_reducible apply State.drainPcc_follows)
    | (with_reducible apply State.newOp_follows)
    | (with_reducible apply State.markStall_follows)
    | (with_reducible apply State.Follows.foldl)
    | (intro _ _ _; beta_reduce))

theorem State.runOppoint_follows {μ : Nat} {b : State} {s : State} (id : Nat) (stallNs : Nat) (hb : b.Follows μ s)
    (okm : Sub 0x12b00123b0c53 μ := by exact Sub.trans (by assumption) (by decide)) :
    b.Follows μ (State.runOppoint s id stallNs) := by
  unfold State.runOppoint
  repeat' (first
    | (with_reducible exact Sub.trans okm (by decide))
    | with_reducible assumption
    | (with_reducible apply State.fixPacket_follows)
    | (with_reducible apply State.changeOp_follows)
    | (with_reducible refine State.takeFw_follows (hb := ?_) (ee := by with_reducible assumption))
    | (with_reducible apply State.Follows.ite)
    | (intro _)
    | split)

theorem execOppoint_follows {μ : Nat} {b : State} {id : Nat} {stallNs : Nat} {s : State} (hb : b.Follows μ s) {tt : State} (ee : execOppoint id stallNs s = .next tt)
    (okm : Sub 0x12b00123b0c53 μ := by exact Sub.trans (by assumption) (by decide)) :
    b.Follows μ tt := by
  unfold execOppoint at ee
  first | refine onUnit_follows ?_ ee | cases ee
  repeat' (first
    | (with_reducible exact Sub.trans okm (by decide))
    | with_reducible assumption
    | (with_reducible apply State.runOppoint_follows))

/-! ## Security -/

theorem State.slotError_follows {μ : Nat} {b : State} {s : State} (f : Fld) (slot : Nat) (hb : b.Follows μ s)
    (okm : Sub 0x2 μ := by exact Sub.trans (by assumption) (by decide)) :
    b.Follows μ (State.slotError s f slot) := by
  unfold State.slotError
  repeat' (first
    | (with_reducible exact Sub.trans okm (by decide))
    | with_reducible assumption
    | (with_reducible apply State.raise_follows))

theorem State.keyLoad_follows {μ : Nat} {b : State} {s : State} (slot : Nat) (key : BitVec 512) (hb : b.Follows μ s)
    (okm : Sub 0x80000a μ := by exact Sub.trans (by assumption) (by decide)) :
    b.Follows μ (State.keyLoad s slot key) := by
  unfold State.keyLoad
  repeat' (first
    | (with_reducible exact Sub.trans okm (by decide))
    | with_reducible assumption
    | (with_reducible apply State.slotError_follows)
    | (with_reducible apply State.emit_follows)
    | (fail_if_no_progress with_reducible refine State.Follows.set_keys ?_ (Sub.trans okm (by decide)))
    | (with_reducible apply State.Follows.ite)
    | (intro _))

theorem execKeyLoad_follows {μ : Nat} {b : State} {slot : Nat} {key : BitVec 512} {s : State} (hb : b.Follows μ s) {tt : State} (ee : execKeyLoad slot key s = .next tt)
    (okm : Sub 0x80000a μ := by exact Sub.trans (by assumption) (by decide)) :
    b.Follows μ tt := by
  unfold execKeyLoad at ee
  first | refine onUnit_follows ?_ ee | cases ee
  repeat' (first
    | (with_reducible exact Sub.trans okm (by decide))
    | with_reducible assumption
    | (with_reducible apply State.keyLoad_follows)
    | (with_reducible apply State.Follows.ite)
    | (intro _))

theorem State.zeroize_follows {μ : Nat} {b : State} {s : State} (slot : Nat) (hb : b.Follows μ s)
    (okm : Sub 0x1800000 μ := by exact Sub.trans (by assumption) (by decide)) :
    b.Follows μ (State.zeroize s slot) := by
  unfold State.zeroize
  repeat' (first
    | with_reducible assumption
    | (fail_if_no_progress with_reducible refine State.Follows.set_keys_clearing ?_ (Sub.trans okm (by decide))))

theorem State.keyClear_follows {μ : Nat} {b : State} {s : State} (slot : Nat) (hb : b.Follows μ s)
    (okm : Sub 0x1000008 μ := by exact Sub.trans (by assumption) (by decide)) :
    b.Follows μ (State.keyClear s slot) := by
  unfold State.keyClear
  repeat' (first
    | (with_reducible exact Sub.trans okm (by decide))
    | with_reducible assumption
    | (with_reducible apply State.emit_follows)
    | (fail_if_no_progress with_reducible refine State.Follows.set_clearing ?_ (Sub.trans okm (by decide)))
    | (with_reducible apply State.Follows.ite)
    | (intro _))

theorem execKeyClear_follows {μ : Nat} {b : State} {slot : Nat} {s : State} (hb : b.Follows μ s) {tt : State} (ee : execKeyClear slot s = .next tt)
    (okm : Sub 0x1000008 μ := by exact Sub.trans (by assumption) (by decide)) :
    b.Follows μ tt := by
  unfold execKeyClear at ee
  first | refine onUnit_follows ?_ ee | cases ee
  repeat' (first
    | (with_reducible exact Sub.trans okm (by decide))
    | with_reducible assumption
    | (with_reducible apply State.keyClear_follows)
    | (with_reducible apply State.Follows.ite)
    | (intro _))

theorem State.keyClearDone_follows {μ : Nat} {b : State} {s : State} (slot : Nat) (hb : b.Follows μ s)
    (okm : Sub 0x1800008 μ := by exact Sub.trans (by assumption) (by decide)) :
    b.Follows μ (State.keyClearDone s slot) := by
  unfold State.keyClearDone
  repeat' (first
    | (with_reducible exact Sub.trans okm (by decide))
    | with_reducible assumption
    | (with_reducible apply State.zeroize_follows)
    | (with_reducible apply State.emit_follows)
    | (with_reducible apply State.Follows.ite)
    | (intro _))

theorem execKeyClearDone_follows {μ : Nat} {b : State} {slot : Nat} {s : State} (hb : b.Follows μ s) {tt : State} (ee : execKeyClearDone slot s = .next tt)
    (okm : Sub 0x1800008 μ := by exact Sub.trans (by assumption) (by decide)) :
    b.Follows μ tt := by
  unfold execKeyClearDone at ee
  first | refine onUnit_follows ?_ ee | cases ee
  repeat' (first
    | (with_reducible exact Sub.trans okm (by decide))
    | with_reducible assumption
    | (with_reducible apply State.keyClearDone_follows))

theorem State.clearSlot_follows {μ : Nat} {b : State} {s : State} (slot : Nat) (hb : b.Follows μ s)
    (okm : Sub 0x80003890c52 μ := by exact Sub.trans (by assumption) (by decide)) :
    b.Follows μ (State.clearSlot s slot) := by
  unfold State.clearSlot
  repeat' (first
    | (with_reducible exact Sub.trans okm (by decide))
    | with_reducible assumption
    | (with_reducible apply State.settle_follows)
    | (with_reducible apply State.zeroize_follows)
    | (with_reducible apply State.Follows.foldl)
    | (with_reducible apply State.Follows.ite)
    | (intro _ _ _; beta_reduce)
    | (intro _))

theorem State.closeDebug_follows {μ : Nat} {b : State} {s : State} (cause : Nat) (hb : b.Follows μ s)
    (okm : Sub 0x82c0000000002 μ := by exact Sub.trans (by assumption) (by decide)) :
    b.Follows μ (State.closeDebug s cause) := by
  unfold State.closeDebug
  repeat' (first
    | (with_reducible exact Sub.trans okm (by decide))
    | with_reducible assumption
    | (with_reducible apply State.arbDrop_follows)
    | (with_reducible apply State.setArb_follows)
    | (with_reducible apply State.fset_follows)
    | (with_reducible apply State.log_follows)
    | (fail_if_no_progress with_reducible refine State.Follows.set_interps_sec ?_ (Sub.trans okm (by decide)))
    | (with_reducible apply State.Follows.foldl)
    | (with_reducible apply State.Follows.ite)
    | (intro _ _ _; beta_reduce)
    | (intro _))

theorem State.dbgGrant_follows {μ : Nat} {b : State} {s : State} (level : Nat) (life : Nat) (hb : b.Follows μ s)
    (okm : Sub 0x808000000000a μ := by exact Sub.trans (by assumption) (by decide)) :
    b.Follows μ (State.dbgGrant s level life) := by
  unfold State.dbgGrant
  repeat' (first
    | (with_reducible exact Sub.trans okm (by decide))
    | with_reducible assumption
    | (with_reducible apply State.fset_follows)
    | (with_reducible apply State.fsat_follows)
    | (with_reducible apply State.log_follows)
    | (with_reducible apply State.emit_follows)
    | (fail_if_no_progress with_reducible refine State.Follows.set_sec ?_ (Sub.trans okm (by decide)))
    | (with_reducible apply State.Follows.ite)
    | (intro _))

theorem execDbgGrant_follows {μ : Nat} {b : State} {level : Nat} {life : Nat} {s : State} (hb : b.Follows μ s) {tt : State} (ee : execDbgGrant level life s = .next tt)
    (okm : Sub 0x808000000000a μ := by exact Sub.trans (by assumption) (by decide)) :
    b.Follows μ tt := by
  unfold execDbgGrant at ee
  first | refine onUnit_follows ?_ ee | cases ee
  repeat' (first
    | (with_reducible exact Sub.trans okm (by decide))
    | with_reducible assumption
    | (with_reducible apply State.dbgGrant_follows)
    | (with_reducible apply State.Follows.ite)
    | (intro _))

theorem execDbgRevoke_follows {μ : Nat} {b : State} {s : State} (hb : b.Follows μ s) {tt : State} (ee : execDbgRevoke s = .next tt)
    (okm : Sub 0x82c000000000a μ := by exact Sub.trans (by assumption) (by decide)) :
    b.Follows μ tt := by
  unfold execDbgRevoke at ee
  first | refine onUnit_follows ?_ ee | cases ee
  repeat' (first
    | (with_reducible exact Sub.trans okm (by decide))
    | with_reducible assumption
    | (with_reducible apply State.closeDebug_follows)
    | (with_reducible apply State.emit_follows)
    | (with_reducible apply State.Follows.ite)
    | (intro _))

theorem execDebugExpire_follows {μ : Nat} {b : State} {s : State} (hb : b.Follows μ s) {tt : State} (ee : execDebugExpire s = .next tt)
    (okm : Sub 0x82c0000000002 μ := by exact Sub.trans (by assumption) (by decide)) :
    b.Follows μ tt := by
  unfold execDebugExpire at ee
  first | refine onUnit_follows ?_ ee | cases ee
  repeat' (first
    | (with_reducible exact Sub.trans okm (by decide))
    | with_reducible assumption
    | (with_reducible apply State.closeDebug_follows))

theorem State.debugOp_follows {μ : Nat} {b : State} {s : State} (k : Nat) (op : Nat) (addr : Nat) (val : Word) (hb : b.Follows μ s)
    (okm : Sub 0x40000000008 μ := by exact Sub.trans (by assumption) (by decide)) :
    b.Follows μ (State.debugOp s k op addr val) := by
  unfold State.debugOp
  repeat' (first
    | (with_reducible exact Sub.trans okm (by decide))
    | with_reducible assumption
    | (with_reducible apply State.emit_follows)
    | (fail_if_no_progress with_reducible refine State.Follows.set_interps ?_ (Sub.trans okm (by decide)))
    | (with_reducible apply State.Follows.ite)
    | (intro _))

theorem execDebugHalt_follows {μ : Nat} {b : State} {k : Nat} {op : Nat} {addr : Nat} {val : Word} {s : State} (hb : b.Follows μ s) {tt : State} (ee : execDebugHalt k op addr val s = .next tt)
    (okm : Sub 0x40000000008 μ := by exact Sub.trans (by assumption) (by decide)) :
    b.Follows μ tt := by
  unfold execDebugHalt at ee
  first | refine onUnit_follows ?_ ee | cases ee
  repeat' (first
    | (with_reducible exact Sub.trans okm (by decide))
    | with_reducible assumption
    | (with_reducible apply State.debugOp_follows))

theorem State.emptyRecipes_follows {μ : Nat} {b : State} {s : State} (hb : b.Follows μ s)
    (okm : Sub 0x1000000000 μ := by exact Sub.trans (by assumption) (by decide)) :
    b.Follows μ (State.emptyRecipes s) := by
  unfold State.emptyRecipes
  repeat' (first
    | with_reducible assumption
    | (fail_if_no_progress with_reducible refine State.Follows.set_recipes ?_ (Sub.trans okm (by decide))))

theorem State.scrapWipe_follows {μ : Nat} {b s : State} (hb : b.Follows μ s)
    (okm : Sub 0x44fb0cfa7fec57 μ := by exact Sub.trans (by assumption) (by decide)) : b.Follows μ s.scrapWipe := by
  unfold State.scrapWipe
  extract_lets s1 s2 s3 src o hard
  have h1 : b.Follows μ s1 := State.Follows.foldl (fun u k hu => State.Follows.ite (fun _ => hu) fun _ => State.stackOff_follows _ _ hu)
    _ hb
  have h2 : b.Follows μ s2 := State.fset_follows _ _ _ (State.fset_follows _ _ _ (State.failFw_follows h1))
  have h3 : b.Follows μ s3 := State.Follows.foldl (fun u k hu => State.rput_follows _ _ _ hu) _ h2
  refine State.log_follows _ _ _ _ _ ?_
  clear_value s3
  exact ⟨h3.queue, h3.clock, h3.shown, h3.drawn, h3.ids, fun _ => Memory.wf_nil [],
    h3.keep (Sub.trans okm (by decide)) State.mix_wipe⟩

theorem State.finishChange_follows {μ : Nat} {b : State} {s : State} (hb : b.Follows μ s)
    (okm : Sub 0x4cfb1cfbffec5f μ := by exact Sub.trans (by assumption) (by decide)) :
    b.Follows μ (State.finishChange s) := by
  unfold State.finishChange
  repeat' (first
    | (with_reducible exact Sub.trans okm (by decide))
    | with_reducible assumption
    | (with_reducible apply State.scrapWipe_follows)
    | (with_reducible apply State.clearSlot_follows)
    | (with_reducible apply State.log_follows)
    | (with_reducible apply State.emptyRecipes_follows)
    | (with_reducible apply State.emit_follows)
    | (fail_if_no_progress with_reducible refine State.Follows.set_sec ?_ (Sub.trans okm (by decide)))
    | (with_reducible apply State.Follows.foldl)
    | (intro _ _ _; beta_reduce)
    | (with_reducible apply State.Follows.ite)
    | (intro _))

theorem State.lcChange_follows {μ : Nat} {b : State} {s : State} (target : Nat) (hb : b.Follows μ s)
    (okm : Sub 0x4cff1cfbffec5f μ := by exact Sub.trans (by assumption) (by decide)) :
    b.Follows μ (State.lcChange s target) := by
  unfold State.lcChange
  repeat' (first
    | (with_reducible exact Sub.trans okm (by decide))
    | with_reducible assumption
    | (with_reducible apply State.finishChange_follows)
    | (with_reducible apply State.closeDebug_follows)
    | (with_reducible apply State.emit_follows)
    | (fail_if_no_progress with_reducible refine State.Follows.set_sec ?_ (Sub.trans okm (by decide)))
    | (with_reducible apply State.Follows.ite)
    | (intro _))

theorem execLcChange_follows {μ : Nat} {b : State} {target : Nat} {s : State} (hb : b.Follows μ s) {tt : State} (ee : execLcChange target s = .next tt)
    (okm : Sub 0x4cff1cfbffec5f μ := by exact Sub.trans (by assumption) (by decide)) :
    b.Follows μ tt := by
  unfold execLcChange at ee
  first | refine onUnit_follows ?_ ee | cases ee
  repeat' (first
    | (with_reducible exact Sub.trans okm (by decide))
    | with_reducible assumption
    | (with_reducible apply State.lcChange_follows)
    | (with_reducible apply State.Follows.ite)
    | (intro _))

theorem State.takeHub_follows {μ : Nat} {b : State} {s : State} (hub : Nat) (hb : b.Follows μ s)
    (okm : Sub 0x8000000000010 μ := by exact Sub.trans (by assumption) (by decide)) :
    b.Follows μ (State.takeHub s hub) := by
  unfold State.takeHub
  repeat' (first
    | (with_reducible exact Sub.trans okm (by decide))
    | with_reducible assumption
    | (with_reducible apply State.drawNat_follows)
    | (fail_if_no_progress with_reducible refine State.Follows.set_sec ?_ (Sub.trans okm (by decide)))
    | (with_reducible apply State.Follows.ite)
    | (intro _))

theorem execLcQuery_follows {μ : Nat} {b : State} {hub : Nat} {s : State} (hb : b.Follows μ s) {tt : State} (ee : execLcQuery hub s = .next tt)
    (okm : Sub 0x8000000000018 μ := by exact Sub.trans (by assumption) (by decide)) :
    b.Follows μ tt := by
  unfold execLcQuery at ee
  first | refine onUnit_follows ?_ ee | cases ee
  repeat' (first
    | (with_reducible exact Sub.trans okm (by decide))
    | with_reducible assumption
    | (with_reducible apply State.takeHub_follows)
    | (with_reducible apply State.emit_follows)
    | (with_reducible apply State.Follows.ite)
    | (intro _))

/-! ## CoreReset -/

theorem State.warmRegs_follows {μ : Nat} {b : State} {s : State} (sensors : Bool) (hb : b.Follows μ s)
    (okm : Sub 0x2 μ := by exact Sub.trans (by assumption) (by decide)) :
    b.Follows μ (State.warmRegs s sensors) := by
  unfold State.warmRegs
  repeat' (first
    | (with_reducible exact Sub.trans okm (by decide))
    | with_reducible assumption
    | (with_reducible apply State.resetRegs_follows))

theorem State.portsOff_follows {μ : Nat} {b : State} {s : State} (hb : b.Follows μ s)
    (okm : Sub 0x8 μ := by exact Sub.trans (by assumption) (by decide)) :
    b.Follows μ (State.portsOff s) := by
  unfold State.portsOff
  repeat' (first
    | (with_reducible exact Sub.trans okm (by decide))
    | with_reducible assumption
    | (with_reducible apply State.emit_follows)
    | (with_reducible apply State.Follows.foldl)
    | (with_reducible apply State.Follows.ite)
    | (intro _ _ _; beta_reduce)
    | (intro _))

theorem State.coreUnits_follows {μ : Nat} {b s : State} (cutOff : Bool) (hb : b.Follows μ s)
    (okm : Sub 0x294ff87dbd07c5 μ := by exact Sub.trans (by assumption) (by decide)) : b.Follows μ (s.coreUnits cutOff) := by
  unfold State.coreUnits
  exact hb.same rfl (Nat.le_refl _) rfl rfl rfl rfl rfl okm State.mix_core

theorem State.coreReset_follows {μ : Nat} {b : State} {s : State} (cutOff : Bool) (hb : b.Follows μ s)
    (okm : Sub 0x296ff87dbd07cf μ := by exact Sub.trans (by assumption) (by decide)) :
    b.Follows μ (State.coreReset s cutOff) := by
  unfold State.coreReset
  repeat' (first
    | (with_reducible exact Sub.trans okm (by decide))
    | with_reducible assumption
    | (with_reducible apply State.setArb_follows)
    | (with_reducible apply State.fsat_follows)
    | (with_reducible apply State.portsOff_follows)
    | (with_reducible apply State.warmRegs_follows)
    | (with_reducible apply State.coreUnits_follows)
    | (with_reducible apply State.Follows.foldl)
    | (intro _ _ _; beta_reduce))

/-! ## Thermal -/

theorem State.setCap_follows {μ : Nat} {b : State} {s : State} (k : Nat) (hb : b.Follows μ s)
    (okm : Sub 0x2 μ := by exact Sub.trans (by assumption) (by decide)) :
    b.Follows μ (State.setCap s k) := by
  unfold State.setCap
  repeat' (first
    | (with_reducible exact Sub.trans okm (by decide))
    | with_reducible assumption
    | (with_reducible apply State.fset_follows))

theorem State.setDemand_follows {μ : Nat} {b : State} {s : State} (k : Nat) (d : Nat) (stale : Bool) (hb : b.Follows μ s)
    (okm : Sub 0x1000000000002 μ := by exact Sub.trans (by assumption) (by decide)) :
    b.Follows μ (State.setDemand s k d stale) := by
  unfold State.setDemand
  repeat' (first
    | (with_reducible exact Sub.trans okm (by decide))
    | with_reducible assumption
    | (with_reducible apply State.setCap_follows)
    | (with_reducible apply State.raise_follows)
    | (fail_if_no_progress with_reducible refine State.Follows.set_therm ?_ (Sub.trans okm (by decide)))
    | (with_reducible apply State.Follows.ite)
    | (intro _))

theorem State.stackTempRead_follows {μ : Nat} {b : State} {s : State} (k : Nat) (temp : Int) (hb : b.Follows μ s)
    (okm : Sub 0x1280000100002 μ := by exact Sub.trans (by assumption) (by decide)) :
    b.Follows μ (State.stackTempRead s k temp) := by
  unfold State.stackTempRead
  repeat' (first
    | (with_reducible exact Sub.trans okm (by decide))
    | with_reducible assumption
    | (with_reducible apply State.withPort_follows)
    | (with_reducible apply State.tempRead_follows)
    | (with_reducible apply State.setDemand_follows)
    | (with_reducible apply State.Follows.ite)
    | (intro _))

theorem execStackTempRead_follows {μ : Nat} {b : State} {k : Nat} {temp : Int} {s : State} (hb : b.Follows μ s) {tt : State} (ee : execStackTempRead k temp s = .next tt)
    (okm : Sub 0x1280000100002 μ := by exact Sub.trans (by assumption) (by decide)) :
    b.Follows μ tt := by
  unfold execStackTempRead at ee
  first | refine onUnit_follows ?_ ee | cases ee
  repeat' (first
    | (with_reducible exact Sub.trans okm (by decide))
    | with_reducible assumption
    | (with_reducible apply State.stackTempRead_follows))

theorem State.stackStale_follows {μ : Nat} {b : State} {s : State} (k : Nat) (hb : b.Follows μ s)
    (okm : Sub 0x1000000000002 μ := by exact Sub.trans (by assumption) (by decide)) :
    b.Follows μ (State.stackStale s k) := by
  unfold State.stackStale
  repeat' (first
    | (with_reducible exact Sub.trans okm (by decide))
    | with_reducible assumption
    | (with_reducible apply State.fset_follows)
    | (with_reducible apply State.setRefi_follows)
    | (with_reducible apply State.setDemand_follows)
    | (with_reducible apply State.Follows.ite)
    | (intro _))

theorem execStackTempStale_follows {μ : Nat} {b : State} {k : Nat} {s : State} (hb : b.Follows μ s) {tt : State} (ee : execStackTempStale k s = .next tt)
    (okm : Sub 0x1000000000002 μ := by exact Sub.trans (by assumption) (by decide)) :
    b.Follows μ tt := by
  unfold execStackTempStale at ee
  first | refine onUnit_follows ?_ ee | cases ee
  repeat' (first
    | (with_reducible exact Sub.trans okm (by decide))
    | with_reducible assumption
    | (with_reducible apply State.stackStale_follows))

theorem State.sensorFail_follows {μ : Nat} {b : State} {s : State} (k : Nat) (why : Nat) (hb : b.Follows μ s)
    (okm : Sub 0x80000000002 μ := by exact Sub.trans (by assumption) (by decide)) :
    b.Follows μ (State.sensorFail s k why) := by
  unfold State.sensorFail
  repeat' (first
    | (with_reducible exact Sub.trans okm (by decide))
    | with_reducible assumption
    | (with_reducible apply State.fset_follows)
    | (with_reducible apply State.log_follows)
    | (with_reducible apply State.raise_follows)
    | (with_reducible apply State.Follows.ite)
    | (intro _))

theorem State.convert_follows {μ : Nat} {b : State} {s : State} (k : Nat) (r : Option Int) (hb : b.Follows μ s)
    (okm : Sub 0x1080000000002 μ := by exact Sub.trans (by assumption) (by decide)) :
    b.Follows μ (State.convert s k r) := by
  unfold State.convert
  repeat' (first
    | (with_reducible exact Sub.trans okm (by decide))
    | with_reducible assumption
    | (with_reducible apply State.fset_follows)
    | (with_reducible apply State.sensorFail_follows)
    | (fail_if_no_progress with_reducible refine State.Follows.set_therm ?_ (Sub.trans okm (by decide)))
    | (with_reducible apply State.Follows.ite)
    | (intro _)
    | split)

theorem State.setLevel_follows {μ : Nat} {b : State} {s : State} (z : Nat) (lv : Nat) (hb : b.Follows μ s)
    (okm : Sub 0x80000000002 μ := by exact Sub.trans (by assumption) (by decide)) :
    b.Follows μ (State.setLevel s z lv) := by
  unfold State.setLevel
  repeat' (first
    | (with_reducible exact Sub.trans okm (by decide))
    | with_reducible assumption
    | (with_reducible apply State.setCap_follows)
    | (with_reducible apply State.fset_follows)
    | (with_reducible apply State.log_follows)
    | (with_reducible apply State.raise_follows))

theorem State.setWarn_follows {μ : Nat} {b : State} {s : State} (z : Nat) (t : Int) (hb : b.Follows μ s)
    (okm : Sub 0x1080000000002 μ := by exact Sub.trans (by assumption) (by decide)) :
    b.Follows μ (State.setWarn s z t) := by
  unfold State.setWarn
  repeat' (first
    | (with_reducible exact Sub.trans okm (by decide))
    | with_reducible assumption
    | (with_reducible apply State.log_follows)
    | (with_reducible apply State.raise_follows)
    | (fail_if_no_progress with_reducible refine State.Follows.set_therm ?_ (Sub.trans okm (by decide)))
    | (with_reducible apply State.Follows.ite)
    | (intro _))

theorem State.zoneStep_follows {μ : Nat} {b : State} {s : State} (z : Nat) (hb : b.Follows μ s)
    (okm : Sub 0x1080000000002 μ := by exact Sub.trans (by assumption) (by decide)) :
    b.Follows μ (State.zoneStep s z) := by
  unfold State.zoneStep
  repeat' (first
    | (with_reducible exact Sub.trans okm (by decide))
    | with_reducible assumption
    | (with_reducible apply State.fset_follows)
    | (with_reducible apply State.setLevel_follows)
    | (with_reducible apply State.setWarn_follows)
    | (with_reducible apply State.Follows.ite)
    | (intro _)
    | split)

theorem State.thermStat_follows {μ : Nat} {b : State} {s : State} (hb : b.Follows μ s)
    (okm : Sub 0x2 μ := by exact Sub.trans (by assumption) (by decide)) :
    b.Follows μ (State.thermStat s) := by
  unfold State.thermStat
  repeat' (first
    | (with_reducible exact Sub.trans okm (by decide))
    | with_reducible assumption
    | (with_reducible apply State.fset_follows))

theorem State.tableMode_follows {μ : Nat} {b : State} {s : State} (hb : b.Follows μ s)
    (okm : Sub 0x1000000000002 μ := by exact Sub.trans (by assumption) (by decide)) :
    b.Follows μ (State.tableMode s) := by
  unfold State.tableMode
  repeat' (first
    | (with_reducible exact Sub.trans okm (by decide))
    | with_reducible assumption
    | (with_reducible apply State.tableTrim_follows)
    | (with_reducible apply State.fset_follows))

theorem State.cutMain_follows {μ : Nat} {b : State} {s : State} (hb : b.Follows μ s)
    (okm : Sub 0x296ff87dbd07cf μ := by exact Sub.trans (by assumption) (by decide)) :
    b.Follows μ (State.cutMain s) := by
  unfold State.cutMain
  repeat' (first
    | (with_reducible exact Sub.trans okm (by decide))
    | with_reducible assumption
    | (with_reducible apply State.coreReset_follows)
    | (with_reducible apply State.setArb_follows)
    | (with_reducible apply State.tableMode_follows)
    | (with_reducible apply State.Follows.ite)
    | (intro _))

theorem State.shutdown_follows {μ : Nat} {b : State} {s : State} (src : Nat) (reading : Nat) (hb : b.Follows μ s)
    (okm : Sub 0x2b7ff87dbd07cf μ := by exact Sub.trans (by assumption) (by decide)) :
    b.Follows μ (State.shutdown s src reading) := by
  unfold State.shutdown
  repeat' (first
    | (with_reducible exact Sub.trans okm (by decide))
    | with_reducible assumption
    | (with_reducible apply State.arbDrop_follows)
    | (with_reducible apply State.arbGive_follows)
    | (with_reducible apply State.fset_follows)
    | (with_reducible apply State.fsat_follows)
    | (with_reducible apply State.cutMain_follows)
    | (with_reducible apply State.logNow_follows)
    | (with_reducible apply State.emit_follows)
    | (fail_if_no_progress with_reducible refine State.Follows.set_supply ?_ (Sub.trans okm (by decide))))

theorem State.sensors_follows {μ : Nat} {b : State} {s : State} (rs : List (Option Int)) (hb : b.Follows μ s)
    (okm : Sub 0x2b7ff87dbd07cf μ := by exact Sub.trans (by assumption) (by decide)) :
    b.Follows μ (State.sensors s rs) := by
  unfold State.sensors
  repeat' (first
    | (with_reducible exact Sub.trans okm (by decide))
    | with_reducible assumption
    | (with_reducible apply State.thermStat_follows)
    | (with_reducible apply State.zoneStep_follows)
    | (with_reducible apply State.convert_follows)
    | (with_reducible apply State.shutdown_follows)
    | (with_reducible apply State.Follows.foldl)
    | (with_reducible apply State.Follows.ite)
    | (intro _ _ _; beta_reduce)
    | (intro _)
    | split
    | fail_if_no_progress extract_lets)

theorem execSensorConversion_follows {μ : Nat} {b : State} {rs : List (Option Int)} {s : State} (hb : b.Follows μ s) {tt : State} (ee : execSensorConversion rs s = .next tt)
    (okm : Sub 0x2b7ff87dbd07cf μ := by exact Sub.trans (by assumption) (by decide)) :
    b.Follows μ tt := by
  unfold execSensorConversion at ee
  first | refine onUnit_follows ?_ ee | cases ee
  repeat' (first
    | (with_reducible exact Sub.trans okm (by decide))
    | with_reducible assumption
    | (with_reducible apply State.sensors_follows))

theorem execComparatorTrip_follows {μ : Nat} {b : State} {k : Nat} {s : State} (hb : b.Follows μ s) {tt : State} (ee : execComparatorTrip k s = .next tt)
    (okm : Sub 0x2b7ff87dbd07df μ := by exact Sub.trans (by assumption) (by decide)) :
    b.Follows μ tt := by
  unfold execComparatorTrip at ee
  first | refine onUnit_follows ?_ ee | cases ee
  repeat' (first
    | (with_reducible exact Sub.trans okm (by decide))
    | with_reducible assumption
    | (with_reducible apply State.drawNat_follows)
    | (with_reducible apply State.shutdown_follows)
    | (with_reducible apply State.Follows.ite)
    | (intro _))

theorem State.dwell_follows {μ : Nat} {b : State} {s : State} (z : Nat) (hb : b.Follows μ s)
    (okm : Sub 0x80000000002 μ := by exact Sub.trans (by assumption) (by decide)) :
    b.Follows μ (State.dwell s z) := by
  unfold State.dwell
  repeat' (first
    | (with_reducible exact Sub.trans okm (by decide))
    | with_reducible assumption
    | (with_reducible apply State.thermStat_follows)
    | (with_reducible apply State.setLevel_follows)
    | (with_reducible apply State.Follows.ite)
    | (intro _))

theorem execThrottleDwell_follows {μ : Nat} {b : State} {z : Nat} {s : State} (hb : b.Follows μ s) {tt : State} (ee : execThrottleDwell z s = .next tt)
    (okm : Sub 0x80000000002 μ := by exact Sub.trans (by assumption) (by decide)) :
    b.Follows μ tt := by
  unfold execThrottleDwell at ee
  first | refine onUnit_follows ?_ ee | cases ee
  repeat' (first
    | (with_reducible exact Sub.trans okm (by decide))
    | with_reducible assumption
    | (with_reducible apply State.dwell_follows))

theorem State.failAck_follows {μ : Nat} {b : State} {s : State} (zones : Nat) (hb : b.Follows μ s)
    (okm : Sub 0x2 μ := by exact Sub.trans (by assumption) (by decide)) :
    b.Follows μ (State.failAck s zones) := by
  unfold State.failAck
  repeat' (first
    | (with_reducible exact Sub.trans okm (by decide))
    | with_reducible assumption
    | (with_reducible apply State.fset_follows)
    | (with_reducible apply State.Follows.foldl)
    | (with_reducible apply State.Follows.ite)
    | (intro _ _ _; beta_reduce)
    | (intro _))

theorem execFailAck_follows {μ : Nat} {b : State} {zones : Nat} {s : State} (hb : b.Follows μ s) {tt : State} (ee : execFailAck zones s = .next tt)
    (okm : Sub 0x2 μ := by exact Sub.trans (by assumption) (by decide)) :
    b.Follows μ tt := by
  unfold execFailAck at ee
  first | refine onUnit_follows ?_ ee | cases ee
  repeat' (first
    | (with_reducible exact Sub.trans okm (by decide))
    | with_reducible assumption
    | (with_reducible apply State.failAck_follows)
    | (with_reducible apply State.ifUp_follows)
    | (intro _))

theorem State.calibrate_follows {μ : Nat} {b : State} {s : State} (count : Nat) (hb : b.Follows μ s)
    (okm : Sub 0x5000000000012 μ := by exact Sub.trans (by assumption) (by decide)) :
    b.Follows μ (State.calibrate s count) := by
  unfold State.calibrate
  repeat' (first
    | (with_reducible exact Sub.trans okm (by decide))
    | with_reducible assumption
    | (with_reducible apply State.fset_follows)
    | (with_reducible apply State.drawNat_follows)
    | (fail_if_no_progress with_reducible refine State.Follows.set_therm_trims ?_ (Sub.trans okm (by decide)))
    | (with_reducible apply State.Follows.ite)
    | (intro _))

theorem execHairspringCalibrate_follows {μ : Nat} {b : State} {count : Nat} {s : State} (hb : b.Follows μ s) {tt : State} (ee : execHairspringCalibrate count s = .next tt)
    (okm : Sub 0x5000000000012 μ := by exact Sub.trans (by assumption) (by decide)) :
    b.Follows μ tt := by
  unfold execHairspringCalibrate at ee
  first | refine onUnit_follows ?_ ee | cases ee
  repeat' (first
    | (with_reducible exact Sub.trans okm (by decide))
    | with_reducible assumption
    | (with_reducible apply State.calibrate_follows))

theorem State.setSkip_follows {μ : Nat} {b : State} {s : State} (x : Nat) (hb : b.Follows μ s)
    (okm : Sub 0x2 μ := by exact Sub.trans (by assumption) (by decide)) :
    b.Follows μ (State.setSkip s x) := by
  unfold State.setSkip
  repeat' (first
    | (with_reducible exact Sub.trans okm (by decide))
    | with_reducible assumption
    | (with_reducible apply State.fset_follows))

theorem State.spend_follows {μ : Nat} {b : State} {s : State} (hb : b.Follows μ s)
    (okm : Sub 0x2 μ := by exact Sub.trans (by assumption) (by decide)) :
    b.Follows μ (State.spend s) := by
  unfold State.spend
  repeat' (first
    | (with_reducible exact Sub.trans okm (by decide))
    | with_reducible assumption
    | (with_reducible apply State.fset_follows)
    | (with_reducible apply State.raise_follows))

theorem State.fsetByte_follows {μ : Nat} {b : State} {s : State} (f : Fld) (w : Nat) (hb : b.Follows μ s)
    (okm : Sub 0x12 μ := by exact Sub.trans (by assumption) (by decide)) :
    b.Follows μ (State.fsetByte s f w) := by
  unfold State.fsetByte
  repeat' (first
    | (with_reducible exact Sub.trans okm (by decide))
    | with_reducible assumption
    | (with_reducible apply State.fset_follows)
    | (with_reducible apply State.drawNat_follows)
    | (with_reducible apply State.Follows.ite)
    | (intro _))

theorem State.powerEstimate_follows {μ : Nat} {b : State} {s : State} (w : Nat) (hb : b.Follows μ s)
    (okm : Sub 0x12 μ := by exact Sub.trans (by assumption) (by decide)) :
    b.Follows μ (State.powerEstimate s w) := by
  unfold State.powerEstimate
  repeat' (first
    | (with_reducible exact Sub.trans okm (by decide))
    | with_reducible assumption
    | (with_reducible apply State.fset_follows)
    | (with_reducible apply State.fsat_follows)
    | (with_reducible apply State.fsetByte_follows)
    | (with_reducible apply State.setSkip_follows)
    | (with_reducible apply State.Follows.ite)
    | (intro _))

theorem execPowerEstimate_follows {μ : Nat} {b : State} {w : Nat} {s : State} (hb : b.Follows μ s) {tt : State} (ee : execPowerEstimate w s = .next tt)
    (okm : Sub 0x12 μ := by exact Sub.trans (by assumption) (by decide)) :
    b.Follows μ tt := by
  unfold execPowerEstimate at ee
  first | refine onUnit_follows ?_ ee | cases ee
  repeat' (first
    | (with_reducible exact Sub.trans okm (by decide))
    | with_reducible assumption
    | (with_reducible apply State.powerEstimate_follows))

theorem execPowerWindowExpire_follows {μ : Nat} {b : State} {s : State} (hb : b.Follows μ s) {tt : State} (ee : execPowerWindowExpire s = .next tt)
    (okm : Sub 0x2 μ := by exact Sub.trans (by assumption) (by decide)) :
    b.Follows μ tt := by
  unfold execPowerWindowExpire at ee
  first | refine onUnit_follows ?_ ee | cases ee
  repeat' (first
    | (with_reducible exact Sub.trans okm (by decide))
    | with_reducible assumption
    | (with_reducible apply State.spend_follows)
    | (with_reducible apply State.Follows.ite)
    | (intro _))

theorem State.skipRelax_follows {μ : Nat} {b : State} {s : State} (hb : b.Follows μ s)
    (okm : Sub 0x2 μ := by exact Sub.trans (by assumption) (by decide)) :
    b.Follows μ (State.skipRelax s) := by
  unfold State.skipRelax
  repeat' (first
    | (with_reducible exact Sub.trans okm (by decide))
    | with_reducible assumption
    | (with_reducible apply State.setSkip_follows)
    | (with_reducible apply State.Follows.ite)
    | (intro _))

theorem execPowerSkipRelax_follows {μ : Nat} {b : State} {s : State} (hb : b.Follows μ s) {tt : State} (ee : execPowerSkipRelax s = .next tt)
    (okm : Sub 0x2 μ := by exact Sub.trans (by assumption) (by decide)) :
    b.Follows μ tt := by
  unfold execPowerSkipRelax at ee
  first | refine onUnit_follows ?_ ee | cases ee
  repeat' (first
    | (with_reducible exact Sub.trans okm (by decide))
    | with_reducible assumption
    | (with_reducible apply State.skipRelax_follows))

theorem State.rearm_follows {μ : Nat} {b : State} {s : State} (hb : b.Follows μ s)
    (okm : Sub 0x2 μ := by exact Sub.trans (by assumption) (by decide)) :
    b.Follows μ (State.rearm s) := by
  unfold State.rearm
  repeat' (first
    | (with_reducible exact Sub.trans okm (by decide))
    | with_reducible assumption
    | (with_reducible apply State.fset_follows)
    | (with_reducible apply State.setSkip_follows)
    | (with_reducible apply State.Follows.ite)
    | (intro _))

theorem execPowerWindowRearm_follows {μ : Nat} {b : State} {s : State} (hb : b.Follows μ s) {tt : State} (ee : execPowerWindowRearm s = .next tt)
    (okm : Sub 0x2 μ := by exact Sub.trans (by assumption) (by decide)) :
    b.Follows μ tt := by
  unfold execPowerWindowRearm at ee
  first | refine onUnit_follows ?_ ee | cases ee
  repeat' (first
    | (with_reducible exact Sub.trans okm (by decide))
    | with_reducible assumption
    | (with_reducible apply State.rearm_follows))

theorem State.takeGrant_follows {μ : Nat} {b : State} {s : State} (w : Nat) (hb : b.Follows μ s)
    (okm : Sub 0x12 μ := by exact Sub.trans (by assumption) (by decide)) :
    b.Follows μ (State.takeGrant s w) := by
  unfold State.takeGrant
  repeat' (first
    | (with_reducible exact Sub.trans okm (by decide))
    | with_reducible assumption
    | (with_reducible apply State.fset_follows)
    | (with_reducible apply State.drawNat_follows)
    | (with_reducible apply State.Follows.ite)
    | (intro _))

theorem execPowerGrant_follows {μ : Nat} {b : State} {w : Nat} {s : State} (hb : b.Follows μ s) {tt : State} (ee : execPowerGrant w s = .next tt)
    (okm : Sub 0x12 μ := by exact Sub.trans (by assumption) (by decide)) :
    b.Follows μ tt := by
  unfold execPowerGrant at ee
  first | refine onUnit_follows ?_ ee | cases ee
  repeat' (first
    | (with_reducible exact Sub.trans okm (by decide))
    | with_reducible assumption
    | (with_reducible apply State.takeGrant_follows))

theorem State.grantWithdraw_follows {μ : Nat} {b : State} {s : State} (hb : b.Follows μ s)
    (okm : Sub 0x2 μ := by exact Sub.trans (by assumption) (by decide)) :
    b.Follows μ (State.grantWithdraw s) := by
  unfold State.grantWithdraw
  repeat' (first
    | (with_reducible exact Sub.trans okm (by decide))
    | with_reducible assumption
    | (with_reducible apply State.fset_follows)
    | (with_reducible apply State.spend_follows)
    | (with_reducible apply State.Follows.ite)
    | (intro _))

theorem execPowerGrantWithdraw_follows {μ : Nat} {b : State} {s : State} (hb : b.Follows μ s) {tt : State} (ee : execPowerGrantWithdraw s = .next tt)
    (okm : Sub 0x2 μ := by exact Sub.trans (by assumption) (by decide)) :
    b.Follows μ tt := by
  unfold execPowerGrantWithdraw at ee
  first | refine onUnit_follows ?_ ee | cases ee
  repeat' (first
    | (with_reducible exact Sub.trans okm (by decide))
    | with_reducible assumption
    | (with_reducible apply State.grantWithdraw_follows))

theorem State.vddFall_follows {μ : Nat} {b : State} {s : State} (hb : b.Follows μ s)
    (okm : Sub 0x2b7ff87dbd07cf μ := by exact Sub.trans (by assumption) (by decide)) :
    b.Follows μ (State.vddFall s) := by
  unfold State.vddFall
  repeat' (first
    | (with_reducible exact Sub.trans okm (by decide))
    | with_reducible assumption
    | (with_reducible apply State.fsat_follows)
    | (with_reducible apply State.cutMain_follows)
    | (with_reducible apply State.logNow_follows)
    | (fail_if_no_progress with_reducible refine State.Follows.set_supply ?_ (Sub.trans okm (by decide)))
    | (with_reducible apply State.Follows.ite)
    | (intro _))

theorem execVddFall_follows {μ : Nat} {b : State} {s : State} (hb : b.Follows μ s) {tt : State} (ee : execVddFall s = .next tt)
    (okm : Sub 0x2b7ff87dbd07cf μ := by exact Sub.trans (by assumption) (by decide)) :
    b.Follows μ tt := by
  unfold execVddFall at ee
  first | refine onUnit_follows ?_ ee | cases ee
  repeat' (first
    | (with_reducible exact Sub.trans okm (by decide))
    | with_reducible assumption
    | (with_reducible apply State.vddFall_follows))

theorem execVaonLoss_follows {μ : Nat} {b : State} {s : State} (hb : b.Follows μ s) {tt : State} (ee : execVaonLoss s = .next tt)
    (okm : Sub 0x2000000000000 μ := by exact Sub.trans (by assumption) (by decide)) :
    b.Follows μ tt := by
  unfold execVaonLoss at ee
  first | refine onUnit_follows ?_ ee | cases ee
  repeat' (first
    | with_reducible assumption
    | (fail_if_no_progress with_reducible refine State.Follows.set_supply ?_ (Sub.trans okm (by decide)))
    | (with_reducible apply State.Follows.ite)
    | (intro _))

/-! ## BringUp -/

theorem State.readFuses_follows {μ : Nat} {b : State} {s : State} (bu : BringUp) (hb : b.Follows μ s)
    (okm : Sub 0x80000000002 μ := by exact Sub.trans (by assumption) (by decide)) :
    b.Follows μ (State.readFuses s bu) := by
  unfold State.readFuses
  repeat' (first
    | (with_reducible exact Sub.trans okm (by decide))
    | with_reducible assumption
    | (with_reducible apply State.fset_follows)
    | (with_reducible apply State.log_follows)
    | (with_reducible apply State.raise_follows)
    | (with_reducible apply State.rput_follows)
    | (with_reducible apply State.Follows.foldl)
    | (with_reducible apply State.Follows.ite)
    | (intro _ _ _; beta_reduce)
    | (intro _))

theorem State.systemMap_follows {μ : Nat} {b : State} {s : State} (hb : b.Follows μ s)
    (okm : Sub 0x1000 μ := by exact Sub.trans (by assumption) (by decide)) :
    b.Follows μ (State.systemMap s) := by
  unfold State.systemMap
  repeat' (first
    | (with_reducible exact Sub.trans okm (by decide))
    | with_reducible assumption
    | (with_reducible apply State.recapOn_follows)
    | (fail_if_no_progress with_reducible refine State.Follows.set_descs ?_ (Sub.trans okm (by decide))))

theorem State.reloadMap_follows {μ : Nat} {b : State} {s : State} (hb : b.Follows μ s)
    (okm : Sub 0x1002 μ := by exact Sub.trans (by assumption) (by decide)) :
    b.Follows μ (State.reloadMap s) := by
  unfold State.reloadMap
  repeat' (first
    | (with_reducible exact Sub.trans okm (by decide))
    | with_reducible assumption
    | (with_reducible apply State.fset_follows)
    | (with_reducible apply State.raise_follows)
    | (fail_if_no_progress with_reducible refine State.Follows.set_descs ?_ (Sub.trans okm (by decide)))
    | (with_reducible apply State.Follows.ite)
    | (intro _)
    | split)

theorem State.bringKeys_follows {μ : Nat} {b : State} {s : State} (bu : BringUp) (hb : b.Follows μ s)
    (okm : Sub 0x4cfb1cfbffec5f μ := by exact Sub.trans (by assumption) (by decide)) :
    b.Follows μ (State.bringKeys s bu) := by
  unfold State.bringKeys
  repeat' (first
    | (with_reducible exact Sub.trans okm (by decide))
    | with_reducible assumption
    | (with_reducible apply State.takeHub_follows)
    | (with_reducible apply State.keyLoad_follows)
    | (with_reducible apply State.raise_follows)
    | (with_reducible apply State.finishChange_follows)
    | (fail_if_no_progress with_reducible refine State.Follows.set_sec ?_ (Sub.trans okm (by decide)))
    | (with_reducible apply State.Follows.foldl)
    | (with_reducible apply State.Follows.ite)
    | (intro _ _ _; beta_reduce)
    | (intro _))

theorem State.trainSites_follows {μ : Nat} {b : State} {s : State} (bu : BringUp) (hb : b.Follows μ s)
    (okm : Sub 0x10080000504002 μ := by exact Sub.trans (by assumption) (by decide)) :
    b.Follows μ (State.trainSites s bu) := by
  unfold State.trainSites
  repeat' (first
    | (with_reducible exact Sub.trans okm (by decide))
    | with_reducible assumption
    | (with_reducible apply State.train_follows)
    | (with_reducible apply State.raise_follows)
    | (fail_if_no_progress with_reducible refine State.Follows.set_boot ?_ (Sub.trans okm (by decide)))
    | (with_reducible apply State.Follows.foldl)
    | (refine State.Follows.fst (by with_reducible assumption) ?_)
    | (intro _ _ _; beta_reduce)
    | split
    | fail_if_no_progress extract_lets)

theorem State.fillSites_follows {μ : Nat} {b : State} {s : State} (hb : b.Follows μ s)
    (okm : Sub 0x20800 μ := by exact Sub.trans (by assumption) (by decide)) :
    b.Follows μ (State.fillSites s) := by
  unfold State.fillSites
  repeat' (first
    | (with_reducible exact Sub.trans okm (by decide))
    | with_reducible assumption
    | (with_reducible apply State.fillStack_follows)
    | (with_reducible apply State.Follows.foldl)
    | (with_reducible apply State.Follows.ite)
    | (intro _ _ _; beta_reduce)
    | (intro _))

theorem State.bringSites_follows {μ : Nat} {b : State} {s : State} (bu : BringUp) (hb : b.Follows μ s)
    (okm : Sub 0x5cfb1cfbfffc5f μ := by exact Sub.trans (by assumption) (by decide)) :
    b.Follows μ (State.bringSites s bu) := by
  unfold State.bringSites
  repeat' (first
    | (with_reducible exact Sub.trans okm (by decide))
    | with_reducible assumption
    | (with_reducible apply State.fillSites_follows)
    | (with_reducible apply State.fset_follows)
    | (with_reducible apply State.systemMap_follows)
    | (with_reducible apply State.readFuses_follows)
    | (with_reducible apply State.bringKeys_follows)
    | (with_reducible apply State.trainSites_follows)
    | (with_reducible apply State.Follows.ite)
    | (intro _))

theorem State.coldTables_follows {μ : Nat} {b : State} {s : State} (hb : b.Follows μ s)
    (okm : Sub 0x1782000000 μ := by exact Sub.trans (by assumption) (by decide)) :
    b.Follows μ (State.coldTables s) := by
  unfold State.coldTables
  repeat' (first
    | with_reducible assumption
    | (fail_if_no_progress with_reducible refine State.Follows.set_dir_streams_lgUsed_lgSums_lgWalk_recipes ?_ (Sub.trans okm (by decide))))

theorem State.warmTables_follows {μ : Nat} {b : State} {s : State} (hb : b.Follows μ s)
    (okm : Sub 0x817fa000042 μ := by exact Sub.trans (by assumption) (by decide)) :
    b.Follows μ (State.warmTables s) := by
  unfold State.warmTables
  repeat' (first
    | (with_reducible exact Sub.trans okm (by decide))
    | with_reducible assumption
    | (with_reducible apply State.loadBuiltIn_follows)
    | (with_reducible apply State.rebuildLists_follows)
    | (with_reducible apply State.freeFrames_follows)
    | (with_reducible apply State.freeStream_follows)
    | (with_reducible apply State.loseMeta_follows)
    | (with_reducible apply State.loseLodging_follows)
    | (with_reducible apply State.losePool_follows)
    | (fail_if_no_progress with_reducible refine State.Follows.set_dir ?_ (Sub.trans okm (by decide)))
    | (with_reducible apply State.Follows.foldl)
    | (with_reducible apply State.Follows.ite)
    | (intro _ _ _; beta_reduce)
    | (intro _))

theorem State.siteOn_follows {μ : Nat} {b : State} {s : State} (k : Nat) (hb : b.Follows μ s)
    (okm : Sub 0x28007a190c53 μ := by exact Sub.trans (by assumption) (by decide)) :
    b.Follows μ (State.siteOn s k) := by
  unfold State.siteOn
  repeat' (first
    | (with_reducible exact Sub.trans okm (by decide))
    | with_reducible assumption
    | (with_reducible apply State.pairLost_follows)
    | (with_reducible apply State.fillSpares_follows)
    | (with_reducible apply State.setLink_follows)
    | (with_reducible apply State.resync_follows)
    | (with_reducible apply State.Follows.ite)
    | (intro _))

theorem State.goReady_follows {μ : Nat} {b : State} {s : State} (hb : b.Follows μ s)
    (okm : Sub 0x502903fa1d9c53 μ := by exact Sub.trans (by assumption) (by decide)) :
    b.Follows μ (State.goReady s) := by
  unfold State.goReady
  repeat' (first
    | (with_reducible exact Sub.trans okm (by decide))
    | with_reducible assumption
    | (with_reducible apply State.regrade_follows)
    | (with_reducible apply State.fset_follows)
    | (with_reducible apply State.siteOn_follows)
    | (with_reducible apply State.drawNat_follows)
    | (with_reducible apply State.retireAgain_follows)
    | (with_reducible apply State.retireDead_follows)
    | (fail_if_no_progress with_reducible refine State.Follows.set_boot ?_ (Sub.trans okm (by decide)))
    | (with_reducible apply State.Follows.foldl)
    | (intro _ _ _; beta_reduce))

theorem State.sysinit_follows {μ : Nat} {b : State} {s : State} (hb : b.Follows μ s)
    (okm : Sub 0x502917fa1d9c53 μ := by exact Sub.trans (by assumption) (by decide)) :
    b.Follows μ (State.sysinit s) := by
  unfold State.sysinit
  repeat' (first
    | (with_reducible exact Sub.trans okm (by decide))
    | with_reducible assumption
    | (with_reducible apply State.coldTables_follows)
    | (with_reducible apply State.warmTables_follows)
    | (with_reducible apply State.loadBuiltIn_follows)
    | (with_reducible apply State.goReady_follows)
    | (with_reducible apply State.Follows.ite)
    | (intro _))

theorem execSysinit_follows {μ : Nat} {b : State} {s : State} (hb : b.Follows μ s) {tt : State} (ee : execSysinit s = .next tt)
    (okm : Sub 0x502917fa1d9c53 μ := by exact Sub.trans (by assumption) (by decide)) :
    b.Follows μ tt := by
  unfold execSysinit at ee
  first | refine onUnit_follows ?_ ee | cases ee
  repeat' (first
    | (with_reducible exact Sub.trans okm (by decide))
    | with_reducible assumption
    | (with_reducible apply State.sysinit_follows)
    | (with_reducible apply State.Follows.ite)
    | (intro _))

theorem State.noKey_follows {μ : Nat} {b : State} {s : State} (hb : b.Follows μ s)
    (okm : Sub 0x2 μ := by exact Sub.trans (by assumption) (by decide)) :
    b.Follows μ (State.noKey s) := by
  unfold State.noKey
  repeat' (first
    | (with_reducible exact Sub.trans okm (by decide))
    | with_reducible assumption
    | (with_reducible apply State.raise_follows)
    | (with_reducible apply State.Follows.ite)
    | (intro _))

theorem execNoKeyTimeout_follows {μ : Nat} {b : State} {s : State} (hb : b.Follows μ s) {tt : State} (ee : execNoKeyTimeout s = .next tt)
    (okm : Sub 0x2 μ := by exact Sub.trans (by assumption) (by decide)) :
    b.Follows μ tt := by
  unfold execNoKeyTimeout at ee
  first | refine onUnit_follows ?_ ee | cases ee
  repeat' (first
    | (with_reducible exact Sub.trans okm (by decide))
    | with_reducible assumption
    | (with_reducible apply State.noKey_follows)
    | (with_reducible apply State.Follows.ite)
    | (intro _))

theorem State.coldReset_follows {μ : Nat} {b s : State} (bu : BringUp) (hb : b.Follows μ s)
    (okm : Sub 0x7fffffffffffdf μ := by exact Sub.trans (by assumption) (by decide)) : b.Follows μ (s.coldReset bu) := by
  unfold State.coldReset
  split
  rename_i s1 r heq
  have h1 : b.Follows μ s1 := State.Follows.fst heq (State.drawNat_follows (State.coreReset_follows _ hb))
  extract_lets src o src2 s2
  have h2 : b.Follows μ s2 := ⟨h1.queue, h1.clock, h1.shown, h1.drawn, h1.ids, fun _ => Memory.wf_nil _,
    h1.keep (Sub.trans okm (by decide)) State.mix_cold⟩
  exact State.bringSites_follows _ (State.fset_follows _ _ _ (State.coldTables_follows h2))

theorem execColdReset_follows {μ : Nat} {b : State} {bu : BringUp} {s : State} (hb : b.Follows μ s) {tt : State} (ee : execColdReset bu s = .next tt)
    (okm : Sub 0x7fffffffffffdf μ := by exact Sub.trans (by assumption) (by decide)) :
    b.Follows μ tt := by
  unfold execColdReset at ee
  first | refine onUnit_follows ?_ ee | cases ee
  repeat' (first
    | (with_reducible exact Sub.trans okm (by decide))
    | with_reducible assumption
    | (with_reducible apply State.coldReset_follows))

theorem State.warmFrom_follows {μ : Nat} {b : State} {s : State} (bu : BringUp) (kept : Nat) (last : Nat) (hb : b.Follows μ s)
    (okm : Sub 0x7dffffffffffdf μ := by exact Sub.trans (by assumption) (by decide)) :
    b.Follows μ (State.warmFrom s bu kept last) := by
  unfold State.warmFrom
  repeat' (first
    | (with_reducible exact Sub.trans okm (by decide))
    | with_reducible assumption
    | (with_reducible apply State.reloadMap_follows)
    | (with_reducible apply State.coreReset_follows)
    | (with_reducible apply State.fset_follows)
    | (with_reducible apply State.sysinit_follows)
    | (with_reducible apply State.bringSites_follows)
    | (fail_if_no_progress with_reducible refine State.Follows.set_sec_boot ?_ (Sub.trans okm (by decide))))

theorem State.drainAndSleep_follows {μ : Nat} {b : State} {s : State} (hb : b.Follows μ s)
    (okm : Sub 0x80002190c52 μ := by exact Sub.trans (by assumption) (by decide)) :
    b.Follows μ (State.drainAndSleep s) := by
  unfold State.drainAndSleep
  repeat' (first
    | (with_reducible exact Sub.trans okm (by decide))
    | with_reducible assumption
    | (with_reducible apply State.drainPcc_follows)
    | (with_reducible apply State.enterSref_follows)
    | (with_reducible apply State.Follows.foldl)
    | (intro _ _ _; beta_reduce))

theorem State.warmReset_follows {μ : Nat} {b : State} {s : State} (bu : BringUp) (hb : b.Follows μ s)
    (okm : Sub 0x7dffffffffffdf μ := by exact Sub.trans (by assumption) (by decide)) :
    b.Follows μ (State.warmReset s bu) := by
  unfold State.warmReset
  repeat' (first
    | (with_reducible exact Sub.trans okm (by decide))
    | with_reducible assumption
    | (with_reducible apply State.drainAndSleep_follows)
    | (with_reducible apply State.warmFrom_follows)
    | (with_reducible apply State.Follows.ite)
    | (intro _))

theorem execHubWarmReset_follows {μ : Nat} {b : State} {bu : BringUp} {s : State} (hb : b.Follows μ s) {tt : State} (ee : execHubWarmReset bu s = .next tt)
    (okm : Sub 0x7dffffffffffdf μ := by exact Sub.trans (by assumption) (by decide)) :
    b.Follows μ tt := by
  unfold execHubWarmReset at ee
  first | refine onUnit_follows ?_ ee | cases ee
  repeat' (first
    | (with_reducible exact Sub.trans okm (by decide))
    | with_reducible assumption
    | (with_reducible apply State.warmReset_follows))

theorem State.restart_follows {μ : Nat} {b : State} {s : State} (bu : BringUp) (last : Nat) (hb : b.Follows μ s)
    (okm : Sub 0x7fffffffffffdf μ := by exact Sub.trans (by assumption) (by decide)) :
    b.Follows μ (State.restart s bu last) := by
  unfold State.restart
  repeat' (first
    | (with_reducible exact Sub.trans okm (by decide))
    | with_reducible assumption
    | (with_reducible apply State.warmFrom_follows)
    | (with_reducible apply State.fset_follows)
    | (fail_if_no_progress with_reducible refine State.Follows.set_supply ?_ (Sub.trans okm (by decide)))
    | (with_reducible apply State.Follows.foldl)
    | (intro _ _ _; beta_reduce))

theorem State.coolDown_follows {μ : Nat} {b : State} {s : State} (bu : BringUp) (hb : b.Follows μ s)
    (okm : Sub 0x7fffffffffffdf μ := by exact Sub.trans (by assumption) (by decide)) :
    b.Follows μ (State.coolDown s bu) := by
  unfold State.coolDown
  repeat' (first
    | (with_reducible exact Sub.trans okm (by decide))
    | with_reducible assumption
    | (with_reducible apply State.restart_follows)
    | (with_reducible apply State.Follows.ite)
    | (intro _))

theorem execThermalRestart_follows {μ : Nat} {b : State} {bu : BringUp} {s : State} (hb : b.Follows μ s) {tt : State} (ee : execThermalRestart bu s = .next tt)
    (okm : Sub 0x7fffffffffffdf μ := by exact Sub.trans (by assumption) (by decide)) :
    b.Follows μ tt := by
  unfold execThermalRestart at ee
  first | refine onUnit_follows ?_ ee | cases ee
  repeat' (first
    | (with_reducible exact Sub.trans okm (by decide))
    | with_reducible assumption
    | (with_reducible apply State.coolDown_follows))

theorem State.vddRestore_follows {μ : Nat} {b : State} {s : State} (bu : BringUp) (hb : b.Follows μ s)
    (okm : Sub 0x7fffffffffffdf μ := by exact Sub.trans (by assumption) (by decide)) :
    b.Follows μ (State.vddRestore s bu) := by
  unfold State.vddRestore
  repeat' (first
    | (with_reducible exact Sub.trans okm (by decide))
    | with_reducible assumption
    | (with_reducible apply State.restart_follows)
    | (fail_if_no_progress with_reducible refine State.Follows.set_supply ?_ (Sub.trans okm (by decide)))
    | (with_reducible apply State.Follows.ite)
    | (intro _))

theorem execVddRestore_follows {μ : Nat} {b : State} {bu : BringUp} {s : State} (hb : b.Follows μ s) {tt : State} (ee : execVddRestore bu s = .next tt)
    (okm : Sub 0x7fffffffffffdf μ := by exact Sub.trans (by assumption) (by decide)) :
    b.Follows μ tt := by
  unfold execVddRestore at ee
  first | refine onUnit_follows ?_ ee | cases ee
  repeat' (first
    | (with_reducible exact Sub.trans okm (by decide))
    | with_reducible assumption
    | (with_reducible apply State.vddRestore_follows))

theorem State.entdaa_follows {μ : Nat} {b : State} {s : State} (addr : Nat) (hb : b.Follows μ s)
    (okm : Sub 0x2 μ := by exact Sub.trans (by assumption) (by decide)) :
    b.Follows μ (State.entdaa s addr) := by
  unfold State.entdaa
  repeat' (first
    | (with_reducible exact Sub.trans okm (by decide))
    | with_reducible assumption
    | (with_reducible apply State.fset_follows)
    | (with_reducible apply State.Follows.ite)
    | (intro _))

theorem execEntdaa_follows {μ : Nat} {b : State} {addr : Nat} {s : State} (hb : b.Follows μ s) {tt : State} (ee : execEntdaa addr s = .next tt)
    (okm : Sub 0x2 μ := by exact Sub.trans (by assumption) (by decide)) :
    b.Follows μ tt := by
  unfold execEntdaa at ee
  first | refine onUnit_follows ?_ ee | cases ee
  repeat' (first
    | (with_reducible exact Sub.trans okm (by decide))
    | with_reducible assumption
    | (with_reducible apply State.entdaa_follows))

theorem State.hotJoin_follows {μ : Nat} {b : State} {s : State} (hb : b.Follows μ s)
    (okm : Sub 0x2 μ := by exact Sub.trans (by assumption) (by decide)) :
    b.Follows μ (State.hotJoin s) := by
  unfold State.hotJoin
  repeat' (first
    | (with_reducible exact Sub.trans okm (by decide))
    | with_reducible assumption
    | (with_reducible apply State.fset_follows)
    | (with_reducible apply State.Follows.ite)
    | (intro _))

theorem execHotJoin_follows {μ : Nat} {b : State} {s : State} (hb : b.Follows μ s) {tt : State} (ee : execHotJoin s = .next tt)
    (okm : Sub 0x2 μ := by exact Sub.trans (by assumption) (by decide)) :
    b.Follows μ tt := by
  unfold execHotJoin at ee
  first | refine onUnit_follows ?_ ee | cases ee
  repeat' (first
    | (with_reducible exact Sub.trans okm (by decide))
    | with_reducible assumption
    | (with_reducible apply State.hotJoin_follows))

/-! ## Idle -/

theorem State.idle_follows {μ : Nat} {b : State} {s : State} (hb : b.Follows μ s)
    (okm : Sub 0x402903fa7fdc53 μ := by exact Sub.trans (by assumption) (by decide)) :
    b.Follows μ (State.idle s) := by
  unfold State.idle
  repeat' (first
    | (with_reducible exact Sub.trans okm (by decide))
    | with_reducible assumption
    | (with_reducible apply State.tickTo_follows)
    | (with_reducible apply State.returnStack_follows)
    | (with_reducible apply State.tick_follows)
    | split)

/-! ## MapRegs -/

theorem State.pput_follows {μ : Nat} {b : State} {s : State} (path : Nat) (r : Reg) (ix : List Nat) (w : Word) (hb : b.Follows μ s)
    (okm : Sub 0x4 μ := by exact Sub.trans (by assumption) (by decide)) :
    b.Follows μ (State.pput s path r ix w) := by
  unfold State.pput
  repeat' (first
    | with_reducible assumption
    | (fail_if_no_progress with_reducible refine State.Follows.set_pregs ?_ (Sub.trans okm (by decide))))

theorem State.mgmt_follows {μ : Nat} {b s : State} (c : Instr) (f : State → State) (hf : ∀ t, b.Follows μ t → b.Follows μ (f t))
    (hb : b.Follows μ s) (okm : Sub 0x20000000000000 μ := by exact Sub.trans (by assumption) (by decide)) : b.Follows μ (s.mgmt c f) :=
  State.Follows.ite (fun _ => hb) fun _ => State.Follows.ite (fun _ => State.Follows.set_mgmtQ hb) fun _ => hf _ hb

theorem State.byPath_follows {μ : Nat} {b s : State} (path : Nat) (c : Instr) (f : State → State)
    (hf : ∀ t, b.Follows μ t → b.Follows μ (f t)) (hb : b.Follows μ s)
    (okm : Sub 0x20000000000000 μ := by exact Sub.trans (by assumption) (by decide)) : b.Follows μ (s.byPath path c f) :=
  State.Follows.ite (fun _ => State.mgmt_follows _ _ hf hb) fun _ => State.Follows.ite (fun _ => hf _ hb) fun _ => hb

theorem State.regErr_follows {μ : Nat} {b : State} {s : State} (path : Nat) (off : Nat) (f : Fld) (hb : b.Follows μ s)
    (okm : Sub 0x12 μ := by exact Sub.trans (by assumption) (by decide)) :
    b.Follows μ (State.regErr s path off f) := by
  unfold State.regErr
  repeat' (first
    | (with_reducible exact Sub.trans okm (by decide))
    | with_reducible assumption
    | (with_reducible apply State.raise_follows)
    | (with_reducible apply State.drawNat_follows)
    | (with_reducible apply State.Follows.ite)
    | (intro _))

theorem State.mapErr_follows {μ : Nat} {b : State} {s : State} (f : Fld) (idx : Nat) (check : Nat) (hb : b.Follows μ s)
    (okm : Sub 0x2 μ := by exact Sub.trans (by assumption) (by decide)) :
    b.Follows μ (State.mapErr s f idx check) := by
  unfold State.mapErr
  repeat' (first
    | (with_reducible exact Sub.trans okm (by decide))
    | with_reducible assumption
    | (with_reducible apply State.raise_follows))

theorem State.descWrite_follows {μ : Nat} {b : State} {s : State} (path : Nat) (hb : b.Follows μ s)
    (okm : Sub 0x1012 μ := by exact Sub.trans (by assumption) (by decide)) :
    b.Follows μ (State.descWrite s path) := by
  unfold State.descWrite
  repeat' (first
    | (with_reducible exact Sub.trans okm (by decide))
    | with_reducible assumption
    | (with_reducible apply State.setDesc_follows)
    | (with_reducible apply State.regErr_follows)
    | (with_reducible apply State.mapErr_follows)
    | (with_reducible apply State.Follows.ite)
    | (intro _))

theorem execMapDescWrite_follows {μ : Nat} {b : State} {path : Nat} {s : State} (hb : b.Follows μ s) {tt : State} (ee : execMapDescWrite path s = .next tt)
    (okm : Sub 0x20000000001012 μ := by exact Sub.trans (by assumption) (by decide)) :
    b.Follows μ tt := by
  unfold execMapDescWrite at ee
  first | refine onUnit_follows ?_ ee | cases ee
  repeat' (first
    | (with_reducible exact Sub.trans okm (by decide))
    | with_reducible assumption
    | (with_reducible apply State.descWrite_follows)
    | (with_reducible apply State.byPath_follows)
    | (intro _))

theorem State.stripRetired_follows {μ : Nat} {b : State} {s : State} (hb : b.Follows μ s)
    (okm : Sub 0x1002 μ := by exact Sub.trans (by assumption) (by decide)) :
    b.Follows μ (State.stripRetired s) := by
  unfold State.stripRetired
  repeat' (first
    | (with_reducible exact Sub.trans okm (by decide))
    | with_reducible assumption
    | (with_reducible apply State.mapWithout_follows)
    | (with_reducible apply State.recap_follows)
    | (with_reducible apply State.raise_follows)
    | (with_reducible apply State.Follows.ite)
    | (intro _))

theorem State.mapApply_follows {μ : Nat} {b : State} {s : State} (hb : b.Follows μ s)
    (okm : Sub 0x40080000001002 μ := by exact Sub.trans (by assumption) (by decide)) :
    b.Follows μ (State.mapApply s) := by
  unfold State.mapApply
  repeat' (first
    | (with_reducible exact Sub.trans okm (by decide))
    | with_reducible assumption
    | (with_reducible apply State.fset_follows)
    | (with_reducible apply State.mapErr_follows)
    | (with_reducible apply State.ocRecompute_follows)
    | (with_reducible apply State.copyMap_follows)
    | (with_reducible apply State.stripRetired_follows)
    | (with_reducible apply State.Follows.ite)
    | (intro _)
    | split
    | fail_if_no_progress extract_lets)

theorem execMapApply_follows {μ : Nat} {b : State} {path : Nat} {s : State} (hb : b.Follows μ s) {tt : State} (ee : execMapApply path s = .next tt)
    (okm : Sub 0x60080000001002 μ := by exact Sub.trans (by assumption) (by decide)) :
    b.Follows μ tt := by
  unfold execMapApply at ee
  first | refine onUnit_follows ?_ ee | cases ee
  repeat' (first
    | (with_reducible exact Sub.trans okm (by decide))
    | with_reducible assumption
    | (with_reducible apply State.mapApply_follows)
    | (with_reducible apply State.byPath_follows)
    | (intro _))

theorem State.mapSnap_follows {μ : Nat} {b : State} {s : State} (path : Nat) (idx : Nat) (hb : b.Follows μ s)
    (okm : Sub 0x4 μ := by exact Sub.trans (by assumption) (by decide)) :
    b.Follows μ (State.mapSnap s path idx) := by
  unfold State.mapSnap
  repeat' (first
    | (with_reducible exact Sub.trans okm (by decide))
    | with_reducible assumption
    | (with_reducible apply State.pput_follows))

theorem execMapSnapshot_follows {μ : Nat} {b : State} {path : Nat} {idx : Nat} {s : State} (hb : b.Follows μ s) {tt : State} (ee : execMapSnapshot path idx s = .next tt)
    (okm : Sub 0x20000000000004 μ := by exact Sub.trans (by assumption) (by decide)) :
    b.Follows μ tt := by
  unfold execMapSnapshot at ee
  first | refine onUnit_follows ?_ ee | cases ee
  repeat' (first
    | (with_reducible exact Sub.trans okm (by decide))
    | with_reducible assumption
    | (with_reducible apply State.mapSnap_follows)
    | (with_reducible apply State.byPath_follows)
    | (intro _))

theorem State.grSnap_follows {μ : Nat} {b : State} {s : State} (path : Nat) (id : Nat) (hb : b.Follows μ s)
    (okm : Sub 0x4 μ := by exact Sub.trans (by assumption) (by decide)) :
    b.Follows μ (State.grSnap s path id) := by
  unfold State.grSnap
  repeat' (first
    | (with_reducible exact Sub.trans okm (by decide))
    | with_reducible assumption
    | (with_reducible apply State.pput_follows)
    | (with_reducible apply State.Follows.foldl)
    | (intro _ _ _; beta_reduce))

theorem execGrSnapshot_follows {μ : Nat} {b : State} {path : Nat} {id : Nat} {s : State} (hb : b.Follows μ s) {tt : State} (ee : execGrSnapshot path id s = .next tt)
    (okm : Sub 0x20000000000004 μ := by exact Sub.trans (by assumption) (by decide)) :
    b.Follows μ tt := by
  unfold execGrSnapshot at ee
  first | refine onUnit_follows ?_ ee | cases ee
  repeat' (first
    | (with_reducible exact Sub.trans okm (by decide))
    | with_reducible assumption
    | (with_reducible apply State.byPath_follows)
    | (with_reducible apply State.grSnap_follows)
    | (intro _))

theorem State.dirSnap_follows {μ : Nat} {b : State} {s : State} (path : Nat) (seg : Nat) (hb : b.Follows μ s)
    (okm : Sub 0x14 μ := by exact Sub.trans (by assumption) (by decide)) :
    b.Follows μ (State.dirSnap s path seg) := by
  unfold State.dirSnap
  repeat' (first
    | (with_reducible exact Sub.trans okm (by decide))
    | with_reducible assumption
    | (with_reducible apply State.pput_follows)
    | (with_reducible apply State.drawNat_follows)
    | (with_reducible apply State.Follows.ite)
    | (intro _))

theorem execDirSnapshot_follows {μ : Nat} {b : State} {path : Nat} {seg : Nat} {s : State} (hb : b.Follows μ s) {tt : State} (ee : execDirSnapshot path seg s = .next tt)
    (okm : Sub 0x20000000000014 μ := by exact Sub.trans (by assumption) (by decide)) :
    b.Follows μ tt := by
  unfold execDirSnapshot at ee
  first | refine onUnit_follows ?_ ee | cases ee
  repeat' (first
    | (with_reducible exact Sub.trans okm (by decide))
    | with_reducible assumption
    | (with_reducible apply State.dirSnap_follows)
    | (with_reducible apply State.byPath_follows)
    | (intro _))

theorem State.remapSnap_follows {μ : Nat} {b : State} {s : State} (path : Nat) (k : Nat) (idx : Nat) (hb : b.Follows μ s)
    (okm : Sub 0x4 μ := by exact Sub.trans (by assumption) (by decide)) :
    b.Follows μ (State.remapSnap s path k idx) := by
  unfold State.remapSnap
  repeat' (first
    | (with_reducible exact Sub.trans okm (by decide))
    | with_reducible assumption
    | (with_reducible apply State.pput_follows))

theorem execRemapSnapshot_follows {μ : Nat} {b : State} {path : Nat} {k : Nat} {idx : Nat} {s : State} (hb : b.Follows μ s) {tt : State} (ee : execRemapSnapshot path k idx s = .next tt)
    (okm : Sub 0x20000000000004 μ := by exact Sub.trans (by assumption) (by decide)) :
    b.Follows μ tt := by
  unfold execRemapSnapshot at ee
  first | refine onUnit_follows ?_ ee | cases ee
  repeat' (first
    | (with_reducible exact Sub.trans okm (by decide))
    | with_reducible assumption
    | (with_reducible apply State.remapSnap_follows)
    | (with_reducible apply State.byPath_follows)
    | (intro _))

/-! ## Regs -/

theorem State.writeOwn_follows {μ : Nat} {b : State} {s : State} (path : Nat) (r : Reg) (ix : List Nat) (v : Nat) (hb : b.Follows μ s)
    (okm : Sub 0x14 μ := by exact Sub.trans (by assumption) (by decide)) :
    b.Follows μ (State.writeOwn s path r ix v) := by
  unfold State.writeOwn
  repeat' (first
    | (with_reducible exact Sub.trans okm (by decide))
    | with_reducible assumption
    | (with_reducible apply State.mapSnap_follows)
    | (with_reducible apply State.pput_follows)
    | (with_reducible apply State.remapSnap_follows)
    | (with_reducible apply State.dirSnap_follows)
    | (with_reducible apply State.grSnap_follows)
    | split)

theorem State.warmStart_follows {μ : Nat} {b : State} {s : State} (hb : b.Follows μ s)
    (okm : Sub 0x396ff87fbd1fdf μ := by exact Sub.trans (by assumption) (by decide)) :
    b.Follows μ (State.warmStart s) := by
  unfold State.warmStart
  repeat' (first
    | (with_reducible exact Sub.trans okm (by decide))
    | with_reducible assumption
    | (with_reducible apply State.drainAndSleep_follows)
    | (with_reducible apply State.reloadMap_follows)
    | (with_reducible apply State.coreReset_follows)
    | (with_reducible apply State.fset_follows)
    | (fail_if_no_progress with_reducible refine State.Follows.set_sec_boot ?_ (Sub.trans okm (by decide))))

theorem State.setLock_follows {μ : Nat} {b : State} {s : State} (hb : b.Follows μ s)
    (okm : Sub 0x2 μ := by exact Sub.trans (by assumption) (by decide)) :
    b.Follows μ (State.setLock s) := by
  unfold State.setLock
  repeat' (first
    | (with_reducible exact Sub.trans okm (by decide))
    | with_reducible assumption
    | (with_reducible apply State.fset_follows)
    | (with_reducible apply State.raise_follows)
    | (with_reducible apply State.Follows.ite)
    | (intro _))

theorem State.when_follows {μ : Nat} {b s : State} (c : Bool) (f : State → State) (hf : b.Follows μ s → b.Follows μ (f s)) (hb : b.Follows μ s) :
    b.Follows μ (s.when c f) := by
  unfold State.when
  split
  · exact hf hb
  · exact hb

theorem State.putReg_follows {μ : Nat} {b : State} {s : State} (path : Nat) (r : Reg) (ix : List Nat) (val : Nat) (hb : b.Follows μ s)
    (okm : Sub 0x79effcffbd1fdf μ := by exact Sub.trans (by assumption) (by decide)) :
    b.Follows μ (State.putReg s path r ix val) := by
  unfold State.putReg
  repeat' (first
    | (with_reducible exact Sub.trans okm (by decide))
    | with_reducible assumption
    | (with_reducible apply State.mapApply_follows)
    | (with_reducible apply State.drawReport_follows)
    | (with_reducible apply State.stackReset_follows)
    | (with_reducible apply State.tqWrite_follows)
    | (with_reducible apply State.coreEnable_follows)
    | (with_reducible apply State.gateSwap_follows)
    | (with_reducible apply State.writeOwn_follows)
    | (with_reducible apply State.prioWrite_follows)
    | (with_reducible apply State.ringCfg_follows)
    | (with_reducible apply State.warmStart_follows)
    | (with_reducible apply State.ringRestart_follows)
    | (with_reducible apply State.pmcWrite_follows)
    | (with_reducible apply State.gateCfgWrite_follows)
    | (with_reducible apply State.portCfgWrite_follows)
    | (with_reducible apply State.descWrite_follows)
    | (with_reducible apply State.monSnap_follows)
    | (with_reducible apply State.failAck_follows)
    | (with_reducible apply State.pmcClear_follows)
    | (with_reducible apply State.tqSelect_follows)
    | (with_reducible apply State.gateBusy_follows)
    | (with_reducible apply State.clearRequest_follows)
    | (with_reducible apply State.rput_follows)
    | (with_reducible apply State.ocRecompute_follows)
    | (with_reducible apply State.when_follows)
    | (with_reducible apply State.clusterReset_follows)
    | (with_reducible apply State.setLock_follows)
    | (with_reducible apply State.pmcConfig_follows)
    | (with_reducible apply State.Follows.ite)
    | (intro _)
    | split)

theorem State.regWrite_follows {μ : Nat} {b : State} {s : State} (path : Nat) (off : Nat) (size : Nat) (val : Word) (hb : b.Follows μ s)
    (okm : Sub 0x79effcffbd1fdf μ := by exact Sub.trans (by assumption) (by decide)) :
    b.Follows μ (State.regWrite s path off size val).1 := by
  unfold State.regWrite
  repeat' (first
    | (with_reducible exact Sub.trans okm (by decide))
    | with_reducible assumption
    | (with_reducible apply State.putReg_follows)
    | (with_reducible apply State.regErr_follows)
    | (with_reducible apply State.Follows.ite)
    | (intro _)
    | split)

theorem State.regRead_follows {μ : Nat} {b : State} {s : State} (path : Nat) (off : Nat) (size : Nat) (hb : b.Follows μ s)
    (okm : Sub 0x12 μ := by exact Sub.trans (by assumption) (by decide)) :
    b.Follows μ (State.regRead s path off size).1 := by
  unfold State.regRead
  repeat' (first
    | (with_reducible exact Sub.trans okm (by decide))
    | with_reducible assumption
    | (with_reducible apply State.regErr_follows)
    | (with_reducible apply State.rput_follows)
    | (with_reducible apply State.Follows.ite)
    | (intro _)
    | split)

theorem State.readBy_follows {μ : Nat} {b : State} {s : State} (path : Nat) (off : Nat) (size : Nat) (hb : b.Follows μ s)
    (okm : Sub 0x1a μ := by exact Sub.trans (by assumption) (by decide)) :
    b.Follows μ (State.readBy s path off size) := by
  unfold State.readBy
  repeat' (first
    | (with_reducible exact Sub.trans okm (by decide))
    | with_reducible assumption
    | (with_reducible apply State.regRead_follows)
    | (with_reducible apply State.emit_follows))

theorem execRegisterWrite_follows {μ : Nat} {b : State} {path : Nat} {off : Nat} {size : Nat} {val : Word} {s : State} (hb : b.Follows μ s) {tt : State} (ee : execRegisterWrite path off size val s = .next tt)
    (okm : Sub 0x79effcffbd1fdf μ := by exact Sub.trans (by assumption) (by decide)) :
    b.Follows μ tt := by
  unfold execRegisterWrite at ee
  first | refine onUnit_follows ?_ ee | cases ee
  repeat' (first
    | (with_reducible exact Sub.trans okm (by decide))
    | with_reducible assumption
    | (with_reducible apply State.regWrite_follows)
    | (with_reducible apply State.byPath_follows)
    | (intro _))

theorem execRegisterRead_follows {μ : Nat} {b : State} {path : Nat} {off : Nat} {size : Nat} {s : State} (hb : b.Follows μ s) {tt : State} (ee : execRegisterRead path off size s = .next tt)
    (okm : Sub 0x2000000000001a μ := by exact Sub.trans (by assumption) (by decide)) :
    b.Follows μ tt := by
  unfold execRegisterRead at ee
  first | refine onUnit_follows ?_ ee | cases ee
  repeat' (first
    | (with_reducible exact Sub.trans okm (by decide))
    | with_reducible assumption
    | (with_reducible apply State.mgmt_follows)
    | (with_reducible apply State.readBy_follows)
    | (with_reducible apply State.Follows.ite)
    | (intro _))

theorem State.writeAs_follows {μ : Nat} {b : State} {s : State} (path : Nat) (r : Reg) (ix : List Nat) (w : Word) (hb : b.Follows μ s)
    (okm : Sub 0x79effcffbd1fdf μ := by exact Sub.trans (by assumption) (by decide)) :
    b.Follows μ (State.writeAs s path r ix w) := by
  unfold State.writeAs
  repeat' (first
    | (with_reducible exact Sub.trans okm (by decide))
    | with_reducible assumption
    | (with_reducible apply State.regWrite_follows)
    | (with_reducible apply State.byPath_follows)
    | (intro _))

theorem execPortEnable_follows {μ : Nat} {b : State} {path : Nat} {n : Nat} {s : State} (hb : b.Follows μ s) {tt : State} (ee : execPortEnable path n s = .next tt)
    (okm : Sub 0x79effcffbd1fdf μ := by exact Sub.trans (by assumption) (by decide)) :
    b.Follows μ tt := by
  unfold execPortEnable at ee
  first | refine onUnit_follows ?_ ee | cases ee
  repeat' (first
    | (with_reducible exact Sub.trans okm (by decide))
    | with_reducible assumption
    | (with_reducible apply State.writeAs_follows))

theorem execPortDisable_follows {μ : Nat} {b : State} {path : Nat} {n : Nat} {s : State} (hb : b.Follows μ s) {tt : State} (ee : execPortDisable path n s = .next tt)
    (okm : Sub 0x79effcffbd1fdf μ := by exact Sub.trans (by assumption) (by decide)) :
    b.Follows μ tt := by
  unfold execPortDisable at ee
  first | refine onUnit_follows ?_ ee | cases ee
  repeat' (first
    | (with_reducible exact Sub.trans okm (by decide))
    | with_reducible assumption
    | (with_reducible apply State.writeAs_follows))

theorem execRingEnable_follows {μ : Nat} {b : State} {path : Nat} {n : Nat} {q : Nat} {s : State} (hb : b.Follows μ s) {tt : State} (ee : execRingEnable path n q s = .next tt)
    (okm : Sub 0x79effcffbd1fdf μ := by exact Sub.trans (by assumption) (by decide)) :
    b.Follows μ tt := by
  unfold execRingEnable at ee
  first | refine onUnit_follows ?_ ee | cases ee
  repeat' (first
    | (with_reducible exact Sub.trans okm (by decide))
    | with_reducible assumption
    | (with_reducible apply State.writeAs_follows))

theorem execRingDisable_follows {μ : Nat} {b : State} {path : Nat} {n : Nat} {q : Nat} {s : State} (hb : b.Follows μ s) {tt : State} (ee : execRingDisable path n q s = .next tt)
    (okm : Sub 0x79effcffbd1fdf μ := by exact Sub.trans (by assumption) (by decide)) :
    b.Follows μ tt := by
  unfold execRingDisable at ee
  first | refine onUnit_follows ?_ ee | cases ee
  repeat' (first
    | (with_reducible exact Sub.trans okm (by decide))
    | with_reducible assumption
    | (with_reducible apply State.writeAs_follows))

theorem execRingRestart_follows {μ : Nat} {b : State} {path : Nat} {n : Nat} {q : Nat} {s : State} (hb : b.Follows μ s) {tt : State} (ee : execRingRestart path n q s = .next tt)
    (okm : Sub 0x79effcffbd1fdf μ := by exact Sub.trans (by assumption) (by decide)) :
    b.Follows μ tt := by
  unfold execRingRestart at ee
  first | refine onUnit_follows ?_ ee | cases ee
  repeat' (first
    | (with_reducible exact Sub.trans okm (by decide))
    | with_reducible assumption
    | (with_reducible apply State.writeAs_follows))

theorem execBtLockSet_follows {μ : Nat} {b : State} {path : Nat} {s : State} (hb : b.Follows μ s) {tt : State} (ee : execBtLockSet path s = .next tt)
    (okm : Sub 0x79effcffbd1fdf μ := by exact Sub.trans (by assumption) (by decide)) :
    b.Follows μ tt := by
  unfold execBtLockSet at ee
  first | refine onUnit_follows ?_ ee | cases ee
  repeat' (first
    | (with_reducible exact Sub.trans okm (by decide))
    | with_reducible assumption
    | (with_reducible apply State.writeAs_follows))

theorem State.takeEid_follows {μ : Nat} {b : State} {s : State} (eid : Nat) (hb : b.Follows μ s)
    (okm : Sub 0xa μ := by exact Sub.trans (by assumption) (by decide)) :
    b.Follows μ (State.takeEid s eid) := by
  unfold State.takeEid
  repeat' (first
    | (with_reducible exact Sub.trans okm (by decide))
    | with_reducible assumption
    | (with_reducible apply State.fset_follows)
    | (with_reducible apply State.emit_follows))

theorem execSetEndpointId_follows {μ : Nat} {b : State} {eid : Nat} {s : State} (hb : b.Follows μ s) {tt : State} (ee : execSetEndpointId eid s = .next tt)
    (okm : Sub 0x2000000000000a μ := by exact Sub.trans (by assumption) (by decide)) :
    b.Follows μ tt := by
  unfold execSetEndpointId at ee
  first | refine onUnit_follows ?_ ee | cases ee
  repeat' (first
    | (with_reducible exact Sub.trans okm (by decide))
    | with_reducible assumption
    | (with_reducible apply State.mgmt_follows)
    | (with_reducible apply State.takeEid_follows)
    | (intro _))

theorem State.showEid_follows {μ : Nat} {b : State} {s : State} (hb : b.Follows μ s)
    (okm : Sub 0x8 μ := by exact Sub.trans (by assumption) (by decide)) :
    b.Follows μ (State.showEid s) := by
  unfold State.showEid
  repeat' (first
    | (with_reducible exact Sub.trans okm (by decide))
    | with_reducible assumption
    | (with_reducible apply State.emit_follows))

theorem execGetEndpointId_follows {μ : Nat} {b : State} {s : State} (hb : b.Follows μ s) {tt : State} (ee : execGetEndpointId s = .next tt)
    (okm : Sub 0x20000000000008 μ := by exact Sub.trans (by assumption) (by decide)) :
    b.Follows μ tt := by
  unfold execGetEndpointId at ee
  first | refine onUnit_follows ?_ ee | cases ee
  repeat' (first
    | (with_reducible exact Sub.trans okm (by decide))
    | with_reducible assumption
    | (with_reducible apply State.mgmt_follows)
    | (with_reducible apply State.showEid_follows)
    | (intro _))

theorem State.showUuid_follows {μ : Nat} {b : State} {s : State} (hb : b.Follows μ s)
    (okm : Sub 0x8 μ := by exact Sub.trans (by assumption) (by decide)) :
    b.Follows μ (State.showUuid s) := by
  unfold State.showUuid
  repeat' (first
    | (with_reducible exact Sub.trans okm (by decide))
    | with_reducible assumption
    | (with_reducible apply State.emit_follows))

theorem execGetEndpointUuid_follows {μ : Nat} {b : State} {s : State} (hb : b.Follows μ s) {tt : State} (ee : execGetEndpointUuid s = .next tt)
    (okm : Sub 0x20000000000008 μ := by exact Sub.trans (by assumption) (by decide)) :
    b.Follows μ tt := by
  unfold execGetEndpointUuid at ee
  first | refine onUnit_follows ?_ ee | cases ee
  repeat' (first
    | (with_reducible exact Sub.trans okm (by decide))
    | with_reducible assumption
    | (with_reducible apply State.showUuid_follows)
    | (with_reducible apply State.mgmt_follows)
    | (intro _))

theorem State.showVersions_follows {μ : Nat} {b : State} {s : State} (hb : b.Follows μ s)
    (okm : Sub 0x8 μ := by exact Sub.trans (by assumption) (by decide)) :
    b.Follows μ (State.showVersions s) := by
  unfold State.showVersions
  repeat' (first
    | (with_reducible exact Sub.trans okm (by decide))
    | with_reducible assumption
    | (with_reducible apply State.emit_follows))

theorem execGetMctpVersionSupport_follows {μ : Nat} {b : State} {s : State} (hb : b.Follows μ s) {tt : State} (ee : execGetMctpVersionSupport s = .next tt)
    (okm : Sub 0x20000000000008 μ := by exact Sub.trans (by assumption) (by decide)) :
    b.Follows μ tt := by
  unfold execGetMctpVersionSupport at ee
  first | refine onUnit_follows ?_ ee | cases ee
  repeat' (first
    | (with_reducible exact Sub.trans okm (by decide))
    | with_reducible assumption
    | (with_reducible apply State.mgmt_follows)
    | (with_reducible apply State.showVersions_follows)
    | (intro _))

theorem State.showTypes_follows {μ : Nat} {b : State} {s : State} (hb : b.Follows μ s)
    (okm : Sub 0x8 μ := by exact Sub.trans (by assumption) (by decide)) :
    b.Follows μ (State.showTypes s) := by
  unfold State.showTypes
  repeat' (first
    | (with_reducible exact Sub.trans okm (by decide))
    | with_reducible assumption
    | (with_reducible apply State.emit_follows))

theorem execGetMessageTypeSupport_follows {μ : Nat} {b : State} {s : State} (hb : b.Follows μ s) {tt : State} (ee : execGetMessageTypeSupport s = .next tt)
    (okm : Sub 0x20000000000008 μ := by exact Sub.trans (by assumption) (by decide)) :
    b.Follows μ tt := by
  unfold execGetMessageTypeSupport at ee
  first | refine onUnit_follows ?_ ee | cases ee
  repeat' (first
    | (with_reducible exact Sub.trans okm (by decide))
    | with_reducible assumption
    | (with_reducible apply State.mgmt_follows)
    | (with_reducible apply State.showTypes_follows)
    | (intro _))

theorem State.mgmtRead_follows {μ : Nat} {b : State} {s : State} (off : Nat) (hb : b.Follows μ s)
    (okm : Sub 0x1a μ := by exact Sub.trans (by assumption) (by decide)) :
    b.Follows μ (State.mgmtRead s off) := by
  unfold State.mgmtRead
  repeat' (first
    | (with_reducible exact Sub.trans okm (by decide))
    | with_reducible assumption
    | (with_reducible apply State.regRead_follows)
    | (with_reducible apply State.emit_follows))

theorem execRegRead_follows {μ : Nat} {b : State} {off : Nat} {s : State} (hb : b.Follows μ s) {tt : State} (ee : execRegRead off s = .next tt)
    (okm : Sub 0x2000000000001a μ := by exact Sub.trans (by assumption) (by decide)) :
    b.Follows μ tt := by
  unfold execRegRead at ee
  first | refine onUnit_follows ?_ ee | cases ee
  repeat' (first
    | (with_reducible exact Sub.trans okm (by decide))
    | with_reducible assumption
    | (with_reducible apply State.mgmt_follows)
    | (with_reducible apply State.mgmtRead_follows)
    | (intro _))

theorem State.mgmtWrite_follows {μ : Nat} {b : State} {s : State} (off : Nat) (val : Word) (hb : b.Follows μ s)
    (okm : Sub 0x79effcffbd1fdf μ := by exact Sub.trans (by assumption) (by decide)) :
    b.Follows μ (State.mgmtWrite s off val) := by
  unfold State.mgmtWrite
  repeat' (first
    | (with_reducible exact Sub.trans okm (by decide))
    | with_reducible assumption
    | (with_reducible apply State.regWrite_follows)
    | (with_reducible apply State.emit_follows))

theorem execRegWrite_follows {μ : Nat} {b : State} {off : Nat} {val : Word} {s : State} (hb : b.Follows μ s) {tt : State} (ee : execRegWrite off val s = .next tt)
    (okm : Sub 0x79effcffbd1fdf μ := by exact Sub.trans (by assumption) (by decide)) :
    b.Follows μ tt := by
  unfold execRegWrite at ee
  first | refine onUnit_follows ?_ ee | cases ee
  repeat' (first
    | (with_reducible exact Sub.trans okm (by decide))
    | with_reducible assumption
    | (with_reducible apply State.mgmtWrite_follows)
    | (with_reducible apply State.mgmt_follows)
    | (intro _))

theorem execWarmResetRequest_follows {μ : Nat} {b : State} {path : Nat} {bu : BringUp} {s : State} (hb : b.Follows μ s) {tt : State} (ee : execWarmResetRequest path bu s = .next tt)
    (okm : Sub 0x7dffffffffffdf μ := by exact Sub.trans (by assumption) (by decide)) :
    b.Follows μ tt := by
  unfold execWarmResetRequest at ee
  first | refine onUnit_follows ?_ ee | cases ee
  repeat' (first
    | (with_reducible exact Sub.trans okm (by decide))
    | with_reducible assumption
    | (with_reducible apply State.warmReset_follows)
    | (with_reducible apply State.byPath_follows)
    | (intro _))

theorem State.serveOne_follows {μ : Nat} {b : State} {s : State} (c : Instr) (hb : b.Follows μ s)
    (okm : Sub 0x7dffffffffffdf μ := by exact Sub.trans (by assumption) (by decide)) :
    b.Follows μ (State.serveOne s c) := by
  unfold State.serveOne
  repeat' (first
    | (with_reducible exact Sub.trans okm (by decide))
    | with_reducible assumption
    | (with_reducible apply State.mapApply_follows)
    | (with_reducible apply State.mapSnap_follows)
    | (with_reducible apply State.mgmtWrite_follows)
    | (with_reducible apply State.showUuid_follows)
    | (with_reducible apply State.readBy_follows)
    | (with_reducible apply State.remapSnap_follows)
    | (with_reducible apply State.showTypes_follows)
    | (with_reducible apply State.regWrite_follows)
    | (with_reducible apply State.descWrite_follows)
    | (with_reducible apply State.warmReset_follows)
    | (with_reducible apply State.takeEid_follows)
    | (with_reducible apply State.dirSnap_follows)
    | (with_reducible apply State.showVersions_follows)
    | (with_reducible apply State.showEid_follows)
    | (with_reducible apply State.grSnap_follows)
    | (with_reducible apply State.mgmtRead_follows)
    | split)

theorem State.serveNext_follows {μ : Nat} {b : State} {s : State} (hb : b.Follows μ s)
    (okm : Sub 0x7dffffffffffdf μ := by exact Sub.trans (by assumption) (by decide)) :
    b.Follows μ (State.serveNext s) := by
  unfold State.serveNext
  repeat' (first
    | (with_reducible exact Sub.trans okm (by decide))
    | with_reducible assumption
    | (with_reducible apply State.serveOne_follows)
    | (fail_if_no_progress with_reducible refine State.Follows.set_mgmtQ ?_ (Sub.trans okm (by decide)))
    | split)

theorem State.serveMgmt_follows {μ : Nat} {b : State} {s : State} (hb : b.Follows μ s)
    (okm : Sub 0x7dffffffffffdf μ := by exact Sub.trans (by assumption) (by decide)) :
    b.Follows μ (State.serveMgmt s) := by
  unfold State.serveMgmt
  repeat' (first
    | (with_reducible exact Sub.trans okm (by decide))
    | with_reducible assumption
    | (with_reducible apply State.serveNext_follows)
    | (with_reducible apply State.Follows.foldl)
    | (with_reducible apply State.Follows.ite)
    | (intro _ _ _; beta_reduce)
    | (intro _))

theorem execFwReloadDone_follows {μ : Nat} {b : State} {k : Nat} {src : Nat} {s : State} (hb : b.Follows μ s) {tt : State} (ee : execFwReloadDone k src s = .next tt)
    (okm : Sub 0x7dffffffffffdf μ := by exact Sub.trans (by assumption) (by decide)) :
    b.Follows μ tt := by
  unfold execFwReloadDone at ee
  first | refine onUnit_follows ?_ ee | cases ee
  repeat' (first
    | (with_reducible exact Sub.trans okm (by decide))
    | with_reducible assumption
    | (with_reducible apply State.serveMgmt_follows)
    | (with_reducible apply State.fwReload_follows))

end Sys2Proof.Machine
end

