-- ==== Sys2Proof/Laws/State.lean ====
section
/-! SUPPORT. The components of the state after each named update: every component but the updated one is as before. Each
lemma holds by unfolding the update. -/
namespace Sys2Proof.Machine

variable (s : State)

/-! ### State.rput -/

@[simp] theorem State.rput_pending (r : Reg) (ix : List Nat) (w : Word) : (s.rput r ix w).pending = s.pending := rfl
@[simp] theorem State.rput_clk (r : Reg) (ix : List Nat) (w : Word) : (s.rput r ix w).clk = s.clk := rfl
@[simp] theorem State.rput_pregs (r : Reg) (ix : List Nat) (w : Word) : (s.rput r ix w).pregs = s.pregs := rfl
@[simp] theorem State.rput_out (r : Reg) (ix : List Nat) (w : Word) : (s.rput r ix w).out = s.out := rfl
@[simp] theorem State.rput_free (r : Reg) (ix : List Nat) (w : Word) : (s.rput r ix w).free = s.free := rfl
@[simp] theorem State.rput_nextId (r : Reg) (ix : List Nat) (w : Word) : (s.rput r ix w).nextId = s.nextId := rfl
@[simp] theorem State.rput_ports (r : Reg) (ix : List Nat) (w : Word) : (s.rput r ix w).ports = s.ports := rfl
@[simp] theorem State.rput_gates (r : Reg) (ix : List Nat) (w : Word) : (s.rput r ix w).gates = s.gates := rfl
@[simp] theorem State.rput_tenants (r : Reg) (ix : List Nat) (w : Word) : (s.rput r ix w).tenants = s.tenants := rfl
@[simp] theorem State.rput_wheel (r : Reg) (ix : List Nat) (w : Word) : (s.rput r ix w).wheel = s.wheel := rfl
@[simp] theorem State.rput_pccs (r : Reg) (ix : List Nat) (w : Word) : (s.rput r ix w).pccs = s.pccs := rfl
@[simp] theorem State.rput_mem (r : Reg) (ix : List Nat) (w : Word) : (s.rput r ix w).mem = s.mem := rfl
@[simp] theorem State.rput_descs (r : Reg) (ix : List Nat) (w : Word) : (s.rput r ix w).descs = s.descs := rfl
@[simp] theorem State.rput_remaps (r : Reg) (ix : List Nat) (w : Word) : (s.rput r ix w).remaps = s.remaps := rfl
@[simp] theorem State.rput_repairs (r : Reg) (ix : List Nat) (w : Word) : (s.rput r ix w).repairs = s.repairs := rfl
@[simp] theorem State.rput_spares (r : Reg) (ix : List Nat) (w : Word) : (s.rput r ix w).spares = s.spares := rfl
@[simp] theorem State.rput_rows (r : Reg) (ix : List Nat) (w : Word) : (s.rput r ix w).rows = s.rows := rfl
@[simp] theorem State.rput_epochs (r : Reg) (ix : List Nat) (w : Word) : (s.rput r ix w).epochs = s.epochs := rfl
@[simp] theorem State.rput_retPend (r : Reg) (ix : List Nat) (w : Word) : (s.rput r ix w).retPend = s.retPend := rfl
@[simp] theorem State.rput_ladder (r : Reg) (ix : List Nat) (w : Word) : (s.rput r ix w).ladder = s.ladder := rfl
@[simp] theorem State.rput_links (r : Reg) (ix : List Nat) (w : Word) : (s.rput r ix w).links = s.links := rfl
@[simp] theorem State.rput_returns (r : Reg) (ix : List Nat) (w : Word) : (s.rput r ix w).returns = s.returns := rfl
@[simp] theorem State.rput_laneMaps (r : Reg) (ix : List Nat) (w : Word) : (s.rput r ix w).laneMaps = s.laneMaps := rfl
@[simp] theorem State.rput_keys (r : Reg) (ix : List Nat) (w : Word) : (s.rput r ix w).keys = s.keys := rfl
@[simp] theorem State.rput_clearing (r : Reg) (ix : List Nat) (w : Word) : (s.rput r ix w).clearing = s.clearing := rfl
@[simp] theorem State.rput_dir (r : Reg) (ix : List Nat) (w : Word) : (s.rput r ix w).dir = s.dir := rfl
@[simp] theorem State.rput_hands (r : Reg) (ix : List Nat) (w : Word) : (s.rput r ix w).hands = s.hands := rfl
@[simp] theorem State.rput_fetches (r : Reg) (ix : List Nat) (w : Word) : (s.rput r ix w).fetches = s.fetches := rfl
@[simp] theorem State.rput_demandQ (r : Reg) (ix : List Nat) (w : Word) : (s.rput r ix w).demandQ = s.demandQ := rfl
@[simp] theorem State.rput_prefetchQ (r : Reg) (ix : List Nat) (w : Word) : (s.rput r ix w).prefetchQ = s.prefetchQ := rfl
@[simp] theorem State.rput_far (r : Reg) (ix : List Nat) (w : Word) : (s.rput r ix w).far = s.far := rfl
@[simp] theorem State.rput_streams (r : Reg) (ix : List Nat) (w : Word) : (s.rput r ix w).streams = s.streams := rfl
@[simp] theorem State.rput_lgUsed (r : Reg) (ix : List Nat) (w : Word) : (s.rput r ix w).lgUsed = s.lgUsed := rfl
@[simp] theorem State.rput_lgSums (r : Reg) (ix : List Nat) (w : Word) : (s.rput r ix w).lgSums = s.lgSums := rfl
@[simp] theorem State.rput_lgWalk (r : Reg) (ix : List Nat) (w : Word) : (s.rput r ix w).lgWalk = s.lgWalk := rfl
@[simp] theorem State.rput_attns (r : Reg) (ix : List Nat) (w : Word) : (s.rput r ix w).attns = s.attns := rfl
@[simp] theorem State.rput_recipes (r : Reg) (ix : List Nat) (w : Word) : (s.rput r ix w).recipes = s.recipes := rfl
@[simp] theorem State.rput_runs (r : Reg) (ix : List Nat) (w : Word) : (s.rput r ix w).runs = s.runs := rfl
@[simp] theorem State.rput_cores (r : Reg) (ix : List Nat) (w : Word) : (s.rput r ix w).cores = s.cores := rfl
@[simp] theorem State.rput_clReset (r : Reg) (ix : List Nat) (w : Word) : (s.rput r ix w).clReset = s.clReset := rfl
@[simp] theorem State.rput_packets (r : Reg) (ix : List Nat) (w : Word) : (s.rput r ix w).packets = s.packets := rfl
@[simp] theorem State.rput_fwq (r : Reg) (ix : List Nat) (w : Word) : (s.rput r ix w).fwq = s.fwq := rfl
@[simp] theorem State.rput_interps (r : Reg) (ix : List Nat) (w : Word) : (s.rput r ix w).interps = s.interps := rfl
@[simp] theorem State.rput_obs (r : Reg) (ix : List Nat) (w : Word) : (s.rput r ix w).obs = s.obs := rfl
@[simp] theorem State.rput_nvm (r : Reg) (ix : List Nat) (w : Word) : (s.rput r ix w).nvm = s.nvm := rfl
@[simp] theorem State.rput_arbs (r : Reg) (ix : List Nat) (w : Word) : (s.rput r ix w).arbs = s.arbs := rfl
@[simp] theorem State.rput_i3want (r : Reg) (ix : List Nat) (w : Word) : (s.rput r ix w).i3want = s.i3want := rfl
@[simp] theorem State.rput_i3at (r : Reg) (ix : List Nat) (w : Word) : (s.rput r ix w).i3at = s.i3at := rfl
@[simp] theorem State.rput_therm (r : Reg) (ix : List Nat) (w : Word) : (s.rput r ix w).therm = s.therm := rfl
@[simp] theorem State.rput_supply (r : Reg) (ix : List Nat) (w : Word) : (s.rput r ix w).supply = s.supply := rfl
@[simp] theorem State.rput_trims (r : Reg) (ix : List Nat) (w : Word) : (s.rput r ix w).trims = s.trims := rfl
@[simp] theorem State.rput_sec (r : Reg) (ix : List Nat) (w : Word) : (s.rput r ix w).sec = s.sec := rfl
@[simp] theorem State.rput_boot (r : Reg) (ix : List Nat) (w : Word) : (s.rput r ix w).boot = s.boot := rfl
@[simp] theorem State.rput_mgmtQ (r : Reg) (ix : List Nat) (w : Word) : (s.rput r ix w).mgmtQ = s.mgmtQ := rfl
@[simp] theorem State.rput_mapCopy (r : Reg) (ix : List Nat) (w : Word) : (s.rput r ix w).mapCopy = s.mapCopy := rfl

/-! ### State.fset -/

@[simp] theorem State.fset_pending (f : Fld) (ix : List Nat) (v : Nat) : (s.fset f ix v).pending = s.pending := rfl
@[simp] theorem State.fset_clk (f : Fld) (ix : List Nat) (v : Nat) : (s.fset f ix v).clk = s.clk := rfl
@[simp] theorem State.fset_pregs (f : Fld) (ix : List Nat) (v : Nat) : (s.fset f ix v).pregs = s.pregs := rfl
@[simp] theorem State.fset_out (f : Fld) (ix : List Nat) (v : Nat) : (s.fset f ix v).out = s.out := rfl
@[simp] theorem State.fset_free (f : Fld) (ix : List Nat) (v : Nat) : (s.fset f ix v).free = s.free := rfl
@[simp] theorem State.fset_nextId (f : Fld) (ix : List Nat) (v : Nat) : (s.fset f ix v).nextId = s.nextId := rfl
@[simp] theorem State.fset_ports (f : Fld) (ix : List Nat) (v : Nat) : (s.fset f ix v).ports = s.ports := rfl
@[simp] theorem State.fset_gates (f : Fld) (ix : List Nat) (v : Nat) : (s.fset f ix v).gates = s.gates := rfl
@[simp] theorem State.fset_tenants (f : Fld) (ix : List Nat) (v : Nat) : (s.fset f ix v).tenants = s.tenants := rfl
@[simp] theorem State.fset_wheel (f : Fld) (ix : List Nat) (v : Nat) : (s.fset f ix v).wheel = s.wheel := rfl
@[simp] theorem State.fset_pccs (f : Fld) (ix : List Nat) (v : Nat) : (s.fset f ix v).pccs = s.pccs := rfl
@[simp] theorem State.fset_mem (f : Fld) (ix : List Nat) (v : Nat) : (s.fset f ix v).mem = s.mem := rfl
@[simp] theorem State.fset_descs (f : Fld) (ix : List Nat) (v : Nat) : (s.fset f ix v).descs = s.descs := rfl
@[simp] theorem State.fset_remaps (f : Fld) (ix : List Nat) (v : Nat) : (s.fset f ix v).remaps = s.remaps := rfl
@[simp] theorem State.fset_repairs (f : Fld) (ix : List Nat) (v : Nat) : (s.fset f ix v).repairs = s.repairs := rfl
@[simp] theorem State.fset_spares (f : Fld) (ix : List Nat) (v : Nat) : (s.fset f ix v).spares = s.spares := rfl
@[simp] theorem State.fset_rows (f : Fld) (ix : List Nat) (v : Nat) : (s.fset f ix v).rows = s.rows := rfl
@[simp] theorem State.fset_epochs (f : Fld) (ix : List Nat) (v : Nat) : (s.fset f ix v).epochs = s.epochs := rfl
@[simp] theorem State.fset_retPend (f : Fld) (ix : List Nat) (v : Nat) : (s.fset f ix v).retPend = s.retPend := rfl
@[simp] theorem State.fset_ladder (f : Fld) (ix : List Nat) (v : Nat) : (s.fset f ix v).ladder = s.ladder := rfl
@[simp] theorem State.fset_links (f : Fld) (ix : List Nat) (v : Nat) : (s.fset f ix v).links = s.links := rfl
@[simp] theorem State.fset_returns (f : Fld) (ix : List Nat) (v : Nat) : (s.fset f ix v).returns = s.returns := rfl
@[simp] theorem State.fset_laneMaps (f : Fld) (ix : List Nat) (v : Nat) : (s.fset f ix v).laneMaps = s.laneMaps := rfl
@[simp] theorem State.fset_keys (f : Fld) (ix : List Nat) (v : Nat) : (s.fset f ix v).keys = s.keys := rfl
@[simp] theorem State.fset_clearing (f : Fld) (ix : List Nat) (v : Nat) : (s.fset f ix v).clearing = s.clearing := rfl
@[simp] theorem State.fset_dir (f : Fld) (ix : List Nat) (v : Nat) : (s.fset f ix v).dir = s.dir := rfl
@[simp] theorem State.fset_hands (f : Fld) (ix : List Nat) (v : Nat) : (s.fset f ix v).hands = s.hands := rfl
@[simp] theorem State.fset_fetches (f : Fld) (ix : List Nat) (v : Nat) : (s.fset f ix v).fetches = s.fetches := rfl
@[simp] theorem State.fset_demandQ (f : Fld) (ix : List Nat) (v : Nat) : (s.fset f ix v).demandQ = s.demandQ := rfl
@[simp] theorem State.fset_prefetchQ (f : Fld) (ix : List Nat) (v : Nat) : (s.fset f ix v).prefetchQ = s.prefetchQ := rfl
@[simp] theorem State.fset_far (f : Fld) (ix : List Nat) (v : Nat) : (s.fset f ix v).far = s.far := rfl
@[simp] theorem State.fset_streams (f : Fld) (ix : List Nat) (v : Nat) : (s.fset f ix v).streams = s.streams := rfl
@[simp] theorem State.fset_lgUsed (f : Fld) (ix : List Nat) (v : Nat) : (s.fset f ix v).lgUsed = s.lgUsed := rfl
@[simp] theorem State.fset_lgSums (f : Fld) (ix : List Nat) (v : Nat) : (s.fset f ix v).lgSums = s.lgSums := rfl
@[simp] theorem State.fset_lgWalk (f : Fld) (ix : List Nat) (v : Nat) : (s.fset f ix v).lgWalk = s.lgWalk := rfl
@[simp] theorem State.fset_attns (f : Fld) (ix : List Nat) (v : Nat) : (s.fset f ix v).attns = s.attns := rfl
@[simp] theorem State.fset_recipes (f : Fld) (ix : List Nat) (v : Nat) : (s.fset f ix v).recipes = s.recipes := rfl
@[simp] theorem State.fset_runs (f : Fld) (ix : List Nat) (v : Nat) : (s.fset f ix v).runs = s.runs := rfl
@[simp] theorem State.fset_cores (f : Fld) (ix : List Nat) (v : Nat) : (s.fset f ix v).cores = s.cores := rfl
@[simp] theorem State.fset_clReset (f : Fld) (ix : List Nat) (v : Nat) : (s.fset f ix v).clReset = s.clReset := rfl
@[simp] theorem State.fset_packets (f : Fld) (ix : List Nat) (v : Nat) : (s.fset f ix v).packets = s.packets := rfl
@[simp] theorem State.fset_fwq (f : Fld) (ix : List Nat) (v : Nat) : (s.fset f ix v).fwq = s.fwq := rfl
@[simp] theorem State.fset_interps (f : Fld) (ix : List Nat) (v : Nat) : (s.fset f ix v).interps = s.interps := rfl
@[simp] theorem State.fset_obs (f : Fld) (ix : List Nat) (v : Nat) : (s.fset f ix v).obs = s.obs := rfl
@[simp] theorem State.fset_nvm (f : Fld) (ix : List Nat) (v : Nat) : (s.fset f ix v).nvm = s.nvm := rfl
@[simp] theorem State.fset_arbs (f : Fld) (ix : List Nat) (v : Nat) : (s.fset f ix v).arbs = s.arbs := rfl
@[simp] theorem State.fset_i3want (f : Fld) (ix : List Nat) (v : Nat) : (s.fset f ix v).i3want = s.i3want := rfl
@[simp] theorem State.fset_i3at (f : Fld) (ix : List Nat) (v : Nat) : (s.fset f ix v).i3at = s.i3at := rfl
@[simp] theorem State.fset_therm (f : Fld) (ix : List Nat) (v : Nat) : (s.fset f ix v).therm = s.therm := rfl
@[simp] theorem State.fset_supply (f : Fld) (ix : List Nat) (v : Nat) : (s.fset f ix v).supply = s.supply := rfl
@[simp] theorem State.fset_trims (f : Fld) (ix : List Nat) (v : Nat) : (s.fset f ix v).trims = s.trims := rfl
@[simp] theorem State.fset_sec (f : Fld) (ix : List Nat) (v : Nat) : (s.fset f ix v).sec = s.sec := rfl
@[simp] theorem State.fset_boot (f : Fld) (ix : List Nat) (v : Nat) : (s.fset f ix v).boot = s.boot := rfl
@[simp] theorem State.fset_mgmtQ (f : Fld) (ix : List Nat) (v : Nat) : (s.fset f ix v).mgmtQ = s.mgmtQ := rfl
@[simp] theorem State.fset_mapCopy (f : Fld) (ix : List Nat) (v : Nat) : (s.fset f ix v).mapCopy = s.mapCopy := rfl

/-! ### State.fsat -/

@[simp] theorem State.fsat_pending (f : Fld) (ix : List Nat) (v : Nat) : (s.fsat f ix v).pending = s.pending := rfl
@[simp] theorem State.fsat_clk (f : Fld) (ix : List Nat) (v : Nat) : (s.fsat f ix v).clk = s.clk := rfl
@[simp] theorem State.fsat_pregs (f : Fld) (ix : List Nat) (v : Nat) : (s.fsat f ix v).pregs = s.pregs := rfl
@[simp] theorem State.fsat_out (f : Fld) (ix : List Nat) (v : Nat) : (s.fsat f ix v).out = s.out := rfl
@[simp] theorem State.fsat_free (f : Fld) (ix : List Nat) (v : Nat) : (s.fsat f ix v).free = s.free := rfl
@[simp] theorem State.fsat_nextId (f : Fld) (ix : List Nat) (v : Nat) : (s.fsat f ix v).nextId = s.nextId := rfl
@[simp] theorem State.fsat_ports (f : Fld) (ix : List Nat) (v : Nat) : (s.fsat f ix v).ports = s.ports := rfl
@[simp] theorem State.fsat_gates (f : Fld) (ix : List Nat) (v : Nat) : (s.fsat f ix v).gates = s.gates := rfl
@[simp] theorem State.fsat_tenants (f : Fld) (ix : List Nat) (v : Nat) : (s.fsat f ix v).tenants = s.tenants := rfl
@[simp] theorem State.fsat_wheel (f : Fld) (ix : List Nat) (v : Nat) : (s.fsat f ix v).wheel = s.wheel := rfl
@[simp] theorem State.fsat_pccs (f : Fld) (ix : List Nat) (v : Nat) : (s.fsat f ix v).pccs = s.pccs := rfl
@[simp] theorem State.fsat_mem (f : Fld) (ix : List Nat) (v : Nat) : (s.fsat f ix v).mem = s.mem := rfl
@[simp] theorem State.fsat_descs (f : Fld) (ix : List Nat) (v : Nat) : (s.fsat f ix v).descs = s.descs := rfl
@[simp] theorem State.fsat_remaps (f : Fld) (ix : List Nat) (v : Nat) : (s.fsat f ix v).remaps = s.remaps := rfl
@[simp] theorem State.fsat_repairs (f : Fld) (ix : List Nat) (v : Nat) : (s.fsat f ix v).repairs = s.repairs := rfl
@[simp] theorem State.fsat_spares (f : Fld) (ix : List Nat) (v : Nat) : (s.fsat f ix v).spares = s.spares := rfl
@[simp] theorem State.fsat_rows (f : Fld) (ix : List Nat) (v : Nat) : (s.fsat f ix v).rows = s.rows := rfl
@[simp] theorem State.fsat_epochs (f : Fld) (ix : List Nat) (v : Nat) : (s.fsat f ix v).epochs = s.epochs := rfl
@[simp] theorem State.fsat_retPend (f : Fld) (ix : List Nat) (v : Nat) : (s.fsat f ix v).retPend = s.retPend := rfl
@[simp] theorem State.fsat_ladder (f : Fld) (ix : List Nat) (v : Nat) : (s.fsat f ix v).ladder = s.ladder := rfl
@[simp] theorem State.fsat_links (f : Fld) (ix : List Nat) (v : Nat) : (s.fsat f ix v).links = s.links := rfl
@[simp] theorem State.fsat_returns (f : Fld) (ix : List Nat) (v : Nat) : (s.fsat f ix v).returns = s.returns := rfl
@[simp] theorem State.fsat_laneMaps (f : Fld) (ix : List Nat) (v : Nat) : (s.fsat f ix v).laneMaps = s.laneMaps := rfl
@[simp] theorem State.fsat_keys (f : Fld) (ix : List Nat) (v : Nat) : (s.fsat f ix v).keys = s.keys := rfl
@[simp] theorem State.fsat_clearing (f : Fld) (ix : List Nat) (v : Nat) : (s.fsat f ix v).clearing = s.clearing := rfl
@[simp] theorem State.fsat_dir (f : Fld) (ix : List Nat) (v : Nat) : (s.fsat f ix v).dir = s.dir := rfl
@[simp] theorem State.fsat_hands (f : Fld) (ix : List Nat) (v : Nat) : (s.fsat f ix v).hands = s.hands := rfl
@[simp] theorem State.fsat_fetches (f : Fld) (ix : List Nat) (v : Nat) : (s.fsat f ix v).fetches = s.fetches := rfl
@[simp] theorem State.fsat_demandQ (f : Fld) (ix : List Nat) (v : Nat) : (s.fsat f ix v).demandQ = s.demandQ := rfl
@[simp] theorem State.fsat_prefetchQ (f : Fld) (ix : List Nat) (v : Nat) : (s.fsat f ix v).prefetchQ = s.prefetchQ := rfl
@[simp] theorem State.fsat_far (f : Fld) (ix : List Nat) (v : Nat) : (s.fsat f ix v).far = s.far := rfl
@[simp] theorem State.fsat_streams (f : Fld) (ix : List Nat) (v : Nat) : (s.fsat f ix v).streams = s.streams := rfl
@[simp] theorem State.fsat_lgUsed (f : Fld) (ix : List Nat) (v : Nat) : (s.fsat f ix v).lgUsed = s.lgUsed := rfl
@[simp] theorem State.fsat_lgSums (f : Fld) (ix : List Nat) (v : Nat) : (s.fsat f ix v).lgSums = s.lgSums := rfl
@[simp] theorem State.fsat_lgWalk (f : Fld) (ix : List Nat) (v : Nat) : (s.fsat f ix v).lgWalk = s.lgWalk := rfl
@[simp] theorem State.fsat_attns (f : Fld) (ix : List Nat) (v : Nat) : (s.fsat f ix v).attns = s.attns := rfl
@[simp] theorem State.fsat_recipes (f : Fld) (ix : List Nat) (v : Nat) : (s.fsat f ix v).recipes = s.recipes := rfl
@[simp] theorem State.fsat_runs (f : Fld) (ix : List Nat) (v : Nat) : (s.fsat f ix v).runs = s.runs := rfl
@[simp] theorem State.fsat_cores (f : Fld) (ix : List Nat) (v : Nat) : (s.fsat f ix v).cores = s.cores := rfl
@[simp] theorem State.fsat_clReset (f : Fld) (ix : List Nat) (v : Nat) : (s.fsat f ix v).clReset = s.clReset := rfl
@[simp] theorem State.fsat_packets (f : Fld) (ix : List Nat) (v : Nat) : (s.fsat f ix v).packets = s.packets := rfl
@[simp] theorem State.fsat_fwq (f : Fld) (ix : List Nat) (v : Nat) : (s.fsat f ix v).fwq = s.fwq := rfl
@[simp] theorem State.fsat_interps (f : Fld) (ix : List Nat) (v : Nat) : (s.fsat f ix v).interps = s.interps := rfl
@[simp] theorem State.fsat_obs (f : Fld) (ix : List Nat) (v : Nat) : (s.fsat f ix v).obs = s.obs := rfl
@[simp] theorem State.fsat_nvm (f : Fld) (ix : List Nat) (v : Nat) : (s.fsat f ix v).nvm = s.nvm := rfl
@[simp] theorem State.fsat_arbs (f : Fld) (ix : List Nat) (v : Nat) : (s.fsat f ix v).arbs = s.arbs := rfl
@[simp] theorem State.fsat_i3want (f : Fld) (ix : List Nat) (v : Nat) : (s.fsat f ix v).i3want = s.i3want := rfl
@[simp] theorem State.fsat_i3at (f : Fld) (ix : List Nat) (v : Nat) : (s.fsat f ix v).i3at = s.i3at := rfl
@[simp] theorem State.fsat_therm (f : Fld) (ix : List Nat) (v : Nat) : (s.fsat f ix v).therm = s.therm := rfl
@[simp] theorem State.fsat_supply (f : Fld) (ix : List Nat) (v : Nat) : (s.fsat f ix v).supply = s.supply := rfl
@[simp] theorem State.fsat_trims (f : Fld) (ix : List Nat) (v : Nat) : (s.fsat f ix v).trims = s.trims := rfl
@[simp] theorem State.fsat_sec (f : Fld) (ix : List Nat) (v : Nat) : (s.fsat f ix v).sec = s.sec := rfl
@[simp] theorem State.fsat_boot (f : Fld) (ix : List Nat) (v : Nat) : (s.fsat f ix v).boot = s.boot := rfl
@[simp] theorem State.fsat_mgmtQ (f : Fld) (ix : List Nat) (v : Nat) : (s.fsat f ix v).mgmtQ = s.mgmtQ := rfl
@[simp] theorem State.fsat_mapCopy (f : Fld) (ix : List Nat) (v : Nat) : (s.fsat f ix v).mapCopy = s.mapCopy := rfl

/-! ### State.fadd -/

@[simp] theorem State.fadd_pending (f : Fld) (ix : List Nat) (v : Nat) : (s.fadd f ix v).pending = s.pending := rfl
@[simp] theorem State.fadd_clk (f : Fld) (ix : List Nat) (v : Nat) : (s.fadd f ix v).clk = s.clk := rfl
@[simp] theorem State.fadd_pregs (f : Fld) (ix : List Nat) (v : Nat) : (s.fadd f ix v).pregs = s.pregs := rfl
@[simp] theorem State.fadd_out (f : Fld) (ix : List Nat) (v : Nat) : (s.fadd f ix v).out = s.out := rfl
@[simp] theorem State.fadd_free (f : Fld) (ix : List Nat) (v : Nat) : (s.fadd f ix v).free = s.free := rfl
@[simp] theorem State.fadd_nextId (f : Fld) (ix : List Nat) (v : Nat) : (s.fadd f ix v).nextId = s.nextId := rfl
@[simp] theorem State.fadd_ports (f : Fld) (ix : List Nat) (v : Nat) : (s.fadd f ix v).ports = s.ports := rfl
@[simp] theorem State.fadd_gates (f : Fld) (ix : List Nat) (v : Nat) : (s.fadd f ix v).gates = s.gates := rfl
@[simp] theorem State.fadd_tenants (f : Fld) (ix : List Nat) (v : Nat) : (s.fadd f ix v).tenants = s.tenants := rfl
@[simp] theorem State.fadd_wheel (f : Fld) (ix : List Nat) (v : Nat) : (s.fadd f ix v).wheel = s.wheel := rfl
@[simp] theorem State.fadd_pccs (f : Fld) (ix : List Nat) (v : Nat) : (s.fadd f ix v).pccs = s.pccs := rfl
@[simp] theorem State.fadd_mem (f : Fld) (ix : List Nat) (v : Nat) : (s.fadd f ix v).mem = s.mem := rfl
@[simp] theorem State.fadd_descs (f : Fld) (ix : List Nat) (v : Nat) : (s.fadd f ix v).descs = s.descs := rfl
@[simp] theorem State.fadd_remaps (f : Fld) (ix : List Nat) (v : Nat) : (s.fadd f ix v).remaps = s.remaps := rfl
@[simp] theorem State.fadd_repairs (f : Fld) (ix : List Nat) (v : Nat) : (s.fadd f ix v).repairs = s.repairs := rfl
@[simp] theorem State.fadd_spares (f : Fld) (ix : List Nat) (v : Nat) : (s.fadd f ix v).spares = s.spares := rfl
@[simp] theorem State.fadd_rows (f : Fld) (ix : List Nat) (v : Nat) : (s.fadd f ix v).rows = s.rows := rfl
@[simp] theorem State.fadd_epochs (f : Fld) (ix : List Nat) (v : Nat) : (s.fadd f ix v).epochs = s.epochs := rfl
@[simp] theorem State.fadd_retPend (f : Fld) (ix : List Nat) (v : Nat) : (s.fadd f ix v).retPend = s.retPend := rfl
@[simp] theorem State.fadd_ladder (f : Fld) (ix : List Nat) (v : Nat) : (s.fadd f ix v).ladder = s.ladder := rfl
@[simp] theorem State.fadd_links (f : Fld) (ix : List Nat) (v : Nat) : (s.fadd f ix v).links = s.links := rfl
@[simp] theorem State.fadd_returns (f : Fld) (ix : List Nat) (v : Nat) : (s.fadd f ix v).returns = s.returns := rfl
@[simp] theorem State.fadd_laneMaps (f : Fld) (ix : List Nat) (v : Nat) : (s.fadd f ix v).laneMaps = s.laneMaps := rfl
@[simp] theorem State.fadd_keys (f : Fld) (ix : List Nat) (v : Nat) : (s.fadd f ix v).keys = s.keys := rfl
@[simp] theorem State.fadd_clearing (f : Fld) (ix : List Nat) (v : Nat) : (s.fadd f ix v).clearing = s.clearing := rfl
@[simp] theorem State.fadd_dir (f : Fld) (ix : List Nat) (v : Nat) : (s.fadd f ix v).dir = s.dir := rfl
@[simp] theorem State.fadd_hands (f : Fld) (ix : List Nat) (v : Nat) : (s.fadd f ix v).hands = s.hands := rfl
@[simp] theorem State.fadd_fetches (f : Fld) (ix : List Nat) (v : Nat) : (s.fadd f ix v).fetches = s.fetches := rfl
@[simp] theorem State.fadd_demandQ (f : Fld) (ix : List Nat) (v : Nat) : (s.fadd f ix v).demandQ = s.demandQ := rfl
@[simp] theorem State.fadd_prefetchQ (f : Fld) (ix : List Nat) (v : Nat) : (s.fadd f ix v).prefetchQ = s.prefetchQ := rfl
@[simp] theorem State.fadd_far (f : Fld) (ix : List Nat) (v : Nat) : (s.fadd f ix v).far = s.far := rfl
@[simp] theorem State.fadd_streams (f : Fld) (ix : List Nat) (v : Nat) : (s.fadd f ix v).streams = s.streams := rfl
@[simp] theorem State.fadd_lgUsed (f : Fld) (ix : List Nat) (v : Nat) : (s.fadd f ix v).lgUsed = s.lgUsed := rfl
@[simp] theorem State.fadd_lgSums (f : Fld) (ix : List Nat) (v : Nat) : (s.fadd f ix v).lgSums = s.lgSums := rfl
@[simp] theorem State.fadd_lgWalk (f : Fld) (ix : List Nat) (v : Nat) : (s.fadd f ix v).lgWalk = s.lgWalk := rfl
@[simp] theorem State.fadd_attns (f : Fld) (ix : List Nat) (v : Nat) : (s.fadd f ix v).attns = s.attns := rfl
@[simp] theorem State.fadd_recipes (f : Fld) (ix : List Nat) (v : Nat) : (s.fadd f ix v).recipes = s.recipes := rfl
@[simp] theorem State.fadd_runs (f : Fld) (ix : List Nat) (v : Nat) : (s.fadd f ix v).runs = s.runs := rfl
@[simp] theorem State.fadd_cores (f : Fld) (ix : List Nat) (v : Nat) : (s.fadd f ix v).cores = s.cores := rfl
@[simp] theorem State.fadd_clReset (f : Fld) (ix : List Nat) (v : Nat) : (s.fadd f ix v).clReset = s.clReset := rfl
@[simp] theorem State.fadd_packets (f : Fld) (ix : List Nat) (v : Nat) : (s.fadd f ix v).packets = s.packets := rfl
@[simp] theorem State.fadd_fwq (f : Fld) (ix : List Nat) (v : Nat) : (s.fadd f ix v).fwq = s.fwq := rfl
@[simp] theorem State.fadd_interps (f : Fld) (ix : List Nat) (v : Nat) : (s.fadd f ix v).interps = s.interps := rfl
@[simp] theorem State.fadd_obs (f : Fld) (ix : List Nat) (v : Nat) : (s.fadd f ix v).obs = s.obs := rfl
@[simp] theorem State.fadd_nvm (f : Fld) (ix : List Nat) (v : Nat) : (s.fadd f ix v).nvm = s.nvm := rfl
@[simp] theorem State.fadd_arbs (f : Fld) (ix : List Nat) (v : Nat) : (s.fadd f ix v).arbs = s.arbs := rfl
@[simp] theorem State.fadd_i3want (f : Fld) (ix : List Nat) (v : Nat) : (s.fadd f ix v).i3want = s.i3want := rfl
@[simp] theorem State.fadd_i3at (f : Fld) (ix : List Nat) (v : Nat) : (s.fadd f ix v).i3at = s.i3at := rfl
@[simp] theorem State.fadd_therm (f : Fld) (ix : List Nat) (v : Nat) : (s.fadd f ix v).therm = s.therm := rfl
@[simp] theorem State.fadd_supply (f : Fld) (ix : List Nat) (v : Nat) : (s.fadd f ix v).supply = s.supply := rfl
@[simp] theorem State.fadd_trims (f : Fld) (ix : List Nat) (v : Nat) : (s.fadd f ix v).trims = s.trims := rfl
@[simp] theorem State.fadd_sec (f : Fld) (ix : List Nat) (v : Nat) : (s.fadd f ix v).sec = s.sec := rfl
@[simp] theorem State.fadd_boot (f : Fld) (ix : List Nat) (v : Nat) : (s.fadd f ix v).boot = s.boot := rfl
@[simp] theorem State.fadd_mgmtQ (f : Fld) (ix : List Nat) (v : Nat) : (s.fadd f ix v).mgmtQ = s.mgmtQ := rfl
@[simp] theorem State.fadd_mapCopy (f : Fld) (ix : List Nat) (v : Nat) : (s.fadd f ix v).mapCopy = s.mapCopy := rfl

/-! ### State.setPort -/

@[simp] theorem State.setPort_pending (n : Nat) (p : Port) : (s.setPort n p).pending = s.pending := rfl
@[simp] theorem State.setPort_clk (n : Nat) (p : Port) : (s.setPort n p).clk = s.clk := rfl
@[simp] theorem State.setPort_regs (n : Nat) (p : Port) : (s.setPort n p).regs = s.regs := rfl
@[simp] theorem State.setPort_pregs (n : Nat) (p : Port) : (s.setPort n p).pregs = s.pregs := rfl
@[simp] theorem State.setPort_out (n : Nat) (p : Port) : (s.setPort n p).out = s.out := rfl
@[simp] theorem State.setPort_free (n : Nat) (p : Port) : (s.setPort n p).free = s.free := rfl
@[simp] theorem State.setPort_nextId (n : Nat) (p : Port) : (s.setPort n p).nextId = s.nextId := rfl
@[simp] theorem State.setPort_gates (n : Nat) (p : Port) : (s.setPort n p).gates = s.gates := rfl
@[simp] theorem State.setPort_tenants (n : Nat) (p : Port) : (s.setPort n p).tenants = s.tenants := rfl
@[simp] theorem State.setPort_wheel (n : Nat) (p : Port) : (s.setPort n p).wheel = s.wheel := rfl
@[simp] theorem State.setPort_pccs (n : Nat) (p : Port) : (s.setPort n p).pccs = s.pccs := rfl
@[simp] theorem State.setPort_mem (n : Nat) (p : Port) : (s.setPort n p).mem = s.mem := rfl
@[simp] theorem State.setPort_descs (n : Nat) (p : Port) : (s.setPort n p).descs = s.descs := rfl
@[simp] theorem State.setPort_remaps (n : Nat) (p : Port) : (s.setPort n p).remaps = s.remaps := rfl
@[simp] theorem State.setPort_repairs (n : Nat) (p : Port) : (s.setPort n p).repairs = s.repairs := rfl
@[simp] theorem State.setPort_spares (n : Nat) (p : Port) : (s.setPort n p).spares = s.spares := rfl
@[simp] theorem State.setPort_rows (n : Nat) (p : Port) : (s.setPort n p).rows = s.rows := rfl
@[simp] theorem State.setPort_epochs (n : Nat) (p : Port) : (s.setPort n p).epochs = s.epochs := rfl
@[simp] theorem State.setPort_retPend (n : Nat) (p : Port) : (s.setPort n p).retPend = s.retPend := rfl
@[simp] theorem State.setPort_ladder (n : Nat) (p : Port) : (s.setPort n p).ladder = s.ladder := rfl
@[simp] theorem State.setPort_links (n : Nat) (p : Port) : (s.setPort n p).links = s.links := rfl
@[simp] theorem State.setPort_returns (n : Nat) (p : Port) : (s.setPort n p).returns = s.returns := rfl
@[simp] theorem State.setPort_laneMaps (n : Nat) (p : Port) : (s.setPort n p).laneMaps = s.laneMaps := rfl
@[simp] theorem State.setPort_keys (n : Nat) (p : Port) : (s.setPort n p).keys = s.keys := rfl
@[simp] theorem State.setPort_clearing (n : Nat) (p : Port) : (s.setPort n p).clearing = s.clearing := rfl
@[simp] theorem State.setPort_dir (n : Nat) (p : Port) : (s.setPort n p).dir = s.dir := rfl
@[simp] theorem State.setPort_hands (n : Nat) (p : Port) : (s.setPort n p).hands = s.hands := rfl
@[simp] theorem State.setPort_fetches (n : Nat) (p : Port) : (s.setPort n p).fetches = s.fetches := rfl
@[simp] theorem State.setPort_demandQ (n : Nat) (p : Port) : (s.setPort n p).demandQ = s.demandQ := rfl
@[simp] theorem State.setPort_prefetchQ (n : Nat) (p : Port) : (s.setPort n p).prefetchQ = s.prefetchQ := rfl
@[simp] theorem State.setPort_far (n : Nat) (p : Port) : (s.setPort n p).far = s.far := rfl
@[simp] theorem State.setPort_streams (n : Nat) (p : Port) : (s.setPort n p).streams = s.streams := rfl
@[simp] theorem State.setPort_lgUsed (n : Nat) (p : Port) : (s.setPort n p).lgUsed = s.lgUsed := rfl
@[simp] theorem State.setPort_lgSums (n : Nat) (p : Port) : (s.setPort n p).lgSums = s.lgSums := rfl
@[simp] theorem State.setPort_lgWalk (n : Nat) (p : Port) : (s.setPort n p).lgWalk = s.lgWalk := rfl
@[simp] theorem State.setPort_attns (n : Nat) (p : Port) : (s.setPort n p).attns = s.attns := rfl
@[simp] theorem State.setPort_recipes (n : Nat) (p : Port) : (s.setPort n p).recipes = s.recipes := rfl
@[simp] theorem State.setPort_runs (n : Nat) (p : Port) : (s.setPort n p).runs = s.runs := rfl
@[simp] theorem State.setPort_cores (n : Nat) (p : Port) : (s.setPort n p).cores = s.cores := rfl
@[simp] theorem State.setPort_clReset (n : Nat) (p : Port) : (s.setPort n p).clReset = s.clReset := rfl
@[simp] theorem State.setPort_packets (n : Nat) (p : Port) : (s.setPort n p).packets = s.packets := rfl
@[simp] theorem State.setPort_fwq (n : Nat) (p : Port) : (s.setPort n p).fwq = s.fwq := rfl
@[simp] theorem State.setPort_interps (n : Nat) (p : Port) : (s.setPort n p).interps = s.interps := rfl
@[simp] theorem State.setPort_obs (n : Nat) (p : Port) : (s.setPort n p).obs = s.obs := rfl
@[simp] theorem State.setPort_nvm (n : Nat) (p : Port) : (s.setPort n p).nvm = s.nvm := rfl
@[simp] theorem State.setPort_arbs (n : Nat) (p : Port) : (s.setPort n p).arbs = s.arbs := rfl
@[simp] theorem State.setPort_i3want (n : Nat) (p : Port) : (s.setPort n p).i3want = s.i3want := rfl
@[simp] theorem State.setPort_i3at (n : Nat) (p : Port) : (s.setPort n p).i3at = s.i3at := rfl
@[simp] theorem State.setPort_therm (n : Nat) (p : Port) : (s.setPort n p).therm = s.therm := rfl
@[simp] theorem State.setPort_supply (n : Nat) (p : Port) : (s.setPort n p).supply = s.supply := rfl
@[simp] theorem State.setPort_trims (n : Nat) (p : Port) : (s.setPort n p).trims = s.trims := rfl
@[simp] theorem State.setPort_sec (n : Nat) (p : Port) : (s.setPort n p).sec = s.sec := rfl
@[simp] theorem State.setPort_boot (n : Nat) (p : Port) : (s.setPort n p).boot = s.boot := rfl
@[simp] theorem State.setPort_mgmtQ (n : Nat) (p : Port) : (s.setPort n p).mgmtQ = s.mgmtQ := rfl
@[simp] theorem State.setPort_mapCopy (n : Nat) (p : Port) : (s.setPort n p).mapCopy = s.mapCopy := rfl

/-! ### State.setPcc -/

@[simp] theorem State.setPcc_pending (n : Nat) (p : Pcc) : (s.setPcc n p).pending = s.pending := rfl
@[simp] theorem State.setPcc_clk (n : Nat) (p : Pcc) : (s.setPcc n p).clk = s.clk := rfl
@[simp] theorem State.setPcc_regs (n : Nat) (p : Pcc) : (s.setPcc n p).regs = s.regs := rfl
@[simp] theorem State.setPcc_pregs (n : Nat) (p : Pcc) : (s.setPcc n p).pregs = s.pregs := rfl
@[simp] theorem State.setPcc_out (n : Nat) (p : Pcc) : (s.setPcc n p).out = s.out := rfl
@[simp] theorem State.setPcc_free (n : Nat) (p : Pcc) : (s.setPcc n p).free = s.free := rfl
@[simp] theorem State.setPcc_nextId (n : Nat) (p : Pcc) : (s.setPcc n p).nextId = s.nextId := rfl
@[simp] theorem State.setPcc_ports (n : Nat) (p : Pcc) : (s.setPcc n p).ports = s.ports := rfl
@[simp] theorem State.setPcc_gates (n : Nat) (p : Pcc) : (s.setPcc n p).gates = s.gates := rfl
@[simp] theorem State.setPcc_tenants (n : Nat) (p : Pcc) : (s.setPcc n p).tenants = s.tenants := rfl
@[simp] theorem State.setPcc_wheel (n : Nat) (p : Pcc) : (s.setPcc n p).wheel = s.wheel := rfl
@[simp] theorem State.setPcc_mem (n : Nat) (p : Pcc) : (s.setPcc n p).mem = s.mem := rfl
@[simp] theorem State.setPcc_descs (n : Nat) (p : Pcc) : (s.setPcc n p).descs = s.descs := rfl
@[simp] theorem State.setPcc_remaps (n : Nat) (p : Pcc) : (s.setPcc n p).remaps = s.remaps := rfl
@[simp] theorem State.setPcc_repairs (n : Nat) (p : Pcc) : (s.setPcc n p).repairs = s.repairs := rfl
@[simp] theorem State.setPcc_spares (n : Nat) (p : Pcc) : (s.setPcc n p).spares = s.spares := rfl
@[simp] theorem State.setPcc_rows (n : Nat) (p : Pcc) : (s.setPcc n p).rows = s.rows := rfl
@[simp] theorem State.setPcc_epochs (n : Nat) (p : Pcc) : (s.setPcc n p).epochs = s.epochs := rfl
@[simp] theorem State.setPcc_retPend (n : Nat) (p : Pcc) : (s.setPcc n p).retPend = s.retPend := rfl
@[simp] theorem State.setPcc_ladder (n : Nat) (p : Pcc) : (s.setPcc n p).ladder = s.ladder := rfl
@[simp] theorem State.setPcc_links (n : Nat) (p : Pcc) : (s.setPcc n p).links = s.links := rfl
@[simp] theorem State.setPcc_returns (n : Nat) (p : Pcc) : (s.setPcc n p).returns = s.returns := rfl
@[simp] theorem State.setPcc_laneMaps (n : Nat) (p : Pcc) : (s.setPcc n p).laneMaps = s.laneMaps := rfl
@[simp] theorem State.setPcc_keys (n : Nat) (p : Pcc) : (s.setPcc n p).keys = s.keys := rfl
@[simp] theorem State.setPcc_clearing (n : Nat) (p : Pcc) : (s.setPcc n p).clearing = s.clearing := rfl
@[simp] theorem State.setPcc_dir (n : Nat) (p : Pcc) : (s.setPcc n p).dir = s.dir := rfl
@[simp] theorem State.setPcc_hands (n : Nat) (p : Pcc) : (s.setPcc n p).hands = s.hands := rfl
@[simp] theorem State.setPcc_fetches (n : Nat) (p : Pcc) : (s.setPcc n p).fetches = s.fetches := rfl
@[simp] theorem State.setPcc_demandQ (n : Nat) (p : Pcc) : (s.setPcc n p).demandQ = s.demandQ := rfl
@[simp] theorem State.setPcc_prefetchQ (n : Nat) (p : Pcc) : (s.setPcc n p).prefetchQ = s.prefetchQ := rfl
@[simp] theorem State.setPcc_far (n : Nat) (p : Pcc) : (s.setPcc n p).far = s.far := rfl
@[simp] theorem State.setPcc_streams (n : Nat) (p : Pcc) : (s.setPcc n p).streams = s.streams := rfl
@[simp] theorem State.setPcc_lgUsed (n : Nat) (p : Pcc) : (s.setPcc n p).lgUsed = s.lgUsed := rfl
@[simp] theorem State.setPcc_lgSums (n : Nat) (p : Pcc) : (s.setPcc n p).lgSums = s.lgSums := rfl
@[simp] theorem State.setPcc_lgWalk (n : Nat) (p : Pcc) : (s.setPcc n p).lgWalk = s.lgWalk := rfl
@[simp] theorem State.setPcc_attns (n : Nat) (p : Pcc) : (s.setPcc n p).attns = s.attns := rfl
@[simp] theorem State.setPcc_recipes (n : Nat) (p : Pcc) : (s.setPcc n p).recipes = s.recipes := rfl
@[simp] theorem State.setPcc_runs (n : Nat) (p : Pcc) : (s.setPcc n p).runs = s.runs := rfl
@[simp] theorem State.setPcc_cores (n : Nat) (p : Pcc) : (s.setPcc n p).cores = s.cores := rfl
@[simp] theorem State.setPcc_clReset (n : Nat) (p : Pcc) : (s.setPcc n p).clReset = s.clReset := rfl
@[simp] theorem State.setPcc_packets (n : Nat) (p : Pcc) : (s.setPcc n p).packets = s.packets := rfl
@[simp] theorem State.setPcc_fwq (n : Nat) (p : Pcc) : (s.setPcc n p).fwq = s.fwq := rfl
@[simp] theorem State.setPcc_interps (n : Nat) (p : Pcc) : (s.setPcc n p).interps = s.interps := rfl
@[simp] theorem State.setPcc_obs (n : Nat) (p : Pcc) : (s.setPcc n p).obs = s.obs := rfl
@[simp] theorem State.setPcc_nvm (n : Nat) (p : Pcc) : (s.setPcc n p).nvm = s.nvm := rfl
@[simp] theorem State.setPcc_arbs (n : Nat) (p : Pcc) : (s.setPcc n p).arbs = s.arbs := rfl
@[simp] theorem State.setPcc_i3want (n : Nat) (p : Pcc) : (s.setPcc n p).i3want = s.i3want := rfl
@[simp] theorem State.setPcc_i3at (n : Nat) (p : Pcc) : (s.setPcc n p).i3at = s.i3at := rfl
@[simp] theorem State.setPcc_therm (n : Nat) (p : Pcc) : (s.setPcc n p).therm = s.therm := rfl
@[simp] theorem State.setPcc_supply (n : Nat) (p : Pcc) : (s.setPcc n p).supply = s.supply := rfl
@[simp] theorem State.setPcc_trims (n : Nat) (p : Pcc) : (s.setPcc n p).trims = s.trims := rfl
@[simp] theorem State.setPcc_sec (n : Nat) (p : Pcc) : (s.setPcc n p).sec = s.sec := rfl
@[simp] theorem State.setPcc_boot (n : Nat) (p : Pcc) : (s.setPcc n p).boot = s.boot := rfl
@[simp] theorem State.setPcc_mgmtQ (n : Nat) (p : Pcc) : (s.setPcc n p).mgmtQ = s.mgmtQ := rfl
@[simp] theorem State.setPcc_mapCopy (n : Nat) (p : Pcc) : (s.setPcc n p).mapCopy = s.mapCopy := rfl

/-! ### State.setDesc -/

@[simp] theorem State.setDesc_pending (n : Nat) (d : Desc) : (s.setDesc n d).pending = s.pending := rfl
@[simp] theorem State.setDesc_clk (n : Nat) (d : Desc) : (s.setDesc n d).clk = s.clk := rfl
@[simp] theorem State.setDesc_regs (n : Nat) (d : Desc) : (s.setDesc n d).regs = s.regs := rfl
@[simp] theorem State.setDesc_pregs (n : Nat) (d : Desc) : (s.setDesc n d).pregs = s.pregs := rfl
@[simp] theorem State.setDesc_out (n : Nat) (d : Desc) : (s.setDesc n d).out = s.out := rfl
@[simp] theorem State.setDesc_free (n : Nat) (d : Desc) : (s.setDesc n d).free = s.free := rfl
@[simp] theorem State.setDesc_nextId (n : Nat) (d : Desc) : (s.setDesc n d).nextId = s.nextId := rfl
@[simp] theorem State.setDesc_ports (n : Nat) (d : Desc) : (s.setDesc n d).ports = s.ports := rfl
@[simp] theorem State.setDesc_gates (n : Nat) (d : Desc) : (s.setDesc n d).gates = s.gates := rfl
@[simp] theorem State.setDesc_tenants (n : Nat) (d : Desc) : (s.setDesc n d).tenants = s.tenants := rfl
@[simp] theorem State.setDesc_wheel (n : Nat) (d : Desc) : (s.setDesc n d).wheel = s.wheel := rfl
@[simp] theorem State.setDesc_pccs (n : Nat) (d : Desc) : (s.setDesc n d).pccs = s.pccs := rfl
@[simp] theorem State.setDesc_mem (n : Nat) (d : Desc) : (s.setDesc n d).mem = s.mem := rfl
@[simp] theorem State.setDesc_remaps (n : Nat) (d : Desc) : (s.setDesc n d).remaps = s.remaps := rfl
@[simp] theorem State.setDesc_repairs (n : Nat) (d : Desc) : (s.setDesc n d).repairs = s.repairs := rfl
@[simp] theorem State.setDesc_spares (n : Nat) (d : Desc) : (s.setDesc n d).spares = s.spares := rfl
@[simp] theorem State.setDesc_rows (n : Nat) (d : Desc) : (s.setDesc n d).rows = s.rows := rfl
@[simp] theorem State.setDesc_epochs (n : Nat) (d : Desc) : (s.setDesc n d).epochs = s.epochs := rfl
@[simp] theorem State.setDesc_retPend (n : Nat) (d : Desc) : (s.setDesc n d).retPend = s.retPend := rfl
@[simp] theorem State.setDesc_ladder (n : Nat) (d : Desc) : (s.setDesc n d).ladder = s.ladder := rfl
@[simp] theorem State.setDesc_links (n : Nat) (d : Desc) : (s.setDesc n d).links = s.links := rfl
@[simp] theorem State.setDesc_returns (n : Nat) (d : Desc) : (s.setDesc n d).returns = s.returns := rfl
@[simp] theorem State.setDesc_laneMaps (n : Nat) (d : Desc) : (s.setDesc n d).laneMaps = s.laneMaps := rfl
@[simp] theorem State.setDesc_keys (n : Nat) (d : Desc) : (s.setDesc n d).keys = s.keys := rfl
@[simp] theorem State.setDesc_clearing (n : Nat) (d : Desc) : (s.setDesc n d).clearing = s.clearing := rfl
@[simp] theorem State.setDesc_dir (n : Nat) (d : Desc) : (s.setDesc n d).dir = s.dir := rfl
@[simp] theorem State.setDesc_hands (n : Nat) (d : Desc) : (s.setDesc n d).hands = s.hands := rfl
@[simp] theorem State.setDesc_fetches (n : Nat) (d : Desc) : (s.setDesc n d).fetches = s.fetches := rfl
@[simp] theorem State.setDesc_demandQ (n : Nat) (d : Desc) : (s.setDesc n d).demandQ = s.demandQ := rfl
@[simp] theorem State.setDesc_prefetchQ (n : Nat) (d : Desc) : (s.setDesc n d).prefetchQ = s.prefetchQ := rfl
@[simp] theorem State.setDesc_far (n : Nat) (d : Desc) : (s.setDesc n d).far = s.far := rfl
@[simp] theorem State.setDesc_streams (n : Nat) (d : Desc) : (s.setDesc n d).streams = s.streams := rfl
@[simp] theorem State.setDesc_lgUsed (n : Nat) (d : Desc) : (s.setDesc n d).lgUsed = s.lgUsed := rfl
@[simp] theorem State.setDesc_lgSums (n : Nat) (d : Desc) : (s.setDesc n d).lgSums = s.lgSums := rfl
@[simp] theorem State.setDesc_lgWalk (n : Nat) (d : Desc) : (s.setDesc n d).lgWalk = s.lgWalk := rfl
@[simp] theorem State.setDesc_attns (n : Nat) (d : Desc) : (s.setDesc n d).attns = s.attns := rfl
@[simp] theorem State.setDesc_recipes (n : Nat) (d : Desc) : (s.setDesc n d).recipes = s.recipes := rfl
@[simp] theorem State.setDesc_runs (n : Nat) (d : Desc) : (s.setDesc n d).runs = s.runs := rfl
@[simp] theorem State.setDesc_cores (n : Nat) (d : Desc) : (s.setDesc n d).cores = s.cores := rfl
@[simp] theorem State.setDesc_clReset (n : Nat) (d : Desc) : (s.setDesc n d).clReset = s.clReset := rfl
@[simp] theorem State.setDesc_packets (n : Nat) (d : Desc) : (s.setDesc n d).packets = s.packets := rfl
@[simp] theorem State.setDesc_fwq (n : Nat) (d : Desc) : (s.setDesc n d).fwq = s.fwq := rfl
@[simp] theorem State.setDesc_interps (n : Nat) (d : Desc) : (s.setDesc n d).interps = s.interps := rfl
@[simp] theorem State.setDesc_obs (n : Nat) (d : Desc) : (s.setDesc n d).obs = s.obs := rfl
@[simp] theorem State.setDesc_nvm (n : Nat) (d : Desc) : (s.setDesc n d).nvm = s.nvm := rfl
@[simp] theorem State.setDesc_arbs (n : Nat) (d : Desc) : (s.setDesc n d).arbs = s.arbs := rfl
@[simp] theorem State.setDesc_i3want (n : Nat) (d : Desc) : (s.setDesc n d).i3want = s.i3want := rfl
@[simp] theorem State.setDesc_i3at (n : Nat) (d : Desc) : (s.setDesc n d).i3at = s.i3at := rfl
@[simp] theorem State.setDesc_therm (n : Nat) (d : Desc) : (s.setDesc n d).therm = s.therm := rfl
@[simp] theorem State.setDesc_supply (n : Nat) (d : Desc) : (s.setDesc n d).supply = s.supply := rfl
@[simp] theorem State.setDesc_trims (n : Nat) (d : Desc) : (s.setDesc n d).trims = s.trims := rfl
@[simp] theorem State.setDesc_sec (n : Nat) (d : Desc) : (s.setDesc n d).sec = s.sec := rfl
@[simp] theorem State.setDesc_boot (n : Nat) (d : Desc) : (s.setDesc n d).boot = s.boot := rfl
@[simp] theorem State.setDesc_mgmtQ (n : Nat) (d : Desc) : (s.setDesc n d).mgmtQ = s.mgmtQ := rfl
@[simp] theorem State.setDesc_mapCopy (n : Nat) (d : Desc) : (s.setDesc n d).mapCopy = s.mapCopy := rfl

/-! ### State.setTenQ -/

@[simp] theorem State.setTenQ_pending (n : Nat) (q : TenQ) : (s.setTenQ n q).pending = s.pending := rfl
@[simp] theorem State.setTenQ_clk (n : Nat) (q : TenQ) : (s.setTenQ n q).clk = s.clk := rfl
@[simp] theorem State.setTenQ_regs (n : Nat) (q : TenQ) : (s.setTenQ n q).regs = s.regs := rfl
@[simp] theorem State.setTenQ_pregs (n : Nat) (q : TenQ) : (s.setTenQ n q).pregs = s.pregs := rfl
@[simp] theorem State.setTenQ_out (n : Nat) (q : TenQ) : (s.setTenQ n q).out = s.out := rfl
@[simp] theorem State.setTenQ_free (n : Nat) (q : TenQ) : (s.setTenQ n q).free = s.free := rfl
@[simp] theorem State.setTenQ_nextId (n : Nat) (q : TenQ) : (s.setTenQ n q).nextId = s.nextId := rfl
@[simp] theorem State.setTenQ_ports (n : Nat) (q : TenQ) : (s.setTenQ n q).ports = s.ports := rfl
@[simp] theorem State.setTenQ_gates (n : Nat) (q : TenQ) : (s.setTenQ n q).gates = s.gates := rfl
@[simp] theorem State.setTenQ_wheel (n : Nat) (q : TenQ) : (s.setTenQ n q).wheel = s.wheel := rfl
@[simp] theorem State.setTenQ_pccs (n : Nat) (q : TenQ) : (s.setTenQ n q).pccs = s.pccs := rfl
@[simp] theorem State.setTenQ_mem (n : Nat) (q : TenQ) : (s.setTenQ n q).mem = s.mem := rfl
@[simp] theorem State.setTenQ_descs (n : Nat) (q : TenQ) : (s.setTenQ n q).descs = s.descs := rfl
@[simp] theorem State.setTenQ_remaps (n : Nat) (q : TenQ) : (s.setTenQ n q).remaps = s.remaps := rfl
@[simp] theorem State.setTenQ_repairs (n : Nat) (q : TenQ) : (s.setTenQ n q).repairs = s.repairs := rfl
@[simp] theorem State.setTenQ_spares (n : Nat) (q : TenQ) : (s.setTenQ n q).spares = s.spares := rfl
@[simp] theorem State.setTenQ_rows (n : Nat) (q : TenQ) : (s.setTenQ n q).rows = s.rows := rfl
@[simp] theorem State.setTenQ_epochs (n : Nat) (q : TenQ) : (s.setTenQ n q).epochs = s.epochs := rfl
@[simp] theorem State.setTenQ_retPend (n : Nat) (q : TenQ) : (s.setTenQ n q).retPend = s.retPend := rfl
@[simp] theorem State.setTenQ_ladder (n : Nat) (q : TenQ) : (s.setTenQ n q).ladder = s.ladder := rfl
@[simp] theorem State.setTenQ_links (n : Nat) (q : TenQ) : (s.setTenQ n q).links = s.links := rfl
@[simp] theorem State.setTenQ_returns (n : Nat) (q : TenQ) : (s.setTenQ n q).returns = s.returns := rfl
@[simp] theorem State.setTenQ_laneMaps (n : Nat) (q : TenQ) : (s.setTenQ n q).laneMaps = s.laneMaps := rfl
@[simp] theorem State.setTenQ_keys (n : Nat) (q : TenQ) : (s.setTenQ n q).keys = s.keys := rfl
@[simp] theorem State.setTenQ_clearing (n : Nat) (q : TenQ) : (s.setTenQ n q).clearing = s.clearing := rfl
@[simp] theorem State.setTenQ_dir (n : Nat) (q : TenQ) : (s.setTenQ n q).dir = s.dir := rfl
@[simp] theorem State.setTenQ_hands (n : Nat) (q : TenQ) : (s.setTenQ n q).hands = s.hands := rfl
@[simp] theorem State.setTenQ_fetches (n : Nat) (q : TenQ) : (s.setTenQ n q).fetches = s.fetches := rfl
@[simp] theorem State.setTenQ_demandQ (n : Nat) (q : TenQ) : (s.setTenQ n q).demandQ = s.demandQ := rfl
@[simp] theorem State.setTenQ_prefetchQ (n : Nat) (q : TenQ) : (s.setTenQ n q).prefetchQ = s.prefetchQ := rfl
@[simp] theorem State.setTenQ_far (n : Nat) (q : TenQ) : (s.setTenQ n q).far = s.far := rfl
@[simp] theorem State.setTenQ_streams (n : Nat) (q : TenQ) : (s.setTenQ n q).streams = s.streams := rfl
@[simp] theorem State.setTenQ_lgUsed (n : Nat) (q : TenQ) : (s.setTenQ n q).lgUsed = s.lgUsed := rfl
@[simp] theorem State.setTenQ_lgSums (n : Nat) (q : TenQ) : (s.setTenQ n q).lgSums = s.lgSums := rfl
@[simp] theorem State.setTenQ_lgWalk (n : Nat) (q : TenQ) : (s.setTenQ n q).lgWalk = s.lgWalk := rfl
@[simp] theorem State.setTenQ_attns (n : Nat) (q : TenQ) : (s.setTenQ n q).attns = s.attns := rfl
@[simp] theorem State.setTenQ_recipes (n : Nat) (q : TenQ) : (s.setTenQ n q).recipes = s.recipes := rfl
@[simp] theorem State.setTenQ_runs (n : Nat) (q : TenQ) : (s.setTenQ n q).runs = s.runs := rfl
@[simp] theorem State.setTenQ_cores (n : Nat) (q : TenQ) : (s.setTenQ n q).cores = s.cores := rfl
@[simp] theorem State.setTenQ_clReset (n : Nat) (q : TenQ) : (s.setTenQ n q).clReset = s.clReset := rfl
@[simp] theorem State.setTenQ_packets (n : Nat) (q : TenQ) : (s.setTenQ n q).packets = s.packets := rfl
@[simp] theorem State.setTenQ_fwq (n : Nat) (q : TenQ) : (s.setTenQ n q).fwq = s.fwq := rfl
@[simp] theorem State.setTenQ_interps (n : Nat) (q : TenQ) : (s.setTenQ n q).interps = s.interps := rfl
@[simp] theorem State.setTenQ_obs (n : Nat) (q : TenQ) : (s.setTenQ n q).obs = s.obs := rfl
@[simp] theorem State.setTenQ_nvm (n : Nat) (q : TenQ) : (s.setTenQ n q).nvm = s.nvm := rfl
@[simp] theorem State.setTenQ_arbs (n : Nat) (q : TenQ) : (s.setTenQ n q).arbs = s.arbs := rfl
@[simp] theorem State.setTenQ_i3want (n : Nat) (q : TenQ) : (s.setTenQ n q).i3want = s.i3want := rfl
@[simp] theorem State.setTenQ_i3at (n : Nat) (q : TenQ) : (s.setTenQ n q).i3at = s.i3at := rfl
@[simp] theorem State.setTenQ_therm (n : Nat) (q : TenQ) : (s.setTenQ n q).therm = s.therm := rfl
@[simp] theorem State.setTenQ_supply (n : Nat) (q : TenQ) : (s.setTenQ n q).supply = s.supply := rfl
@[simp] theorem State.setTenQ_trims (n : Nat) (q : TenQ) : (s.setTenQ n q).trims = s.trims := rfl
@[simp] theorem State.setTenQ_sec (n : Nat) (q : TenQ) : (s.setTenQ n q).sec = s.sec := rfl
@[simp] theorem State.setTenQ_boot (n : Nat) (q : TenQ) : (s.setTenQ n q).boot = s.boot := rfl
@[simp] theorem State.setTenQ_mgmtQ (n : Nat) (q : TenQ) : (s.setTenQ n q).mgmtQ = s.mgmtQ := rfl
@[simp] theorem State.setTenQ_mapCopy (n : Nat) (q : TenQ) : (s.setTenQ n q).mapCopy = s.mapCopy := rfl

/-! ### State.setGate -/

@[simp] theorem State.setGate_pending (n : Nat) (g : Gate) : (s.setGate n g).pending = s.pending := rfl
@[simp] theorem State.setGate_clk (n : Nat) (g : Gate) : (s.setGate n g).clk = s.clk := rfl
@[simp] theorem State.setGate_regs (n : Nat) (g : Gate) : (s.setGate n g).regs = s.regs := rfl
@[simp] theorem State.setGate_pregs (n : Nat) (g : Gate) : (s.setGate n g).pregs = s.pregs := rfl
@[simp] theorem State.setGate_out (n : Nat) (g : Gate) : (s.setGate n g).out = s.out := rfl
@[simp] theorem State.setGate_free (n : Nat) (g : Gate) : (s.setGate n g).free = s.free := rfl
@[simp] theorem State.setGate_nextId (n : Nat) (g : Gate) : (s.setGate n g).nextId = s.nextId := rfl
@[simp] theorem State.setGate_ports (n : Nat) (g : Gate) : (s.setGate n g).ports = s.ports := rfl
@[simp] theorem State.setGate_tenants (n : Nat) (g : Gate) : (s.setGate n g).tenants = s.tenants := rfl
@[simp] theorem State.setGate_wheel (n : Nat) (g : Gate) : (s.setGate n g).wheel = s.wheel := rfl
@[simp] theorem State.setGate_pccs (n : Nat) (g : Gate) : (s.setGate n g).pccs = s.pccs := rfl
@[simp] theorem State.setGate_mem (n : Nat) (g : Gate) : (s.setGate n g).mem = s.mem := rfl
@[simp] theorem State.setGate_descs (n : Nat) (g : Gate) : (s.setGate n g).descs = s.descs := rfl
@[simp] theorem State.setGate_remaps (n : Nat) (g : Gate) : (s.setGate n g).remaps = s.remaps := rfl
@[simp] theorem State.setGate_repairs (n : Nat) (g : Gate) : (s.setGate n g).repairs = s.repairs := rfl
@[simp] theorem State.setGate_spares (n : Nat) (g : Gate) : (s.setGate n g).spares = s.spares := rfl
@[simp] theorem State.setGate_rows (n : Nat) (g : Gate) : (s.setGate n g).rows = s.rows := rfl
@[simp] theorem State.setGate_epochs (n : Nat) (g : Gate) : (s.setGate n g).epochs = s.epochs := rfl
@[simp] theorem State.setGate_retPend (n : Nat) (g : Gate) : (s.setGate n g).retPend = s.retPend := rfl
@[simp] theorem State.setGate_ladder (n : Nat) (g : Gate) : (s.setGate n g).ladder = s.ladder := rfl
@[simp] theorem State.setGate_links (n : Nat) (g : Gate) : (s.setGate n g).links = s.links := rfl
@[simp] theorem State.setGate_returns (n : Nat) (g : Gate) : (s.setGate n g).returns = s.returns := rfl
@[simp] theorem State.setGate_laneMaps (n : Nat) (g : Gate) : (s.setGate n g).laneMaps = s.laneMaps := rfl
@[simp] theorem State.setGate_keys (n : Nat) (g : Gate) : (s.setGate n g).keys = s.keys := rfl
@[simp] theorem State.setGate_clearing (n : Nat) (g : Gate) : (s.setGate n g).clearing = s.clearing := rfl
@[simp] theorem State.setGate_dir (n : Nat) (g : Gate) : (s.setGate n g).dir = s.dir := rfl
@[simp] theorem State.setGate_hands (n : Nat) (g : Gate) : (s.setGate n g).hands = s.hands := rfl
@[simp] theorem State.setGate_fetches (n : Nat) (g : Gate) : (s.setGate n g).fetches = s.fetches := rfl
@[simp] theorem State.setGate_demandQ (n : Nat) (g : Gate) : (s.setGate n g).demandQ = s.demandQ := rfl
@[simp] theorem State.setGate_prefetchQ (n : Nat) (g : Gate) : (s.setGate n g).prefetchQ = s.prefetchQ := rfl
@[simp] theorem State.setGate_far (n : Nat) (g : Gate) : (s.setGate n g).far = s.far := rfl
@[simp] theorem State.setGate_streams (n : Nat) (g : Gate) : (s.setGate n g).streams = s.streams := rfl
@[simp] theorem State.setGate_lgUsed (n : Nat) (g : Gate) : (s.setGate n g).lgUsed = s.lgUsed := rfl
@[simp] theorem State.setGate_lgSums (n : Nat) (g : Gate) : (s.setGate n g).lgSums = s.lgSums := rfl
@[simp] theorem State.setGate_lgWalk (n : Nat) (g : Gate) : (s.setGate n g).lgWalk = s.lgWalk := rfl
@[simp] theorem State.setGate_attns (n : Nat) (g : Gate) : (s.setGate n g).attns = s.attns := rfl
@[simp] theorem State.setGate_recipes (n : Nat) (g : Gate) : (s.setGate n g).recipes = s.recipes := rfl
@[simp] theorem State.setGate_runs (n : Nat) (g : Gate) : (s.setGate n g).runs = s.runs := rfl
@[simp] theorem State.setGate_cores (n : Nat) (g : Gate) : (s.setGate n g).cores = s.cores := rfl
@[simp] theorem State.setGate_clReset (n : Nat) (g : Gate) : (s.setGate n g).clReset = s.clReset := rfl
@[simp] theorem State.setGate_packets (n : Nat) (g : Gate) : (s.setGate n g).packets = s.packets := rfl
@[simp] theorem State.setGate_fwq (n : Nat) (g : Gate) : (s.setGate n g).fwq = s.fwq := rfl
@[simp] theorem State.setGate_interps (n : Nat) (g : Gate) : (s.setGate n g).interps = s.interps := rfl
@[simp] theorem State.setGate_obs (n : Nat) (g : Gate) : (s.setGate n g).obs = s.obs := rfl
@[simp] theorem State.setGate_nvm (n : Nat) (g : Gate) : (s.setGate n g).nvm = s.nvm := rfl
@[simp] theorem State.setGate_arbs (n : Nat) (g : Gate) : (s.setGate n g).arbs = s.arbs := rfl
@[simp] theorem State.setGate_i3want (n : Nat) (g : Gate) : (s.setGate n g).i3want = s.i3want := rfl
@[simp] theorem State.setGate_i3at (n : Nat) (g : Gate) : (s.setGate n g).i3at = s.i3at := rfl
@[simp] theorem State.setGate_therm (n : Nat) (g : Gate) : (s.setGate n g).therm = s.therm := rfl
@[simp] theorem State.setGate_supply (n : Nat) (g : Gate) : (s.setGate n g).supply = s.supply := rfl
@[simp] theorem State.setGate_trims (n : Nat) (g : Gate) : (s.setGate n g).trims = s.trims := rfl
@[simp] theorem State.setGate_sec (n : Nat) (g : Gate) : (s.setGate n g).sec = s.sec := rfl
@[simp] theorem State.setGate_boot (n : Nat) (g : Gate) : (s.setGate n g).boot = s.boot := rfl
@[simp] theorem State.setGate_mgmtQ (n : Nat) (g : Gate) : (s.setGate n g).mgmtQ = s.mgmtQ := rfl
@[simp] theorem State.setGate_mapCopy (n : Nat) (g : Gate) : (s.setGate n g).mapCopy = s.mapCopy := rfl

/-! ### State.emit -/

@[simp] theorem State.emit_pending (o : Out) : (s.emit o).pending = s.pending := rfl
@[simp] theorem State.emit_clk (o : Out) : (s.emit o).clk = s.clk := rfl
@[simp] theorem State.emit_regs (o : Out) : (s.emit o).regs = s.regs := rfl
@[simp] theorem State.emit_pregs (o : Out) : (s.emit o).pregs = s.pregs := rfl
@[simp] theorem State.emit_free (o : Out) : (s.emit o).free = s.free := rfl
@[simp] theorem State.emit_nextId (o : Out) : (s.emit o).nextId = s.nextId := rfl
@[simp] theorem State.emit_ports (o : Out) : (s.emit o).ports = s.ports := rfl
@[simp] theorem State.emit_gates (o : Out) : (s.emit o).gates = s.gates := rfl
@[simp] theorem State.emit_tenants (o : Out) : (s.emit o).tenants = s.tenants := rfl
@[simp] theorem State.emit_wheel (o : Out) : (s.emit o).wheel = s.wheel := rfl
@[simp] theorem State.emit_pccs (o : Out) : (s.emit o).pccs = s.pccs := rfl
@[simp] theorem State.emit_mem (o : Out) : (s.emit o).mem = s.mem := rfl
@[simp] theorem State.emit_descs (o : Out) : (s.emit o).descs = s.descs := rfl
@[simp] theorem State.emit_remaps (o : Out) : (s.emit o).remaps = s.remaps := rfl
@[simp] theorem State.emit_repairs (o : Out) : (s.emit o).repairs = s.repairs := rfl
@[simp] theorem State.emit_spares (o : Out) : (s.emit o).spares = s.spares := rfl
@[simp] theorem State.emit_rows (o : Out) : (s.emit o).rows = s.rows := rfl
@[simp] theorem State.emit_epochs (o : Out) : (s.emit o).epochs = s.epochs := rfl
@[simp] theorem State.emit_retPend (o : Out) : (s.emit o).retPend = s.retPend := rfl
@[simp] theorem State.emit_ladder (o : Out) : (s.emit o).ladder = s.ladder := rfl
@[simp] theorem State.emit_links (o : Out) : (s.emit o).links = s.links := rfl
@[simp] theorem State.emit_returns (o : Out) : (s.emit o).returns = s.returns := rfl
@[simp] theorem State.emit_laneMaps (o : Out) : (s.emit o).laneMaps = s.laneMaps := rfl
@[simp] theorem State.emit_keys (o : Out) : (s.emit o).keys = s.keys := rfl
@[simp] theorem State.emit_clearing (o : Out) : (s.emit o).clearing = s.clearing := rfl
@[simp] theorem State.emit_dir (o : Out) : (s.emit o).dir = s.dir := rfl
@[simp] theorem State.emit_hands (o : Out) : (s.emit o).hands = s.hands := rfl
@[simp] theorem State.emit_fetches (o : Out) : (s.emit o).fetches = s.fetches := rfl
@[simp] theorem State.emit_demandQ (o : Out) : (s.emit o).demandQ = s.demandQ := rfl
@[simp] theorem State.emit_prefetchQ (o : Out) : (s.emit o).prefetchQ = s.prefetchQ := rfl
@[simp] theorem State.emit_far (o : Out) : (s.emit o).far = s.far := rfl
@[simp] theorem State.emit_streams (o : Out) : (s.emit o).streams = s.streams := rfl
@[simp] theorem State.emit_lgUsed (o : Out) : (s.emit o).lgUsed = s.lgUsed := rfl
@[simp] theorem State.emit_lgSums (o : Out) : (s.emit o).lgSums = s.lgSums := rfl
@[simp] theorem State.emit_lgWalk (o : Out) : (s.emit o).lgWalk = s.lgWalk := rfl
@[simp] theorem State.emit_attns (o : Out) : (s.emit o).attns = s.attns := rfl
@[simp] theorem State.emit_recipes (o : Out) : (s.emit o).recipes = s.recipes := rfl
@[simp] theorem State.emit_runs (o : Out) : (s.emit o).runs = s.runs := rfl
@[simp] theorem State.emit_cores (o : Out) : (s.emit o).cores = s.cores := rfl
@[simp] theorem State.emit_clReset (o : Out) : (s.emit o).clReset = s.clReset := rfl
@[simp] theorem State.emit_packets (o : Out) : (s.emit o).packets = s.packets := rfl
@[simp] theorem State.emit_fwq (o : Out) : (s.emit o).fwq = s.fwq := rfl
@[simp] theorem State.emit_interps (o : Out) : (s.emit o).interps = s.interps := rfl
@[simp] theorem State.emit_obs (o : Out) : (s.emit o).obs = s.obs := rfl
@[simp] theorem State.emit_nvm (o : Out) : (s.emit o).nvm = s.nvm := rfl
@[simp] theorem State.emit_arbs (o : Out) : (s.emit o).arbs = s.arbs := rfl
@[simp] theorem State.emit_i3want (o : Out) : (s.emit o).i3want = s.i3want := rfl
@[simp] theorem State.emit_i3at (o : Out) : (s.emit o).i3at = s.i3at := rfl
@[simp] theorem State.emit_therm (o : Out) : (s.emit o).therm = s.therm := rfl
@[simp] theorem State.emit_supply (o : Out) : (s.emit o).supply = s.supply := rfl
@[simp] theorem State.emit_trims (o : Out) : (s.emit o).trims = s.trims := rfl
@[simp] theorem State.emit_sec (o : Out) : (s.emit o).sec = s.sec := rfl
@[simp] theorem State.emit_boot (o : Out) : (s.emit o).boot = s.boot := rfl
@[simp] theorem State.emit_mgmtQ (o : Out) : (s.emit o).mgmtQ = s.mgmtQ := rfl
@[simp] theorem State.emit_mapCopy (o : Out) : (s.emit o).mapCopy = s.mapCopy := rfl

/-! ### State.setArb -/

@[simp] theorem State.setArb_pending (i : Nat) (a : Arb) : (s.setArb i a).pending = s.pending := rfl
@[simp] theorem State.setArb_clk (i : Nat) (a : Arb) : (s.setArb i a).clk = s.clk := rfl
@[simp] theorem State.setArb_regs (i : Nat) (a : Arb) : (s.setArb i a).regs = s.regs := rfl
@[simp] theorem State.setArb_pregs (i : Nat) (a : Arb) : (s.setArb i a).pregs = s.pregs := rfl
@[simp] theorem State.setArb_out (i : Nat) (a : Arb) : (s.setArb i a).out = s.out := rfl
@[simp] theorem State.setArb_free (i : Nat) (a : Arb) : (s.setArb i a).free = s.free := rfl
@[simp] theorem State.setArb_nextId (i : Nat) (a : Arb) : (s.setArb i a).nextId = s.nextId := rfl
@[simp] theorem State.setArb_ports (i : Nat) (a : Arb) : (s.setArb i a).ports = s.ports := rfl
@[simp] theorem State.setArb_gates (i : Nat) (a : Arb) : (s.setArb i a).gates = s.gates := rfl
@[simp] theorem State.setArb_tenants (i : Nat) (a : Arb) : (s.setArb i a).tenants = s.tenants := rfl
@[simp] theorem State.setArb_wheel (i : Nat) (a : Arb) : (s.setArb i a).wheel = s.wheel := rfl
@[simp] theorem State.setArb_pccs (i : Nat) (a : Arb) : (s.setArb i a).pccs = s.pccs := rfl
@[simp] theorem State.setArb_mem (i : Nat) (a : Arb) : (s.setArb i a).mem = s.mem := rfl
@[simp] theorem State.setArb_descs (i : Nat) (a : Arb) : (s.setArb i a).descs = s.descs := rfl
@[simp] theorem State.setArb_remaps (i : Nat) (a : Arb) : (s.setArb i a).remaps = s.remaps := rfl
@[simp] theorem State.setArb_repairs (i : Nat) (a : Arb) : (s.setArb i a).repairs = s.repairs := rfl
@[simp] theorem State.setArb_spares (i : Nat) (a : Arb) : (s.setArb i a).spares = s.spares := rfl
@[simp] theorem State.setArb_rows (i : Nat) (a : Arb) : (s.setArb i a).rows = s.rows := rfl
@[simp] theorem State.setArb_epochs (i : Nat) (a : Arb) : (s.setArb i a).epochs = s.epochs := rfl
@[simp] theorem State.setArb_retPend (i : Nat) (a : Arb) : (s.setArb i a).retPend = s.retPend := rfl
@[simp] theorem State.setArb_ladder (i : Nat) (a : Arb) : (s.setArb i a).ladder = s.ladder := rfl
@[simp] theorem State.setArb_links (i : Nat) (a : Arb) : (s.setArb i a).links = s.links := rfl
@[simp] theorem State.setArb_returns (i : Nat) (a : Arb) : (s.setArb i a).returns = s.returns := rfl
@[simp] theorem State.setArb_laneMaps (i : Nat) (a : Arb) : (s.setArb i a).laneMaps = s.laneMaps := rfl
@[simp] theorem State.setArb_keys (i : Nat) (a : Arb) : (s.setArb i a).keys = s.keys := rfl
@[simp] theorem State.setArb_clearing (i : Nat) (a : Arb) : (s.setArb i a).clearing = s.clearing := rfl
@[simp] theorem State.setArb_dir (i : Nat) (a : Arb) : (s.setArb i a).dir = s.dir := rfl
@[simp] theorem State.setArb_hands (i : Nat) (a : Arb) : (s.setArb i a).hands = s.hands := rfl
@[simp] theorem State.setArb_fetches (i : Nat) (a : Arb) : (s.setArb i a).fetches = s.fetches := rfl
@[simp] theorem State.setArb_demandQ (i : Nat) (a : Arb) : (s.setArb i a).demandQ = s.demandQ := rfl
@[simp] theorem State.setArb_prefetchQ (i : Nat) (a : Arb) : (s.setArb i a).prefetchQ = s.prefetchQ := rfl
@[simp] theorem State.setArb_far (i : Nat) (a : Arb) : (s.setArb i a).far = s.far := rfl
@[simp] theorem State.setArb_streams (i : Nat) (a : Arb) : (s.setArb i a).streams = s.streams := rfl
@[simp] theorem State.setArb_lgUsed (i : Nat) (a : Arb) : (s.setArb i a).lgUsed = s.lgUsed := rfl
@[simp] theorem State.setArb_lgSums (i : Nat) (a : Arb) : (s.setArb i a).lgSums = s.lgSums := rfl
@[simp] theorem State.setArb_lgWalk (i : Nat) (a : Arb) : (s.setArb i a).lgWalk = s.lgWalk := rfl
@[simp] theorem State.setArb_attns (i : Nat) (a : Arb) : (s.setArb i a).attns = s.attns := rfl
@[simp] theorem State.setArb_recipes (i : Nat) (a : Arb) : (s.setArb i a).recipes = s.recipes := rfl
@[simp] theorem State.setArb_runs (i : Nat) (a : Arb) : (s.setArb i a).runs = s.runs := rfl
@[simp] theorem State.setArb_cores (i : Nat) (a : Arb) : (s.setArb i a).cores = s.cores := rfl
@[simp] theorem State.setArb_clReset (i : Nat) (a : Arb) : (s.setArb i a).clReset = s.clReset := rfl
@[simp] theorem State.setArb_packets (i : Nat) (a : Arb) : (s.setArb i a).packets = s.packets := rfl
@[simp] theorem State.setArb_fwq (i : Nat) (a : Arb) : (s.setArb i a).fwq = s.fwq := rfl
@[simp] theorem State.setArb_interps (i : Nat) (a : Arb) : (s.setArb i a).interps = s.interps := rfl
@[simp] theorem State.setArb_obs (i : Nat) (a : Arb) : (s.setArb i a).obs = s.obs := rfl
@[simp] theorem State.setArb_nvm (i : Nat) (a : Arb) : (s.setArb i a).nvm = s.nvm := rfl
@[simp] theorem State.setArb_i3want (i : Nat) (a : Arb) : (s.setArb i a).i3want = s.i3want := rfl
@[simp] theorem State.setArb_i3at (i : Nat) (a : Arb) : (s.setArb i a).i3at = s.i3at := rfl
@[simp] theorem State.setArb_therm (i : Nat) (a : Arb) : (s.setArb i a).therm = s.therm := rfl
@[simp] theorem State.setArb_supply (i : Nat) (a : Arb) : (s.setArb i a).supply = s.supply := rfl
@[simp] theorem State.setArb_trims (i : Nat) (a : Arb) : (s.setArb i a).trims = s.trims := rfl
@[simp] theorem State.setArb_sec (i : Nat) (a : Arb) : (s.setArb i a).sec = s.sec := rfl
@[simp] theorem State.setArb_boot (i : Nat) (a : Arb) : (s.setArb i a).boot = s.boot := rfl
@[simp] theorem State.setArb_mgmtQ (i : Nat) (a : Arb) : (s.setArb i a).mgmtQ = s.mgmtQ := rfl
@[simp] theorem State.setArb_mapCopy (i : Nat) (a : Arb) : (s.setArb i a).mapCopy = s.mapCopy := rfl

/-! ### State.pput -/

@[simp] theorem State.pput_pending (p : Nat) (r : Reg) (ix : List Nat) (w : Word) : (s.pput p r ix w).pending = s.pending := rfl
@[simp] theorem State.pput_clk (p : Nat) (r : Reg) (ix : List Nat) (w : Word) : (s.pput p r ix w).clk = s.clk := rfl
@[simp] theorem State.pput_regs (p : Nat) (r : Reg) (ix : List Nat) (w : Word) : (s.pput p r ix w).regs = s.regs := rfl
@[simp] theorem State.pput_out (p : Nat) (r : Reg) (ix : List Nat) (w : Word) : (s.pput p r ix w).out = s.out := rfl
@[simp] theorem State.pput_free (p : Nat) (r : Reg) (ix : List Nat) (w : Word) : (s.pput p r ix w).free = s.free := rfl
@[simp] theorem State.pput_nextId (p : Nat) (r : Reg) (ix : List Nat) (w : Word) : (s.pput p r ix w).nextId = s.nextId := rfl
@[simp] theorem State.pput_ports (p : Nat) (r : Reg) (ix : List Nat) (w : Word) : (s.pput p r ix w).ports = s.ports := rfl
@[simp] theorem State.pput_gates (p : Nat) (r : Reg) (ix : List Nat) (w : Word) : (s.pput p r ix w).gates = s.gates := rfl
@[simp] theorem State.pput_tenants (p : Nat) (r : Reg) (ix : List Nat) (w : Word) : (s.pput p r ix w).tenants = s.tenants := rfl
@[simp] theorem State.pput_wheel (p : Nat) (r : Reg) (ix : List Nat) (w : Word) : (s.pput p r ix w).wheel = s.wheel := rfl
@[simp] theorem State.pput_pccs (p : Nat) (r : Reg) (ix : List Nat) (w : Word) : (s.pput p r ix w).pccs = s.pccs := rfl
@[simp] theorem State.pput_mem (p : Nat) (r : Reg) (ix : List Nat) (w : Word) : (s.pput p r ix w).mem = s.mem := rfl
@[simp] theorem State.pput_descs (p : Nat) (r : Reg) (ix : List Nat) (w : Word) : (s.pput p r ix w).descs = s.descs := rfl
@[simp] theorem State.pput_remaps (p : Nat) (r : Reg) (ix : List Nat) (w : Word) : (s.pput p r ix w).remaps = s.remaps := rfl
@[simp] theorem State.pput_repairs (p : Nat) (r : Reg) (ix : List Nat) (w : Word) : (s.pput p r ix w).repairs = s.repairs := rfl
@[simp] theorem State.pput_spares (p : Nat) (r : Reg) (ix : List Nat) (w : Word) : (s.pput p r ix w).spares = s.spares := rfl
@[simp] theorem State.pput_rows (p : Nat) (r : Reg) (ix : List Nat) (w : Word) : (s.pput p r ix w).rows = s.rows := rfl
@[simp] theorem State.pput_epochs (p : Nat) (r : Reg) (ix : List Nat) (w : Word) : (s.pput p r ix w).epochs = s.epochs := rfl
@[simp] theorem State.pput_retPend (p : Nat) (r : Reg) (ix : List Nat) (w : Word) : (s.pput p r ix w).retPend = s.retPend := rfl
@[simp] theorem State.pput_ladder (p : Nat) (r : Reg) (ix : List Nat) (w : Word) : (s.pput p r ix w).ladder = s.ladder := rfl
@[simp] theorem State.pput_links (p : Nat) (r : Reg) (ix : List Nat) (w : Word) : (s.pput p r ix w).links = s.links := rfl
@[simp] theorem State.pput_returns (p : Nat) (r : Reg) (ix : List Nat) (w : Word) : (s.pput p r ix w).returns = s.returns := rfl
@[simp] theorem State.pput_laneMaps (p : Nat) (r : Reg) (ix : List Nat) (w : Word) : (s.pput p r ix w).laneMaps = s.laneMaps := rfl
@[simp] theorem State.pput_keys (p : Nat) (r : Reg) (ix : List Nat) (w : Word) : (s.pput p r ix w).keys = s.keys := rfl
@[simp] theorem State.pput_clearing (p : Nat) (r : Reg) (ix : List Nat) (w : Word) : (s.pput p r ix w).clearing = s.clearing := rfl
@[simp] theorem State.pput_dir (p : Nat) (r : Reg) (ix : List Nat) (w : Word) : (s.pput p r ix w).dir = s.dir := rfl
@[simp] theorem State.pput_hands (p : Nat) (r : Reg) (ix : List Nat) (w : Word) : (s.pput p r ix w).hands = s.hands := rfl
@[simp] theorem State.pput_fetches (p : Nat) (r : Reg) (ix : List Nat) (w : Word) : (s.pput p r ix w).fetches = s.fetches := rfl
@[simp] theorem State.pput_demandQ (p : Nat) (r : Reg) (ix : List Nat) (w : Word) : (s.pput p r ix w).demandQ = s.demandQ := rfl
@[simp] theorem State.pput_prefetchQ (p : Nat) (r : Reg) (ix : List Nat) (w : Word) : (s.pput p r ix w).prefetchQ = s.prefetchQ := rfl
@[simp] theorem State.pput_far (p : Nat) (r : Reg) (ix : List Nat) (w : Word) : (s.pput p r ix w).far = s.far := rfl
@[simp] theorem State.pput_streams (p : Nat) (r : Reg) (ix : List Nat) (w : Word) : (s.pput p r ix w).streams = s.streams := rfl
@[simp] theorem State.pput_lgUsed (p : Nat) (r : Reg) (ix : List Nat) (w : Word) : (s.pput p r ix w).lgUsed = s.lgUsed := rfl
@[simp] theorem State.pput_lgSums (p : Nat) (r : Reg) (ix : List Nat) (w : Word) : (s.pput p r ix w).lgSums = s.lgSums := rfl
@[simp] theorem State.pput_lgWalk (p : Nat) (r : Reg) (ix : List Nat) (w : Word) : (s.pput p r ix w).lgWalk = s.lgWalk := rfl
@[simp] theorem State.pput_attns (p : Nat) (r : Reg) (ix : List Nat) (w : Word) : (s.pput p r ix w).attns = s.attns := rfl
@[simp] theorem State.pput_recipes (p : Nat) (r : Reg) (ix : List Nat) (w : Word) : (s.pput p r ix w).recipes = s.recipes := rfl
@[simp] theorem State.pput_runs (p : Nat) (r : Reg) (ix : List Nat) (w : Word) : (s.pput p r ix w).runs = s.runs := rfl
@[simp] theorem State.pput_cores (p : Nat) (r : Reg) (ix : List Nat) (w : Word) : (s.pput p r ix w).cores = s.cores := rfl
@[simp] theorem State.pput_clReset (p : Nat) (r : Reg) (ix : List Nat) (w : Word) : (s.pput p r ix w).clReset = s.clReset := rfl
@[simp] theorem State.pput_packets (p : Nat) (r : Reg) (ix : List Nat) (w : Word) : (s.pput p r ix w).packets = s.packets := rfl
@[simp] theorem State.pput_fwq (p : Nat) (r : Reg) (ix : List Nat) (w : Word) : (s.pput p r ix w).fwq = s.fwq := rfl
@[simp] theorem State.pput_interps (p : Nat) (r : Reg) (ix : List Nat) (w : Word) : (s.pput p r ix w).interps = s.interps := rfl
@[simp] theorem State.pput_obs (p : Nat) (r : Reg) (ix : List Nat) (w : Word) : (s.pput p r ix w).obs = s.obs := rfl
@[simp] theorem State.pput_nvm (p : Nat) (r : Reg) (ix : List Nat) (w : Word) : (s.pput p r ix w).nvm = s.nvm := rfl
@[simp] theorem State.pput_arbs (p : Nat) (r : Reg) (ix : List Nat) (w : Word) : (s.pput p r ix w).arbs = s.arbs := rfl
@[simp] theorem State.pput_i3want (p : Nat) (r : Reg) (ix : List Nat) (w : Word) : (s.pput p r ix w).i3want = s.i3want := rfl
@[simp] theorem State.pput_i3at (p : Nat) (r : Reg) (ix : List Nat) (w : Word) : (s.pput p r ix w).i3at = s.i3at := rfl
@[simp] theorem State.pput_therm (p : Nat) (r : Reg) (ix : List Nat) (w : Word) : (s.pput p r ix w).therm = s.therm := rfl
@[simp] theorem State.pput_supply (p : Nat) (r : Reg) (ix : List Nat) (w : Word) : (s.pput p r ix w).supply = s.supply := rfl
@[simp] theorem State.pput_trims (p : Nat) (r : Reg) (ix : List Nat) (w : Word) : (s.pput p r ix w).trims = s.trims := rfl
@[simp] theorem State.pput_sec (p : Nat) (r : Reg) (ix : List Nat) (w : Word) : (s.pput p r ix w).sec = s.sec := rfl
@[simp] theorem State.pput_boot (p : Nat) (r : Reg) (ix : List Nat) (w : Word) : (s.pput p r ix w).boot = s.boot := rfl
@[simp] theorem State.pput_mgmtQ (p : Nat) (r : Reg) (ix : List Nat) (w : Word) : (s.pput p r ix w).mgmtQ = s.mgmtQ := rfl
@[simp] theorem State.pput_mapCopy (p : Nat) (r : Reg) (ix : List Nat) (w : Word) : (s.pput p r ix w).mapCopy = s.mapCopy := rfl

/-! ### State.setPacket -/

@[simp] theorem State.setPacket_pending (p : Packet) : (s.setPacket p).pending = s.pending := rfl
@[simp] theorem State.setPacket_clk (p : Packet) : (s.setPacket p).clk = s.clk := rfl
@[simp] theorem State.setPacket_regs (p : Packet) : (s.setPacket p).regs = s.regs := rfl
@[simp] theorem State.setPacket_pregs (p : Packet) : (s.setPacket p).pregs = s.pregs := rfl
@[simp] theorem State.setPacket_out (p : Packet) : (s.setPacket p).out = s.out := rfl
@[simp] theorem State.setPacket_free (p : Packet) : (s.setPacket p).free = s.free := rfl
@[simp] theorem State.setPacket_nextId (p : Packet) : (s.setPacket p).nextId = s.nextId := rfl
@[simp] theorem State.setPacket_ports (p : Packet) : (s.setPacket p).ports = s.ports := rfl
@[simp] theorem State.setPacket_gates (p : Packet) : (s.setPacket p).gates = s.gates := rfl
@[simp] theorem State.setPacket_tenants (p : Packet) : (s.setPacket p).tenants = s.tenants := rfl
@[simp] theorem State.setPacket_wheel (p : Packet) : (s.setPacket p).wheel = s.wheel := rfl
@[simp] theorem State.setPacket_pccs (p : Packet) : (s.setPacket p).pccs = s.pccs := rfl
@[simp] theorem State.setPacket_mem (p : Packet) : (s.setPacket p).mem = s.mem := rfl
@[simp] theorem State.setPacket_descs (p : Packet) : (s.setPacket p).descs = s.descs := rfl
@[simp] theorem State.setPacket_remaps (p : Packet) : (s.setPacket p).remaps = s.remaps := rfl
@[simp] theorem State.setPacket_repairs (p : Packet) : (s.setPacket p).repairs = s.repairs := rfl
@[simp] theorem State.setPacket_spares (p : Packet) : (s.setPacket p).spares = s.spares := rfl
@[simp] theorem State.setPacket_rows (p : Packet) : (s.setPacket p).rows = s.rows := rfl
@[simp] theorem State.setPacket_epochs (p : Packet) : (s.setPacket p).epochs = s.epochs := rfl
@[simp] theorem State.setPacket_retPend (p : Packet) : (s.setPacket p).retPend = s.retPend := rfl
@[simp] theorem State.setPacket_ladder (p : Packet) : (s.setPacket p).ladder = s.ladder := rfl
@[simp] theorem State.setPacket_links (p : Packet) : (s.setPacket p).links = s.links := rfl
@[simp] theorem State.setPacket_returns (p : Packet) : (s.setPacket p).returns = s.returns := rfl
@[simp] theorem State.setPacket_laneMaps (p : Packet) : (s.setPacket p).laneMaps = s.laneMaps := rfl
@[simp] theorem State.setPacket_keys (p : Packet) : (s.setPacket p).keys = s.keys := rfl
@[simp] theorem State.setPacket_clearing (p : Packet) : (s.setPacket p).clearing = s.clearing := rfl
@[simp] theorem State.setPacket_dir (p : Packet) : (s.setPacket p).dir = s.dir := rfl
@[simp] theorem State.setPacket_hands (p : Packet) : (s.setPacket p).hands = s.hands := rfl
@[simp] theorem State.setPacket_fetches (p : Packet) : (s.setPacket p).fetches = s.fetches := rfl
@[simp] theorem State.setPacket_demandQ (p : Packet) : (s.setPacket p).demandQ = s.demandQ := rfl
@[simp] theorem State.setPacket_prefetchQ (p : Packet) : (s.setPacket p).prefetchQ = s.prefetchQ := rfl
@[simp] theorem State.setPacket_far (p : Packet) : (s.setPacket p).far = s.far := rfl
@[simp] theorem State.setPacket_streams (p : Packet) : (s.setPacket p).streams = s.streams := rfl
@[simp] theorem State.setPacket_lgUsed (p : Packet) : (s.setPacket p).lgUsed = s.lgUsed := rfl
@[simp] theorem State.setPacket_lgSums (p : Packet) : (s.setPacket p).lgSums = s.lgSums := rfl
@[simp] theorem State.setPacket_lgWalk (p : Packet) : (s.setPacket p).lgWalk = s.lgWalk := rfl
@[simp] theorem State.setPacket_attns (p : Packet) : (s.setPacket p).attns = s.attns := rfl
@[simp] theorem State.setPacket_recipes (p : Packet) : (s.setPacket p).recipes = s.recipes := rfl
@[simp] theorem State.setPacket_runs (p : Packet) : (s.setPacket p).runs = s.runs := rfl
@[simp] theorem State.setPacket_cores (p : Packet) : (s.setPacket p).cores = s.cores := rfl
@[simp] theorem State.setPacket_clReset (p : Packet) : (s.setPacket p).clReset = s.clReset := rfl
@[simp] theorem State.setPacket_fwq (p : Packet) : (s.setPacket p).fwq = s.fwq := rfl
@[simp] theorem State.setPacket_interps (p : Packet) : (s.setPacket p).interps = s.interps := rfl
@[simp] theorem State.setPacket_obs (p : Packet) : (s.setPacket p).obs = s.obs := rfl
@[simp] theorem State.setPacket_nvm (p : Packet) : (s.setPacket p).nvm = s.nvm := rfl
@[simp] theorem State.setPacket_arbs (p : Packet) : (s.setPacket p).arbs = s.arbs := rfl
@[simp] theorem State.setPacket_i3want (p : Packet) : (s.setPacket p).i3want = s.i3want := rfl
@[simp] theorem State.setPacket_i3at (p : Packet) : (s.setPacket p).i3at = s.i3at := rfl
@[simp] theorem State.setPacket_therm (p : Packet) : (s.setPacket p).therm = s.therm := rfl
@[simp] theorem State.setPacket_supply (p : Packet) : (s.setPacket p).supply = s.supply := rfl
@[simp] theorem State.setPacket_trims (p : Packet) : (s.setPacket p).trims = s.trims := rfl
@[simp] theorem State.setPacket_sec (p : Packet) : (s.setPacket p).sec = s.sec := rfl
@[simp] theorem State.setPacket_boot (p : Packet) : (s.setPacket p).boot = s.boot := rfl
@[simp] theorem State.setPacket_mgmtQ (p : Packet) : (s.setPacket p).mgmtQ = s.mgmtQ := rfl
@[simp] theorem State.setPacket_mapCopy (p : Packet) : (s.setPacket p).mapCopy = s.mapCopy := rfl

/-! ### State.setRecipe -/

@[simp] theorem State.setRecipe_pending (k : Nat) (r : RecipeSlot) : (s.setRecipe k r).pending = s.pending := rfl
@[simp] theorem State.setRecipe_clk (k : Nat) (r : RecipeSlot) : (s.setRecipe k r).clk = s.clk := rfl
@[simp] theorem State.setRecipe_regs (k : Nat) (r : RecipeSlot) : (s.setRecipe k r).regs = s.regs := rfl
@[simp] theorem State.setRecipe_pregs (k : Nat) (r : RecipeSlot) : (s.setRecipe k r).pregs = s.pregs := rfl
@[simp] theorem State.setRecipe_out (k : Nat) (r : RecipeSlot) : (s.setRecipe k r).out = s.out := rfl
@[simp] theorem State.setRecipe_free (k : Nat) (r : RecipeSlot) : (s.setRecipe k r).free = s.free := rfl
@[simp] theorem State.setRecipe_nextId (k : Nat) (r : RecipeSlot) : (s.setRecipe k r).nextId = s.nextId := rfl
@[simp] theorem State.setRecipe_ports (k : Nat) (r : RecipeSlot) : (s.setRecipe k r).ports = s.ports := rfl
@[simp] theorem State.setRecipe_gates (k : Nat) (r : RecipeSlot) : (s.setRecipe k r).gates = s.gates := rfl
@[simp] theorem State.setRecipe_tenants (k : Nat) (r : RecipeSlot) : (s.setRecipe k r).tenants = s.tenants := rfl
@[simp] theorem State.setRecipe_wheel (k : Nat) (r : RecipeSlot) : (s.setRecipe k r).wheel = s.wheel := rfl
@[simp] theorem State.setRecipe_pccs (k : Nat) (r : RecipeSlot) : (s.setRecipe k r).pccs = s.pccs := rfl
@[simp] theorem State.setRecipe_mem (k : Nat) (r : RecipeSlot) : (s.setRecipe k r).mem = s.mem := rfl
@[simp] theorem State.setRecipe_descs (k : Nat) (r : RecipeSlot) : (s.setRecipe k r).descs = s.descs := rfl
@[simp] theorem State.setRecipe_remaps (k : Nat) (r : RecipeSlot) : (s.setRecipe k r).remaps = s.remaps := rfl
@[simp] theorem State.setRecipe_repairs (k : Nat) (r : RecipeSlot) : (s.setRecipe k r).repairs = s.repairs := rfl
@[simp] theorem State.setRecipe_spares (k : Nat) (r : RecipeSlot) : (s.setRecipe k r).spares = s.spares := rfl
@[simp] theorem State.setRecipe_rows (k : Nat) (r : RecipeSlot) : (s.setRecipe k r).rows = s.rows := rfl
@[simp] theorem State.setRecipe_epochs (k : Nat) (r : RecipeSlot) : (s.setRecipe k r).epochs = s.epochs := rfl
@[simp] theorem State.setRecipe_retPend (k : Nat) (r : RecipeSlot) : (s.setRecipe k r).retPend = s.retPend := rfl
@[simp] theorem State.setRecipe_ladder (k : Nat) (r : RecipeSlot) : (s.setRecipe k r).ladder = s.ladder := rfl
@[simp] theorem State.setRecipe_links (k : Nat) (r : RecipeSlot) : (s.setRecipe k r).links = s.links := rfl
@[simp] theorem State.setRecipe_returns (k : Nat) (r : RecipeSlot) : (s.setRecipe k r).returns = s.returns := rfl
@[simp] theorem State.setRecipe_laneMaps (k : Nat) (r : RecipeSlot) : (s.setRecipe k r).laneMaps = s.laneMaps := rfl
@[simp] theorem State.setRecipe_keys (k : Nat) (r : RecipeSlot) : (s.setRecipe k r).keys = s.keys := rfl
@[simp] theorem State.setRecipe_clearing (k : Nat) (r : RecipeSlot) : (s.setRecipe k r).clearing = s.clearing := rfl
@[simp] theorem State.setRecipe_dir (k : Nat) (r : RecipeSlot) : (s.setRecipe k r).dir = s.dir := rfl
@[simp] theorem State.setRecipe_hands (k : Nat) (r : RecipeSlot) : (s.setRecipe k r).hands = s.hands := rfl
@[simp] theorem State.setRecipe_fetches (k : Nat) (r : RecipeSlot) : (s.setRecipe k r).fetches = s.fetches := rfl
@[simp] theorem State.setRecipe_demandQ (k : Nat) (r : RecipeSlot) : (s.setRecipe k r).demandQ = s.demandQ := rfl
@[simp] theorem State.setRecipe_prefetchQ (k : Nat) (r : RecipeSlot) : (s.setRecipe k r).prefetchQ = s.prefetchQ := rfl
@[simp] theorem State.setRecipe_far (k : Nat) (r : RecipeSlot) : (s.setRecipe k r).far = s.far := rfl
@[simp] theorem State.setRecipe_streams (k : Nat) (r : RecipeSlot) : (s.setRecipe k r).streams = s.streams := rfl
@[simp] theorem State.setRecipe_lgUsed (k : Nat) (r : RecipeSlot) : (s.setRecipe k r).lgUsed = s.lgUsed := rfl
@[simp] theorem State.setRecipe_lgSums (k : Nat) (r : RecipeSlot) : (s.setRecipe k r).lgSums = s.lgSums := rfl
@[simp] theorem State.setRecipe_lgWalk (k : Nat) (r : RecipeSlot) : (s.setRecipe k r).lgWalk = s.lgWalk := rfl
@[simp] theorem State.setRecipe_attns (k : Nat) (r : RecipeSlot) : (s.setRecipe k r).attns = s.attns := rfl
@[simp] theorem State.setRecipe_runs (k : Nat) (r : RecipeSlot) : (s.setRecipe k r).runs = s.runs := rfl
@[simp] theorem State.setRecipe_cores (k : Nat) (r : RecipeSlot) : (s.setRecipe k r).cores = s.cores := rfl
@[simp] theorem State.setRecipe_clReset (k : Nat) (r : RecipeSlot) : (s.setRecipe k r).clReset = s.clReset := rfl
@[simp] theorem State.setRecipe_packets (k : Nat) (r : RecipeSlot) : (s.setRecipe k r).packets = s.packets := rfl
@[simp] theorem State.setRecipe_fwq (k : Nat) (r : RecipeSlot) : (s.setRecipe k r).fwq = s.fwq := rfl
@[simp] theorem State.setRecipe_interps (k : Nat) (r : RecipeSlot) : (s.setRecipe k r).interps = s.interps := rfl
@[simp] theorem State.setRecipe_obs (k : Nat) (r : RecipeSlot) : (s.setRecipe k r).obs = s.obs := rfl
@[simp] theorem State.setRecipe_nvm (k : Nat) (r : RecipeSlot) : (s.setRecipe k r).nvm = s.nvm := rfl
@[simp] theorem State.setRecipe_arbs (k : Nat) (r : RecipeSlot) : (s.setRecipe k r).arbs = s.arbs := rfl
@[simp] theorem State.setRecipe_i3want (k : Nat) (r : RecipeSlot) : (s.setRecipe k r).i3want = s.i3want := rfl
@[simp] theorem State.setRecipe_i3at (k : Nat) (r : RecipeSlot) : (s.setRecipe k r).i3at = s.i3at := rfl
@[simp] theorem State.setRecipe_therm (k : Nat) (r : RecipeSlot) : (s.setRecipe k r).therm = s.therm := rfl
@[simp] theorem State.setRecipe_supply (k : Nat) (r : RecipeSlot) : (s.setRecipe k r).supply = s.supply := rfl
@[simp] theorem State.setRecipe_trims (k : Nat) (r : RecipeSlot) : (s.setRecipe k r).trims = s.trims := rfl
@[simp] theorem State.setRecipe_sec (k : Nat) (r : RecipeSlot) : (s.setRecipe k r).sec = s.sec := rfl
@[simp] theorem State.setRecipe_boot (k : Nat) (r : RecipeSlot) : (s.setRecipe k r).boot = s.boot := rfl
@[simp] theorem State.setRecipe_mgmtQ (k : Nat) (r : RecipeSlot) : (s.setRecipe k r).mgmtQ = s.mgmtQ := rfl
@[simp] theorem State.setRecipe_mapCopy (k : Nat) (r : RecipeSlot) : (s.setRecipe k r).mapCopy = s.mapCopy := rfl

/-! ### State.setCore -/

@[simp] theorem State.setCore_pending (cl core : Nat) (c : Core) : (s.setCore cl core c).pending = s.pending := rfl
@[simp] theorem State.setCore_clk (cl core : Nat) (c : Core) : (s.setCore cl core c).clk = s.clk := rfl
@[simp] theorem State.setCore_regs (cl core : Nat) (c : Core) : (s.setCore cl core c).regs = s.regs := rfl
@[simp] theorem State.setCore_pregs (cl core : Nat) (c : Core) : (s.setCore cl core c).pregs = s.pregs := rfl
@[simp] theorem State.setCore_out (cl core : Nat) (c : Core) : (s.setCore cl core c).out = s.out := rfl
@[simp] theorem State.setCore_free (cl core : Nat) (c : Core) : (s.setCore cl core c).free = s.free := rfl
@[simp] theorem State.setCore_nextId (cl core : Nat) (c : Core) : (s.setCore cl core c).nextId = s.nextId := rfl
@[simp] theorem State.setCore_ports (cl core : Nat) (c : Core) : (s.setCore cl core c).ports = s.ports := rfl
@[simp] theorem State.setCore_gates (cl core : Nat) (c : Core) : (s.setCore cl core c).gates = s.gates := rfl
@[simp] theorem State.setCore_tenants (cl core : Nat) (c : Core) : (s.setCore cl core c).tenants = s.tenants := rfl
@[simp] theorem State.setCore_wheel (cl core : Nat) (c : Core) : (s.setCore cl core c).wheel = s.wheel := rfl
@[simp] theorem State.setCore_pccs (cl core : Nat) (c : Core) : (s.setCore cl core c).pccs = s.pccs := rfl
@[simp] theorem State.setCore_mem (cl core : Nat) (c : Core) : (s.setCore cl core c).mem = s.mem := rfl
@[simp] theorem State.setCore_descs (cl core : Nat) (c : Core) : (s.setCore cl core c).descs = s.descs := rfl
@[simp] theorem State.setCore_remaps (cl core : Nat) (c : Core) : (s.setCore cl core c).remaps = s.remaps := rfl
@[simp] theorem State.setCore_repairs (cl core : Nat) (c : Core) : (s.setCore cl core c).repairs = s.repairs := rfl
@[simp] theorem State.setCore_spares (cl core : Nat) (c : Core) : (s.setCore cl core c).spares = s.spares := rfl
@[simp] theorem State.setCore_rows (cl core : Nat) (c : Core) : (s.setCore cl core c).rows = s.rows := rfl
@[simp] theorem State.setCore_epochs (cl core : Nat) (c : Core) : (s.setCore cl core c).epochs = s.epochs := rfl
@[simp] theorem State.setCore_retPend (cl core : Nat) (c : Core) : (s.setCore cl core c).retPend = s.retPend := rfl
@[simp] theorem State.setCore_ladder (cl core : Nat) (c : Core) : (s.setCore cl core c).ladder = s.ladder := rfl
@[simp] theorem State.setCore_links (cl core : Nat) (c : Core) : (s.setCore cl core c).links = s.links := rfl
@[simp] theorem State.setCore_returns (cl core : Nat) (c : Core) : (s.setCore cl core c).returns = s.returns := rfl
@[simp] theorem State.setCore_laneMaps (cl core : Nat) (c : Core) : (s.setCore cl core c).laneMaps = s.laneMaps := rfl
@[simp] theorem State.setCore_keys (cl core : Nat) (c : Core) : (s.setCore cl core c).keys = s.keys := rfl
@[simp] theorem State.setCore_clearing (cl core : Nat) (c : Core) : (s.setCore cl core c).clearing = s.clearing := rfl
@[simp] theorem State.setCore_dir (cl core : Nat) (c : Core) : (s.setCore cl core c).dir = s.dir := rfl
@[simp] theorem State.setCore_hands (cl core : Nat) (c : Core) : (s.setCore cl core c).hands = s.hands := rfl
@[simp] theorem State.setCore_fetches (cl core : Nat) (c : Core) : (s.setCore cl core c).fetches = s.fetches := rfl
@[simp] theorem State.setCore_demandQ (cl core : Nat) (c : Core) : (s.setCore cl core c).demandQ = s.demandQ := rfl
@[simp] theorem State.setCore_prefetchQ (cl core : Nat) (c : Core) : (s.setCore cl core c).prefetchQ = s.prefetchQ := rfl
@[simp] theorem State.setCore_far (cl core : Nat) (c : Core) : (s.setCore cl core c).far = s.far := rfl
@[simp] theorem State.setCore_streams (cl core : Nat) (c : Core) : (s.setCore cl core c).streams = s.streams := rfl
@[simp] theorem State.setCore_lgUsed (cl core : Nat) (c : Core) : (s.setCore cl core c).lgUsed = s.lgUsed := rfl
@[simp] theorem State.setCore_lgSums (cl core : Nat) (c : Core) : (s.setCore cl core c).lgSums = s.lgSums := rfl
@[simp] theorem State.setCore_lgWalk (cl core : Nat) (c : Core) : (s.setCore cl core c).lgWalk = s.lgWalk := rfl
@[simp] theorem State.setCore_attns (cl core : Nat) (c : Core) : (s.setCore cl core c).attns = s.attns := rfl
@[simp] theorem State.setCore_recipes (cl core : Nat) (c : Core) : (s.setCore cl core c).recipes = s.recipes := rfl
@[simp] theorem State.setCore_runs (cl core : Nat) (c : Core) : (s.setCore cl core c).runs = s.runs := rfl
@[simp] theorem State.setCore_clReset (cl core : Nat) (c : Core) : (s.setCore cl core c).clReset = s.clReset := rfl
@[simp] theorem State.setCore_packets (cl core : Nat) (c : Core) : (s.setCore cl core c).packets = s.packets := rfl
@[simp] theorem State.setCore_fwq (cl core : Nat) (c : Core) : (s.setCore cl core c).fwq = s.fwq := rfl
@[simp] theorem State.setCore_interps (cl core : Nat) (c : Core) : (s.setCore cl core c).interps = s.interps := rfl
@[simp] theorem State.setCore_obs (cl core : Nat) (c : Core) : (s.setCore cl core c).obs = s.obs := rfl
@[simp] theorem State.setCore_nvm (cl core : Nat) (c : Core) : (s.setCore cl core c).nvm = s.nvm := rfl
@[simp] theorem State.setCore_arbs (cl core : Nat) (c : Core) : (s.setCore cl core c).arbs = s.arbs := rfl
@[simp] theorem State.setCore_i3want (cl core : Nat) (c : Core) : (s.setCore cl core c).i3want = s.i3want := rfl
@[simp] theorem State.setCore_i3at (cl core : Nat) (c : Core) : (s.setCore cl core c).i3at = s.i3at := rfl
@[simp] theorem State.setCore_therm (cl core : Nat) (c : Core) : (s.setCore cl core c).therm = s.therm := rfl
@[simp] theorem State.setCore_supply (cl core : Nat) (c : Core) : (s.setCore cl core c).supply = s.supply := rfl
@[simp] theorem State.setCore_trims (cl core : Nat) (c : Core) : (s.setCore cl core c).trims = s.trims := rfl
@[simp] theorem State.setCore_sec (cl core : Nat) (c : Core) : (s.setCore cl core c).sec = s.sec := rfl
@[simp] theorem State.setCore_boot (cl core : Nat) (c : Core) : (s.setCore cl core c).boot = s.boot := rfl
@[simp] theorem State.setCore_mgmtQ (cl core : Nat) (c : Core) : (s.setCore cl core c).mgmtQ = s.mgmtQ := rfl
@[simp] theorem State.setCore_mapCopy (cl core : Nat) (c : Core) : (s.setCore cl core c).mapCopy = s.mapCopy := rfl

/-! ### State.setAttn -/

@[simp] theorem State.setAttn_pending (id : Nat) (r : AttnRun) : (s.setAttn id r).pending = s.pending := rfl
@[simp] theorem State.setAttn_clk (id : Nat) (r : AttnRun) : (s.setAttn id r).clk = s.clk := rfl
@[simp] theorem State.setAttn_regs (id : Nat) (r : AttnRun) : (s.setAttn id r).regs = s.regs := rfl
@[simp] theorem State.setAttn_pregs (id : Nat) (r : AttnRun) : (s.setAttn id r).pregs = s.pregs := rfl
@[simp] theorem State.setAttn_out (id : Nat) (r : AttnRun) : (s.setAttn id r).out = s.out := rfl
@[simp] theorem State.setAttn_free (id : Nat) (r : AttnRun) : (s.setAttn id r).free = s.free := rfl
@[simp] theorem State.setAttn_nextId (id : Nat) (r : AttnRun) : (s.setAttn id r).nextId = s.nextId := rfl
@[simp] theorem State.setAttn_ports (id : Nat) (r : AttnRun) : (s.setAttn id r).ports = s.ports := rfl
@[simp] theorem State.setAttn_gates (id : Nat) (r : AttnRun) : (s.setAttn id r).gates = s.gates := rfl
@[simp] theorem State.setAttn_tenants (id : Nat) (r : AttnRun) : (s.setAttn id r).tenants = s.tenants := rfl
@[simp] theorem State.setAttn_wheel (id : Nat) (r : AttnRun) : (s.setAttn id r).wheel = s.wheel := rfl
@[simp] theorem State.setAttn_pccs (id : Nat) (r : AttnRun) : (s.setAttn id r).pccs = s.pccs := rfl
@[simp] theorem State.setAttn_mem (id : Nat) (r : AttnRun) : (s.setAttn id r).mem = s.mem := rfl
@[simp] theorem State.setAttn_descs (id : Nat) (r : AttnRun) : (s.setAttn id r).descs = s.descs := rfl
@[simp] theorem State.setAttn_remaps (id : Nat) (r : AttnRun) : (s.setAttn id r).remaps = s.remaps := rfl
@[simp] theorem State.setAttn_repairs (id : Nat) (r : AttnRun) : (s.setAttn id r).repairs = s.repairs := rfl
@[simp] theorem State.setAttn_spares (id : Nat) (r : AttnRun) : (s.setAttn id r).spares = s.spares := rfl
@[simp] theorem State.setAttn_rows (id : Nat) (r : AttnRun) : (s.setAttn id r).rows = s.rows := rfl
@[simp] theorem State.setAttn_epochs (id : Nat) (r : AttnRun) : (s.setAttn id r).epochs = s.epochs := rfl
@[simp] theorem State.setAttn_retPend (id : Nat) (r : AttnRun) : (s.setAttn id r).retPend = s.retPend := rfl
@[simp] theorem State.setAttn_ladder (id : Nat) (r : AttnRun) : (s.setAttn id r).ladder = s.ladder := rfl
@[simp] theorem State.setAttn_links (id : Nat) (r : AttnRun) : (s.setAttn id r).links = s.links := rfl
@[simp] theorem State.setAttn_returns (id : Nat) (r : AttnRun) : (s.setAttn id r).returns = s.returns := rfl
@[simp] theorem State.setAttn_laneMaps (id : Nat) (r : AttnRun) : (s.setAttn id r).laneMaps = s.laneMaps := rfl
@[simp] theorem State.setAttn_keys (id : Nat) (r : AttnRun) : (s.setAttn id r).keys = s.keys := rfl
@[simp] theorem State.setAttn_clearing (id : Nat) (r : AttnRun) : (s.setAttn id r).clearing = s.clearing := rfl
@[simp] theorem State.setAttn_dir (id : Nat) (r : AttnRun) : (s.setAttn id r).dir = s.dir := rfl
@[simp] theorem State.setAttn_hands (id : Nat) (r : AttnRun) : (s.setAttn id r).hands = s.hands := rfl
@[simp] theorem State.setAttn_fetches (id : Nat) (r : AttnRun) : (s.setAttn id r).fetches = s.fetches := rfl
@[simp] theorem State.setAttn_demandQ (id : Nat) (r : AttnRun) : (s.setAttn id r).demandQ = s.demandQ := rfl
@[simp] theorem State.setAttn_prefetchQ (id : Nat) (r : AttnRun) : (s.setAttn id r).prefetchQ = s.prefetchQ := rfl
@[simp] theorem State.setAttn_far (id : Nat) (r : AttnRun) : (s.setAttn id r).far = s.far := rfl
@[simp] theorem State.setAttn_streams (id : Nat) (r : AttnRun) : (s.setAttn id r).streams = s.streams := rfl
@[simp] theorem State.setAttn_lgUsed (id : Nat) (r : AttnRun) : (s.setAttn id r).lgUsed = s.lgUsed := rfl
@[simp] theorem State.setAttn_lgSums (id : Nat) (r : AttnRun) : (s.setAttn id r).lgSums = s.lgSums := rfl
@[simp] theorem State.setAttn_lgWalk (id : Nat) (r : AttnRun) : (s.setAttn id r).lgWalk = s.lgWalk := rfl
@[simp] theorem State.setAttn_recipes (id : Nat) (r : AttnRun) : (s.setAttn id r).recipes = s.recipes := rfl
@[simp] theorem State.setAttn_runs (id : Nat) (r : AttnRun) : (s.setAttn id r).runs = s.runs := rfl
@[simp] theorem State.setAttn_cores (id : Nat) (r : AttnRun) : (s.setAttn id r).cores = s.cores := rfl
@[simp] theorem State.setAttn_clReset (id : Nat) (r : AttnRun) : (s.setAttn id r).clReset = s.clReset := rfl
@[simp] theorem State.setAttn_packets (id : Nat) (r : AttnRun) : (s.setAttn id r).packets = s.packets := rfl
@[simp] theorem State.setAttn_fwq (id : Nat) (r : AttnRun) : (s.setAttn id r).fwq = s.fwq := rfl
@[simp] theorem State.setAttn_interps (id : Nat) (r : AttnRun) : (s.setAttn id r).interps = s.interps := rfl
@[simp] theorem State.setAttn_obs (id : Nat) (r : AttnRun) : (s.setAttn id r).obs = s.obs := rfl
@[simp] theorem State.setAttn_nvm (id : Nat) (r : AttnRun) : (s.setAttn id r).nvm = s.nvm := rfl
@[simp] theorem State.setAttn_arbs (id : Nat) (r : AttnRun) : (s.setAttn id r).arbs = s.arbs := rfl
@[simp] theorem State.setAttn_i3want (id : Nat) (r : AttnRun) : (s.setAttn id r).i3want = s.i3want := rfl
@[simp] theorem State.setAttn_i3at (id : Nat) (r : AttnRun) : (s.setAttn id r).i3at = s.i3at := rfl
@[simp] theorem State.setAttn_therm (id : Nat) (r : AttnRun) : (s.setAttn id r).therm = s.therm := rfl
@[simp] theorem State.setAttn_supply (id : Nat) (r : AttnRun) : (s.setAttn id r).supply = s.supply := rfl
@[simp] theorem State.setAttn_trims (id : Nat) (r : AttnRun) : (s.setAttn id r).trims = s.trims := rfl
@[simp] theorem State.setAttn_sec (id : Nat) (r : AttnRun) : (s.setAttn id r).sec = s.sec := rfl
@[simp] theorem State.setAttn_boot (id : Nat) (r : AttnRun) : (s.setAttn id r).boot = s.boot := rfl
@[simp] theorem State.setAttn_mgmtQ (id : Nat) (r : AttnRun) : (s.setAttn id r).mgmtQ = s.mgmtQ := rfl
@[simp] theorem State.setAttn_mapCopy (id : Nat) (r : AttnRun) : (s.setAttn id r).mapCopy = s.mapCopy := rfl

/-! ### State.setLinkOf -/

@[simp] theorem State.setLinkOf_pending (k : Nat) (l : Link) : (s.setLinkOf k l).pending = s.pending := rfl
@[simp] theorem State.setLinkOf_clk (k : Nat) (l : Link) : (s.setLinkOf k l).clk = s.clk := rfl
@[simp] theorem State.setLinkOf_regs (k : Nat) (l : Link) : (s.setLinkOf k l).regs = s.regs := rfl
@[simp] theorem State.setLinkOf_pregs (k : Nat) (l : Link) : (s.setLinkOf k l).pregs = s.pregs := rfl
@[simp] theorem State.setLinkOf_out (k : Nat) (l : Link) : (s.setLinkOf k l).out = s.out := rfl
@[simp] theorem State.setLinkOf_free (k : Nat) (l : Link) : (s.setLinkOf k l).free = s.free := rfl
@[simp] theorem State.setLinkOf_nextId (k : Nat) (l : Link) : (s.setLinkOf k l).nextId = s.nextId := rfl
@[simp] theorem State.setLinkOf_ports (k : Nat) (l : Link) : (s.setLinkOf k l).ports = s.ports := rfl
@[simp] theorem State.setLinkOf_gates (k : Nat) (l : Link) : (s.setLinkOf k l).gates = s.gates := rfl
@[simp] theorem State.setLinkOf_tenants (k : Nat) (l : Link) : (s.setLinkOf k l).tenants = s.tenants := rfl
@[simp] theorem State.setLinkOf_wheel (k : Nat) (l : Link) : (s.setLinkOf k l).wheel = s.wheel := rfl
@[simp] theorem State.setLinkOf_pccs (k : Nat) (l : Link) : (s.setLinkOf k l).pccs = s.pccs := rfl
@[simp] theorem State.setLinkOf_mem (k : Nat) (l : Link) : (s.setLinkOf k l).mem = s.mem := rfl
@[simp] theorem State.setLinkOf_descs (k : Nat) (l : Link) : (s.setLinkOf k l).descs = s.descs := rfl
@[simp] theorem State.setLinkOf_remaps (k : Nat) (l : Link) : (s.setLinkOf k l).remaps = s.remaps := rfl
@[simp] theorem State.setLinkOf_repairs (k : Nat) (l : Link) : (s.setLinkOf k l).repairs = s.repairs := rfl
@[simp] theorem State.setLinkOf_spares (k : Nat) (l : Link) : (s.setLinkOf k l).spares = s.spares := rfl
@[simp] theorem State.setLinkOf_rows (k : Nat) (l : Link) : (s.setLinkOf k l).rows = s.rows := rfl
@[simp] theorem State.setLinkOf_epochs (k : Nat) (l : Link) : (s.setLinkOf k l).epochs = s.epochs := rfl
@[simp] theorem State.setLinkOf_retPend (k : Nat) (l : Link) : (s.setLinkOf k l).retPend = s.retPend := rfl
@[simp] theorem State.setLinkOf_ladder (k : Nat) (l : Link) : (s.setLinkOf k l).ladder = s.ladder := rfl
@[simp] theorem State.setLinkOf_returns (k : Nat) (l : Link) : (s.setLinkOf k l).returns = s.returns := rfl
@[simp] theorem State.setLinkOf_laneMaps (k : Nat) (l : Link) : (s.setLinkOf k l).laneMaps = s.laneMaps := rfl
@[simp] theorem State.setLinkOf_keys (k : Nat) (l : Link) : (s.setLinkOf k l).keys = s.keys := rfl
@[simp] theorem State.setLinkOf_clearing (k : Nat) (l : Link) : (s.setLinkOf k l).clearing = s.clearing := rfl
@[simp] theorem State.setLinkOf_dir (k : Nat) (l : Link) : (s.setLinkOf k l).dir = s.dir := rfl
@[simp] theorem State.setLinkOf_hands (k : Nat) (l : Link) : (s.setLinkOf k l).hands = s.hands := rfl
@[simp] theorem State.setLinkOf_fetches (k : Nat) (l : Link) : (s.setLinkOf k l).fetches = s.fetches := rfl
@[simp] theorem State.setLinkOf_demandQ (k : Nat) (l : Link) : (s.setLinkOf k l).demandQ = s.demandQ := rfl
@[simp] theorem State.setLinkOf_prefetchQ (k : Nat) (l : Link) : (s.setLinkOf k l).prefetchQ = s.prefetchQ := rfl
@[simp] theorem State.setLinkOf_far (k : Nat) (l : Link) : (s.setLinkOf k l).far = s.far := rfl
@[simp] theorem State.setLinkOf_streams (k : Nat) (l : Link) : (s.setLinkOf k l).streams = s.streams := rfl
@[simp] theorem State.setLinkOf_lgUsed (k : Nat) (l : Link) : (s.setLinkOf k l).lgUsed = s.lgUsed := rfl
@[simp] theorem State.setLinkOf_lgSums (k : Nat) (l : Link) : (s.setLinkOf k l).lgSums = s.lgSums := rfl
@[simp] theorem State.setLinkOf_lgWalk (k : Nat) (l : Link) : (s.setLinkOf k l).lgWalk = s.lgWalk := rfl
@[simp] theorem State.setLinkOf_attns (k : Nat) (l : Link) : (s.setLinkOf k l).attns = s.attns := rfl
@[simp] theorem State.setLinkOf_recipes (k : Nat) (l : Link) : (s.setLinkOf k l).recipes = s.recipes := rfl
@[simp] theorem State.setLinkOf_runs (k : Nat) (l : Link) : (s.setLinkOf k l).runs = s.runs := rfl
@[simp] theorem State.setLinkOf_cores (k : Nat) (l : Link) : (s.setLinkOf k l).cores = s.cores := rfl
@[simp] theorem State.setLinkOf_clReset (k : Nat) (l : Link) : (s.setLinkOf k l).clReset = s.clReset := rfl
@[simp] theorem State.setLinkOf_packets (k : Nat) (l : Link) : (s.setLinkOf k l).packets = s.packets := rfl
@[simp] theorem State.setLinkOf_fwq (k : Nat) (l : Link) : (s.setLinkOf k l).fwq = s.fwq := rfl
@[simp] theorem State.setLinkOf_interps (k : Nat) (l : Link) : (s.setLinkOf k l).interps = s.interps := rfl
@[simp] theorem State.setLinkOf_obs (k : Nat) (l : Link) : (s.setLinkOf k l).obs = s.obs := rfl
@[simp] theorem State.setLinkOf_nvm (k : Nat) (l : Link) : (s.setLinkOf k l).nvm = s.nvm := rfl
@[simp] theorem State.setLinkOf_arbs (k : Nat) (l : Link) : (s.setLinkOf k l).arbs = s.arbs := rfl
@[simp] theorem State.setLinkOf_i3want (k : Nat) (l : Link) : (s.setLinkOf k l).i3want = s.i3want := rfl
@[simp] theorem State.setLinkOf_i3at (k : Nat) (l : Link) : (s.setLinkOf k l).i3at = s.i3at := rfl
@[simp] theorem State.setLinkOf_therm (k : Nat) (l : Link) : (s.setLinkOf k l).therm = s.therm := rfl
@[simp] theorem State.setLinkOf_supply (k : Nat) (l : Link) : (s.setLinkOf k l).supply = s.supply := rfl
@[simp] theorem State.setLinkOf_trims (k : Nat) (l : Link) : (s.setLinkOf k l).trims = s.trims := rfl
@[simp] theorem State.setLinkOf_sec (k : Nat) (l : Link) : (s.setLinkOf k l).sec = s.sec := rfl
@[simp] theorem State.setLinkOf_boot (k : Nat) (l : Link) : (s.setLinkOf k l).boot = s.boot := rfl
@[simp] theorem State.setLinkOf_mgmtQ (k : Nat) (l : Link) : (s.setLinkOf k l).mgmtQ = s.mgmtQ := rfl
@[simp] theorem State.setLinkOf_mapCopy (k : Nat) (l : Link) : (s.setLinkOf k l).mapCopy = s.mapCopy := rfl

/-! ### State.nvmPut -/

@[simp] theorem State.nvmPut_pending (a : Nat) (w : Word) : (s.nvmPut a w).pending = s.pending := rfl
@[simp] theorem State.nvmPut_clk (a : Nat) (w : Word) : (s.nvmPut a w).clk = s.clk := rfl
@[simp] theorem State.nvmPut_regs (a : Nat) (w : Word) : (s.nvmPut a w).regs = s.regs := rfl
@[simp] theorem State.nvmPut_pregs (a : Nat) (w : Word) : (s.nvmPut a w).pregs = s.pregs := rfl
@[simp] theorem State.nvmPut_out (a : Nat) (w : Word) : (s.nvmPut a w).out = s.out := rfl
@[simp] theorem State.nvmPut_free (a : Nat) (w : Word) : (s.nvmPut a w).free = s.free := rfl
@[simp] theorem State.nvmPut_nextId (a : Nat) (w : Word) : (s.nvmPut a w).nextId = s.nextId := rfl
@[simp] theorem State.nvmPut_ports (a : Nat) (w : Word) : (s.nvmPut a w).ports = s.ports := rfl
@[simp] theorem State.nvmPut_gates (a : Nat) (w : Word) : (s.nvmPut a w).gates = s.gates := rfl
@[simp] theorem State.nvmPut_tenants (a : Nat) (w : Word) : (s.nvmPut a w).tenants = s.tenants := rfl
@[simp] theorem State.nvmPut_wheel (a : Nat) (w : Word) : (s.nvmPut a w).wheel = s.wheel := rfl
@[simp] theorem State.nvmPut_pccs (a : Nat) (w : Word) : (s.nvmPut a w).pccs = s.pccs := rfl
@[simp] theorem State.nvmPut_mem (a : Nat) (w : Word) : (s.nvmPut a w).mem = s.mem := rfl
@[simp] theorem State.nvmPut_descs (a : Nat) (w : Word) : (s.nvmPut a w).descs = s.descs := rfl
@[simp] theorem State.nvmPut_remaps (a : Nat) (w : Word) : (s.nvmPut a w).remaps = s.remaps := rfl
@[simp] theorem State.nvmPut_repairs (a : Nat) (w : Word) : (s.nvmPut a w).repairs = s.repairs := rfl
@[simp] theorem State.nvmPut_spares (a : Nat) (w : Word) : (s.nvmPut a w).spares = s.spares := rfl
@[simp] theorem State.nvmPut_rows (a : Nat) (w : Word) : (s.nvmPut a w).rows = s.rows := rfl
@[simp] theorem State.nvmPut_epochs (a : Nat) (w : Word) : (s.nvmPut a w).epochs = s.epochs := rfl
@[simp] theorem State.nvmPut_retPend (a : Nat) (w : Word) : (s.nvmPut a w).retPend = s.retPend := rfl
@[simp] theorem State.nvmPut_ladder (a : Nat) (w : Word) : (s.nvmPut a w).ladder = s.ladder := rfl
@[simp] theorem State.nvmPut_links (a : Nat) (w : Word) : (s.nvmPut a w).links = s.links := rfl
@[simp] theorem State.nvmPut_returns (a : Nat) (w : Word) : (s.nvmPut a w).returns = s.returns := rfl
@[simp] theorem State.nvmPut_laneMaps (a : Nat) (w : Word) : (s.nvmPut a w).laneMaps = s.laneMaps := rfl
@[simp] theorem State.nvmPut_keys (a : Nat) (w : Word) : (s.nvmPut a w).keys = s.keys := rfl
@[simp] theorem State.nvmPut_clearing (a : Nat) (w : Word) : (s.nvmPut a w).clearing = s.clearing := rfl
@[simp] theorem State.nvmPut_dir (a : Nat) (w : Word) : (s.nvmPut a w).dir = s.dir := rfl
@[simp] theorem State.nvmPut_hands (a : Nat) (w : Word) : (s.nvmPut a w).hands = s.hands := rfl
@[simp] theorem State.nvmPut_fetches (a : Nat) (w : Word) : (s.nvmPut a w).fetches = s.fetches := rfl
@[simp] theorem State.nvmPut_demandQ (a : Nat) (w : Word) : (s.nvmPut a w).demandQ = s.demandQ := rfl
@[simp] theorem State.nvmPut_prefetchQ (a : Nat) (w : Word) : (s.nvmPut a w).prefetchQ = s.prefetchQ := rfl
@[simp] theorem State.nvmPut_far (a : Nat) (w : Word) : (s.nvmPut a w).far = s.far := rfl
@[simp] theorem State.nvmPut_streams (a : Nat) (w : Word) : (s.nvmPut a w).streams = s.streams := rfl
@[simp] theorem State.nvmPut_lgUsed (a : Nat) (w : Word) : (s.nvmPut a w).lgUsed = s.lgUsed := rfl
@[simp] theorem State.nvmPut_lgSums (a : Nat) (w : Word) : (s.nvmPut a w).lgSums = s.lgSums := rfl
@[simp] theorem State.nvmPut_lgWalk (a : Nat) (w : Word) : (s.nvmPut a w).lgWalk = s.lgWalk := rfl
@[simp] theorem State.nvmPut_attns (a : Nat) (w : Word) : (s.nvmPut a w).attns = s.attns := rfl
@[simp] theorem State.nvmPut_recipes (a : Nat) (w : Word) : (s.nvmPut a w).recipes = s.recipes := rfl
@[simp] theorem State.nvmPut_runs (a : Nat) (w : Word) : (s.nvmPut a w).runs = s.runs := rfl
@[simp] theorem State.nvmPut_cores (a : Nat) (w : Word) : (s.nvmPut a w).cores = s.cores := rfl
@[simp] theorem State.nvmPut_clReset (a : Nat) (w : Word) : (s.nvmPut a w).clReset = s.clReset := rfl
@[simp] theorem State.nvmPut_packets (a : Nat) (w : Word) : (s.nvmPut a w).packets = s.packets := rfl
@[simp] theorem State.nvmPut_fwq (a : Nat) (w : Word) : (s.nvmPut a w).fwq = s.fwq := rfl
@[simp] theorem State.nvmPut_interps (a : Nat) (w : Word) : (s.nvmPut a w).interps = s.interps := rfl
@[simp] theorem State.nvmPut_obs (a : Nat) (w : Word) : (s.nvmPut a w).obs = s.obs := rfl
@[simp] theorem State.nvmPut_arbs (a : Nat) (w : Word) : (s.nvmPut a w).arbs = s.arbs := rfl
@[simp] theorem State.nvmPut_i3want (a : Nat) (w : Word) : (s.nvmPut a w).i3want = s.i3want := rfl
@[simp] theorem State.nvmPut_i3at (a : Nat) (w : Word) : (s.nvmPut a w).i3at = s.i3at := rfl
@[simp] theorem State.nvmPut_therm (a : Nat) (w : Word) : (s.nvmPut a w).therm = s.therm := rfl
@[simp] theorem State.nvmPut_supply (a : Nat) (w : Word) : (s.nvmPut a w).supply = s.supply := rfl
@[simp] theorem State.nvmPut_trims (a : Nat) (w : Word) : (s.nvmPut a w).trims = s.trims := rfl
@[simp] theorem State.nvmPut_sec (a : Nat) (w : Word) : (s.nvmPut a w).sec = s.sec := rfl
@[simp] theorem State.nvmPut_boot (a : Nat) (w : Word) : (s.nvmPut a w).boot = s.boot := rfl
@[simp] theorem State.nvmPut_mgmtQ (a : Nat) (w : Word) : (s.nvmPut a w).mgmtQ = s.mgmtQ := rfl
@[simp] theorem State.nvmPut_mapCopy (a : Nat) (w : Word) : (s.nvmPut a w).mapCopy = s.mapCopy := rfl

/-! ### State.setChk -/

@[simp] theorem State.setChk_pending (k : Nat) (u : ChkUnit) : (s.setChk k u).pending = s.pending := rfl
@[simp] theorem State.setChk_clk (k : Nat) (u : ChkUnit) : (s.setChk k u).clk = s.clk := rfl
@[simp] theorem State.setChk_regs (k : Nat) (u : ChkUnit) : (s.setChk k u).regs = s.regs := rfl
@[simp] theorem State.setChk_pregs (k : Nat) (u : ChkUnit) : (s.setChk k u).pregs = s.pregs := rfl
@[simp] theorem State.setChk_out (k : Nat) (u : ChkUnit) : (s.setChk k u).out = s.out := rfl
@[simp] theorem State.setChk_free (k : Nat) (u : ChkUnit) : (s.setChk k u).free = s.free := rfl
@[simp] theorem State.setChk_nextId (k : Nat) (u : ChkUnit) : (s.setChk k u).nextId = s.nextId := rfl
@[simp] theorem State.setChk_ports (k : Nat) (u : ChkUnit) : (s.setChk k u).ports = s.ports := rfl
@[simp] theorem State.setChk_gates (k : Nat) (u : ChkUnit) : (s.setChk k u).gates = s.gates := rfl
@[simp] theorem State.setChk_tenants (k : Nat) (u : ChkUnit) : (s.setChk k u).tenants = s.tenants := rfl
@[simp] theorem State.setChk_wheel (k : Nat) (u : ChkUnit) : (s.setChk k u).wheel = s.wheel := rfl
@[simp] theorem State.setChk_pccs (k : Nat) (u : ChkUnit) : (s.setChk k u).pccs = s.pccs := rfl
@[simp] theorem State.setChk_mem (k : Nat) (u : ChkUnit) : (s.setChk k u).mem = s.mem := rfl
@[simp] theorem State.setChk_descs (k : Nat) (u : ChkUnit) : (s.setChk k u).descs = s.descs := rfl
@[simp] theorem State.setChk_remaps (k : Nat) (u : ChkUnit) : (s.setChk k u).remaps = s.remaps := rfl
@[simp] theorem State.setChk_repairs (k : Nat) (u : ChkUnit) : (s.setChk k u).repairs = s.repairs := rfl
@[simp] theorem State.setChk_spares (k : Nat) (u : ChkUnit) : (s.setChk k u).spares = s.spares := rfl
@[simp] theorem State.setChk_rows (k : Nat) (u : ChkUnit) : (s.setChk k u).rows = s.rows := rfl
@[simp] theorem State.setChk_epochs (k : Nat) (u : ChkUnit) : (s.setChk k u).epochs = s.epochs := rfl
@[simp] theorem State.setChk_retPend (k : Nat) (u : ChkUnit) : (s.setChk k u).retPend = s.retPend := rfl
@[simp] theorem State.setChk_ladder (k : Nat) (u : ChkUnit) : (s.setChk k u).ladder = s.ladder := rfl
@[simp] theorem State.setChk_links (k : Nat) (u : ChkUnit) : (s.setChk k u).links = s.links := rfl
@[simp] theorem State.setChk_returns (k : Nat) (u : ChkUnit) : (s.setChk k u).returns = s.returns := rfl
@[simp] theorem State.setChk_laneMaps (k : Nat) (u : ChkUnit) : (s.setChk k u).laneMaps = s.laneMaps := rfl
@[simp] theorem State.setChk_keys (k : Nat) (u : ChkUnit) : (s.setChk k u).keys = s.keys := rfl
@[simp] theorem State.setChk_clearing (k : Nat) (u : ChkUnit) : (s.setChk k u).clearing = s.clearing := rfl
@[simp] theorem State.setChk_dir (k : Nat) (u : ChkUnit) : (s.setChk k u).dir = s.dir := rfl
@[simp] theorem State.setChk_hands (k : Nat) (u : ChkUnit) : (s.setChk k u).hands = s.hands := rfl
@[simp] theorem State.setChk_fetches (k : Nat) (u : ChkUnit) : (s.setChk k u).fetches = s.fetches := rfl
@[simp] theorem State.setChk_demandQ (k : Nat) (u : ChkUnit) : (s.setChk k u).demandQ = s.demandQ := rfl
@[simp] theorem State.setChk_prefetchQ (k : Nat) (u : ChkUnit) : (s.setChk k u).prefetchQ = s.prefetchQ := rfl
@[simp] theorem State.setChk_far (k : Nat) (u : ChkUnit) : (s.setChk k u).far = s.far := rfl
@[simp] theorem State.setChk_streams (k : Nat) (u : ChkUnit) : (s.setChk k u).streams = s.streams := rfl
@[simp] theorem State.setChk_lgUsed (k : Nat) (u : ChkUnit) : (s.setChk k u).lgUsed = s.lgUsed := rfl
@[simp] theorem State.setChk_lgSums (k : Nat) (u : ChkUnit) : (s.setChk k u).lgSums = s.lgSums := rfl
@[simp] theorem State.setChk_lgWalk (k : Nat) (u : ChkUnit) : (s.setChk k u).lgWalk = s.lgWalk := rfl
@[simp] theorem State.setChk_attns (k : Nat) (u : ChkUnit) : (s.setChk k u).attns = s.attns := rfl
@[simp] theorem State.setChk_recipes (k : Nat) (u : ChkUnit) : (s.setChk k u).recipes = s.recipes := rfl
@[simp] theorem State.setChk_runs (k : Nat) (u : ChkUnit) : (s.setChk k u).runs = s.runs := rfl
@[simp] theorem State.setChk_cores (k : Nat) (u : ChkUnit) : (s.setChk k u).cores = s.cores := rfl
@[simp] theorem State.setChk_clReset (k : Nat) (u : ChkUnit) : (s.setChk k u).clReset = s.clReset := rfl
@[simp] theorem State.setChk_packets (k : Nat) (u : ChkUnit) : (s.setChk k u).packets = s.packets := rfl
@[simp] theorem State.setChk_fwq (k : Nat) (u : ChkUnit) : (s.setChk k u).fwq = s.fwq := rfl
@[simp] theorem State.setChk_interps (k : Nat) (u : ChkUnit) : (s.setChk k u).interps = s.interps := rfl
@[simp] theorem State.setChk_nvm (k : Nat) (u : ChkUnit) : (s.setChk k u).nvm = s.nvm := rfl
@[simp] theorem State.setChk_arbs (k : Nat) (u : ChkUnit) : (s.setChk k u).arbs = s.arbs := rfl
@[simp] theorem State.setChk_i3want (k : Nat) (u : ChkUnit) : (s.setChk k u).i3want = s.i3want := rfl
@[simp] theorem State.setChk_i3at (k : Nat) (u : ChkUnit) : (s.setChk k u).i3at = s.i3at := rfl
@[simp] theorem State.setChk_therm (k : Nat) (u : ChkUnit) : (s.setChk k u).therm = s.therm := rfl
@[simp] theorem State.setChk_supply (k : Nat) (u : ChkUnit) : (s.setChk k u).supply = s.supply := rfl
@[simp] theorem State.setChk_trims (k : Nat) (u : ChkUnit) : (s.setChk k u).trims = s.trims := rfl
@[simp] theorem State.setChk_sec (k : Nat) (u : ChkUnit) : (s.setChk k u).sec = s.sec := rfl
@[simp] theorem State.setChk_boot (k : Nat) (u : ChkUnit) : (s.setChk k u).boot = s.boot := rfl
@[simp] theorem State.setChk_mgmtQ (k : Nat) (u : ChkUnit) : (s.setChk k u).mgmtQ = s.mgmtQ := rfl
@[simp] theorem State.setChk_mapCopy (k : Nat) (u : ChkUnit) : (s.setChk k u).mapCopy = s.mapCopy := rfl

/-! ### State.lgTake -/

@[simp] theorem State.lgTake_pending (p f id : Nat) : (s.lgTake p f id).pending = s.pending := rfl
@[simp] theorem State.lgTake_clk (p f id : Nat) : (s.lgTake p f id).clk = s.clk := rfl
@[simp] theorem State.lgTake_regs (p f id : Nat) : (s.lgTake p f id).regs = s.regs := rfl
@[simp] theorem State.lgTake_pregs (p f id : Nat) : (s.lgTake p f id).pregs = s.pregs := rfl
@[simp] theorem State.lgTake_out (p f id : Nat) : (s.lgTake p f id).out = s.out := rfl
@[simp] theorem State.lgTake_free (p f id : Nat) : (s.lgTake p f id).free = s.free := rfl
@[simp] theorem State.lgTake_nextId (p f id : Nat) : (s.lgTake p f id).nextId = s.nextId := rfl
@[simp] theorem State.lgTake_ports (p f id : Nat) : (s.lgTake p f id).ports = s.ports := rfl
@[simp] theorem State.lgTake_gates (p f id : Nat) : (s.lgTake p f id).gates = s.gates := rfl
@[simp] theorem State.lgTake_tenants (p f id : Nat) : (s.lgTake p f id).tenants = s.tenants := rfl
@[simp] theorem State.lgTake_wheel (p f id : Nat) : (s.lgTake p f id).wheel = s.wheel := rfl
@[simp] theorem State.lgTake_pccs (p f id : Nat) : (s.lgTake p f id).pccs = s.pccs := rfl
@[simp] theorem State.lgTake_mem (p f id : Nat) : (s.lgTake p f id).mem = s.mem := rfl
@[simp] theorem State.lgTake_descs (p f id : Nat) : (s.lgTake p f id).descs = s.descs := rfl
@[simp] theorem State.lgTake_remaps (p f id : Nat) : (s.lgTake p f id).remaps = s.remaps := rfl
@[simp] theorem State.lgTake_repairs (p f id : Nat) : (s.lgTake p f id).repairs = s.repairs := rfl
@[simp] theorem State.lgTake_spares (p f id : Nat) : (s.lgTake p f id).spares = s.spares := rfl
@[simp] theorem State.lgTake_rows (p f id : Nat) : (s.lgTake p f id).rows = s.rows := rfl
@[simp] theorem State.lgTake_epochs (p f id : Nat) : (s.lgTake p f id).epochs = s.epochs := rfl
@[simp] theorem State.lgTake_retPend (p f id : Nat) : (s.lgTake p f id).retPend = s.retPend := rfl
@[simp] theorem State.lgTake_ladder (p f id : Nat) : (s.lgTake p f id).ladder = s.ladder := rfl
@[simp] theorem State.lgTake_links (p f id : Nat) : (s.lgTake p f id).links = s.links := rfl
@[simp] theorem State.lgTake_returns (p f id : Nat) : (s.lgTake p f id).returns = s.returns := rfl
@[simp] theorem State.lgTake_laneMaps (p f id : Nat) : (s.lgTake p f id).laneMaps = s.laneMaps := rfl
@[simp] theorem State.lgTake_keys (p f id : Nat) : (s.lgTake p f id).keys = s.keys := rfl
@[simp] theorem State.lgTake_clearing (p f id : Nat) : (s.lgTake p f id).clearing = s.clearing := rfl
@[simp] theorem State.lgTake_dir (p f id : Nat) : (s.lgTake p f id).dir = s.dir := rfl
@[simp] theorem State.lgTake_hands (p f id : Nat) : (s.lgTake p f id).hands = s.hands := rfl
@[simp] theorem State.lgTake_fetches (p f id : Nat) : (s.lgTake p f id).fetches = s.fetches := rfl
@[simp] theorem State.lgTake_demandQ (p f id : Nat) : (s.lgTake p f id).demandQ = s.demandQ := rfl
@[simp] theorem State.lgTake_prefetchQ (p f id : Nat) : (s.lgTake p f id).prefetchQ = s.prefetchQ := rfl
@[simp] theorem State.lgTake_far (p f id : Nat) : (s.lgTake p f id).far = s.far := rfl
@[simp] theorem State.lgTake_streams (p f id : Nat) : (s.lgTake p f id).streams = s.streams := rfl
@[simp] theorem State.lgTake_lgSums (p f id : Nat) : (s.lgTake p f id).lgSums = s.lgSums := rfl
@[simp] theorem State.lgTake_lgWalk (p f id : Nat) : (s.lgTake p f id).lgWalk = s.lgWalk := rfl
@[simp] theorem State.lgTake_attns (p f id : Nat) : (s.lgTake p f id).attns = s.attns := rfl
@[simp] theorem State.lgTake_recipes (p f id : Nat) : (s.lgTake p f id).recipes = s.recipes := rfl
@[simp] theorem State.lgTake_runs (p f id : Nat) : (s.lgTake p f id).runs = s.runs := rfl
@[simp] theorem State.lgTake_cores (p f id : Nat) : (s.lgTake p f id).cores = s.cores := rfl
@[simp] theorem State.lgTake_clReset (p f id : Nat) : (s.lgTake p f id).clReset = s.clReset := rfl
@[simp] theorem State.lgTake_packets (p f id : Nat) : (s.lgTake p f id).packets = s.packets := rfl
@[simp] theorem State.lgTake_fwq (p f id : Nat) : (s.lgTake p f id).fwq = s.fwq := rfl
@[simp] theorem State.lgTake_interps (p f id : Nat) : (s.lgTake p f id).interps = s.interps := rfl
@[simp] theorem State.lgTake_obs (p f id : Nat) : (s.lgTake p f id).obs = s.obs := rfl
@[simp] theorem State.lgTake_nvm (p f id : Nat) : (s.lgTake p f id).nvm = s.nvm := rfl
@[simp] theorem State.lgTake_arbs (p f id : Nat) : (s.lgTake p f id).arbs = s.arbs := rfl
@[simp] theorem State.lgTake_i3want (p f id : Nat) : (s.lgTake p f id).i3want = s.i3want := rfl
@[simp] theorem State.lgTake_i3at (p f id : Nat) : (s.lgTake p f id).i3at = s.i3at := rfl
@[simp] theorem State.lgTake_therm (p f id : Nat) : (s.lgTake p f id).therm = s.therm := rfl
@[simp] theorem State.lgTake_supply (p f id : Nat) : (s.lgTake p f id).supply = s.supply := rfl
@[simp] theorem State.lgTake_trims (p f id : Nat) : (s.lgTake p f id).trims = s.trims := rfl
@[simp] theorem State.lgTake_sec (p f id : Nat) : (s.lgTake p f id).sec = s.sec := rfl
@[simp] theorem State.lgTake_boot (p f id : Nat) : (s.lgTake p f id).boot = s.boot := rfl
@[simp] theorem State.lgTake_mgmtQ (p f id : Nat) : (s.lgTake p f id).mgmtQ = s.mgmtQ := rfl
@[simp] theorem State.lgTake_mapCopy (p f id : Nat) : (s.lgTake p f id).mapCopy = s.mapCopy := rfl

/-! ### State.lgDrop -/

@[simp] theorem State.lgDrop_pending (p f : Nat) : (s.lgDrop p f).pending = s.pending := rfl
@[simp] theorem State.lgDrop_clk (p f : Nat) : (s.lgDrop p f).clk = s.clk := rfl
@[simp] theorem State.lgDrop_regs (p f : Nat) : (s.lgDrop p f).regs = s.regs := rfl
@[simp] theorem State.lgDrop_pregs (p f : Nat) : (s.lgDrop p f).pregs = s.pregs := rfl
@[simp] theorem State.lgDrop_out (p f : Nat) : (s.lgDrop p f).out = s.out := rfl
@[simp] theorem State.lgDrop_free (p f : Nat) : (s.lgDrop p f).free = s.free := rfl
@[simp] theorem State.lgDrop_nextId (p f : Nat) : (s.lgDrop p f).nextId = s.nextId := rfl
@[simp] theorem State.lgDrop_ports (p f : Nat) : (s.lgDrop p f).ports = s.ports := rfl
@[simp] theorem State.lgDrop_gates (p f : Nat) : (s.lgDrop p f).gates = s.gates := rfl
@[simp] theorem State.lgDrop_tenants (p f : Nat) : (s.lgDrop p f).tenants = s.tenants := rfl
@[simp] theorem State.lgDrop_wheel (p f : Nat) : (s.lgDrop p f).wheel = s.wheel := rfl
@[simp] theorem State.lgDrop_pccs (p f : Nat) : (s.lgDrop p f).pccs = s.pccs := rfl
@[simp] theorem State.lgDrop_mem (p f : Nat) : (s.lgDrop p f).mem = s.mem := rfl
@[simp] theorem State.lgDrop_descs (p f : Nat) : (s.lgDrop p f).descs = s.descs := rfl
@[simp] theorem State.lgDrop_remaps (p f : Nat) : (s.lgDrop p f).remaps = s.remaps := rfl
@[simp] theorem State.lgDrop_repairs (p f : Nat) : (s.lgDrop p f).repairs = s.repairs := rfl
@[simp] theorem State.lgDrop_spares (p f : Nat) : (s.lgDrop p f).spares = s.spares := rfl
@[simp] theorem State.lgDrop_rows (p f : Nat) : (s.lgDrop p f).rows = s.rows := rfl
@[simp] theorem State.lgDrop_epochs (p f : Nat) : (s.lgDrop p f).epochs = s.epochs := rfl
@[simp] theorem State.lgDrop_retPend (p f : Nat) : (s.lgDrop p f).retPend = s.retPend := rfl
@[simp] theorem State.lgDrop_ladder (p f : Nat) : (s.lgDrop p f).ladder = s.ladder := rfl
@[simp] theorem State.lgDrop_links (p f : Nat) : (s.lgDrop p f).links = s.links := rfl
@[simp] theorem State.lgDrop_returns (p f : Nat) : (s.lgDrop p f).returns = s.returns := rfl
@[simp] theorem State.lgDrop_laneMaps (p f : Nat) : (s.lgDrop p f).laneMaps = s.laneMaps := rfl
@[simp] theorem State.lgDrop_keys (p f : Nat) : (s.lgDrop p f).keys = s.keys := rfl
@[simp] theorem State.lgDrop_clearing (p f : Nat) : (s.lgDrop p f).clearing = s.clearing := rfl
@[simp] theorem State.lgDrop_dir (p f : Nat) : (s.lgDrop p f).dir = s.dir := rfl
@[simp] theorem State.lgDrop_hands (p f : Nat) : (s.lgDrop p f).hands = s.hands := rfl
@[simp] theorem State.lgDrop_fetches (p f : Nat) : (s.lgDrop p f).fetches = s.fetches := rfl
@[simp] theorem State.lgDrop_demandQ (p f : Nat) : (s.lgDrop p f).demandQ = s.demandQ := rfl
@[simp] theorem State.lgDrop_prefetchQ (p f : Nat) : (s.lgDrop p f).prefetchQ = s.prefetchQ := rfl
@[simp] theorem State.lgDrop_far (p f : Nat) : (s.lgDrop p f).far = s.far := rfl
@[simp] theorem State.lgDrop_streams (p f : Nat) : (s.lgDrop p f).streams = s.streams := rfl
@[simp] theorem State.lgDrop_lgSums (p f : Nat) : (s.lgDrop p f).lgSums = s.lgSums := rfl
@[simp] theorem State.lgDrop_lgWalk (p f : Nat) : (s.lgDrop p f).lgWalk = s.lgWalk := rfl
@[simp] theorem State.lgDrop_attns (p f : Nat) : (s.lgDrop p f).attns = s.attns := rfl
@[simp] theorem State.lgDrop_recipes (p f : Nat) : (s.lgDrop p f).recipes = s.recipes := rfl
@[simp] theorem State.lgDrop_runs (p f : Nat) : (s.lgDrop p f).runs = s.runs := rfl
@[simp] theorem State.lgDrop_cores (p f : Nat) : (s.lgDrop p f).cores = s.cores := rfl
@[simp] theorem State.lgDrop_clReset (p f : Nat) : (s.lgDrop p f).clReset = s.clReset := rfl
@[simp] theorem State.lgDrop_packets (p f : Nat) : (s.lgDrop p f).packets = s.packets := rfl
@[simp] theorem State.lgDrop_fwq (p f : Nat) : (s.lgDrop p f).fwq = s.fwq := rfl
@[simp] theorem State.lgDrop_interps (p f : Nat) : (s.lgDrop p f).interps = s.interps := rfl
@[simp] theorem State.lgDrop_obs (p f : Nat) : (s.lgDrop p f).obs = s.obs := rfl
@[simp] theorem State.lgDrop_nvm (p f : Nat) : (s.lgDrop p f).nvm = s.nvm := rfl
@[simp] theorem State.lgDrop_arbs (p f : Nat) : (s.lgDrop p f).arbs = s.arbs := rfl
@[simp] theorem State.lgDrop_i3want (p f : Nat) : (s.lgDrop p f).i3want = s.i3want := rfl
@[simp] theorem State.lgDrop_i3at (p f : Nat) : (s.lgDrop p f).i3at = s.i3at := rfl
@[simp] theorem State.lgDrop_therm (p f : Nat) : (s.lgDrop p f).therm = s.therm := rfl
@[simp] theorem State.lgDrop_supply (p f : Nat) : (s.lgDrop p f).supply = s.supply := rfl
@[simp] theorem State.lgDrop_trims (p f : Nat) : (s.lgDrop p f).trims = s.trims := rfl
@[simp] theorem State.lgDrop_sec (p f : Nat) : (s.lgDrop p f).sec = s.sec := rfl
@[simp] theorem State.lgDrop_boot (p f : Nat) : (s.lgDrop p f).boot = s.boot := rfl
@[simp] theorem State.lgDrop_mgmtQ (p f : Nat) : (s.lgDrop p f).mgmtQ = s.mgmtQ := rfl
@[simp] theorem State.lgDrop_mapCopy (p f : Nat) : (s.lgDrop p f).mapCopy = s.mapCopy := rfl

end Sys2Proof.Machine
end

