-- ==== Sys2Proof/Laws/Registers.lean ====
section
/-! SUPPORT. Reading what was written: bit fields, registers and their fields, and the tables that hold the ports, the
pseudo-channel controllers and the other numbered units. A field update is seen by the field's own read and by no read of
another register or of another field of the same one. -/
namespace Sys2Proof.Machine

/-! ## Bit fields -/

theorem bits_lt (x lo w : Nat) : bits x lo w < 2 ^ w := Nat.mod_lt _ (Nat.two_pow_pos w)

theorem bits_shift_le (x lo w : Nat) : bits x lo w <<< lo ≤ x := by
  unfold bits
  rw [Nat.shiftLeft_eq]
  calc (x >>> lo) % 2 ^ w * 2 ^ lo ≤ (x >>> lo) * 2 ^ lo := Nat.mul_le_mul_right _ (Nat.mod_le _ _)
    _ ≤ x := by rw [Nat.shiftRight_eq_div_pow]; exact Nat.div_mul_le_self _ _

/-- A number is its low part, a field, and what lies above the field. -/
theorem split3 (x lo w : Nat) : x = x / 2 ^ (lo + w) * 2 ^ (lo + w) + bits x lo w * 2 ^ lo + x % 2 ^ lo := by
  unfold bits
  rw [Nat.shiftRight_eq_div_pow, Nat.pow_add, ← Nat.div_div_eq_div_mul]
  have h1 := Nat.div_add_mod x (2 ^ lo)
  have h2 := Nat.div_add_mod (x / 2 ^ lo) (2 ^ w)
  calc x = 2 ^ lo * (x / 2 ^ lo) + x % 2 ^ lo := h1.symm
    _ = 2 ^ lo * (2 ^ w * (x / 2 ^ lo / 2 ^ w) + x / 2 ^ lo % 2 ^ w) + x % 2 ^ lo := by rw [h2]
    _ = _ := by ring

theorem setBits_eq (x lo w v : Nat) :
    setBits x lo w v = x / 2 ^ (lo + w) * 2 ^ (lo + w) + (v % 2 ^ w) * 2 ^ lo + x % 2 ^ lo := by
  have e : setBits x lo w v = x - bits x lo w * 2 ^ lo + (v % 2 ^ w) * 2 ^ lo := by
    unfold setBits; rw [Nat.shiftLeft_eq, Nat.shiftLeft_eq]
  rw [e]
  have h := split3 x lo w
  omega

theorem testBit_setBits (x lo w v i : Nat) :
    (setBits x lo w v).testBit i = if lo ≤ i ∧ i < lo + w then v.testBit (i - lo) else x.testBit i := by
  rw [setBits_eq]
  have hm : (v % 2 ^ w) * 2 ^ lo + x % 2 ^ lo < 2 ^ (lo + w) := by
    have h1 : v % 2 ^ w + 1 ≤ 2 ^ w := Nat.mod_lt _ (Nat.two_pow_pos w)
    have h2 := Nat.mod_lt x (Nat.two_pow_pos lo)
    have h3 := Nat.mul_le_mul_right (2 ^ lo) h1
    rw [Nat.pow_add, Nat.mul_comm (2 ^ lo)]
    rw [Nat.add_mul] at h3
    omega
  rw [Nat.add_assoc, Nat.mul_comm (x / 2 ^ (lo + w)), Nat.testBit_two_pow_mul_add _ hm]
  split
  · rename_i h
    rw [Nat.mul_comm (v % 2 ^ w), Nat.testBit_two_pow_mul_add _ (Nat.mod_lt _ (Nat.two_pow_pos lo))]
    split
    · rename_i h'
      rw [Nat.testBit_mod_two_pow, if_neg (by omega)]
      simp [h']
    · rename_i h'
      rw [Nat.testBit_mod_two_pow, if_pos (by omega)]
      simp [show i - lo < w by omega]
  · rename_i h
    rw [Nat.testBit_div_two_pow, if_neg (by omega)]
    congr 1; omega

theorem testBit_bits (x lo w i : Nat) : (bits x lo w).testBit i = (decide (i < w) && x.testBit (lo + i)) := by
  unfold bits
  rw [Nat.testBit_mod_two_pow, Nat.testBit_shiftRight]

@[simp] theorem bits_setBits_same (x lo w v : Nat) : bits (setBits x lo w v) lo w = v % 2 ^ w := by
  apply Nat.eq_of_testBit_eq
  intro i
  rw [testBit_bits, testBit_setBits, Nat.testBit_mod_two_pow]
  by_cases h : i < w <;> simp [h]

/-- A field that lies apart from the one that is set. -/
theorem bits_setBits_other (x : Nat) {lo w v lo' w' : Nat} (h : lo' + w' ≤ lo ∨ lo + w ≤ lo') :
    bits (setBits x lo w v) lo' w' = bits x lo' w' := by
  apply Nat.eq_of_testBit_eq
  intro i
  rw [testBit_bits, testBit_bits, testBit_setBits]
  by_cases hi : i < w'
  · rw [if_neg (by omega)]
  · simp [hi]

theorem setBits_lt {x lo w n : Nat} (v : Nat) (h : x < 2 ^ n) (hw : lo + w ≤ n) : setBits x lo w v < 2 ^ n := by
  refine Nat.lt_pow_two_of_testBit _ fun i hi => ?_
  rw [testBit_setBits, if_neg (by omega)]
  exact Nat.testBit_lt_two_pow (Nat.lt_of_lt_of_le h (Nat.pow_le_pow_right (by decide) hi))

/-! ## Registers -/

@[simp] theorem State.rget_rput_same (s : State) (r : Reg) (ix : List Nat) (w : Word) : (s.rput r ix w).rget r ix = w :=
  tget_tput_same _ _ _ _

/-- A register at another offset. -/
theorem State.rget_rput_other (s : State) {r q : Reg} {ix jx : List Nat} (w : Word) (h : q.addr jx ≠ r.addr ix) :
    (s.rput r ix w).rget q jx = s.rget q jx :=
  tget_tput_other _ _ _ _ h

theorem State.tfind_rput_other (s : State) {r : Reg} {ix : List Nat} (w : Word) {a : Nat} (h : a ≠ r.addr ix) :
    tfind (s.rput r ix w).regs a = tfind s.regs a :=
  tfind_tput_other _ _ _ h

theorem State.tfind_fset_other (s : State) {f : Fld} {ix : List Nat} (v : Nat) {a : Nat} (h : a ≠ f.reg.addr ix) :
    tfind (s.fset f ix v).regs a = tfind s.regs a :=
  s.tfind_rput_other _ h

theorem State.rget_fset_other (s : State) {f : Fld} {ix jx : List Nat} {q : Reg} (v : Nat) (h : q.addr jx ≠ f.reg.addr ix) :
    (s.fset f ix v).rget q jx = s.rget q jx :=
  s.rget_rput_other _ h

/-- The word of a register after one of its fields is set. -/
theorem State.toNat_fset (s : State) (f : Fld) (ix : List Nat) (v : Nat) (h : f.lo + f.w ≤ 64) :
    ((s.fset f ix v).rget f.reg ix).toNat = setBits (s.rget f.reg ix).toNat f.lo f.w v := by
  unfold State.fset
  rw [State.rget_rput_same, BitVec.toNat_ofNat]
  exact Nat.mod_eq_of_lt (setBits_lt v (s.rget f.reg ix).isLt h)

/-- A field reads what was set, reduced to its width. -/
theorem State.fget_fset_same (s : State) (f : Fld) (ix : List Nat) (v : Nat) (h : f.lo + f.w ≤ 64) :
    (s.fset f ix v).fget f ix = v % 2 ^ f.w := by
  unfold State.fget
  rw [s.toNat_fset f ix v h, bits_setBits_same]

/-- Another field of the same register. -/
theorem State.fget_fset_field (s : State) {f g : Fld} (ix : List Nat) (v : Nat) (hr : g.reg = f.reg) (h : f.lo + f.w ≤ 64)
    (d : g.lo + g.w ≤ f.lo ∨ f.lo + f.w ≤ g.lo) : (s.fset f ix v).fget g ix = s.fget g ix := by
  unfold State.fget
  rw [hr, s.toNat_fset f ix v h, bits_setBits_other _ d]

/-- A field of a register at another offset. -/
theorem State.fget_fset_other (s : State) {f g : Fld} {ix jx : List Nat} (v : Nat) (h : g.reg.addr jx ≠ f.reg.addr ix) :
    (s.fset f ix v).fget g jx = s.fget g jx := by
  unfold State.fget
  rw [s.rget_fset_other v h]

theorem State.fget_rput_other (s : State) {r : Reg} {g : Fld} {ix jx : List Nat} (w : Word) (h : g.reg.addr jx ≠ r.addr ix) :
    (s.rput r ix w).fget g jx = s.fget g jx := by
  unfold State.fget
  rw [s.rget_rput_other w h]

/-! ## Numbered units -/

@[simp] theorem State.port_setPort (s : State) (n : Nat) (p : Port) : (s.setPort n p).port n = p := tget_tput_same _ _ _ _
theorem State.port_setPort_other (s : State) {n m : Nat} (p : Port) (h : m ≠ n) : (s.setPort n p).port m = s.port m :=
  tget_tput_other _ _ _ _ h
@[simp] theorem State.pcc_setPcc (s : State) (n : Nat) (p : Pcc) : (s.setPcc n p).pcc n = p := tget_tput_same _ _ _ _
theorem State.pcc_setPcc_other (s : State) {n m : Nat} (p : Pcc) (h : m ≠ n) : (s.setPcc n p).pcc m = s.pcc m :=
  tget_tput_other _ _ _ _ h
@[simp] theorem State.desc_setDesc (s : State) (n : Nat) (d : Desc) : (s.setDesc n d).desc n = d := tget_tput_same _ _ _ _
theorem State.desc_setDesc_other (s : State) {n m : Nat} (d : Desc) (h : m ≠ n) : (s.setDesc n d).desc m = s.desc m :=
  tget_tput_other _ _ _ _ h
@[simp] theorem State.tenQ_setTenQ (s : State) (n : Nat) (q : TenQ) : (s.setTenQ n q).tenQ n = q := tget_tput_same _ _ _ _
theorem State.tenQ_setTenQ_other (s : State) {n m : Nat} (q : TenQ) (h : m ≠ n) : (s.setTenQ n q).tenQ m = s.tenQ m :=
  tget_tput_other _ _ _ _ h
@[simp] theorem State.gate_setGate (s : State) (n : Nat) (g : Gate) : (s.setGate n g).gate n = g := tget_tput_same _ _ _ _
theorem State.gate_setGate_other (s : State) {n m : Nat} (g : Gate) (h : m ≠ n) : (s.setGate n g).gate m = s.gate m :=
  tget_tput_other _ _ _ _ h
@[simp] theorem State.arb_setArb (s : State) (n : Nat) (a : Arb) : (s.setArb n a).arb n = a := tget_tput_same _ _ _ _
theorem State.arb_setArb_other (s : State) {n m : Nat} (a : Arb) (h : m ≠ n) : (s.setArb n a).arb m = s.arb m :=
  tget_tput_other _ _ _ _ h
@[simp] theorem State.chk_setChk (s : State) (n : Nat) (u : ChkUnit) : (s.setChk n u).chk n = u := tget_tput_same _ _ _ _
@[simp] theorem State.linkOf_setLinkOf (s : State) (n : Nat) (l : Link) : (s.setLinkOf n l).linkOf n = l :=
  tget_tput_same _ _ _ _
@[simp] theorem State.recipe_setRecipe (s : State) (n : Nat) (r : RecipeSlot) : (s.setRecipe n r).recipe n = r :=
  tget_tput_same _ _ _ _
@[simp] theorem State.packet_setPacket (s : State) (p : Packet) : (s.setPacket p).packet p.id = some p := tfind_tset_same _ _ _
theorem State.packet_setPacket_other (s : State) (p : Packet) {i : Nat} (h : i ≠ p.id) : (s.setPacket p).packet i = s.packet i :=
  tfind_tset_other _ _ h
@[simp] theorem Port.ring_setRing (p : Port) (q : Nat) (r : Ring) : (p.setRing q r).ring q = r := tget_tput_same _ _ _ _
@[simp] theorem Pcc.bank_setBank (p : Pcc) (b : Nat) (x : Bank) : (p.setBank b x).bank b = x := tget_tput_same _ _ _ _

end Sys2Proof.Machine
end

