-- ==== Sys2Proof/Tests/Slice0.lean ====
section
/-! SUPPORT. The model's own tests: for each statement about commands a state and operands that meet its premises, clause by clause,
with what the command then does there; ill-formed operands for each check of WellFormed; the check-value and code examples of the
spec. Every test is one step, or one operation, on the state after reset with a few fields set. -/
open Sys2Proof Sys2Proof.Machine
set_option maxRecDepth 20000
set_option Elab.async false

namespace Sys2Proof.Tests

/-- The command answers a next state with this property. -/
def after (r : Res) (f : State → Bool) : Bool :=
  match r with
  | .next t => f t
  | _ => false

/-- The state after reset. -/
abbrev s0 : State := State.reset

/-- Register fields set. -/
def State.sets (s : State) (l : List (Fld × List Nat × Nat)) : State := l.foldl (fun t e => t.fset e.1 e.2.1 e.2.2) s

/-- The command leaves the state as it was. -/
def idle (c : Instr) (s : State) : Bool := after (exec c s) fun t => decide (t = s)

/-- The debug port is open at level 2, and an access error stands already. -/
def s0dbg : State := State.sets s0 [(F.seDbgStat_level, [], 2), (F.glRegErr_ro_write, [], 1)]

/-- A client root of 4 MiB at address 0 on one pseudo-channel, for tenant 0. -/
def rootDesc (first cmin slice base : Nat) : Desc :=
  ⟨BitVec.ofNat 64 (packWord [(0, 1, 1), (2, 3, 1), (8, 5, 8), (16, 12, first), (28, 7, 1)]), 1,
    BitVec.ofNat 64 (packWord [(0, 20, cmin), (20, 20, cmin), (40, 11, slice)]),
    BitVec.ofNat 64 (packWord [(0, 1, 1), (1, 1, 1), (32, 20, base)])⟩

/-- The map is applied: 4 MiB of pseudo-channel 0 at address 0; every stack is ONLINE. -/
def sm : State :=
  { State.sets s0 ([(F.glMapCtl_applied, [], 1), (F.cpFwStat_state, [], 1)] ++ (List.range 8).map fun k => (F.scLinkStat_state, [k], 3)) with
    descs := [(8, rootDesc 0 4 0 0)] }

/-- A stack that answers and is sound. -/
def goodStack : StackReport := ⟨true, 0, false, [], [], [], 20, 5⟩
/-- A bring-up whose parties answer. -/
def goodBu : BringUp := ⟨List.replicate 8 0, List.replicate 8 goodStack, 0, []⟩

/-- An arbiter that a position holds since tick 0. -/
def held (j : Nat) : Arb := { Arb.init with owner := some j }

/-- A request header in the layout of R41. -/
def hdr (kind tag len addr : Nat) (dat : Bool) (fence : Bool := false) (ext : Bool := false) (aop : Nat := 0) (asz : Bool := false)
    (tenant : Nat := 0) : BitVec 128 :=
  BitVec.ofNat 128 (packWord [(0, 4, kind), (4, 1, b2n fence), (8, 12, tag), (20, 6, len - 1), (26, 3, aop), (29, 1, b2n asz), (30, 1, b2n ext),
    (31, 1, b2n dat), (32, 48, addr), (80, 12, tenant)])

/-- A READY port with credits. -/
def rdy : Port := { Port.init with st := .ready, drev := 2, hdrHeld := 8, wdatHeld := 70, rspHeld := 8000 }
/-- The mapped state with port 23 READY, and its aperture and atomics enabled. -/
def sp : State := State.sets (sm.setPort 23 rdy) [(F.glPortCfg_aperture_en, [23], 1), (F.glPortCfg_atomic_en, [23], 1), (F.cpRingCfg_en, [4 * 23 + 3], 1), (F.glPortCfg_tenant_limit, [23], 7)]

/-- The place of byte 0 of the client root. -/
def place0 : Place := ⟨8, none, 0, 0, 0, 0, 0, 0, 0, 0, 0, false⟩

/-- The mapped state with good data in granule 0 of the client root. -/
def sd : State := (sp.storeSector place0 0 false 9).storeSector place0 1 false 9

/-- A packet of ring 3 of port 23 with its parameter words. -/
def pkt (id op : Nat) (st : PkSt) (prm : List Nat) (target : Nat := 0) : Packet :=
  { packetOf id 23 3 [gOfWords ([op, target, 0, 0] ++ prm.take 4), gOfWords (prm.drop 4)] with st := st }

/-- A state with packets in the in-flight table; the queued ones are in the firmware queue. -/
def holds (s : State) (ps : List Packet) : State :=
  { s with
    packets := ps.map fun p => (p.id, p)
    fwq := (ps.filter fun p => p.st = .queued).map (·.id) }

/-- What a packet of the in-flight table answers, if its status is fixed. -/
def answer (t : State) (id : Nat) : Option (KStatus × Nat × Nat × Nat) :=
  (tfind t.packets id).bind fun p => if p.st = .fixed then some (p.status, p.count, p.aux, p.detail) else none

/-- Pool 0 of two frames, in 4 MiB of pseudo-channel 0; segment 0 is mapped from far address 2^21. -/
def sr : State :=
  { State.sets sp [(F.trPoolCfg_en, [0], 1), (F.trPoolCfg_desc, [0], 9), (F.trPoolCfg_frames, [0], 2), (F.trCfg_en, [], 1), (F.trCfg_max_fetch, [], 1)] with
    descs := [(8, rootDesc 0 4 0 0), (9, { rootDesc 0 4 4 0 with d3 := 1 })]
    dir := [(0, { SegEnt.init with st := .far, home := 2 ^ 21 })] }

/-- A request part of port 0 that waits for its granule. -/
def part0 : Part := ⟨.wait, [place0], 0, 0, 1, .ok, 0, 0⟩
/-- A request for one granule at address 0. -/
def req0 (k : ReqKind) (st : Stage) : PortReq :=
  ⟨4, k, 9, 0, 1, 0, 0, false, 0, false, false, [5], 3, st, [part0], none, 0, 0, 0, 0, false, false⟩

/-- A request of a tenant in a stage of port 23. -/
def reqAt (id tenant : Nat) (st : Stage) (fence : Bool := false) : PortReq :=
  ⟨id, .read, id, 0, 1, 0, tenant, fence, 0, false, false, [], 0, st, [], none, 0, 0, 0, 0, false, false⟩

/-- The place of a row of another bank. -/
def placeB (b row : Nat) : Place := ⟨8, none, 0, b, row, 0, 0, 0, b, row, 0, false⟩

/-- A read entry and a write entry of a pseudo-channel. -/
def rdEnt (q : Nat) (p : Place) : Ent := ⟨q, .read, p, .none, 0, 0, 3, 0, false, 0, 0, none, 0⟩
def wrEnt (q : Nat) (p : Place) : Ent := ⟨q, .write, p, .none, 0, 0, 3, 0, true, 6, 0, none, 0⟩
def mgEnt (q : Nat) (st : MgState) (mask todo : Nat) : MgEnt := ⟨q, place0, st, 6, mask, 0, todo, 0, 0, [], 0, 0⟩
def bankAt (row : Nat) : Bank := { Bank.init with row := some row }

/-- Port 0 of the mapped state holds a request in its issued stage. -/
def smReq (k : ReqKind) : State := sm.setPort 0 { sm.port 0 with st := .ready, reqs := [req0 k .issued] }

/-- LOAD of BF16 elements from slot 0 to lane word 0. -/
def load0 : Nat := 4 + 2 ^ 13
/-- A stored recipe of one END, and one of a LOAD and an END. -/
def recE : RecipeSlot := ⟨0, 3, [0], true, false⟩
def recL : RecipeSlot := ⟨0, 255, [BitVec.ofNat 64 load0, 0], true, false⟩
/-- The data state with the two recipes in slots 32 and 255. -/
def sk : State := { sd with recipes := [(32, recE), (255, recL)] }

/-- A run of the recipe in slot 32 as packet 5, one iteration. -/
def runE (next : Nat) : Run := ⟨32, 0, [0], 1, 255, 16, next, [], List.replicate 6 0, List.replicate 6 0⟩
/-- A core that carries out these steps for packet 5. -/
def coreOf (ws : List Nat) : Core :=
  ⟨5, 0, 0, ws.map (BitVec.ofNat 64), List.replicate 6 0, [1024, 1024, 0, 0, 0, 0], 0, 0, [], List.replicate 4 Eng.init, false⟩
/-- Core 15 of cluster 7 runs an iteration of packet 5, and core 0 of cluster 0 another. -/
def sc (c : Core) : State :=
  { holds (State.sets sk [(F.cnCtl_core_en, [7], 65535)]) [pkt 5 0x41 .running [recE.handle 32, 1 + 2 ^ 32 * 255]] with
    runs := [(5, runE 1)]
    cores := [(0, coreOf [0]), (127, c)] }

/-! ## The queue and every command -/

theorem witness_stepRunsFrontCommand :
    let s := { s0 with pending := [Instr.hoursTick, .vaonLoss] }
    s.pending = .hoursTick :: [.vaonLoss] ∧ after (step s) (fun t => decide (t.obs.hours = 1 ∧ t.pending = [.vaonLoss])) = true := by
  decide +kernel

theorem witness_emptyQueueIdles :
    (s0.pending = [] ∧ s0.returns = [] ∧ after (step s0) (fun t => decide (t.clk.now = 3)) = true)
    ∧ (let r : Return := ⟨10, goodStack, none, false⟩
       let s := { s0 with returns := [(3, r)] }
       s.pending = [] ∧ s.i3up = true ∧ (s.arb 3).owner = none
         ∧ after (step s) (fun t => decide (t.clk.now = 10 ∧ t.returns = [])) = true)
    ∧ (let r : Return := ⟨10, goodStack, some [], false⟩
       let s := { s0 with returns := [(3, r)] }
       r.fill ≠ none ∧ after (step s) (fun t => decide (t.clk.now = 10 ∧ (tfind t.returns 3).map (·.copying) = some true)) = true) := by
  decide +kernel

theorem witness_wellFormedCommandsComplete :
    ((Instr.act 511).wf = true ∧ after (exec (.act 511) s0) (fun _ => true) = true)
    ∧ ((Instr.act 512).wf = false ∧ after (exec (.act 512) s0) (fun _ => true) = false) := by decide +kernel

theorem witness_stepKeepsCells :
    let s := { s0.putRaw 511 63 24575 31 (List.replicate 36 1) with pending := [Instr.hoursTick] }
    Memory.wf s.epochs s.mem = true ∧ s.mem.length = 36 ∧ after (step s) (fun t => Memory.wf t.epochs t.mem) = true := by
  decide +kernel

theorem witness_stepOnlyGoesOn :
    after (step { s0 with pending := [Instr.getEndpointId] }) (fun t => decide (t.out.length = 1 ∧ t.pending = [])) = true := by
  decide +kernel

theorem witness_commandsLeaveTheRest :
    Field.regs ∉ mayChange .hoursTick ∧ after (exec .hoursTick s0) (fun t => decide (t.obs.hours = 1 ∧ t.regs = [])) = true := by
  decide +kernel

theorem witness_otherCommandsStoreNothing :
    Field.mem ∉ mayChange (.rd 0) ∧ Field.epochs ∉ mayChange (.rd 0) ∧ after (exec (.rd 0) s0) (fun _ => true) = true := by
  decide +kernel

/-! ## Ill-formed operands, one for each check of Instr.wf -/

theorem test_wf_accepts_last : (
    [.coldReset { goodBu with hub := 5 }, .warmResetRequest 1 goodBu, .btLockSet 2, .registerRead 2 (2 ^ 24 - 1) 8, .regRead (2 ^ 24 - 1), .read 23 0,
     .portReset 25, .portEnable 2 25, .pccAdmit 511, .farTimeout 1 0, .progressWrite 23 3, .ringRestart 2 23 3,
     .engineBlockDeal 0 7 63, .lossWalk 7, .segmentFetchDone (2 ^ 25 - 1), .recipeSlotFree 255, .macStep 7 15, .streamFetch 7 15 3 5,
     .clusterReset 7, .fwTrap 3 0, .debugHalt 3 4 32767 0, .caParityError 7 31, .laneRepair 7 31 8 10 0, .softRepair 7 4095,
     .rowRemap 7 63 63 24575, .bankSpare 7 63 63, .mapSnapshot 2 4095, .grSnapshot 2 262143, .dirSnapshot 2 (2 ^ 25 - 1),
     .remapSnapshot 2 7 4095, .tqSnapshot 4095, .arbRequest 9 7, .arbGrant 9, .sensorConversion (List.replicate 64 none),
     .powerEstimate 256, .powerGrant 255, .nvmWordWrite 262143 0, .keyClear 63, .lcQuery 5, .pmcWrite 255 0, .levelSample 31,
     .setEndpointId 255, .entdaa 127] : List Instr).all Instr.wf = true := by decide +kernel

theorem test_wf_rejects_next : (
    [.coldReset { goodBu with fuse := [] }, .coldReset { goodBu with reports := [goodStack] },
     .warmResetRequest 2 goodBu, .btLockSet 3, .registerRead 3 0 8,
     .registerWrite 0 (2 ^ 24) 8 0, .regRead (2 ^ 24), .read 24 0, .portReset 26, .portEnable 3 0, .portEnable 0 26, .pccAdmit 512,
     .farTimeout 2 0, .progressWrite 24 0, .progressWrite 0 4, .ringRestart 3 0 0, .engineBlockDeal 0 8 0, .engineBlockDeal 0 0 64,
     .lossWalk 8, .segmentFetchDone (2 ^ 25), .recipeSlotFree 256, .macStep 8 0, .macStep 0 16, .streamFetch 0 0 4 0,
     .streamFetch 0 0 0 6, .clusterReset 8, .fwTrap 4 0, .debugHalt 4 0 0 0, .debugHalt 0 5 0 0, .debugHalt 0 0 32768 0,
     .caParityError 8 0, .caParityError 0 32, .laneRepair 0 0 9 0 0, .laneRepair 0 0 7 10 0, .laneRepair 0 0 8 11 0, .softRepair 8 0,
     .softRepair 0 4096, .rowRemap 8 0 0 0, .rowRemap 0 64 0 0, .rowRemap 0 0 64 0, .rowRemap 0 0 0 24576, .bankSpare 0 64 0,
     .bankSpare 0 0 64, .mapSnapshot 3 0, .mapSnapshot 0 4096, .grSnapshot 0 262144, .dirSnapshot 0 (2 ^ 25), .remapSnapshot 0 8 0,
     .remapSnapshot 0 0 4096, .tqSnapshot 4096, .arbRequest 10 0, .arbRequest 0 8, .arbGrant 10, .sensorConversion [],
     .nvmWordWrite 262144 0, .keyClear 64, .pmcWrite 256 0, .levelSample 32,
     .setEndpointId 256, .entdaa 128] : List Instr).any Instr.wf = false := by decide +kernel

/-! ## The register window -/

theorem witness_registerSizeErrors :
    Reg.locate 0 ≠ none
    ∧ (s0.pathOk 0 true = true ∧ ¬ 4 = 8 ∧ after (exec (.registerWrite 0 0 4 7) s0) (fun t => decide (t.fget F.glRegErr_size_err = 1)) = true)
    ∧ (s0dbg.pathOk 2 true = true ∧ (2 ^ 24 - 1) % 8 ≠ 0
        ∧ after (exec (.registerWrite 2 (2 ^ 24 - 1) 8 7) s0dbg) (fun t => decide (t.fget F.glRegErr_size_err = 1)) = true)
    ∧ (s0.pathOk 1 false = true ∧ 4 % 8 ≠ 0
        ∧ after (exec (.registerRead 1 4 8) s0) (fun t => decide (t.out = [.regValue 1 4 0] ∧ t.fget F.glRegErr_size_err = 1)) = true) := by
  decide +kernel

theorem witness_registerUnmapped :
    (Reg.locate (2 ^ 24 - 8) = none ∧ (2 ^ 24 - 8) % 8 = 0 ∧ s0.pathOk 1 true = true ∧ s0dbg.pathOk 2 false = true)
    ∧ after (exec (.registerWrite 1 (2 ^ 24 - 8) 8 7) s0) (fun t => decide (t.fget F.glRegErr_unmapped = 1
        ∧ t.fget F.glRegErr_first_offset = 2 ^ 24 - 8 ∧ t.fget F.glRegErr_first_path = 1)) = true
    ∧ after (exec (.registerRead 2 (2 ^ 24 - 8) 8) s0dbg) (fun t => decide (t.out = [.regValue 2 (2 ^ 24 - 8) 0])) = true
    ∧ (let s := State.sets s0 [(F.glRegErr_ro_write, [], 1), (F.glRegErr_first_offset, [], 24)]
       s.cut = false ∧ bits (s.rget .glRegErr []).toNat 0 4 ≠ 0
       ∧ after (exec (.registerWrite 1 1 8 7) s) (fun t => decide (t.fget F.glRegErr_first_offset = 24 ∧ t.fget F.glRegErr_first_path = 0)) = true) := by
  decide +kernel

/-- A plain writable register, a read-only one and one whose fields are all RWL. -/
theorem witness_registerWrites :
    let a := Reg.tmPwrCfg.addr []
    let b := Reg.tmPwrStat.addr []
    let l := Reg.trCfg.addr []
    (Reg.locate a = some (.tmPwrCfg, []) ∧ Reg.tmPwrCfg.acts = false ∧ Reg.tmPwrCfg.readOnly [] = false ∧ s0.locked = false)
    ∧ after (exec (.registerWrite 0 a 8 120) s0) (fun t => decide (t.fget F.tmPwrCfg_env_w = 120 ∧ t.fget F.tmPwrCfg_win_ms = 10)) = true
    ∧ (Reg.locate b = some (.tmPwrStat, []) ∧ Reg.tmPwrStat.readOnly [] = true
        ∧ after (exec (.regWrite b 1) s0) (fun t => decide (t.fget F.glRegErr_ro_write = 1 ∧ t.out = [.mctp 0x7F02 1 []])) = true)
    ∧ (let s := State.sets s0 [(F.btLock_lock, [], 1)]
       s.locked = true ∧ Reg.locate l = some (.trCfg, []) ∧ Reg.trCfg.has [] (fun a => a = .rwl) = true
       ∧ Reg.trCfg.has [] (fun a => a = .rw || a = .wo || a = .w1c) = false
       ∧ after (exec (.registerWrite 0 l 8 0) s) (fun t => decide (t.fget F.glRegErr_lock_viol = 1 ∧ t.rget .trCfg [] = s.rget .trCfg [])) = true) := by
  decide +kernel

theorem witness_registerReads :
    let c := Reg.cnSatCnt.addr [7]
    let s := State.sets s0 [(F.cnSatCnt_count, [7], 9)]
    (Reg.locate c = some (.cnSatCnt, [7]) ∧ s.pathOk 0 false = true ∧ Reg.cnSatCnt.has [7] (fun a => a = .rc) = true)
    ∧ after (exec (.registerRead 0 c 8) s) (fun t => decide (t.out = [.regValue 0 c 9] ∧ t.fget F.cnSatCnt_count [7] = 0)) = true
    ∧ (let e := Reg.tmPwrCfg.addr []
       Reg.tmPwrCfg.has [] (fun a => a = .rc) = false
       ∧ after (exec (.registerRead 1 e 8) s) (fun t => decide (t.regs = s.regs)) = true
       ∧ after (exec (.regRead e) s) (fun t => decide (t.regs = s.regs ∧ t.out.length = 1)) = true)
    ∧ ((Reg.tmPwrCfg.fieldsAt []).all (fun f => f.acc = .wo || decide (63 < f.lo) || decide (f.lo + f.w ≤ 63)) = true
        ∧ (s0.readReg 0 .tmPwrCfg []).getLsbD 63 = false)
    ∧ (let k := ({ s0 with keys := [(0, 5)] }, { s0 with keys := [(0, 6)] })
       k.1.keys.map (·.1) = k.2.keys.map (·.1) ∧ k.1.readReg 0 .seSlotStat [] = k.2.readReg 0 .seSlotStat []) := by decide +kernel

theorem witness_portsAndRingsEnable :
    (s0.pathOk 1 true = true ∧ s0.locked = false ∧ (s0.port 25).st = .disabled ∧ s0.fget F.glPortCfg_en [25] = 0
      ∧ after (exec (.portEnable 1 25) s0) (fun t => decide ((t.port 25).st = .linkup)) = true)
    ∧ (let s := State.sets (s0.setPort 3 { s0.port 3 with st := .ready, rspHeld := 5 }) [(F.glPortCfg_en, [3], 1)]
       (s.port 3).st ≠ .disabled ∧ (s.port 3).st ≠ .drain ∧ s.fget F.glPortCfg_en [3] = 1
       ∧ after (exec (.portDisable 0 3) s) (fun t => decide ((t.port 3).st = .drain ∧ (t.port 3).rspHeld = 0)) = true)
    ∧ (s0.fget F.cpRingCfg_en [4 * 23 + 3] = 0
      ∧ after (exec (.ringEnable 0 23 3) s0) (fun t => decide (t.fget F.cpRingCfg_en [4 * 23 + 3] = 1)) = true)
    ∧ (let s := State.sets (s0.setPort 23 ((s0.port 23).setRing 3 { Ring.init with halted := true, seq := 9 })) [(F.cpRingCfg_en, [4 * 23 + 3], 1)]
       s.fget F.cpRingCfg_en [4 * 23 + 3] = 1 ∧ ((s.port 23).ring 3).halted = true
       ∧ after (exec (.ringDisable 0 23 3) s) (fun t => decide (t.fget F.cpRingCfg_en [4 * 23 + 3] = 0 ∧ ((t.port 23).ring 3).seq = 0)) = true
       ∧ after (exec (.ringRestart 0 23 3) s) (fun t => decide (((t.port 23).ring 3).halted = false)) = true) := by decide +kernel

theorem witness_endpointAnswers :
    (s0.cut = false ∧ s0.fget F.btStat_phase = 0 ∧ idle .hotJoin s0 = true ∧ idle (.entdaa 127) s0 = true
      ∧ after (exec (.setEndpointId 255) s0) (fun t => decide (t.fget F.btMciStat_eid = 255 ∧ t.out = [.mctp 1 0 [255]])) = true
      ∧ after (exec .getMessageTypeSupport s0) (fun t => decide (t.out = [.mctp 5 0 [0x7F]])) = true
      ∧ after (exec .getMctpVersionSupport s0) (fun t => decide (t.out.length = 1)) = true
      ∧ after (exec .getEndpointId s0) (fun t => decide (t.out = [.mctp 2 0 [0]])) = true)
    ∧ (let s := State.sets s0 [(F.btStat_phase, [], 6)]
       s.fget F.btStat_phase ≠ 0 ∧ s.fget F.btMciStat_addr_valid ≠ 1
       ∧ after (exec .hotJoin s) (fun t => decide (t.fget F.btMciStat_hotjoin = 1)) = true
       ∧ after (exec (.entdaa 127) s) (fun t => decide (t.fget F.btMciStat_dyn_addr = 127)) = true)
    ∧ (let s := { s0 with interps := [(3, { Interp.init with reload := true })], mgmtQ := [.getEndpointUuid] }
       s.mgmtWaits = true ∧ s.cut = false
       ∧ (∀ c ∈ [Instr.getEndpointId, .getEndpointUuid, .getMctpVersionSupport, .getMessageTypeSupport, .setEndpointId 255, .regRead 0, .regWrite 0 1,
            .registerRead 1 (2 ^ 24 - 8) 4, .registerWrite 1 8 8 1], after (exec c s) (fun t => decide (t = { s with mgmtQ := [.getEndpointUuid, c] })) = true))
    ∧ (let s := State.sets s0 [(F.pkFuseStat_valid, [], 1), (⟨.pkFuse, 0, 64⟩, [0], 0x123456789ABC), (⟨.pkFuse, 0, 64⟩, [1], 0x42)]
       after (exec .getEndpointUuid s) (fun t => decide (t.out = [.mctp 3 0
         [0x12, 0x34, 0x56, 0x78, 0x9A, 0xBC, 0x84, 0x20, 0x96, 0x82, 0, 0, 0, 0, 0, 0]])) = true) := by decide +kernel

/-! ## Arbiters -/

theorem witness_arbiterContest :
    (let s := s0.setArb 9 { Arb.init with reqs := [(0, 4), (1, 7), (2, 9)] }
     (s.arb 9).owner = none ∧ (s.arb 9).seize = false ∧ (2, 9) ∈ (s.arb 9).reqs ∧ s.arbMasked 9 2 = false
     ∧ (∀ e ∈ (s.arb 9).reqs, e ≠ (2, 9) → s.fget F.abPrio_prio [9, e.1] < s.fget F.abPrio_prio [9, 2])
     ∧ after (exec (.arbGrant 9) s) (fun t => decide ((t.arb 9).owner = some 2 ∧ t.fget F.abPrio_grants [9, 2] = 1)) = true)
    ∧ (let s := s0.setArb 9 { Arb.init with reqs := [(0, 7), (1, 7)] }
       s.fget F.abPrio_prio [9, 0] = s.fget F.abPrio_prio [9, 1]
       ∧ after (exec (.arbGrant 9) s) (fun t => decide ((t.arb 9).owner = some 0)) = true)
    ∧ (idle (.arbGrant 9) s0 = true ∧ idle (.arbGrant 0) (s0.setArb 0 { held 1 with reqs := [(0, 4)] }) = true
        ∧ idle (.arbGrant 0) (s0.setArb 0 { Arb.init with seize := true, reqs := [(0, 4)] }) = true)
    ∧ (arbUses 0 2 = true ∧ (s0.arb 0).owner ≠ some 2 ∧ tfind (s0.arb 0).reqs 2 = none ∧ s0.i3above 0 = false
        ∧ after (exec (.arbRequest 0 2) s0) (fun t => decide (tfind (t.arb 0).reqs 2 = some 0)) = true)
    ∧ (s0dbg.fget F.seDbgStat_level ≠ 0 ∧ arbUses 8 7 = true
        ∧ after (exec (.arbRequest 8 7) s0dbg) (fun t => decide (tfind (t.arb 8).reqs 7 = some 0)) = true)
    ∧ idle (.arbRequest 0 1) (s0.setArb 0 { Arb.init with reqs := [(1, 4)] }) = true
    ∧ (let s := s0.setArb 5 (held 2)
       s.i3above 3 = true ∧ idle (.arbRequest 3 2) s = true
       ∧ after (exec (.arbDrop 5 2) s) (fun t => decide ((t.arb 5).owner = none)) = true
       ∧ after (exec (.arbDrop 5 2) (s0.setArb 5 { held 2 with seize := true })) (fun t => decide ((t.arb 5).owner = some 7 ∧ t.fget F.abInt_seize [5] = 1)) = true
       ∧ after (exec (.arbDrop 5 1) (s.setArb 5 { held 2 with reqs := [(1, 3)] })) (fun t => decide ((t.arb 5).reqs = [] ∧ (t.arb 5).owner = some 2)) = true) := by
  decide +kernel

theorem witness_emergencySeize :
    (s0dbg.fget F.seDbgStat_level = 2 ∧ (s0dbg.arb 0).owner = none
      ∧ after (exec (.arbSeize 0) s0dbg) (fun t => decide ((t.arb 0).owner = some 7 ∧ t.fget F.abInt_seize [0] = 1)) = true)
    ∧ (let s := s0.setArb 9 (held 4)
       (s.arb 9).owner = some 4 ∧ after (exec (.arbSeize 9) s) (fun t => decide ((t.arb 9).seize = true ∧ (t.arb 9).owner = some 4)) = true
       ∧ idle (.arbRevoke 9) s = true
       ∧ after (exec (.arbRevoke 9) (s0.setArb 9 { held 4 with seize := true })) (fun t => decide ((t.arb 9).owner = some 7)) = true)
    ∧ (let s := s0dbg.setArb 0 { held 3 with revoke := true }
       (s.arb 0).seize = false ∧ (s.arb 0).revoke = true
       ∧ after (exec (.arbRevoke 0) s) (fun t => decide ((t.arb 0).owner = none ∧ (0, 3) ∈ t.i3want)) = true)
    ∧ (let gone := fun (i j : Nat) => after (exec (.arbRevoke i) (s0dbg.setArb i { held j with revoke := true }))
         (fun t => decide ((t.arb i).owner = none ∧ (t.arb i).reqs = if (i < 8 ∧ j = 1) ∨ i = 9 then [(j, 0)] else []))
       gone 7 1 = true ∧ gone 7 5 = true ∧ gone 8 0 = true ∧ gone 9 4 = true) := by decide +kernel

theorem witness_watchdogBites :
    (let s := { (s0.setArb 9 (held 1)) with clk := ⟨66000, 0, 0, 0⟩ }
     (s.arb 9).owner ≠ none ∧ s.arbChain 9 10 9 [] = none
     ∧ after (exec (.watchdogBite 9) s) (fun t => decide ((t.arb 9).revoke = true ∧ t.fget F.abWd_bites [9] = 1
          ∧ t.obs = (s.log .arbWdog 9 1 9 10).obs)) = true)
    ∧ (let s := (s0.setArb 0 { held 2 with reqs := [(3, 5)], grantAt := 5 }).setArb 1 { held 3 with reqs := [(2, 6)], grantAt := 4 }
       s.arbChain 0 10 0 [] ≠ none
       ∧ after (exec (.watchdogBite 0) s) (fun t => decide ((t.arb 0).revoke = true ∧ (t.arb 1).revoke = false
            ∧ t.fget F.abWd_circles [0] = 1)) = true)
    ∧ (let s := { s0 with i3want := [(2, 3), (4, 2)], clk := ⟨100 * tickUs, 0, 0, 0⟩ }
       (2, 3) ∈ s.i3want ∧ s.i3at + 100 * tickUs ≤ s.clk.now
       ∧ after (exec .interp3Rerequest s) (fun t => decide (tfind (t.arb 2).reqs 3 = some (100 * tickUs) ∧ t.i3want = [(4, 2)])) = true
       ∧ idle .interp3Rerequest { s with clk := ⟨100 * tickUs - 1, 0, 0, 0⟩ } = true)
    ∧ after (exec (.quotaWindow 9) (State.sets s0 [(F.abPrio_grants, [9, 7], 3)])) (fun t => decide (t.fget F.abPrio_grants [9, 7] = 0)) = true
    ∧ after (exec (.prioWrite 0 7 3 0) s0) (fun t => decide (t.fget F.abPrio_prio [0, 7] = 3
        ∧ t.fget F.abPrio_quota [0, 7] = s0.fget F.abPrio_quota [0, 7])) = true
    ∧ idle (.prioWrite 9 7 1 1) s0 = true := by decide +kernel

/-! ## Keys, lifecycle, debug -/

theorem witness_keyLoads :
    (s0.cut = false ∧ s0.sec.resume = false ∧ lcPermits s0.effective 63 = true ∧ tfind s0.keys 63 = none
      ∧ after (exec (.keyLoad 63 5) s0) (fun t => decide (tfind t.keys 63 = some 5 ∧ t.out = [.keyBus 0])) = true)
    ∧ (let s := { s0 with sec := { s0.sec with hub := 3 } }
       s.effective = 3 ∧ lcPermits s.effective 0 = false
       ∧ after (exec (.keyLoad 0 5) s) (fun t => decide (t.keys = [] ∧ t.fget F.seErr_slot_denied = 1)) = true)
    ∧ after (exec (.keyLoad 0 5) { s0 with sec := { s0.sec with resume := true } }) (fun t => decide (t.out = [.keyBus 2])) = true
    ∧ (let s := { s0 with keys := [(63, 9)] }
       (lcPermits s.effective 63 = true ∧ tfind s.keys 63 ≠ none)
       ∧ after (exec (.keyLoad 63 5) s) (fun t => decide (t.fget F.seErr_slot_busy = 1 ∧ tfind t.keys 63 = some 9)) = true
       ∧ after (exec (.keyClear 63) s) (fun t => decide (t.clearing = [63] ∧ tfind t.keys 63 = some 9)) = true)
    ∧ after (exec (.keyClear 0) s0) (fun t => decide (t.out = [.keyBus 0])) = true
    ∧ (let s := { s0 with keys := [(0, 4), (63, 9)], clearing := [63] }
       63 ∈ s.clearing ∧ s.slotInUse 63 = false
       ∧ after (exec (.keyClearDone 63) s) (fun t => decide (t.keys = [(0, 4)] ∧ t.clearing = [] ∧ t.out = [.keyBus 0])) = true)
    ∧ (let e : Ent := ⟨0, .read, ⟨0, some 63, 0, 0, 0, 0, 0, 0, 0, 0, 0, false⟩, .none, 0, 0, 3, 0, false, 0, 0, none, 0⟩
       let s := { (s0.setPcc 0 { Pcc.init with rq := [e] }) with keys := [(63, 9)], clearing := [63] }
       s.slotInUse 63 = true ∧ idle (.keyClearDone 63) s = true) := by decide +kernel

theorem witness_effectiveState :
    (let s := { s0 with sec := { s0.sec with committed := 2, target := 3, intent := true } }
     (s.sec.hub ≤ 4 ∧ s.sec.committed ≤ 4 ∧ s.sec.target ≤ 4) ∧ s.effective = 3)
    ∧ (let s := { s0 with sec := { s0.sec with committed := 2, target := 3 } }
       s.effective = 0 ∧ bits (s.readReg 0 .seLcStat []).toNat 0 3 = 0)
    ∧ (s0.cut = false ∧ after (exec (.lcQuery 4) s0) (fun t => decide (t.sec.hub = 4 ∧ t.effective = 4)) = true
        ∧ after (exec (.lcQuery 255) s0) (fun t => decide (t.out = [.keyBus 0] ∧ t.free = 1)) = true) := by decide +kernel

theorem witness_lifecycleChanges :
    (let s := { s0 with
       sec := { s0.sec with hub := 2, committed := 2 }
       keys := [(2, 7), (32, 8), (63, 9)]
       recipes := [(32, { RecipeSlot.init with used := true })] }
     lcAccepts s.effective 3 = true ∧ lcAccepts s.effective 1 = true
     ∧ after (exec (.lcChange 3) s) (fun t => decide (t.sec.committed = 3 ∧ tfind t.keys 2 = none ∧ tfind t.keys 63 = some 9
          ∧ (tget RecipeSlot.init t.recipes 32).used = false ∧ t.out.getLast? = some (.keyBus 0))) = true
     ∧ after (exec (.lcChange 4) s) (fun t => decide (t.keys = [] ∧ t.fget F.btStat_phase = 7)) = true)
    ∧ (let s := { s0 with sec := { s0.sec with hub := 3 }, keys := [(63, 9)] }
       lcAccepts s.effective 2 = false
       ∧ after (exec (.lcChange 2) s) (fun t => decide (t.out = [.keyBus 1] ∧ t.keys = [(63, 9)] ∧ t.sec.committed = 0)) = true) := by
  decide +kernel

theorem witness_debugPort :
    after (exec (.dbgGrant 2 10) s0) (fun t => decide (t.fget F.seDbgStat_level = 2 ∧ t.sec.dbgEnd = 10 * tickSec)) = true
    ∧ (let s := { (s0dbg.setArb 0 (held 7)) with interps := [(1, { Interp.init with halted := true })] }
       s.cut = false ∧ s.fget F.seDbgStat_level ≠ 0
       ∧ after (exec .dbgRevoke s) (fun t => decide (t.fget F.seDbgStat_level = 0 ∧ (t.arb 0).revoke = true
            ∧ (tget Interp.init t.interps 1).halted = false ∧ t.out = [.keyBus 0])) = true
       ∧ after (exec .debugExpire s) (fun t => decide (t.fget F.seDbgStat_level = 0 ∧ t.out = [])) = true
       ∧ after (exec (.debugHalt 3 0 0 0) s) (fun t => decide ((tget Interp.init t.interps 3).halted = true)) = true
       ∧ after (exec (.debugHalt 1 2 0 0) s) (fun t => decide ((tget Interp.init t.interps 1).halted = false)) = true
       ∧ after (exec (.debugHalt 3 4 32767 6) s) (fun t => decide (tfind (tget Interp.init t.interps 3).mem 32767 = some 6)) = true)
    ∧ (let s := { s0dbg with interps := [(3, { Interp.init with mem := [(32767, 6)] })] }
       after (exec (.debugHalt 3 3 32767 0) s) (fun t => decide (t.out = [.regValue 2 32767 6])) = true)
    ∧ (s0.fget F.seDbgStat_level = 0 ∧ idle .debugExpire s0 = true ∧ idle (.debugHalt 0 0 0 0) s0 = true
        ∧ after (exec .dbgRevoke s0) (fun t => decide (t.out = [.keyBus 0])) = true) := by decide +kernel

/-! ## The recorder, the counters and the monitors -/

/-- A record of a type from a source. -/
def record (ty src : Nat) : Rec := ⟨ty, src, 1, 2, 3, 4, 5⟩

theorem witness_recordsAreWritten :
    (let s := { s0 with obs := { s0.obs with queue := [record 0x21 7, record 0x01 0], head := 8191, msHead := [(7, 511)] } }
     s.supply = ⟨false, false, s.supply.again, true⟩ ∧ s.nvmBusy = false ∧ s.obs.lost = 0
     ∧ s.obs.tail ++ s.obs.queue = record 0x21 7 :: [record 0x01 0] ∧ recMilestone 0x21 = true ∧ s.msHead 7 < 512
     ∧ after (exec .recordWrite s) (fun t => decide (t.obs.tail ++ t.obs.queue = [record 0x01 0] ∧ t.obs.head = 8192
          ∧ t.msHead 7 = 512 ∧ t.fget F.obInt_ms_full = 1
          ∧ tget 0 t.nvm (ledgerWord 8191 0) = BitVec.ofNat 64 (((record 0x21 7).words 8191).headD 0))) = true)
    ∧ (let s := { s0 with obs := { s0.obs with tail := [record 0x21 7], msHead := [(7, 512)] } }
       512 ≤ s.msHead 7 ∧ after (exec .recordWrite s) (fun t => decide (tget 0 t.obs.msDropped 7 = 1 ∧ t.regs = [])) = true)
    ∧ (let s := { s0 with obs := { s0.obs with tail := [record 0x01 7] } }
       recMilestone 0x01 = false ∧ after (exec .recordWrite s) (fun t => decide (t.obs.head = 1 ∧ t.obs.msHead = [])) = true)
    ∧ (let s := { s0 with obs := { s0.obs with tail := List.replicate 4 (record 0x01 7), queue := List.replicate 64 (record 0x01 7), lost := 3 } }
       (0 < s.obs.lost ∧ s.obs.lost < 2 ^ 32 ∧ s.obs.queue.length ≤ 64 ∧ s.obs.tail.length ≤ 4 ∧ s.nvmBusy = false)
       ∧ after (exec .recordWrite s) (fun t => decide (t.obs.lost = 0 ∧ t.fget F.obInt_drop = 1
            ∧ (t.obs.tail ++ t.obs.queue).getLast? = some ⟨0x57, 0, 0, 3, 0, 0, 0⟩)) = true)
    ∧ (s0.supply.dip = false ∧ s0.supply.vaon = true
        ∧ after (exec (.nvmWordWrite 262135 7) s0) (fun t => decide (tget 0 t.nvm 262135 = 7)) = true
        ∧ idle (.nvmWordWrite 262136 7) s0 = true ∧ idle (.nvmWordWrite 262143 7) s0 = true
        ∧ after (exec .hoursTick { s0 with obs := { s0.obs with hours := 2 ^ 32 - 1 } }) (fun t => decide (t.obs.hours = 0)) = true)
    ∧ (let s := { s0 with supply := ⟨false, true, false, false⟩ }
       s.supply.vaon = false ∧ idle .hoursTick s = true ∧ idle (.nvmWordWrite 0 7) s = true) := by decide +kernel

theorem witness_logsAreCleared :
    (let s := { s0 with obs := { s0.obs with clearReq := some (8, 77), head := 20, base := 3 }, nvm := [(5, 1), (32768, 2)] }
     s.obs.clearReq = some (8, 77)
     ∧ after (exec (.logClear 8 77) s) (fun t => decide (t.obs.base = 20 ∧ t.obs.head = 21 ∧ tget 0 t.nvm 5 = 0
          ∧ tget 0 t.nvm 32768 = 2 ∧ t.out = [.keyBus 0])) = true
     ∧ after (exec (.logClear 8 76) s) (fun t => decide (t.fget F.obClrStat_denied = 1 ∧ t.obs.clearReq = some (8, 77))) = true)
    ∧ (let s := { s0 with obs := { s0.obs with clearReq := some (7, 77), msHead := [(6, 5), (7, 512)] } }
       after (exec (.logClear 7 77) s) (fun t => decide (t.msHead 7 = 0 ∧ t.msHead 6 = 5 ∧ t.obs.head = 1)) = true
       ∧ after (exec .nonceExpire s) (fun t => decide (t.obs.clearReq = none)) = true)
    ∧ (after (exec (.logClearRequest 8) s0) (fun t => decide (t.free = 1 ∧ t.obs.clearReq ≠ none)) = true ∧ idle (.logClearRequest 9) s0 = true)
    ∧ (idle .clearZeroingDone s0 = true
        ∧ after (exec .clearZeroingDone { s0 with obs := { s0.obs with zeroing := some (8, 5) } })
            (fun t => decide (t.obs.zeroing = none ∧ t.fget F.obInt_clr_done = 1)) = true) := by decide +kernel

theorem witness_countersAreSet :
    after (exec (.pmcWrite 255 (BitVec.ofNat 64 (2 ^ 64 - 1))) s0) (fun t => decide (t.fget F.obPmc_count [255] = 2 ^ 48 - 1)) = true
    ∧ (let s := State.sets s0 [(F.obPmc_count, [255], 2 ^ 48 - 1), (F.obPmcCfg_en, [255], 1), (F.obPmcCtl_en, [], 1), (F.obPmcCfg_event, [255], 0x102),
         (F.obPmcCfg_inst, [255], 3)]
       (s.fget F.obPmcCtl_en = 1 ∧ s.fget F.obPmcCfg_en [255] = 1 ∧ 2 ^ 48 ≤ s.fget F.obPmc_count [255] + 1)
       ∧ after (exec .pmcClearAll s) (fun t => decide (t.fget F.obPmc_count [255] = 0)) = true
       ∧ after (exec (.pmcWrap 255 1) s) (fun t => decide (t.fget F.obPmc_count [255] = 0 ∧ (t.rget .obPmcOvf [3]).getLsbD 63 = true
            ∧ t.fget F.obInt_pmc_ovf = 1)) = true
       ∧ idle (.pmcWrap 255 0) s = true
       ∧ (s.ev 0x102 3 2).fget F.obPmc_count [255] = 1 ∧ (s.ev 0x102 2 2).fget F.obPmc_count [255] = 2 ^ 48 - 1)
    ∧ (eventOk 0x102 23 = true ∧ eventOk 0x102 4095 = false
        ∧ after (exec (.pmcConfig 255 (BitVec.ofNat 64 (1 + 0x102 * 16 + 23 * 65536))) s0) (fun t => decide (t.fget F.obPmcCfg_event [255] = 0x102
            ∧ t.fget F.obPmcCfg_inst [255] = 23 ∧ t.fget F.obPmcCfg_en [255] = 1)) = true
        ∧ idle (.pmcConfig 255 (BitVec.ofNat 64 (1 + 0x102 * 16 + 4095 * 65536))) s0 = true)
    ∧ (s0.fget F.obPubCfg_en = 0 ∧ idle .publication s0 = true)
    ∧ (let s := State.sets s0 [(F.obPubCfg_en, [], 1)]
       s.memRegion (s.fget F.obPubCfg_tenant) 4096 (s.fget F.obPubAddr_addr * 64) 2240 ≠ none
       ∧ after (exec .publication s) (fun t => decide (t.fget F.obInt_pub_err = 1)) = true)
    ∧ (let s := State.sets sm [(F.obPubCfg_en, [], 1)]
       s.fget F.obPubCfg_en = 1 ∧ s.memRegion (s.fget F.obPubCfg_tenant) 4096 (s.fget F.obPubAddr_addr * 64) 2240 = none
       ∧ after (exec .publication s) (fun t => decide (t.fget F.obPubCfg_seq = 1)) = true
       ∧ (s.pubWords 5)[0]? = some 5 ∧ (s.pubWords 5)[272]? = some 5) := by decide +kernel

theorem witness_monitorSnapshots :
    (let m := LMon.init.take 5
     let s := { s0 with obs := { s0.obs with lmon := [(89, m)], vmon := [(31, { VMon.init with last := 7, logged := some 3 })] } }
     after (exec (.monSnap true) s) (fun t => decide (t.rget .obLmonCnt [89] = 1 ∧ t.rget .obLmonSum [89] = 5 ∧ t.rget .obLmonHist [89, 2] = 1
        ∧ t.rget .obVmonLast [31] = 7 ∧ tget LMon.init t.obs.lmon 89 = LMon.init
        ∧ (tget VMon.init t.obs.vmon 31).last = 0 ∧ (tget VMon.init t.obs.vmon 31).logged = some 3)) = true
     ∧ after (exec (.monSnap false) s) (fun t => decide (t.obs = s.obs)) = true)
    ∧ (let s := { State.sets s0 [(F.obVmonCfg_en, [31], 1), (F.obVmonCfg_src, [31], 0x13), (F.obVmonThr_hi, [31], 5), (F.obVmonCfg_log, [31], 1),
          (F.tmPwrStat_est_w, [], 5)] with
         obs := { s0.obs with vmon := [(31, { VMon.init with last := 4, samples := 1 })] } }
       s.fget F.obVmonCfg_en [31] = 1 ∧ s.levelOfSrc (s.fget F.obVmonCfg_src [31]) (s.fget F.obVmonCfg_inst [31]) = some 5
       ∧ after (exec (.levelSample 31) s) (fun t => decide ((tget VMon.init t.obs.vmon 31).crossings = 1 ∧ t.fget F.obInt_level = 1
            ∧ (t.obs.tail ++ t.obs.queue).length = 1 ∧ (tget VMon.init t.obs.vmon 31).logged = some 0)) = true
       ∧ after (exec (.levelSample 31) (State.sets s [(F.obVmonThr_hi, [31], 6)])) (fun t => decide ((tget VMon.init t.obs.vmon 31).crossings = 0
            ∧ (t.obs.tail ++ t.obs.queue).length = 0)) = true)
    ∧ (LMon.init.samples < 2 ^ 48 - 1 ∧ tget 0 (LMon.init.take (2 ^ 31)).bins 31 = 1 ∧ tget 0 (LMon.init.take 1).bins 0 = 1
        ∧ tget 0 (LMon.init.take (2 ^ 31 - 1)).bins 30 = 1) := by decide +kernel

/-! ## Heat, power, supplies and bring-up -/

theorem witness_sensorsConvert :
    (let s := State.sets { s0 with therm := { s0.therm with seen := [(63, true)], misses := [(1, 2)] } } [(F.tmSens_state, [2], 1), (F.tmSens_reading, [63], 100)]
     let rs := [some (-161), none, some 40] ++ List.replicate 60 (some 100) ++ [some 109]
     rs.length = 64 ∧ s.supply.dip = false ∧ s.supply.vaon = true
     ∧ after (exec (.sensorConversion rs) s) (fun t => decide (t.fget F.tmSens_state [0] = 3 ∧ t.fget F.tmSens_state [1] = 1
          ∧ t.rget .tmSens [2] = s.rget .tmSens [2] ∧ t.fget F.tmSens_state [63] = 2 ∧ t.fget F.tmSens_state [3] = 0
          ∧ t.fget F.tmSens_reading [3] = 100)) = true)
    ∧ (let s := State.sets { s0 with therm := { s0.therm with seen := (List.range 64).map fun k => (k, true) } } ((List.range 64).map fun k => (F.tmSens_reading, [k], 452))
       s.zoneNow 7 = some 452 ∧ s.fget F.tmZone_fail [7] ≠ 255 ∧ (s.zoneStep 7).fget F.tmZone_level [7] = 3
       ∧ (s.zoneStep 7).fget F.scSchedCfg_cmd_cap [7] = 2) := by decide +kernel

theorem witness_levelsFall :
    (let s := State.sets s0 [(F.tmZone_level, [7], 3), (F.tmZone_forced, [7], 1)]
     s.cut = false ∧ 0 < s.fget F.tmZone_level [7] ∧ s.fget F.tmZone_ack_pend [7] = 0 ∧ 2 < s.fget F.tmZone_level [7]
     ∧ s.zoneTemp 7 < s.leaveAt 3
     ∧ after (exec (.throttleDwell 7) s) (fun t => decide (t.fget F.tmZone_level [7] = 2 ∧ t.fget F.scSchedCfg_cmd_cap [7] = 1)) = true
     ∧ idle (.throttleDwell 7) (State.sets s [(F.tmZone_level, [7], 2)]) = true ∧ idle (.throttleDwell 6) s = true)
    ∧ after (exec (.failAck 0x80) (State.sets s0 [(F.tmZone_ack_pend, [7], 1), (F.tmZone_ack_pend, [6], 1)]))
        (fun t => decide (t.fget F.tmZone_ack_pend [7] = 0 ∧ t.fget F.tmZone_ack_pend [6] = 1)) = true
    ∧ (sm.stackUp 7 = true ∧ (sm.askPort 7 0).owns 7 0 = true
        ∧ (let u := { sm with arbs := [(7, held 2)] }
           (u.askPort 7 0).owns 7 0 = false ∧ after (exec (.stackTempRead 7 100) u) (fun t => decide (t = u.askPort 7 0)) = true)
        ∧ after (exec (.stackTempRead 7 100) sm) (fun t => decide (t.fget F.scLinkStat_temp_c [7] = 100 ∧ t.fget F.scRefCfg_hot [7] = 1
            ∧ t.stackDemand 7 = 2 ∧ t.fget F.scSchedCfg_cmd_cap [7] = 2)) = true
        ∧ idle (.stackTempRead 7 100) s0 = true
        ∧ after (exec (.stackTempStale 7) sm) (fun t => decide (t.fget F.scRefCfg_trefi_pb [7] = 25 ∧ t.stackDemand 7 = 1)) = true) := by
  decide +kernel

theorem witness_powerWindow :
    (s0.fget F.tmPwrStat_win = 0 ∧ idle .powerWindowExpire s0 = true ∧ idle .powerSkipRelax s0 = true ∧ idle .powerWindowRearm s0 = true
      ∧ after (exec (.powerEstimate 151) s0) (fun t => decide (t.fget F.tmPwrStat_win = 1 ∧ t.fget F.tmPwrStat_windows = 1)) = true
      ∧ after (exec (.powerEstimate 150) s0) (fun t => decide (t.fget F.tmPwrStat_win = 0)) = true
      ∧ after (exec (.powerGrant 255) s0) (fun t => decide (t.free = 1)) = true
      ∧ after (exec (.powerEstimate 256) s0) (fun t => decide (t.free = 1)) = true
      ∧ after (exec (.powerGrant 190) s0) (fun t => decide (t.fget F.tmPwrStat_grant_w = 190)) = true)
    ∧ (let s := State.sets s0 [(F.tmPwrStat_win, [], 1), (F.tmPwrStat_grant_w, [], 160), (F.tmPwrStat_skip, [], 11)]
       after (exec (.powerEstimate 161) s) (fun t => decide (t.fget F.tmPwrStat_skip = 12 ∧ t.fget F.tmStat_pwr_skip = 1)) = true
       ∧ after (exec (.powerEstimate 160) s) (fun t => decide (t.fget F.tmPwrStat_skip = 11)) = true
       ∧ after (exec .powerWindowExpire s) (fun t => decide (t.fget F.tmPwrStat_win = 2 ∧ t.fget F.tmInt_pwr_win = 1)) = true
       ∧ after (exec .powerGrantWithdraw s) (fun t => decide (t.fget F.tmPwrStat_grant_w = 0 ∧ t.fget F.tmPwrStat_win = 2)) = true)
    ∧ (let s := State.sets s0 [(F.tmPwrStat_win, [], 2), (F.tmPwrStat_est_w, [], 144), (F.tmPwrStat_skip, [], 1)]
       s.fget F.tmPwrStat_est_w + s.fget F.tmPwrCfg_relax_w ≤ s.fget F.tmPwrCfg_env_w
       ∧ after (exec .powerSkipRelax s) (fun t => decide (t.fget F.tmPwrStat_skip = 0)) = true
       ∧ after (exec .powerWindowRearm s) (fun t => decide (t.fget F.tmPwrStat_win = 0)) = true
       ∧ after (exec .powerGrantWithdraw s) (fun t => decide (t.fget F.tmPwrStat_win = 2)) = true) := by decide +kernel

theorem witness_suppliesFall :
    (let s := { s0 with keys := [(3, 4)] }
     s.cut = false ∧ trising s.regs = true
     ∧ after (exec .vddFall s) (fun t => decide (t.supply.dip = true ∧ t.keys = [] ∧ t.obs.head = 1 ∧ t.fget F.tmRstCause_dips = 1)) = true
     ∧ after (exec (.comparatorTrip 7) s) (fun t => decide (t.supply.shut = true ∧ t.keys = [] ∧ t.out.getLast? = some .trip
          ∧ t.fget F.tmRstCause_trip_src = 71)) = true
     ∧ idle .vaonLoss s = true ∧ goodBu.wf = true ∧ idle (.vddRestore goodBu) s = true)
    ∧ (let s := { s0 with supply := ⟨true, true, false, true⟩ }
       idle .vddFall s = true ∧ after (exec .vaonLoss s) (fun t => decide (t.supply.vaon = false)) = true
       ∧ after (exec (.vddRestore goodBu) s) (fun t => decide (t.supply = ⟨true, false, true, true⟩)) = true)
    ∧ after (exec (.hairspringCalibrate 25001) s0) (fun t => decide (t.fget F.tmAon_err_ppm = 40 ∧ t.fget F.tmAon_mode = 0
        ∧ t.therm.bin = s0.binNow)) = true := by decide +kernel

theorem witness_warmResets :
    (goodBu.wf = true ∧ s0.cut = false
      ∧ after (exec (.hubWarmReset goodBu) s0) (fun t => decide (t.fget F.tmRstCause_last = 1 ∧ t.fget F.btStat_warm = 1)) = true
      ∧ after (exec (.warmResetRequest 1 goodBu) s0) (fun t => decide (t.fget F.btStat_phase = 5)) = true)
    ∧ (let s := { s0 with supply := ⟨true, false, true, true⟩ }
       s.cut = true ∧ idle (.hubWarmReset goodBu) s = true
       ∧ after (exec (.thermalRestart goodBu) s) (fun t => decide (t.fget F.tmRstCause_last = 3 ∧ t.supply = ⟨false, false, false, true⟩)) = true)
    ∧ (let s := State.sets { s0 with
          supply := ⟨true, false, false, true⟩
          therm := { s0.therm with seen := (List.range 64).map fun k => (k, true) } } ((List.range 64).map fun k => (F.tmSens_reading, [k], 360))
       (∀ k < 64, s.sensorOk k = true ∧ 360 ≤ s.reading k) ∧ idle (.thermalRestart goodBu) s = true)
    ∧ idle (.thermalRestart goodBu) s0 = true
    ∧ after (exec (.vddRestore goodBu) { s0 with supply := ⟨false, true, false, true⟩ }) (fun t => decide (t.fget F.tmRstCause_last = 3)) = true
    ∧ (s0.sec.intent = false ∧ after (exec (.coldReset goodBu) s0) (fun t => decide (t.fget F.btStat_phase = 5 ∧ t.obs.pcyc = 1)) = true) := by
  decide +kernel

theorem witness_systemArea :
    (let s := State.sets { s0 with keys := [(63, 1)], boot := { s0.boot with trained := 0xFF } } ([(F.btStat_phase, [], 5)] ++ (List.range 8).map fun k => (F.scLinkStat_state, [k], 3))
     s.fget F.btStat_phase = 5 ∧ tfind s.keys 63 ≠ none ∧ s.scrapped = false ∧ bit s.boot.trained 0 = true
     ∧ after (exec .sysinit s) (fun t => decide (t.fget F.btStat_phase = 6 ∧ t.fget F.cpFwStat_state = 1)) = true)
    ∧ (let s := State.sets { s0 with keys := [(63, 1)], boot := { s0.boot with trained := 0xEE } } [(F.btStat_phase, [], 5)]
       bit s.boot.trained 0 = false ∧ bit s.boot.trained 4 = false
       ∧ after (exec .sysinit s) (fun t => decide (t.fget F.btStat_phase = 5 ∧ t.boot = s.boot)) = true)
    ∧ (idle .sysinit s0 = true ∧ tfind s0.keys 63 = none ∧ s0.fget F.btStat_phase < 6
        ∧ after (exec .noKeyTimeout s0) (fun t => decide (t.fget F.btErr_no_key = 1)) = true
        ∧ idle .noKeyTimeout (State.sets s0 [(F.btStat_phase, [], 6)]) = true) := by decide +kernel

/-! ## Stored sectors and the pseudo-channel controllers -/

/-- A sector's data with byte d31 at degree 7 in error (the worked example after R312): the syndromes and the place are the spec's. -/
theorem test_worked_example :
    let w := encodeSector 77 false 0x1122334455
    decodeSector 77 (w.set 31 ((w[31]?).getD 0 ^^^ 0x5A)) = (.ce 31, w) ∧ decodeSector 77 w = (.clean, w) := by decide +kernel

theorem witness_sectors :
    (let s := s0.putRaw 511 63 24575 31 (List.replicate 36 7)
     (List.replicate 36 (7 : Byte)).length = 36 ∧ s.rawSector 511 63 24575 31 = List.replicate 36 7
     ∧ s.rawSector 511 63 24575 30 = s0.rawSector 511 63 24575 30)
    ∧ (let w := encodeSector 5 true 9
       (decodeSector 5 w).1 = .poison ∧ (decodeSector 5 (w.set 35 ((w[35]?).getD 0 ^^^ 1))).1 = .poison)
    ∧ (sectorOf (encodeSector 5 false 9) = 9 ∧ (encodeSector 5 false 9).length = 36) := by decide +kernel

theorem witness_atomicResults :
    (4 ≤ 4 ∧ 60 < 64 ∧ 60 % 4 = 0 ∧ 56 % 8 = 0)
    ∧ bits (atomResult ⟨0, false, 60, 1⟩ (BitVec.allOnes 512)).toNat 480 32 = 0
    ∧ bits (atomResult ⟨1, true, 56, 1⟩ (BitVec.allOnes 512)).toNat 448 64 = 2 ^ 64 - 1
    ∧ bits (atomResult ⟨2, true, 56, 1⟩ (BitVec.allOnes 512)).toNat 448 64 = 1
    ∧ bits (atomResult ⟨3, false, 0, 1⟩ (BitVec.allOnes 512)).toNat 0 32 = 1
    ∧ bits (atomResult ⟨4, false, 0, 1⟩ (BitVec.allOnes 512)).toNat 0 32 = 2 ^ 32 - 1
    ∧ bits (atomResult ⟨4, false, 0, 1⟩ 0).toNat 32 32 = 0 := by decide +kernel

theorem witness_granulesAreAdmitted :
    (∀ k ∈ [ReqKind.read, .write, .masked, .atomic], (sortWaiting ((smReq k).waitingFor 0)).map (fun w => (w.req.kind, w.place)) = [(k, place0)]
        ∧ (smReq k).pcDown 0 = none ∧ place0.key = none ∧ (smReq k).link 0 = 3)
    ∧ after (exec (.pccAdmit 0) (smReq .read)) (fun t => decide ((t.pcc 0).rq.length = 1 ∧ (t.pcc 0).nextSeq = 1)) = true
    ∧ after (exec (.pccAdmit 0) (smReq .write)) (fun t => decide ((t.pcc 0).wq.length = 1)) = true
    ∧ after (exec (.pccAdmit 0) (smReq .masked)) (fun t => decide ((t.pcc 0).mb.length = 1)) = true
    ∧ after (exec (.pccAdmit 0) (smReq .atomic)) (fun t => decide ((t.pcc 0).rq.length = 1 ∧ (t.pcc 0).wq.length = 1)) = true
    ∧ (let s := (smReq .masked).setPcc 0 { Pcc.init with mb := [mgEnt 4 .gather 4 0] }
       s.gatherOver 0 (mgEnt 4 .gather 4 0) = false
       ∧ after (exec (.pccAdmit 0) s) (fun t => decide ((t.pcc 0).mb.map (fun m => (m.seq, m.mask, m.srcs.length)) = [(4, 7, 1)])) = true)
    ∧ (let s := (smReq .read).setPcc 0 { Pcc.init with rq := (List.range 64).map fun q => rdEnt q (placeB 1 q) }
       64 ≤ (s.pcc 0).rq.length ∧ idle (.pccAdmit 0) s = true) := by
  decide +kernel

/-- Port 0 holds an ATOMIC for a mirrored group, both of whose copies hold the word 9. -/
def smMirror : State :=
  let pl : Place := { place0 with mirror := true }
  let t := (sm.storeSector pl 0 false 9).storeSector { pl with opc := 256, pc := 256 } 0 false 9
  t.setPort 0 { t.port 0 with st := .ready, reqs := [{ req0 .atomic .issued with parts := [{ part0 with todo := [pl] }] }] }

theorem witness_granulesAreAdmitted_mirror :
    (sortWaiting (smMirror.waitingFor 0)).map (fun w => (smMirror.mateOf w.place).map (·.pc)) = [some 256] ∧ smMirror.link 4 = 3
    ∧ after (exec (.pccAdmit 0) smMirror) (fun t => decide ((t.pcc 0).rq.length = 1 ∧ (t.pcc 0).wq.length = 1 ∧ (t.pcc 256).wq.length = 1
        ∧ (t.pcc 256).rq = [])) = true
    ∧ after (exec (.pccAdmit 0) smMirror) (fun t =>
        let u := (t.drainPcc 256).drainPcc 0
        decide ((u.pcc 256).wq = [] ∧ (u.pcc 0).wq = [] ∧ ((u.storedBytes 0 0 0 0).map fun l => l.take 2) = some [14, 0]
          ∧ (u.storedBytes 256 0 0 0).map (fun l => l.take 32) = (u.storedBytes 0 0 0 0).map fun l => l.take 32)) = true := by
  decide +kernel

/-- The command that the row bus of controller 0 carries next (ACT 0, PRE 1, REFpb 2) and its bank. -/
def rowNext (s : State) : Option (Nat × Nat) :=
  ((s.turnStep 0).nextRow 0).map fun r => match r.cmd with | .act c => (0, c.place.bank) | .pre b => (1, b) | .ref b => (2, b)

theorem witness_rowCommands :
    (let s := sm.setPcc 0 { Pcc.init with rq := [rdEnt 0 (placeB 63 24575)], banks := [(2, bankAt 9)] }
     s.serving 0 = true ∧ rowNext s = some (0, 63)
     ∧ after (exec (.act 0) s) (fun t => decide (((t.pcc 0).bank 63).row = some 24575 ∧ ((t.pcc 0).bank 2).row = some 9)) = true
     ∧ after (exec (.pre 0) s) (fun t => decide (((t.pcc 0).bank 2).row = some 9)) = true)
    ∧ (let s := sm.setPcc 0 { Pcc.init with rq := [rdEnt 1 (placeB 2 1)], banks := [(2, bankAt 9)] }
       rowNext s = some (1, 2) ∧ after (exec (.pre 0) s) (fun t => decide (((t.pcc 0).bank 2).row = none)) = true
       ∧ after (exec (.act 0) s) (fun t => decide (((t.pcc 0).bank 2).row = some 9)) = true)
    ∧ (sm.serving 511 = true ∧ (sm.turnStep 511).nextRow 511 = none ∧ idle (.act 511) sm = true ∧ idle (.pre 511) sm = true
        ∧ idle (.refpb 511) sm = true) := by decide +kernel

theorem witness_readAndWriteCommands :
    (let s := sm.setPcc 0 { Pcc.init with rq := [rdEnt 3 (placeB 1 7)], banks := [(1, bankAt 7)] }
     let u := s.turnStep 0
     s.serving 0 = true ∧ (u.pcc 0).wturn = false ∧ (u.readCands 0).filter (u.pcc 0).isHit ≠ []
     ∧ after (exec (.rd 0) s) (fun t => decide ((t.pcc 0).ret.length = 1 ∧ (t.pcc 0).ret.head?.map (·.use) = some (.ent 3))) = true
     ∧ idle (.wr 0) s = true)
    ∧ (let s := sm.setPcc 0 { Pcc.init with mb := [mgEnt 4 .rmw 1 1], banks := [(0, bankAt 0)] }
       after (exec (.rd 0) s) (fun t => decide ((t.pcc 0).ret.head?.map (·.use) = some (.merge 4))) = true)
    ∧ (let s := sm.setPcc 0 { Pcc.init with wturn := true, wq := [wrEnt 5 place0], banks := [(0, bankAt 0)] }
       let u := s.turnStep 0
       (u.pcc 0).wturn = true ∧ (pickCand (u.colTime 0) ((u.writeCands 0).filter (u.pcc 0).isHit)).map (·.1.key) = some (.wq 5 0)
       ∧ place0.bank < 64 ∧ s.issuedRow 0 0 0 < 24576 ∧ idle (.rd 0) s = true
       ∧ after (exec (.wr 0) s) (fun t => decide (t.placeRaw place0 0 = encodeSector (s.coordOf place0 0) false (gSector 6 0))) = true)
    ∧ (let s := sm.setPcc 0 { Pcc.init with wturn := true, mb := [mgEnt 5 .wb 0xFFFFFFFF 1], banks := [(0, bankAt 0)] }
       let u := s.turnStep 0
       (pickCand (u.colTime 0) ((u.writeCands 0).filter (u.pcc 0).isHit)).map (·.1.key) = some (.mb 5 0)
       ∧ after (exec (.wr 0) s) (fun t => decide (t.placeRaw place0 0 = encodeSector (s.coordOf place0 0) false (gSector 6 0))) = true) := by
  decide +kernel

theorem witness_refreshDebts :
    after (exec (.escapementTick 511) sm) (fun t => decide (((t.pcc 511).bank 0).debt = 1 ∧ (t.pcc 511).nextTick = 1)) = true
    ∧ (let s := sm.setPcc 0 { Pcc.init with nextTick := 63, banks := [(63, { Bank.init with debt := 8 })] }
       s.serving 0 = true ∧ rowNext s = some (2, 63)
       ∧ after (exec (.escapementTick 0) s) (fun t => decide (((t.pcc 0).bank 63).held = true ∧ (t.pcc 0).nextTick = 0)) = true
       ∧ after (exec (.refpb 0) s) (fun t => decide (((t.pcc 0).bank 63).debt = 7 ∧ (t.pcc 0).refIssued = 1 ∧ (t.pcc 0).refForced = 1)) = true)
    ∧ (s0.link 0 ≠ 3 ∧ idle (.escapementTick 0) s0 = true ∧ idle (.refpb 0) sm = true) := by decide +kernel

theorem witness_sectorsReturn :
    (let raw := encodeSector (sm.coordOf place0 0) false 9
     let r : Ret := ⟨.ent 0, 0, raw, place0, false, 30⟩
     let s := sm.setPcc 0 { Pcc.init with rq := [{ rdEnt 0 place0 with todo := 0, wait := 2 }], ret := [r] }
     (s.pcc 0).ret = [r] ∧ (decodeSector (s.coordOf place0 0) (addNoise raw [(0, 1)])).1 = .ce 0
     ∧ (decodeSector (s.coordOf place0 0) (addNoise raw [(0, 1), (1, 1)])).1 = .ue
     ∧ after (exec (.readReturn 0 [(0, 1)] false) s) (fun t => decide ((t.pcc 0).ret = [] ∧ t.clk.now = 30)) = true
     ∧ after (exec (.readReturn 0 [(0, 1), (1, 1)] false) s) (fun t => decide ((t.pcc 0).ret.map (·.again) = [true])) = true
     ∧ idle (.ueReread 0 [] false) s = true)
    ∧ (let raw := addNoise (encodeSector (sm.coordOf place0 0) false 9) [(0, 1), (1, 1)]
       let s := (sm.putRaw 0 0 0 0 raw).setPcc 0 { Pcc.init with rq := [{ rdEnt 0 place0 with todo := 0, wait := 2 }], ret := [⟨.ent 0, 0, raw, place0, true, 30⟩] }
       (∀ x ∈ (s.pcc 0).rq, x.kind ≠ .back) ∧ (decodeSector (s.coordOf place0 0) (addNoise (s.placeRaw place0 0) [])).1 = .ue
       ∧ idle (.readReturn 0 [] false) s = true
       ∧ after (exec (.ueReread 0 [] false) s) (fun t => decide (t.fget F.pcEccCnt_ue [0, 0] = 1 ∧ t.fget F.scEccInt_ue [0] = 1
            ∧ .row 0 0 0 ∈ t.ladder ∧ t.mem = s.mem)) = true)
    ∧ (idle (.readReturn 511 [] false) sm = true ∧ idle (.ueReread 511 [] false) sm = true
        ∧ after (exec (.ceLeak 511) (sm.setPcc 511 { Pcc.init with bucket := 2 })) (fun t => decide ((t.pcc 511).bucket = 1)) = true) := by
  decide +kernel

theorem witness_mergeEntriesEnd :
    (let s := { (sm.setPcc 0 { Pcc.init with mb := [mgEnt 4 .gather 1 0] }) with clk := ⟨1000000, 0, 0, 0⟩ }
     s.releaseDue 0 (mgEnt 4 .gather 1 0) true = true ∧ (maskTouched 1) &&& (3 - maskFull 1) = 1
     ∧ after (exec (.mergeRelease 0) s) (fun t => decide ((t.pcc 0).mb.map (·.st) = [.rmw])) = true)
    ∧ (let s := { (sm.setPcc 0 { Pcc.init with mb := [mgEnt 4 .gather 0xFFFFFFFF 0] }) with clk := ⟨1000000, 0, 0, 0⟩ }
       (maskTouched 0xFFFFFFFF) &&& (3 - maskFull 0xFFFFFFFF) = 0 ∧ (mgEnt 4 .gather 0xFFFFFFFF 0).toWrite ≠ 0
       ∧ after (exec (.mergeRelease 0) s) (fun t => decide ((t.pcc 0).mb.map (·.st) = [.wb])) = true)
    ∧ idle (.mergeRelease 0) sm = true := by decide +kernel

/-! ## The fabric ports and the shaper -/

/-- The data slots that carry these granules for a tag (R39). -/
def slots (tag : Nat) (l : List Granule) : List DataSlot := dataSlots tag (l.map fun g => (0, g))

/-- The first of one granule. -/
def slot (tag : Nat) (g : Granule) : DataSlot := (sideband tag 0 0 true, g)

theorem witness_requestsEnter :
    (let h := decodeHdr (hdr 0 4095 64 0 false (fence := true))
     (sp.port 23).st = .ready ∧ kindOf h.kind = some .read ∧ h.len = 64 ∧ sp.ingressFail 23 h 0 [] = none ∧ sp.wantsMemory 23 h = true
     ∧ after (exec (.read 23 (hdr 0 4095 64 0 false (fence := true))) sp) (fun t => decide ((t.port 23).reqs.map (·.stage) = [.fenceHold]
          ∧ (t.port 23).hdrHeld = 7 ∧ t.nextId = 1)) = true)
    ∧ (let h := decodeHdr (hdr 1 1 2 (4 * 2 ^ 20 - 128) true)
       h.slots = 2 ∧ bindSlots 1 (slots 1 [3, 4]).reverse 2 = some [3, 4] ∧ sp.ingressFail 23 h 0 (slots 1 [3, 4]).reverse = none
       ∧ after (exec (.write 23 (hdr 1 1 2 (4 * 2 ^ 20 - 128) true) (slots 1 [3, 4]).reverse) sp) (fun t => decide ((t.port 23).reqs.map (·.data) = [[3, 4]]
            ∧ (t.port 23).wdatHeld = 68)) = true)
    ∧ (let h := decodeHdr (hdr 2 1 1 64 true (ext := true))
       1 + b2n h.ext = 2 ∧ sp.ingressFail 23 h 1 (slots 1 [7]) = none
       ∧ after (exec (.writeMasked 23 (hdr 2 1 1 64 true (ext := true)) 1 (slot 1 7)) sp) (fun t => decide ((t.port 23).reqs.map (·.mask) = [1]
            ∧ (t.port 23).hdrHeld = 6)) = true)
    ∧ (let h := decodeHdr (hdr 3 1 1 56 true (aop := 4) (asz := true))
       sp.ingressFail 23 h 0 (slots 1 [7]) = none
       ∧ after (exec (.atomic 23 (hdr 3 1 1 56 true (aop := 4) (asz := true)) (slot 1 7)) sp) (fun t => decide ((t.port 23).reqs.map (·.aop) = [4])) = true) := by
  decide +kernel

/-- What ingress answers a header with these data slots on port 23. -/
def fails (s : State) (h : BitVec 128) (l : List Granule) : Option PStatus :=
  s.ingressFail 23 (decodeHdr h) 0 (slots (decodeHdr h).tag l)

/-- Tensor space is enabled; segment 0 is the far one of pool 0, and segment 1 another tenant's. -/
def st : State := { sr with dir := sr.dir ++ [(1, { SegEnt.init with st := .far, tenant := 5 })] }

theorem witness_requestsRefused :
    (fails sp (hdr 4 1 1 0 false) [] = some .unsupported ∧ fails sp (hdr 8 1 1 0 false) [] = some .unsupported
      ∧ fails sp (hdr 14 1 1 0 false) [] = some .unsupported ∧ fails sp (hdr 0 1 1 8 false) [] = some .malformed
      ∧ fails { sp with ports := [(23, { rdy with drev := 1 })] } (hdr 3 1 1 56 true (aop := 4) (asz := true)) [1] = some .unsupported
      ∧ fails sp (hdr 0 1 1 0 false (tenant := 8)) [] = some .denied
      ∧ fails sp (hdr 1 1 1 (2 ^ 47) true) [1] = some .denied
      ∧ fails (State.sets sp [(F.glPortCfg_atomic_en, [23], 0)]) (hdr 3 1 1 56 true (aop := 4) (asz := true)) [1] = some .denied
      ∧ fails sp (hdr 0 1 1 (4 * 2 ^ 20) false) [] = some .unmapped
      ∧ fails { sp with sec := { sp.sec with hub := 4 } } (hdr 0 1 1 0 false) [] = some .unavailable)
    ∧ (fails sr (hdr 0 1 1 (2 ^ 47) false) [] = none ∧ fails sr (hdr 0 1 1 (2 ^ 47 + segBytes) false) [] = some .unmapped
      ∧ fails st (hdr 0 1 1 (2 ^ 47 + segBytes) false) [] = some .denied
      ∧ fails sr (hdr 0 1 2 (2 ^ 47 + 4032) false) [] = some .malformed)
    ∧ after (exec (.read 23 (hdr 0 5 1 (4 * 2 ^ 20) false)) sp) (fun t => decide ((t.port 23).frames.map (fun f => (f.tag, f.status)) = [(5, .unmapped)]
        ∧ t.fget F.glPortErr_unmapped [23] = 1 ∧ t.out = [.credit 23 1 0])) = true
    ∧ after (exec (.read 23 (hdr 4 5 1 0 false)) sp) (fun t => decide (t.fget F.glPortErr_unsupported [23] = 1)) = true
    ∧ after (exec (.write 23 (hdr 1 5 1 8 true) (slots 5 [1])) sp) (fun t => decide (t.fget F.glPortErr_malformed [23] = 1 ∧ t.out = [.credit 23 1 1])) = true
    ∧ after (exec (.writeMasked 23 (hdr 2 5 1 0 true (ext := true) (tenant := 8)) 1 (slot 5 1)) sp)
        (fun t => decide (t.fget F.glPortErr_denied [23] = 1)) = true
    ∧ after (exec (.atomic 23 (hdr 3 5 1 4 true (asz := true)) (slot 5 1)) sp)
        (fun t => decide (t.fget F.glPortErr_malformed [23] = 1)) = true
    ∧ (let s := State.sets sp [(F.glPortCfg_aperture_en, [23], 0)]
       after (exec (.apertureWrite 23 (hdr 1 5 1 apertureBase true) (slots 5 [1])) s) (fun t => decide (t.fget F.glPortErr_unmapped [23] = 1)) = true) := by
  decide +kernel

theorem witness_apertureWritesRings :
    (let a := apertureBase + 3 * 16384 + 64 * 255
     let h := decodeHdr (hdr 1 5 1 a true)
     h.inAperture = true ∧ sp.fget F.glPortCfg_aperture_en [23] = 1 ∧ sp.ingressFail 23 h 0 (slots 5 [9]) = none ∧ (sp.port 23).tagBusy 5 = false
     ∧ apertureAt a = (3, 255)
     ∧ after (exec (.apertureWrite 23 (hdr 1 5 1 a true) (slots 5 [9])) sp) (fun t => decide (tfind ((t.port 23).ring 3).gran 255 = some 9
          ∧ (t.port 23).frames.map (·.status) = [.ok])) = true)
    ∧ after (exec (.responseCreditGrant 23 191) sp) (fun t => decide ((t.port 23).rspHeld = 8191)) = true
    ∧ after (exec (.responseCreditGrant 23 192) sp) (fun t => decide ((t.port 23).st = .fault ∧ t.fget F.glPortErr_crd_overflow [23] = 1)) = true
    ∧ (let s := sp.setPort 23 { rdy with hdrHeld := 0 }
       after (exec (.read 23 (hdr 0 1 1 0 false)) s) (fun t => decide ((t.port 23).st = .fault)) = true)
    ∧ (bindSlots 5 (slots 6 [9]) 1 = none ∧ idle (.write 23 (hdr 1 5 1 0 true) (slots 6 [9])) sp = true
        ∧ idle (.apertureWrite 23 (hdr 1 5 1 apertureBase true) []) sp = true)
    ∧ after (exec (.malformedFlit 23 0xC000) sp) (fun t => decide (t.fget F.glPortErr_malformed [23] = 1)) = true
    ∧ idle (.malformedFlit 23 0x6A1B) sp = false ∧ idle (.malformedFlit 23 0x2A1A) sp = true := by decide +kernel

theorem witness_tenantsRelease :
    (let s := (sp.setTenQ 5 { TenQ.init with en := true, rate := 1000, burst := 1 }).setPort 23
        { rdy with lastTenant := 3, reqs := [reqAt 1 2 .tenantQueue, reqAt 2 5 .tenantQueue] }
     let ready := (s.port 23).reqs.filter fun r => r.stage = .tenantQueue && s.releasable 23 r
     (nextTenant 3 ready).map (·.id) = some 2
     ∧ after (exec (.tenantRelease 23) s) (fun t => decide ((t.port 23).reqs.map (·.stage) = [.credit, .credit]
          ∧ (t.tenQ 5).bytes = 64 + s.fget F.shPortOvh_ovh [23])) = true)
    ∧ idle (.tenantRelease 23) sp = true
    ∧ (let s := sp.setPort 23 { rdy with reqs := [reqAt 1 2 .credit, reqAt 2 5 .fenceHold (fence := true)] }
       (s.findReq 23 2).map (·.stage) = some .fenceHold ∧ s.fenceFree 23 (reqAt 2 5 .fenceHold (fence := true)) = false
       ∧ idle (.fenceHoldRelease 23 2) s = true)
    ∧ (let s := sp.setPort 23 { rdy with reqs := [reqAt 2 5 .fenceHold (fence := true)] }
       s.fenceFree 23 (reqAt 2 5 .fenceHold (fence := true)) = true
       ∧ after (exec (.fenceHoldRelease 23 2) s) (fun t => decide ((t.port 23).reqs.map (·.stage) ≠ [.fenceHold])) = true)
    ∧ (let r := { reqAt 2 5 .fenceHold (fence := true) with kind := .write, addr := apertureBase + 3 * 16384, data := [9] }
       let s := sp.setPort 23 { rdy with reqs := [r] }
       r.inAperture = true ∧ s.fenceFree 23 r = true ∧ s.apertureRefuses 23 (apertureCells r.addr r.len) = false
       ∧ after (exec (.fenceHoldRelease 23 2) s) (fun t => decide ((t.port 23).frames.map (·.status) = [.ok]
            ∧ tfind ((t.port 23).ring 3).gran 0 = some 9)) = true
       ∧ (let u := State.sets s [(F.cpRingCfg_en, [4 * 23 + 3], 0)]
          u.apertureRefuses 23 (apertureCells r.addr r.len) = true
          ∧ after (exec (.fenceHoldRelease 23 2) u) (fun t => decide ((t.port 23).frames.map (·.status) = [.denied]
            ∧ t.fget F.glPortErr_denied [23] = 1)) = true))
    ∧ (let s := { s0 with tenants := [(4, { TenQ.init with slot := some 1 }), (4095, { TenQ.init with slot := some 2 })] }
       trising s.tenants = true ∧ (∀ e ∈ s.tenants, e.1 < 4096)
       ∧ after (exec .wheelSlot s) (fun t => decide ((t.tenQ 4).ready = true ∧ (t.tenQ 4095).slot = some 2 ∧ t.wheel = 1
            ∧ t.clk.now = 3 * 141)) = true)
    ∧ (let s := State.sets s0 [(F.shTqSel_tenant, [], 4095)]
       idle (.tqConfig 1) s = true
       ∧ after (exec (.tqConfig (BitVec.ofNat 64 (1 + 256 * 7 + 2 ^ 32 * 9))) s) (fun t => decide ((t.tenQ 4095).en = true ∧ (t.tenQ 4095).rate = 7
            ∧ (t.tenQ 4095).burst = 9)) = true
       ∧ after (exec (.tqConfig 2) s) (fun t => decide ((t.tenQ 4095).hold = true)) = true)
    ∧ (let s := (State.sets s0 [(F.shTqSel_tenant, [], 4095)]).setTenQ 4095 { TenQ.init with en := true, rate := 4, elig := 100 }
       s.vt < (s.tenQ 4095).elig
       ∧ after (exec (.tqConfig (BitVec.ofNat 64 (1 + 256 * 2))) s) (fun t => decide ((t.tenQ 4095).elig = 200)) = true)
    ∧ after (exec (.tqSnapshot 4095) (s0.setTenQ 4095 { TenQ.init with en := true, rate := 4, bytes := 11 }))
        (fun t => decide (t.fget F.shTqSel_tenant = 4095 ∧ t.rget .shTqBytes [] = 11 ∧ t.fget F.shTqStat_state = 1)) = true := by decide +kernel

/-- A completion that waits to be sent. -/
def frame0 (id cls : Nat) : Frame := ⟨id, id, cls, none, .ok, 0, 0, 0, 0, false, .write, 1, 0, 0, 0, false, 0⟩

theorem witness_framesStart :
    (let s := sp.setPort 23 { rdy with frames := [frame0 1 0, frame0 2 7] }
     (s.tickTo (s.port 23).busy).nextFrame 23 = some (frame0 2 7)
     ∧ after (exec (.frameStart 23) s) (fun t => decide ((t.port 23).frames = [frame0 1 0] ∧ t.out.length = 1)) = true)
    ∧ (let s := State.sets (sp.setPort 23 { rdy with frames := [frame0 1 0] }) [(F.shGateCfg_en, [23], 1), (F.shGateEnt_dur, [23, 0, 0], 16), (F.shGateEnt_open, [23, 0, 0], 0xFE)]
       let g := s.setGate 23 ⟨0, false, 16⟩
       (g.tickTo (g.port 23).busy).nextFrame 23 = none ∧ idle (.frameStart 23) g = true)
    ∧ (let s := sp.setPort 23 { rdy with reqs := [reqAt 1 0 .credit] }
       s.findReq 23 1 = some (reqAt 1 0 .credit) ∧ (∃ p ∈ s.memParts (reqAt 1 0 .credit), p.st ≠ .done)
       ∧ after (exec (.creditReserve 23 1) s) (fun t => decide ((t.port 23).rspRsvd = 1 ∧ (t.port 23).reqs.map (·.stage) = [.issued])) = true)
    ∧ (let s := sp.setPort 23 { rdy with rspHeld := 5, rspRsvd := 5, reqs := [reqAt 1 0 .credit] }
       (s.port 23).rspHeld < (s.port 23).rspRsvd + 1 ∧ idle (.creditReserve 23 1) s = true)
    ∧ (let r := { reqAt 1 0 .credit with tens := some ⟨0, 0, 0, 0, 0, 0, .none⟩ }
       let s := sr.setPort 23 { rdy with reqs := [r] }
       s.gated 23 r.tc = false ∧ s.dirDown 0 = false ∧ (s.seg 0).st = .far
       ∧ after (exec (.creditReserve 23 1) s) (fun t => decide ((t.port 23).reqs.map (·.stage) = [.parked 0] ∧ t.demandQ.map (·.seg) = [0])) = true)
    ∧ (let s := sp.setPort 23 { rdy with frames := [{ frame0 1 0 with slots := some [(.ok, 7), (.poisoned, 0)] }] }
       after (exec (.frameStart 23) s) (fun t => decide (t.out = [.frame 23 0
          (dataSlots 1 [(0, 7), (PStatus.poisoned.code, 0)]) none])) = true) := by decide +kernel

theorem witness_portsResetAndReady :
    (let s := s0.setPort 25 { rdy with fences := [(1, 2)] }
     (s.port 25).prstN = true
     ∧ after (exec (.portReset 25) s) (fun t => decide ((t.port 25).st = .reset ∧ (t.port 25).fences = [] ∧ (t.port 25).hdrHeld = 0)) = true
     ∧ idle (.portResetRelease 25 3) s = true ∧ idle (.portReady 25) s = true ∧ idle (.portDrainDone 25) s = true)
    ∧ after (exec (.portReset 25) s0) (fun t => decide ((t.port 25).prstN = false ∧ (t.port 25).st = .disabled)) = true
    ∧ (let s := s0.setPort 25 { Port.init with st := .reset, prstN := false }
       idle (.portReset 25) s = true
       ∧ after (exec (.portResetRelease 25 15) s) (fun t => decide ((t.port 25).st = .linkup ∧ (t.port 25).prev = 15)) = true)
    ∧ (let s := s0.setPort 23 { Port.init with st := .linkup, prev := 1 }
       after (exec (.portReady 23) s) (fun t => decide ((t.port 23).st = .ready ∧ (t.port 23).drev = 1
          ∧ (t.port 23).hdrHeld = s.fget F.glPortCfg_hdr_credits [23] ∧ t.out.length = 2)) = true)
    ∧ (let s := s0.setPort 23 { Port.init with st := .linkup, prev := 0 }
       after (exec (.portReady 23) s) (fun t => decide ((t.port 23).st = .linkup ∧ t.fget F.pkErr_rev_bad = 1)) = true)
    ∧ after (exec (.portDrainDone 25) (s0.setPort 25 { Port.init with st := .drain })) (fun t => decide ((t.port 25).st = .disabled)) = true := by
  decide +kernel

theorem witness_gatesSwitch :
    (let s := State.sets s0 [(F.shGateEnt_dur, [23, 0, 0], 16), (F.shGateEnt_open, [23, 0, 0], 0xFF), (F.shGateEnt_dur, [23, 1, 0], 24), (F.shGateEnt_open, [23, 1, 0], 0xFF)]
     (s.gateOn 23 = false ∧ s.gateCheck 23 0 (s.fget F.shGateCfg_guard [23]) (s.fget F.shGateCfg_offset [23]) = [])
     ∧ after (exec (.gateEnable 23) s) (fun t => decide (t.gateOn 23 = true ∧ t.gate 23 = ⟨0, false, 16⟩)) = true
     ∧ after (exec (.gateSwap 23) s) (fun t => decide (t.fget F.shGateErr_busy [23] = 1)) = true ∧ idle (.gateSwapTake 23) s = true
     ∧ (let u := (State.sets s [(F.shGateCfg_en, [23], 1)]).setGate 23 ⟨0, false, 16⟩
        (u.gateOn 23 = true ∧ u.gateCheck 23 1 (u.fget F.shGateCfg_guard [23]) (u.fget F.shGateCfg_offset [23]) = [])
        ∧ after (exec (.gateSwap 23) u) (fun t => decide ((t.gate 23).armed = true)) = true
        ∧ (let v := State.sets u [(F.shGateEnt_dur, [23, 1, 0], 1)]
           v.gateCheck 23 1 (v.fget F.shGateCfg_guard [23]) (v.fget F.shGateCfg_offset [23]) ≠ []
           ∧ after (exec (.gateSwap 23) v) (fun t => decide (bits (t.rget .shGateErr [23]).toNat 0 5 ≠ 0)) = true)
        ∧ after (exec (.gateDisable 23) u) (fun t => decide (t.gateOn 23 = false)) = true
        ∧ after (exec (.gateSwapTake 23) (u.setGate 23 ⟨0, true, 16⟩)) (fun t => decide (t.gate 23 = ⟨1, false, 24⟩ ∧ t.clk.now = 48)) = true))
    ∧ (s0.gateCheck 23 0 (s0.fget F.shGateCfg_guard [23]) (s0.fget F.shGateCfg_offset [23]) ≠ []
        ∧ after (exec (.gateEnable 23) s0) (fun t => decide (t.gateOn 23 = false ∧ t.fget F.shGateErr_cycle_len [23] = 1)) = true) := by decide +kernel

/-! ## The far tier -/

/-- A request that was sent on far-tier port 24. -/
def farReq0 (tries : Nat) (dest : FarDest) : FarReq := ⟨0, 4095, 0, 64, tries, dest, 0⟩
/-- Far-tier port 24 is READY with credits. -/
def sf : State := sr.setPort 24 { rdy with hdrHeld := 600 }

theorem witness_farRequests :
    (let s := { (holds sf [pkt 5 1 .running [0, 64, 64]]) with far := [farReq0 4 (.unit 5 7)] }
     s.farReq 0 4095 = some (farReq0 4 (.unit 5 7)) ∧ (s.port 24).st = .ready ∧ (∀ q ∈ s.far, q.ft = 0 → q.tries ≠ 0)
     ∧ (tfind s.packets 5).map (·.st) = some .running
     ∧ after (exec (.farResponse 0 4095 false [11]) s) (fun t => decide (t.far = [] ∧ (tfind t.packets 5).map (·.got) = some [(7, (.ok, 11))])) = true
     ∧ after (exec (.farResponse 0 4095 true []) s) (fun t => decide ((tfind t.packets 5).map (·.got) = some [(7, (.poisoned, 0))])) = true
     ∧ after (exec (.farTimeout 0 4095) s) (fun t => decide (t.far = [] ∧ t.fget F.glPortErr_far_err [24] = 1)) = true
     ∧ idle (.farResponse 0 4095 false [11]) (s.setPort 24 { rdy with st := .fault }) = true)
    ∧ (let s := { sf with
         dir := [(0, { SegEnt.init with st := .fetching, frame := 1 })]
         fetches := [⟨0, .demand, 0, 1⟩]
         far := [farReq0 1 (.fetch 0 511)] }
       s.blockIn 0 511 true [] ≠ none
       ∧ after (exec (.farResponse 0 4095 true []) s) (fun t => decide (t.far = [] ∧ t.fetches.map (·.got) = [1 + 2 ^ 511])) = true
       ∧ after (exec (.farTimeout 0 4095) s) (fun t => decide (t.far.map (·.tries) = [2] ∧ (t.port 24).hdrHeld = 599 ∧ t.out = [.farRead 24 4095 0 64])) = true
       ∧ idle (.farTimeout 0 4095) (s.setPort 24 { rdy with st := .fault }) = true ∧ idle (.farTimeout 0 4095) (s.setPort 24 { rdy with hdrHeld := 0 }) = true
       ∧ after (exec (.farCreditReturn 0 2 3) s) (fun t => decide ((t.port 24).hdrHeld = 602 ∧ (t.port 24).wdatHeld = 73)) = true)
    ∧ (let s := { (sf.setPort 24 { rdy with hdrHeld := 0 }) with far := [⟨0, 0, 128, 64, 0, .unit 1 1, 0⟩, farReq0 1 (.unit 5 7)] }
       (s.far.find? (fun x => x.ft = 0 && x.tries = 0 && s.canReserve x.dest)).isSome = true ∧ s.freeFarTag 0 = some 0 ∧ 0 < (s.port 24).hdrHeld + 1
       ∧ after (exec (.farCreditReturn 0 1 0) s) (fun t => decide (t.far.map (·.tries) = [1, 1] ∧ t.out = [.farRead 24 0 128 64])) = true) := by
  decide +kernel

/-- Far requests of a core's stream and of a client's pass-through. -/
theorem witness_farRequests_streams :
    (let s := { (sc (coreOf [load0])).setPort 24 rdy with far := [farReq0 1 (.stream 7 15 3 0 9 0)] }
     (s.coreAt 7 15).map (·.run) = some 0
     ∧ after (exec (.farResponse 0 4095 false [11]) s) (fun t => decide (t.far = []
          ∧ (tfind t.cores 127).map (fun c => (c.eng 3).buf) = some [(bufKey 0 9, (.ok, 11))])) = true)
    ∧ (let r := { reqAt 1 0 .issued with parts := [⟨.queued, [], 0, 0, 1, .ok, 0, 0⟩, ⟨.queued, [], 0, 0, 1, .ok, 0, 0⟩], len := 2 }
       let s := { sf.setPort 23 { rdy with reqs := [r] } with far := [⟨0, 4095, 64, 1, 1, .pass 23 1 1, 0⟩] }
       after (exec (.farResponse 0 4095 false [11]) s) (fun t => decide (t.far = []
          ∧ (t.port 23).reqs.map (fun q => q.parts.map fun p => (decide (p.st = .done), p.data)) = [[(false, 0), (true, 11)]])) = true) := by
  decide +kernel

theorem witness_blockWaits :
    let s := { sf with
      dir := [(0, { SegEnt.init with st := .fetching, frame := 1 })]
      fetches := [⟨0, .demand, 0, 1⟩]
      far := [farReq0 1 (.fetch 0 511)]
      descs := [] }
    s.farReq 0 4095 ≠ none ∧ s.blockIn 0 511 false [] = none ∧ idle (.farResponse 0 4095 false []) s = true := by decide +kernel

theorem witness_segmentFetches :
    (sr.fget F.trCfg_max_fetch = 1 ∧ idle .segmentFetchStart { sr with fetches := [⟨9, .demand, 0, 0⟩] } = true ∧ idle .segmentFetchStart sr = true)
    ∧ (let s := { sr with demandQ := [⟨0, .demand, 3, 0⟩] }
       s.dirDown 0 = false ∧ (s.seg 0).st = .far ∧ (({ s with demandQ := [] }).takeFrame 0 (({ s with demandQ := [] }).victimFor 0 .demand)).2 = some (0, 0)
       ∧ after (exec .segmentFetchStart s) (fun t => decide (t.fetches = [⟨0, .demand, 3, 0⟩] ∧ (t.seg 0).st = .fetching)) = true)
    ∧ (let s := { sr with
         demandQ := [⟨0, .demand, 3, 0⟩]
         dir := [(0, { SegEnt.init with st := .fetching, frame := 1, home := 2 ^ 21 })] }
       after (exec .segmentFetchStart s) (fun t => decide (t.fetches = [⟨0, .demand, 3, 0⟩] ∧ t.demandQ = [] ∧ t.dir = s.dir)) = true)
    ∧ (let s := State.sets { sf with demandQ := [⟨0, .demand, 3, 0⟩] } [(F.trPoolCfg_en, [0], 0)]
       (({ s with demandQ := [] }).takeFrame 0 (({ s with demandQ := [] }).victimFor 0 .demand)).2 = none
       ∧ after (exec .segmentFetchStart s) (fun t => decide (t.fetches = [])) = true)
    ∧ (let s := { sr with prefetchQ := [0] }
       (({ s with prefetchQ := [] }).takeFrame 0 (({ s with prefetchQ := [] }).victimFor 0 .prefetch)).2 = some (0, 0)
       ∧ after (exec .segmentFetchStart s) (fun t => decide (t.fetches = [⟨0, .prefetch, 0, 0⟩] ∧ t.prefetchQ = [] ∧ (t.seg 0).ref = true)) = true)
    ∧ (let s := { sf with
         dir := [(2 ^ 25 - 1, { SegEnt.init with st := .fetching, frame := 1 })]
         fetches := [⟨2 ^ 25 - 1, .demand, 0, 2 ^ 512 - 1⟩] }
       (s.fetches.find? fun x => x.seg = 2 ^ 25 - 1) ≠ none
       ∧ after (exec (.segmentFetchDone (2 ^ 25 - 1)) s) (fun t => decide ((t.seg (2 ^ 25 - 1)).st = .loc ∧ t.fetches = [])) = true)
    ∧ idle (.segmentFetchDone 0) { sf with fetches := [⟨0, .demand, 0, 2 ^ 512 - 2⟩] } = true := by decide +kernel

/-! ## Command packets -/

/-- A waybill granule: opcode, sequence number, reply address and four parameter words. -/
def waybill (op seq reply : Nat) (prm : List Nat) : Granule := gOfWords ([op + 65536 * seq, 0, reply, 0] ++ prm)
/-- Ring 3 of port 23 holds a packet at granule 255, with sequence number 7. -/
def sq (g : Granule) (seq : Nat := 7) : State :=
  sp.setPort 23 (rdy.setRing 3 { Ring.init with gran := [(255, g)], parse := 255, seq := seq })
/-- A FILL of one granule. -/
def fillPrm : List Nat := [5, 0, 64, 0]

theorem witness_packetsAreTaken :
    (let s := sq (waybill 2 7 4096 fillPrm)
     ([1, 2, 3, 4].map fun k => ((s.port 23).lastRing + k) % 4).find? (fun x => s.ringReady 23 x) = some 3
     ∧ ((s.port 23).ring 3).packet = some [waybill 2 7 4096 fillPrm] ∧ s.scrapped = false ∧ s.replyOk 4096 = true
     ∧ s.parseRefused (packetOf 0 23 3 [waybill 2 7 4096 fillPrm]) = none
     ∧ after (exec (.parsePacket 23) s) (fun t => decide (tfind t.packets 0 = some (packetOf 0 23 3 [waybill 2 7 4096 fillPrm])
          ∧ ((t.port 23).ring 3).parse = 0 ∧ ((t.port 23).ring 3).seq = 8 ∧ ((t.port 23).ring 3).gran = [])) = true
     ∧ after (exec (.parsePacket 23) { s with sec := { s.sec with hub := 4 } })
          (fun t => decide ((tfind t.packets 0).map (·.status) = some .unavailable)) = true)
    ∧ (let s := sq (waybill 2 7 4097 fillPrm)
       s.replyOk 4097 = false ∧ after (exec (.parsePacket 23) s) (fun t => decide ((tfind t.packets 0).map (·.status) = some .malformed)) = true)
    ∧ (let s := sq (waybill 0xFF 7 4096 fillPrm)
       s.parseRefused (packetOf 0 23 3 [waybill 0xFF 7 4096 fillPrm]) = some .unsupported
       ∧ after (exec (.parsePacket 23) s) (fun t => decide ((tfind t.packets 0).map (·.status) = some .unsupported)) = true)
    ∧ (let s := sq (waybill 2 7 4096 fillPrm) 8
       bits (waybill 2 7 4096 fillPrm).toNat 16 16 ≠ ((s.port 23).ring 3).seq
       ∧ after (exec (.parsePacket 23) s) (fun t => decide (((t.port 23).ring 3).halted = true ∧ t.packets = [])) = true)
    ∧ (let s := sq (waybill 2 7 4096 fillPrm)
       let u := s.setPort 23 { s.port 23 with st := .drain }
       u.tableFull 23 = false ∧ after (exec (.parsePacket 23) u) (fun t => decide ((tfind t.packets 0).map (·.status) = some .abortedPort)) = true
       ∧ (let f := holds s ((List.range 256).map fun k => pkt (10 + k) 3 .fixed [])
          f.tableFull 23 = true ∧ idle (.parsePacket 23) f = true))
    ∧ (sp.setPort 23 Port.init |> fun s => idle (.parsePacket 23) s = true) := by decide +kernel

theorem witness_queuesAndReplies :
    (let p := pkt 5 3 .waiting [0, 64, 64]
     let s := holds sp [p]
     (tfind s.packets 5 = some p ∧ (opRow p.opcode).map (·.fw) = some true ∧ s.mayStart p = true ∧ s.fget F.cpFwStat_state ≠ 3)
     ∧ after (exec (.fwQueueAdmit 5) s) (fun t => decide (t.fwq = [5] ∧ (tfind t.packets 5).map (·.st) = some .queued)) = true
     ∧ after (exec (.fwQueueAdmit 5) (State.sets s [(F.cpFwStat_state, [], 3)])) (fun t => decide (answer t 5 = some (.unavailable, 0, 0, 0))) = true
     ∧ idle (.fwQueueAdmit 5) { s with fwq := List.range 512 } = true ∧ idle (.packetCommit 5) s = true)
    ∧ (let s := holds sp [{ pkt 5 3 .fixed [] with status := .denied }]
       after (exec (.packetCommit 5) s) (fun t => decide (t.packets = [] ∧ t.out.length = 1)) = true)
    ∧ (let s := State.sets (sp.setPort 23 (rdy.setRing 3 { Ring.init with moved := true, seq := 9, parse := 2 })) [(F.cpRingCfg_progress_en, [95], 1)]
       s.fget F.cpRingCfg_progress_en [95] = 1
       ∧ after (exec (.progressWrite 23 3) s) (fun t => decide (((t.port 23).ring 3).moved = false)) = true
       ∧ idle (.progressRetry 23 3) s = true)
    ∧ (let s := State.sets (sp.setPort 23 (rdy.setRing 3 { Ring.init with progFail := true })) [(F.cpRingCfg_progress_en, [95], 1)]
       idle (.progressWrite 23 3) s = true ∧ after (exec (.progressRetry 23 3) s) (fun t => decide (((t.port 23).ring 3).moved = false)) = true) := by
  decide +kernel

/-- A stream that is closing. -/
def stClosing : Stream := ⟨.closing, 0, 0, 0, 0, 0, 0, 8, 1, 0, 0, 0, []⟩

theorem witness_packetsAreStopped :
    (let s := holds (sp.setPort 23 (rdy.setRing 3 { Ring.init with seq := 9, parsed := 4 })) [pkt 5 0x60 .waiting [3 + 65536 * 5]]
     s.live 5 0x60 = some (pkt 5 0x60 .waiting [3 + 65536 * 5])
     ∧ after (exec (.abort 5) s) (fun t => decide (answer t 5 = some (.tooLate, 0, 0xFF, 0))) = true)
    ∧ (let s := holds (sp.setPort 23 (rdy.setRing 3 { Ring.init with seq := 9, parsed := 4 })) [pkt 5 0x60 .waiting [3 + 65536 * 4]]
       after (exec (.abort 5) s) (fun t => decide (answer t 5 = some (.notFound, 0, 0xFF, 0))) = true)
    ∧ (let s := holds sp [{ pkt 4 1 .running [] with seq := 6, count := 64 }, pkt 5 0x60 .waiting [3 + 65536 * 6]]
       after (exec (.abort 5) s) (fun t => decide (answer t 4 = some (.aborted, 64, 0, 0) ∧ answer t 5 = some (.done, 0, 2, 0))) = true)
    ∧ (let s := holds sp [{ pkt 4 0x60 .waiting [] with seq := 6 }, pkt 5 0x60 .waiting [3 + 65536 * 6]]
       after (exec (.abort 5) s) (fun t => decide (answer t 5 = some (.denied, 0, 0xFF, 0))) = true)
    ∧ (let s := holds sp [{ pkt 4 1 .fixed [] with seq := 6, status := .poisoned }, pkt 5 0x60 .waiting [3 + 65536 * 6]]
       after (exec (.abort 5) s) (fun t => decide (answer t 5 = some (.tooLate, 0, 0x0A, 0))) = true)
    ∧ (let s := holds sp [{ pkt 4 0x52 .running [] with seq := 6 }, pkt 5 0x60 .waiting [3 + 65536 * 6]]
       isMaint 0x52 = true ∧ after (exec (.abort 5) s) (fun t => decide (answer t 5 = some (.tooLate, 0, 0xFF, 0))) = true)
    ∧ (let x := { pkt 4 0x12 .running [] with seq := 6, target := 9 }
       let s := { (holds sp [x, pkt 5 0x60 .waiting [3 + 65536 * 6]]) with streams := [(9, stClosing)] }
       s.closePast x = true ∧ after (exec (.abort 5) s) (fun t => decide (answer t 5 = some (.tooLate, 0, 0, 0))) = true)
    ∧ (let s := holds sp [pkt 5 0x61 .waiting []]
       after (exec (.fence 5) s) (fun t => decide ((tfind t.packets 5).map (·.st) = some .running)) = true)
    ∧ (let s := holds (sp.setPort 23 { rdy with fences := [(5, 3)] }) [pkt 5 0x61 .running []]
       s.fenceOver (pkt 5 0x61 .running []) = true
       ∧ after (exec (.fenceDone 5) s) (fun t => decide (t.packets = [] ∧ (t.port 23).fences = [])) = true)
    ∧ (let s := holds (sp.setPort 23 { rdy with reqs := [{ req0 .read .issued with id := 2 }] }) [pkt 5 0x61 .running []]
       s.fenceOver (pkt 5 0x61 .running []) = false ∧ idle (.fenceDone 5) s = true) := by decide +kernel

theorem witness_interpretersTrap :
    (let s := holds sp [{ pkt 5 3 .running [] with interp := some 2 }, { pkt 6 0x52 .running [] with interp := some 3 }]
     trising s.packets = true ∧ (∀ e ∈ s.packets, e.2.id = e.1) ∧ s.fget F.cpFwStat_state = 1
     ∧ after (exec (.fwTrap 2 64) s) (fun t => decide (answer t 5 = some (.fwRestart, 0, 0, 0) ∧ answer t 6 = none
          ∧ (tget Interp.init t.interps 2).reload = true ∧ t.fget F.cpFwStat_state = 2)) = true
     ∧ idle (.fwReloadDone 3 0) s = true ∧ idle (.fwTrap 2 64) (State.sets s [(F.cpFwStat_state, [], 3)]) = true)
    ∧ (let s := { State.sets (holds sp [pkt 5 3 .waiting []]) [(F.cpFwStat_state, [], 2)] with interps := [(3, { Interp.init with reload := true, trapAddr := 9 })] }
       after (exec (.fwReloadDone 3 2) s) (fun t => decide (t.fget F.cpFwStat_state = 1 ∧ t.fget F.cpFwStat_reload_src = 2
            ∧ (tget Interp.init t.interps 3).reload = false)) = true
       ∧ after (exec (.fwReloadDone 3 2) { s with mgmtQ := [.setEndpointId 9] }) (fun t => decide (t.mgmtQ = []
            ∧ t.fget F.btMciStat_eid = 9 ∧ t.out = [.mctp 1 0 [9]])) = true
       ∧ after (exec (.fwReloadDone 3 3) s) (fun t => decide (t.fget F.cpFwStat_state = 3 ∧ answer t 5 = some (.unavailable, 0, 0, 0))) = true) := by
  decide +kernel

/-- A source that waits, one that fails, and a write that fails. -/
theorem witness_granulesAreMoved_stops :
    (let p := { pkt 5 1 .running [2 ^ 47, 64, 64, 0] with chan := some 0 }
     let s := holds { sr with dir := [(0, { SegEnt.init with st := .fetching, frame := 1, home := 2 ^ 21 })] } [p]
     (match (s.copySrc p 0).2 with | .wait g => decide (g = 0) | _ => false) = true
     ∧ after (exec (.copy 5 1 []) s) (fun t => decide ((tfind t.packets 5).map (·.waits) = some [0])) = true)
    ∧ (let p := { pkt 5 1 .running [128, 64, 64, 0] with chan := some 0 }
       (match ((holds sd [p]).copySrc p 0).2 with | .fail k _ => decide (k = .poisoned) | _ => false) = true)
    ∧ (let s := State.sets (holds sd [{ pkt 5 2 .running [7, 64, 64, 0] with chan := some 0 }]) [(F.scLinkStat_state, [0], 2)]
       (s.writeMem 64 0 (2 ^ 64 - 1) copyClass).2.1 ≠ .ok
       ∧ after (exec (.fill 5 1 []) s) (fun t => decide ((answer t 5).map (fun a => (a.2.1, a.2.2.2)) = some (0, 64))) = true) := by decide +kernel

theorem witness_granulesAreMoved :
    (let s := holds sd [pkt 5 2 .waiting [7, 64, 128, 0]]
     s.freeChan = some 0 ∧ (s.takeFast 5 2).map (fun x => x.1.copyRefused x.2) = some none
     ∧ after (exec (.copyChannelStart 5) s) (fun t => decide ((tfind t.packets 5).map (·.chan) = some (some 0))) = true)
    ∧ (let s := holds sd [pkt 5 1 .waiting [0, 4 * 2 ^ 20, 64, 0]]
       (s.takeFast 5 1).map (fun x => x.1.copyRefused x.2) = some (some .malformed)
       ∧ after (exec (.copyChannelStart 5) s) (fun t => decide (answer t 5 = some (.malformed, 0, 0, 0))) = true)
    ∧ (let s := holds sd (pkt 5 1 .waiting [0, 0, 64, 0] :: (List.range 32).map fun c => { pkt (6 + c) 1 .running [] with chan := some c })
       s.freeChan = none ∧ idle (.copyChannelStart 5) s = true)
    ∧ (let s := holds sd [{ pkt 5 1 .running [0, 64, 128, 0] with chan := some 0 }]
       (match (s.copySrc (pkt 5 1 .running [0, 64, 128, 0]) 0).2 with | .ok d => decide (d = gJoin 9 9) | _ => false) = true
       ∧ after (exec (.copy 5 1 []) s) (fun t => decide ((tfind t.packets 5).map (fun p => (p.prog, p.count)) = some (1, 64))) = true)
    ∧ (let s := holds sd [{ pkt 5 2 .running [7, 64, 64, 0] with chan := some 0 }]
       after (exec (.fill 5 1 []) s) (fun t => decide (answer t 5 = some (.done, 64, 0, 0))) = true)
    ∧ (let s := holds sd [{ pkt 5 1 .running [128, 64, 64, 0] with chan := some 0 }]
       after (exec (.copy 5 1 []) s) (fun t => decide ((answer t 5).map (fun a => (a.1, a.2.1)) = some (.poisoned, 0))) = true)
    ∧ (let s := holds sd [pkt 5 4 .running [0, 64, 128, 2]]
       after (exec (.migrate 5 1 []) s) (fun t => decide ((tfind t.packets 5).map (fun p => (p.prog, p.count)) = some (1, 64))) = true)
    ∧ (let s := holds sd [pkt 5 4 .running [128, 64, 128, 2]]
       after (exec (.migrate 5 1 []) s) (fun t => decide ((answer t 5).map (fun a => (a.1, a.2.1)) = some (.poisoned, 0))) = true)
    ∧ (let s := holds sd [pkt 5 4 .queued [0, 64, 128, 0]]
       (s.takeFw 5 4).map (fun x => firstFail [x.1.anyRegion 4096 x.2.src x.2.bytes, x.1.anyRegion 4096 x.2.dst x.2.bytes]) = some none
       ∧ after (exec (.migrate 5 0 []) s) (fun t => decide ((tfind t.packets 5).map (·.st) = some .running ∧ t.fwq = [])) = true) := by decide +kernel

/-! ## Maintenance, repair and the stack links -/

theorem witness_scrubsAndChecks :
    (let s := holds sd [pkt 5 3 .queued [0, 64, 64, 0]]
     (s.takeFw 5 3).map (fun x => firstFail [x.1.memRegion 0 4096 0 64, x.1.memRegion 0 4096 64 64]) = some none
     ∧ after (exec (.scrub 5) s) (fun t => decide ((answer t 5).map (fun a => (a.1, a.2.1, a.2.2.1)) = some (.done, 2, 0))) = true)
    ∧ (let s := holds sd [pkt 5 3 .queued [0, 8 * 2 ^ 20, 64, 0]]
       after (exec (.scrub 5) s) (fun t => decide (answer t 5 = some (.malformed, 0, 0, 0))) = true)
    ∧ (sd.fget F.scPatrolCfg_period_h [7] = 0 ∨ idle (.patrolScrub 7) (State.sets sd [(F.scPatrolCfg_period_h, [7], 0)]) = true)
    ∧ (let s := holds sp [pkt 5 0x70 .queued [15 + 16 * 0 + 256 * 0 + 1024 * 31 + 2 ^ 24 * 3 + 2 ^ 32 * 9, 5, 6, 0]]
       (s.takeFw 5 0x70).map (fun x => x.1.checkGone 23 3 9) = some false
       ∧ after (exec (.checkArm 5) s) (fun t => decide (answer t 5 = some (.done, 0, 0, 0) ∧ (t.chk 15).st = .armed ∧ (t.chk 15).poly = 5)) = true)
    ∧ (let s := holds sp [pkt 5 0x71 .queued [15, 0, 0, 0]]
       (s.chk 15).st = .idle ∧ after (exec (.checkRead 5) s) (fun t => decide (answer t 5 = some (.notFound, 0, 0, 0))) = true)
    ∧ (let s := { (holds sp [pkt 5 0x71 .queued [15 + 16, 0, 0, 0]]) with
         obs := { sp.obs with chk := [(15, { ChkUnit.init with st := .ended, bytes := 128, reg := 3, ctl := 1024 * 31 })] } }
       after (exec (.checkRead 5) s) (fun t => decide (answer t 5 = some (.done, 128, 0, (s.chk 15).value) ∧ t.chk 15 = ChkUnit.init)) = true) := by
  decide +kernel

/-- A SCRUB by pseudo-channel, one that finds a granule it may not read, and stops of interpreter 3. -/
theorem witness_scrubsAndChecks_stops :
    (let s := State.sets (holds sd [pkt 5 3 .queued [0, 64, 64, 0]]) [(F.scLinkStat_state, [0], 2)]
     (s.takeFw 5 3).map (fun x => (firstFail [x.1.memRegion 0 4096 0 64, x.1.memRegion 0 4096 64 64],
        decide ((x.1.scrubList (x.1.rangePlaces 0 64) false false).2.2 = .ok))) = some (none, false)
     ∧ after (exec (.scrub 5) s) (fun t => decide ((answer t 5).map (·.1) ≠ some .done ∧ (answer t 5).map (·.2.1) = some 0)) = true)
    ∧ (let s := (holds sd [pkt 5 3 .queued [511, 0, 64, 1]]).rput .pkRetired [7] (BitVec.allOnes 64)
       (s.takeFw 5 3).map (fun x => (bit (x.2.word 56) 0, firstFail [x.1.memRegion 0 4096 64 64])) = some (true, none))
    ∧ (let s := { State.sets sm [(F.scPatrolCfg_period_h, [7], 24)] with
         interps := [(3, { Interp.init with reload := true })]
         ladder := [.row 0 0 0, .bank 0 5, .retire 511 true] }
       s.i3up = false ∧ idle (.patrolScrub 7) s = true ∧ idle (.rowRemap 0 0 0 0) s = true ∧ idle (.bankSpare 0 0 5) s = true
       ∧ idle (.autoRetire 511) s = true) := by decide +kernel

/-- A patrol pass of a stack without usable pseudo-channels. -/
theorem witness_patrolScrub :
    let s := (State.sets s0 [(F.scLinkStat_state, [7], 3), (F.scPatrolCfg_period_h, [7], 24)]).rput .pkRetired [7] (BitVec.allOnes 64)
    s.fget F.scPatrolCfg_period_h [7] ≠ 0 ∧ s.link 7 = 3 ∧ s.retired 448 = true ∧ s.retired 511 = true
    ∧ after (exec (.patrolScrub 7) s) (fun t => decide (t.fget F.scPatrolCfg_passes [7] = 1)) = true := by decide +kernel

theorem witness_rowsAreRemapped :
    (let s := { sm with ladder := [.row 0 0 0] }
     s.inService 0 = true ∧ s.remapOf 0 0 0 = none ∧ s.remapRoom 0 0 0 = some (0, 0) ∧ s.pcc 0 = Pcc.init
     ∧ after (exec (.rowRemap 0 0 0 0) s) (fun _ => true) = true
     ∧ idle (.rowRemap 0 0 0 1) s = true)
    ∧ (let s := { sd with
         ladder := [.row 0 0 9]
         remaps := (List.range 4).map fun i => (i, ⟨0, 0, i, i, false⟩) }
       s.remapRoom 0 0 9 = none
       ∧ after (exec (.rowRemap 0 0 0 9) s) (fun t => decide (t.ladder = [.bank 0 0] ∧ t.fget F.scEccInt_remap_full [0] = 1)) = true
       ∧ idle (.softRepair 0 4095) s = true)
    ∧ (let s := { sd with ladder := [.bank 0 5] }
       s.inService 0 = true ∧ s.spareOf 0 5 = none ∧ s.spareRoom 0 5 = none
       ∧ after (exec (.bankSpare 0 0 5) s) (fun t => decide (t.ladder = [.retire 0 false])) = true) := by decide +kernel

theorem witness_retirementsAndRepairs :
    (let s := { sm with ladder := [.retire 511 true] }
     s.inService 511 = true ∧ (s.retPend.find? fun e => e.packet.isNone && e.pcs.contains 511) = none
     ∧ after (exec (.autoRetire 511) s) (fun t => decide (t.retPend.map (·.pc) = [511] ∧ t.ladder = [])) = true
     ∧ idle (.autoRetire 510) s = true
     ∧ idle (.autoRetire 511) { s with retPend := [⟨511, [511], [], none, true⟩] } = true
     ∧ (let u := { State.sets s [(F.scLinkStat_state, [0], 2)] with retPend := [⟨511, [511], [8], none, false⟩] }
        u.retireWaits [8] = true ∧ idle (.autoRetire 511) u = true))
    ∧ (let s := State.sets { sm with ladder := [.retire 511 false] } [(F.scEccCfg_auto_retire, [7], 0)]
       s.fget F.scEccCfg_auto_retire [7] = 0
       ∧ after (exec (.autoRetire 511) s) (fun t => decide (t.fget F.pcEccStat_retire_due [7, 63] = 1 ∧ t.ladder = [])) = true)
    ∧ (let s := { (holds sm [pkt 5 0x50 .running []]) with retPend := [⟨511, [511], [], none, false⟩, ⟨510, [510], [], some 5, false⟩] }
       s.retireWaits [] = false
       ∧ after (exec (.autoRetire 511) s) (fun t => decide (t.retPend.map (·.pc) = [510] ∧ t.retired 511 = true)) = true
       ∧ after (exec (.retire 5) s) (fun t => decide (t.retPend.map (·.pc) = [511] ∧ (answer t 5).map (·.1) = some .done)) = true)
    ∧ (let s := holds sm [pkt 5 0x50 .queued [7 + 256 * 63 + 65536]]
       (s.takeFw 5 0x50).map (fun x => (x.1.link 7, x.2.retirePcs.length)) ≠ none
       ∧ after (exec (.retire 5) s) (fun t => decide (t.retPend.map (·.packet) = [some 5])) = true
       ∧ after (exec (.retire 5) (State.sets s [(F.scLinkStat_state, [7], 2)])) (fun t => decide (answer t 5 = some (.malformed, 0, 0, 0))) = true)
    ∧ (let s := holds sm [pkt 5 0x51 .queued [2 ^ 40, 1, 0, 0]]
       (s.takeFw 5 0x51).map (fun x => x.1.memRegion 0 2 (2 ^ 40) 64) = some (some .malformed)
       ∧ after (exec (.repair 5) s) (fun t => decide (answer t 5 = some (.malformed, 0, 0, 0))) = true)
    ∧ (let s := { holds sm [pkt 5 0x51 .queued [0, 1, 0, 0]] with keys := [] }
       let u := s.rput .pkRetired [0] 1
       (u.takeFw 5 0x51).map (fun x => (x.1.memRegion 0 2 0 64, (x.1.homePlace 0).map fun pl => (x.1.pcDown pl.pc).isSome)) = some (none, some true)
       ∧ after (exec (.repair 5) u) (fun t => decide ((answer t 5).map (·.2.1) = some 0 ∧ (answer t 5).map (·.1) ≠ some .done)) = true)
    ∧ (let s := holds sd [pkt 5 0x51 .queued [0, 1, 0, 0]]
       (s.takeFw 5 0x51).map (fun x => (x.1.repairRow 0 0 0 1).isSome) = some true ∧ after (exec (.repair 5) s) (fun _ => true) = true)
    ∧ (let s := holds sd [pkt 5 0x51 .queued [0, 2, 0, 0]]
       (s.takeFw 5 0x51).map (fun x => (x.1.repairRow 0 0 0 2).isSome) = some false
       ∧ after (exec (.repair 5) s) (fun t => decide (answer t 5 = some (.noSpace, 0, 2, 0))) = true) := by decide +kernel

theorem witness_stacksReset :
    (let s := sm.setPcc 448 { Pcc.init with bucket := 3, rq := [rdEnt 0 place0] }
     trising s.regs = true ∧ s.packets = []
     ∧ after (exec (.sreset 7 goodStack) s) (fun t => decide (t.link 7 = 2 ∧ t.fget F.scLinkStat_cause [7] = 1 ∧ (t.pcc 448).rq = []
          ∧ tfind t.returns 7 = some ⟨(2 + 5) * tickUs, goodStack, none, false⟩)) = true)
    ∧ (State.sets sm [(F.scLinkStat_state, [7], 4)] |> fun s => idle (.clockLoss 7 goodStack) s = true)
    ∧ (let r : Return := ⟨0, goodStack, none, false⟩
       let s := { State.sets sm [(F.scLinkStat_state, [7], 2)] with returns := [(7, r)] }
       let sound := { goodStack with ident := BitVec.allOnes 64 }
       tfind s.returns 7 = some r ∧ ((State.sets s [(F.pkFuseStat_pop, [], 255)]).train 7 sound).2 = some []
       ∧ (let u := { s with returns := [(7, { r with fill := some [] })] }
          (tfind (u.returnStack 7).returns 7).map (·.copying) = some true)
       ∧ (let bad := { goodStack with present := false }
          (s.train 7 bad).2 = none))
    ∧ (sm.link 7 = 3 ∧ after (exec (.clockLoss 7 goodStack) sm) (fun t => decide (t.fget F.scLinkStat_cause [7] = 2 ∧ t.link 6 = 3)) = true) := by
  decide +kernel

theorem witness_channelsAreTrained :
    after (exec (.caParityError 7 31) sm) (fun t => decide (tget [] (t.linkOf 7).parity 31 = [0])) = true
    ∧ (let s := sm.setLinkOf 7 { sm.linkOf 7 with parity := [(31, List.replicate 15 0)] }
       s.stackUp 7 = true
       ∧ after (exec (.caParityError 7 31) s) (fun t => decide (bit (t.linkOf 7).due 31 = true ∧ tget [] (t.linkOf 7).parity 31 = [])) = true)
    ∧ idle (.caParityError 7 31) s0 = true
    ∧ (let s := sm.setLinkOf 7 { sm.linkOf 7 with due := 2 ^ 31, parityDue := 2 ^ 31 }
       s.link 7 = 3 ∧ s.channelDue 7 31 = true ∧ s.passMay 7 31 = true ∧ s.passReady 7 31 = true ∧ (s.askPort 7 1).owns 7 1 = true
       ∧ after (exec (.retrainPass 7 31 (some (8, 10))) s) (fun t => decide (bit (t.linkOf 7).due 31 = false ∧ t.ladder = [.lane 7 31 8 10])) = true
       ∧ after (exec (.retrainDeferExpire 7 31) s) (fun t => decide (bit (t.linkOf 7).due 31 = false ∧ t.ladder = [])) = true
       ∧ idle (.retrainPass 7 30 none) s0 = true ∧ idle (.retrainPass 7 31 none) (State.sets s [(F.scLinkStat_state, [7], 4)]) = true
       ∧ idle (.retrainDeferExpire 7 31) s0 = true
       ∧ (let u := { s with arbs := [(7, held 0)] }
          (u.askPort 7 1).owns 7 1 = false
          ∧ after (exec (.retrainPass 7 31 none) u) (fun t => decide (t = u.askPort 7 1 ∧ bit (t.linkOf 7).due 31 = true)) = true
          ∧ after (exec (.laneRepair 7 31 8 10 3) { u with ladder := [.lane 7 31 8 10] }) (fun t => decide (t.ladder = [.lane 7 31 8 10])) = true))
    ∧ (let s := { sm with ladder := [.lane 7 31 8 10] }
       s.channelPcs 7 31 ≠ [] ∧ laneOut (s.devLanes 7 31) 8 = 15
       ∧ after (exec (.laneRepair 7 31 8 10 3) s) (fun t => decide (laneOut (t.devLanes 7 31) 8 = 10 ∧ t.stackLanes 7 31 = t.devLanes 7 31 ∧ t.ladder = [])) = true
       ∧ after (exec (.laneRepair 7 31 8 10 1) s) (fun t => decide (laneEpoch (t.devLanes 7 31) = 0)) = true
       ∧ idle (.laneRepair 7 31 8 9 3) s = true)
    ∧ (let s := { sm with
         ladder := [.lane 7 31 8 10]
         laneMaps := [(255, 0x3FFFFFFFF)] }
       laneOut (s.devLanes 7 31) 8 ≠ 15 ∧ laneOut (s.devLanes 7 31) 8 ≠ 10
       ∧ after (exec (.laneRepair 7 31 8 10 0) s) (fun t => decide (t.ladder.all (fun j => j = .retire 510 true || j = .retire 511 true) = true ∧ t.ladder ≠ [])) = true) := by
  decide +kernel

theorem witness_linkModes :
    (let s := State.sets sm [(F.scSrefCfg_en, [7], 1)]
     s.link 7 = 3 ∧ s.quiet 7 = true ∧ s.waitsFor 7 = false ∧ (s.arb 7).owner = none
     ∧ after (exec (.srefEntry 7) s) (fun t => decide (t.link 7 = 4 ∧ t.fget F.scSrefStat_entries [7] = 1)) = true
     ∧ idle (.srefEntry 7) (State.sets sm [(F.scSrefCfg_en, [7], 0)]) = true ∧ idle (.srefExit 7) s = true)
    ∧ (let s := State.sets (smReq .read) [(F.scLinkStat_state, [0], 4), (F.glOpStat_op, [], 1)]
       s.link 0 = 4 ∧ s.waitsFor 0 = true ∧ s.fget F.glOpStat_op = 1 ∧ s.srefDrift 0 = false
       ∧ (let u := { s.setLinkOf 0 { s.linkOf 0 with srefTemp := 90 } with arbs := [(0, held 0)] }
          u.srefDrift 0 = true ∧ (u.askPort 0 1).owns 0 1 = false ∧ after (exec (.srefExit 0) u) (fun t => decide (t = u.askPort 0 1)) = true)
       ∧ after (exec (.srefExit 0) s) (fun t => decide (t.link 0 = 3 ∧ t.clk.now = 1238 * 8 + 496 * 8)) = true)
    ∧ (let s := holds sm [pkt 5 0x52 .queued [7 + 16 + 64 * 0]]
       (s.takeFw 5 0x52).map (fun x => x.1.link 7) = some 3
       ∧ after (exec (.retrain 5 ⟨77, []⟩) s) (fun t => decide (answer t 5 = some (.done, 32, 77, 0))) = true
       ∧ after (exec (.retrain 5 ⟨77, []⟩) (State.sets s [(F.scLinkStat_state, [7], 2)])) (fun t => decide (answer t 5 = some (.unavailable, 0, 0, 0))) = true
       ∧ (let u := { s with arbs := [(7, held 0)] }
          (u.askPort 7 1).owns 7 1 = false ∧ after (exec (.retrain 5 ⟨77, []⟩) u) (fun t => decide (t = u.askPort 7 1)) = true)
       ∧ (let u := s.setPcc 511 { Pcc.init with banks := [(0, { Bank.init with debt := 4 })] }
          u.passReady 7 31 = false ∧ idle (.retrain 5 ⟨77, []⟩) u = true))
    ∧ (let s := holds sm [pkt 5 0x52 .queued [7 + 32 + 31 * 256]]
       laneOk 8 10 = true ∧ laneOut (s.devLanes 7 31) 8 = 15
       ∧ after (exec (.retrain 5 ⟨77, [(8, 10)]⟩) s) (fun t => decide (answer t 5 = some (.done, 1, 77, 0) ∧ laneOut (t.devLanes 7 31) 8 = 10)) = true)
    ∧ (let s := (holds sm [pkt 5 0x52 .queued [7 + 31 * 256]]).rput .pkRetired [7] (BitVec.allOnes 64)
       s.retrainChans 7 (7 + 31 * 256) = [] ∧ after (exec (.retrain 5 ⟨77, []⟩) s) (fun t => decide (answer t 5 = some (.done, 0, 0, 0))) = true)
    ∧ (let s := State.sets (holds sm [pkt 5 0x53 .queued [1]]) [(F.glOpStat_op, [], 1)]
       after (exec (.oppoint 5 50) s) (fun t => decide (answer t 5 = some (.done, 0, 0, 0) ∧ t.clk.now = 0)) = true)
    ∧ (let s := State.sets (holds sm [pkt 5 0x53 .queued [0]]) [(F.glOpStat_op, [], 1)]
       s.fget F.scStackId_qual_op0 [7] = 0
       ∧ after (exec (.oppoint 5 50) s) (fun t => decide (answer t 5 = some (.malformed, 0, 0, 0))) = true
       ∧ (let u := State.sets s ((List.range 8).map fun k => (F.scStackId_qual_op0, [k], 1))
          (u.takeFw 5 0x53).isSome = true ∧ u.fget F.glOpStat_op = 1 ∧ ∀ j < 8, u.link j = 0 ∨ u.fget F.scStackId_qual_op0 [j] ≠ 0)) := by
  decide +kernel

theorem witness_bankSpare :
    let s := { sm with
      ladder := [.bank 0 5]
      descs := [(4, sysDesc 4), (8, rootDesc 0 4 0 0)] }
    s.inService 0 = true ∧ s.spareOf 0 5 = none ∧ (s.spareRoom 0 5).isSome = true
    ∧ after (exec (.bankSpare 0 0 5) s) (fun _ => true) = true := by decide +kernel

/-- The stacks' own number of soft spare rows is not known to the device's description: with none left nothing happens, and with
one the repair runs. -/
theorem witness_softRepair :
    (let s := { sm with
       remaps := [(28672 + 4095, ⟨63, 63, 9, 0, false⟩)]
       repairs := [(7, List.replicate (Config.softSpares 7) ⟨63, 63, 0, true, false⟩)] }
     tfind s.remaps (4096 * 7 + 4095) = some ⟨63, 63, 9, 0, false⟩ ∧ s.softLeft 7 63 63 = 0)
    ∧ (let s := { sm with remaps := [(28672 + 4095, ⟨63, 63, 9, 0, false⟩)] }
       tfind s.remaps (4096 * 7 + 4095) = some ⟨63, 63, 9, 0, false⟩ ∧ s.inService 511 = true
       ∧ s.softLeft 7 63 63 = Config.softSpares 7) := by
  refine ⟨⟨by decide +kernel, ?_⟩, by decide +kernel, by decide +kernel, ?_⟩
  · simp [State.softLeft, State.repairsOf, tget, tfind]
  · have h : sm.repairs = [] := by decide +kernel
    simp [State.softLeft, State.repairsOf, tget, tfind, h]

/-! ## The map registers and snapshots -/

theorem witness_mapIsApplied :
    (let d := rootDesc 0 4 0 0
     let s := ((((s0.pput 1 .glMapSel [] 4095).pput 1 .glMapData [0] d.d0).pput 1 .glMapData [1] d.d1).pput 1 .glMapData [2] d.d2).pput 1 .glMapData [3] d.d3
     s.pathOk 1 true = true ∧ s.locked = false ∧ bits (s.pget 1 .glMapSel []).toNat 0 12 = 4095 ∧ s.fget F.glMapCtl_applied = 0
     ∧ s.staged 1 = d ∧ d.check1 = true
     ∧ after (exec (.mapDescWrite 1) s) (fun t => decide (t.desc 4095 = d)) = true
     ∧ after (exec (.mapDescWrite 1) (State.sets s [(F.glMapCtl_applied, [], 1)])) (fun t => decide (t.fget F.glMapErr_desc_err = 1)) = true
     ∧ after (exec (.mapDescWrite 1) (State.sets s [(F.btLock_lock, [], 1)])) (fun t => decide (t.fget F.glRegErr_lock_viol = 1)) = true
     ∧ after (exec (.mapDescWrite 1) ((s0.pput 1 .glMapSel [] 8).pput 1 .glMapData [0] 1))
         (fun t => decide (t.fget F.glMapErr_desc_err = 1 ∧ t.fget F.glMapErr_first_idx = 8 ∧ t.fget F.glMapErr_first_check = 1)) = true
     ∧ after (exec (.mapDescWrite 1) s0) (fun t => decide (t.fget F.glMapErr_desc_err = 1)) = true)
    ∧ (let s := { s0 with descs := [(8, rootDesc 0 4 0 0)] }
       s.locked = false ∧ s.stripRetired.mapFail = none ∧ after (exec (.mapApply 0) s) (fun t => decide (t.fget F.glMapCtl_applied = 1)) = true)
    ∧ (let s := { s0 with descs := [(8, rootDesc 0 4 0 0), (9, rootDesc 0 4 0 8)] }
       s.stripRetired.mapFail = some (8, 5)
       ∧ after (exec (.mapApply 0) s) (fun t => decide (t.fget F.glMapCtl_applied = 0 ∧ t.fget F.glMapErr_tree_err = 1)) = true)
    ∧ (let s := State.sets sm [(F.btLock_lock, [], 1)]
       s.locked = true ∧ idle (.mapApply 1) s = true)
    ∧ (sm.fget F.glMapCtl_applied ≠ 0 ∧ after (exec (.btLockSet 0) sm) (fun t => decide (t.locked = true)) = true)
    ∧ (s0.fget F.glMapCtl_applied = 0 ∧ after (exec (.btLockSet 0) s0) (fun t => decide (t.locked = false ∧ t.fget F.btErr_early_lock = 1)) = true) := by
  decide +kernel

/-- Paths that may not write: the debug port is shut, and the management chain waits for interpreter 3. -/
theorem witness_mapIsApplied_waits :
    (let s := { s0 with interps := [(3, { Interp.init with reload := true })] }
     s.pathOk 1 true = false ∧ s.cut = false
     ∧ after (exec (.btLockSet 1) s) (fun t => decide (t.mgmtQ = [.registerWrite 1 (Reg.btLock.addr []) 8 1])) = true
     ∧ (∀ c ∈ [Instr.mapDescWrite 1, .mapApply 1, .mapSnapshot 1 4095, .grSnapshot 1 262143, .dirSnapshot 1 (2 ^ 25 - 1), .remapSnapshot 1 7 4095],
          after (exec c s) (fun t => decide (t = { s with mgmtQ := [c] })) = true))
    ∧ (s0.pathOk 2 true = false
       ∧ (∀ c ∈ [Instr.btLockSet 2, .mapDescWrite 2, .mapApply 2, .mapSnapshot 2 4095, .grSnapshot 2 262143, .dirSnapshot 2 (2 ^ 25 - 1),
            .remapSnapshot 2 7 4095], idle c s0 = true)) := by
  decide +kernel

theorem witness_tablesAreSnapped :
    after (exec (.mapSnapshot 1 8) sm) (fun t => decide (t.staged 1 = sm.desc 8 ∧ t.staged 0 = Desc.zero)) = true
    ∧ after (exec (.grSnapshot 0 262143) { s0 with streams := [(262143, ⟨.opened, 5, 0, 0, 0, 0, 0, 0, 0, 0, 0, 0, []⟩)] })
        (fun t => decide (t.pget 0 .lgGrData [0] = 1 + 16 * 5)) = true
    ∧ (sr.dirDown 0 = false ∧ after (exec (.dirSnapshot 0 0) sr) (fun t => decide (t.pget 0 .trDirData [0] = BitVec.ofNat 64 (sr.seg 0).words.1)) = true)
    ∧ (s0.dirDown (2 ^ 25 - 1) = true ∧ after (exec (.dirSnapshot 0 (2 ^ 25 - 1)) s0) (fun t => decide (t.free = 2)) = true)
    ∧ (let s := { s0 with remaps := [(28672 + 4095, ⟨63, 63, 24575, 3, true⟩)] }
       after (exec (.remapSnapshot 1 7 4095) s) (fun t => decide (bits (t.pget 1 .scRemapData [7]).toNat 14 15 = 24575 ∧ bit (t.pget 1 .scRemapData [7]).toNat 31 = true)) = true
       ∧ after (exec (.remapSnapshot 1 7 4094) s) (fun t => decide (t.pget 1 .scRemapData [7] = 0)) = true) := by decide +kernel

/-! ## Streams and attention -/

/-- A granule stored in a group. -/
def putG (s : State) (root x : Nat) (g : Granule) : State :=
  match s.placeIn root x with
  | some p => (s.storeSector p 0 false (gSector g 0)).storeSector p 1 false (gSector g 1)
  | none => s

/-- Lodging pool 0 and the metadata pool, each 4 MiB of pseudo-channel 0. -/
def sl : State :=
  { State.sets sd [(F.lgMetaCfg_en, [], 1), (F.lgMetaCfg_desc, [], 9), (F.lgMetaCfg_frames, [], 16), (F.lgPoolCfg_en, [0], 1),
      (F.lgPoolCfg_desc, [0], 10), (F.lgPoolCfg_frames, [0], 16)] with
    descs := [(8, rootDesc 0 4 0 0), (9, { rootDesc 0 4 4 0 with d3 := 1 }), (10, { rootDesc 0 4 8 0 with d3 := 1 })] }

/-- BF16 keys of 32 elements that are the values too, one layer, on pool 0. -/
def layout0 : Nat := 1 + 15 * 16 + 2 ^ 40
/-- Stream 0 with a number of tokens; its root directory page is frame 0, its directory page frame 1. -/
def stream0 (len : Nat) : Stream := ⟨.opened, 0, len, 0, 0, layout0, 12, 0, 0, 1, 0, 0, []⟩
/-- Page 0 of the stream is frame 0 of pool 0. -/
def ss (len : Nat) : State :=
  { putG (putG (putG sl 9 0 (1 + 2 ^ 63)) 9 lgFrame 1) 10 0 0 with
    streams := [(0, stream0 len)]
    lgUsed := [(0, 1), (2 ^ 20 * 8, 1), (2 ^ 20 * 8 + 1, 1)] }

theorem witness_streamsOpen :
    (let s := holds (State.sets sl [(F.lgMetaCfg_en, [], 0)]) [pkt 5 0x10 .queued [layout0]]
     (s.takeFw 5 0x10).isSome = true ∧ after (exec (.streamOpen 5) s) (fun t => decide (answer t 5 = some (.denied, 0, 0, 0))) = true)
    ∧ (let s := holds sl [pkt 5 0x10 .queued [layout0]]
       layoutOk layout0 = true ∧ (s.takeFw 5 0x10).isSome = true ∧ firstGap s.streams 0 = 0
       ∧ (s.takeMeta 0).map (·.2) = some 0 ∧ ((s.takeMeta 0).bind fun x => (x.1.takeMeta 0).map (·.2)) = some 1) := by decide +kernel

/-- A pool without free frames, a page that the append cannot take, a CLOSE that goes on, and one of a stream without a directory. -/
theorem witness_streamsStop :
    (let s := holds (State.sets sl [(F.lgMetaCfg_frames, [], 0)]) [pkt 5 0x10 .queued [layout0]]
     ((s.takeFw 5 0x10).map fun x => (x.1.takeMeta 0).isNone) = some true
     ∧ after (exec (.streamOpen 5) s) (fun t => decide (answer t 5 = some (.noSpace, 0, 0, 0) ∧ t.fget F.lgErr_meta_empty = 1)) = true)
    ∧ (let s := holds (State.sets sl [(F.lgMetaCfg_frames, [], 1)]) [pkt 5 0x10 .queued [layout0]]
       ((s.takeFw 5 0x10).map fun x => (x.1.takeMeta 0).map fun y => (y.1.takeMeta 0).isNone) = some (some true)
       ∧ after (exec (.streamOpen 5) s) (fun t => decide (answer t 5 = some (.noSpace, 0, 0, 0))) = true)
    ∧ (let s := holds (ss 1) [pkt 5 0x11 .waiting [0, 8 * 2 ^ 20, 1] 0]
       after (exec (.streamAppend 5) s) (fun t => decide (answer t 5 = some (.malformed, 0, 0, 0) ∧ t.streams = s.streams)) = true)
    ∧ (let s := holds { ss 1 with streams := [(0, { stream0 1 with st := .closing })] } [pkt 5 0x12 .running []]
       (s.live 5 0x12).map (·.st) = some .running
       ∧ after (exec (.streamClose 5) s) (fun t => decide (t.streams = [] ∧ (answer t 5).map (·.1) = some .done)) = true)
    ∧ (let s := holds { ss 1 with streams := [(0, { stream0 1 with st := .metaLost })] } [pkt 5 0x12 .queued []]
       (s.takeFw 5 0x12).map (fun x => x.1.streamRefused x.2) = some none
       ∧ after (exec (.streamClose 5) s) (fun t => decide (t.streams = [] ∧ answer t 5 = some (.done, 0, 0, 0) ∧ t.lgUsed.length = 3)) = true) := by
  decide +kernel

theorem witness_streamsGrow :
    (let s := holds (ss 1) [pkt 5 0x11 .waiting [0, 0, 2] 0]
     s.streamBusy (pkt 5 0x11 .waiting [0, 0, 2]) [0x11] = false ∧ s.evicting (pkt 5 0x11 .waiting [0, 0, 2]) = false
     ∧ (s.takeFast 5 0x11).map (fun x => x.1.streamRefused x.2) = some none
     ∧ (stream0 1).appendRefused 2 1 0 1 = some .malformed
     ∧ after (exec (.streamAppend 5) s) (fun t => decide (answer t 5 = some (.malformed, 0, 0, 0))) = true)
    ∧ (let s := holds (ss 1) [pkt 5 0x11 .waiting [0, 0, 1] 0]
       (stream0 1).appendRefused 1 1 0 1 = none
       ∧ after (exec (.streamAppend 5) s) (fun t => decide (answer t 5 = some (.done, 1, 0, 0) ∧ (tfind t.streams 0).map (·.length) = some 2)) = true)
    ∧ (let s := holds { ss 1 with streams := [(0, { stream0 1 with tenant := 3 })] } [pkt 5 0x11 .waiting [0, 0, 1] 0]
       after (exec (.streamAppend 5) s) (fun t => decide (answer t 5 = some (.denied, 0, 0, 0))) = true) := by decide +kernel

theorem witness_streamsEnd :
    (let s := holds (ss 1) [pkt 5 0x12 .queued []]
     s.streamBusy (pkt 5 0x12 .running []) [0x11, 0x20, 0x21] = false ∧ (stream0 1).st ≠ .metaLost
     ∧ after (exec (.streamClose 5) s) (fun t => decide (t.streams = [] ∧ t.lgUsed = [] ∧ (answer t 5).map (·.1) = some .done)) = true)
    ∧ (let s := holds (ss 1) [pkt 4 0x20 .running [], pkt 5 0x12 .queued []]
       s.streamBusy (pkt 5 0x12 .running []) [0x11, 0x20, 0x21] = true
       ∧ after (exec (.streamClose 5) s) (fun t => decide ((tfind t.streams 0).map (·.st) = some .closing ∧ answer t 5 = none)) = true)
    ∧ (let s := holds (ss 4096) [pkt 5 0x13 .queued [0, 1]]
       after (exec (.streamEvict 5) s) (fun t => decide (answer t 5 = some (.malformed, 0, 0, 0))) = true)
    ∧ (let s := holds (ss 4096) [pkt 5 0x13 .queued [0, 4096]]
       after (exec (.streamEvict 5) s) (fun t => decide (answer t 5 = some (.done, 1, 0, 0) ∧ tfind t.lgUsed 0 = none)) = true)
    ∧ (let s := holds (ss 4096) [pkt 4 0x20 .running [], pkt 5 0x13 .queued [0, 4096]]
       (s.takeFw 5 0x13).map (fun x => x.1.streamBusy x.2 [0x11, 0x20, 0x21]) = some true
       ∧ after (exec (.streamEvict 5) s) (fun t => decide (t.mem = s.mem ∧ answer t 5 = none)) = true)
    ∧ (idle (.lossWalk 7) s0 = true ∧ after (exec (.lossWalk 7) { s0 with lgWalk := [6, 7] }) (fun t => decide (t.lgWalk = [6])) = true) := by decide +kernel

/-- Words of an ATTN_PARTIAL over tokens 0 to n: scale 1, query at 0, tuples at 64. -/
def partWords (n : Nat) : List Nat := [0, 0x3F800000, 0, 64, 2 ^ 32 * n]

theorem witness_attentionPartial :
    (let s := holds (ss 1) [pkt 5 0x20 .waiting (partWords 2)]
     s.clusterFor 0 = some 0 ∧ (s.takeAttn 5 0x20).map (fun x => (x.1.streamRefused x.2, x.2.partialPrm.fits (stream0 1))) = some (none, true)
     ∧ after (exec (.attnPartial 5) s) (fun t => decide (answer t 5 = some (.malformed, 0, 0, 0))) = true)
    ∧ (let s := holds (ss 1) [pkt 5 0x20 .waiting (partWords 1)]
       after (exec (.attnPartial 5) s) (fun t => decide (answer t 5 = none ∧ (tfind t.attns 5).map (fun r => (r.queue, r.tokens)) = some ([⟨0, 0, 0, 0, 1⟩], 0))) = true)
    ∧ (let s := holds (putG (putG (ss 4096) 8 128 1) 8 192 0) [pkt 5 0x20 .waiting [2 ^ 14, 0x3F800000, 0, 64, 128]]
       (s.takeAttn 5 0x20).map (fun x => ((x.1.readBytes 128 64).2.data % 65536, (x.1.readBytes 192 4).2.data, listOk (stream0 4096) 4096 [0])) = some (1, 0, true)
       ∧ after (exec (.attnPartial 5) s) (fun t => decide ((tfind t.attns 5).map (fun r => r.queue.length) = some 16)) = true)
    ∧ (let s := holds (ss 1) [pkt 5 0x20 .waiting [0, 0x3F800000, 4 * 2 ^ 20, 64, 2 ^ 32]]
       after (exec (.attnPartial 5) s) (fun t => decide (answer t 5 = some (.malformed, 0, 0, 0))) = true) := by decide +kernel

/-- A running ATTN_PARTIAL with blocks to deal. -/
def run0 (bs : List Block) : AttnRun := ⟨0, 0, 1, 0, 1, 0x3F800000, 1, 64, List.replicate 32 0x3F80, bs, [], [], 1, 0, 0, false, none⟩

theorem witness_blocksAreDealt :
    (let s := { (holds (ss 300) [pkt 5 0x20 .running (partWords 300)]) with attns := [(5, run0 [⟨0, 0, 0, 0, 1⟩, ⟨0, 0, 0, 256, 44⟩])] }
     (s.redeal (run0 [⟨0, 0, 0, 0, 1⟩, ⟨0, 0, 0, 256, 44⟩])).isSome = true ∧ s.clusterUp 0 = true
     ∧ after (exec (.engineBlockDeal 5 0 0) s) (fun t => decide ((tfind t.attns 5).map (fun r => (r.queue, r.tokens)) = some ([⟨0, 0, 0, 256, 44⟩], 1))) = true)
    ∧ (let s := { (holds (ss 1) [pkt 5 0x20 .running (partWords 1)]) with attns := [(5, run0 [⟨0, 0, 0, 0, 1⟩])] }
       (s.redeal (run0 [⟨0, 0, 0, 0, 1⟩])).map (fun r => (r.queue, s.engineCore r 0 0, (s.readBlock (stream0 1) ⟨0, 0, 0, 0, 1⟩ (r.passes (stream0 1))).2.st))
          = some ([⟨0, 0, 0, 0, 1⟩], some 0, .ok))
    ∧ (let s := { State.sets (holds (ss 1) [pkt 5 0x20 .running (partWords 1)]) [(F.scLinkStat_state, [0], 2)] with attns := [(5, run0 [⟨0, 0, 0, 0, 1⟩])] }
       after (exec (.engineBlockDeal 5 0 0) s) (fun t => decide (t.attns = [] ∧ (answer t 5).map (·.2.1) = some 0)) = true) := by decide +kernel

theorem witness_attentionSelectsAndMerges :
    (let s := holds (ss 1) [pkt 5 0x21 .waiting [2 ^ 24, 0x3F800000, 0, 64, 0]]
     (s.takeAttn 5 0x21).map (fun x => x.2.selectPrm.fits (stream0 1)) = some true
     ∧ after (exec (.attnSelect 5) s) (fun t => decide (answer t 5 = some (.done, 0, 1, 0))) = true)
    ∧ (let s := holds (ss 1) [pkt 5 0x21 .waiting [2 ^ 24 + 2 ^ 20, 0x3F800000, 0, 64, 8192]]
       after (exec (.attnSelect 5) s) (fun t => decide (answer t 5 = none
          ∧ (tfind t.attns 5).map (·.queue) = some [⟨0, 0, 0, 0, 1⟩] ∧ ((tfind t.attns 5).bind (·.sel)) = some (64, 0, [0], 1))) = true)
    ∧ (let s := holds (putG (putG (putG (ss 1) 8 64 (2 ^ 96)) 8 128 0) 8 192 0) [pkt 5 0x22 .waiting [2 ^ 32, 64, 256]]
       (s.takeAttn 5 0x22).isSome = true ∧ arrivalOrder 1 [] = [0]
       ∧ after (exec (.attnMerge 5 []) s) (fun t => decide (answer t 5 = some (.done, 0, 0, 0))) = true)
    ∧ (let s := holds (ss 1) [pkt 5 0x22 .waiting [2 ^ 32, 4 * 2 ^ 20, 64]]
       after (exec (.attnMerge 5 []) s) (fun t => decide (answer t 5 = some (.malformed, 0, 0, 0))) = true) := by decide +kernel

/-! ## Tensor space and recipes -/

/-- The entry of segment g. -/
def withSeg (s : State) (g : Nat) (st : SegSt) (pin : Bool) : State := s.setSeg g { SegEnt.init with st := st, pin := pin, home := 2 ^ 21 }

theorem witness_segmentsAreMapped :
    (let s := holds sr [pkt 5 0x30 .queued [2 ^ 32 * 2]]
     (s.takeFw 5 0x30).bind (fun x => x.1.mapRefused x.2) = some .malformed
     ∧ after (exec (.tensorMap 5) s) (fun t => decide (answer t 5 = some (.malformed, 0, 0, 0) ∧ t.dir = s.dir)) = true)
    ∧ (let s := holds sr [pkt 5 0x30 .queued [2 ^ 25 - 1 + 2 ^ 32, 2 ^ 22, 2 ^ 8 * 255]]
       (s.takeFw 5 0x30).map (fun x => x.1.mapRefused x.2) = some none
       ∧ after (exec (.tensorMap 5) s) (fun t => decide (answer t 5 = some (.done, 1, 0, 0) ∧ (t.seg (2 ^ 25 - 1)).home = 2 ^ 22
          ∧ (t.seg (2 ^ 25 - 1)).model = 255 ∧ t.seg 0 = s.seg 0)) = true)
    ∧ (let s := holds sr [pkt 5 0x30 .queued [1 + 2 ^ 32 * 2, 2 ^ 22, 2 ^ 8 * 7 + 2 ^ 16 * 3]]
       after (exec (.tensorMap 5) s) (fun t => decide (answer t 5 = some (.overcommit, 2, 0, segBytes * (t.ocDemand - t.ocCapacity))
          ∧ t.ocCapacity < t.ocDemand ∧ t.ocModel 7 = true)) = true)
    ∧ (let s := holds sr [pkt 5 0x30 .queued [2 ^ 32 + 2 ^ 58]]
       (s.takeFw 5 0x30).map (fun x => (x.1.mapRefused x.2, x.2.mapOp)) = some (none, 1)
       ∧ after (exec (.tensorMap 5) s) (fun t => decide (answer t 5 = some (.done, 1, 0, 0) ∧ t.dir = [])) = true) := by decide +kernel

/-- No frame is kept in reserve. -/
def sq0 : State := State.sets sr [(F.trCfg_reserve, [], 0)]

theorem witness_segmentsArePinned :
    (let s := holds sq0 [pkt 5 0x31 .queued [0, 1]]
     (s.takeFw 5 0x31).map (fun x => (x.1.residStop 0 1, x.1.ownSegs 0 0 1, x.1.pinShort x.2)) = some (none, none, false)
     ∧ after (exec (.tensorPin 5) s) (fun t => decide ((tfind t.packets 5).map (fun x => (x.st, x.waits)) = some (.running, [0]))) = true)
    ∧ (let s := holds (withSeg sq0 0 .loc false) [pkt 5 0x31 .queued [0, 1]]
       after (exec (.tensorPin 5) s) (fun t => decide (answer t 5 = some (.done, 1, 0, 0) ∧ (t.seg 0).pin = true)) = true)
    ∧ (let s := holds (withSeg (withSeg (withSeg sq0 0 .far false) 1 .far false) 2 .far false) [pkt 5 0x31 .queued [0, 3]]
       (s.takeFw 5 0x31).map (fun x => x.1.pinShort x.2) = some true
       ∧ after (exec (.tensorPin 5) s) (fun t => decide (answer t 5 = some (.noSpace, 0, 0, 0))) = true)
    ∧ (let s := holds (withSeg sq0 0 .loc true) [pkt 5 0x32 .queued [0, 1]]
       (s.takeFw 5 0x32).map (fun x => (x.1.residStop 0 1, x.1.ownSegs 0 0 1)) = some (none, none)
       ∧ after (exec (.tensorUnpin 5) s) (fun t => decide (answer t 5 = some (.done, 1, 0, 0) ∧ (t.seg 0).pin = false)) = true)
    ∧ (let s := holds sq0 [pkt 5 0x33 .queued [0, 1]]
       after (exec (.prefetch 5) s) (fun t => decide (answer t 5 = some (.done, 1, 0, 0) ∧ t.prefetchQ = [0])) = true)
    ∧ (let s := holds sq0 [pkt 5 0x33 .queued [2 ^ 8 * 7, 1]]
       after (exec (.prefetch 5) s) (fun t => decide (answer t 5 = some (.notFound, 0, 0, 0) ∧ t.prefetchQ = [])) = true) := by decide +kernel

/-- The last row of a gather from segment 0, of one granule, to address 64. -/
def gath : Packet := { pkt 5 0x33 .running [1 + 2 ^ 40, 0, 64, 1] with rows := [0] }
/-- Segment 0 lies in the client root. -/
def sm0 : State := (State.sets sd [(F.trCfg_en, [], 1)]).setSeg 0 { SegEnt.init with st := .mem }

theorem witness_gathersEnd :
    (let s := holds sm0 [gath]
     s.gatherCluster (s.rowStack (unitOffset gath.fmt 0 0)) = some 0
     ∧ after (exec (.prefetch 5) s) (fun t => decide (answer t 5 = some (.done, 0, 0, 0))) = true)
    ∧ (let s := holds (withSeg sm0 0 .fetching false) [gath]
       s.gatherCluster (s.rowStack (unitOffset gath.fmt 0 0)) ≠ none
       ∧ after (exec (.prefetch 5) s) (fun t => decide ((tfind t.packets 5).map (·.waits) = some [0])) = true)
    ∧ (let s := holds { sm0 with clReset := 255 } [gath]
       s.gatherCluster (s.rowStack (unitOffset gath.fmt 0 0)) = none
       ∧ after (exec (.prefetch 5) s) (fun t => decide ((answer t 5).map (fun a => (a.1, a.2.1)) = some (.unavailable, 0))) = true)
    ∧ (let s := holds (withSeg sq0 0 .unmapped false) [pkt 5 0x31 .running [0, 1]]
       (s.live 5 0x31).isSome = true ∧ (s.seg 0).st = .unmapped
       ∧ after (exec (.tensorPin 5) s) (fun t => decide (answer t 5 = some (.unavailable, 0, 0, 0))) = true)
    ∧ (let s := holds (withSeg sq0 0 .loc false) [pkt 5 0x31 .running [0, 1]]
       after (exec (.tensorPin 5) s) (fun t => decide (answer t 5 = some (.done, 1, 0, 0))) = true)
    ∧ (let s := holds (withSeg sq0 0 .fetching false) [pkt 5 0x31 .running [0, 1]]
       after (exec (.tensorPin 5) s) (fun t => decide ((tfind t.packets 5).map (·.waits) = some [0])) = true) := by decide +kernel

theorem test_crc32c_check_value : crc32c [0x31, 0x32, 0x33, 0x34, 0x35, 0x36, 0x37, 0x38, 0x39] = 0xE3069283 := by decide +kernel

theorem witness_recipesAreStored :
    (let s := holds sk [pkt 5 0x40 .queued [1, 0, 0, 0, 63]]
     (s.takeFw 5 0x40).map (fun x => (x.2.stepWords, recipeOk x.2.stepWords)) = some ([63], false)
     ∧ after (exec (.recipeLoad 5) s) (fun t => decide (answer t 5 = some (.malformed, 0, 0, 0) ∧ t.recipes = s.recipes)) = true)
    ∧ (let s := holds sk [pkt 5 0x40 .queued [2, 0, 0, 0, load0, 0]]
       after (exec (.recipeLoad 5) s) (fun t => decide ((t.recipe 33).steps = [BitVec.ofNat 64 load0, 0]
          ∧ answer t 5 = some (.done, 2, 0, (t.recipe 33).handle 33))) = true)
    ∧ (let s := holds sk [pkt 5 0x40 .queued [0, recL.handle 255]]
       s.useHandle 0 (recL.handle 255) = (255, none)
       ∧ after (exec (.recipeLoad 5) s) (fun t => decide ((t.recipe 255).released = true ∧ (t.recipe 255).gen = 0)) = true)
    ∧ (let s := { sk with recipes := [(32, { recE with released := true })] }
       after (exec (.recipeSlotFree 32) s) (fun t => decide (t.recipe 32 = { RecipeSlot.init with gen := 3 })) = true
       ∧ idle (.recipeSlotFree 255) s = true)
    ∧ (let s := holds sk [pkt 5 0x41 .waiting [recE.handle 33, 1 + 2 ^ 32 * 255]]
       (s.takeFast 5 0x41).map (fun x => (x.1.useHandle x.2.tenant (x.2.word 32)).2) = some (some .badHandle)
       ∧ after (exec (.recipeRun 5) s) (fun t => decide (answer t 5 = some (.badHandle, 0, 0, 0))) = true)
    ∧ (let s := holds sk [pkt 5 0x41 .waiting [recL.handle 255, 1 + 2 ^ 32 * 255, 2 ^ 60]]
       after (exec (.recipeRun 5) s) (fun t => decide (answer t 5 = some (.malformed, 0, 0, 0))) = true)
    ∧ (let s := holds sk [pkt 5 0x41 .waiting [recE.handle 32, 1 + 2 ^ 32 * 128]]
       trising s.runs = true ∧ (s.takeFast 5 0x41).map (fun x => x.1.packets.all fun e => decide (e.2.id = e.1)) = some true ∧ s.clusterUp 7 = true
       ∧ after (exec (.recipeRun 5) s) (fun t => decide (answer t 5 = none ∧ (tfind t.runs 5).map (fun r => (r.slot, r.iters, r.cmask, r.cores))
            = some (32, 1, 128, 16))) = true) := by decide +kernel

theorem witness_iterationsRun :
    (let s := { sc (coreOf [0]) with runs := [(5, runE 0)], cores := [] }
     s.coreAt 7 15 = none ∧ s.clusterUp 7 = true ∧ s.nextRun 7 = some (5, runE 0)
     ∧ after (exec (.iterationStart 7 15) s) (fun t => decide ((tfind t.cores 127).map (fun c => (c.iter, c.pc)) = some (0, 0)
          ∧ tfind t.runs 5 = some (runE 1))) = true)
    ∧ idle (.iterationStart 7 15) (sc (coreOf [0])) = true
    ∧ (sd.nextRun 7 = none ∧ idle (.iterationStart 7 15) sd = true)
    ∧ (let s := { sc { coreOf [load0, 0] with extents := [64, 0, 0, 0, 0, 0], prm := [2 ^ 47, 0, 0, 0, 0, 0] } with
         dir := [(0, { SegEnt.init with st := .fetching, frame := 1, home := 2 ^ 21 })] }
       (s.coreAt 7 15).map (fun c => bit (c.base 0 0) 47) = some true
       ∧ after (exec (.streamFetch 7 15 0 0) s) (fun t => decide ((tfind t.packets 5).map (·.waits) = some [0])) = true)
    ∧ (let s := sc { coreOf [0] with ended := true }
       after (exec (.iterationDone 7 15) s) (fun t => decide (tfind t.cores 127 = none ∧ t.fget F.cnStat_iters [7] = 1
          ∧ answer t 5 = some (.done, 1, 0, 0))) = true)
    ∧ idle (.iterationDone 7 15) (sc (coreOf [0])) = true
    ∧ (let s := sc { coreOf [load0, 0] with extents := [64, 0, 0, 0, 0, 0] }
       (s.coreAt 7 15).map (fun c => (c.granules 0 0, (loadSlots c.words).contains 0, c.base 0 0)) = some (1, true, 0)
       ∧ after (exec (.streamFetch 7 15 0 0) s) (fun t => decide (((t.coreAt 7 15).map fun c => ((c.eng 0).buf.map (fun e => (e.1, e.2.1)))) = some [(0, .ok)]))
            = true) := by decide +kernel

theorem witness_clustersReset :
    (let s := sc (coreOf [0])
     after (exec (.clusterReset 7) s) (fun t => decide (t.clusterUp 7 = false ∧ t.clusterUp 0 = true ∧ tfind t.cores 127 = none
        ∧ (tfind t.cores 0).isSome = true ∧ (tfind t.runs 5).map (·.redo) = some [0])) = true
     ∧ after (exec (.clusterResetDone 7) { s with clReset := 255 }) (fun t => decide (t.clReset = 127)) = true
     ∧ (let u := { s with supply := { s.supply with shut := true } }
        u.cut = true ∧ idle (.clusterReset 7) u = true ∧ idle (.coreEnable 7 0) u = true)
     ∧ after (exec (.coreEnable 7 0) s) (fun t => decide (t.fget F.cnCtl_core_en [7] = 0 ∧ t.cores = s.cores)) = true)
    ∧ (sp.runs = [] ∧ sp.attns = [] ∧ after (exec (.coreEnable 0 1) sp) (fun t => decide (t.fget F.cnCtl_core_en [0] = 1)) = true) := by decide +kernel

/-! ## Steps -/

/-- A step command on core 15 of cluster 7 leaves a core with this property. -/
def leads (c : Instr) (s : State) (f : Core → Bool) : Bool := after (exec c s) fun t => ((tfind t.cores 127).map f) = some true

/-- LOOP over 2 passes, RMAX and MAC words used below. -/
def loop2 : Nat := 1 + 2 ^ 6 * 2
def macW : Nat := 8 + 2 ^ 6 * 0x7E + 2 ^ 13 * 0x7E + 2 ^ 20 * 0x40 + 2 ^ 27
def rmaxW : Nat := 9 + 2 ^ 6 * 0x41 + 2 ^ 13 * 0x40 + 2 ^ 20 * 0x5F
def expW : Nat := 0x0A + 2 ^ 6 * 0x7F + 2 ^ 13 * 0x7F + 2 ^ 20 * 0x40
def scaleW : Nat := 0x0B + 2 ^ 6 * 0x7E + 2 ^ 13 * 0x7E + 2 ^ 20 * 0x40 + 2 ^ 35
def topW : Nat := 0x0C + 2 ^ 6 * 0x40 + 2 ^ 13 * 63
def storeW : Nat := 0x10 + 2 ^ 6 * 0x40 + 2 ^ 20 + 2 ^ 22
/-- EMIT of 32 BF16 elements of lane word 0 to slot 1. -/
def emitW : Nat := 0x11 + 2 ^ 16 * 31 + 2 ^ 25 + 2 ^ 29

/-- Scalars 0 and 1 of every engine. -/
def scals (c : Core) (a b : Nat) : Core := { c with engs := List.replicate 4 { Eng.init with scal := [(0, a), (1, b)] } }

theorem witness_controlSteps :
    leads (.endStep 7 15) (sc (coreOf [0])) (·.ended) = true
    ∧ (let c := coreOf [loop2, 2, 0]
       (sc c).coreAt 7 15 = some c ∧ leads (.loopStep 7 15) (sc c) (fun d => d.pc = 1 && d.loops = [⟨0, 1, 0⟩]) = true
       ∧ idle (.endStep 7 15) (sc c) = true ∧ idle (.macStep 7 15) (sc c) = true)
    ∧ (let c := coreOf [1 + 2 ^ 22, 2, 0]
       loopCount c.prm (1 + 2 ^ 22) = 0 ∧ leads (.loopStep 7 15) (sc c) (fun d => d.pc = 2 && d.loops.isEmpty) = true)
    ∧ (let c := { coreOf [loop2, 2, 0] with pc := 1, loops := [⟨0, 1, 0⟩] }
       leads (.endlStep 7 15) (sc c) (fun d => d.pc = 1 && d.loops = [⟨0, 0, 1⟩]) = true)
    ∧ (let c := { coreOf [loop2, 2, 0] with pc := 1, loops := [⟨0, 0, 1⟩] }
       leads (.endlStep 7 15) (sc c) (fun d => d.pc = 2 && d.loops.isEmpty) = true) := by decide +kernel

/-- The four engines hold the granules of their first run. -/
def fed (st : PStatus) : Core :=
  { coreOf [load0, 0] with
    engs := List.replicate 4 { Eng.init with buf := (List.range 16).map fun g => (g, st, BitVec.ofNat 512 (0x3F80 + 2 ^ 16 * 0x4000)) } }

theorem witness_loadSteps :
    ((fed .ok).loadRun load0).isSome = true
    ∧ leads (.loadStep 7 15) (sc (fed .ok)) (fun d => d.pc = 1 && (((d.eng 3).word 0).take 2 = [0x3F800000, 0x40000000]) && tget 0 (d.eng 0).cur 0 = 1024) = true
    ∧ (coreOf [load0, 0]).loadRun load0 = none
    ∧ leads (.loadStep 7 15) (sc (coreOf [load0, 0])) (fun d => d = coreOf [load0, 0]) = true
    ∧ (match (fed .poisoned).loadRun load0 with
       | some (.error (st, a)) => decide (st = .poisoned ∧ a = 0)
       | _ => false) = true
    ∧ after (exec (.loadStep 7 15) (sc (fed .poisoned))) (fun t => decide ((answer t 5).map (·.1) = some .poisoned ∧ t.fget F.cnErr_poison [7] = 1)) = true := by
  decide +kernel

theorem witness_arithmeticSteps :
    leads (.macStep 7 15) (sc (coreOf [macW, 0])) (fun d => d.pc = 1 && (d.eng 0).scalar 0 = 0x44000000) = true
    ∧ leads (.rmaxStep 7 15) (sc (scals (coreOf [rmaxW, 0]) 0x3F800000 0x40400000)) (fun d => (d.eng 3).scalar 0 = 0x40400000 && (d.eng 3).scalar 31 = 0xC0000000)
        = true
    ∧ leads (.expStep 7 15) (sc (coreOf [expW, 0])) (fun d => d.pc = 1) = true
    ∧ leads (.scaleStep 7 15) (sc (scals (coreOf [scaleW, 0]) 0x40000000 0)) (fun d => (d.eng 1).scalar 0 = 0x40400000) = true
    ∧ leads (.topnStep 7 15) (sc (scals (coreOf [topW, 0]) 0x40000000 0)) (fun d => (d.eng 2).top = [(0x40000000, 0)] && (d.eng 2).topN = 64) = true
    ∧ leads (.topnStep 7 15) (sc (scals (coreOf [topW + 2 ^ 21, 0]) 0x7FC00000 0)) (fun d => (d.eng 2).top.isEmpty) = true
    ∧ leads (.storeStep 7 15) (sc (scals (coreOf [storeW, 0]) 1 2)) (fun d => ((d.eng 0).word 0).take 3 = [1, 2, 0]) = true := by decide +kernel

theorem witness_emitStep :
    (let s := sc { coreOf [emitW, 0] with prm := [0, 2 ^ 48 * 11, 0, 0, 0, 0] }
     s.coreAt 7 15 ≠ none ∧ after (exec (.emitStep 7 15) s) (fun t => decide (((t.coreAt 7 15).map fun d => (d.pc, tget 0 (d.eng 3).cur 1)) = some (1, 64)
        ∧ (t.readMem 0).2.2.2 = 0)) = true) := by decide +kernel

end Sys2Proof.Tests
end

