-- ==== Sys2Proof/Proofs/Scope.lean ====
section
/-! The obligations of spec/00_scope.md: what every command does to the state as a whole, what a step without a command does, and the
accesses of the register window. -/
namespace Sys2Proof.Machine

/-! ## What every command may change -/

/-- A state that follows another within the set of a list differs from it in the list's components only. -/
theorem State.Follows.only {l : List Field} {s t : State} (h : s.Follows (fieldMask l) t) : s.only t l :=
  ⟨h.queue, fun f hf => h.kept f (fieldMask_not_mem hf)⟩

/-- Each row's own law, with its set of components found in the row's list of Safety. -/
theorem exec_follows {s t : State} (c : Instr) (h : exec c s = .next t) : s.Follows (fieldMask (mayChange c)) t := by
  cases c
  case' coldReset => refine execColdReset_follows (.refl _ s) h ?_
  case' hubWarmReset => refine execHubWarmReset_follows (.refl _ s) h ?_
  case' warmResetRequest => refine execWarmResetRequest_follows (.refl _ s) h ?_
  case' sysinit => refine execSysinit_follows (.refl _ s) h ?_
  case' noKeyTimeout => refine execNoKeyTimeout_follows (.refl _ s) h ?_
  case' btLockSet => refine execBtLockSet_follows (.refl _ s) h ?_
  case' registerWrite => refine execRegisterWrite_follows (.refl _ s) h ?_
  case' read => refine execRead_follows (.refl _ s) h ?_
  case' write => refine execWrite_follows (.refl _ s) h ?_
  case' writeMasked => refine execWriteMasked_follows (.refl _ s) h ?_
  case' atomic => refine execAtomic_follows (.refl _ s) h ?_
  case' apertureWrite => refine execApertureWrite_follows (.refl _ s) h ?_
  case' malformedFlit => refine execMalformedFlit_follows (.refl _ s) h ?_
  case' responseCreditGrant => refine execResponseCreditGrant_follows (.refl _ s) h ?_
  case' fenceHoldRelease => refine execFenceHoldRelease_follows (.refl _ s) h ?_
  case' tenantRelease => refine execTenantRelease_follows (.refl _ s) h ?_
  case' wheelSlot => refine execWheelSlot_follows (.refl _ s) h ?_
  case' creditReserve => refine execCreditReserve_follows (.refl _ s) h ?_
  case' pccAdmit => refine execPccAdmit_follows (.refl _ s) h ?_
  case' act => refine execAct_follows (.refl _ s) h ?_
  case' pre => refine execPre_follows (.refl _ s) h ?_
  case' rd => refine execRd_follows (.refl _ s) h ?_
  case' wr => refine execWr_follows (.refl _ s) h ?_
  case' refpb => refine execRefpb_follows (.refl _ s) h ?_
  case' escapementTick => refine execEscapementTick_follows (.refl _ s) h ?_
  case' readReturn => refine execReadReturn_follows (.refl _ s) h ?_
  case' ueReread => refine execUeReread_follows (.refl _ s) h ?_
  case' ceLeak => refine execCeLeak_follows (.refl _ s) h ?_
  case' mergeRelease => refine execMergeRelease_follows (.refl _ s) h ?_
  case' frameStart => refine execFrameStart_follows (.refl _ s) h ?_
  case' portReset => refine execPortReset_follows (.refl _ s) h ?_
  case' portResetRelease => refine execPortResetRelease_follows (.refl _ s) h ?_
  case' portReady => refine execPortReady_follows (.refl _ s) h ?_
  case' portEnable => refine execPortEnable_follows (.refl _ s) h ?_
  case' portDisable => refine execPortDisable_follows (.refl _ s) h ?_
  case' portDrainDone => refine execPortDrainDone_follows (.refl _ s) h ?_
  case' farResponse => refine execFarResponse_follows (.refl _ s) h ?_
  case' farTimeout => refine execFarTimeout_follows (.refl _ s) h ?_
  case' parsePacket => refine execParsePacket_follows (.refl _ s) h ?_
  case' progressWrite => refine execProgressWrite_follows (.refl _ s) h ?_
  case' progressRetry => refine execProgressRetry_follows (.refl _ s) h ?_
  case' fwQueueAdmit => refine execFwQueueAdmit_follows (.refl _ s) h ?_
  case' packetCommit => refine execPacketCommit_follows (.refl _ s) h ?_
  case' copy => refine execCopy_follows (.refl _ s) h ?_
  case' fill => refine execFill_follows (.refl _ s) h ?_
  case' copyChannelStart => refine execCopyChannelStart_follows (.refl _ s) h ?_
  case' scrub => refine execScrub_follows (.refl _ s) h ?_
  case' migrate => refine execMigrate_follows (.refl _ s) h ?_
  case' streamOpen => refine execStreamOpen_follows (.refl _ s) h ?_
  case' streamAppend => refine execStreamAppend_follows (.refl _ s) h ?_
  case' streamClose => refine execStreamClose_follows (.refl _ s) h ?_
  case' streamEvict => refine execStreamEvict_follows (.refl _ s) h ?_
  case' attnPartial => refine execAttnPartial_follows (.refl _ s) h ?_
  case' attnSelect => refine execAttnSelect_follows (.refl _ s) h ?_
  case' attnMerge => refine execAttnMerge_follows (.refl _ s) h ?_
  case' engineBlockDeal => refine execEngineBlockDeal_follows (.refl _ s) h ?_
  case' lossWalk => refine execLossWalk_follows (.refl _ s) h ?_
  case' tensorMap => refine execTensorMap_follows (.refl _ s) h ?_
  case' tensorPin => refine execTensorPin_follows (.refl _ s) h ?_
  case' tensorUnpin => refine execTensorUnpin_follows (.refl _ s) h ?_
  case' prefetch => refine execPrefetch_follows (.refl _ s) h ?_
  case' segmentFetchStart => refine execSegmentFetchStart_follows (.refl _ s) h ?_
  case' segmentFetchDone => refine execSegmentFetchDone_follows (.refl _ s) h ?_
  case' recipeLoad => refine execRecipeLoad_follows (.refl _ s) h ?_
  case' recipeRun => refine execRecipeRun_follows (.refl _ s) h ?_
  case' recipeSlotFree => refine execRecipeSlotFree_follows (.refl _ s) h ?_
  case' iterationStart => refine execIterationStart_follows (.refl _ s) h ?_
  case' iterationDone => refine execIterationDone_follows (.refl _ s) h ?_
  case' streamFetch => refine execStreamFetch_follows (.refl _ s) h ?_
  case' endStep => refine execEndStep_follows (.refl _ s) h ?_
  case' loopStep => refine execLoopStep_follows (.refl _ s) h ?_
  case' endlStep => refine execEndlStep_follows (.refl _ s) h ?_
  case' loadStep => refine execLoadStep_follows (.refl _ s) h ?_
  case' macStep => refine execMacStep_follows (.refl _ s) h ?_
  case' rmaxStep => refine execRmaxStep_follows (.refl _ s) h ?_
  case' expStep => refine execExpStep_follows (.refl _ s) h ?_
  case' scaleStep => refine execScaleStep_follows (.refl _ s) h ?_
  case' topnStep => refine execTopnStep_follows (.refl _ s) h ?_
  case' storeStep => refine execStoreStep_follows (.refl _ s) h ?_
  case' emitStep => refine execEmitStep_follows (.refl _ s) h ?_
  case' clusterReset => refine execClusterReset_follows (.refl _ s) h ?_
  case' clusterResetDone => refine execClusterResetDone_follows (.refl _ s) h ?_
  case' coreEnable => refine execCoreEnable_follows (.refl _ s) h ?_
  case' retire => refine execRetire_follows (.refl _ s) h ?_
  case' repair => refine execRepair_follows (.refl _ s) h ?_
  case' retrain => refine execRetrain_follows (.refl _ s) h ?_
  case' oppoint => refine execOppoint_follows (.refl _ s) h ?_
  case' abort => refine execAbort_follows (.refl _ s) h ?_
  case' fence => refine execFence_follows (.refl _ s) h ?_
  case' fenceDone => refine execFenceDone_follows (.refl _ s) h ?_
  case' checkArm => refine execCheckArm_follows (.refl _ s) h ?_
  case' checkRead => refine execCheckRead_follows (.refl _ s) h ?_
  case' fwTrap => refine execFwTrap_follows (.refl _ s) h ?_
  case' fwReloadDone => refine execFwReloadDone_follows (.refl _ s) h ?_
  case' ringEnable => refine execRingEnable_follows (.refl _ s) h ?_
  case' ringDisable => refine execRingDisable_follows (.refl _ s) h ?_
  case' ringRestart => refine execRingRestart_follows (.refl _ s) h ?_
  case' sreset => refine execSreset_follows (.refl _ s) h ?_
  case' clockLoss => refine execClockLoss_follows (.refl _ s) h ?_
  case' caParityError => refine execCaParityError_follows (.refl _ s) h ?_
  case' retrainPass => refine execRetrainPass_follows (.refl _ s) h ?_
  case' retrainDeferExpire => refine execRetrainDeferExpire_follows (.refl _ s) h ?_
  case' stackTempRead => refine execStackTempRead_follows (.refl _ s) h ?_
  case' stackTempStale => refine execStackTempStale_follows (.refl _ s) h ?_
  case' laneRepair => refine execLaneRepair_follows (.refl _ s) h ?_
  case' softRepair => refine execSoftRepair_follows (.refl _ s) h ?_
  case' rowRemap => refine execRowRemap_follows (.refl _ s) h ?_
  case' bankSpare => refine execBankSpare_follows (.refl _ s) h ?_
  case' autoRetire => refine execAutoRetire_follows (.refl _ s) h ?_
  case' patrolScrub => refine execPatrolScrub_follows (.refl _ s) h ?_
  case' srefEntry => refine execSrefEntry_follows (.refl _ s) h ?_
  case' srefExit => refine execSrefExit_follows (.refl _ s) h ?_
  case' mapDescWrite => refine execMapDescWrite_follows (.refl _ s) h ?_
  case' mapApply => refine execMapApply_follows (.refl _ s) h ?_
  case' mapSnapshot => refine execMapSnapshot_follows (.refl _ s) h ?_
  case' grSnapshot => refine execGrSnapshot_follows (.refl _ s) h ?_
  case' dirSnapshot => refine execDirSnapshot_follows (.refl _ s) h ?_
  case' remapSnapshot => refine execRemapSnapshot_follows (.refl _ s) h ?_
  case' tqSnapshot => refine execTqSnapshot_follows (.refl _ s) h ?_
  case' tqConfig => refine execTqConfig_follows (.refl _ s) h ?_
  case' gateEnable => refine execGateEnable_follows (.refl _ s) h ?_
  case' gateDisable => refine execGateDisable_follows (.refl _ s) h ?_
  case' gateSwap => refine execGateSwap_follows (.refl _ s) h ?_
  case' gateSwapTake => refine execGateSwapTake_follows (.refl _ s) h ?_
  case' arbRequest => refine execArbRequest_follows (.refl _ s) h ?_
  case' arbDrop => refine execArbDrop_follows (.refl _ s) h ?_
  case' arbGrant => refine execArbGrant_follows (.refl _ s) h ?_
  case' arbSeize => refine execArbSeize_follows (.refl _ s) h ?_
  case' arbRevoke => refine execArbRevoke_follows (.refl _ s) h ?_
  case' watchdogBite => refine execWatchdogBite_follows (.refl _ s) h ?_
  case' quotaWindow => refine execQuotaWindow_follows (.refl _ s) h ?_
  case' prioWrite => refine execPrioWrite_follows (.refl _ s) h ?_
  case' interp3Rerequest => refine execInterp3Rerequest_follows (.refl _ s) h ?_
  case' sensorConversion => refine execSensorConversion_follows (.refl _ s) h ?_
  case' throttleDwell => refine execThrottleDwell_follows (.refl _ s) h ?_
  case' comparatorTrip => refine execComparatorTrip_follows (.refl _ s) h ?_
  case' thermalRestart => refine execThermalRestart_follows (.refl _ s) h ?_
  case' failAck => refine execFailAck_follows (.refl _ s) h ?_
  case' hairspringCalibrate => refine execHairspringCalibrate_follows (.refl _ s) h ?_
  case' powerEstimate => refine execPowerEstimate_follows (.refl _ s) h ?_
  case' powerWindowExpire => refine execPowerWindowExpire_follows (.refl _ s) h ?_
  case' powerSkipRelax => refine execPowerSkipRelax_follows (.refl _ s) h ?_
  case' powerWindowRearm => refine execPowerWindowRearm_follows (.refl _ s) h ?_
  case' powerGrantWithdraw => refine execPowerGrantWithdraw_follows (.refl _ s) h ?_
  case' vddFall => refine execVddFall_follows (.refl _ s) h ?_
  case' vddRestore => refine execVddRestore_follows (.refl _ s) h ?_
  case' vaonLoss => refine execVaonLoss_follows (.refl _ s) h ?_
  case' hoursTick => refine execHoursTick_follows (.refl _ s) h ?_
  case' nvmWordWrite => refine execNvmWordWrite_follows (.refl _ s) h ?_
  case' keyLoad => refine execKeyLoad_follows (.refl _ s) h ?_
  case' keyClear => refine execKeyClear_follows (.refl _ s) h ?_
  case' keyClearDone => refine execKeyClearDone_follows (.refl _ s) h ?_
  case' lcQuery => refine execLcQuery_follows (.refl _ s) h ?_
  case' lcChange => refine execLcChange_follows (.refl _ s) h ?_
  case' dbgGrant => refine execDbgGrant_follows (.refl _ s) h ?_
  case' dbgRevoke => refine execDbgRevoke_follows (.refl _ s) h ?_
  case' debugExpire => refine execDebugExpire_follows (.refl _ s) h ?_
  case' logClear => refine execLogClear_follows (.refl _ s) h ?_
  case' logClearRequest => refine execLogClearRequest_follows (.refl _ s) h ?_
  case' nonceExpire => refine execNonceExpire_follows (.refl _ s) h ?_
  case' clearZeroingDone => refine execClearZeroingDone_follows (.refl _ s) h ?_
  case' recordWrite => refine execRecordWrite_follows (.refl _ s) h ?_
  case' pmcWrite => refine execPmcWrite_follows (.refl _ s) h ?_
  case' pmcClearAll => refine execPmcClearAll_follows (.refl _ s) h ?_
  case' pmcWrap => refine execPmcWrap_follows (.refl _ s) h ?_
  case' pmcConfig => refine execPmcConfig_follows (.refl _ s) h ?_
  case' publication => refine execPublication_follows (.refl _ s) h ?_
  case' monSnap => refine execMonSnap_follows (.refl _ s) h ?_
  case' levelSample => refine execLevelSample_follows (.refl _ s) h ?_
  case' setEndpointId => refine execSetEndpointId_follows (.refl _ s) h ?_
  case' getEndpointId => refine execGetEndpointId_follows (.refl _ s) h ?_
  case' getEndpointUuid => refine execGetEndpointUuid_follows (.refl _ s) h ?_
  case' getMctpVersionSupport => refine execGetMctpVersionSupport_follows (.refl _ s) h ?_
  case' getMessageTypeSupport => refine execGetMessageTypeSupport_follows (.refl _ s) h ?_
  case' regRead => refine execRegRead_follows (.refl _ s) h ?_
  case' regWrite => refine execRegWrite_follows (.refl _ s) h ?_
  case' entdaa => refine execEntdaa_follows (.refl _ s) h ?_
  case' hotJoin => refine execHotJoin_follows (.refl _ s) h ?_
  case' registerRead => refine execRegisterRead_follows (.refl _ s) h ?_
  case' farCreditReturn => refine execFarCreditReturn_follows (.refl _ s) h ?_
  case' powerGrant => refine execPowerGrant_follows (.refl _ s) h ?_
  case' debugHalt => refine execDebugHalt_follows (.refl _ s) h ?_
  all_goals
    simp only [mayChange]
    rfl

/-- Settles O7: the law of each command, read at the components that its list does not name. -/
theorem commandsLeaveTheRest : Obligations.CommandsLeaveTheRest :=
  fun c _ _ h => (exec_follows c h).only

theorem step_of_nil {s : State} (h : s.pending = []) : step s = .next s.idle := by
  simp only [step, h]

theorem step_of_cons {s : State} {c : Instr} {rest : List Instr} (h : s.pending = c :: rest) :
    step s = exec c { s with pending := rest } := by
  simp only [step, h]

/-- The set is that of the return of a stack (log entry 10). -/
theorem State.idle_follows_self (s : State) : s.Follows 0x402903fa7fdc53 s.idle := State.idle_follows (.refl _ s) rfl

/-- Settles O6: a step is an idle step, or a command on the queue's rest, and both follow the state before. -/
theorem stepOnlyGoesOn : Obligations.StepOnlyGoesOn := by
  intro s t h
  cases hq : s.pending with
  | nil =>
    obtain rfl : s.idle = t := by simpa only [step_of_nil hq, Host.Outcome.next.injEq] using h
    have f := s.idle_follows_self
    exact ⟨f.clock, f.shown, f.ids, f.drawn, f.queue.trans hq⟩
  | cons c rest =>
    have f := exec_follows c (step_of_cons hq ▸ h)
    exact ⟨f.clock, f.shown, f.ids, f.drawn, f.queue⟩

/-! ## Which commands are carried out -/

/-- Every arm of the dispatcher answers a next state exactly when the operands are well formed (log entry 4). The arms listed decide
their bounds together, where the check of WellFormed decides them one by one. -/
theorem exec_eq_onUnit (c : Instr) (s : State) : ∃ t, exec c s = onUnit c.wf t := by
  cases c with
  | portEnable | portDisable | ringEnable | ringDisable | ringRestart | softRepair | rowRemap | bankSpare | mapSnapshot
  | grSnapshot | remapSnapshot | arbRequest | arbDrop | prioWrite =>
    exact ⟨_, congrArg (onUnit · _) (by simp [Instr.wf, isPath, isPort, isRing, isStack, isArb, Bool.and_assoc])⟩
  | dirSnapshot path seg => exact ⟨_, congrArg (onUnit · _) (Bool.decide_coe (isPath path && decide (seg < numSegs)))⟩
  | _ => exact ⟨_, rfl⟩

/-- Settles O3: a command is carried out when its operands are well formed, and otherwise it cannot arrive. -/
theorem wellFormedCommandsComplete : Obligations.WellFormedCommandsComplete := by
  intro c s
  obtain ⟨t, e⟩ := exec_eq_onUnit c s
  rw [e]
  constructor <;> intro w <;> rw [w]
  · exact ⟨t, rfl⟩
  · rfl

/-! ## Steps without a command -/

/-- When time moves forward only the counts of cycles change beside the clock (R494). -/
theorem State.tickTo_counts (s : State) {n : Nat} (h : s.clk.now < n) :
    ({ s with clk := { s.clk with now := n } } : State).Follows 0x2 (s.tickTo n) := by
  unfold State.tickTo
  rw [if_neg (Nat.not_le.mpr h)]
  extract_lets src s1 n s2
  have h2 : s1.Follows 0x2 s2 := State.ev_follows _ _ _ (State.ev_follows _ _ _ (.refl _ s1) rfl) rfl
  refine State.Follows.ite (fun _ => h2) fun _ => State.Follows.foldl (fun u k hu => ?_) _ h2
  extract_lets v
  have hv : s1.Follows 0x2 v := State.Follows.ite (fun _ => State.ev_follows _ _ _ hu rfl) fun _ => hu
  exact State.Follows.ite (fun _ => hv) fun _ => State.ev_follows _ _ _ hv rfl

theorem State.tick_now (s : State) {n : Nat} (h : 0 < n) : (s.tick n).clk.now = s.clk.now + n :=
  congrArg Clocks.now ((s.tickTo_counts (Nat.lt_add_of_pos_right h)).kept .clk rfl)

theorem State.nextReturn_of_nil {s : State} (h : s.returns = []) : s.nextReturn = none := by
  simp [State.nextReturn, h, minBy]

/-- A single stack on its way back is the next to go on, unless its training waits (R239, log entry 72). -/
theorem State.nextReturn_of_single {s : State} {k : Nat} {r : Return} (h : s.returns = [(k, r)])
    (go : r.fill ≠ none ∨ (s.i3up = true ∧ ((s.arb k).owner = none ∨ s.owns k 2 = true))) : s.nextReturn = some (k, r.due) := by
  have ready : (r.fill.isSome || (s.i3up && ((s.arb k).owner.isNone || s.owns k 2))) = true := by
    simpa [Option.isSome_iff_ne_none] using go
  simp only [State.nextReturn, h, List.filter_cons, ready, if_true, List.filter_nil, minBy, Option.map_some]

theorem State.idle_of_none {s : State} (h : s.nextReturn = none) : s.idle = s.tick 3 := by
  simp only [State.idle, h, idleTicks]

theorem State.idle_of_some {s : State} {k due : Nat} (h : s.nextReturn = some (k, due)) :
    s.idle = (s.tickTo due).returnStack k := by
  simp only [State.idle, h]

/-- Settles O2: with an empty queue the step is State.idle, and State.nextReturn says which of its two arms is taken. -/
theorem emptyQueueIdles : Obligations.EmptyQueueIdles := by
  intro s hq
  have idles := step_of_nil hq
  have f := s.idle_follows_self
  refine ⟨State.nextReturn_of_nil, fun hn => ⟨s.tick 3, ?_, s.tick_now (by decide), ?_⟩, fun k r h go => ?_, s.idle, idles,
    f.queue.trans hq, f.clock⟩
  · rw [idles, State.idle_of_none hn]
  · exact State.Follows.only (State.tick_follows 3 (.refl _ s) rfl)
  · rw [idles, State.idle_of_some (State.nextReturn_of_single h go)]

/-! ## Which path reaches the register window (R96, R475) -/

theorem State.mgmt_of_pathOk {s : State} {wr : Bool} (c : Instr) (f : State → State) (h : s.pathOk 1 wr = true) :
    s.mgmt c f = f s := by
  simp only [State.pathOk, Bool.and_eq_true, Bool.not_eq_true', ne_eq, not_true_eq_false, decide_false, Bool.false_or] at h
  obtain ⟨⟨hc, hw⟩, -⟩ := h
  simp [State.mgmt, hc, hw]

theorem State.byPath_of_pathOk {s : State} {path : Nat} (c : Instr) (f : State → State) (h : s.pathOk path true = true) :
    s.byPath path c f = f s := by
  unfold State.byPath
  by_cases hp : path = 1
  · subst hp
    rw [if_pos rfl, State.mgmt_of_pathOk c f h]
  · rw [if_neg hp, if_pos h]

section
variable {s : State} {path off : Nat}

theorem windowOk_of_lt (hp : path < 3) (ho : off < 2 ^ 24) : windowOk path off = true := by
  rw [windowOk, decide_eq_true hp, decide_eq_true ho]; rfl

theorem exec_registerWrite_of_pathOk (size : Nat) (val : Word) (hp : path < 3) (ho : off < 2 ^ 24) (h : s.pathOk path true = true) :
    exec (.registerWrite path off size val) s = .next (s.regWrite path off size val).1 := by
  have e : exec (.registerWrite path off size val) s = execRegisterWrite path off size val s := rfl
  rw [e, execRegisterWrite, windowOk_of_lt hp ho, State.byPath_of_pathOk _ _ h]
  rfl

theorem exec_registerRead_of_pathOk (size : Nat) (hp : path < 3) (ho : off < 2 ^ 24) (h : s.pathOk path false = true) :
    exec (.registerRead path off size) s
      = .next ((s.regRead path off size).1.emit (.regValue path off (s.regRead path off size).2.1)) := by
  have e : exec (.registerRead path off size) s = execRegisterRead path off size s := rfl
  rw [e, execRegisterRead, windowOk_of_lt hp ho]
  by_cases h1 : path = 1
  · subst h1
    rw [if_pos rfl, State.mgmt_of_pathOk _ _ h]
    rfl
  · rw [if_neg h1, if_pos h]
    rfl

theorem exec_regWrite_of_pathOk (val : Word) (ho : off < 2 ^ 24) (h : s.pathOk 1 true = true) :
    exec (.regWrite off val) s
      = .next ((s.regWrite 1 off 8 val).1.emit (.mctp 0x7F02 (b2n (s.regWrite 1 off 8 val).2) [])) := by
  have e : exec (.regWrite off val) s = execRegWrite off val s := rfl
  rw [e, execRegWrite, State.mgmt_of_pathOk _ _ h, decide_eq_true ho]
  rfl

theorem exec_regRead_of_pathOk (ho : off < 2 ^ 24) (h : s.pathOk 1 false = true) :
    exec (.regRead off) s
      = .next ((s.regRead 1 off 8).1.emit (.mctp 0x7F01 (b2n (s.regRead 1 off 8).2.2)
          ((List.range 8).map fun i => bits (s.regRead 1 off 8).2.1.toNat (8 * i) 8))) := by
  have e : exec (.regRead off) s = execRegRead off s := rfl
  rw [e, execRegRead, State.mgmt_of_pathOk _ _ h, decide_eq_true ho]
  rfl

end

/-! ## Registers lie at multiples of 8, each at its own offset (R7, R8) -/

theorem sumBy_eq_sum {α : Type} (f : α → Nat) (l : List α) : sumBy f l = (l.map f).sum := by
  rw [List.sum_eq_foldl, List.foldl_map]; rfl

theorem Reg.table_aligned (r : Reg) : 8 ∣ r.base ∧ ∀ e ∈ r.dims, 8 ∣ e.2 := by
  cases r <;> decide

theorem Reg.addr_aligned (r : Reg) (ix : List Nat) : 8 ∣ r.addr ix := by
  obtain ⟨hb, hd⟩ := r.table_aligned
  unfold Reg.addr
  rw [sumBy_eq_sum]
  refine Nat.dvd_add hb (List.dvd_sum fun x hx => ?_)
  obtain ⟨⟨i, n, st⟩, he, rfl⟩ := List.mem_map.mp hx
  exact Dvd.dvd.mul_left (hd (n, st) (List.of_mem_zip he).2) i

/-- The indexes found for a distance lead that far from the first register. -/
theorem dimIndex_distance : ∀ {dims : List (Nat × Nat)} {d : Nat} {l : List Nat}, dimIndex dims d = some l →
    ((l.zip dims).map fun e => e.1 * e.2.2).sum = d
  | [], d, l, h => by
    unfold dimIndex at h
    split at h
    next hd => cases h; exact hd.symm
    next => cases h
  | (n, st) :: dims, d, l, h => by
    simp only [dimIndex, Option.map_eq_some_iff] at h
    obtain ⟨l', hl, rfl⟩ := h
    have le : min (d / st) (n - 1) * st ≤ d :=
      Nat.le_trans (Nat.mul_le_mul_right st (Nat.min_le_left _ _)) (Nat.div_mul_le_self d st)
    simp only [List.zip_cons_cons, List.map_cons, List.sum_cons, dimIndex_distance hl]
    omega

theorem Reg.addr_of_locate {off : Nat} {r : Reg} {ix : List Nat} (h : Reg.locate off = some (r, ix)) : r.addr ix = off := by
  obtain ⟨q, -, hq⟩ := List.exists_of_findSome?_eq_some h
  split at hq
  next hb =>
    simp only [Option.map_eq_some_iff, Prod.mk.injEq] at hq
    obtain ⟨l, hl, rfl, rfl⟩ := hq
    rw [Reg.addr, sumBy_eq_sum, dimIndex_distance hl]
    omega
  next => cases hq

theorem Reg.aligned_of_locate {off : Nat} {r : Reg} {ix : List Nat} (h : Reg.locate off = some (r, ix)) : off % 8 = 0 :=
  Nat.mod_eq_zero_of_dvd (Reg.addr_of_locate h ▸ r.addr_aligned ix)

/-! ## What an access does (R8 to R11), case by case -/

section
variable (s : State) {path off size : Nat} (val : Word) {r : Reg} {ix : List Nat}

theorem State.regWrite_of_size (h : size ≠ 8 ∨ off % 8 ≠ 0) :
    s.regWrite path off size val = (s.regErr path off F.glRegErr_size_err, true) :=
  if_pos (by simpa using h)

theorem State.regRead_of_size (h : size ≠ 8 ∨ off % 8 ≠ 0) :
    s.regRead path off size = (s.regErr path off F.glRegErr_size_err, 0, true) :=
  if_pos (by simpa using h)

theorem State.regWrite_of_unmapped (ha : off % 8 = 0) (hl : Reg.locate off = none) :
    s.regWrite path off 8 val = (s.regErr path off F.glRegErr_unmapped, true) := by
  simp [State.regWrite, ha, hl]

theorem State.regRead_of_unmapped (ha : off % 8 = 0) (hl : Reg.locate off = none) :
    s.regRead path off 8 = (s.regErr path off F.glRegErr_unmapped, 0, true) := by
  simp [State.regRead, ha, hl]

theorem State.regWrite_of_readOnly (hl : Reg.locate off = some (r, ix)) (h : r.readOnly ix = true) :
    s.regWrite path off 8 val = (s.regErr path off F.glRegErr_ro_write, true) := by
  simp [State.regWrite, Reg.aligned_of_locate hl, hl, h]

/-- With BT_LOCK set a register with nothing but RWL fields to write takes no write (R531). -/
theorem State.regWrite_of_locked (hl : Reg.locate off = some (r, ix)) (lock : s.locked = true)
    (rwl : r.has ix (fun a => a = .rwl) = true) (rest : r.has ix (fun a => a = .rw || a = .wo || a = .w1c) = false) :
    (s.regWrite path off 8 val).1 = s.regErr path off F.glRegErr_lock_viol := by
  have writable : r.readOnly ix = false := by
    have : r.has ix (fun a => a = .rw || a = .wo || a = .w1c || a = .rwl) = true := by
      obtain ⟨f, hf, ha⟩ := List.any_eq_true.mp rwl
      exact List.any_eq_true.mpr ⟨f, hf, by simp [of_decide_eq_true ha]⟩
    simp [Reg.readOnly, this]
  simp [State.regWrite, Reg.aligned_of_locate hl, hl, writable, lock, rwl, rest]

/-- A register whose writes act on nothing else takes the word of R9. -/
theorem State.putReg_of_not_acts (v : Nat) (h : r.acts = false) :
    s.putReg path r ix v = s.rput r ix (BitVec.ofNat 64 (r.written ix (s.rget r ix).toNat v s.locked)) := by
  obtain ⟨own, -⟩ := Bool.or_eq_false_iff.mp h
  unfold State.putReg
  split
  case h_22 => exact if_neg (by simp [own])
  all_goals exact absurd h (by decide)

theorem State.regWrite_of_not_acts (hl : Reg.locate off = some (r, ix)) (plain : r.acts = false)
    (writable : r.readOnly ix = false)
    (free : s.locked = false ∨ r.has ix (fun a => a = .rwl) = false) :
    s.regWrite path off 8 val
      = (s.rput r ix (BitVec.ofNat 64 (r.written ix (s.rget r ix).toNat val.toNat s.locked)), false) := by
  have viol : (s.locked && r.has ix fun a => a = .rwl) = false := by
    rcases free with h | h <;> simp [h]
  have notCtl : r ≠ .glMapCtl := fun e => absurd (e ▸ plain) (by decide)
  simp [State.regWrite, Reg.aligned_of_locate hl, hl, writable, viol, notCtl, s.putReg_of_not_acts _ plain]

end

/-! ## GL_REG_ERR (R14) -/

/-- Fields of a register that are set one after another leave the registers at other offsets. -/
theorem State.tfind_foldl_fset {ix : List Nat} {a : Nat} : ∀ (l : List (Fld × Nat)) (s : State), (∀ e ∈ l, a ≠ e.1.reg.addr ix) →
    tfind (l.foldl (fun t e => t.fset e.1 ix e.2) s).regs a = tfind s.regs a
  | [], _, _ => rfl
  | e :: l, s, h =>
    (State.tfind_foldl_fset l _ fun x hx => h x (List.mem_cons_of_mem e hx)).trans (s.tfind_fset_other _ (h e List.mem_cons_self))

theorem State.tfind_raise_other (s : State) {n a : Nat} {f : Fld} {ix : List Nat} {firsts : List (Fld × Nat)}
    (hf : a ≠ f.reg.addr ix) (hl : ∀ e ∈ firsts, a ≠ e.1.reg.addr ix) : tfind (s.raise n f ix firsts).regs a = tfind s.regs a := by
  unfold State.raise
  refine (State.tfind_fset_other _ _ hf).trans ?_
  split
  · exact State.tfind_foldl_fset _ _ hl
  · rfl

section
variable (s : State) (path off : Nat) (f : Fld)

theorem State.regErr_regsBut (hr : f.reg = .glRegErr) : s.regsBut (s.regErr path off f) [Reg.glRegErr.addr []] := by
  intro a ha
  have ne : a ≠ Reg.glRegErr.addr [] := fun e => ha (List.mem_singleton.mpr e)
  have firsts : ∀ b : Nat, ∀ e ∈ [(F.glRegErr_first_offset, off), (F.glRegErr_first_path, b)], a ≠ e.1.reg.addr [] := by
    simpa [F.glRegErr_first_offset, F.glRegErr_first_path] using ne
  unfold State.regErr
  split
  · exact State.tfind_raise_other _ (hr ▸ ne) (firsts _)
  · exact State.tfind_raise_other _ (hr ▸ ne) (firsts _)

theorem State.regErr_only : s.only (s.regErr path off f) [.regs, .free] :=
  State.Follows.only (State.regErr_follows path off f (.refl _ s) rfl)

theorem State.fget_regErr (h : f.lo + 1 ≤ 64) (hw : f.w = 1) : (s.regErr path off f).fget f = 1 := by
  have set : ∀ t : State, (t.fset f [] 1).fget f = 1 := fun t => by simp [t.fget_fset_same f [] 1 (hw ▸ h), hw]
  unfold State.regErr
  split
  · exact set _
  · exact set _

/-- The state after an error: the captured fields of the first one, below the flag (R14). -/
theorem State.regErr_of_path (hp : path < 2) : s.regErr path off f
    = (if bits (s.rget f.reg []).toNat 0 4 = 0
        then (s.fset F.glRegErr_first_offset [] off).fset F.glRegErr_first_path [] path else s).fset f [] 1 := by
  unfold State.regErr
  rw [if_neg (by omega)]
  rfl

end
/-- R14: with no error bit set the offset and the path of the access are captured. -/
theorem State.regErr_captures (s : State) {path off : Nat} {f : Fld} (hp : path < 2) (ho : off < 2 ^ 24) (hr : f.reg = .glRegErr)
    (hf : f.lo + f.w ≤ 24) (clear : bits (s.rget .glRegErr []).toNat 0 4 = 0) :
    (s.regErr path off f).fget F.glRegErr_first_offset = off ∧ (s.regErr path off f).fget F.glRegErr_first_path = path := by
  rw [s.regErr_of_path path off f hp, hr, if_pos clear]
  constructor
  · rw [State.fget_fset_field _ _ _ hr.symm (by omega) (.inr hf),
      State.fget_fset_field (f := F.glRegErr_first_path) (g := F.glRegErr_first_offset) _ _ _ rfl (by decide) (.inl (by decide)),
      State.fget_fset_same _ _ _ _ (by decide)]
    exact Nat.mod_eq_of_lt ho
  · rw [State.fget_fset_field _ _ _ hr.symm (by omega) (.inr (Nat.le_trans hf (by decide))),
      State.fget_fset_same _ _ _ _ (by decide)]
    exact Nat.mod_eq_of_lt hp

/-- R14: while an error bit stands the captured fields stay. -/
theorem State.regErr_keeps_captured (s : State) {path : Nat} (off : Nat) {f g : Fld} (hp : path < 2) (hr : f.reg = .glRegErr)
    (hg : g.reg = .glRegErr) (hf : f.lo + f.w ≤ 24) (hc : 24 ≤ g.lo) (set : bits (s.rget .glRegErr []).toNat 0 4 ≠ 0) :
    (s.regErr path off f).fget g = s.fget g := by
  rw [s.regErr_of_path path off f hp, hr, if_neg set]
  exact State.fget_fset_field _ _ _ (hg.trans hr.symm) (by omega) (.inr (Nat.le_trans hf hc))

/-- A write answered by an error flag of GL_REG_ERR alone. -/
theorem exec_registerWrite_of_err {s : State} {path off size : Nat} {val : Word} {f : Fld} (hp : path < 3) (ho : off < 2 ^ 24)
    (ok : s.pathOk path true = true) (err : s.regWrite path off size val = (s.regErr path off f, true))
    (hr : f.reg = .glRegErr) (hl : f.lo + 1 ≤ 64) (hw : f.w = 1) :
    ∃ t, exec (.registerWrite path off size val) s = .next t
      ∧ t.fget f = 1 ∧ s.regsBut t [Reg.glRegErr.addr []] ∧ s.only t [.regs, .free] := by
  refine ⟨s.regErr path off f, ?_, s.fget_regErr _ _ f hl hw, s.regErr_regsBut _ _ f hr, s.regErr_only _ _ f⟩
  rw [exec_registerWrite_of_pathOk size val hp ho ok, err]

/-- A read answered by an error flag of GL_REG_ERR and the value 0. -/
theorem exec_registerRead_of_err {s : State} {path off size : Nat} {f : Fld} (hp : path < 3) (ho : off < 2 ^ 24)
    (ok : s.pathOk path false = true) (err : s.regRead path off size = (s.regErr path off f, 0, true))
    (hr : f.reg = .glRegErr) (hl : f.lo + 1 ≤ 64) (hw : f.w = 1) :
    ∃ t, exec (.registerRead path off size) s = .next t ∧ t.out = s.out ++ [.regValue path off 0]
      ∧ t.fget f = 1 ∧ s.regsBut t [Reg.glRegErr.addr []] ∧ s.only t [.regs, .free, .out] := by
  obtain ⟨-, kept⟩ := s.regErr_only path off f
  refine ⟨(s.regErr path off f).emit (.regValue path off 0), ?_, ?_, s.fget_regErr _ _ f hl hw, s.regErr_regsBut _ _ f hr, ?_⟩
  · rw [exec_registerRead_of_pathOk size hp ho ok, err]
  · exact congrArg (· ++ _) (kept .out (by decide))
  · exact State.Follows.only (State.emit_follows _ (State.regErr_follows path off f (.refl _ s) rfl) rfl)

/-- Settles O9: registers lie at multiples of 8 by the tables, and any other access takes the first arm of the two accesses. -/
theorem registerSizeErrors : Obligations.RegisterSizeErrors := by
  refine ⟨fun _ _ _ => Reg.aligned_of_locate, fun s path off size val hp ho bad => ⟨fun ok => ?_, fun ok => ?_⟩⟩
  · exact exec_registerWrite_of_err hp ho ok (s.regWrite_of_size val bad) rfl (by decide) rfl
  · exact exec_registerRead_of_err hp ho ok (s.regRead_of_size bad) rfl (by decide) rfl

/-- Settles O10: an offset that holds no register takes the second arm of the two accesses; what GL_REG_ERR captures is R14. -/
theorem registerUnmapped : Obligations.RegisterUnmapped := by
  refine ⟨fun s path off val hp ho ha hl => ⟨fun ok => ?_, fun ok => ?_⟩, fun s path off size val hp ho bad ok => ?_⟩
  · exact exec_registerWrite_of_err hp ho ok (s.regWrite_of_unmapped val ha hl) rfl (by decide) rfl
  · exact exec_registerRead_of_err hp ho ok (s.regRead_of_unmapped ha hl) rfl (by decide) rfl
  · refine ⟨s.regErr path off F.glRegErr_size_err, ?_, s.regErr_captures hp ho rfl (by decide), fun set => ⟨?_, ?_⟩⟩
    · rw [exec_registerWrite_of_pathOk size val (by omega) ho ok, s.regWrite_of_size val bad]
    · exact s.regErr_keeps_captured off hp rfl rfl (by decide) (by decide) set
    · exact s.regErr_keeps_captured off hp rfl rfl (by decide) (by decide) set

/-- Settles O11: the three arms of a write to a register, each by both commands. -/
theorem registerWrites : Obligations.RegisterWrites := by
  intro s path off val r ix hp ho ok hl
  refine ⟨fun plain writable free => ⟨?_, fun h1 => ?_⟩, fun ro => ⟨?_, fun h1 => ?_⟩, fun lock rwl rest => ?_⟩
  · rw [exec_registerWrite_of_pathOk 8 val hp ho ok, s.regWrite_of_not_acts val hl plain writable free]
  · rw [exec_regWrite_of_pathOk val ho (h1 ▸ ok), s.regWrite_of_not_acts val hl plain writable free]
    rfl
  · rw [exec_registerWrite_of_pathOk 8 val hp ho ok, s.regWrite_of_readOnly val hl ro]
  · rw [exec_regWrite_of_pathOk val ho (h1 ▸ ok), s.regWrite_of_readOnly val hl ro]
    rfl
  · rw [exec_registerWrite_of_pathOk 8 val hp ho ok, s.regWrite_of_locked val hl lock rwl rest]

/-! ## Reads: fields that clear (R9) -/

/-- The word of a register whose RC fields are cleared. -/
def clearRc (l : List FieldDef) (x : Nat) : Nat := l.foldl (fun a f => if f.acc = .rc then setBits a f.lo f.w 0 else a) x

theorem clearRc_cons (f : FieldDef) (l : List FieldDef) (x : Nat) :
    clearRc (f :: l) x = clearRc l (if f.acc = .rc then setBits x f.lo f.w 0 else x) := rfl

theorem testBit_setBits_zero (x lo w i : Nat) :
    (setBits x lo w 0).testBit i = (x.testBit i && !decide (lo ≤ i ∧ i < lo + w)) := by
  by_cases h : lo ≤ i ∧ i < lo + w <;> simp [testBit_setBits, h]

/-- A bit stays exactly outside the RC fields. -/
theorem testBit_clearRc (i : Nat) : ∀ (l : List FieldDef) (x : Nat),
    (clearRc l x).testBit i = true ↔ x.testBit i = true ∧ ∀ f ∈ l, f.acc = .rc → ¬ (f.lo ≤ i ∧ i < f.lo + f.w)
  | [], x => by simp [clearRc]
  | f :: l, x => by
    rw [clearRc_cons, testBit_clearRc i l, List.forall_mem_cons]
    split
    next hf =>
      rw [testBit_setBits_zero, Bool.and_eq_true, Bool.not_eq_true', decide_eq_false_iff_not, and_assoc, forall_prop_of_true hf]
    next hf => simp [hf]

theorem clearRc_lt {n x : Nat} (l : List FieldDef) (h : x < 2 ^ n) : clearRc l x < 2 ^ n := by
  refine Nat.lt_pow_two_of_testBit _ fun i hi => Bool.eq_false_iff.mpr fun set => ?_
  have := ((testBit_clearRc i l x).mp set).1
  rw [Nat.testBit_lt_two_pow (Nat.lt_of_lt_of_le h (Nat.pow_le_pow_right (by decide) hi))] at this
  cases this

theorem bits_clearRc {l : List FieldDef} {f : FieldDef} (x : Nat) (hf : f ∈ l) (rc : f.acc = .rc) :
    bits (clearRc l x) f.lo f.w = 0 := by
  refine Nat.eq_of_testBit_eq fun i => ?_
  rw [testBit_bits, Nat.zero_testBit, Bool.and_eq_false_iff]
  by_cases hi : i < f.w
  · refine .inr (Bool.eq_false_iff.mpr fun set => ?_)
    exact ((testBit_clearRc _ l x).mp set).2 f hf rc ⟨Nat.le_add_right _ _, Nat.add_lt_add_left hi _⟩
  · exact .inl (decide_eq_false hi)

/-- The state after a read of a register: its RC fields are cleared. -/
def State.afterRead (s : State) (r : Reg) (ix : List Nat) : State :=
  if r.has ix (fun a => a = .rc) then s.rput r ix (BitVec.ofNat 64 (clearRc (r.fieldsAt ix) (s.rget r ix).toNat)) else s

theorem State.regRead_of_locate (s : State) {path off : Nat} {r : Reg} {ix : List Nat} (hl : Reg.locate off = some (r, ix)) :
    s.regRead path off 8 = (s.afterRead r ix, s.readReg path r ix, false) := by
  simp [State.regRead, Reg.aligned_of_locate hl, hl, State.afterRead, clearRc]

section
variable (s : State) (r : Reg) (ix : List Nat)

theorem State.bits_afterRead {f : FieldDef} (hf : f ∈ r.fieldsAt ix) (rc : f.acc = .rc) :
    bits ((s.afterRead r ix).rget r ix).toNat f.lo f.w = 0 := by
  have has : r.has ix (fun a => a = .rc) = true := List.any_eq_true.mpr ⟨f, hf, decide_eq_true rc⟩
  rw [State.afterRead, if_pos has, State.rget_rput_same, BitVec.toNat_ofNat,
    Nat.mod_eq_of_lt (clearRc_lt _ (s.rget r ix).isLt), bits_clearRc _ hf rc]

theorem State.afterRead_regsBut : s.regsBut (s.afterRead r ix) [r.addr ix] := by
  intro a ha
  unfold State.afterRead
  split
  · exact s.tfind_rput_other _ (List.ne_of_not_mem_cons ha)
  · rfl

theorem State.afterRead_follows : s.Follows (fieldMask [.regs, .out]) (s.afterRead r ix) :=
  State.Follows.ite (fun _ => State.rput_follows _ _ _ (.refl _ s) rfl) fun _ => .refl _ s

theorem State.afterRead_out : (s.afterRead r ix).out = s.out := by
  unfold State.afterRead; split <;> rfl

theorem State.afterRead_of_no_rc (h : r.has ix (fun a => a = .rc) = false) : s.afterRead r ix = s :=
  if_neg (by simp [h])

end

/-! ## Reads: fields that show (R10, R465, R479) -/

/-- The fields of each family lie in rising order and apart. -/
theorem Reg.fields_apart (r : Reg) : r.fields.Pairwise fun f g => f.lo + f.w ≤ g.lo := by
  cases r <;> decide

/-- The word that the fields of a list show of x; write-only fields show 0. -/
def shownFields (x : Nat) (l : List FieldDef) (a : Nat) : Nat :=
  l.foldl (fun a f => if f.acc = .wo then a else a + (bits x f.lo f.w <<< f.lo)) a

/-- Fields that lie in rising order above a add no bit outside themselves. -/
theorem testBit_shownFields {x b : Nat} : ∀ (l : List FieldDef) (a : Nat), l.Pairwise (fun f g => f.lo + f.w ≤ g.lo) →
    (∀ f ∈ l, a < 2 ^ f.lo) → (∀ f ∈ l, f.acc ≠ .wo → b < f.lo ∨ f.lo + f.w ≤ b) →
    (shownFields x l a).testBit b = a.testBit b
  | [], _, _, _, _ => rfl
  | f :: l, a, apart, above, outside => by
    obtain ⟨hf, apart'⟩ := List.pairwise_cons.mp apart
    have ha : a < 2 ^ f.lo := above f List.mem_cons_self
    have outside' : ∀ g ∈ l, g.acc ≠ .wo → b < g.lo ∨ g.lo + g.w ≤ b := fun g hg => outside g (List.mem_cons_of_mem f hg)
    by_cases wo : f.acc = .wo
    · have e : shownFields x (f :: l) a = shownFields x l a := by simp [shownFields, wo]
      rw [e, testBit_shownFields l a apart' (fun g hg => above g (List.mem_cons_of_mem f hg)) outside']
    · have e : shownFields x (f :: l) a = shownFields x l (2 ^ f.lo * bits x f.lo f.w + a) := by
        simp [shownFields, wo, Nat.shiftLeft_eq, Nat.add_comm, Nat.mul_comm]
      have below : 2 ^ f.lo * bits x f.lo f.w + a < 2 ^ (f.lo + f.w) := by
        rw [Nat.pow_add, Nat.mul_comm (2 ^ f.lo) (2 ^ f.w)]
        exact Nat.mul_add_lt_mul_of_lt_of_lt (bits_lt x f.lo f.w) ha
      rw [e, testBit_shownFields l _ apart'
        (fun g hg => Nat.lt_of_lt_of_le below (Nat.pow_le_pow_right (by decide) (hf g hg))) outside',
        Nat.testBit_two_pow_mul_add _ ha]
      split
      · rfl
      next hb =>
        have low : a < 2 ^ b := Nat.lt_of_lt_of_le ha (Nat.pow_le_pow_right (by decide) (Nat.le_of_not_lt hb))
        have above' : ¬ b - f.lo < f.w := by
          have := outside f List.mem_cons_self wo
          omega
        rw [testBit_bits, Nat.testBit_lt_two_pow low, decide_eq_false above', Bool.false_and]

theorem State.readReg_eq (s : State) (path : Nat) (r : Reg) (ix : List Nat) : s.readReg path r ix
    = BitVec.ofNat 64 (shownFields ((s.derived r ix).foldl (fun a e => setBits a e.1 e.2.1 e.2.2)
        (if r.perPath then s.pget path r ix else s.rget r ix).toNat) (r.fieldsAt ix) 0) := rfl

/-- R10: a bit outside the fields that can be read is 0. -/
theorem State.getLsbD_readReg (s : State) (path : Nat) (r : Reg) (ix : List Nat) (b : Nat)
    (outside : ∀ f ∈ r.fieldsAt ix, f.acc ≠ .wo → b < f.lo ∨ f.lo + f.w ≤ b) : (s.readReg path r ix).getLsbD b = false := by
  have apart : (r.fieldsAt ix).Pairwise fun f g => f.lo + f.w ≤ g.lo := r.fields_apart.filter _
  rw [State.readReg_eq, BitVec.getLsbD_ofNat,
    testBit_shownFields _ _ apart (fun f _ => Nat.two_pow_pos f.lo) outside, Nat.zero_testBit, Bool.and_false]

theorem tfind_isSome {α : Type} (k : Nat) : ∀ m : Table α, (tfind m k).isSome = (m.map (·.1)).contains k
  | [] => rfl
  | (a, v) :: m => by
    unfold tfind
    split
    next h => simp [h]
    next h => simp [tfind_isSome k m, Ne.symm h]

/-- R465, R479: of the loaded keys the status fields show the slots' numbers alone. -/
theorem State.derived_keys (s : State) {ks : Table (BitVec 512)} (r : Reg) (ix : List Nat) (h : ks.map (·.1) = s.keys.map (·.1)) :
    ({ s with keys := ks }).derived r ix = s.derived r ix := by
  cases r with
  | seSlotStat =>
    have slots : ∀ m : Table (BitVec 512),
        m.foldl (fun m e => setBits m e.1 1 1) 0 = (m.map (·.1)).foldl (fun m k => setBits m k 1 1) 0 :=
      fun m => by rw [List.foldl_map]
    have e : ks.foldl (fun m e => setBits m e.1 1 1) 0 = s.keys.foldl (fun m e => setBits m e.1 1 1) 0 := by
      rw [slots, slots, h]
    exact congrArg (fun n => [(0, 64, n)]) e
  | btStat =>
    have e : (tfind ks 63).isSome = (tfind s.keys 63).isSome := by rw [tfind_isSome, tfind_isSome, h]
    exact congrArg (fun b => [(16, 1, b2n b), (32, 16, if s.fget F.btStat_phase = 6 then s.boot.ms else 0)]) e
  | _ => rfl

theorem State.readReg_keys (s : State) {ks : Table (BitVec 512)} (path : Nat) (r : Reg) (ix : List Nat)
    (h : ks.map (·.1) = s.keys.map (·.1)) : ({ s with keys := ks }).readReg path r ix = s.readReg path r ix := by
  rw [State.readReg_eq, State.readReg_eq, s.derived_keys r ix h]
  rfl

/-- Settles O12: a read is State.afterRead with the value shown before it; what is shown is the sum of the fields of R10. -/
theorem registerReads : Obligations.RegisterReads := by
  refine ⟨fun s path off r ix hp ho hl => ⟨fun ok => ?_, fun ok => ?_⟩, fun s path r ix b _ => s.getLsbD_readReg path r ix b,
    fun _ _ _ => Reg.addr_of_locate, fun s _ path r ix => s.readReg_keys path r ix⟩
  · refine ⟨(s.afterRead r ix).emit (.regValue path off (s.readReg path r ix)), ?_, ?_,
      fun f hf rc => s.bits_afterRead r ix hf rc, fun h => ?_, ?_, ?_⟩
    · rw [exec_registerRead_of_pathOk 8 hp ho ok, s.regRead_of_locate hl]
    · exact congrArg (· ++ _) (s.afterRead_out r ix)
    · rw [State.emit_regs, s.afterRead_of_no_rc r ix h]
    · exact Reg.addr_of_locate hl ▸ s.afterRead_regsBut r ix
    · exact State.Follows.only (State.emit_follows _ (s.afterRead_follows r ix) rfl)
  · refine ⟨(s.afterRead r ix).emit (.mctp 0x7F01 0 ((List.range 8).map fun i => bits (s.readReg 1 r ix).toNat (8 * i) 8)),
      ?_, ?_, ?_, ?_⟩
    · rw [exec_regRead_of_pathOk ho ok, s.regRead_of_locate hl]
      rfl
    · exact congrArg (· ++ _) (s.afterRead_out r ix)
    · exact Reg.addr_of_locate hl ▸ s.afterRead_regsBut r ix
    · exact State.Follows.only (State.emit_follows _ (s.afterRead_follows r ix) rfl)

end Sys2Proof.Machine
end

