-- ==== Sys2Proof/Proofs/AtomicWord.lean ====
section
/-! The statement of R47: the word that an ATOMIC leaves in its granule. -/
namespace Sys2Proof.Machine

/-! ## The word of an ATOMIC (R47) -/

/-- Width of the operand's word. -/
def AtomOp.width (o : AtomOp) : Nat := if o.asz then 64 else 32

/-- The new word of an ATOMIC before it is put into its granule. -/
def AtomOp.newWord (o : AtomOp) (x y : Nat) : Nat :=
  match o.aop with
  | 0 => (x + y) % 2 ^ o.width
  | 1 => if sInt o.width x < sInt o.width y then x else y
  | 2 => if sInt o.width x < sInt o.width y then y else x
  | 3 => min x y
  | _ => max x y

theorem atomResult_eq (o : AtomOp) (old : Granule) : atomResult o old = BitVec.ofNat 512
    (setBits old.toNat (8 * o.off) o.width (o.newWord (bits old.toNat (8 * o.off) o.width) (o.operand % 2 ^ o.width))) := rfl

/-- An aligned word of a granule lies in it. -/
theorem AtomOp.word_inside {o : AtomOp} (hoff : o.off < 64) (aligned : o.off % (if o.asz = true then 8 else 4) = 0) :
    8 * o.off + o.width ≤ 512 := by
  unfold AtomOp.width
  split at aligned
  next h => rw [if_pos h]; omega
  next h => rw [if_neg h]; omega

theorem toNat_ofNat_setBits {n lo w : Nat} (x : BitVec n) (v : Nat) (inside : lo + w ≤ n) :
    (BitVec.ofNat n (setBits x.toNat lo w v)).toNat = setBits x.toNat lo w v :=
  Nat.mod_eq_of_lt (setBits_lt v x.isLt inside)

theorem toNat_atomResult {o : AtomOp} (old : Granule) (inside : 8 * o.off + o.width ≤ 512) : (atomResult o old).toNat
    = setBits old.toNat (8 * o.off) o.width (o.newWord (bits old.toNat (8 * o.off) o.width) (o.operand % 2 ^ o.width)) := by
  rw [atomResult_eq]
  exact toNat_ofNat_setBits old _ inside

theorem AtomOp.newWord_lt (o : AtomOp) {x y : Nat} (hx : x < 2 ^ o.width) (hy : y < 2 ^ o.width) :
    o.newWord x y < 2 ^ o.width := by
  unfold AtomOp.newWord
  split
  · exact Nat.mod_lt _ (Nat.two_pow_pos _)
  · split <;> assumption
  · split <;> assumption
  · exact Nat.lt_of_le_of_lt (Nat.min_le_left x y) hx
  · exact Nat.max_lt.mpr ⟨hx, hy⟩

/-- Two's complement tells the numbers of w bits apart, so equal readings are equal words. -/
theorem sInt_inj {w x y : Nat} (hx : x < 2 ^ w) (hy : y < 2 ^ w) (h : sInt w x = sInt w y) : x = y := by
  unfold sInt at h
  rw [Nat.mod_eq_of_lt hx, Nat.mod_eq_of_lt hy] at h
  split at h <;> split at h <;> omega

/-- The signed minimum and maximum do not depend on how a tie is read. -/
theorem AtomOp.newWord_cases (o : AtomOp) {x y : Nat} (hx : x < 2 ^ o.width) (hy : y < 2 ^ o.width) :
    o.newWord x y = if o.aop = 0 then (x + y) % 2 ^ o.width
      else if o.aop = 1 then (if sInt o.width x ≤ sInt o.width y then x else y)
      else if o.aop = 2 then (if sInt o.width x ≤ sInt o.width y then y else x)
      else if o.aop = 3 then min x y else max x y := by
  have tie : ¬ sInt o.width x < sInt o.width y → sInt o.width x ≤ sInt o.width y → x = y :=
    fun h1 h2 => sInt_inj hx hy (Int.le_antisymm h2 (Int.not_lt.mp h1))
  unfold AtomOp.newWord
  split
  next h => simp [h]
  next h => simp only [h]; grind
  next h => simp only [h]; grind
  next h => simp [h]
  next => grind

/-- Settles O33: the word is set within the granule, and only there. -/
theorem atomicResults : Obligations.AtomicResults := by
  intro o old _ hoff aligned
  have inside := AtomOp.word_inside hoff aligned
  have hx : bits old.toNat (8 * o.off) o.width < 2 ^ o.width := bits_lt _ _ _
  have hy : o.operand % 2 ^ o.width < 2 ^ o.width := Nat.mod_lt _ (Nat.two_pow_pos _)
  refine ⟨?_, fun b hb => ?_⟩
  · change bits (atomResult o old).toNat (8 * o.off) o.width = _
    rw [toNat_atomResult old inside, bits_setBits_same, Nat.mod_eq_of_lt (o.newWord_lt hx hy), o.newWord_cases hx hy]
    rfl
  · have outside : ¬ (8 * o.off ≤ b ∧ b < 8 * o.off + o.width) := by
      unfold AtomOp.width
      omega
    rw [BitVec.getLsbD, toNat_atomResult old inside, testBit_setBits, if_neg outside]
    rfl

end Sys2Proof.Machine
end

