-- ==== Sys2Proof/Proofs/DeviceLaws.lean ====
section
/-! What the shared operations leave as it was: events, raised flags and records. -/
namespace Sys2Proof.Machine

/-! ## Carrying a command out -/

theorem onUnit_of {p : Prop} [Decidable p] (h : p) (s : State) : onUnit (decide p) s = .next s := by
  rw [onUnit, decide_eq_true h]; rfl

/-! ## What counting an event leaves unchanged (R493) -/

section
variable (s : State) (code inst n : Nat)

theorem State.ev_follows_self : s.Follows (fieldMask [.regs]) (s.ev code inst n) := State.ev_follows code inst n (.refl _ s) rfl

/-- An event reaches the counters' registers alone. -/
theorem State.ev_kept {f : Field} (h : f ≠ .regs) : f.same s (s.ev code inst n) :=
  (s.ev_follows_self code inst n).kept f (fieldMask_not_mem (by simpa using h))

@[simp] theorem State.ev_clk : (s.ev code inst n).clk = s.clk := s.ev_kept code inst n (f := .clk) (by decide)
@[simp] theorem State.ev_out : (s.ev code inst n).out = s.out := s.ev_kept code inst n (f := .out) (by decide)
@[simp] theorem State.ev_nextId : (s.ev code inst n).nextId = s.nextId := s.ev_kept code inst n (f := .nextId) (by decide)
@[simp] theorem State.ev_ports : (s.ev code inst n).ports = s.ports := s.ev_kept code inst n (f := .ports) (by decide)
@[simp] theorem State.ev_fetches : (s.ev code inst n).fetches = s.fetches := s.ev_kept code inst n (f := .fetches) (by decide)
@[simp] theorem State.ev_far : (s.ev code inst n).far = s.far := s.ev_kept code inst n (f := .far) (by decide)
@[simp] theorem State.ev_cores : (s.ev code inst n).cores = s.cores := s.ev_kept code inst n (f := .cores) (by decide)
@[simp] theorem State.ev_packets : (s.ev code inst n).packets = s.packets := s.ev_kept code inst n (f := .packets) (by decide)

@[simp] theorem State.ev_port (m : Nat) : (s.ev code inst n).port m = s.port m := congrArg (tget Port.init · m) (s.ev_ports code inst n)

end

/-! ## Errors and records -/

/-- A raised flag reads 1. -/
theorem State.fget_raise_same (s : State) {n : Nat} {f : Fld} {ix : List Nat} (firsts : List (Fld × Nat)) (h : f.lo + 1 ≤ 64)
    (hw : f.w = 1) : (s.raise n f ix firsts).fget f ix = 1 := by
  unfold State.raise
  simp only [State.fget_fset_same _ f ix _ (hw ▸ h), hw, Nat.pow_one, Nat.one_mod]

/-- A record in the recorder depends on the recorder alone. -/
theorem State.log_obs_of_obs {s t : State} (h : t.obs = s.obs) (ty : RecTy) (src sub a0 a1 : Nat) :
    (t.log ty src sub a0 a1).obs = (s.log ty src sub a0 a1).obs := by
  simp only [State.log, State.logRec, h]
  split <;> rfl

/-- A record that is dropped counts in OB_EVR_STAT, and no other register changes (R488). -/
theorem State.tfind_log_other (s : State) (ty : RecTy) (src sub a0 a1 : Nat) {a : Nat} (h : a ≠ Reg.obEvrStat.addr []) :
    tfind (s.log ty src sub a0 a1).regs a = tfind s.regs a := by
  unfold State.log State.logRec
  extract_lets o
  split
  · rfl
  · exact State.tfind_fset_other _ _ h

theorem State.fget_of_regs {s t : State} (h : t.regs = s.regs) (f : Fld) (ix : List Nat) : t.fget f ix = s.fget f ix := by
  simp only [State.fget, State.rget, h]

theorem State.rget_of_tfind {s t : State} {r : Reg} {ix : List Nat} (h : tfind t.regs (r.addr ix) = tfind s.regs (r.addr ix)) :
    t.rget r ix = s.rget r ix := by
  simp only [State.rget, tget, h]

theorem State.fget_of_tfind {s t : State} {f : Fld} {ix : List Nat}
    (h : tfind t.regs (f.reg.addr ix) = tfind s.regs (f.reg.addr ix)) : t.fget f ix = s.fget f ix := by
  rw [State.fget, State.rget_of_tfind h, ← State.fget]

theorem State.fget_log (s : State) (ty : RecTy) (src sub a0 a1 : Nat) {f : Fld} {ix : List Nat}
    (h : f.reg.addr ix ≠ Reg.obEvrStat.addr []) : (s.log ty src sub a0 a1).fget f ix = s.fget f ix :=
  State.fget_of_tfind (s.tfind_log_other ty src sub a0 a1 h)

end Sys2Proof.Machine
end

