-- ==== Sys2Proof/Proofs/FarTier.lean ====
section
/-! The far-tier ports (R48, R59 to R61): sending, responses, timeouts and credits, one equation per case. -/
namespace Sys2Proof.Machine

/-! ## Sending on a far-tier port (R59, R60) -/

section
variable {s t : State} {ft : Nat}

/-- Only a request that has not been sent is sent. -/
theorem State.sendOne_of_allSent (h : s.allSent ft) : s.sendOne ft = none := by
  have waits : s.far.find? (fun r => r.ft = ft && r.tries = 0 && s.canReserve r.dest) = none := by
    refine List.find?_eq_none.mpr fun q hq sel => ?_
    simp only [Bool.and_eq_true, decide_eq_true_eq] at sel
    exact h q hq sel.1.1 sel.1.2
  unfold State.sendOne
  simp only [waits, ite_self]

theorem State.pump_of_allSent (h : s.allSent ft) : s.pump ft = s := by
  have e : s.pump ft = s.pumpFar ft (4095 + 1) := rfl
  rw [e, State.pumpFar, State.sendOne_of_allSent h]

theorem State.allSent_dropFar (h : s.allSent ft) (hf : t.far = s.far) (r : FarReq) : (t.dropFar r).allSent ft := by
  intro q hq
  have hq' : q ∈ s.far := hf ▸ List.mem_of_mem_filter hq
  exact h q hq'

theorem State.dropFar_far (hf : t.far = s.far) (r : FarReq) : (t.dropFar r).far = s.far.filter (· ≠ r) := by
  rw [← hf]; rfl

theorem exec_farResponse (hft : ft < 2) (tag : Nat) (poison : Bool) (data : List Granule) :
    exec (.farResponse ft tag poison data) s = .next (s.farResponse ft tag poison data) := onUnit_of hft _

theorem exec_farTimeout (hft : ft < 2) (tag : Nat) : exec (.farTimeout ft tag) s = .next (s.farTimeout ft tag) := onUnit_of hft _

theorem exec_farCreditReturn (hft : ft < 2) (hdr wdat : Nat) :
    exec (.farCreditReturn ft hdr wdat) s = .next (s.farCredits ft hdr wdat) := onUnit_of hft _

/-! ## Responses (R60) -/

section
variable {tag : Nat} {r : FarReq} {poison : Bool} {data : List Granule}

/-- A response whose data are taken frees its tag; with no request left to send nothing else happens. -/
theorem State.farResponse_of_taken (hr : s.farReq ft tag = some r) (up : (s.port (24 + ft)).st = .ready)
    (taken : s.farDeliver r poison data = some t) (sent : s.allSent ft) (hf : t.far = s.far) :
    s.farResponse ft tag poison data = t.dropFar r := by
  simp only [State.farResponse, hr, up, ne_eq, not_true_eq_false, if_false, taken]
  exact State.pump_of_allSent (State.allSent_dropFar sent hf r)

theorem State.farResponse_of_waits (hr : s.farReq ft tag = some r) (waits : s.farDeliver r poison data = none) :
    s.farResponse ft tag poison data = s := by
  simp only [State.farResponse, hr, waits, ite_self]

theorem State.farResponse_of_not_ready (down : (s.port (24 + ft)).st ≠ .ready) : s.farResponse ft tag poison data = s := by
  unfold State.farResponse
  split
  · rfl
  · exact if_pos down

end

/-! ## What takes the data of a response -/

theorem State.packets_unitIn {id : Nat} {p : Packet} (hp : tfind s.packets id = some p) (run : p.st = .running) (g : Nat)
    (st : PStatus) (d : Granule) : (s.unitIn id g st d).packets
      = tset s.packets id { p with got := tset p.got g (st, d), asked := p.asked.filter (· ≠ g) } := by
  simp only [State.unitIn, hp, run, ne_eq, not_true_eq_false, if_false]

theorem State.unitIn_follows_self (s : State) (id g : Nat) (st : PStatus) (d : Granule) :
    s.Follows (fieldMask [.packets]) (s.unitIn id g st d) := State.unitIn_follows id g st d (.refl _ s) rfl

theorem State.streamIn_of_run {cl core : Nat} {c : Core} (hc : s.coreAt cl core = some c) (e slot g : Nat) (st : PStatus) (d : Granule) :
    s.streamIn cl core e slot g c.run st d = s.setCore cl core (c.setEng e { c.eng e with
      buf := tset (c.eng e).buf (bufKey slot g) (st, d)
      asked := (c.eng e).asked.filter (· ≠ bufKey slot g) }) := by
  simp only [State.streamIn, hc, ne_eq, not_true_eq_false, if_false]

/-- The block's write reaches the list of fetches only where the block is marked as come. -/
theorem State.blockIn_fetches {seg b : Nat} {poison : Bool} {data : List Granule} {u : State} (h : s.blockIn seg b poison data = some u) :
    u.fetches = s.fetches.map fun f => if f.seg = seg then { f with got := f.got ||| (1 <<< b) } else f := by
  unfold State.blockIn at h
  extract_lets e d at h
  split at h
  · cases h
  split at h
  rename_i s1 ok heq
  have written : s.Follows 0x280002190c53 s1 := by
    refine State.Follows.fst heq (State.Follows.foldlFst (fun v x hv => ?_) _ (.refl _ s))
    dsimp only
    split
    · exact State.poisonRoot_follows _ _ hv rfl
    · exact State.writeRoot_follows _ _ _ _ _ hv rfl
  have same : s1.fetches = s.fetches := written.kept .fetches rfl
  split at h
  · cases h
  · simp only [Option.some.injEq] at h
    subst h
    rw [← same]
    exact (State.releaseParked_follows seg (State.snoopBlocks_follows seg (.refl 0x280002190c53 _) rfl) rfl).kept .fetches rfl

/-! ## Timeouts (R61) -/

section
variable {tag : Nat} {r : FarReq}

theorem State.farTimeout_of_retry (hr : s.farReq ft tag = some r) (few : r.tries < 4) (up : (s.port (24 + ft)).st = .ready)
    (held : 0 < (s.port (24 + ft)).hdrHeld) : s.farTimeout ft tag
      = ((((({ s with far := s.far.map fun q => if q = r then { r with tries := r.tries + 1, sent := s.clk.now } else q } : State).setPort
          (24 + ft) { s.port (24 + ft) with hdrHeld := (s.port (24 + ft)).hdrHeld - 1 }).emit
          (.farRead (24 + ft) tag r.addr r.len)).ev 0x800 (24 + ft) 1).ev 0x801 (24 + ft) 1) := by
  have h0 : (s.port (24 + ft)).hdrHeld ≠ 0 := Nat.ne_of_gt held
  simp [State.farTimeout, hr, few, up, h0]

theorem State.farTimeout_of_no_attempt (hr : s.farReq ft tag = some r) (few : r.tries < 4)
    (none_made : (s.port (24 + ft)).st ≠ .ready ∨ (s.port (24 + ft)).hdrHeld = 0) : s.farTimeout ft tag = s := by
  simp [State.farTimeout, hr, few, none_made]

/-- The state in which the originator of a request learns that its attempts are used up: the request has left, the error is
flagged and recorded. -/
def State.farGone (s : State) (ft tag : Nat) (r : FarReq) : State :=
  ((s.dropFar r).raise 6 F.glPortErr_far_err [24 + ft] [(F.glPortErr_first_tag, tag), (F.glPortErr_first_kind, 0)]).log
    .farErr (24 + ft) r.tries 0 r.addr

theorem State.farTimeout_of_used_up (hr : s.farReq ft tag = some r) (used : 4 ≤ r.tries) :
    s.farTimeout ft tag = ((s.farGone ft tag r).farFailed r).pump ft := by
  simp only [State.farTimeout, hr, Nat.not_lt.mpr used, if_false]
  rfl

theorem State.farGone_follows (s : State) (ft tag : Nat) (r : FarReq) :
    s.Follows (fieldMask [.regs, .obs, .far]) (s.farGone ft tag r) :=
  State.log_follows _ _ _ _ _ (State.raise_follows _ _ _ _ (State.Follows.set_far (.refl _ s) rfl) rfl) rfl

theorem State.farGone_far (s : State) (ft tag : Nat) (r : FarReq) : (s.farGone ft tag r).far = s.far.filter (· ≠ r) := by
  have f : (s.dropFar r).Follows (fieldMask [.regs, .obs]) (s.farGone ft tag r) :=
    State.log_follows _ _ _ _ _ (State.raise_follows _ _ _ _ (.refl _ _) rfl) rfl
  exact f.kept .far rfl

theorem State.farGone_fget (s : State) (hft : ft < 2) (tag : Nat) (r : FarReq) :
    (s.farGone ft tag r).fget F.glPortErr_far_err [24 + ft] = 1 := by
  have apart : F.glPortErr_far_err.reg.addr [24 + ft] ≠ Reg.obEvrStat.addr [] := by
    interval_cases ft <;> decide
  unfold State.farGone
  rw [State.fget_log _ _ _ _ _ _ apart, State.fget_raise_same _ _ (by decide) rfl]

theorem State.farGone_obs (s : State) (ft tag : Nat) (r : FarReq) :
    (s.farGone ft tag r).obs = (s.log .farErr (24 + ft) r.tries 0 r.addr).obs := by
  have f : s.Follows (fieldMask [.regs, .far]) ((s.dropFar r).raise 6 F.glPortErr_far_err [24 + ft]
      [(F.glPortErr_first_tag, tag), (F.glPortErr_first_kind, 0)]) :=
    State.raise_follows _ _ _ _ (State.Follows.set_far (.refl _ s) rfl) rfl
  exact State.log_obs_of_obs (f.kept .obs rfl) _ _ _ _ _

theorem State.farGone_regsBut (s : State) (ft tag : Nat) (r : FarReq) :
    s.regsBut (s.farGone ft tag r) [Reg.glPortErr.addr [24 + ft], Reg.obEvrStat.addr []] := by
  intro a ha
  obtain ⟨hp, ho⟩ : a ≠ Reg.glPortErr.addr [24 + ft] ∧ a ≠ Reg.obEvrStat.addr [] := by simpa using ha
  refine (State.tfind_log_other _ _ _ _ _ _ ho).trans (State.tfind_raise_other _ hp ?_)
  intro e he
  simp only [List.mem_cons, List.not_mem_nil, or_false] at he
  rcases he with rfl | rfl <;> exact hp

end

/-! ## Credits (R48) -/

/-- What a step of sending does when a request waits, its space can be reserved and a tag is free. -/
theorem State.sendOne_of_waiting {q : FarReq} {k : Nat} (up : (s.port (24 + ft)).st = .ready) (held : 0 < (s.port (24 + ft)).hdrHeld)
    (hq : s.far.find? (fun x => x.ft = ft && x.tries = 0 && s.canReserve x.dest) = some q) (hk : s.freeFarTag ft = some k) :
    ∃ t, s.sendOne ft = some t ∧ t.out = s.out ++ [.farRead (24 + ft) k q.addr q.len]
      ∧ { q with tag := k, tries := 1, sent := s.clk.now } ∈ t.far := by
  have h0 : (s.port (24 + ft)).hdrHeld ≠ 0 := Nat.ne_of_gt held
  refine ⟨_, by simp only [State.sendOne, up, h0, hq, hk]; rfl, ?_, ?_⟩
  · rw [State.ev_out]; rfl
  · rw [State.ev_far]
    exact List.mem_append_right _ List.mem_cons_self

/-- A request that has been sent stays as it is while another one goes out. -/
theorem State.sendOne_keeps_sent {q : FarReq} (h : s.sendOne ft = some t) (hq : q ∈ s.far) (sent : q.tries ≠ 0) : q ∈ t.far := by
  unfold State.sendOne at h
  extract_lets n p at h
  split at h
  · cases h
  split at h
  next r k hr hk =>
    cases h
    have waits : r.tries = 0 := by
      have sel := List.find?_some hr
      simp only [Bool.and_eq_true, decide_eq_true_eq] at sel
      exact sel.1.2
    have ne : q ≠ r := fun e => sent (e ▸ waits)
    rw [State.ev_far]
    change q ∈ s.far.takeWhile (· ≠ r) ++ _ :: (s.far.dropWhile (· ≠ r)).drop 1
    rw [← List.takeWhile_append_dropWhile (p := (· ≠ r)) (l := s.far), List.mem_append] at hq
    rcases hq with hq | hq
    · exact List.mem_append_left _ hq
    · refine List.mem_append_right _ (List.mem_cons_of_mem _ ?_)
      cases hd : s.far.dropWhile (· ≠ r) with
      | nil => rw [hd] at hq; cases hq
      | cons x l =>
        have hx : x = r := by
          have := List.head_dropWhile_not (p := (· ≠ r)) (l := s.far) (hd ▸ List.cons_ne_nil x l)
          simpa only [hd, List.head_cons, decide_eq_false_iff_not, ne_eq, not_not] using this
        rw [hd] at hq
        exact (List.mem_cons.mp hq).resolve_left fun e => ne (e.trans hx)
  · cases h

theorem State.pumpFar_keeps_sent {q : FarReq} (sent : q.tries ≠ 0) : ∀ (n : Nat) {s : State}, q ∈ s.far → q ∈ (s.pumpFar ft n).far
  | 0, _, h => h
  | n + 1, s, h => by
    unfold State.pumpFar
    split
    next t ht => exact State.pumpFar_keeps_sent sent n (State.sendOne_keeps_sent ht h sent)
    next => exact h

theorem State.farCredits_of_ready (up : (s.port (24 + ft)).st = .ready) (hdr wdat : Nat) : s.farCredits ft hdr wdat
    = (s.setPort (24 + ft) { s.port (24 + ft) with
        hdrHeld := (s.port (24 + ft)).hdrHeld + hdr
        wdatHeld := (s.port (24 + ft)).wdatHeld + wdat }).pump ft := by
  simp only [State.farCredits, up, ne_eq, not_true_eq_false, if_false]

theorem State.walk_setPort (s : State) (n : Nat) (p : Port) : ∀ k, (s.setPort n p).walk k = s.walk k
  | 0 => rfl
  | k + 1 => by
    funext gi x tails
    unfold State.walk
    rw [State.walk_setPort s n p k]
    rfl

theorem State.copies_setPort (s : State) (n : Nat) (p : Port) : (s.setPort n p).copies = s.copies := by
  funext root x
  simp only [State.copies, State.placeIn, State.partnerIn, State.placeAt, State.redirect, State.walkFrom, State.walk_setPort]
  rfl

/-- The space that a request takes does not depend on the ports. -/
theorem State.canReserve_setPort (s : State) (n : Nat) (p : Port) : (s.setPort n p).canReserve = s.canReserve := by
  have land : (s.setPort n p).landing = s.landing := by
    funext seg b
    simp only [State.landing, State.copies_setPort]
    rfl
  have res : (s.setPort n p).reserves = s.reserves := by
    funext pc d
    simp only [State.reserves, land]
  funext d
  simp only [State.canReserve, State.wqReserved, land, res]
  rfl

end

end Sys2Proof.Machine
end

