-- ==== Sys2Proof/Proofs/FarRequests.lean ====
section
/-! The statement of R48 and R59 to R61, assembled from the cases of FarTier. -/
namespace Sys2Proof.Machine

section
variable {s : State} {ft tag : Nat} {r : FarReq} {poison : Bool} {data : List Granule}

/-- The state of granules that a response brings. -/
def respStatus (poison : Bool) : PStatus := if poison = true then .poisoned else .ok

theorem State.farDeliver_unit {id g : Nat} (hd : r.dest = .unit id g) : s.farDeliver r poison data
    = some ((s.unitIn id g (respStatus poison) ((data[0]?).getD 0)).ev 0x603 0 1) := by
  simp only [State.farDeliver, hd]
  rfl

theorem State.farDeliver_stream {cl core e slot g : Nat} {c : Core} (hd : r.dest = .stream cl core e slot g c.run)
    (hc : s.coreAt cl core = some c) : s.farDeliver r poison data
      = some ((s.setCore cl core (c.setEng e { c.eng e with
          buf := tset (c.eng e).buf (bufKey slot g) (respStatus poison, (data[0]?).getD 0)
          asked := (c.eng e).asked.filter (· ≠ bufKey slot g) })).ev 0x603 0 1) := by
  simp only [State.farDeliver, hd]
  rw [State.streamIn_of_run hc]
  rfl

theorem State.farDeliver_fetch {seg b : Nat} (hd : r.dest = .fetch seg b) :
    s.farDeliver r poison data = s.blockIn seg b poison data := by
  simp only [State.farDeliver, hd]

theorem State.farFailed_unit {id g : Nat} (hd : r.dest = .unit id g) : s.farFailed r = s.unitIn id g .farErr 0 := by
  simp only [State.farFailed, hd]

theorem State.farDeliver_pass {n id i : Nat} (hd : r.dest = .pass n id i) :
    s.farDeliver r poison data = some (s.passIn n id i poison data r.len) := by
  simp only [State.farDeliver, hd]

/-- The response's data go to the packet, core, fetch or client that the request names (R60). -/
theorem State.farResponse_to_unit (hft : ft < 2) (hr : s.farReq ft tag = some r) (up : (s.port (24 + ft)).st = .ready)
    (sent : s.allSent ft) {id g : Nat} {p : Packet} (hd : r.dest = .unit id g) (hp : tfind s.packets id = some p)
    (run : p.st = .running) : ∃ t, exec (.farResponse ft tag poison data) s = .next t
      ∧ tfind t.packets id = some { p with
          got := tset p.got g (respStatus poison, (data[0]?).getD 0)
          asked := p.asked.filter (· ≠ g) }
      ∧ s.othersKept t id ∧ t.far = s.far.filter (· ≠ r) ∧ s.only t [.regs, .packets, .far] := by
  have unit := s.unitIn_follows_self id g (respStatus poison) ((data[0]?).getD 0)
  have packets := (State.ev_packets _ 0x603 0 1).trans (State.packets_unitIn hp run g (respStatus poison) ((data[0]?).getD 0))
  have far := (State.ev_far _ 0x603 0 1).trans (unit.kept .far rfl)
  refine ⟨_, (exec_farResponse hft tag poison data).trans
      (congrArg _ (State.farResponse_of_taken hr up (State.farDeliver_unit hd) sent far)), ?_, fun j hj => ?_, State.dropFar_far far r, ?_⟩
  · exact (congrArg (tfind · id) packets).trans (tfind_tset_same _ _ _)
  · exact (congrArg (tfind · j) packets).trans (tfind_tset_other _ _ hj)
  · exact State.Follows.only (State.Follows.set_far (State.ev_follows _ _ _ (State.unitIn_follows _ _ _ _ (.refl _ s) rfl) rfl) rfl)

theorem State.farResponse_to_stream (hft : ft < 2) (hr : s.farReq ft tag = some r) (up : (s.port (24 + ft)).st = .ready)
    (sent : s.allSent ft) {cl core e slot g : Nat} {c : Core} (hd : r.dest = .stream cl core e slot g c.run)
    (hc : s.coreAt cl core = some c) : ∃ t, exec (.farResponse ft tag poison data) s = .next t
      ∧ tfind t.cores (coreKey cl core) = some (c.setEng e { c.eng e with
          buf := tset (c.eng e).buf (bufKey slot g) (respStatus poison, (data[0]?).getD 0)
          asked := (c.eng e).asked.filter (· ≠ bufKey slot g) })
      ∧ t.far = s.far.filter (· ≠ r) ∧ s.only t [.regs, .cores, .far] := by
  have taken := State.farDeliver_stream (poison := poison) (data := data) hd hc
  refine ⟨_, (exec_farResponse hft tag poison data).trans (congrArg _ (State.farResponse_of_taken hr up taken sent ?_)), ?_, ?_, ?_⟩
  · rw [State.ev_far]; rfl
  · change tfind (State.ev _ _ _ _).cores _ = _
    rw [State.ev_cores]
    exact tfind_tset_same _ _ _
  · exact State.dropFar_far (State.ev_far _ _ _ _) r
  · exact State.Follows.only (State.Follows.set_far (State.ev_follows _ _ _ (State.setCore_follows _ _ _ (.refl _ s) rfl) rfl) rfl)

theorem State.farResponse_to_fetch (hft : ft < 2) (hr : s.farReq ft tag = some r) (up : (s.port (24 + ft)).st = .ready)
    (sent : s.allSent ft) {seg b : Nat} {u : State} (hd : r.dest = .fetch seg b) (hu : s.blockIn seg b poison data = some u) :
    ∃ t, exec (.farResponse ft tag poison data) s = .next t ∧ t.far = s.far.filter (· ≠ r) ∧ t.mem = u.mem
      ∧ t.fetches = s.fetches.map fun f => if f.seg = seg then { f with got := f.got ||| (1 <<< b) } else f := by
  have same : u.far = s.far := (State.blockIn_follows (.refl 0x28000a190c53 s) hu rfl).kept .far rfl
  have taken : s.farDeliver r poison data = some u := (State.farDeliver_fetch hd).trans hu
  have come := State.blockIn_fetches hu
  exact ⟨_, (exec_farResponse hft tag poison data).trans (congrArg _ (State.farResponse_of_taken hr up taken sent same)),
    State.dropFar_far same r, rfl, come⟩

theorem State.farResponse_to_pass (hft : ft < 2) (hr : s.farReq ft tag = some r) (up : (s.port (24 + ft)).st = .ready)
    (sent : s.allSent ft) {n id i : Nat} (hd : r.dest = .pass n id i) : ∃ t, exec (.farResponse ft tag poison data) s = .next t
      ∧ t.far = s.far.filter (· ≠ r) ∧ s.only t [.regs, .free, .ports, .dir, .far] := by
  have f : s.Follows (fieldMask [.regs, .free, .ports, .dir]) (s.passIn n id i poison data r.len) :=
    State.passIn_follows _ _ _ _ _ _ (.refl _ s) rfl
  have same : (s.passIn n id i poison data r.len).far = s.far := f.kept .far rfl
  refine ⟨_, (exec_farResponse hft tag poison data).trans (congrArg _ (State.farResponse_of_taken hr up (State.farDeliver_pass hd) sent same)),
    State.dropFar_far same r, ?_⟩
  exact State.Follows.only (State.Follows.set_far (State.passIn_follows _ _ _ _ _ _ (.refl _ s) rfl) rfl)

/-- The READ is sent again with its tag, at the cost of a credit (R61, log entry 52). -/
theorem State.farTimeout_again (hft : ft < 2) (hr : s.farReq ft tag = some r) (few : r.tries < 4)
    (up : (s.port (24 + ft)).st = .ready) (held : 0 < (s.port (24 + ft)).hdrHeld) : ∃ t, exec (.farTimeout ft tag) s = .next t
      ∧ t.far = s.far.map (fun q => if q = r then { r with tries := r.tries + 1, sent := s.clk.now } else q)
      ∧ t.port (24 + ft) = { s.port (24 + ft) with hdrHeld := (s.port (24 + ft)).hdrHeld - 1 }
      ∧ t.out = s.out ++ [.farRead (24 + ft) tag r.addr r.len] ∧ s.only t [.regs, .out, .ports, .far] := by
  refine ⟨_, (exec_farTimeout hft tag).trans (congrArg _ (State.farTimeout_of_retry hr few up held)), ?_, ?_, ?_, ?_⟩
  · rw [State.ev_far, State.ev_far]; rfl
  · rw [State.ev_port, State.ev_port]
    exact State.port_setPort _ _ _
  · rw [State.ev_out, State.ev_out]; rfl
  · exact State.Follows.only (State.ev_follows _ _ _ (State.ev_follows _ _ _ (State.emit_follows _ (State.setPort_follows _ _
      (State.Follows.set_far (.refl _ s) rfl) rfl) rfl) rfl) rfl)

/-- The fourth attempt has brought no response either: the packet learns of FAR_ERR. -/
theorem State.farTimeout_ends (hft : ft < 2) (hr : s.farReq ft tag = some r) (used : 4 ≤ r.tries) (sent : s.allSent ft) {id g : Nat}
    {p : Packet} (hd : r.dest = .unit id g) (hp : tfind s.packets id = some p) (run : p.st = .running) :
    ∃ t, exec (.farTimeout ft tag) s = .next t ∧ t.far = s.far.filter (· ≠ r) ∧ t.fget F.glPortErr_far_err [24 + ft] = 1
      ∧ t.obs = (s.log .farErr (24 + ft) r.tries 0 r.addr).obs
      ∧ tfind t.packets id = some { p with got := tset p.got g (.farErr, 0), asked := p.asked.filter (· ≠ g) }
      ∧ s.othersKept t id ∧ s.regsBut t [Reg.glPortErr.addr [24 + ft], Reg.obEvrStat.addr []]
      ∧ s.only t [.regs, .obs, .packets, .far] := by
  have packets : (s.farGone ft tag r).packets = s.packets := (s.farGone_follows ft tag r).kept .packets rfl
  have unit := (s.farGone ft tag r).unitIn_follows_self id g .farErr 0
  have regs : ((s.farGone ft tag r).unitIn id g .farErr 0).regs = (s.farGone ft tag r).regs := unit.kept .regs rfl
  have far : ((s.farGone ft tag r).unitIn id g .farErr 0).far = s.far.filter (· ≠ r) :=
    (unit.kept .far rfl).trans (s.farGone_far ft tag r)
  have ended : s.farTimeout ft tag = (s.farGone ft tag r).unitIn id g .farErr 0 := by
    rw [State.farTimeout_of_used_up hr used, State.farFailed_unit hd]
    exact State.pump_of_allSent fun q hq => sent q (List.mem_of_mem_filter (far ▸ hq))
  have got := State.packets_unitIn (packets ▸ hp) run g .farErr 0
  rw [packets] at got
  refine ⟨_, by rw [exec_farTimeout hft tag, ended], far, ?_, (unit.kept .obs rfl).trans (s.farGone_obs ft tag r), ?_, fun j hj => ?_,
    fun a ha => ?_, ?_⟩
  · rw [State.fget_of_regs regs, s.farGone_fget hft]
  · rw [got, tfind_tset_same]
  · rw [got, tfind_tset_other _ _ hj]
  · rw [regs, s.farGone_regsBut ft tag r a ha]
  · exact State.Follows.only (State.unitIn_follows _ _ _ _ (State.log_follows _ _ _ _ _ (State.raise_follows _ _ _ _
      (State.Follows.set_far (.refl _ s) rfl) rfl) rfl) rfl)

/-- Returned credits send the oldest request whose space can be reserved; those after it leave it as sent. -/
theorem State.farCreditReturn_sends (hft : ft < 2) (up : (s.port (24 + ft)).st = .ready) {hdr wdat k : Nat} {q : FarReq}
    (hq : s.far.find? (fun x => x.ft = ft && x.tries = 0 && s.canReserve x.dest) = some q) (hk : s.freeFarTag ft = some k)
    (held : 0 < (s.port (24 + ft)).hdrHeld + hdr) : ∃ t, exec (.farCreditReturn ft hdr wdat) s = .next t
      ∧ (s.out ++ [.farRead (24 + ft) k q.addr q.len]) <+: t.out
      ∧ { q with tag := k, tries := 1, sent := s.clk.now } ∈ t.far ∧ s.only t [.regs, .out, .ports, .far] := by
  have credits := State.farCredits_of_ready up hdr wdat
  obtain ⟨t, ht, out, mem⟩ : ∃ t, State.sendOne (s.setPort (24 + ft) { s.port (24 + ft) with
      hdrHeld := (s.port (24 + ft)).hdrHeld + hdr
      wdatHeld := (s.port (24 + ft)).wdatHeld + wdat }) ft = some t ∧ _ ∧ _ :=
    State.sendOne_of_waiting (q := q) (k := k) (by rw [State.port_setPort]; exact up) (by rw [State.port_setPort]; exact held)
      (by rw [State.canReserve_setPort]; exact hq) hk
  have first : s.Follows (fieldMask [.regs, .out, .ports, .far]) t :=
    State.sendOne_follows (State.setPort_follows _ _ (.refl (fieldMask [.regs, .out, .ports, .far]) s) rfl) ht rfl
  have rest : t.Follows (fieldMask [.regs, .out, .ports, .far]) (t.pumpFar ft 4095) := State.pumpFar_follows ft 4095 (.refl _ t) rfl
  have step : ∀ u : State, u.pump ft = u.pumpFar ft (4095 + 1) := fun _ => rfl
  rw [step, State.pumpFar, ht] at credits
  refine ⟨_, (exec_farCreditReturn hft hdr wdat).trans (congrArg _ credits), ?_, State.pumpFar_keeps_sent Nat.one_ne_zero 4095 mem, ?_⟩
  · exact out ▸ rest.shown
  · exact (first.trans rest).only

end

/-- Settles O44: the response's four destinations, the two ends of a timeout and the two effects of returned credits. -/
theorem farRequests : Obligations.FarRequests := by
  intro s ft tag r hft hr
  refine ⟨fun poison data up sent => ⟨fun id g p hd hp run => State.farResponse_to_unit hft hr up sent hd hp run,
      fun seg b u hd hu => State.farResponse_to_fetch hft hr up sent hd hu, fun seg b hd waits => ?_,
      fun cl core e slot g run c hd hc hrun => ?_, fun n id i hd => State.farResponse_to_pass hft hr up sent hd⟩,
    fun poison data down => ?_, State.farTimeout_again hft hr, fun few no => ?_,
    fun used sent id g p hd hp run => State.farTimeout_ends hft hr used sent hd hp run,
    fun hdr wdat up => ⟨fun sent => ?_, fun q k hq hk held => State.farCreditReturn_sends hft up hq hk held⟩⟩
  · rw [exec_farResponse hft, State.farResponse_of_waits hr ((State.farDeliver_fetch hd).trans waits)]
  · subst hrun
    exact State.farResponse_to_stream hft hr up sent hd hc
  · rw [exec_farResponse hft, State.farResponse_of_not_ready down]
  · rw [exec_farTimeout hft, State.farTimeout_of_no_attempt hr few no]
  · rw [exec_farCreditReturn hft, State.farCredits_of_ready up]
    exact congrArg _ (State.pump_of_allSent fun q hq => sent q hq)

end Sys2Proof.Machine
end

