-- ==== Sys2Proof/Proofs/IngressRefuted.lean ====
section
/-! A pool number past the pools, and the refutations of the statements about requests that enter and requests refused. -/
namespace Sys2Proof.Machine

/-! ## A directory entry past the pools

Ingress looks at a request after it has counted the event of its arrival (R493, R494), and the statements judge it before. For a
directory entry that names one of the eight pools the two agree. The statements admit every state, also one whose entry names pool
0x2C001: what stands for TR_POOL_CFG(0x2C001) lies at the offset of OB_PMC_OVF(1), where the event itself sets a bit. -/

example : Reg.trPoolCfg.addr [0x2C001] = Reg.obPmcOvf.addr [1] := by decide

/-- A descriptor whose accesses need key slot 0, which is not loaded. -/
def keyedDesc : Desc := ⟨0, 0, 0, BitVec.ofNat 64 (2 ^ 22)⟩

/-- Segment 0 is LOCAL in pool 0x2C001, whose descriptor reads 8 while counter 68 stands before its wrap and 9 once it has wrapped;
the arrival of a request at port 0 is what the counter counts. Descriptor k needs a key that is not loaded. -/
def pastPools (k : Nat) : State :=
  { ([(F.trCfg_en, [], 1), (F.scLinkStat_state, [0], 3), (F.obPmcCtl_en, [], 1), (F.obPmcCfg_en, [68], 1), (F.obPmcCfg_event, [68], 0x100),
      (F.obPmc_count, [68], 2 ^ 48 - 1), (F.obPmcOvf_ovf, [1], 2 ^ 7)].foldl (fun s e => s.fset e.1 e.2.1 e.2.2) State.reset) with
    ports := [(0, { Port.init with st := .ready, drev := 2, hdrHeld := 1 })]
    dir := [(0, { SegEnt.init with st := .loc, pool := 0x2C001 })]
    descs := [(k, keyedDesc)] }

/-- The header of a READ of the first granule of segment 0. -/
def readSeg0 : BitVec 128 := BitVec.ofNat 128 (2 ^ (32 + 47))

/-- Port 0 after the READ. -/
def portAfterRead (s : State) : Option Port :=
  match exec (.read 0 readSeg0) s with
  | .next t => some (t.port 0)
  | _ => none

theorem portAfterRead_of_exec {s t : State} (h : exec (.read 0 readSeg0) s = .next t) : portAfterRead s = some (t.port 0) := by
  simp only [portAfterRead, h]

theorem readSeg0_passes_before : (pastPools 9).ingressFail 0 (decodeHdr readSeg0) 0 [] = none := by decide +kernel

theorem readSeg0_refused_by_exec : (portAfterRead (pastPools 9)).map (·.reqs) = some [] := by decide +kernel

theorem readSeg0_denied_before : (pastPools 8).ingressFail 0 (decodeHdr readSeg0) 0 [] = some .denied := by decide +kernel

theorem readSeg0_entered_by_exec : (portAfterRead (pastPools 8)).map (·.frames) = some [] := by decide +kernel

/-- Refutes O37: a READ that passes every check before its arrival is counted is refused after it (its segment's entry names a pool
that does not exist, which no premise excludes). -/
theorem not_requestsEnter : ¬ Obligations.RequestsEnter := by
  intro h
  obtain ⟨t, ht, -, ⟨r, hr, -⟩, -⟩ := h (pastPools 9) 0 readSeg0 0 0 (0, 0) [] [] [] (.read 0 readSeg0) .read (by decide)
    List.mem_cons_self (by decide +kernel) (by decide +kernel) (by decide +kernel) (by decide +kernel) (by decide +kernel)
    readSeg0_passes_before (by decide +kernel) (by decide +kernel)
  have empty : (t.port 0).reqs = [] := by
    simpa only [portAfterRead_of_exec ht, Option.map_some, Option.some.injEq] using readSeg0_refused_by_exec
  rw [empty] at hr
  exact List.not_mem_nil hr

/-- Refutes O38: a READ that is DENIED before its arrival is counted enters after it, for the same reason. -/
theorem not_requestsRefused : ¬ Obligations.RequestsRefused := by
  rintro ⟨h, -⟩
  obtain ⟨t, f, ht, hf, -⟩ := h (pastPools 8) 0 readSeg0 0 0 (0, 0) [] [] (.read 0 readSeg0) .denied (by decide)
    List.mem_cons_self (by decide +kernel) (by decide +kernel) (by decide +kernel) (by decide +kernel) (by decide +kernel)
    (by decide +kernel) readSeg0_denied_before
  have empty : (t.port 0).frames = [] := by
    simpa only [portAfterRead_of_exec ht, Option.map_some, Option.some.injEq] using readSeg0_entered_by_exec
  rw [empty] at hf
  exact List.append_ne_nil_of_right_ne_nil _ (List.cons_ne_nil f []) hf.symm

end Sys2Proof.Machine
end

