-- ==== Sys2Proof/Proofs/Anchors.lean ====
section
/-! The state of each port, its PRST_N and the stored CP_FW_STAT, which register writes elsewhere, events and records leave alone. -/
namespace Sys2Proof.Machine

/-- The state of each port with its level of PRST_N, and the stored word of CP_FW_STAT: no access to memory and no end of a request
or packet touches them. -/
def State.anchors (s : State) : (Nat → PortState × Bool) × Option Word :=
  (fun m => ((s.port m).st, (s.port m).prstN), tfind s.regs (Reg.cpFwStat.addr []))

section
variable {s t : State}

theorem State.anchors_of_parts (hp : ∀ m, t.port m = s.port m)
    (hr : tfind t.regs (Reg.cpFwStat.addr []) = tfind s.regs (Reg.cpFwStat.addr [])) :
    t.anchors = s.anchors := by
  simp only [State.anchors, hp, hr]

/-- An operation whose law names neither ports nor registers. -/
theorem State.anchors_of_follows {m : Nat} (h : s.Follows m t) (hp : m.testBit 6 = false) (hr : m.testBit 1 = false) :
    t.anchors = s.anchors :=
  State.anchors_of_parts (fun n => congrArg (tget Port.init · n) (h.kept .ports hp)) (congrArg (tfind · _) (h.kept .regs hr))

theorem State.anchors_fst {α : Type} {p : State × α} {x : α} (e : p = (t, x)) (h : p.1.anchors = s.anchors) :
    t.anchors = s.anchors := by
  subst e; exact h

theorem State.anchors_foldl {α : Type} {f : State → α → State} (hf : ∀ t x, (f t x).anchors = t.anchors) :
    ∀ (l : List α) (s : State), (l.foldl f s).anchors = s.anchors
  | [], _ => rfl
  | x :: l, s => (State.anchors_foldl hf l (f s x)).trans (hf s x)

theorem State.anchors_foldlFst {α β : Type} {f : State × β → α → State × β} (hf : ∀ t x, (f t x).1.anchors = t.1.anchors) :
    ∀ (l : List α) (p : State × β), (l.foldl f p).1.anchors = p.1.anchors
  | [], _ => rfl
  | x :: l, p => (State.anchors_foldlFst hf l (f p x)).trans (hf p x)

/-- Both sides of a branch. -/
theorem State.anchors_ite {c : Prop} [Decidable c] {x y : State} (hx : x.anchors = s.anchors) (hy : y.anchors = s.anchors) :
    (if c then x else y).anchors = s.anchors := by
  split <;> assumption

end

/-! ## Registers -/

/-- A family none of whose registers, at any index, lies at the offset of CP_FW_STAT. -/
def Reg.clearOfFw (r : Reg) : Bool :=
  decide (0x380000 < r.base) || (decide (r.base % 256 ≠ 0) && r.dims.all fun e => e.2 % 256 = 0)

theorem Reg.addr_ne_fw {r : Reg} (h : r.clearOfFw = true) (ix : List Nat) : Reg.cpFwStat.addr [] ≠ r.addr ix := by
  have fw : Reg.cpFwStat.addr [] = 0x380000 := rfl
  have e : r.addr ix = r.base + ((ix.zip r.dims).map fun e => e.1 * e.2.2).sum := by rw [Reg.addr, sumBy_eq_sum]
  simp only [Reg.clearOfFw, Bool.or_eq_true, Bool.and_eq_true, decide_eq_true_eq, List.all_eq_true] at h
  rcases h with above | ⟨odd, strides⟩
  · omega
  · have whole : 256 ∣ ((ix.zip r.dims).map fun e => e.1 * e.2.2).sum := by
      refine List.dvd_sum fun x hx => ?_
      obtain ⟨⟨i, n, st⟩, he, rfl⟩ := List.mem_map.mp hx
      exact Dvd.dvd.mul_left (Nat.dvd_of_mod_eq_zero (strides (n, st) (List.of_mem_zip he).2)) i
    omega

section
variable (s : State)

theorem State.anchors_rput {r : Reg} (h : r.clearOfFw = true) (ix : List Nat) (w : Word) : (s.rput r ix w).anchors = s.anchors :=
  State.anchors_of_parts (fun _ => rfl) (s.tfind_rput_other w (Reg.addr_ne_fw h ix))

theorem State.anchors_fset {f : Fld} (h : f.reg.clearOfFw = true) (ix : List Nat) (v : Nat) : (s.fset f ix v).anchors = s.anchors :=
  s.anchors_rput h ix _

theorem State.anchors_fsat {f : Fld} (h : f.reg.clearOfFw = true) (ix : List Nat) (n : Nat) : (s.fsat f ix n).anchors = s.anchors :=
  s.anchors_fset h ix _

theorem State.anchors_fadd {f : Fld} (h : f.reg.clearOfFw = true) (ix : List Nat) (n : Nat) : (s.fadd f ix n).anchors = s.anchors :=
  s.anchors_fset h ix _

/-- A flag raised with the fields that a first error captures in the same register. -/
theorem State.anchors_raise {f : Fld} (h : f.reg.clearOfFw = true) (n : Nat) (ix : List Nat) {firsts : List (Fld × Nat)}
    (hl : ∀ e ∈ firsts, e.1.reg = f.reg) : (s.raise n f ix firsts).anchors = s.anchors := by
  refine State.anchors_of_parts (fun m => ?_) (s.tfind_raise_other (Reg.addr_ne_fw h ix) fun e he => hl e he ▸ Reg.addr_ne_fw h ix)
  exact congrArg (tget Port.init · m) ((State.raise_follows (μ := 0x2) n f ix firsts (.refl _ s) rfl).kept .ports rfl)

@[simp] theorem State.anchors_pmcAdd (i n : Nat) : (s.pmcAdd i n).anchors = s.anchors := by
  unfold State.pmcAdd
  refine State.anchors_ite (s.anchors_fset rfl _ _) ?_
  rw [State.anchors_raise _ rfl _ _ (by simp [F.obInt_first_src, F.obInt_pmc_ovf]), State.anchors_rput _ rfl, State.anchors_fset _ rfl]

@[simp] theorem State.anchors_ev (code inst n : Nat) : (s.ev code inst n).anchors = s.anchors := by
  unfold State.ev
  refine State.anchors_ite rfl (State.anchors_foldl (fun t i => ?_) _ _)
  exact State.anchors_ite (t.anchors_pmcAdd i n) rfl

@[simp] theorem State.anchors_log (ty : RecTy) (src sub a0 a1 : Nat) : (s.log ty src sub a0 a1).anchors = s.anchors := by
  refine State.anchors_of_parts (fun m => ?_) (s.tfind_log_other _ _ _ _ _ (Reg.addr_ne_fw rfl []))
  exact congrArg (tget Port.init · m) ((State.log_follows (μ := 0x80000000002) ty src sub a0 a1 (.refl _ s) rfl).kept .ports rfl)

/-! ## Ports -/

theorem State.anchors_setPort {n : Nat} {p : Port} (hs : p.st = (s.port n).st) (hl : p.prstN = (s.port n).prstN) :
    (s.setPort n p).anchors = s.anchors := by
  have e : ∀ m, (((s.setPort n p).port m).st, ((s.setPort n p).port m).prstN) = ((s.port m).st, (s.port m).prstN) := fun m => by
    by_cases h : m = n
    · subst h
      rw [State.port_setPort, hs, hl]
    · rw [State.port_setPort_other _ _ h]
  exact Prod.ext (funext e) rfl

@[simp] theorem State.anchors_setReq (n : Nat) (r : PortReq) : (s.setReq n r).anchors = s.anchors := s.anchors_setPort rfl rfl

@[simp] theorem State.anchors_creditBack (n h w : Nat) : (s.creditBack n h w).anchors = s.anchors := by
  unfold State.creditBack
  exact State.anchors_ite rfl (s.anchors_setPort rfl rfl)

/-! ## Operations on other components -/

@[simp] theorem State.anchors_setPcc (pc : Nat) (p : Pcc) : (s.setPcc pc p).anchors = s.anchors := rfl
@[simp] theorem State.anchors_emit (o : Out) : (s.emit o).anchors = s.anchors := rfl
@[simp] theorem State.anchors_setArb (i : Nat) (a : Arb) : (s.setArb i a).anchors = s.anchors := rfl
@[simp] theorem State.anchors_setPacket (p : Packet) : (s.setPacket p).anchors = s.anchors := rfl
@[simp] theorem State.anchors_setTenQ (k : Nat) (q : TenQ) : (s.setTenQ k q).anchors = s.anchors := rfl
@[simp] theorem State.anchors_storeSector (p : Place) (h : Nat) (poison : Bool) (d : SectorData) :
    (s.storeSector p h poison d).anchors = s.anchors := rfl
@[simp] theorem State.anchors_askFar (ft addr len : Nat) (d : FarDest) : (s.askFar ft addr len d).anchors = s.anchors := rfl

@[simp] theorem State.anchors_addJob (j : LadderJob) : (s.addJob j).anchors = s.anchors :=
  State.anchors_of_follows (State.addJob_follows (μ := 0x80000) j (.refl _ s) rfl) rfl rfl

@[simp] theorem State.anchors_laneJob (pc k : Nat) : (s.laneJob pc k).anchors = s.anchors :=
  State.anchors_of_follows (State.laneJob_follows (μ := 0x80000) pc k (.refl _ s) rfl) rfl rfl

@[simp] theorem State.anchors_writeBack (pl : Place) (seq h : Nat) (poison : Bool) (d : SectorData) :
    (s.writeBack pl seq h poison d).anchors = s.anchors :=
  State.anchors_of_follows (State.writeBack_follows (μ := 0x400) pl seq h poison d (.refl _ s) rfl) rfl rfl

@[simp] theorem State.anchors_mateWrite (pl : Place) (f : Ent → Option Ent) : (s.mateWrite pl f).anchors = s.anchors :=
  State.anchors_of_follows (State.mateWrite_follows (μ := 0x400) pl f (.refl _ s) rfl) rfl rfl

@[simp] theorem State.anchors_groupSample (root pc x : Nat) : (s.groupSample root pc x).anchors = s.anchors :=
  State.anchors_of_follows (State.groupSample_follows (μ := 0x80000000000) root pc x (.refl _ s) rfl) rfl rfl

@[simp] theorem State.anchors_forceWrite (pc : Nat) (e : Ent) : (s.forceWrite pc e).anchors = s.anchors :=
  State.anchors_of_follows (State.forceWrite_follows (μ := 0xc00) pc e (.refl _ s) rfl) rfl rfl

@[simp] theorem State.anchors_forceBacks (pc seq : Nat) : (s.forceBacks pc seq).anchors = s.anchors :=
  State.anchors_of_follows (State.forceBacks_follows (μ := 0xc00) pc seq (.refl _ s) rfl) rfl rfl

@[simp] theorem State.anchors_arbRequest (i j : Nat) : (s.arbRequest i j).anchors = s.anchors :=
  State.anchors_of_follows (State.arbRequest_follows (μ := 0x200000000000) i j (.refl _ s) rfl) rfl rfl

@[simp] theorem State.anchors_fillFailed (l : List (PStatus × Granule)) : (s.fillFailed l).1.anchors = s.anchors :=
  State.anchors_of_follows (State.fillFailed_follows (μ := 0x10) l (.refl _ s) rfl) rfl rfl

@[simp] theorem State.anchors_snoopEnd (src bound : Nat) : (s.snoopEnd src bound).anchors = s.anchors :=
  State.anchors_of_follows (State.snoopEnd_follows (μ := 0x80000000000) src bound (.refl _ s) rfl) rfl rfl

@[simp] theorem State.anchors_demandFetch (n start : Nat) : (s.demandFetch n start).anchors = s.anchors :=
  State.anchors_of_follows (State.demandFetch_follows (μ := 0x30000000) n start (.refl _ s) rfl) rfl rfl

end

end Sys2Proof.Machine
end

