-- ==== Sys2Proof/Proofs/AnchorsAnswers.lean ====
section
/-! The anchors through the passing of time, segments, answers to requests and errors of the memory. -/
namespace Sys2Proof.Machine
section
variable (s : State)

/-! ## Time, and the wake of a stack -/

@[simp] theorem State.anchors_arbGive (i j : Nat) (b : Bool) : (s.arbGive i j b).anchors = s.anchors :=
  State.anchors_fsat _ rfl _ _

@[simp] theorem State.anchors_arbGrant (i : Nat) : (s.arbGrant i).anchors = s.anchors := by
  unfold State.arbGrant
  dsimp only
  split
  · rfl
  · split
    · rfl
    · exact s.anchors_arbGive _ _ _

@[simp] theorem State.anchors_arbSeized (i j : Nat) : (s.arbSeized i j).anchors = s.anchors := by
  simp (disch := decide) only [State.arbSeized, State.anchors_fset, State.anchors_log, State.anchors_arbGive]

@[simp] theorem State.anchors_arbDrop (i j : Nat) : (s.arbDrop i j).anchors = s.anchors := by
  unfold State.arbDrop
  dsimp only
  split
  · split <;> simp
  · rfl

@[simp] theorem State.anchors_askPort (i j : Nat) : (s.askPort i j).anchors = s.anchors := by
  unfold State.askPort
  exact State.anchors_ite rfl (by simp)

@[simp] theorem State.anchors_exitPass (k : Nat) : (s.exitPass k).anchors = s.anchors := by
  unfold State.exitPass
  refine State.anchors_ite ?_ (s.anchors_askPort k 1)
  rw [State.anchors_arbDrop, State.anchors_ev, State.anchors_fsat _ rfl]
  exact s.anchors_askPort k 1

/-- Components other than ports and registers have changed. -/
theorem State.anchors_of_eq {s t : State} (hp : t.ports = s.ports) (hr : t.regs = s.regs) : t.anchors = s.anchors :=
  State.anchors_of_parts (fun n => congrArg (tget Port.init · n) hp) (congrArg (tfind · _) hr)

@[simp] theorem State.anchors_tickTo (n : Nat) : (s.tickTo n).anchors = s.anchors := by
  have moved : ({ s with clk := { s.clk with now := n } } : State).anchors = s.anchors := State.anchors_of_eq rfl rfl
  unfold State.tickTo
  refine State.anchors_ite rfl ?_
  generalize ({ s with clk := { s.clk with now := n } } : State) = u at moved ⊢
  dsimp only
  have counted := ((u.ev 0x000 0 (u.mclk - s.mclk)).anchors_ev 0x001 0 (u.fclk - s.fclk)).trans ((u.anchors_ev _ _ _).trans moved)
  refine State.anchors_ite counted ((State.anchors_foldl (fun t k => ?_) _ _).trans counted)
  have active : ∀ c : Prop, [Decidable c] → (if c then t.ev 0x300 k (u.mclk - s.mclk) else t).anchors = t.anchors :=
    fun c _ => State.anchors_ite (t.anchors_ev _ _ _) rfl
  exact State.anchors_ite (active _) ((State.anchors_ev _ _ _ _).trans (active _))

@[simp] theorem State.anchors_restartPeriods (k : Nat) : (s.restartPeriods k).anchors = s.anchors := State.anchors_of_eq rfl rfl

theorem State.anchors_set_pccs (x : Table Pcc) : ({ s with pccs := x } : State).anchors = s.anchors := State.anchors_of_eq rfl rfl

@[simp] theorem State.anchors_wake (k : Nat) : (s.wake k).anchors = s.anchors := by
  unfold State.wake State.tick
  refine State.anchors_ite rfl ?_
  dsimp only
  split <;> simp (disch := decide) only [State.anchors_exitPass, State.anchors_set_pccs, State.anchors_restartPeriods, State.anchors_fset,
    State.anchors_tickTo]

/-! ## Segments -/

/-- A map over a table leaves what it leaves of each entry. -/
theorem tget_tmap_eq {α β : Type} (d : α) (g : α → β) (f : Nat → α → α) (h : ∀ k a, g (f k a) = g a) :
    ∀ (m : Table α) (k : Nat), g (tget d (tmap m f) k) = g (tget d m k)
  | [], _ => rfl
  | e :: m, k => by
    have ih := tget_tmap_eq d g f h m k
    by_cases hk : e.1 = k
    · simp [tget, tfind, tmap, hk, h]
    · simpa [tget, tfind, tmap, hk] using ih

@[simp] theorem State.anchors_setSeg (n : Nat) (e : SegEnt) : (s.setSeg n e).anchors = s.anchors := by
  have kept : ({ s with dir := tput SegEnt.init s.dir n e
                        ports := tmap s.ports fun _ p => { p with dirCopies := p.dirCopies.filter (· ≠ n) } } : State).anchors = s.anchors := by
    refine Prod.ext (funext fun m => ?_) rfl
    exact tget_tmap_eq Port.init (fun p => (p.st, p.prstN)) (fun _ p => { p with dirCopies := p.dirCopies.filter (· ≠ n) })
      (fun _ _ => rfl) s.ports m
  unfold State.setSeg
  exact State.anchors_ite kept ((State.anchors_raise _ rfl _ _ (by simp [F.trErr_first_seg, F.trErr_backing])).trans kept)

@[simp] theorem State.anchors_dropSeg (n : Nat) : (s.dropSeg n).anchors = s.anchors := s.anchors_setSeg _ _

@[simp] theorem State.anchors_touchSeg (n : Nat) : (s.touchSeg n).anchors = s.anchors := by
  unfold State.touchSeg
  exact State.anchors_ite (s.anchors_setSeg _ _) rfl

/-! ## The answer to a request -/

@[simp] theorem State.anchors_portErr (n : Nat) (st : PStatus) (tag kind : Nat) : (s.portErr n st tag kind).anchors = s.anchors := by
  have firsts : ∀ e ∈ [(F.glPortErr_first_tag, tag), (F.glPortErr_first_kind, kind)], e.1.reg = .glPortErr := by
    simp [F.glPortErr_first_tag, F.glPortErr_first_kind]
  cases st with
  | malformed | unsupported | denied | unmapped | farErr => exact State.anchors_raise _ rfl _ _ firsts
  | ok | poisoned | retry | unavailable | poisonMerge => rfl

@[simp] theorem State.anchors_lateErr (n : Nat) (r : PortReq) : (s.lateErr n r).anchors = s.anchors :=
  State.anchors_foldl (fun t _ => State.anchors_ite (t.anchors_portErr _ _ _ _) rfl) _ _

/-- Requests of a port end with a frame. -/
theorem State.anchors_endReq (n : Nat) (rs : List PortReq) (fs : List Frame) :
    (s.setPort n { s.port n with reqs := rs, frames := fs }).anchors = s.anchors := s.anchors_setPort rfl rfl

@[simp] theorem State.anchors_answer (n : Nat) (r : PortReq) : (s.answer n r).anchors = s.anchors := by
  have late := s.anchors_lateErr n r
  unfold State.answer
  generalize s.lateErr n r = u at late ⊢
  extract_lets u' mk out p
  have ended : ∀ (t : State) (f : Frame), t.anchors = s.anchors → (out t f).anchors = s.anchors := fun t f h =>
    (t.anchors_endReq n _ _).trans h
  have filled : ∀ (t : State) (l : List (PStatus × Granule)) (f : Frame), t.anchors = s.anchors →
      (out (t.fillFailed l).1 f).anchors = s.anchors := fun t l f h =>
    ended _ f ((t.anchors_fillFailed l).trans h)
  split
  · split
    · exact filled u _ _ late
    · extract_lets loc s1
      have h1 : s1.anchors = s.anchors := State.anchors_ite ((u.anchors_dropSeg _).trans late) late
      clear_value s1
      split
      · exact filled s1 _ _ h1
      next tr _ _ =>
        have saturated := (s1.anchors_raise (f := F.trErr_sat) rfl 4 [] (firsts := [(F.trErr_first_seg, tr.seg)])
          (by simp [F.trErr_first_seg, F.trErr_sat])).trans h1
        exact filled _ _ _ ((State.anchors_ev _ _ _ _).trans (State.anchors_ite saturated h1))
  · split
    · exact ended _ _ late
    · exact ended _ _ late
  · exact ended _ _ late

@[simp] theorem State.anchors_sweep (n id : Nat) : (s.sweep n id).anchors = s.anchors := by
  unfold State.sweep
  split
  · rfl
  · exact State.anchors_ite (s.anchors_answer _ _) rfl

@[simp] theorem State.anchors_setPart (n id i : Nat) (f : Part → Part) : (s.setPart n id i f).anchors = s.anchors := by
  unfold State.setPart
  split
  · rfl
  · exact (State.anchors_sweep _ n id).trans (s.anchors_setReq n _)

@[simp] theorem State.anchors_deliver (src : Src) (st : PStatus) (info : Nat) (d : Granule) :
    (s.deliver src st info d).anchors = s.anchors := by
  cases src with
  | part n id i => exact s.anchors_setPart n id i _
  | none => rfl

@[simp] theorem State.anchors_mergeOutcome (src : Src) (refused : Bool) : (s.mergeOutcome src refused).anchors = s.anchors := by
  unfold State.mergeOutcome
  split
  · exact s.anchors_setPart _ _ _ _
  · rfl

/-! ## Errors of the memory -/

@[simp] theorem State.anchors_bucketFull (pc a : Nat) : (s.bucketFull pc a).anchors = s.anchors := by
  unfold State.bucketFull
  extract_lets st p at' s1 s2
  have h2 : s2.anchors = s.anchors := by
    rw [State.anchors_log, State.anchors_raise _ rfl _ _ (by simp [F.scEccInt_ce_ovf, F.scEccInt_first_pc]), State.anchors_fsat _ rfl,
      State.anchors_setPcc]
  exact State.anchors_ite ((s2.anchors_addJob _).trans h2) h2

@[simp] theorem State.anchors_countUe (pc a : Nat) : (s.countUe pc a).anchors = s.anchors := by
  unfold State.countUe
  rw [State.anchors_addJob, State.anchors_log, State.anchors_raise _ rfl _ _ (by simp [F.scEccInt_ue, F.scEccInt_first_pc]),
    State.anchors_ev, State.anchors_fsat _ rfl]

@[simp] theorem State.anchors_countCe (pc a : Nat) (n : Option Nat) : (s.countCe pc a n).anchors = s.anchors := by
  unfold State.countCe
  extract_lets st p row bank p1 s1 t s2 s3 s4
  have h1 : s1.anchors = s.anchors := by rw [State.anchors_ev, State.anchors_fadd _ rfl, State.anchors_setPcc]
  have h2 : s2.anchors = s.anchors := Eq.trans (State.anchors_of_eq (s := s1) (t := s2) rfl rfl) h1
  clear_value s2
  have h3 : s3.anchors = s.anchors := by
    cases n with
    | some k => exact (s2.anchors_laneJob pc k).trans h2
    | none => exact h2
  clear_value s3
  have h4 : s4.anchors = s.anchors := State.anchors_ite ((s3.anchors_addJob _).trans h3) h3
  exact State.anchors_ite ((s4.anchors_bucketFull pc a).trans h4) h4

@[simp] theorem State.anchors_partnerTake (pl : Place) (h : Nat) : (s.partnerTake pl h).1.anchors = s.anchors := by
  unfold State.partnerTake
  split
  · rfl
  · split
    · rfl
    · extract_lets a
      split
      · exact (apply_ite (fun t : State => t.anchors) _ _ _).trans (by split <;> simp)
      · rfl

end
end Sys2Proof.Machine
end

