-- ==== Sys2Proof/Proofs/AnchorsEntries.lean ====
section
/-! The anchors through the entries of a pseudo-channel and queued work. -/
namespace Sys2Proof.Machine
section
variable (s : State)

/-! ## Entries and merges of a pseudo-channel -/

@[simp] theorem State.anchors_entDone (pc : Nat) (e : Ent) : (s.entDone pc e).anchors = s.anchors := by
  unfold State.entDone
  extract_lets p rq'
  split
  · simp
  · split <;> simp

@[simp] theorem State.anchors_mergeFree (pc : Nat) (m : MgEnt) : (s.mergeFree pc m).anchors = s.anchors :=
  (State.anchors_foldl (fun t src => t.anchors_mergeOutcome src _) _ _).trans (s.anchors_setPcc _ _)

@[simp] theorem State.anchors_mergeToWb (pc : Nat) (m : MgEnt) : (s.mergeToWb pc m).anchors = s.anchors :=
  State.anchors_ite (s.anchors_mergeFree _ _) (s.anchors_setPcc _ _)

@[simp] theorem State.anchors_mergeRelease (pc : Nat) (m : MgEnt) : (s.mergeRelease pc m).anchors = s.anchors :=
  State.anchors_ite (s.anchors_mergeToWb _ _) (s.anchors_setPcc _ _)

@[simp] theorem State.anchors_mergeSector (pc seq h : Nat) (d : Option SectorData) : (s.mergeSector pc seq h d).anchors = s.anchors := by
  unfold State.mergeSector
  split
  · rfl
  · extract_lets hm m1 m2 p s1
    exact State.anchors_ite ((s1.anchors_mergeToWb _ _).trans (s.anchors_setPcc _ _)) (s.anchors_setPcc _ _)

@[simp] theorem State.anchors_entSector (pc seq h : Nat) (d : Option SectorData) : (s.entSector pc seq h d).anchors = s.anchors := by
  unfold State.entSector
  split
  · rfl
  · extract_lets e1 e2 p s1
    exact State.anchors_ite ((s1.anchors_entDone _ _).trans (s.anchors_setPcc _ _)) (s.anchors_setPcc _ _)

@[simp] theorem State.anchors_sectorTo (pc : Nat) (u : RetFor) (h : Nat) (d : Option SectorData) :
    (s.sectorTo pc u h d).anchors = s.anchors := by
  cases u with
  | ent q => exact s.anchors_entSector _ _ _ _
  | merge q => exact s.anchors_mergeSector _ _ _ _

/-- What a sector that does not decode counts: an uncorrectable error or a read of poison. -/
theorem State.anchors_countBad (c : Prop) [Decidable c] (pc a k i : Nat) :
    (if c then s.countUe pc a else s.fsat F.pcEccCnt_poison_rd [k, i] 1).anchors = s.anchors :=
  State.anchors_ite (s.anchors_countUe _ _) (s.anchors_fsat rfl _ _)

/-- The partner's copy after what a sector that does not decode has counted. -/
theorem State.anchors_partnerTook {s0 t : State} {pl : Place} {h : Nat} {x : Option SectorData} (e : s0.partnerTake pl h = (t, x))
    (h0 : s0.anchors = s.anchors) : t.anchors = s.anchors :=
  State.anchors_fst e ((s0.anchors_partnerTake pl h).trans h0)

@[simp] theorem State.anchors_sectorBack (u : RetFor) (pl : Place) (h : Nat) (raw : List Byte) (second : Bool) :
    (s.sectorBack u pl h raw second).anchors = s.anchors := by
  unfold State.sectorBack
  extract_lets pc a
  split
  extract_lets good
  split
  · exact s.anchors_sectorTo _ _ _ _
  · exact (State.anchors_sectorTo _ _ _ _ _).trans (s.anchors_countCe _ _ _)
  · extract_lets isUe s0
    have h0 : s0.anchors = s.anchors := s.anchors_countBad _ _ _ _ _
    split
    next s1 _ e =>
      have h1 := s.anchors_partnerTook e h0
      extract_lets s2
      rw [State.anchors_sectorTo, State.anchors_writeBack, State.anchors_fadd _ rfl, h1]
    next s1 e =>
      have h1 := s.anchors_partnerTook e h0
      extract_lets s2
      exact (s2.anchors_sectorTo _ _ _ _).trans (State.anchors_ite ((s1.anchors_writeBack _ _ _ _ _).trans h1) h1)

@[simp] theorem State.anchors_rereadBack (u : RetFor) (pl : Place) (h : Nat) (raw : List Byte) :
    (s.rereadBack u pl h raw).anchors = s.anchors := by
  unfold State.rereadBack
  extract_lets a
  split <;> simp

@[simp] theorem State.anchors_sectorNow (u : RetFor) (pl : Place) (h : Nat) (raw : List Byte) :
    (s.sectorNow u pl h raw).anchors = s.anchors :=
  State.anchors_ite (s.anchors_rereadBack _ _ _ _) (s.anchors_sectorBack _ _ _ _ _)

@[simp] theorem State.anchors_returnNow (r : Ret) : (s.returnNow r).anchors = s.anchors :=
  State.anchors_ite (s.anchors_rereadBack _ _ _ _) (s.anchors_sectorNow _ _ _ _)

@[simp] theorem State.anchors_closeGather (pl : Place) : (s.closeGather pl).anchors = s.anchors := by
  unfold State.closeGather
  split
  · exact State.anchors_ite (s.anchors_mergeRelease _ _) rfl
  · rfl

theorem State.anchors_acceptWrite {s t : State} {b : Bool} {pl : Place} {data : Granule} {mask cls stamp : Nat} {src : Src}
    (h : s.acceptWrite pl data mask src cls stamp = some (t, b)) : t.anchors = s.anchors := by
  refine Eq.trans ?_ (s.anchors_closeGather pl)
  unfold State.acceptWrite State.acceptOpen at h
  generalize s.closeGather pl = u at h ⊢
  extract_lets p full at h
  split at h
  · extract_lets m1 s1 at h
    obtain ⟨rfl, -⟩ := Prod.mk.inj (Option.some.inj h)
    exact State.anchors_ite ((s1.anchors_mergeToWb _ _).trans (u.anchors_setPcc _ _)) (u.anchors_setPcc _ _)
  · split at h
    · obtain ⟨-, e⟩ := Option.ite_none_right_eq_some.mp h
      obtain ⟨rfl, -⟩ := Prod.mk.inj (Option.some.inj e)
      exact u.anchors_setPcc _ _
    · obtain ⟨-, e⟩ := Option.ite_none_right_eq_some.mp h
      obtain ⟨rfl, -⟩ := Prod.mk.inj (Option.some.inj e)
      exact u.anchors_setPcc _ _

@[simp] theorem State.anchors_issueMerge (pc seq h : Nat) : (s.issueMerge pc seq h).anchors = s.anchors := by
  unfold State.issueMerge
  split
  · rfl
  · extract_lets s1 m1
    exact State.anchors_ite ((s1.anchors_mergeFree _ _).trans (s.anchors_storeSector _ _ _ _))
      ((s1.anchors_setPcc _ _).trans (s.anchors_storeSector _ _ _ _))

/-! ## Queued work carried out at once -/

@[simp] theorem State.anchors_forceRead (pc : Nat) (e : Ent) : (s.forceRead pc e).anchors = s.anchors := by
  unfold State.forceRead
  extract_lets rets p s1 s2
  refine (State.anchors_foldl (fun t h => ?_) _ _).trans ((State.anchors_foldl State.anchors_returnNow _ _).trans (s.anchors_setPcc _ _))
  exact (State.anchors_sectorNow _ _ _ _ _).trans (t.anchors_setPcc _ _)

@[simp] theorem State.anchors_forceMerge (pc : Nat) (m : MgEnt) : (s.forceMerge pc m).anchors = s.anchors := by
  unfold State.forceMerge
  extract_lets p rets s0 s1 s2 s3
  have h0 : s0.anchors = s.anchors := s.anchors_setPcc _ _
  have h1 : s1.anchors = s.anchors :=
    State.anchors_ite ((s0.anchors_mergeRelease _ _).trans h0) ((State.anchors_foldl State.anchors_returnNow _ _).trans h0)
  have h2 : s2.anchors = s.anchors := by
    clear_value s1
    unfold s2
    split
    · exact h1
    · refine (State.anchors_foldl (fun t h => ?_) _ _).trans h1
      exact (State.anchors_sectorNow _ _ _ _ _).trans (t.anchors_setPcc _ _)
  have h3 : s3.anchors = s.anchors := (s2.anchors_forceBacks _ _).trans h2
  clear_value s3
  split
  · exact h3
  · exact (State.anchors_foldl (fun t h => t.anchors_issueMerge _ _ _) _ _).trans h3

@[simp] theorem State.anchors_settle (fuel : Nat) : ∀ (s : State) (pc : Nat) (t : Place → Bool),
    (s.settle pc t fuel).anchors = s.anchors := by
  induction fuel with
  | zero => exact fun s _ _ => rfl
  | succ fuel ih =>
    intro s pc t
    unfold State.settle
    split
    · rfl
    · exact (ih _ _ _).trans (s.anchors_forceRead _ _)
    · split
      · exact (ih _ _ _).trans (ih _ _ _)
      · exact (ih _ _ _).trans (s.anchors_forceWrite _ _)
    · exact (ih _ _ _).trans (s.anchors_forceMerge _ _)

@[simp] theorem State.anchors_settleGranule (pl : Place) : (s.settleGranule pl).anchors = s.anchors :=
  (State.anchors_settle _ _ _ _).trans (s.anchors_wake _)

end
end Sys2Proof.Machine
end

