-- ==== Sys2Proof/Proofs/AnchorsAccesses.lean ====
section
/-! The anchors through accesses to memory, reads of tensor space and the end of packets and requests. -/
namespace Sys2Proof.Machine
section
variable (s : State)

/-! ## Accesses to memory -/

@[simp] theorem State.anchors_readSector (pl : Place) (h : Nat) : (s.readSector pl h).1.anchors = s.anchors := by
  unfold State.readSector
  extract_lets pc a raw
  split
  extract_lets good
  split
  · rfl
  · dsimp only
    exact s.anchors_countCe _ _ _
  · extract_lets s0
    have h0 : s0.anchors = s.anchors := s.anchors_countBad _ _ _ _ _
    split
    next s1 _ e =>
      dsimp only
      exact (State.anchors_storeSector _ _ _ _ _).trans ((State.anchors_fadd _ rfl _ _).trans (s.anchors_partnerTook e h0))
    next s1 e =>
      have h1 := s.anchors_partnerTook e h0
      exact State.anchors_ite ((s1.anchors_storeSector _ _ _ _).trans h1) h1

@[simp] theorem State.anchors_readPlace (pl : Place) : (s.readPlace pl).1.anchors = s.anchors := by
  unfold State.readPlace
  split
  · rfl
  · extract_lets s0
    have h0 : s0.anchors = s.anchors := s.anchors_settleGranule _
    split
    next s1 a _ e =>
      have h1 := State.anchors_fst e ((s0.anchors_readSector _ _).trans h0)
      split
      next s2 b _ e =>
        have h2 := State.anchors_fst e ((s1.anchors_readSector _ _).trans h1)
        split <;> exact h2

@[simp] theorem State.anchors_roomFor (pc cls : Nat) : (s.roomFor pc cls).anchors = s.anchors := by
  unfold State.roomFor
  split
  · rfl
  · exact State.anchors_ite rfl (State.anchors_settle _ _ _ _)

theorem State.anchors_postWrite {s t : State} {pl : Place} {data : Granule} {cls : Nat} (h : s.postWrite pl data cls = some t) :
    t.anchors = s.anchors := by
  obtain ⟨⟨u, b⟩, hu, rfl⟩ := Option.map_eq_some_iff.mp h
  exact (State.anchors_acceptWrite hu).trans ((State.anchors_roomFor _ _ _).trans (s.anchors_wake _))

@[simp] theorem State.anchors_writePlace (pl : Place) (data : Granule) (mask cls : Nat) :
    (s.writePlace pl data mask cls).1.anchors = s.anchors := by
  unfold State.writePlace
  split
  · rfl
  · split
    next t e =>
      obtain ⟨-, e⟩ := Option.ite_none_right_eq_some.mp e
      exact State.anchors_postWrite e
    · refine (State.anchors_foldlFst (fun t h => ?_) _ _).trans (s.anchors_settleGranule _)
      extract_lets hm
      split
      · exact State.anchors_storeSector _ _ _ _ _
      · split
        next e => exact (State.anchors_storeSector _ _ _ _ _).trans (State.anchors_fst e (t.1.anchors_readSector _ _))
        next e => exact State.anchors_fst e (t.1.anchors_readSector _ _)

@[simp] theorem State.anchors_writeRoot (root x : Nat) (data : Granule) (mask cls : Nat) :
    (s.writeRoot root x data mask cls).1.anchors = s.anchors := by
  unfold State.writeRoot
  split
  · rfl
  · split
    · rfl
    · extract_lets up
      cases up with
      | nil => rfl
      | cons q qs =>
        refine Eq.trans (State.anchors_foldlFst (fun t y => ?_) qs _) (s.anchors_writePlace q data mask cls)
        exact t.1.anchors_writePlace y data mask cls

@[simp] theorem State.anchors_writeMem (addr : Nat) (data : Granule) (mask cls : Nat) :
    (s.writeMem addr data mask cls).1.anchors = s.anchors := by
  unfold State.writeMem
  split
  · rfl
  · split
    · exact s.anchors_writeRoot _ _ _ _ _
    · rfl

/-! ## Reads of tensor space -/

theorem State.anchors_set_far (x : List FarReq) : ({ s with far := x } : State).anchors = s.anchors := State.anchors_of_eq rfl rfl

theorem State.anchors_sendOne {s t : State} {ft : Nat} (h : s.sendOne ft = some t) : t.anchors = s.anchors := by
  unfold State.sendOne at h
  extract_lets n p at h
  obtain ⟨-, h⟩ := Option.ite_none_left_eq_some.mp h
  split at h
  · extract_lets r1 far' s1 at h
    obtain rfl := Option.some.inj h
    refine (State.anchors_ev _ _ _ _).trans ((State.anchors_emit _ _).trans ?_)
    exact (State.anchors_setPort (s := { s with far := far' }) (n := n) (p := { p with hdrHeld := p.hdrHeld - 1 }) rfl rfl).trans
      (s.anchors_set_far far')
  · cases h

@[simp] theorem State.anchors_pumpFar (ft k : Nat) : ∀ s : State, (s.pumpFar ft k).anchors = s.anchors := by
  induction k with
  | zero => exact fun _ => rfl
  | succ k ih =>
    intro s
    unfold State.pumpFar
    split
    next t e => exact (ih t).trans (State.anchors_sendOne e)
    · rfl

@[simp] theorem State.anchors_pump (ft : Nat) : (s.pump ft).anchors = s.anchors := State.anchors_pumpFar _ _ _

@[simp] theorem State.anchors_startTensor (n : Nat) (r : PortReq) (t : TensRead) : (s.startTensor n r t).anchors = s.anchors := by
  unfold State.startTensor
  extract_lets e k
  split <;> simp

@[simp] theorem State.anchors_passThrough (n : Nat) (r : PortReq) (t : TensRead) : (s.passThrough n r t).anchors = s.anchors := by
  unfold State.passThrough
  extract_lets e k ps s0 s1 cuts ends
  have h0 : s0.anchors = s.anchors :=
    State.anchors_ite (s.anchors_raise rfl _ _ (by simp [F.trErr_first_seg, F.trErr_pin_short])) rfl
  have h1 : s1.anchors = s.anchors := (s0.anchors_setReq _ _).trans h0
  exact (State.anchors_pump _ _).trans ((State.anchors_foldl (fun u c => u.anchors_askFar _ _ _ _) _ _).trans h1)

@[simp] theorem State.anchors_endOne (n : Nat) (r : PortReq) (st : PStatus) : (s.endOne n r st).anchors = s.anchors := by
  unfold State.endOne
  extract_lets s1 p
  exact (s1.anchors_endReq n _ _).trans (s.anchors_portErr _ _ _ _)

@[simp] theorem State.anchors_charge (n : Nat) (r : PortReq) : (s.charge n r).anchors = s.anchors :=
  (State.anchors_ev _ _ _ _).trans (s.anchors_setTenQ _ _)

@[simp] theorem State.anchors_mapStage (n : Nat) (r : PortReq) : (s.mapStage n r).anchors = s.anchors := by
  unfold State.mapStage
  split
  · extract_lets ps done
    simp
  next t _ =>
    extract_lets s1 e bad
    have h1 : s1.anchors = s.anchors := s.anchors_setPort rfl rfl
    have hb : ∀ st, (bad st).anchors = s.anchors := fun st =>
      (State.anchors_sweep _ _ _).trans ((s1.anchors_setReq _ _).trans h1)
    split
    · exact hb _
    · split
      · exact (s1.anchors_endOne _ _ _).trans h1
      · split
        · exact (s1.anchors_endOne _ _ _).trans h1
        · exact State.anchors_ite ((s1.anchors_passThrough _ _ _).trans h1)
            ((State.anchors_demandFetch _ _ _).trans ((s1.anchors_setReq _ _).trans h1))
        · exact State.anchors_ite ((s1.anchors_passThrough _ _ _).trans h1)
            (State.anchors_ite ((s1.anchors_startTensor _ _ _).trans h1) ((s1.anchors_setReq _ _).trans h1))
        · exact (s1.anchors_startTensor _ _ _).trans h1

/-! ## The end of packets and of a port's requests -/

@[simp] theorem State.anchors_spoilRange (a n : Nat) : (s.spoilRange a n).anchors = s.anchors :=
  State.anchors_foldl (fun t i =>
    (t.drawGranule.1.anchors_writeMem (a + 64 * i) t.drawGranule.2 _ _).trans (State.anchors_of_eq rfl rfl)) _ _

@[simp] theorem State.anchors_spoil (p : Packet) : (s.spoil p).anchors = s.anchors := by
  unfold State.spoil
  exact State.anchors_ite rfl (s.anchors_spoilRange _ _)

@[simp] theorem State.anchors_dropReserves : s.dropReserves.anchors = s.anchors := by
  unfold State.dropReserves
  refine State.anchors_foldl (fun t f => ?_) _ _
  extract_lets e held t1
  have h1 : t1.anchors = t.anchors := t.anchors_dropSeg _
  exact State.anchors_ite rfl (State.anchors_ite ((State.anchors_of_eq (s := t1) rfl rfl).trans h1) h1)

@[simp] theorem State.anchors_fixPacket (p : Packet) (st : KStatus) (count aux detail : Nat) :
    (s.fixPacket p st count aux detail).anchors = s.anchors := by
  unfold State.fixPacket
  extract_lets s1
  have h1 : s1.anchors = s.anchors := s.anchors_setPacket _
  exact (State.anchors_snoopEnd _ _ _).trans (State.anchors_ite (s1.anchors_dropReserves.trans h1) h1)

@[simp] theorem State.anchors_write32 (addr : Nat) (ws : List Nat) : (s.write32 addr ws).1.anchors = s.anchors :=
  s.anchors_writeMem _ _ _ _

@[simp] theorem State.anchors_postReply (port ring seq op cookie addr : Nat) (st : KStatus) (count aux detail : Nat) :
    (s.postReply port ring seq op cookie addr st count aux detail).anchors = s.anchors := by
  unfold State.postReply
  split
  next s1 ps e =>
    extract_lets lost s2 s3
    have h2 : s2.anchors = s.anchors := (s1.anchors_emit _).trans (State.anchors_fst e (s.anchors_write32 _ _))
    have h3 : s3.anchors = s.anchors := State.anchors_ite h2 ((s2.anchors_ev _ _ _).trans h2)
    refine State.anchors_ite ?_ h3
    rw [State.anchors_log, State.anchors_fsat _ rfl, State.anchors_fsat _ rfl, h3]

@[simp] theorem State.anchors_retirePacket (p : Packet) : (s.retirePacket p).anchors = s.anchors := by
  unfold State.retirePacket
  extract_lets s1
  exact (State.anchors_of_eq (s := s1) rfl rfl).trans (s.anchors_postReply _ _ _ _ _ _ _ _ _ _)

@[simp] theorem State.anchors_finishCopy (r : PortReq) (i : Nat) (pl : Place) : (s.finishCopy r i pl).anchors = s.anchors := by
  unfold State.finishCopy
  extract_lets d
  split
  · exact s.anchors_readPlace _
  · exact s.anchors_writePlace _ _ _ _
  · exact s.anchors_writePlace _ _ _ _
  · split
    next t g e =>
      extract_lets g1 t1
      have h1 : t1.anchors = s.anchors := (t.anchors_writePlace _ _ _ _).trans (State.anchors_fst e (s.anchors_readPlace _))
      split
      · exact (t1.anchors_writePlace _ _ _ _).trans h1
      · exact h1
    next e => exact State.anchors_fst e (s.anchors_readPlace _)

@[simp] theorem State.anchors_finishSilently (n : Nat) (r : PortReq) : (s.finishSilently n r).anchors = s.anchors := by
  unfold State.finishSilently
  refine State.anchors_ite rfl ?_
  extract_lets s1 ps
  have h1 : s1.anchors = s.anchors := State.anchors_ite (s.anchors_charge _ _) rfl
  refine State.anchors_ite ?_ ?_
  · split
    · exact h1
    · exact h1
    · exact (s1.anchors_mapStage _ _).trans h1
  · refine (State.anchors_foldl (fun t e => ?_) _ _).trans h1
    exact State.anchors_ite rfl (State.anchors_foldl (fun u pl => u.anchors_finishCopy _ _ _) _ _)

@[simp] theorem State.anchors_endPackets (n : Nat) : (s.endPackets n).anchors = s.anchors := by
  unfold State.endPackets
  refine State.anchors_foldl (fun t e => ?_) _ _
  split
  · rfl
  · refine State.anchors_ite rfl (State.anchors_ite (t.anchors_retirePacket _) (State.anchors_ite (t.anchors_setPacket _) ?_))
    exact (State.anchors_retirePacket _ _).trans (t.anchors_fixPacket _ _ _ _ _)

end
end Sys2Proof.Machine
end

