-- ==== Sys2Proof/Proofs/PortStates.lean ====
section
/-! Port reset, its release, READY and the end of a drain (R62, R67 to R69), one equation per case, and the statement about them. -/
namespace Sys2Proof.Machine

/-! ## Steps 1 to 4 of R62 -/

/-- A port with nothing of its own left (R62): rings, revision of the other side and the rest of the port stay. -/
def Port.emptied (p : Port) : Port :=
  { p with drev := 0, hdrHeld := 0, wdatHeld := 0, rspHeld := 0, rspRsvd := 0, staged := 0, reqs := [], frames := [], fences := [],
           dirCopies := [] }

section
variable (s : State) (n : Nat)

theorem State.port_snoopEnd (src bound m : Nat) : (s.snoopEnd src bound).port m = s.port m :=
  congrArg (tget Port.init · m) ((State.snoopEnd_follows (μ := fieldMask [.obs]) src bound (.refl _ s) rfl).kept .ports rfl)

/-- The port is empty afterwards and keeps its state and the level of PRST_N. -/
theorem State.port_portClear :
    ∃ q : Port, (s.portClear n).port n = q.emptied ∧ q.st = (s.port n).st ∧ q.prstN = (s.port n).prstN := by
  have ended : (((s.port n).reqs.foldl (fun t r => t.finishSilently n r) s).endPackets n).anchors = s.anchors :=
    (State.anchors_endPackets _ _).trans (State.anchors_foldl (fun t r => t.anchors_finishSilently n r) _ _)
  have kept := congrFun (congrArg Prod.fst ended) n
  obtain ⟨st, level⟩ := Prod.mk.inj kept
  exact ⟨_, (State.port_snoopEnd _ 3 n n).trans (State.port_setPort _ _ _), st, level⟩

/-- PRDY falls when a fabric port that was READY leaves that state (R69), whatever the port's clearing shows after it. -/
theorem State.readyFalls_shown (p : Port) (h : (s.port n).st = .ready) (hn : n < 24) :
    .ready n false 0 ∈ (((s.readyFalls n).setPort n p).portClear n).out := by
  have falls : s.readyFalls n = s.emit (.ready n false 0) := by simp [State.readyFalls, h, hn]
  refine ((State.portClear_follows (μ := 0x2b2872190d5b) n (.refl _ _) rfl).shown).subset ?_
  rw [falls]
  exact List.mem_append_right _ List.mem_cons_self

end

/-! ## The rings of a port that is reset (R76) -/

/-- A table filled from a function of the key. -/
theorem tget_foldl_tput {α : Type} [DecidableEq α] (d : α) (f : Nat → α) (q : Nat) :
    ∀ (l : List Nat) (m : Table α), tget d (l.foldl (fun t k => tput d t k (f k)) m) q = if q ∈ l then f q else tget d m q
  | [], m => by simp
  | k :: l, m => by
    rw [List.foldl_cons, tget_foldl_tput d f q l]
    by_cases hq : q ∈ l
    · simp [hq]
    · by_cases hk : q = k
      · subst hk; simp [hq]
      · simp [hq, hk, tget_tput_other d _ m _ hk]

theorem Port.tget_clearedRings (p : Port) {q : Nat} (h : q < 4) : tget Ring.init p.clearedRings q = (p.ring q).cleared := by
  rw [Port.clearedRings, tget_foldl_tput Ring.init fun k => (p.ring k).cleared, if_pos (List.mem_range.mpr h)]

/-! ## Port reset and its release (R62, R69) -/

section
variable {s : State} {n : Nat}

theorem exec_portReset (hn : n < 26) (s : State) : exec (.portReset n) s = .next (s.portReset n) := onUnit_of hn _
theorem exec_portResetRelease (hn : n < 26) (v : Nat) (s : State) : exec (.portResetRelease n v) s = .next (s.portRelease n v) :=
  onUnit_of hn _
theorem exec_portReady (hn : n < 26) (s : State) : exec (.portReady n) s = .next (s.portReady n) := onUnit_of hn _
theorem exec_portDrainDone (hn : n < 26) (s : State) : exec (.portDrainDone n) s = .next (s.portDrained n) := onUnit_of hn _

theorem State.portReset_of_low (h : (s.port n).prstN = false) : s.portReset n = s := by
  simp [State.portReset, h]

/-- In DRAIN or DISABLED the level of PRST_N alone changes (log entry 66). -/
theorem State.portReset_of_level (up : (s.port n).prstN = true) (h : (s.port n).st = .disabled ∨ (s.port n).st = .drain) :
    s.portReset n = s.setPort n { s.port n with prstN := false } := by
  rcases h with h | h <;> simp [State.portReset, up, h]

/-- The state that a fall of PRST_N hands to steps 1 to 4. -/
def State.inReset (s : State) (n : Nat) : State :=
  ((s.setPort n { s.port n with prstN := false }).readyFalls n).setPort n { s.port n with prstN := false, st := .reset }

/-- The reset of the port's registers and its record change no port and no output. -/
theorem State.portReset_of_linked (up : (s.port n).prstN = true)
    (h : (s.port n).st = .linkup ∨ (s.port n).st = .ready ∨ (s.port n).st = .fault) :
    ∃ q : Port, ((s.portReset n).port n) = { q.emptied with rings := (s.port n).clearedRings, lastRing := 3 } ∧ q.st = .reset
      ∧ q.prstN = false ∧ ((s.inReset n).portClear n).out <+: (s.portReset n).out := by
  obtain ⟨q, hq, st, level⟩ := (s.inReset n).port_portClear n
  have enters : (s.inReset n).port n = { s.port n with prstN := false, st := .reset } := State.port_setPort _ _ _
  rw [enters] at st level
  have steps : s.portReset n = (let u := (s.inReset n).portClear n
      let v := ((u.setPort n { u.port n with rings := (s.port n).clearedRings, lastRing := 3 }).localReset .port n).fsat
        F.glPortStat_resets [n] 1
      v.log .portReset n 0 (v.fget F.glPortStat_resets [n])) := by
    rcases h with h | h | h <;> simp [State.portReset, State.inReset, up, h]
  generalize (s.inReset n).portClear n = u at steps hq ⊢
  have after : (u.setPort n { u.port n with rings := (s.port n).clearedRings, lastRing := 3 }).Follows
      (fieldMask [.regs, .pregs, .obs]) (s.portReset n) := by
    rw [steps]
    exact State.log_follows _ _ _ _ _ (State.fsat_follows _ _ _ (State.localReset_follows _ _ (.refl _ _) rfl) rfl) rfl
  refine ⟨q, ?_, st, level, after.shown⟩
  have port := congrArg (tget Port.init · n) (after.kept .ports rfl)
  rw [← hq]
  exact port.trans (State.port_setPort _ _ _)

theorem State.portRelease_of_high (h : (s.port n).prstN = true) (v : Nat) : s.portRelease n v = s := by
  simp [State.portRelease, h]

theorem State.portRelease_of_low (h : (s.port n).prstN = false) (v : Nat) : s.portRelease n v =
    (let u := s.setPort n { s.port n with
      prstN := true
      prev := v % 16
      st := if (s.port n).st = .reset then .linkup else (s.port n).st }
     if n < 24 then u else u.emit (.prev n 2)) := by
  simp [State.portRelease, h, devRev]

/-! ## READY (R62 step 5, R69, R449) and the end of a drain (R67) -/

/-- Only PK_REV changes when the revisions are compared. -/
theorem State.comparePrev_cases (s : State) (n prev drev : Nat) :
    s.comparePrev n prev drev = s ∨ ∃ w, s.comparePrev n prev drev = s.rput .pkRev [] w := by
  unfold State.comparePrev
  split
  · exact .inl rfl
  · exact .inr ⟨_, rfl⟩

theorem State.comparePrev_ports (s : State) (n prev drev : Nat) : (s.comparePrev n prev drev).ports = s.ports := by
  rcases s.comparePrev_cases n prev drev with h | ⟨w, h⟩
  · rw [h]
  · rw [h]; rfl

theorem State.comparePrev_out (s : State) (n prev drev : Nat) : (s.comparePrev n prev drev).out = s.out := by
  rcases s.comparePrev_cases n prev drev with h | ⟨w, h⟩
  · rw [h]
  · rw [h]; rfl

theorem State.comparePrev_regsBut (s : State) (n prev drev : Nat) : s.regsBut (s.comparePrev n prev drev) [Reg.pkRev.addr []] := by
  intro a ha
  rcases s.comparePrev_cases n prev drev with h | ⟨w, h⟩
  · rw [h]
  · rw [h, State.tfind_rput_other _ _ (by simpa using ha)]

/-- The port that step 5 makes READY. -/
def State.readyPort (s : State) (n : Nat) : Port :=
  { s.port n with
    st := .ready
    drev := min (s.port n).prev (s.fget F.glPortCfg_rev_cap [n])
    hdrHeld := if n < 24 then s.fget F.glPortCfg_hdr_credits [n] else 0
    wdatHeld := if n < 24 then s.fget F.glPortCfg_wdat_credits [n] else 0 }

/-- What a fabric port shows with it. -/
def State.readyOut (s : State) (n : Nat) : List Out :=
  if n < 24 then [.ready n true (min (s.port n).prev (s.fget F.glPortCfg_rev_cap [n])),
    .credit n (s.fget F.glPortCfg_hdr_credits [n]) (s.fget F.glPortCfg_wdat_credits [n])] else []

/-- The state of step 5 before the outputs. -/
def State.readied (s : State) (n : Nat) : State :=
  (s.setPort n (s.readyPort n)).comparePrev n (s.port n).prev (min (s.port n).prev (s.fget F.glPortCfg_rev_cap [n]))

theorem State.portReady_of_linkup (link : (s.port n).st = .linkup) (up : (s.port n).prstN = true) (h : (s.port n).prev ≠ 0) :
    s.portReady n = { s.readied n with out := s.out ++ s.readyOut n } := by
  have out : (s.readied n).out = s.out := State.comparePrev_out _ _ _ _
  rw [← out]
  by_cases hn : n < 24 <;> simp [State.portReady, State.readied, State.readyOut, State.readyPort, link, up, h, hn, State.emit]

theorem State.portReady_of_prev_zero (link : (s.port n).st = .linkup) (up : (s.port n).prstN = true) (h : (s.port n).prev = 0) :
    s.portReady n = s.raise 5 F.pkErr_rev_bad [] [(F.pkErr_first_src, n)] := by
  simp [State.portReady, link, up, h]

theorem State.portReady_of_other (h : (s.port n).st ≠ .linkup ∨ (s.port n).prstN = false) : s.portReady n = s := by
  rcases h with h | h <;> simp [State.portReady, h]

theorem State.portDrained_of_drain (h : (s.port n).st = .drain) :
    s.portDrained n = s.setPort n { s.port n with st := if s.fget F.glPortCfg_en [n] = 1 then .linkup else .disabled } := by
  simp [State.portDrained, h]

theorem State.portDrained_of_other (h : (s.port n).st ≠ .drain) : s.portDrained n = s := by
  simp [State.portDrained, h]

end

/-- Settles O42: the port is emptied by steps 1 to 4 of R62, which touch neither its state nor PRST_N; the other cases are the
equations of each command. -/
theorem portsResetAndReady : Obligations.PortsResetAndReady := by
  intro s n hn
  refine ⟨fun up linked => ?_, fun q hq => Port.tget_clearedRings _ hq, fun up h => ?_, fun low => ?_, fun v low => ?_, fun v high => ?_,
    fun link up => ⟨fun rev => ?_, fun none => ?_⟩, fun other => ?_, fun drain => ?_, fun other => ?_⟩
  · obtain ⟨q, hq, st, level, out⟩ := State.portReset_of_linked up linked
    refine ⟨_, exec_portReset hn s, ?_⟩
    rw [hq]
    refine ⟨st, level, rfl, rfl, rfl, rfl, rfl, rfl, rfl, fun ready fabric => out.subset ?_⟩
    exact State.readyFalls_shown _ _ _ (by rw [State.port_setPort]; exact ready) fabric
  · rw [exec_portReset hn, State.portReset_of_level up h]
  · rw [exec_portReset hn, State.portReset_of_low low]
  · rw [exec_portResetRelease hn, State.portRelease_of_low low]
  · rw [exec_portResetRelease hn, State.portRelease_of_high high]
  · have ports : (s.readied n).ports = (s.setPort n (s.readyPort n)).ports := State.comparePrev_ports _ _ _ _
    have port : ∀ m, (s.readied n).port m = (s.setPort n (s.readyPort n)).port m := fun m => congrArg (tget Port.init · m) ports
    refine ⟨_, (exec_portReady hn s).trans (congrArg _ (State.portReady_of_linkup link up rev)), ⟨?_, rfl⟩, fun m hm => ?_, ?_, ?_⟩
    · exact (port n).trans (State.port_setPort _ _ _)
    · exact (port m).trans (State.port_setPort_other _ _ hm)
    · exact State.comparePrev_regsBut (s.setPort n (s.readyPort n)) n _ _
    · rw [← State.portReady_of_linkup link up rev]
      exact State.Follows.only (State.portReady_follows n (.refl _ s) rfl)
  · refine ⟨_, (exec_portReady hn s).trans (congrArg _ (State.portReady_of_prev_zero link up none)),
      State.fget_raise_same _ _ (by decide) rfl, fun a ha => ?_, ?_⟩
    · have ne : a ≠ Reg.pkErr.addr [] := by simpa using ha
      exact State.tfind_raise_other s ne (by simpa [F.pkErr_first_src] using ne)
    · exact State.Follows.only (State.raise_follows _ _ _ _ (.refl _ s) rfl)
  · rw [exec_portReady hn, State.portReady_of_other other]
  · rw [exec_portDrainDone hn, State.portDrained_of_drain drain]
  · rw [exec_portDrainDone hn, State.portDrained_of_other other]

end Sys2Proof.Machine
end

