-- ==== Sys2Proof/Proofs/PortsAndRings.lean ====
section
/-! Writes of GL_PORT_CFG, CP_RING_CFG and CP_RING_CTL (R67, R69, R101, R104), and the statement about ports and rings enabled. -/
namespace Sys2Proof.Machine

/-! ## The enable bit of a register

GL_PORT_CFG and CP_RING_CFG hold en at bit 0, before all their other fields. -/

theorem bits_setBits_zero (x : Nat) {lo w v : Nat} (h : 1 ≤ lo) : bits (setBits x lo w v) 0 1 = bits x 0 1 :=
  bits_setBits_other x (.inl (by omega))

/-- The fields behind bit 0 leave it as it was. -/
theorem bits_foldl_setBits_zero {f : Nat → FieldDef → Nat} (hf : ∀ a e, 1 ≤ e.lo → bits (f a e) 0 1 = bits a 0 1) :
    ∀ (l : List FieldDef) (a : Nat), (∀ e ∈ l, 1 ≤ e.lo) → bits (l.foldl f a) 0 1 = bits a 0 1
  | [], _, _ => rfl
  | e :: l, a, h => by
    rw [List.foldl_cons, bits_foldl_setBits_zero hf l _ fun e he => h e (List.mem_cons_of_mem _ he), hf a e (h e List.mem_cons_self)]

/-- A write that the lock does not stop takes bit 0 from the value. -/
theorem Reg.bits_written_enable {r : Reg} {ix : List Nat} {e : FieldDef} {rest : List FieldDef} (old val : Nat)
    (hl : r.fieldsAt ix = e :: rest) (he : e.lo = 0 ∧ e.w = 1 ∧ e.acc = .rwl) (hr : ∀ f ∈ rest, 1 ≤ f.lo)
    (ht : ∀ v a, r.takes 0 v a = true) : bits (r.written ix old val false) 0 1 = bits val 0 1 := by
  obtain ⟨lo, w, acc⟩ := he
  rw [Reg.written, hl, List.foldl_cons, bits_foldl_setBits_zero _ rest _ hr]
  · simpa [lo, w, acc, ht] using Nat.le_of_lt_succ (bits_lt val 0 1)
  · intro a f hf
    cases f.acc with
    | rw | rwl =>
      dsimp only
      split
      · exact bits_setBits_zero a hf
      · rfl
    | w1c => exact bits_setBits_zero a hf
    | ro | wo | rc => rfl

theorem bits_ofNat_zero (x : Nat) : bits (BitVec.ofNat 64 x).toNat 0 1 = bits x 0 1 := by
  simp only [bits, BitVec.toNat_ofNat, Nat.shiftRight_zero]
  omega

theorem bits_enable (w : Word) : bits (w ||| 1).toNat 0 1 = 1 := by
  simp [bits, BitVec.toNat_or]

theorem bits_disable (w : Word) : bits (w &&& BitVec.ofNat 64 (2 ^ 64 - 2)).toNat 0 1 = 0 := by
  have cleared := Nat.and_mod_two_pow (a := w.toNat) (b := 2 ^ 64 - 2) (n := 1)
  simpa [bits, BitVec.toNat_and] using cleared

theorem glPortCfg_located : ∀ n < 26, Reg.locate (Reg.glPortCfg.addr [n]) = some (.glPortCfg, [n]) := by decide +kernel
theorem cpRingCfg_located : ∀ i < 96, Reg.locate (Reg.cpRingCfg.addr [i]) = some (.cpRingCfg, [i]) := by decide +kernel
theorem cpRingCtl_located : ∀ i < 96, Reg.locate (Reg.cpRingCtl.addr [i]) = some (.cpRingCtl, [i]) := by decide +kernel


section
variable {s : State} {n : Nat}

/-! ## A write of GL_PORT_CFG (R67, R69) -/

/-- A field kept at its old value lies behind bit 0. -/
theorem bits_keep_zero {c : Prop} [Decidable c] (x v : Nat) {lo w : Nat} (h : 1 ≤ lo) :
    bits (if c then x else setBits x lo w v) 0 1 = bits x 0 1 := by
  split
  · rfl
  · exact bits_setBits_zero x h

/-- GL_PORT_CFG takes a word with the enable bit that was written, which moves the port when it has changed. -/
theorem State.portCfgWrite_moves (s : State) (n : Nat) (w : Word) : ∃ x : Nat, bits x 0 1 = bits w.toNat 0 1 ∧
    s.portCfgWrite n w = (let s1 := s.rput .glPortCfg [n] (BitVec.ofNat 64 x)
      if bits x 0 1 = 1 ∧ s.fget F.glPortCfg_en [n] ≠ 1 then s1.portUp n
      else if bits x 0 1 ≠ 1 ∧ s.fget F.glPortCfg_en [n] = 1 then s1.portDown n else s1) := by
  unfold State.portCfgWrite
  extract_lets old keep x1 x2 x3 s1
  refine ⟨x3, ?_, ?_⟩
  · rw [bits_keep_zero _ _ (by decide), bits_keep_zero _ _ (by decide), bits_keep_zero _ _ (by decide)]
  · simp only [bit, Bool.and_eq_true, Bool.not_eq_true', decide_eq_true_eq, decide_eq_false_iff_not]
    rfl

theorem State.fget_portCfg (s : State) (n x : Nat) :
    (s.rput .glPortCfg [n] (BitVec.ofNat 64 x)).fget F.glPortCfg_en [n] = bits x 0 1 :=
  (congrArg (fun w : Word => bits w.toNat 0 1) (s.rget_rput_same .glPortCfg [n] _)).trans (bits_ofNat_zero x)

/-- en rises on a disabled port. -/
theorem State.portCfgWrite_rises {w : Word} (hw : bits w.toNat 0 1 = 1) (off : s.fget F.glPortCfg_en [n] = 0)
    (st : (s.port n).st = .disabled) : ∃ x : Nat, bits x 0 1 = 1 ∧ s.portCfgWrite n w
      = (s.rput .glPortCfg [n] (BitVec.ofNat 64 x)).setPort n { s.port n with st := .linkup } := by
  obtain ⟨x, hx, e⟩ := s.portCfgWrite_moves n w
  refine ⟨x, hx.trans hw, e.trans ?_⟩
  have st' : ((s.rput .glPortCfg [n] (BitVec.ofNat 64 x)).port n).st = .disabled := st
  simp only [hx, hw, off, State.portUp, st']
  rfl

/-- en falls on a port that is in use. -/
theorem State.portCfgWrite_falls {w : Word} (hw : bits w.toNat 0 1 = 0) (on : s.fget F.glPortCfg_en [n] = 1)
    (st : (s.port n).st ≠ .disabled) (run : (s.port n).st ≠ .drain) : ∃ u : State, (∀ m, u.port m = s.port m) ∧ s.portCfgWrite n w
      = ((u.readyFalls n).setPort n { s.port n with st := .drain }).portClear n := by
  obtain ⟨x, hx, e⟩ := s.portCfgWrite_moves n w
  refine ⟨s.rput .glPortCfg [n] (BitVec.ofNat 64 x), fun _ => rfl, e.trans ?_⟩
  have st' : ((s.rput .glPortCfg [n] (BitVec.ofNat 64 x)).port n).st ≠ .disabled := st
  have run' : ((s.rput .glPortCfg [n] (BitVec.ofNat 64 x)).port n).st ≠ .drain := run
  simp only [hx, hw, on, State.portDown, st', run']
  rfl

/-! ## A write of CP_RING_CFG and the restart of a ring (R101, R104) -/

/-- A ring whose enable bit changes starts again. -/
theorem State.ringCfg_of_change {q : Nat} {w : Word} (h : bits w.toNat 0 1 ≠ s.fget F.cpRingCfg_en [4 * n + q]) :
    s.ringCfg n q w = (s.rput .cpRingCfg [4 * n + q] w).setPort n ((s.port n).setRing q ((s.port n).ring q).cleared) := by
  have e : (s.rput .cpRingCfg [4 * n + q] w).fget F.cpRingCfg_en [4 * n + q] = bits w.toNat 0 1 :=
    congrArg (fun w : Word => bits w.toNat 0 1) (s.rget_rput_same .cpRingCfg [4 * n + q] w)
  exact if_neg (e ▸ h)

theorem State.ringRestart_of_halted {q : Nat} (halted : ((s.port n).ring q).halted = true)
    (on : s.fget F.cpRingCfg_en [4 * n + q] = 1) :
    s.ringRestart n q = s.setPort n ((s.port n).setRing q ((s.port n).ring q).cleared) := by
  rw [State.ringRestart, if_pos (by simp [halted, on])]
  rfl

/-! ## The writes that the commands stand for -/

theorem State.writeAs_of_pathOk {path : Nat} {r : Reg} {ix : List Nat} (w : Word) (ok : s.pathOk path true = true)
    (hl : Reg.locate (r.addr ix) = some (r, ix)) (writable : r.readOnly ix = false)
    (free : s.locked = false ∨ r.has ix (fun a => a = .rwl) = false) : s.writeAs path r ix w = s.putReg path r ix w.toNat := by
  have viol : (s.locked && r.has ix fun a => a = .rwl) = false := by
    rcases free with h | h <;> simp [h]
  rw [State.writeAs, State.byPath_of_pathOk _ _ ok]
  simp [State.regWrite, Reg.aligned_of_locate hl, hl, writable, viol]

/-- The word that an unlocked write of GL_PORT_CFG stores has the enable bit of the value. -/
theorem glPortCfg_written (old val n : Nat) :
    bits (BitVec.ofNat 64 (Reg.glPortCfg.written [n] old val false)).toNat 0 1 = bits val 0 1 := by
  rw [bits_ofNat_zero]
  exact Reg.bits_written_enable old val (e := ⟨0, 1, .rwl, 0, false, true⟩)
    (rest := Reg.glPortCfg.fields.tail.filter (Reg.glPortCfg.hasField [n]))
    (by simp [Reg.fieldsAt, Reg.fields, Reg.hasField, List.filter_cons]) ⟨rfl, rfl, rfl⟩
    (fun f hf => (by decide : ∀ f ∈ Reg.glPortCfg.fields.tail, 1 ≤ f.lo) f (List.mem_of_mem_filter hf)) (fun _ _ => rfl)

theorem cpRingCfg_written (old val i : Nat) : bits (BitVec.ofNat 64 (Reg.cpRingCfg.written [i] old val false)).toNat 0 1 = bits val 0 1 := by
  rw [bits_ofNat_zero]
  exact Reg.bits_written_enable old val (e := ⟨0, 1, .rwl, 0, false, true⟩) (rest := Reg.cpRingCfg.fields.tail) rfl ⟨rfl, rfl, rfl⟩
    (by decide) (fun _ _ => rfl)

section
variable {path : Nat} (ok : s.pathOk path true = true)
include ok

/-- An unlocked write of GL_PORT_CFG hands on a word with the enable bit of the value. -/
theorem State.writeAs_glPortCfg (unlocked : s.locked = false) (hn : n < 26) (v : Word) :
    ∃ w : Word, bits w.toNat 0 1 = bits v.toNat 0 1 ∧ s.writeAs path .glPortCfg [n] v = s.portCfgWrite n w := by
  refine ⟨_, glPortCfg_written (s.rget .glPortCfg [n]).toNat v.toNat n, ?_⟩
  have writable : Reg.glPortCfg.readOnly [n] = false := by simp [Reg.readOnly, Reg.has, Reg.fieldsAt, Reg.fields, Reg.hasField, List.filter_cons]
  rw [State.writeAs_of_pathOk v ok (glPortCfg_located n hn) writable (.inl unlocked), State.putReg, unlocked]
  rfl

theorem State.writeAs_cpRingCfg (unlocked : s.locked = false) {q : Nat} (hn : n < 24) (hq : q < 4) (v : Word) :
    ∃ w : Word, bits w.toNat 0 1 = bits v.toNat 0 1 ∧ s.writeAs path .cpRingCfg [4 * n + q] v = s.ringCfg n q w := by
  refine ⟨_, cpRingCfg_written (s.rget .cpRingCfg [4 * n + q]).toNat v.toNat (4 * n + q), ?_⟩
  have port : (4 * n + q) / 4 = n := by omega
  have ring : (4 * n + q) % 4 = q := by omega
  rw [State.writeAs_of_pathOk v ok (cpRingCfg_located _ (by omega)) rfl (.inl unlocked), State.putReg, unlocked]
  simp only [List.getElem?_cons_zero, Option.getD_some, port, ring]

theorem State.writeAs_cpRingCtl {q : Nat} (hn : n < 24) (hq : q < 4) : s.writeAs path .cpRingCtl [4 * n + q] 1 = s.ringRestart n q := by
  have port : (4 * n + q) / 4 = n := by omega
  have ring : (4 * n + q) % 4 = q := by omega
  rw [State.writeAs_of_pathOk 1 ok (cpRingCtl_located _ (by omega)) rfl (.inr rfl), State.putReg]
  simp only [List.getElem?_cons_zero, Option.getD_some, port, ring]
  rfl

end

/-! ## The commands -/

section
variable {path q : Nat} (hp : path < 3)
include hp

theorem exec_portEnable (hn : n < 26) (s : State) :
    exec (.portEnable path n) s = .next (s.writeAs path .glPortCfg [n] (s.rget .glPortCfg [n] ||| 1)) :=
  onUnit_of (by simp [hp, hn]) _

theorem exec_portDisable (hn : n < 26) (s : State) : exec (.portDisable path n) s
    = .next (s.writeAs path .glPortCfg [n] (s.rget .glPortCfg [n] &&& BitVec.ofNat 64 (2 ^ 64 - 2))) :=
  onUnit_of (by simp [hp, hn]) _

theorem exec_ringEnable (hn : n < 24) (hq : q < 4) (s : State) : exec (.ringEnable path n q) s
    = .next (s.writeAs path .cpRingCfg [4 * n + q] (s.rget .cpRingCfg [4 * n + q] ||| 1)) :=
  onUnit_of (by simp [hp, hn, hq]) _

theorem exec_ringDisable (hn : n < 24) (hq : q < 4) (s : State) : exec (.ringDisable path n q) s
    = .next (s.writeAs path .cpRingCfg [4 * n + q] (s.rget .cpRingCfg [4 * n + q] &&& BitVec.ofNat 64 (2 ^ 64 - 2))) :=
  onUnit_of (by simp [hp, hn, hq]) _

theorem exec_ringRestart (hn : n < 24) (hq : q < 4) (s : State) : exec (.ringRestart path n q) s
    = .next (s.writeAs path .cpRingCtl [4 * n + q] 1) :=
  onUnit_of (by simp [hp, hn, hq]) _

end

/-- What enabling or disabling a ring leaves: its enable bit as written, and the ring started again. -/
theorem State.ringCfg_effect {q b : Nat} {w : Word} (hw : bits w.toNat 0 1 = b) (h : b ≠ s.fget F.cpRingCfg_en [4 * n + q]) :
    (s.ringCfg n q w).fget F.cpRingCfg_en [4 * n + q] = b
      ∧ (s.ringCfg n q w).port n = (s.port n).setRing q ((s.port n).ring q).cleared
      ∧ (∀ m, m ≠ n → (s.ringCfg n q w).port m = s.port m)
      ∧ s.regsBut (s.ringCfg n q w) [Reg.cpRingCfg.addr [4 * n + q]] ∧ s.only (s.ringCfg n q w) [.regs, .ports] := by
  rw [State.ringCfg_of_change (hw ▸ h)]
  refine ⟨?_, State.port_setPort _ _ _, fun m hm => State.port_setPort_other _ _ hm,
    fun a ha => s.tfind_rput_other w (by simpa using ha), ?_⟩
  · exact (congrArg (fun w : Word => bits w.toNat 0 1) (s.rget_rput_same .cpRingCfg [4 * n + q] w)).trans hw
  · exact State.Follows.only (State.setPort_follows _ _ (State.rput_follows _ _ _ (.refl _ s) rfl) rfl)

end

/-- Settles O13: each command is a write of its register, and the write moves the port or starts the ring again. -/
theorem portsAndRingsEnable : Obligations.PortsAndRingsEnable := by
  refine ⟨fun r => ⟨rfl, rfl, rfl⟩, fun s path n q hp ok => ⟨fun unlocked hn st off => ?_, fun unlocked hn st run on => ?_,
    fun unlocked hn hq off => ?_, fun unlocked hn hq on => ?_, fun hn hq on halted => ?_⟩⟩
  · obtain ⟨w, hw, e⟩ := State.writeAs_glPortCfg ok unlocked hn (s.rget .glPortCfg [n] ||| 1)
    obtain ⟨x, hx, e'⟩ := State.portCfgWrite_rises (hw.trans (bits_enable _)) off st
    refine ⟨_, (exec_portEnable hp hn s).trans (congrArg _ (e.trans e')), (s.fget_portCfg n x).trans hx, State.port_setPort _ _ _,
      fun m hm => State.port_setPort_other _ _ hm, fun a ha => s.tfind_rput_other _ (by simpa using ha), ?_⟩
    exact State.Follows.only (State.setPort_follows _ _ (State.rput_follows _ _ _ (.refl _ s) rfl) rfl)
  · obtain ⟨w, hw, e⟩ := State.writeAs_glPortCfg ok unlocked hn (s.rget .glPortCfg [n] &&& BitVec.ofNat 64 (2 ^ 64 - 2))
    obtain ⟨u, hu, e'⟩ := State.portCfgWrite_falls (hw.trans (bits_disable _)) on st run
    obtain ⟨p, port, drain, -⟩ := ((u.readyFalls n).setPort n { s.port n with st := .drain }).port_portClear n
    refine ⟨_, (exec_portDisable hp hn s).trans (congrArg _ (e.trans e')), ?_⟩
    rw [port]
    refine ⟨drain.trans (by rw [State.port_setPort]), rfl, rfl, rfl, rfl, rfl, fun ready fabric => ?_⟩
    exact u.readyFalls_shown n _ (by rw [hu]; exact ready) fabric
  · obtain ⟨w, hw, e⟩ := State.writeAs_cpRingCfg ok unlocked hn hq (s.rget .cpRingCfg [4 * n + q] ||| 1)
    exact ⟨_, (exec_ringEnable hp hn hq s).trans (congrArg _ e), State.ringCfg_effect (hw.trans (bits_enable _)) (by rw [off]; decide)⟩
  · obtain ⟨w, hw, e⟩ := State.writeAs_cpRingCfg ok unlocked hn hq (s.rget .cpRingCfg [4 * n + q] &&& BitVec.ofNat 64 (2 ^ 64 - 2))
    exact ⟨_, (exec_ringDisable hp hn hq s).trans (congrArg _ e), State.ringCfg_effect (hw.trans (bits_disable _)) (by rw [on]; decide)⟩
  · rw [exec_ringRestart hp hn hq, State.writeAs_cpRingCtl ok hn hq, State.ringRestart_of_halted halted on]

end Sys2Proof.Machine
end

