-- ==== Sys2Proof/Proofs/PacketEnds.lean ====
section
/-! Packets whose status is fixed and packets that reply: what they change, and every packet of a table that meets a condition. -/
namespace Sys2Proof.Machine

section
variable (s : State)

/-! ## A packet whose terminal status is fixed (R92) -/

theorem State.dropReserves_packets : s.dropReserves.packets = s.packets :=
  (State.dropReserves_follows (μ := 0x12000042) (.refl _ s) rfl).kept .packets rfl

theorem State.snoopEnd_packets (src bound : Nat) : (s.snoopEnd src bound).packets = s.packets :=
  (State.snoopEnd_follows (μ := 0x80000000000) src bound (.refl _ s) rfl).kept .packets rfl

theorem State.fixPacket_packets (p : Packet) (st : KStatus) (count aux detail : Nat) :
    (s.fixPacket p st count aux detail).packets = tset s.packets p.id (p.ended st count aux detail) := by
  unfold State.fixPacket
  rw [State.snoopEnd_packets]
  split
  · exact State.dropReserves_packets _
  · rfl

theorem State.fixPacket_kept (p : Packet) (st : KStatus) (count aux detail : Nat) {f : Field}
    (h : f ∉ [Field.regs, .ports, .dir, .demandQ, .packets, .obs]) : f.same s (s.fixPacket p st count aux detail) :=
  (State.fixPacket_follows (μ := fieldMask [.regs, .ports, .dir, .demandQ, .packets, .obs]) p st count aux detail (.refl _ s)
    rfl).kept f (fieldMask_not_mem h)

/-- No frame is reserved by another packet than a TENSOR_PIN. -/
theorem State.fixPacket_ports {p : Packet} (h : p.opcode ≠ 0x31) (st : KStatus) (count aux detail : Nat) :
    (s.fixPacket p st count aux detail).ports = s.ports := by
  unfold State.fixPacket
  extract_lets s1
  rw [if_neg (c := (decide (p.opcode = 0x31) && decide (st ≠ .done)) = true) (by simp [h])]
  exact (State.snoopEnd_follows (μ := 0x80000000000) _ _ (.refl _ s1) rfl).kept .ports rfl

/-! ## A packet that replies and leaves the table (R82, R84) -/

theorem State.postReply_packets (port ring seq op cookie addr : Nat) (st : KStatus) (count aux detail : Nat) :
    (s.postReply port ring seq op cookie addr st count aux detail).packets = s.packets :=
  (State.postReply_follows (μ := 0x280002190c5b) port ring seq op cookie addr st count aux detail (.refl _ s) rfl).kept .packets rfl

/-- The reply is shown, written or lost, whatever is counted after it. -/
theorem State.postReply_shown (port ring seq op cookie addr : Nat) (st : KStatus) (count aux detail : Nat) :
    ∃ lost, .reply port ring seq st addr count aux detail lost ∈ (s.postReply port ring seq op cookie addr st count aux detail).out := by
  unfold State.postReply
  split
  next s1 ps _ =>
    extract_lets lost s2 s3
    have shown : .reply port ring seq st addr count aux detail (decide lost) ∈ s2.out := List.mem_append_right _ List.mem_cons_self
    have f3 : s2.Follows (fieldMask [.regs, .obs]) s3 :=
      .ite (fun _ => .refl _ _) (fun _ => State.ev_follows _ _ _ (.refl _ _) rfl)
    refine ⟨decide lost, List.IsPrefix.subset (State.Follows.shown (m := fieldMask [.regs, .obs]) ?_) shown⟩
    exact .ite (fun _ => State.log_follows _ _ _ _ _ (State.fsat_follows _ _ _ (State.fsat_follows _ _ _ f3 rfl) rfl) rfl) fun _ => f3

theorem State.retirePacket_packets (p : Packet) : (s.retirePacket p).packets = tdel s.packets p.id :=
  congrArg (tdel · p.id) (State.postReply_packets _ _ _ _ _ _ _ _ _ _ _)

theorem State.retirePacket_shown (p : Packet) :
    ∃ lost, .reply p.port p.ring p.seq p.status p.reply p.count (s.replyAux p) p.detail lost ∈ (s.retirePacket p).out :=
  s.postReply_shown p.port p.ring p.seq p.opcode p.cookie p.reply p.status p.count (s.replyAux p) p.detail

theorem State.replyAux_of_opcode {p : Packet} (h : p.opcode ≠ 0x60) : s.replyAux p = p.aux := by
  simp [State.replyAux, h]

/-! ## Every packet that meets a condition ends -/

/-- A step for each packet of a table in number order that ends it or leaves the state: each packet is met once. -/
theorem State.tfind_foldl_ends {f : State → Nat × Packet → State} {c : Packet → Bool} {g : Packet → Packet} {I : State → Prop}
    (hI : ∀ t e, I t → I (f t e)) (yes : ∀ t e, I t → c e.2 = true → (f t e).packets = tset t.packets e.2.id (g e.2))
    (no : ∀ t e, I t → c e.2 = false → f t e = t) (j : Nat) : ∀ (l : Table Packet) (t : State), I t → trising l = true →
      (∀ e ∈ l, e.2.id = e.1) → tfind (l.foldl f t).packets j = match (tfind l j).filter c with
        | some x => some (g x)
        | none => tfind t.packets j
  | [], _, _, _, _ => rfl
  | (k, x) :: l, t, h, rising, ids => by
    have above := (trising_iff _).mp rising
    rw [List.pairwise_cons] at above
    have id : x.id = k := ids (k, x) List.mem_cons_self
    rw [List.foldl_cons, State.tfind_foldl_ends hI yes no j l _ (hI t _ h) ((trising_iff _).mpr above.2)
      fun e he => ids e (List.mem_cons_of_mem _ he)]
    by_cases hj : k = j
    · subst hj
      have fresh : tfind l k = none := by
        refine Option.not_isSome_iff_eq_none.mp fun found => ?_
        rw [tfind_isSome, List.contains_iff_mem, List.mem_map] at found
        obtain ⟨e, he, hk⟩ := found
        exact absurd (above.1 e he) (by simp [hk])
      cases hc : c x with
      | true => simp [fresh, tfind, Option.filter, hc, yes t (k, x) h hc, id, tfind_tset_same]
      | false => simp [fresh, tfind, Option.filter, hc, no t (k, x) h hc]
    · have kept : tfind (f t (k, x)).packets j = tfind t.packets j := by
        cases hc : c x with
        | true => rw [yes t (k, x) h hc, id, tfind_tset_other _ _ (Ne.symm hj)]
        | false => rw [no t (k, x) h hc]
      rw [kept, tfind, if_neg hj]

end

end Sys2Proof.Machine
end

