-- ==== Sys2Proof/Proofs/AbortsAndFences.lean ====
section
/-! ABORT and FENCE (R56, R91, R92), one equation per case. -/
namespace Sys2Proof.Machine

/-! ## ABORT (R91, R92) -/

section
variable {s : State} {id op : Nat} {p x : Packet}

theorem exec_abort (id : Nat) (s : State) : exec (.abort id) s = .next (s.runAbort id) := rfl
theorem exec_fence (id : Nat) (s : State) : exec (.fence id) s = .next (s.runFence id) := rfl
theorem exec_fenceDone (id : Nat) (s : State) : exec (.fenceDone id) s = .next (s.runFenceDone id) := rfl

theorem State.opcode_of_live (h : s.live id op = some p) : p.opcode = op := by
  have found := (Option.filter_eq_some_iff.mp h).2
  simp only [Bool.and_eq_true, decide_eq_true_eq] at found
  exact found.1.1

theorem State.runAbort_of_live {t : State} {st : KStatus} {aux : Nat} (hl : s.live id 0x60 = some p) (wait : p.st = .waiting)
    (e : s.abortTarget p = (t, st, aux)) : s.runAbort id = t.fixPacket { p with st := .running } st 0 aux 0 := by
  simp [State.runAbort, hl, wait, e]

/-- An ABORT that leaves its target ends with its answer alone. -/
theorem State.abort_answers {st : KStatus} {aux : Nat} (hl : s.live id 0x60 = some p) (hid : p.id = id) (wait : p.st = .waiting)
    (e : s.abortTarget p = (s, st, aux)) : ∃ t, exec (.abort id) s = .next t ∧ s.othersKept t id
      ∧ tfind t.packets id = some (p.ended st 0 aux 0) := by
  have packets := s.fixPacket_packets { p with st := .running } st 0 aux 0
  refine ⟨_, (exec_abort id s).trans (congrArg _ (State.runAbort_of_live hl wait e)), fun j hj => ?_, ?_⟩
  · rw [packets, tfind_tset_other _ _ (by rw [hid]; exact hj)]
  · rw [packets, ← hid]
    exact tfind_tset_same _ _ _

theorem State.abortTarget_of_none (h : s.abortee p = none) :
    let seq := bits (p.word 32) 16 16
    let r := (s.port p.port).ring (bits (p.word 32) 0 2)
    let past := (r.seq + 65536 - seq) % 65536
    s.abortTarget p = (s, if 1 ≤ past ∧ past ≤ min 32768 r.parsed then .tooLate else .notFound, 0xFF) := by
  intro seq r past
  simp only [State.abortTarget, h, Bool.and_eq_true, decide_eq_true_eq]
  split <;> rfl

/-- What an ABORT finds, in the order of its answers. -/
theorem State.abortTarget_of_some (h : s.abortee p = some x) : s.abortTarget p =
    if x.opcode = 0x60 then (s, .denied, 0xFF)
    else if x.st = .fixed then (s, .tooLate, x.status.code)
    else if isMaint x.opcode && x.st = .running then (s, .tooLate, 0xFF)
    else if s.closePast x then (s, .tooLate, KStatus.done.code)
    else ((s.fixPacket x .aborted x.count x.aux 0).dropFence x.port x.id, .done, KStatus.aborted.code) := by
  simp only [State.abortTarget, h]

theorem State.dropFence_packets (s : State) (n id : Nat) : (s.dropFence n id).packets = s.packets := rfl

theorem State.fences_dropFence (s : State) (n id : Nat) : ∀ f ∈ ((s.dropFence n id).port n).fences, f.1 ≠ id := by
  intro f hf
  rw [State.dropFence, State.port_setPort] at hf
  simpa using (List.mem_filter.mp hf).2

theorem State.closePast_iff : s.closePast x = true ↔
    x.opcode = 0x12 ∧ x.st = .running ∧ (tfind s.streams x.target).map (·.st) = some .closing := by
  simp [State.closePast, and_assoc]

/-- The target ends ABORTED, its hold on the port falls, and the ABORT is DONE. -/
theorem State.abort_ends (hl : s.live id 0x60 = some p) (hid : p.id = id) (wait : p.st = .waiting) (h : s.abortee p = some x)
    (hk : x.id ≠ id) (other : x.opcode ≠ 0x60) (live : x.st ≠ .fixed) (fast : isMaint x.opcode = true → x.st ≠ .running)
    (before : s.closePast x = false) : ∃ t, exec (.abort id) s = .next t
      ∧ tfind t.packets x.id = some (x.ended .aborted x.count x.aux 0) ∧ tfind t.packets id = some (p.ended .done 0 0x02 0)
      ∧ (∀ j, j ≠ x.id → j ≠ id → tfind t.packets j = tfind s.packets j) ∧ (∀ f ∈ (t.port x.port).fences, f.1 ≠ x.id) := by
  have target : s.abortTarget p = ((s.fixPacket x .aborted x.count x.aux 0).dropFence x.port x.id, .done, 0x02) := by
    have fast' : (isMaint x.opcode && decide (x.st = .running)) = false := by
      cases hm : isMaint x.opcode with
      | true => simp [fast hm]
      | false => rfl
    rw [State.abortTarget_of_some h, if_neg other, if_neg live, fast', before]
    rfl
  have hu : ((s.fixPacket x .aborted x.count x.aux 0).dropFence x.port x.id).packets
      = tset s.packets x.id (x.ended .aborted x.count x.aux 0) := by
    rw [State.dropFence_packets, State.fixPacket_packets]
  have fences := State.fences_dropFence (s.fixPacket x .aborted x.count x.aux 0) x.port x.id
  generalize (s.fixPacket x .aborted x.count x.aux 0).dropFence x.port x.id = u at target hu fences
  have op : ({ p with st := .running } : Packet).opcode ≠ 0x31 := by simp [State.opcode_of_live hl]
  have packets := u.fixPacket_packets { p with st := .running } .done 0 0x02 0
  have ports := u.fixPacket_ports op .done 0 0x02 0
  rw [hu] at packets
  subst hid
  refine ⟨_, (exec_abort p.id s).trans (congrArg _ (State.runAbort_of_live hl wait target)), ?_, ?_, fun j hx hj => ?_, ?_⟩
  · rw [packets, tfind_tset_other _ _ hk, tfind_tset_same]
  · rw [packets]
    exact tfind_tset_same _ _ _
  · rw [packets, tfind_tset_other _ _ hj, tfind_tset_other _ _ hx]
  · rw [State.port, ports]
    exact fences

end

/-! ## FENCE (R56) -/

section
variable {s : State} {id : Nat} {p : Packet}

theorem State.runFence_of_waiting (hl : s.live id 0x61 = some p) (wait : p.st = .waiting) :
    s.runFence id = s.setPacket { p with st := .running } := by
  simp [State.runFence, hl, wait]

theorem State.runFenceDone_of_held (hl : s.live id 0x61 = some p) (h : s.fenceOver p = false) : s.runFenceDone id = s := by
  simp [State.runFenceDone, hl, h]

theorem State.runFenceDone_of_over (hl : s.live id 0x61 = some p) (run : p.st = .running) (h : s.fenceOver p = true) :
    s.runFenceDone id = (s.retirePacket { p with st := .fixed, status := .done }).dropFence p.port id := by
  simp [State.runFenceDone, hl, run, h]

/-- The FENCE replies DONE and leaves the table, and its hold falls. -/
theorem State.fenceDone_retires (hl : s.live id 0x61 = some p) (hid : p.id = id) (run : p.st = .running)
    (free : s.fenceOver p = true) : ∃ t lost, exec (.fenceDone id) s = .next t ∧ tfind t.packets id = none ∧ s.othersKept t id
      ∧ .reply p.port p.ring p.seq .done p.reply p.count p.aux p.detail lost ∈ t.out ∧ ∀ f ∈ (t.port p.port).fences, f.1 ≠ id := by
  have packets := s.retirePacket_packets { p with st := .fixed, status := .done }
  have aux : s.replyAux { p with st := .fixed, status := .done } = p.aux :=
    s.replyAux_of_opcode (p := { p with st := .fixed, status := .done }) (by simp [State.opcode_of_live hl])
  obtain ⟨lost, shown⟩ := s.retirePacket_shown { p with st := .fixed, status := .done }
  rw [aux] at shown
  refine ⟨_, lost, (exec_fenceDone id s).trans (congrArg _ (State.runFenceDone_of_over hl run free)), ?_, fun j hj => ?_, shown, State.fences_dropFence _ _ _⟩
  · exact (congrArg (tfind · id) packets).trans (by rw [← hid]; exact tfind_tdel_same _ _)
  · exact (congrArg (tfind · j) packets).trans (tfind_tdel_other _ (by rw [hid]; exact hj))

end

end Sys2Proof.Machine
end

