-- ==== Sys2Proof/Proofs/TrapsAndReloads.lean ====
section
/-! Traps of the interpreters and the ends of a reload (R95 to R97), and the statement about packets that are stopped. -/
namespace Sys2Proof.Machine

/-! ## Traps of the interpreters (R95, R96) -/

section
variable {s : State} {k : Nat}

/-- A packet that a trap of interpreter k ends (R92, R96). -/
def State.trapped (s : State) (k : Nat) (x : Packet) : Bool := x.st = .running && x.interp = some k && !s.committed x

theorem State.committed_of_streams {s t : State} (h : t.streams = s.streams) (x : Packet) : t.committed x = s.committed x := by
  simp only [State.committed, State.closePast, h]

/-- Whether a packet is committed does not depend on the packets ended before it. -/
theorem State.fixPacket_streams (s : State) (p : Packet) (st : KStatus) (count aux detail : Nat) :
    (s.fixPacket p st count aux detail).streams = s.streams := s.fixPacket_kept p st count aux detail (f := .streams) (by decide)

theorem State.tfind_trapPackets (rising : trising s.packets = true) (ids : ∀ e ∈ s.packets, e.2.id = e.1) {j : Nat} {x : Packet}
    (hx : tfind s.packets j = some x) : tfind (s.trapPackets k).packets j =
      if s.trapped k x then some (x.ended .fwRestart x.count x.aux 0) else some x := by
  refine (State.tfind_foldl_ends (I := fun t => t.streams = s.streams) (c := s.trapped k)
    (g := fun x => x.ended .fwRestart x.count x.aux 0) (fun t e h => ?_) (fun t e h hc => ?_) (fun t e h hc => ?_) j s.packets s rfl
    rising ids).trans ?_
  · split
    · exact (State.fixPacket_streams _ _ _ _ _ _).trans h
    · exact h
  · rw [if_pos (by rw [State.committed_of_streams h]; exact hc)]
    exact t.fixPacket_packets _ _ _ _ _
  · exact if_neg (by rw [State.committed_of_streams h]; exact Bool.eq_false_iff.mp hc)
  · rw [hx]
    cases hc : s.trapped k x <;> simp [Option.filter, hc]

theorem State.trapPackets_follows_self (s : State) (k : Nat) :
    s.Follows (fieldMask [.regs, .ports, .dir, .demandQ, .packets, .obs]) (s.trapPackets k) := State.trapPackets_follows k (.refl _ s) rfl

/-- The interpreter of a trap, with its fetch address. -/
def State.interpTrapped (s : State) (k addr : Nat) : State :=
  { s with interps := tput Interp.init s.interps k { tget Interp.init s.interps k with reload := true, trapAddr := addr } }

theorem State.interpTrapped_interps (s : State) (k addr : Nat) : (s.interpTrapped k addr).interps
    = tput Interp.init s.interps k { tget Interp.init s.interps k with reload := true, trapAddr := addr } := rfl
theorem State.interpTrapped_packets (s : State) (k addr : Nat) : (s.interpTrapped k addr).packets = s.packets := rfl
theorem State.interpTrapped_streams (s : State) (k addr : Nat) : (s.interpTrapped k addr).streams = s.streams := rfl

theorem exec_fwTrap (hk : k < 4) (addr : Nat) (s : State) : exec (.fwTrap k addr) s = .next (s.fwTrap k addr) := onUnit_of hk _

theorem State.fwTrap_of_running (addr : Nat) (h : s.fget F.cpFwStat_state = 1 ∨ s.fget F.cpFwStat_state = 2) : s.fwTrap k addr
    = (((s.interpTrapped k addr).trapPackets k).fset F.cpFwStat_state [] 2).fsat F.cpFwStat_traps [] 1 := by
  rcases h with h | h <;> simp [State.fwTrap, h, State.interpTrapped]

theorem State.fwTrap_of_stopped (addr : Nat) (h1 : s.fget F.cpFwStat_state ≠ 1) (h2 : s.fget F.cpFwStat_state ≠ 2) :
    s.fwTrap k addr = s := by
  simp [State.fwTrap, h1, h2]

/-- The trap waits for its reload, and ends its interpreter's packet but for one past its commit point. -/
theorem State.fwTrap_ends (hk : k < 4) (addr : Nat) (h : s.fget F.cpFwStat_state = 1 ∨ s.fget F.cpFwStat_state = 2)
    (rising : trising s.packets = true) (ids : ∀ e ∈ s.packets, e.2.id = e.1) :
    ∃ t, exec (.fwTrap k addr) s = .next t
      ∧ tget Interp.init t.interps k = { tget Interp.init s.interps k with reload := true, trapAddr := addr }
      ∧ (∀ j, j ≠ k → tget Interp.init t.interps j = tget Interp.init s.interps j) ∧ t.fget F.cpFwStat_state = 2
      ∧ ∀ j x, tfind s.packets j = some x → tfind t.packets j =
          if x.st = .running ∧ x.interp = some k ∧ s.committed x = false then some (x.ended .fwRestart x.count x.aux 0)
          else some x := by
  have packets := fun j x => State.tfind_trapPackets (s := s.interpTrapped k addr) (k := k) rising ids (j := j) (x := x)
  have interps : ((s.interpTrapped k addr).trapPackets k).interps = (s.interpTrapped k addr).interps :=
    (State.trapPackets_follows_self _ k).kept .interps rfl
  have steps := State.fwTrap_of_running (k := k) addr h
  generalize (s.interpTrapped k addr).trapPackets k = u at packets interps steps
  refine ⟨_, (exec_fwTrap hk addr s).trans (congrArg _ steps), ?_, fun j hj => ?_, ?_, fun j x hx => ?_⟩
  · rw [State.fsat_interps, State.fset_interps, interps, State.interpTrapped_interps, tget_tput_same]
  · rw [State.fsat_interps, State.fset_interps, interps, State.interpTrapped_interps, tget_tput_other _ _ _ _ hj]
  · exact (State.fget_fset_field (f := F.cpFwStat_traps) (g := F.cpFwStat_state) _ [] _ rfl (by decide) (by decide)).trans
      (u.fget_fset_same F.cpFwStat_state [] 2 (by decide))
  · rw [State.fsat_packets, State.fset_packets, packets j x (by rw [State.interpTrapped_packets]; exact hx), State.trapped,
      State.committed_of_streams (s.interpTrapped_streams k addr)]
    simp [and_assoc]

end

/-! ## The end of a reload (R95 to R97) -/

section
variable {s : State} {k src : Nat}

theorem exec_fwReloadDone (hk : k < 4) (src : Nat) (s : State) :
    exec (.fwReloadDone k src) s = .next (s.fwReload k src).serveMgmt := onUnit_of hk _

theorem State.serveMgmt_of_none (h : s.mgmtQ = []) : s.serveMgmt = s := by
  unfold State.serveMgmt
  rw [h]
  split <;> rfl

/-- One request that waits is served once interpreter 3 reloads no more. -/
theorem State.serveMgmt_of_one {c : Instr} (h : s.mgmtQ = [c]) (free : s.mgmtWaits = false) :
    s.serveMgmt = ({ s with mgmtQ := [] } : State).serveOne c := by
  rw [State.serveMgmt, free, h]
  change s.serveNext = _
  rw [State.serveNext, h]

theorem State.fwReload_of_idle (h : (tget Interp.init s.interps k).reload = false) (src : Nat) : s.fwReload k src = s := by
  simp [State.fwReload, h]

/-- The interpreter whose memory holds the patch image again. -/
def Interp.reloaded (i : Interp) : Interp := { i with reload := false, trapAddr := 0, mem := [] }

/-- The state in which the reload's record has been made. -/
def State.reloadLogged (s : State) (k src : Nat) : State :=
  ({ s with interps := tput Interp.init s.interps k (tget Interp.init s.interps k).reloaded } : State).log .fwTrap k src 0
    (tget Interp.init s.interps k).trapAddr

/-- Interpreters still wait for their reload. -/
def State.reloadsLeft (s : State) : Bool := [0, 1, 2, 3].any fun j => (tget Interp.init s.interps j).reload

/-- The state after a reload from source 0, 1 or 2. -/
def State.reloadEnded (s : State) (k src : Nat) : State :=
  let t := (s.reloadLogged k src).fset F.cpFwStat_reload_src [] src
  if s.fget F.cpFwStat_state = 3 then t
  else t.fset F.cpFwStat_state [] (if (s.reloadLogged k src).reloadsLeft then 2 else 1)

theorem State.fwReload_of_source (h : (tget Interp.init s.interps k).reload = true) (hs : src < 3) :
    s.fwReload k src = s.reloadEnded k src := by
  unfold State.fwReload
  extract_lets i s0 s1 more s2
  rw [if_neg (by simp [i, h]), if_neg (by omega)]
  rfl

theorem State.reloadLogged_follows (s : State) (k src : Nat) : s.Follows (fieldMask [.regs, .obs, .interps]) (s.reloadLogged k src) :=
  State.log_follows _ _ _ _ _ (State.Follows.set_interps (.refl _ s) rfl) rfl

theorem State.reloadLogged_interps (s : State) (k src : Nat) :
    (s.reloadLogged k src).interps = tput Interp.init s.interps k (tget Interp.init s.interps k).reloaded :=
  (State.log_follows (μ := fieldMask [.regs, .obs]) _ _ _ _ _ (.refl _ _) rfl).kept .interps rfl

theorem State.reloadLogged_obs (s : State) (k src : Nat) :
    (s.reloadLogged k src).obs = (s.log .fwTrap k src 0 (tget Interp.init s.interps k).trapAddr).obs :=
  State.log_obs_of_obs (s := s)
    (t := { s with interps := tput Interp.init s.interps k (tget Interp.init s.interps k).reloaded }) rfl _ _ _ _ _

theorem State.reloadLogged_regsBut (s : State) (k src : Nat) : s.regsBut (s.reloadLogged k src) [Reg.obEvrStat.addr []] :=
  fun _ ha => State.tfind_log_other _ _ _ _ _ _ (by simpa using ha)

/-- No interpreter but the one that has come back waits. -/
theorem State.reloadsLeft_reloadLogged (alone : ∀ j < 4, j ≠ k → (tget Interp.init s.interps j).reload = false) :
    (s.reloadLogged k src).reloadsLeft = false := by
  have none : ∀ j < 4, (tget Interp.init (s.reloadLogged k src).interps j).reload = false := fun j hj => by
    rw [State.reloadLogged_interps]
    by_cases hk : j = k
    · subst hk
      rw [tget_tput_same]
      rfl
    · rw [tget_tput_other _ _ _ _ hk]
      exact alone j hj hk
  simp [State.reloadsLeft, none]

theorem State.reloadEnded_interps (s : State) (k src : Nat) : (s.reloadEnded k src).interps
    = tput Interp.init s.interps k (tget Interp.init s.interps k).reloaded := by
  unfold State.reloadEnded
  split <;> simp only [State.fset_interps, State.reloadLogged_interps]

theorem State.reloadEnded_obs (s : State) (k src : Nat) :
    (s.reloadEnded k src).obs = (s.log .fwTrap k src 0 (tget Interp.init s.interps k).trapAddr).obs := by
  unfold State.reloadEnded
  split <;> simp only [State.fset_obs, State.reloadLogged_obs]

theorem State.fget_reloadEnded_src (s : State) (k : Nat) (hs : src < 3) : (s.reloadEnded k src).fget F.cpFwStat_reload_src = src := by
  have set : ∀ u : State, (u.fset F.cpFwStat_reload_src [] src).fget F.cpFwStat_reload_src = src := fun u => by
    rw [u.fget_fset_same _ _ _ (by decide)]
    exact Nat.mod_eq_of_lt (Nat.lt_trans hs (by decide))
  unfold State.reloadEnded
  split
  · exact set _
  · exact (State.fget_fset_field (f := F.cpFwStat_state) (g := F.cpFwStat_reload_src) _ [] _ rfl (by decide) (by decide)).trans (set _)

theorem State.fget_reloadEnded_state (run : s.fget F.cpFwStat_state ≠ 3)
    (alone : ∀ j < 4, j ≠ k → (tget Interp.init s.interps j).reload = false) : (s.reloadEnded k src).fget F.cpFwStat_state = 1 := by
  rw [State.reloadEnded, if_neg run, State.reloadsLeft_reloadLogged alone]
  exact State.fget_fset_same _ _ _ _ (by decide)

theorem State.reloadEnded_regsBut (s : State) (k src : Nat) :
    s.regsBut (s.reloadEnded k src) [Reg.cpFwStat.addr [], Reg.obEvrStat.addr []] := by
  intro a ha
  simp only [List.mem_cons, List.not_mem_nil, or_false, not_or] at ha
  obtain ⟨stat, evr⟩ := ha
  have logged := s.reloadLogged_regsBut k src a (by simpa using evr)
  unfold State.reloadEnded
  split
  · rw [State.tfind_fset_other _ _ stat, logged]
  · rw [State.tfind_fset_other _ _ stat, State.tfind_fset_other _ _ stat, logged]

theorem State.reloadEnded_follows (s : State) (k src : Nat) : s.Follows (fieldMask [.regs, .obs, .interps]) (s.reloadEnded k src) := by
  have first : s.Follows (fieldMask [.regs, .obs, .interps]) ((s.reloadLogged k src).fset F.cpFwStat_reload_src [] src) :=
    State.fset_follows _ _ _ (s.reloadLogged_follows k src) rfl
  exact .ite (fun _ => first) fun _ => State.fset_follows _ _ _ first rfl

/-- The interpreter runs again on the patch image, and its trap's record names the source. -/
theorem State.fwReloadDone_ends (hk : k < 4) (wait : (tget Interp.init s.interps k).reload = true) (hs : src < 3) (hq : s.mgmtQ = []) :
    ∃ t, exec (.fwReloadDone k src) s = .next t ∧ tget Interp.init t.interps k = (tget Interp.init s.interps k).reloaded
      ∧ t.fget F.cpFwStat_reload_src = src ∧ t.obs = (s.log .fwTrap k src 0 (tget Interp.init s.interps k).trapAddr).obs
      ∧ (s.fget F.cpFwStat_state ≠ 3 → (∀ j < 4, j ≠ k → (tget Interp.init s.interps j).reload = false) →
          t.fget F.cpFwStat_state = 1)
      ∧ s.regsBut t [Reg.cpFwStat.addr [], Reg.obEvrStat.addr []] ∧ s.only t [.regs, .obs, .interps] := by
  have none : (s.reloadEnded k src).mgmtQ = [] := ((s.reloadEnded_follows k src).kept .mgmtQ rfl).trans hq
  refine ⟨_, (exec_fwReloadDone hk src s).trans (by rw [State.fwReload_of_source wait hs, State.serveMgmt_of_none none]), ?_,
    s.fget_reloadEnded_src k hs, s.reloadEnded_obs k src, State.fget_reloadEnded_state, s.reloadEnded_regsBut k src,
    (s.reloadEnded_follows k src).only⟩
  rw [State.reloadEnded_interps, tget_tput_same]

theorem State.emit_out (s : State) (o : Out) : (s.emit o).out = s.out ++ [o] := rfl

theorem State.fget_eid_set (s : State) {eid : Nat} (h : eid < 256) :
    ((s.fset F.btMciStat_eid [] eid).fset F.btMciStat_eid_valid [] 1).fget F.btMciStat_eid = eid :=
  (State.fget_fset_field (f := F.btMciStat_eid_valid) (g := F.btMciStat_eid) _ [] _ rfl (by decide) (by decide)).trans
    ((s.fget_fset_same F.btMciStat_eid [] eid (by decide)).trans (Nat.mod_eq_of_lt (show eid < 2 ^ F.btMciStat_eid.w from h)))

theorem State.takeEid_fget (s : State) {eid : Nat} (h : eid < 256) : (s.takeEid eid).fget F.btMciStat_eid = eid :=
  (State.fget_of_regs (State.emit_regs _ _) _ _).trans (s.fget_eid_set h)

theorem State.takeEid_out (s : State) (eid : Nat) : (s.takeEid eid).out = s.out ++ [.mctp 1 0 [eid]] := by
  rw [State.takeEid, State.emit_out, State.fset_out, State.fset_out]

theorem State.takeEid_mgmtQ (s : State) (eid : Nat) : (s.takeEid eid).mgmtQ = s.mgmtQ := by
  rw [State.takeEid, State.emit_mgmtQ, State.fset_mgmtQ, State.fset_mgmtQ]

/-- What waited on the management chain is served when interpreter 3 has its image again. -/
theorem State.fwReloadDone_serves {eid : Nat} (he : eid < 256) (wait : (tget Interp.init s.interps 3).reload = true) (hs : src < 3)
    (hq : s.mgmtQ = [.setEndpointId eid]) : ∃ t, exec (.fwReloadDone 3 src) s = .next t ∧ t.mgmtQ = []
      ∧ t.fget F.btMciStat_eid = eid ∧ t.out = s.out ++ [.mctp 1 0 [eid]] := by
  have kept := s.reloadEnded_follows 3 src
  have one : (s.reloadEnded 3 src).mgmtQ = [.setEndpointId eid] := (kept.kept .mgmtQ rfl).trans hq
  have out : (s.reloadEnded 3 src).out = s.out := kept.kept .out rfl
  have free : (s.reloadEnded 3 src).mgmtWaits = false := by
    rw [State.mgmtWaits, State.reloadEnded_interps, tget_tput_same]
    rfl
  exact ⟨_, (exec_fwReloadDone (by decide) src s).trans
    (by rw [State.fwReload_of_source wait hs, State.serveMgmt_of_one one free]; rfl), State.takeEid_mgmtQ _ _,
    State.takeEid_fget _ he, (State.takeEid_out _ _).trans (by rw [out])⟩

end

/-! ## All copies of the image failed (R97) -/

section
variable {s : State} {k src : Nat}

/-- A firmware packet that the failure ends (R92, R97). -/
def State.fwStopped (s : State) (x : Packet) : Bool := ((opRow x.opcode).map (·.fw)).getD false && x.st ≠ .fixed && !s.committed x

theorem State.fget_of_anchors {s t : State} (h : t.anchors = s.anchors) : t.fget F.cpFwStat_state = s.fget F.cpFwStat_state :=
  State.fget_of_tfind (congrArg Prod.snd h)

theorem State.anchors_failFw (s : State) : s.failFw.anchors = s.anchors := by
  unfold State.failFw
  refine (State.anchors_foldl (fun t e => ?_) _ _).trans (State.anchors_of_eq rfl rfl)
  exact State.anchors_ite ((State.anchors_fixPacket _ _ _ _ _ _).trans (t.anchors_spoil _)) rfl

theorem State.anchors_regrade (s : State) (st : Nat) : (s.regrade st).anchors = s.anchors := by
  unfold State.regrade
  refine State.anchors_ite rfl ?_
  rw [State.anchors_raise _ rfl _ _ (by simp [F.pkInt_first_stack, F.pkInt_grade]), State.anchors_fset _ rfl]

theorem State.spoil_kept (s : State) (p : Packet) {f : Field}
    (h : f ∉ [Field.clk, .regs, .free, .ports, .pccs, .mem, .rows, .ladder, .links, .dir, .obs, .arbs]) : f.same s (s.spoil p) :=
  (State.spoil_follows (μ := fieldMask [.clk, .regs, .free, .ports, .pccs, .mem, .rows, .ladder, .links, .dir, .obs, .arbs]) p (.refl _ s)
    rfl).kept f (fieldMask_not_mem h)

theorem State.tfind_failFw (rising : trising s.packets = true) (ids : ∀ e ∈ s.packets, e.2.id = e.1) {j : Nat} {x : Packet}
    (hx : tfind s.packets j = some x) (stop : s.fwStopped x = true) :
    tfind s.failFw.packets j = some (x.ended .unavailable x.count x.aux 0) := by
  refine (State.tfind_foldl_ends (I := fun t => t.streams = s.streams) (c := s.fwStopped)
    (g := fun x => x.ended .unavailable x.count x.aux 0) (fun t e h => ?_) (fun t e h hc => ?_) (fun t e h hc => ?_) j s.packets
    { s with fwq := [] } rfl rising ids).trans ?_
  · extract_lets fw
    split
    · exact (State.fixPacket_streams _ _ _ _ _ _).trans ((t.spoil_kept e.2 (f := .streams) (by decide)).trans h)
    · exact h
  · extract_lets fw
    rw [if_pos (by rw [State.committed_of_streams h]; exact hc), State.fixPacket_packets]
    exact congrArg (tset · _ _) (t.spoil_kept e.2 (f := .packets) (by decide))
  · exact if_neg (by rw [State.committed_of_streams h]; exact Bool.eq_false_iff.mp hc)
  · simp [hx, Option.filter, stop]

/-- The state in which the failed reload's record has been made and CP_FW_STAT reads 3. -/
def State.fwFailing (s : State) (k : Nat) : State :=
  (s.log .fwTrap k 2 0 (tget Interp.init s.interps k).trapAddr).fset F.cpFwStat_state [] 3

theorem State.fwReload_of_failed (h : (tget Interp.init s.interps k).reload = true) (hs : 3 ≤ src) :
    s.fwReload k src = (((s.fwFailing k).failFw).log .fwFailed).regrade 0 := by
  unfold State.fwReload
  extract_lets i
  rw [if_neg (by simp [i, h]), if_pos hs]
  rfl

theorem State.fwFailing_follows (s : State) (k : Nat) : s.Follows (fieldMask [.regs, .obs]) (s.fwFailing k) :=
  State.fset_follows _ _ _ (State.log_follows _ _ _ _ _ (.refl _ s) rfl) rfl

theorem State.failFw_fwq (s : State) : s.failFw.fwq = [] := by
  have kept : ({ s with fwq := [] } : State).Follows 0x290012190c53 s.failFw := by
    refine State.Follows.foldl (fun t e h => ?_) s.packets (.refl _ _)
    exact .ite (fun _ => State.fixPacket_follows _ _ _ _ _ (State.spoil_follows _ h rfl) rfl) fun _ => h
  exact kept.kept .fwq rfl

/-- With all copies failed every firmware packet that nothing has fixed ends UNAVAILABLE, and none waits. -/
theorem State.fwReloadDone_fails (hk : k < 4) (wait : (tget Interp.init s.interps k).reload = true) (hs : 3 ≤ src) (hq : s.mgmtQ = [])
    (rising : trising s.packets = true) (ids : ∀ e ∈ s.packets, e.2.id = e.1) : ∃ t, exec (.fwReloadDone k src) s = .next t
      ∧ t.fget F.cpFwStat_state = 3 ∧ t.fwq = [] ∧ ∀ j x row, tfind s.packets j = some x → opRow x.opcode = some row → row.fw = true →
        x.st ≠ .fixed → s.committed x = false → tfind t.packets j = some (x.ended .unavailable x.count x.aux 0) := by
  have failing := s.fwFailing_follows k
  have packets : (s.fwFailing k).packets = s.packets := failing.kept .packets rfl
  have streams : (s.fwFailing k).streams = s.streams := failing.kept .streams rfl
  have state : (s.fwFailing k).fget F.cpFwStat_state = 3 := State.fget_fset_same _ _ _ _ (by decide)
  have queue := (State.failFw_follows (μ := 0x2b0012190c53) (.refl _ (s.fwFailing k)) rfl).kept .mgmtQ rfl
  have steps := State.fwReload_of_failed (s := s) wait hs
  have mgmt : (s.fwFailing k).mgmtQ = s.mgmtQ := failing.kept .mgmtQ rfl
  generalize s.fwFailing k = u at packets streams state queue steps mgmt
  have last : u.failFw.Follows (fieldMask [.regs, .obs]) ((u.failFw.log .fwFailed).regrade 0) :=
    State.regrade_follows _ (State.log_follows _ _ _ _ _ (.refl _ _) rfl) rfl
  have none : ((u.failFw.log .fwFailed).regrade 0).mgmtQ = [] := (last.kept .mgmtQ rfl).trans (queue.trans (mgmt.trans hq))
  refine ⟨_, (exec_fwReloadDone hk src s).trans (by rw [steps, State.serveMgmt_of_none none]), ?_, (last.kept .fwq rfl).trans u.failFw_fwq,
    fun j x row hx hrow fw live free => ?_⟩
  · rw [State.fget_of_anchors ((State.anchors_regrade _ _).trans ((State.anchors_log _ _ _ _ _ _).trans u.anchors_failFw)), state]
  · have stop : u.fwStopped x = true := by simp [State.fwStopped, hrow, fw, live, State.committed_of_streams streams, free]
    rw [← packets] at rising ids hx
    exact (congrArg (tfind · j) (last.kept .packets rfl)).trans (State.tfind_failFw rising ids hx stop)

end

/-- Settles O47: the answers of an ABORT, the two ends of a FENCE, a trap, and the three ends of a reload. -/
theorem packetsAreStopped : Obligations.PacketsAreStopped := by
  intro s id p
  refine ⟨fun hl hid wait => ⟨fun none => ?_, fun k x last hx hk => ?_⟩, fun hl hid => ⟨fun wait => ?_, fun run free => ?_, fun held => ?_⟩,
    fun k addr src hk => ⟨fun h rising ids => State.fwTrap_ends hk addr h rising ids, fun h1 h2 => ?_, fun idle hq => ?_,
      fun eid he h3 wait hs hq => ?_, fun wait hs hq => State.fwReloadDone_ends hk wait hs hq,
      fun wait hs hq rising ids => State.fwReloadDone_fails hk wait hs hq rising ids⟩⟩
  · exact State.abort_answers hl hid wait (State.abortTarget_of_none (congrArg (fun l => l.getLast?.map Prod.snd) none))
  · have target : s.abortee p = some x := congrArg (Option.map Prod.snd) last
    have answer := State.abortTarget_of_some target
    subst hx
    refine ⟨fun other live fast before => ?_, fun abort => ?_, fun other fixed => ?_, fun maint run => ?_, fun past => ?_⟩
    · refine State.abort_ends hl hid wait target hk other live fast (Bool.eq_false_iff.mpr fun past => ?_)
      obtain ⟨close, run, closing⟩ := State.closePast_iff.mp past
      exact before close run closing
    · exact State.abort_answers hl hid wait (by rw [answer, if_pos abort])
    · exact State.abort_answers hl hid wait (by rw [answer, if_neg other, if_pos fixed])
    · have other : x.opcode ≠ 0x60 := fun h => by simp [h, isMaint] at maint
      exact State.abort_answers hl hid wait (by rw [answer, if_neg other, if_neg (by simp [run]), if_pos (by simp [maint, run])])
    · obtain ⟨close, run, -⟩ := State.closePast_iff.mp past
      exact State.abort_answers hl hid wait (by
        rw [answer, if_neg (by simp [close]), if_neg (by simp [run]), if_neg (by simp [close, isMaint]), if_pos past]; rfl)
  · rw [exec_fence, State.runFence_of_waiting hl wait]
  · exact State.fenceDone_retires hl hid run free
  · rw [exec_fenceDone, State.runFenceDone_of_held hl held]
  · rw [exec_fwTrap hk, State.fwTrap_of_stopped addr h1 h2]
  · rw [exec_fwReloadDone hk, State.fwReload_of_idle idle, State.serveMgmt_of_none hq]
  · subst h3
    exact State.fwReloadDone_serves he wait hs hq

end Sys2Proof.Machine
end

