-- ==== Sys2Proof/Proofs/EnginesAndCores.lean ====
section
/-! The engines of a core, its steps and cursors: what each reads after a change, and what one run of a step leaves in an engine
(R116 to R126). -/
namespace Sys2Proof.Machine

/-! ## A core's engines -/

theorem Core.eng_of_length_le {c : Core} {k : Nat} (h : c.engs.length ≤ k) : c.eng k = Eng.init := by
  rw [Core.eng, List.getElem?_eq_none h, Option.getD_none]

theorem Core.eng_setEng_same {c : Core} {k : Nat} (h : k < c.engs.length) (x : Eng) : (c.setEng k x).eng k = x := by
  simp only [Core.eng, Core.setEng, List.getElem?_set_self h, Option.getD_some]

theorem Core.eng_setEng_other (c : Core) {k e : Nat} (h : e ≠ k) (x : Eng) : (c.setEng e x).eng k = c.eng k := by
  simp only [Core.eng, Core.setEng, List.getElem?_set_ne h]

/-- Each of the four engines carries out the step. -/
theorem Core.eng_each (c : Core) (f : Nat → Eng → Eng) {k : Nat} (h : k < 4) : (c.each f).eng k = f k (c.eng k) := by
  simp only [Core.each, Core.eng, List.getElem?_map, List.getElem?_range h, Option.map_some, Option.getD_some]

theorem Core.eng_each_next (c : Core) (f : Nat → Eng → Eng) {k : Nat} (h : k < 4) : (c.each f).next.eng k = f k (c.eng k) :=
  c.eng_each f h

/-! ## Words and scalars of an engine -/

@[simp] theorem Eng.scalar_setScalar_same (e : Eng) (k v : Nat) : (e.setScalar k v).scalar k = v := tget_tput_same _ _ _ _

theorem Eng.scalar_setScalar_other (e : Eng) {k j : Nat} (v : Nat) (h : j ≠ k) : (e.setScalar k v).scalar j = e.scalar j :=
  tget_tput_other _ _ _ _ h

/-- An operand without increment is the same in every run (R118). -/
theorem runCode_fixed {inc : Bool} (h : inc = false) (code j : Nat) : runCode code inc j = code := by
  rw [runCode, h]; rfl

/-- R120: a MAC of mode 1 leaves the sum of its products in its scalar. -/
theorem Eng.scalar_mac_sum (e : Eng) {w : Nat} (mode : bits w 27 2 = 1) (single : bit w 37 = false) (ha : bit w 34 = false)
    (hb : bit w 35 = false) (hd : bit w 36 = false) (j : Nat) : (e.mac w j).scalar (bits w 20 7 - 0x40)
      = tree512 (((e.operand (bits w 6 7)).zip (e.operand (bits w 13 7))).map fun q => q.1.mul q.2) := by
  simp only [Eng.mac, mode, runCode_fixed ha, runCode_fixed hb, runCode_fixed hd, Eng.scalar_setScalar_same, Eng.products, single]
  rfl

/-- R121: RMAX leaves the maximum. -/
theorem Eng.scalar_rmax_max (e : Eng) {w : Nat} (hs : bit w 32 = false) (hm : bit w 33 = false) (j : Nat) :
    (e.rmax w j).scalar (bits w 13 7 - 0x40) = fMax (e.one (bits w 13 7)) (e.one (bits w 6 7)) := by
  simp only [Eng.rmax, runCode_fixed hs, runCode_fixed hm, Eng.scalar_setScalar_same]

/-- R121: where the maximum changes, RMAX leaves the correction beside it. -/
theorem Eng.scalar_rmax_correction (e : Eng) {w : Nat} (hs : bit w 32 = false) (hm : bit w 33 = false) (hc : bit w 34 = false)
    (apart : bits w 20 7 - 0x40 ≠ bits w 13 7 - 0x40)
    (rises : fMax (e.one (bits w 13 7)) (e.one (bits w 6 7)) ≠ e.one (bits w 13 7)) (j : Nat) :
    (e.rmax w j).scalar (bits w 20 7 - 0x40)
      = fSub (e.one (bits w 13 7)) (fMax (e.one (bits w 13 7)) (e.one (bits w 6 7))) := by
  simp only [Eng.rmax, runCode_fixed hs, runCode_fixed hm, runCode_fixed hc, Eng.scalar_setScalar_other _ _ apart,
    Eng.scalar_setScalar_same, rises, decide_false, Bool.false_and, Bool.false_eq_true, if_false]

/-! ## The list of TOPN (R124) -/

theorem length_rankInsert (p : Nat × Nat) : ∀ l : List (Nat × Nat), (rankInsert p l).length = l.length + 1
  | [] => rfl
  | q :: r => by
    unfold rankInsert
    split
    · rfl
    · rw [List.length_cons, length_rankInsert p r, List.length_cons]

/-- A list that has no more than n pairs has no more than n after a pair entered. -/
theorem length_topPut_le {n : Nat} {l : List (Nat × Nat)} (h : l.length ≤ n) (p : Nat × Nat) : (topPut n l p).length ≤ n := by
  unfold topPut
  split
  · exact h
  · split
    next room => rw [length_rankInsert]; exact room
    next =>
      split
      next q last =>
        split
        · have pos : 0 < l.length := List.length_pos_of_ne_nil fun e => by simp [e] at last
          rw [length_rankInsert, List.length_dropLast]; omega
        · exact h
      next => exact h

theorem length_topPut_nil_le {n : Nat} (h : 0 < n) (p : Nat × Nat) : (topPut n [] p).length ≤ 1 := by
  unfold topPut
  split
  · exact Nat.zero_le _
  · rw [if_pos (by exact h), length_rankInsert]; exact Nat.le_refl _

theorem Eng.length_topn_le (e : Eng) {w : Nat} (h : e.top.length ≤ bits w 13 6 + 1) (loopIdx slice : Nat) :
    (e.topn w loopIdx slice).top.length ≤ bits w 13 6 + 1 := by
  refine length_topPut_le ?_ _
  split
  · exact Nat.zero_le _
  · exact h

theorem Eng.length_topn_cleared (e : Eng) {w : Nat} (h : bit w 21 = true) (loopIdx slice : Nat) :
    (e.topn w loopIdx slice).top.length ≤ 1 := by
  simp only [Eng.topn, h, if_true]
  exact length_topPut_nil_le (Nat.succ_pos _) _

/-! ## The cursors of an EMIT (R126) -/

/-- An engine whose cursor has passed the bytes of an EMIT. -/
def Eng.pastEmit (x : Eng) (w : Nat) : Eng :=
  { x with cur := tput 0 x.cur (bits w 29 3) (tget 0 x.cur (bits w 29 3) + emitBytes w) }

/-- A core of which one engine's cursor has passed the bytes of an EMIT. -/
def Core.pastEmit (w : Nat) (c : Core) (e : Nat) : Core := c.setEng e ((c.eng e).pastEmit w)

theorem Eng.cur_pastEmit (x : Eng) (w : Nat) :
    tget 0 (x.pastEmit w).cur (bits w 29 3) = tget 0 x.cur (bits w 29 3) + emitBytes w := tget_tput_same _ _ _ _

theorem Core.words_foldl_pastEmit (w : Nat) : ∀ (l : List Nat) (c : Core), (l.foldl (Core.pastEmit w) c).words = c.words
  | [], _ => rfl
  | e :: l, c => Core.words_foldl_pastEmit w l (c.pastEmit w e)

/-- The engines of the list that the core has, each moved once; the others as they were. -/
theorem Core.eng_foldl_pastEmit (w k : Nat) : ∀ (l : List Nat) (c : Core), l.Nodup →
    (l.foldl (Core.pastEmit w) c).eng k = if k ∈ l ∧ k < c.engs.length then (c.eng k).pastEmit w else c.eng k
  | [], _, _ => by simp
  | e :: l, c, nodup => by
    obtain ⟨fresh, nodup⟩ := List.nodup_cons.mp nodup
    have size : (c.pastEmit w e).engs.length = c.engs.length := List.length_set
    rw [List.foldl_cons, Core.eng_foldl_pastEmit w k l _ nodup, size]
    by_cases hk : k = e
    · subst hk
      rw [if_neg (fun h => fresh h.1)]
      split
      next h => exact Core.eng_setEng_same h.2 _
      next h =>
        have past : c.engs.length ≤ k := Nat.not_lt.mp fun lt => h ⟨List.mem_cons_self, lt⟩
        rw [Core.eng_of_length_le past, Core.eng_of_length_le (size ▸ past)]
    · have same : (c.pastEmit w e).eng k = c.eng k := c.eng_setEng_other (Ne.symm hk) _
      simp only [same, List.mem_cons, hk, false_or]

/-- After an EMIT of all four engines each cursor stands past its bytes; a core has no other engine. -/
theorem Core.cur_foldl_pastEmit (c : Core) (w : Nat) {k : Nat} (hk : k < 4) :
    tget 0 (((List.range 4).foldl (Core.pastEmit w) c).eng k).cur (bits w 29 3)
      = if k < c.engs.length then tget 0 (c.eng k).cur (bits w 29 3) + emitBytes w else 0 := by
  rw [Core.eng_foldl_pastEmit w k _ c List.nodup_range]
  by_cases h : k < c.engs.length
  · rw [if_pos ⟨List.mem_range.mpr hk, h⟩, if_pos h, Eng.cur_pastEmit]
  · rw [if_neg fun hh => h hh.2, if_neg h, Core.eng_of_length_le (Nat.not_lt.mp h)]
    rfl

end Sys2Proof.Machine
end

