-- ==== Sys2Proof/Proofs/RecipeSteps.lean ====
section
/-! The steps of a recipe as commands (R119 to R128), and the statement about them. -/
namespace Sys2Proof.Machine

section
variable {s : State} {cl core op other : Nat} {c : Core} {w : Nat}

/-! ## The next step of a core (R127, R128) -/

theorem State.atStep_of_next (h : s.nextStep cl core op c w) (f : Core → Nat → State) : s.atStep cl core op f = f c w := by
  obtain ⟨at', live, is, x, hx, rfl⟩ := h
  simp only [State.atStep, at', hx, live, is, Bool.not_false, decide_true, Bool.and_self, if_true]

theorem State.atStep_of_other (h : s.nextStep cl core other c w) (ne : other ≠ op) (f : Core → Nat → State) :
    s.atStep cl core op f = s := by
  obtain ⟨at', live, is, x, hx, rfl⟩ := h
  simp only [State.atStep, at', hx, is, ne, decide_false, Bool.and_false, Bool.false_eq_true, if_false]

theorem onUnit_coreOk (hcl : cl < 8) (hcore : core < 16) (t : State) : onUnit (coreOk cl core) t = .next t :=
  onUnit_of (by simp [hcl, hcore]) t

/-- A command that carries out a step of one opcode does so when that is the core's next step. -/
theorem State.coreStep_of_next (hcl : cl < 8) (hcore : core < 16) (h : s.nextStep cl core op c w) (f : Core → Nat → State) :
    onUnit (coreOk cl core) (s.atStep cl core op f) = .next (f c w) := by
  rw [State.atStep_of_next h, onUnit_coreOk hcl hcore]

/-- It does nothing when the core's next step is another's. -/
theorem State.coreStep_of_other (hcl : cl < 8) (hcore : core < 16) (h : s.nextStep cl core other c w) (ne : other ≠ op)
    (f : Core → Nat → State) : onUnit (coreOk cl core) (s.atStep cl core op f) = .next s := by
  rw [State.atStep_of_other h ne, onUnit_coreOk hcl hcore]

/-! ## A core in the table -/

@[simp] theorem State.tfind_setCore (s : State) (cl core : Nat) (c : Core) :
    tfind (s.setCore cl core c).cores (coreKey cl core) = some c := tfind_tset_same _ _ _

theorem State.setCore_only (s : State) (cl core : Nat) (c : Core) : s.only (s.setCore cl core c) [.cores] :=
  State.Follows.only (State.setCore_follows cl core c (.refl _ s) rfl)

/-- A core set and an event counted. -/
theorem State.setCore_ev_only (s : State) (cl core : Nat) (c : Core) (code inst n : Nat) :
    s.only ((s.setCore cl core c).ev code inst n) [.regs, .cores] :=
  State.Follows.only (State.ev_follows code inst n (State.setCore_follows cl core c (.refl _ s) rfl) rfl)

theorem State.tfind_setCore_ev (s : State) (cl core : Nat) (c : Core) (code inst n : Nat) :
    tfind ((s.setCore cl core c).ev code inst n).cores (coreKey cl core) = some c := by
  rw [State.ev_cores, State.tfind_setCore]

/-! ## LOOP and ENDL (R127) -/

theorem Core.loop_of_zero (h : loopCount c.prm w = 0) :
    c.loop w = { c with pc := skipLoop 0 (c.pc + 1) (c.steps.drop (c.pc + 1)), rep := 0 } := if_pos h

theorem Core.loop_of_pos (h : loopCount c.prm w ≠ 0) :
    c.loop w = { c.next with loops := ⟨c.pc, loopCount c.prm w - 1, 0⟩ :: c.loops } := if_neg h

theorem Core.endl_of_last {l : LoopFrame} {r : List LoopFrame} (hl : c.loops = l :: r) (h : l.left = 0) :
    c.endl = { c.next with loops := r } := by
  simp only [Core.endl, hl, h, if_true]

theorem Core.endl_of_more {l : LoopFrame} {r : List LoopFrame} (hl : c.loops = l :: r) (h : l.left ≠ 0) :
    c.endl = { c with pc := l.start + 1, rep := 0, loops := { l with left := l.left - 1, idx := l.idx + 1 } :: r } := by
  simp only [Core.endl, hl, h, if_false]

/-! ## LOAD (R119, R135) -/

/-- The last run of a LOAD whose elements have come. -/
theorem State.loadRuns_last {d : Core} (h : c.loadRun w = some (.ok d)) : s.loadRuns cl core w 1 c = s.setCore cl core d.next := by
  simp only [State.loadRuns, h]
  rfl

theorem State.loadRuns_waits (h : c.loadRun w = none) (n : Nat) :
    s.loadRuns cl core w (n + 1) c = (s.setCore cl core c).ev 0x401 cl 1 := by
  simp only [State.loadRuns, h]

theorem State.loadRuns_fails {st : PStatus} {a : Nat} (h : c.loadRun w = some (.error (st, a))) (n : Nat) :
    s.loadRuns cl core w (n + 1) c = s.loadFail cl core c st a := by
  simp only [State.loadRuns, h]

/-- Data that did not come back good raises flags of CN_ERR and ends the core's packet with what it has counted. -/
theorem State.loadFail_ends {p : Packet} (hp : tfind s.packets c.pkt = some p) (cl core : Nat) (st : PStatus) (a : Nat) :
    ∃ u detail, s.Follows (fieldMask [.regs]) u ∧ s.loadFail cl core c st a = u.fixPacket p (ofPStatus st) p.count 0 detail := by
  unfold State.loadFail
  extract_lets firsts u
  have flags : s.Follows (fieldMask [.regs]) u :=
    .ite (fun _ => State.raise_follows _ _ _ _ (.refl _ s) rfl) fun _ =>
      .ite (fun _ => State.raise_follows _ _ _ _ (.refl _ s) rfl) fun _ => .refl _ s
  have found : u.packet c.pkt = some p := (congrArg (tfind · c.pkt) (flags.kept .packets rfl)).trans hp
  rw [found]
  exact ⟨u, _, flags, rfl⟩

/-- A LOAD that met such data ends its packet and no other, and stores nothing. -/
theorem State.loadFail_effect {p : Packet} (hp : tfind s.packets c.pkt = some p) (hid : p.id = c.pkt) (cl core : Nat) (st : PStatus)
    (a : Nat) : ∃ x, tfind (s.loadFail cl core c st a).packets c.pkt = some x ∧ x.st = .fixed ∧ x.status = ofPStatus st
      ∧ s.othersKept (s.loadFail cl core c st a) c.pkt ∧ (s.loadFail cl core c st a).mem = s.mem := by
  obtain ⟨u, detail, flags, eq⟩ := State.loadFail_ends hp cl core st a
  have packets : u.packets = s.packets := flags.kept .packets rfl
  have mem : u.mem = s.mem := flags.kept .mem rfl
  refine ⟨p.ended (ofPStatus st) p.count 0 detail, ?_, rfl, rfl, fun j hj => ?_, ?_⟩
  · rw [eq, State.fixPacket_packets, hid, tfind_tset_same]
  · rw [eq, State.fixPacket_packets, hid, tfind_tset_other _ _ hj, packets]
  · rw [eq]
    exact (u.fixPacket_kept p _ _ _ _ (f := .mem) (by decide)).trans mem

/-! ## EMIT (R126) -/

/-- The engines' EMITs in turn, up to the first that fails. -/
def State.emitNext (cl core w : Nat) (x : State × Core × PStatus × Nat) (e : Nat) : State × Core × PStatus × Nat :=
  if x.2.2.1 = .ok then x.1.emitEng cl core w x.2.1 e else x

theorem State.emitStep_of_ok {u : State} {d : Core} {a : Nat} (h : s.nextStep cl core 0x11 c w)
    (all : (List.range 4).foldl (State.emitNext cl core w) (s, c, .ok, 0) = (u, d, .ok, a)) :
    s.emitStep cl core = u.setCore cl core d.next := by
  unfold State.emitNext at all
  rw [State.emitStep, State.atStep_of_next h]
  simp only [all, if_true]

theorem State.emitNext_core (x : State × Core × PStatus × Nat) (e : Nat) (h : (State.emitNext cl core w x e).2.2.1 = .ok) :
    x.2.2.1 = .ok ∧ (State.emitNext cl core w x e).2.1 = x.2.1.pastEmit w e := by
  unfold State.emitNext at h ⊢
  by_cases ok : x.2.2.1 = .ok
  · rw [if_pos ok]
    exact ⟨ok, rfl⟩
  · rw [if_neg ok] at h
    exact absurd h ok

/-- Where no engine's EMIT fails, every engine's cursor has moved. -/
theorem State.foldl_emitNext_core : ∀ (l : List Nat) (x : State × Core × PStatus × Nat),
    (l.foldl (State.emitNext cl core w) x).2.2.1 = .ok →
    x.2.2.1 = .ok ∧ (l.foldl (State.emitNext cl core w) x).2.1 = l.foldl (Core.pastEmit w) x.2.1
  | [], _, h => ⟨h, rfl⟩
  | e :: l, x, h => by
    obtain ⟨ok, rest⟩ := State.foldl_emitNext_core l _ h
    obtain ⟨before, moved⟩ := State.emitNext_core x e ok
    exact ⟨before, rest.trans (by rw [moved, List.foldl_cons])⟩

theorem State.foldl_emitNext_packets (l : List Nat) (x : State × Core × PStatus × Nat) :
    (l.foldl (State.emitNext cl core w) x).1.packets = x.1.packets := by
  have follows : x.1.Follows 0x280002190c53 (l.foldl (State.emitNext cl core w) x).1 := by
    refine State.Follows.foldlFst (fun t e h => ?_) l (.refl _ x.1)
    unfold State.emitNext
    split
    · exact State.emitEng_follows _ _ _ _ _ h rfl
    · exact h
  exact follows.kept .packets rfl

/-- An EMIT of all four engines: each cursor stands past its bytes, and no packet changes. -/
theorem State.emitStep_effect {u : State} {d : Core} {a : Nat} (h : s.nextStep cl core 0x11 c w)
    (all : (List.range 4).foldl (State.emitNext cl core w) (s, c, .ok, 0) = (u, d, .ok, a)) :
    s.emitStep cl core = u.setCore cl core d.next ∧ u.packets = s.packets ∧ d.words = c.words
      ∧ ∀ k < 4, tget 0 (d.eng k).cur (bits w 29 3)
          = if k < c.engs.length then tget 0 (c.eng k).cur (bits w 29 3) + emitBytes w else 0 := by
  have packets := State.foldl_emitNext_packets (cl := cl) (core := core) (w := w) (List.range 4) (s, c, .ok, 0)
  have cores := State.foldl_emitNext_core (cl := cl) (core := core) (w := w) (List.range 4) (s, c, .ok, 0) (by rw [all])
  rw [all] at packets cores
  obtain ⟨-, moved⟩ := cores
  dsimp only at moved
  subst moved
  exact ⟨State.emitStep_of_ok h all, packets, Core.words_foldl_pastEmit w _ c, fun k hk => Core.cur_foldl_pastEmit c w hk⟩

/-! ## Steps of other opcodes -/

/-- A command for the steps of one opcode does nothing while the core's next step has another. -/
theorem exec_coreStep_of_other (hcl : cl < 8) (hcore : core < 16) (h : s.nextStep cl core other c w) {x : Instr}
    (hx : (op, x) ∈ [(0x00, Instr.endStep cl core), (0x01, .loopStep cl core), (0x02, .endlStep cl core), (0x04, .loadStep cl core),
      (0x08, .macStep cl core), (0x09, .rmaxStep cl core), (0x0A, .expStep cl core), (0x0B, .scaleStep cl core),
      (0x0C, .topnStep cl core), (0x10, .storeStep cl core), (0x11, .emitStep cl core)])
    (ne : other ≠ op) : exec x s = .next s := by
  simp only [List.mem_cons, Prod.mk.injEq, List.not_mem_nil, or_false] at hx
  rcases hx with ⟨rfl, rfl⟩ | ⟨rfl, rfl⟩ | ⟨rfl, rfl⟩ | ⟨rfl, rfl⟩ | ⟨rfl, rfl⟩ | ⟨rfl, rfl⟩ | ⟨rfl, rfl⟩ | ⟨rfl, rfl⟩ | ⟨rfl, rfl⟩
    | ⟨rfl, rfl⟩ | ⟨rfl, rfl⟩ <;> exact State.coreStep_of_other hcl hcore h ne _

end

/-- Settles O60, step by step: what each does on the four engines, and that a step of another opcode does nothing. -/
theorem stepsAreCarriedOut : Obligations.StepsAreCarriedOut := by
  intro s cl core c w hcl hcore
  have carried {op : Nat} (h : s.nextStep cl core op c w) (f : Core → Nat → State) :
      onUnit (coreOk cl core) (s.atStep cl core op f) = .next (f c w) := State.coreStep_of_next hcl hcore h f
  refine ⟨fun h => carried h _, fun h => ⟨fun zero => ?loopSkipped, fun pos => ?loopEntered⟩,
    fun h l r hl => ⟨fun last => ?loopLeft, fun more => ?loopAgain⟩, fun h rep => ?load,
    fun h => ⟨_, carried h _, State.setCore_ev_only .., State.tfind_setCore_ev .., ?macSum⟩, fun h => ⟨carried h _, ?rmaxScalars⟩,
    fun h => ⟨_, carried h _, State.setCore_ev_only .., State.tfind_setCore_ev ..⟩, fun h => carried h _,
    fun h => ⟨_, _, carried h _, State.tfind_setCore .., rfl, State.setCore_only .., fun k hk => ?topnList⟩,
    fun h => carried h _, fun h u d a all => ?emit, fun op x hx other ne h => exec_coreStep_of_other hcl hcore h hx ne⟩
  case loopSkipped => exact (carried h _).trans (by rw [Core.loop_of_zero zero])
  case loopEntered => exact (carried h _).trans (by rw [Core.loop_of_pos pos]; rfl)
  case loopLeft => exact (carried h _).trans (by rw [Core.endl_of_last hl last]; rfl)
  case loopAgain => exact (carried h _).trans (by rw [Core.endl_of_more hl more])
  case load =>
    have one : bits w 21 5 + 1 - c.rep = 1 := by omega
    have runs : exec (.loadStep cl core) s = .next (s.loadRuns cl core w 1 c) := (carried h _).trans (by rw [one])
    refine ⟨fun d come => ?_, fun missing => ?_, fun st a p bad hp hid => ?_⟩
    · rw [runs, State.loadRuns_last come]; rfl
    · rw [State.loadRuns_waits missing] at runs
      exact ⟨_, runs, State.tfind_setCore_ev .., State.setCore_ev_only ..⟩
    · rw [State.loadRuns_fails bad] at runs
      obtain ⟨x, effect⟩ := State.loadFail_effect hp hid cl core st a
      exact ⟨_, x, runs, effect⟩
  case macSum =>
    intro k hk once mode single ha hb hd _ x hx
    obtain rfl := Option.some.inj ((State.tfind_setCore_ev ..).symm.trans hx)
    rw [Core.eng_each_next c _ hk, once]
    exact Eng.scalar_mac_sum _ mode single ha hb hd 0
  case rmaxScalars =>
    intro e hs hm hc ne lo _ lo'
    exact ⟨Eng.scalar_rmax_max e hs hm 0, fun rises => Eng.scalar_rmax_correction e hs hm hc (by omega) rises 0⟩
  case topnList =>
    rw [Core.eng_each_next c _ hk]
    exact ⟨rfl, fun fits => Eng.length_topn_le _ fits _ _, fun cleared => Eng.length_topn_cleared _ cleared _ _, rfl⟩
  case emit =>
    obtain ⟨eq, packets, words, cursors⟩ := State.emitStep_effect h all
    have emits : exec (.emitStep cl core) s = .next (s.emitStep cl core) := onUnit_coreOk hcl hcore _
    exact ⟨_, emits.trans (congrArg _ eq), State.tfind_setCore .., rfl, packets, words, cursors⟩

end Sys2Proof.Machine
end

