-- ==== Sys2Proof/Proofs/RecipesRefuted.lean ====
section
/-! A gather that stands behind a RECIPE_RUN under the same number, and the refutation of the statement about recipes. -/
namespace Sys2Proof.Machine

/-! ## Two packets under one number

The statement has the started RECIPE_RUN stand in the in-flight table as it was taken. A start looks once more at every packet that no
cluster can serve (R537), the gathers among them: with cluster 0 in reset and every stack out of service none is left for their rows
(R218), and a running gather ends. The statement asks that each entry of the table holds a packet of the entry's number, and that the
runs are listed once each; it does not ask it of the packets. A gather listed under the number of the RECIPE_RUN, behind it, ends in
its place. -/

/-- A RECIPE_RUN of the recipe in slot 32, generation 0, for no iteration on cluster 1. -/
def runOfSlot32 : Packet := packetOf 5 0 0 [gOfWords [0x41, 0, 0, 0, 32, 2 ^ 32 * 2]]

/-- A gather that runs. -/
def runningGather : Packet := { packetOf 5 0 0 [] with opcode := 0x33, st := .running }

/-- Cluster 0 is in reset, the other clusters take work, and the stacks are as reset leaves them. -/
def gatherBehind : State :=
  { State.reset with
    clReset := 1
    recipes := [(32, ⟨0, 0, [], true, false⟩)]
    packets := [(5, runOfSlot32), (5, runningGather)] }

/-- The RECIPE_RUN once it is taken, and the state in which it starts. -/
def startedRun : Packet := { runOfSlot32 with st := .running }
def gatherBehindStarted : State := (gatherBehind.setPacket startedRun).ev 0x501 0 1

theorem gatherBehind_takes_run : gatherBehind.takeFast 5 0x41 = some (gatherBehindStarted, startedRun) := by decide +kernel

theorem gatherBehind_handle_valid :
    gatherBehindStarted.useHandle startedRun.tenant (startedRun.word 32) = (32, none) := by decide +kernel

theorem gatherBehind_run_passes_checks : gatherBehindStarted.runRefused startedRun.tenant (startedRun.field 40 4) startedRun.prms
    ((gatherBehindStarted.recipe 32).steps.map (·.toNat)) = none := by decide +kernel

/-- Opcode and state of the packet that the table finds under number 5 after the RECIPE_RUN. -/
def opcodeAfterRun (s : State) : Option (Nat × PkSt) :=
  match exec (.recipeRun 5) s with
  | .next t => (tfind t.packets 5).map fun p : Packet => (p.opcode, p.st)
  | _ => none

theorem opcodeAfterRun_of_exec {s t : State} (h : exec (.recipeRun 5) s = .next t) :
    opcodeAfterRun s = (tfind t.packets 5).map fun p : Packet => (p.opcode, p.st) := by
  simp only [opcodeAfterRun, h]

theorem gather_found_after_run : opcodeAfterRun gatherBehind = some (0x33, .fixed) := by decide +kernel

/-- Refutes O59: where a running gather is listed behind a RECIPE_RUN under its number, which no premise excludes, the start of the
RECIPE_RUN ends the gather in its place (R218, R537), and the started packet is not found in the table. -/
theorem not_recipesRun : ¬ Obligations.RecipesRun := by
  rintro ⟨h, -⟩
  obtain ⟨-, -, run, -⟩ := h gatherBehind 5 gatherBehindStarted startedRun rfl
  obtain ⟨t, ht, found, -⟩ := ((run gatherBehind_takes_run).2 32 gatherBehind_handle_valid).2 gatherBehind_run_passes_checks
    ⟨1, by decide, by decide +kernel, by decide +kernel⟩ rfl (by decide +kernel)
  have gather := (opcodeAfterRun_of_exec ht).symm.trans gather_found_after_run
  rw [found] at gather
  exact absurd gather (by decide +kernel)

end Sys2Proof.Machine
end

