-- ==== Sys2Proof/Proofs/AttentionEnds.lean ====
section
/-! Attention packets from their start to their end: what a start, a run that is set up and an end do to the in-flight table and to the
runs (R83, R166, R170, R179). -/
namespace Sys2Proof.Machine

/-! ## The table beside one packet -/

section
variable {s t u : State} {id op : Nat} {p : Packet}

theorem State.othersKept.refl (s : State) (id : Nat) : s.othersKept s id := fun _ _ => rfl

theorem State.othersKept.of_packets (h : s.othersKept t id) (e : u.packets = t.packets) : s.othersKept u id := by
  intro j hj
  rw [e]
  exact h j hj

theorem State.othersKept.of_tset {x : Packet} (h : s.othersKept t id) (e : u.packets = tset t.packets id x) : s.othersKept u id := by
  intro j hj
  rw [e, tfind_tset_other _ _ hj]
  exact h j hj

/-- An access to a granule by a unit of the device touches no packet. -/
theorem State.othersKept.of_access (h : s.othersKept t id) (k : t.Follows (fieldMask Field.access) u) : s.othersKept u id :=
  h.of_packets (k.kept .packets rfl)

/-! ## The start (R83) -/

theorem State.takeFast_packets (h : s.takeFast id op = some (t, p)) : t.packets = tset s.packets p.id p := by
  unfold State.takeFast at h
  split at h
  · cases h
  · split at h <;> cases h
    exact State.ev_packets _ _ _ _

theorem State.takeFast_of_takeAttn (h : s.takeAttn id op = some (t, p)) : s.takeFast id op = some (t, p) := by
  unfold State.takeAttn at h
  split at h
  · cases h
  · split at h
    · cases h
    · exact h

theorem State.takeAttn_othersKept (h : s.takeAttn id op = some (t, p)) : s.othersKept t p.id :=
  (State.othersKept.refl s _).of_tset (State.takeFast_packets (State.takeFast_of_takeAttn h))

theorem State.takeAttn_mem (h : s.takeAttn id op = some (t, p)) : t.mem = s.mem :=
  (State.takeAttn_follows (μ := fieldMask [.regs, .packets]) (.refl _ s) h rfl).kept .mem rfl

/-! ## The end (R92, R179) -/

/-- The packet that ends is the only one that changes, and no stored sector does. -/
theorem State.fixPacket_effect (h : s.othersKept t p.id) (k : KStatus) (count aux detail : Nat) :
    tfind (t.fixPacket p k count aux detail).packets p.id = some (p.ended k count aux detail)
      ∧ s.othersKept (t.fixPacket p k count aux detail) p.id ∧ (t.fixPacket p k count aux detail).mem = t.mem := by
  have packets := t.fixPacket_packets p k count aux detail
  exact ⟨by rw [packets, tfind_tset_same], h.of_tset packets, t.fixPacket_kept p k count aux detail (f := .mem) (by decide)⟩

/-- A packet that a start check refuses ends with the check's status. -/
theorem State.refused_effect {k : KStatus} (h : s.takeAttn id op = some (t, p)) :
    tfind (t.fixPacket p k).packets p.id = some (p.ended k 0 0 0) ∧ (t.fixPacket p k).mem = s.mem := by
  obtain ⟨found, -, mem⟩ := State.fixPacket_effect (State.takeAttn_othersKept h) k 0 0 0
  exact ⟨found, mem.trans (State.takeAttn_mem h)⟩

/-- An attention packet that ends gives up its run. -/
theorem State.dropAttn_fixPacket_effect (h : s.othersKept u p.id) (k : KStatus) (count aux detail : Nat) :
    tfind ((u.dropAttn p.id).fixPacket p k count aux detail).packets p.id = some (p.ended k count aux detail)
      ∧ tfind ((u.dropAttn p.id).fixPacket p k count aux detail).attns p.id = none
      ∧ s.othersKept ((u.dropAttn p.id).fixPacket p k count aux detail) p.id := by
  obtain ⟨found, others, -⟩ := State.fixPacket_effect (t := u.dropAttn p.id) (h.of_packets rfl) k count aux detail
  have attns : _ = tdel u.attns p.id := (u.dropAttn p.id).fixPacket_kept p k count aux detail (f := .attns) (by decide)
  exact ⟨found, by rw [attns, tfind_tdel_same], others⟩

end

/-! ## The run of a packet -/

section
variable {s u : State} {p : Packet} {r : AttnRun} {dv : Nat}

/-- The run with the blocks of its pages to be dealt. -/
def AttnRun.withBlocks (r : AttnRun) (pg : Pages) : AttnRun :=
  { r with queue := pg.blocks, pools := r.pools ||| pg.pools, skipped := r.skipped + pg.skipped }

theorem State.attnStart_of_blocks {pg : Pages} (down : pg.down = false) (bad : pg.bad = none) (nonempty : pg.blocks ≠ []) :
    u.attnStart p r pg dv = (u.setAttn p.id (r.withBlocks pg)).setPacket { p with count := r.count } := by
  simp [State.attnStart, down, bad, nonempty, AttnRun.withBlocks]

/-- A packet with blocks waits for them under its run. -/
theorem State.attnStart_effect {pg : Pages} (h : s.othersKept u p.id) (down : pg.down = false) (bad : pg.bad = none)
    (nonempty : pg.blocks ≠ []) : tfind (u.attnStart p r pg dv).packets p.id = some { p with count := r.count }
      ∧ tfind (u.attnStart p r pg dv).attns p.id = some (r.withBlocks pg) ∧ s.othersKept (u.attnStart p r pg dv) p.id := by
  rw [State.attnStart_of_blocks down bad nonempty]
  exact ⟨tfind_tset_same _ _ _, tfind_tset_same _ _ _, State.othersKept.of_tset (t := u) h rfl⟩

/-- Whatever the writes of its tuples answer, the packet ends and its run is dropped (R170, R174, R179). -/
theorem State.attnFinish_ends (u : State) (p : Packet) (r : AttnRun) (dv : Nat) : ∃ v k count aux detail,
    u.Follows (fieldMask Field.access) v ∧ u.attnFinish p r dv = (v.dropAttn p.id).fixPacket p k count aux detail := by
  have counted : ∀ v : State, u.Follows (fieldMask Field.access) v → u.Follows (fieldMask Field.access)
      (r.cores.foldl (fun (x : State) e => (x.fadd F.cnStat_iters [e.1 / 16] 1).ev 0x405 (e.1 / 16) 1) v) := fun v hv =>
    State.Follows.foldl (fun x e hx => State.ev_follows _ _ _ (State.fadd_follows _ _ _ hx (by rfl)) (by rfl)) r.cores hv
  unfold State.attnFinish
  extract_lets n done
  split
  next u1 st addr tuples =>
    have written : u.Follows (fieldMask Field.access) u1 := by
      refine .fst tuples (.foldlFst (fun x e hx => ?_) _ (.refl _ u))
      split
      · exact hx
      · exact State.writeTuples_follows _ _ _ _ _ _ hx rfl
    split
    · exact ⟨u1, _, _, _, _, written, rfl⟩
    · split
      · exact ⟨_, _, _, _, _, counted u1 written, rfl⟩
      · split
        next u2 w off list =>
          have listed : u.Follows (fieldMask Field.access) u2 := .fst list (State.writeBytes_follows _ _ _ _ written rfl)
          split
          · exact ⟨u2, _, _, _, _, listed, rfl⟩
          · exact ⟨_, _, _, _, _, counted u2 listed, rfl⟩

/-- A failed read of a record ends the packet with the read's status (R179); the address given is a free value. -/
theorem State.dropAttn_poolFail_of_data (u : State) (p : Packet) (st : PStatus) (count : Nat) : ∃ detail,
    (u.dropAttn p.id).poolFail p st false count = (u.drawNat.1.dropAttn p.id).fixPacket p (ofPStatus st) count 0 detail := ⟨_, rfl⟩

end

end Sys2Proof.Machine
end

