-- ==== Sys2Proof/Proofs/AttentionRuns.lean ====
section
/-! ATTN_PARTIAL and its blocks, ATTN_SELECT and ATTN_MERGE (R164 to R176), one equation per case, and the statement about them. -/
namespace Sys2Proof.Machine

/-! ## Commands and reads -/

section
variable {s t : State} {id : Nat}

theorem exec_attnPartial (id : Nat) (s : State) : exec (.attnPartial id) s = .next (s.runPartial id) := rfl
theorem exec_attnSelect (id : Nat) (s : State) : exec (.attnSelect id) s = .next (s.runSelect id) := rfl
theorem exec_attnMerge (id : Nat) (order : List Nat) (s : State) : exec (.attnMerge id order) s = .next (s.runMerge id order) := rfl
theorem exec_engineBlockDeal {cl e : Nat} (hcl : cl < 8) (he : e < 64) (id : Nat) (s : State) :
    exec (.engineBlockDeal id cl e) s = .next (s.dealBlock id cl e) :=
  onUnit_of (by simp [hcl, he]) _

theorem State.readBytes_accesses {addr len : Nat} {g : Got} (e : s.readBytes addr len = (t, g)) :
    s.Follows (fieldMask Field.access) t := .fst e (State.readBytes_follows addr len (.refl _ s) rfl)

theorem State.writeBytes_accesses {addr len data cls : Nat} {w : PStatus × Nat} (e : s.writeBytes addr len data cls = (t, w)) :
    s.Follows (fieldMask Field.access) t := .fst e (State.writeBytes_follows addr len data cls (.refl _ s) rfl)

theorem State.collect_accesses {st : Stream} {layer : Nat} {spans : List (Nat × Nat × Nat)} {pg : Pages}
    (e : s.collect st layer spans = (t, pg)) : s.Follows (fieldMask Field.access) t :=
  .fst e (State.collect_follows st layer spans (.refl _ s) rfl)

end

/-! ## ATTN_PARTIAL (R164, R165, R169) -/

section
variable {s s1 : State} {id : Nat} {p : Packet} {st : Stream}

/-- The start checks of an ATTN_PARTIAL. -/
def State.partialChecks (s : State) (p : Packet) (st : Stream) : List (Option KStatus) :=
  let a := p.partialPrm
  let isList := bit (p.word 32) 14
  [if a.fits st && (isList || decide (bits (p.word 64) 32 24 ≤ st.bound a.layer)) then none else some .malformed,
    s.memRegion p.tenant 4096 (p.word 48) (a.heads * st.dk * 2),
    s.memRegion p.tenant 4096 (p.word 56) (8 * a.ppc * a.heads * tupleBytes st.dv),
    if isList then s.memRegion p.tenant 4096 (p.word 64) 64 else none]

/-- The run of an ATTN_PARTIAL with its queries, before its pages are looked up. -/
def Packet.partialRun (p : Packet) (st : Stream) (raw : Nat) : AttnRun :=
  let a := p.partialPrm
  ⟨p.target, a.layer, a.heads, a.kv0, a.g, bits (p.word 40) 0 32, a.ppc, p.word 56, qWords (a.heads * st.dk) raw, [], [], [], 0, 0, 0,
    st.st = .degraded, none⟩

/-- The entries of a selection list of n pages, from the bytes behind its header (R173). -/
def listedPages (n raw : Nat) : List Nat := (List.range n).map fun i => bits raw (32 * i) 32

/-- Listed pages with all of their tokens, for a listed page lies wholly below the bound (R169). -/
def wholePages (tpp : Nat) (pages : List Nat) : List (Nat × Nat × Nat) := pages.map fun x => (x, x * tpp, (x + 1) * tpp)

theorem State.partialFrom_of_read {v s2 s3 : State} {q : Got} {pg : Pages} {spans : List (Nat × Nat × Nat)}
    (hq : v.readBytes (p.word 48) (p.partialPrm.heads * st.dk * 2) = (s2, q)) (ok : q.st = .ok)
    (hc : s2.collect st p.partialPrm.layer spans = (s3, pg)) :
    v.partialFrom p st p.partialPrm spans = s3.attnStart p (p.partialRun st q.data) pg st.dv := by
  simp only [State.partialFrom, hq, ok, hc, Packet.partialRun, ne_eq, not_true_eq_false, if_false]

/-- Once its queries are read and its pages looked up, the packet waits for its blocks; it counts no token yet. -/
theorem State.partialFrom_effect {v s2 s3 : State} {q : Got} {pg : Pages} {spans : List (Nat × Nat × Nat)} (hv : s.othersKept v p.id)
    (hq : v.readBytes (p.word 48) (p.partialPrm.heads * st.dk * 2) = (s2, q)) (ok : q.st = .ok)
    (hc : s2.collect st p.partialPrm.layer spans = (s3, pg)) (down : pg.down = false) (bad : pg.bad = none) (nonempty : pg.blocks ≠ []) :
    let t := v.partialFrom p st p.partialPrm spans
    tfind t.packets p.id = some { p with count := 0 } ∧ s.othersKept t p.id
      ∧ tfind t.attns p.id = some ((p.partialRun st q.data).withBlocks pg) := by
  intro t
  have others := (hv.of_access (State.readBytes_accesses hq)).of_access (State.collect_accesses hc)
  obtain ⟨found, run, kept⟩ := State.attnStart_effect (r := p.partialRun st q.data) (dv := st.dv) others down bad nonempty
  rw [← State.partialFrom_of_read hq ok hc] at found run kept
  exact ⟨found, kept, run⟩

variable (ht : s.takeAttn id 0x20 = some (s1, p)) (hs : s1.stream p.target = some st) (hr : s1.streamRefused p = none)
include ht hs hr

theorem State.runPartial_of_refused {k : KStatus} (hk : firstFail (s1.partialChecks p st) = some k) :
    s.runPartial id = s1.fixPacket p k := by
  unfold State.partialChecks at hk
  simp only [State.runPartial, ht, hs, hr, hk]

theorem State.runPartial_of_range (hc : firstFail (s1.partialChecks p st) = none) (range : bit (p.word 32) 14 = false) :
    s.runPartial id = s1.partialFrom p st p.partialPrm (spansOf st.tpp (bits (p.word 64) 0 23) (bits (p.word 64) 32 24)) := by
  unfold State.partialChecks at hc
  simp only [State.runPartial, ht, hs, hr, hc]
  simp [range]

theorem State.runPartial_of_list (hc : firstFail (s1.partialChecks p st) = none) (list : bit (p.word 32) 14 = true) {u v : State}
    {h l : Got} (hh : s1.readBytes (p.word 64) 64 = (u, h)) (hok : h.st = .ok)
    (held : u.memRegion p.tenant 4096 (p.word 64) (64 + 4 * bits h.data 0 16) = none)
    (hl : u.readBytes (p.word 64 + 64) (4 * bits h.data 0 16) = (v, l)) (lok : l.st = .ok)
    (valid : listOk st (st.bound p.partialPrm.layer) (listedPages (bits h.data 0 16) l.data) = true) :
    s.runPartial id = v.partialFrom p st p.partialPrm (wholePages st.tpp (listedPages (bits h.data 0 16) l.data)) := by
  unfold State.partialChecks at hc
  unfold listedPages at valid
  simp only [State.runPartial, ht, hs, hr, hc]
  simp [list, hh, hok, held, hl, lok, valid, listedPages, wholePages]

end

/-! ## A block on an engine (R166, R167, R170) -/

section
variable {s s1 : State} {cl e core : Nat} {p : Packet} {st : Stream} {r0 r : AttnRun} {b : Block} {g : Got}

/-- The run after engine e of a cluster has folded a block on its core. -/
def AttnRun.withFolded (r : AttnRun) (st : Stream) (cl e core : Nat) (b : Block) (raw : Nat) : AttnRun :=
  { r with
    queue := r.queue.erase b
    accs := tset r.accs (cl * 64 + e) (r.foldBlock st (tget ⟨[], []⟩ r.accs (cl * 64 + e)) b raw)
    cores := tset r.cores (coreKey cl (e / 4)) core
    tokens := r.tokens + b.n }

/-- The tokens of a block are counted, and its packet shows what its run counts. -/
def State.countBlock (s : State) (p : Packet) (r : AttnRun) (n : Nat) : State := (s.ev 0x601 0 n).setPacket { p with count := r.count }

theorem State.tfind_countBlock (s : State) (p : Packet) (r : AttnRun) (n : Nat) :
    tfind (s.countBlock p r n).packets p.id = some { p with count := r.count } := tfind_tset_same _ _ _

theorem State.countBlock_mem (s : State) (p : Packet) (r : AttnRun) (n : Nat) : (s.countBlock p r n).mem = s.mem :=
  s.ev_kept 0x601 0 n (f := .mem) (by decide)

theorem State.readBlock_accesses {n : Nat} (h : s.readBlock st b n = (s1, g)) : s.Follows (fieldMask Field.access) s1 :=
  .fst h (State.readBlock_follows st b n (.refl _ s) rfl)

theorem State.countBlock_othersKept {n : Nat} (h : s.readBlock st b n = (s1, g)) (r : AttnRun) (m : Nat) :
    s.othersKept (s1.countBlock p r m) p.id :=
  (((State.othersKept.refl s _).of_access (State.readBlock_accesses h)).of_packets (s1.ev_packets 0x601 0 m)).of_tset rfl

variable (hp : tfind s.packets p.id = some p) (run : p.st = .running) (ha : tfind s.attns p.id = some r0) (hr : s.redeal r0 = some r)
  (hs : tfind s.streams r0.stream = some st) (he : e < r.engines cl) (up : s.clusterUp cl = true)
  (hb : (r.queue.find? fun x => x.cl = cl) = some b) (hcore : s.engineCore r cl e = some core)
  (hread : s.readBlock st b (r.passes st) = (s1, g))
include hp run ha hr hs he up hb hcore hread

theorem State.dealBlock_of_read_failed (bad : g.st ≠ .ok) : s.dealBlock p.id cl e =
    (((s1.spoilList g.st r).builtLoad g.st cl (some core)).dropAttn p.id).poolFail p g.st false r.count := by
  simp [State.dealBlock, State.packet, State.attn, State.stream, hp, run, ha, hr, hs, Nat.not_le.mpr he, up, hb, hcore, hread, bad]

theorem State.dealBlock_of_read (ok : g.st = .ok) : s.dealBlock p.id cl e =
    let r1 := r.withFolded st cl e core b g.data
    if r.queue.erase b = [] then (s1.countBlock p r1 b.n).attnFinish p r1 st.dv else (s1.countBlock p r1 b.n).setAttn p.id r1 := by
  simp [State.dealBlock, State.packet, State.attn, State.stream, hp, run, ha, hr, hs, Nat.not_le.mpr he, up, hb, hcore, hread, ok,
    AttnRun.withFolded, State.countBlock]

/-- A block whose read failed ends the packet with the read's status and what it has counted (R179). -/
theorem State.dealBlock_fails (bad : g.st ≠ .ok) : ∃ x, tfind (s.dealBlock p.id cl e).packets p.id = some x ∧ x.st = .fixed
    ∧ x.status = ofPStatus g.st ∧ x.count = r.count ∧ tfind (s.dealBlock p.id cl e).attns p.id = none
    ∧ s.othersKept (s.dealBlock p.id cl e) p.id := by
  rw [State.dealBlock_of_read_failed hp run ha hr hs he up hb hcore hread bad]
  have left : s.Follows (fieldMask Field.access) ((s1.spoilList g.st r).builtLoad g.st cl (some core)) :=
    State.builtLoad_follows _ _ _ (State.spoilList_follows _ _ (State.readBlock_accesses hread) rfl) rfl
  obtain ⟨detail, ends⟩ := State.dropAttn_poolFail_of_data ((s1.spoilList g.st r).builtLoad g.st cl (some core)) p g.st r.count
  obtain ⟨found, gone, others⟩ := State.dropAttn_fixPacket_effect
    ((State.othersKept.refl s _).of_access (State.drawNat_follows left rfl)) (ofPStatus g.st) r.count 0 detail
  rw [ends]
  exact ⟨_, found, rfl, rfl, rfl, gone, others⟩

/-- A block that is not the last is folded in, and the run goes on without it. -/
theorem State.dealBlock_continues (ok : g.st = .ok) (more : r.queue.erase b ≠ []) :
    tfind (s.dealBlock p.id cl e).attns p.id = some (r.withFolded st cl e core b g.data)
      ∧ tfind (s.dealBlock p.id cl e).packets p.id = some { p with count := (r.withFolded st cl e core b g.data).count }
      ∧ s.othersKept (s.dealBlock p.id cl e) p.id ∧ (s.dealBlock p.id cl e).mem = s1.mem := by
  rw [State.dealBlock_of_read hp run ha hr hs he up hb hcore hread ok]
  dsimp only
  rw [if_neg more]
  generalize r.withFolded st cl e core b g.data = r1
  exact ⟨tfind_tset_same _ _ _, State.tfind_countBlock s1 p r1 b.n, (State.countBlock_othersKept hread r1 b.n).of_packets rfl,
    State.countBlock_mem s1 p r1 b.n⟩

/-- The last block ends the packet. -/
theorem State.dealBlock_ends (ok : g.st = .ok) (last : r.queue.erase b = []) :
    ∃ x, tfind (s.dealBlock p.id cl e).packets p.id = some x ∧ x.st = .fixed ∧ tfind (s.dealBlock p.id cl e).attns p.id = none
      ∧ s.othersKept (s.dealBlock p.id cl e) p.id := by
  rw [State.dealBlock_of_read hp run ha hr hs he up hb hcore hread ok]
  dsimp only
  rw [if_pos last]
  generalize r.withFolded st cl e core b g.data = r1
  obtain ⟨v, k, count, aux, detail, left, ends⟩ := State.attnFinish_ends (s1.countBlock p r1 b.n) p r1 st.dv
  obtain ⟨found, gone, others⟩ := State.dropAttn_fixPacket_effect ((State.countBlock_othersKept hread r1 b.n).of_access left)
    k count aux detail
  rw [ends]
  exact ⟨_, found, rfl, gone, others⟩

end

/-! ## ATTN_SELECT (R171 to R174) -/

section
variable {s s1 : State} {id : Nat} {p : Packet} {st : Stream}

/-- The start checks of an ATTN_SELECT. -/
def State.selectChecks (s : State) (p : Packet) (st : Stream) : List (Option KStatus) :=
  let a := p.selectPrm
  let c := p.word 32
  [if a.fits st then none else some .malformed,
    s.memRegion p.tenant 4096 (p.word 48) (a.heads * st.dk * 2),
    s.memRegion p.tenant 4096 (p.word 56) (listBytes (bits c 14 6 + 1 + bits c 24 8 + bits c 32 8)),
    if bit c 20 then s.memRegion p.tenant 4096 (p.word 64) (8 * a.ppc * a.heads * tupleBytes st.dv) else none]

/-- The pages below the bound in turn, forced or scored, up to the first whose summary or entry cannot be read (R172). -/
def State.scorePages (s : State) (p : Packet) (st : Stream) (raw : Nat) : State × Scored :=
  let a := p.selectPrm
  let c := p.word 32
  let b := st.bound a.layer
  let np := ceilDiv b st.tpp
  (List.range np).foldl (fun (y : State × Scored) pg =>
    if y.2.bad.isSome then y
    else y.1.scorePage st a (qWords (a.heads * st.dk) raw) b (bits c 14 6 + 1) (min (bits c 24 8) np) (np - bits c 32 8) pg y.2)
    (s, ⟨[], [], 0, 0, 0, none⟩)

/-- The pages of the list: those forced and those selected. -/
def Scored.pages (x : Scored) : List Nat := sortPages (x.forced ++ x.top.map (·.2))

/-- The listed pages with their tokens below the bound. -/
def boundedPages (tpp bound : Nat) (pages : List Nat) : List (Nat × Nat × Nat) :=
  pages.map fun y => (y, y * tpp, min bound ((y + 1) * tpp))

/-- The run of a chained ATTN_SELECT, before its pages are looked up (R174). -/
def Packet.selectRun (p : Packet) (st : Stream) (raw : Nat) (x : Scored) : AttnRun :=
  let a := p.selectPrm
  ⟨p.target, a.layer, a.heads, a.kv0, a.g, bits (p.word 40) 0 32, a.ppc, p.word 64, qWords (a.heads * st.dk) raw, [], [], [], x.pools, 0,
    x.skipped, st.st = .degraded, some (p.word 56, x.scored, x.pages, st.bound a.layer)⟩

theorem State.scorePages_accesses {t : State} {raw : Nat} {x : Scored} (h : s.scorePages p st raw = (t, x)) :
    s.Follows (fieldMask Field.access) t := by
  refine .fst h (.foldlFst (fun y pg hy => ?_) _ (.refl _ s))
  split
  · exact hy
  · exact State.scorePage_follows _ _ _ _ _ _ _ _ _ hy rfl

/-- Neither the reads of an ATTN_SELECT nor the write of its list touch another packet. -/
theorem State.othersKept_of_listed {s2 s3 s4 : State} {q : Got} {x : Scored} {addr len a n data cls : Nat} {w : PStatus × Nat}
    (ht : s.takeAttn id 0x21 = some (s1, p)) (hq : s1.readBytes addr len = (s2, q)) (hx : s2.scorePages p st q.data = (s3, x))
    (hw : s3.writeBytes a n data cls = (s4, w)) : s.othersKept s4 p.id :=
  (((State.takeAttn_othersKept ht).of_access (State.readBytes_accesses hq)).of_access (State.scorePages_accesses hx)).of_access
    (State.writeBytes_accesses hw)

variable (ht : s.takeAttn id 0x21 = some (s1, p)) (hs : s1.stream p.target = some st) (hr : s1.streamRefused p = none)
include ht hs hr

theorem State.runSelect_of_refused {k : KStatus} (hk : firstFail (s1.selectChecks p st) = some k) :
    s.runSelect id = s1.fixPacket p k := by
  unfold State.selectChecks at hk
  simp only [State.runSelect, ht, hs, hr, hk]

variable {s2 s3 s4 : State} {q : Got} {x : Scored} {i : Nat} (hc : firstFail (s1.selectChecks p st) = none)
  (hq : s1.readBytes (p.word 48) (p.selectPrm.heads * st.dk * 2) = (s2, q)) (ok : q.st = .ok) (up : s2.clusterFor 0 ≠ none)
  (hx : s2.scorePages p st q.data = (s3, x)) (good : x.bad = none)
  (hw : s3.writeBytes (p.word 56) (listBytes x.pages.length) (listNum p.selectPrm.layer (st.bound p.selectPrm.layer) 0 x.pages)
    = (s4, .ok, i))
include hc hq ok up hx good hw

/-- The list is written: the packet ends with its counts, or goes on with the listed pages. -/
theorem State.runSelect_of_listed : s.runSelect id =
    if bit (p.word 32) 20 then
      (s4.collect st p.selectPrm.layer (boundedPages st.tpp (st.bound p.selectPrm.layer) x.pages)).1.attnStart p
        (p.selectRun st q.data x)
        (s4.collect st p.selectPrm.layer (boundedPages st.tpp (st.bound p.selectPrm.layer) x.pages)).2 st.dv
    else s4.fixPacket p (if st.st = .degraded then .degraded else .done) x.scored x.pages.length
      (if st.st = .degraded then x.skipped else 0) := by
  unfold State.selectChecks at hc
  unfold State.scorePages at hx
  unfold Scored.pages at hw
  have up' : (s2.clusterFor 0).isNone = false := by simpa [Option.isNone_eq_false_iff, Option.isSome_iff_ne_none] using up
  simp only [State.runSelect, ht, hs, hr, hc, hq, ok, up', hx, good, hw]
  cases bit (p.word 32) 20 <;> simp [Packet.selectRun, Scored.pages, boundedPages]

end

/-! ## ATTN_MERGE (R175, R176) -/

section
variable {s s1 s2 s3 : State} {id cl i : Nat} {order : List Nat} {p : Packet} {g : Got}

/-- Heads of an ATTN_MERGE, elements of a value, and bytes of a head's output. -/
def Packet.mergeHeads (p : Packet) : Nat := bits (p.word 32) 0 6 + 1
def Packet.mergeDv (p : Packet) : Nat := 32 * (bits (p.word 32) 6 6 + 1)
def Packet.mergeBytes (p : Packet) : Nat :=
  if bit (p.word 32) 12 then p.mergeDv * (if bits (p.word 32) 13 4 = 0 then 4 else 2) else tupleBytes p.mergeDv

/-- Bytes of the tuples that an ATTN_MERGE reads. -/
def Packet.mergeInput (p : Packet) : Nat := bits (p.word 32) 32 32 * tupleBytes p.mergeDv

/-- The start checks of an ATTN_MERGE. -/
def State.mergeChecks (s : State) (p : Packet) : List (Option KStatus) :=
  [s.memRegion p.tenant 4096 (p.word 40) p.mergeInput, s.memRegion p.tenant 4096 (p.word 48) (p.mergeHeads * p.mergeBytes)]

/-- The tuples in the order in which they arrive. -/
def Packet.mergeTuples (p : Packet) (order : List Nat) (raw : Nat) : List Tuple :=
  (arrivalOrder (bits (p.word 32) 32 32) order).map fun j =>
    Tuple.unpack p.mergeDv (bits raw (8 * tupleBytes p.mergeDv * j) (8 * tupleBytes p.mergeDv))

/-- The output of head h is written by a cluster, after outputs that were all written. -/
def Packet.mergeWrite (p : Packet) (cl : Nat) (ts : List Tuple) (x : State × PStatus × Nat) (h : Nat) : State × PStatus × Nat :=
  if x.2.1 ≠ .ok then x else
  let mine := ts.filter fun y => y.head = h
  let v := if mergeNan (bit (p.word 32) 12) p.mergeDv mine then x.1.builtEvent F.cnErr_nan_out cl none else x.1
  let w := v.writeBytes (p.word 48 + h * p.mergeBytes) p.mergeBytes (mergeOut (bit (p.word 32) 12) (bits (p.word 32) 13 4) p.mergeDv h mine)
    (clusterClass cl)
  (w.1, w.2.1, p.word 48 + h * p.mergeBytes + w.2.2)

theorem Packet.mergeWrite_accesses (p : Packet) (cl : Nat) (ts : List Tuple) (hs : List Nat)
    (h : hs.foldl (p.mergeWrite cl ts) (s, .ok, 0) = (s1, .ok, i)) : s.Follows (fieldMask Field.access) s1 := by
  refine .fst h (.foldlFst (fun x k hx => ?_) hs (.refl _ s))
  unfold Packet.mergeWrite
  split
  · exact hx
  · exact State.writeBytes_follows _ _ _ _ (.ite (fun _ => State.builtEvent_follows _ _ _ hx rfl) fun _ => hx) rfl

variable (ht : s.takeAttn id 0x22 = some (s1, p)) (hr : s1.streamRefused p = none)
include ht hr

theorem State.runMerge_of_refused {k : KStatus} (hk : firstFail (s1.mergeChecks p) = some k) :
    s.runMerge id order = s1.fixPacket p k := by
  unfold State.mergeChecks Packet.mergeInput Packet.mergeHeads Packet.mergeBytes Packet.mergeDv at hk
  simp only [State.runMerge, ht, hr, hk]

/-- Tuples of heads below the packet's are merged, and a head with such a tuple is written. -/
theorem State.runMerge_of_written (hc : firstFail (s1.mergeChecks p) = none) (hg : s1.readBytes (p.word 40) p.mergeInput = (s2, g))
    (ok : g.st = .ok) (up : s2.clusterFor 0 = some cl)
    (hw : (List.range p.mergeHeads).foldl (p.mergeWrite cl (p.mergeTuples order g.data)) (s2, .ok, 0) = (s3, .ok, i)) :
    s.runMerge id order = s3.fixPacket p .done
      ((p.mergeTuples order g.data).filter fun y => decide (y.head < p.mergeHeads)).length
      ((List.range p.mergeHeads).filter fun h => !((p.mergeTuples order g.data).filter fun y => y.head = h).isEmpty).length := by
  unfold State.mergeChecks Packet.mergeInput Packet.mergeHeads Packet.mergeBytes Packet.mergeDv at hc
  unfold Packet.mergeInput Packet.mergeDv at hg
  have merged := congrArg (fun y : State × PStatus × Nat => if y.2.1 ≠ .ok then y.1.attnFail p y.2.1 y.2.2 0 else
    y.1.fixPacket p .done ((p.mergeTuples order g.data).filter fun y => decide (y.head < p.mergeHeads)).length
      ((List.range p.mergeHeads).filter fun h => !((p.mergeTuples order g.data).filter fun y => y.head = h).isEmpty).length) hw
  simp only [State.runMerge, ht, hr, hc, hg, ok, up, ne_eq, not_true_eq_false, if_false]
  exact merged

end

/-- Settles O57, command by command: each case is an equation for the state that the command leaves, and what that state holds. -/
theorem attentionRuns : Obligations.AttentionRuns := by
  rintro s id s1 p st rfl
  refine ⟨fun ht hs hr => ⟨fun k hk => ?partialRefused, fun hc v spans source s2 q s3 pg hq ok hpg down bad nonempty => ?partialRuns⟩,
    fun r0 r cl e b core hcl he hp run ha hr hst engine up hb hcore s2 g hread => ⟨fun ok more => ?blockFolded, fun ok last => ?blockLast,
      fun bad => ?blockFailed⟩,
    fun ht hs hr => ⟨fun k hk => ?selectRefused, fun hc s2 q s3 x s4 i hq ok up hx good hw => ⟨fun single => ?listWritten,
      fun chain s5 pg hpg down bad nonempty => ?listChained⟩⟩,
    fun order ht hr => ⟨fun k hk => ?mergeRefused, fun hc s2 g s3 i cl hg ok up hw => ?merged⟩⟩
  case partialRefused =>
    exact ⟨_, (exec_attnPartial _ s).trans (congrArg _ (State.runPartial_of_refused ht hs hr hk)), State.refused_effect ht⟩
  case partialRuns =>
    have runs : s.othersKept v p.id ∧ s.runPartial p.id = v.partialFrom p st p.partialPrm spans := by
      have started := State.takeAttn_othersKept ht
      rcases source with ⟨range, rfl, rfl⟩ | ⟨list, u, h, l, hh, hok, held, hl, lok, valid, rfl⟩
      · exact ⟨started, State.runPartial_of_range ht hs hr hc range⟩
      · exact ⟨(started.of_access (State.readBytes_accesses hh)).of_access (State.readBytes_accesses hl),
          State.runPartial_of_list ht hs hr hc list hh hok held hl lok valid⟩
    obtain ⟨kept, eq⟩ := runs
    obtain ⟨found, others, attn⟩ := State.partialFrom_effect kept hq ok hpg down bad nonempty
    exact ⟨_, (exec_attnPartial _ s).trans (congrArg _ eq), found, others, attn⟩
  case blockFolded =>
    exact ⟨_, _, exec_engineBlockDeal hcl he p.id s, rfl, State.dealBlock_continues hp run ha hr hst engine up hb hcore hread ok more⟩
  case blockLast =>
    obtain ⟨x, effect⟩ := State.dealBlock_ends hp run ha hr hst engine up hb hcore hread ok last
    exact ⟨_, x, exec_engineBlockDeal hcl he p.id s, effect⟩
  case blockFailed =>
    obtain ⟨x, effect⟩ := State.dealBlock_fails hp run ha hr hst engine up hb hcore hread bad
    exact ⟨_, x, exec_engineBlockDeal hcl he p.id s, effect⟩
  case selectRefused =>
    exact ⟨_, (exec_attnSelect _ s).trans (congrArg _ (State.runSelect_of_refused ht hs hr hk)), State.refused_effect ht⟩
  case listWritten =>
    have eq := State.runSelect_of_listed ht hs hr hc hq ok up hx good hw
    rw [if_neg (by simpa using single)] at eq
    obtain ⟨found, others, mem⟩ := State.fixPacket_effect (State.othersKept_of_listed ht hq hx hw) _ _ _ _
    exact ⟨_, (exec_attnSelect _ s).trans (congrArg _ eq), mem, others, found⟩
  case listChained =>
    have eq := State.runSelect_of_listed ht hs hr hc hq ok up hx good hw
    have hpg' : s4.collect st p.selectPrm.layer (boundedPages st.tpp (st.bound p.selectPrm.layer) x.pages) = (s5, pg) := hpg
    rw [if_pos (by simpa using chain), hpg'] at eq
    obtain ⟨found, attn, others⟩ := State.attnStart_effect (r := p.selectRun st q.data x) (dv := st.dv)
      ((State.othersKept_of_listed ht hq hx hw).of_access (State.collect_accesses hpg)) down bad nonempty
    exact ⟨_, (exec_attnSelect _ s).trans (congrArg _ eq), others, found, attn⟩
  case mergeRefused =>
    exact ⟨_, (exec_attnMerge _ order s).trans (congrArg _ (State.runMerge_of_refused ht hr hk)), State.refused_effect ht⟩
  case merged =>
    have written := (((State.takeAttn_othersKept ht).of_access (State.readBytes_accesses hg)).of_access
      (p.mergeWrite_accesses cl (p.mergeTuples order g.data) (List.range p.mergeHeads) hw))
    obtain ⟨found, others, mem⟩ := State.fixPacket_effect written _ _ _ _
    exact ⟨_, (exec_attnMerge _ order s).trans (congrArg _ (State.runMerge_of_written ht hr hc hg ok up hw)), mem, others, found⟩

end Sys2Proof.Machine
end

