-- ==== Sys2Proof/Proofs/LinkLaws.lean ====
section
/-! What the stack links lean on: the registers below the arbiters' block, which events, records and grants leave alone, the
maintenance port and what it costs to ask for it, and the fields of a lane map. -/
namespace Sys2Proof.Machine

/-! ## Registers below the arbiters' block (R7) -/

/-- Offset of the first register of the arbiters: the registers of the ports, the stacks and the map lie below it. -/
def arbsFrom : Nat := 0x480000

/-- The registers below the arbiters' block are as they were. -/
def State.lowKept (s t : State) : Prop := ∀ a < arbsFrom, tfind t.regs a = tfind s.regs a

theorem Reg.base_le_addr (r : Reg) (ix : List Nat) : r.base ≤ r.addr ix := Nat.le_add_right _ _

theorem Reg.stack_block {r : Reg} (h : r.scope = .stack) : r.base < 0x20000 ∧ r.dims.head? = some (8, 0x10000) := by
  revert h
  cases r <;> decide

theorem Reg.addr_stack {r : Reg} (h : r.scope = .stack) (k : Nat) : r.addr [k] = r.base + k * 0x10000 := by
  obtain ⟨l, hl⟩ := List.head?_eq_some_iff.mp (Reg.stack_block h).2
  simp [Reg.addr, hl, sumBy]

theorem Reg.addr_stack_lt {r : Reg} (h : r.scope = .stack) {k : Nat} (hk : k < 8) : r.addr [k] < arbsFrom := by
  have := (Reg.stack_block h).1
  rw [Reg.addr_stack h, arbsFrom]
  omega

section
variable {s t u : State}

theorem State.lowKept.refl (s : State) : s.lowKept s := fun _ _ => rfl

theorem State.lowKept.trans (h : s.lowKept t) (k : t.lowKept u) : s.lowKept u := fun a ha => (k a ha).trans (h a ha)

theorem State.lowKept.of_regs (h : t.regs = s.regs) : s.lowKept t := fun _ _ => congrArg (tfind · _) h

theorem State.lowKept.foldl {α : Type} {f : State → α → State} (hf : ∀ t x, s.lowKept t → s.lowKept (f t x)) :
    ∀ (l : List α) {t : State}, s.lowKept t → s.lowKept (l.foldl f t)
  | [], _, h => h
  | x :: l, t, h => State.lowKept.foldl hf l (hf t x h)

theorem State.lowKept.rput {r : Reg} (h : arbsFrom ≤ r.base) (s : State) (ix : List Nat) (w : Word) : s.lowKept (s.rput r ix w) :=
  fun _ ha => s.tfind_rput_other w (Nat.ne_of_lt (Nat.lt_of_lt_of_le ha (Nat.le_trans h (r.base_le_addr ix))))

theorem State.lowKept.fset {f : Fld} (h : arbsFrom ≤ f.reg.base) (s : State) (ix : List Nat) (v : Nat) : s.lowKept (s.fset f ix v) :=
  .rput h s ix _

theorem State.lowKept.raise {f : Fld} (h : arbsFrom ≤ f.reg.base) {firsts : List (Fld × Nat)} (hl : ∀ e ∈ firsts, e.1.reg = f.reg)
    (s : State) (n : Nat) (ix : List Nat) : s.lowKept (s.raise n f ix firsts) := fun a ha => by
  have ne : a ≠ f.reg.addr ix := Nat.ne_of_lt (Nat.lt_of_lt_of_le ha (Nat.le_trans h (f.reg.base_le_addr ix)))
  exact s.tfind_raise_other ne fun e he => hl e he ▸ ne

theorem State.lowKept.pmcAdd (s : State) (i n : Nat) : s.lowKept (s.pmcAdd i n) := by
  unfold State.pmcAdd
  extract_lets c s1 w o
  have h1 : s.lowKept s1 := .fset (by decide) s _ _
  split
  · exact h1
  · exact (h1.trans (.rput (by decide) _ _ _)).trans (.raise (by decide) (by simp [F.obInt_first_src, F.obInt_pmc_ovf]) _ _ _)

theorem State.lowKept.ev (s : State) (code inst n : Nat) : s.lowKept (s.ev code inst n) := by
  unfold State.ev
  split
  · exact .refl s
  · refine .foldl (fun t i h => ?_) _ (.refl s)
    split
    · exact h.trans (.pmcAdd t i n)
    · exact h

theorem State.lowKept.log (s : State) (ty : RecTy) (src sub a0 a1 : Nat) : s.lowKept (s.log ty src sub a0 a1) :=
  fun a ha => s.tfind_log_other ty src sub a0 a1
    (Nat.ne_of_lt (Nat.lt_of_lt_of_le ha (Nat.le_trans (by decide) (Reg.obEvrStat.base_le_addr []))))

/-- A field of a stack's register. -/
theorem State.lowKept.fget (h : s.lowKept t) {f : Fld} (hf : f.reg.scope = .stack) {k : Nat} (hk : k < 8) :
    t.fget f [k] = s.fget f [k] := State.fget_of_tfind (h _ (Reg.addr_stack_lt hf hk))

theorem State.lowKept.link (h : s.lowKept t) {k : Nat} (hk : k < 8) : t.link k = s.link k := h.fget rfl hk
theorem State.lowKept.passPeriod (h : s.lowKept t) {k : Nat} (hk : k < 8) : t.passPeriod k = s.passPeriod k := by
  simp only [State.passPeriod, h.fget (f := F.scTrainCfg_period_ms) rfl hk]
theorem State.lowKept.stackTemp (h : s.lowKept t) {k : Nat} (hk : k < 8) : t.stackTemp k = s.stackTemp k := by
  simp only [State.stackTemp, h.fget (f := F.scLinkStat_temp_c) rfl hk]

end

/-! ## The maintenance port (R378 to R382) -/

section
variable (s : State) (i j : Nat)

theorem State.arbGive_low (b : Bool) : s.lowKept (s.arbGive i j b) := .fset (by decide) (s.setArb i _) _ _

theorem State.arbGrant_low : s.lowKept (s.arbGrant i) := by
  unfold State.arbGrant
  dsimp only
  split
  · exact .refl s
  · split
    · exact .refl s
    · exact s.arbGive_low i _ false

theorem State.arbRequest_regs : (s.arbRequest i j).regs = s.regs :=
  (State.arbRequest_follows (μ := fieldMask [.arbs]) i j (.refl _ s) rfl).kept .regs rfl

theorem State.askPort_low : s.lowKept (s.askPort i j) := by
  unfold State.askPort
  split
  · exact .refl s
  · exact (State.lowKept.of_regs (s.arbRequest_regs i j)).trans (State.arbGrant_low _ i)

theorem State.askPort_kept {f : Field} (h : f ∉ [Field.regs, .arbs]) : f.same s (s.askPort i j) :=
  (State.askPort_follows (μ := fieldMask [.regs, .arbs]) i j (.refl _ s) rfl).kept f (fieldMask_not_mem h)

@[simp] theorem State.askPort_clk : (s.askPort i j).clk = s.clk := s.askPort_kept i j (f := .clk) (by decide)
@[simp] theorem State.askPort_links : (s.askPort i j).links = s.links := s.askPort_kept i j (f := .links) (by decide)
@[simp] theorem State.askPort_ladder : (s.askPort i j).ladder = s.ladder := s.askPort_kept i j (f := .ladder) (by decide)
@[simp] theorem State.askPort_laneMaps : (s.askPort i j).laneMaps = s.laneMaps := s.askPort_kept i j (f := .laneMaps) (by decide)

theorem State.arb_of_arbs {s t : State} (h : t.arbs = s.arbs) (i : Nat) : t.arb i = s.arb i := congrArg (tget Arb.init · i) h

theorem State.owner_arbGive (m : Nat) (b : Bool) : ((s.arbGive i m b).arb i).owner = some m := by
  unfold State.arbGive
  rw [State.arb_of_arbs (State.fsat_arbs _ _ _ _), State.arb_setArb]

/-- A port that position j holds after it has asked was granted to position j: no other position's count of grants has changed. -/
theorem State.tfind_askPort_of_owns {s : State} {i j a : Nat} (h : (s.askPort i j).owns i j = true) (ha : a ≠ Reg.abPrio.addr [i, j]) :
    tfind (s.askPort i j).regs a = tfind s.regs a := by
  have granted : ∀ u : State, (u.arbGrant i).owns i j = true → tfind (u.arbGrant i).regs a = tfind u.regs a := fun u h => by
    unfold State.arbGrant at h ⊢
    by_cases busy : ((u.arb i).owner.isSome || (u.arb i).seize) = true
    · rw [if_pos busy]
    · rw [if_neg busy] at h ⊢
      cases hm : u.arbWinner i with
      | none => rfl
      | some m =>
        simp only [hm, State.owns, State.owner_arbGive, decide_eq_true_eq, Option.some.injEq] at h
        subst h
        exact State.tfind_fset_other (u.setArb i _) _ ha
  unfold State.askPort at h ⊢
  by_cases held : s.owns i j = true
  · rw [if_pos held]
  · rw [if_neg held] at h ⊢
    rw [granted _ h, s.arbRequest_regs i j]

theorem State.arbSeized_low (m : Nat) : s.lowKept (s.arbSeized i m) :=
  ((s.arbGive_low i 7 true).trans (.log _ _ _ _ _ _)).trans (.fset (by decide) _ _ _)

theorem State.arbDrop_low : s.lowKept (s.arbDrop i j) := by
  unfold State.arbDrop
  extract_lets a t
  split
  · split
    · exact (State.lowKept.of_regs rfl).trans (t.arbSeized_low i j)
    · exact .of_regs rfl
  · exact .of_regs rfl

theorem State.arbDrop_kept {f : Field} (h : f ∉ [Field.regs, .obs, .arbs]) : f.same s (s.arbDrop i j) :=
  (State.arbDrop_follows (μ := fieldMask [.regs, .obs, .arbs]) i j (.refl _ s) rfl).kept f (fieldMask_not_mem h)

@[simp] theorem State.arbDrop_clk : (s.arbDrop i j).clk = s.clk := s.arbDrop_kept i j (f := .clk) (by decide)
@[simp] theorem State.arbDrop_links : (s.arbDrop i j).links = s.links := s.arbDrop_kept i j (f := .links) (by decide)
@[simp] theorem State.arbDrop_ladder : (s.arbDrop i j).ladder = s.ladder := s.arbDrop_kept i j (f := .ladder) (by decide)
@[simp] theorem State.arbDrop_laneMaps : (s.arbDrop i j).laneMaps = s.laneMaps := s.arbDrop_kept i j (f := .laneMaps) (by decide)

theorem State.owner_arbSeized (m : Nat) : ((s.arbSeized i m).arb i).owner = some 7 := by
  have logged := (State.log_follows (μ := fieldMask [.regs, .obs]) .arbSeize i m 0 0 (.refl _ (s.arbGive i 7 true)) rfl).kept .arbs rfl
  unfold State.arbSeized
  rw [State.arb_of_arbs (State.fset_arbs _ _ _ _), State.arb_of_arbs logged, State.owner_arbGive]

theorem State.owns_arbDrop {j : Nat} (hj : j ≠ 7) : (s.arbDrop i j).owns i j = false := by
  unfold State.owns State.arbDrop
  extract_lets a t
  split
  · split
    · simpa only [State.owner_arbSeized, decide_eq_false_iff_not, Option.some.injEq] using Ne.symm hj
    · simp [t]
  next h => simpa using h

variable {i j} {f : State → State}

theorem State.withPort_of_owns {s : State} (h : (s.askPort i j).owns i j = true) :
    s.withPort i j f = (f (s.askPort i j)).arbDrop i j := by
  simp only [State.withPort, h, if_true]

theorem State.withPort_of_held {s : State} (h : (s.askPort i j).owns i j = false) : s.withPort i j f = s.askPort i j := by
  simp [State.withPort, h]

end

/-! ## Links by number -/

section
variable (s : State) {k j : Nat}

theorem State.linkOf_setLinkOf_other (l : Link) (h : j ≠ k) : (s.setLinkOf k l).linkOf j = s.linkOf j := tget_tput_other _ _ _ _ h

theorem State.linkOf_of_links {s t : State} (h : t.links = s.links) : t.linkOf = s.linkOf := by
  funext k
  simp only [State.linkOf, h]

end

/-! ## Bits of a mask -/

theorem bit_setBits_same (x i v : Nat) : bit (setBits x i 1 v) i = decide (v % 2 = 1) := by
  simp [bit]

theorem bit_setBits_other (x v : Nat) {i j : Nat} (h : j ≠ i) : bit (setBits x i 1 v) j = bit x j := by
  unfold bit
  rw [bits_setBits_other x (by omega)]

/-! ## Pseudo-channels of a channel -/

/-- Which pseudo-channels of a channel serve is read from the stack's word of PK_RETIRED alone. -/
theorem State.channelPcs_of_tfind {s t : State} {k c : Nat} (hc : c < 32)
    (h : tfind t.regs (Reg.pkRetired.addr [k]) = tfind s.regs (Reg.pkRetired.addr [k])) : t.channelPcs k c = s.channelPcs k c := by
  refine List.filter_congr fun pc hpc => ?_
  have hk : pc / 64 = k := by
    rcases List.mem_cons.mp hpc with rfl | hpc
    · omega
    · rw [List.mem_singleton.mp hpc]; omega
  simp only [State.retired, hk, State.rget_of_tfind h]

theorem Reg.retired_ne_abPrio {k : Nat} (hk : k < 8) : Reg.pkRetired.addr [k] ≠ Reg.abPrio.addr [k, 1] := by
  simp only [Reg.addr, sumBy, Reg.base, Reg.dims, List.zip_cons_cons, List.zip_nil_left, List.foldl_cons, List.foldl_nil]
  omega

end Sys2Proof.Machine
end

