-- ==== Sys2Proof/Proofs/ChannelTraining.lean ====
section
/-! Parity errors, retraining passes and lane repairs of a channel (R228, R236 to R241), one equation per case, and the statement about
them. -/
namespace Sys2Proof.Machine

/-! ## Parity errors (R228) -/

section
variable {s : State} {k c : Nat}

theorem exec_caParityError (hk : k < 8) (hc : c < 32) (s : State) : exec (.caParityError k c) s = .next (s.parityError k c) :=
  onUnit_of (by simp [hk, hc]) _

/-- The parity errors of a channel in the last millisecond. -/
def State.recentErrors (s : State) (k c : Nat) : List Nat :=
  (tget [] (s.linkOf k).parity c).filter fun a => decide (s.clk.now < a + 1000 * tickUs)

theorem State.parityError_of_down (h : s.stackUp k = false) : s.parityError k c = s := by
  simp [State.parityError, h]

theorem State.parityError_of_few (up : s.stackUp k = true) (few : (s.recentErrors k c).length < 15) : s.parityError k c
    = s.setLinkOf k { s.linkOf k with parity := tput [] (s.linkOf k).parity c (s.clk.now :: s.recentErrors k c) } := by
  have taken : (s.clk.now :: s.recentErrors k c).take 16 = s.clk.now :: s.recentErrors k c := List.take_of_length_le (by simp; omega)
  have len : (s.clk.now :: s.recentErrors k c).length ≠ 16 := by simp; omega
  unfold State.recentErrors at taken len ⊢
  unfold State.parityError
  simp only [up, Bool.not_true, Bool.false_eq_true, if_false, taken, len]

/-- The link of a channel that the sixteenth error in a millisecond has made due. -/
def Link.parityOver (l : Link) (c : Nat) : Link :=
  { l with parity := tput [] l.parity c [], due := setBits l.due c 1 1, parityDue := setBits l.parityDue c 1 1 }

theorem State.parityError_of_many (up : s.stackUp k = true) (many : 15 ≤ (s.recentErrors k c).length) :
    s.parityError k c = s.setLinkOf k ((s.linkOf k).parityOver c) := by
  have len : ((s.clk.now :: s.recentErrors k c).take 16).length = 16 := by simp; omega
  unfold State.recentErrors at len
  unfold State.parityError
  simp only [up, Bool.not_true, Bool.false_eq_true, if_false, len, if_true]
  rfl

end

/-! ## A pass (R236 to R239) -/

section
variable {s t u v : State} {k c : Nat} {bad : Option (Nat × Nat)}

theorem exec_retrainPass (hk : k < 8) (hc : c < 32) (bad : Option (Nat × Nat)) (s : State) :
    exec (.retrainPass k c bad) s = .next (s.retrainPass k c bad) := onUnit_of (by simp [hk, hc]) _

theorem exec_retrainDeferExpire (hk : k < 8) (hc : c < 32) (s : State) :
    exec (.retrainDeferExpire k c) s = .next (s.deferExpire k c) := onUnit_of (by simp [hk, hc]) _

/-- The link of a stack after a pass of one of its channels. -/
def State.passedLink (s : State) (k c : Nat) : Link :=
  { s.linkOf k with
    due := setBits (s.linkOf k).due c 1 0
    parityDue := setBits (s.linkOf k).parityDue c 1 0
    expired := setBits (s.linkOf k).expired c 1 0
    dueAt := tput 0 (s.linkOf k).dueAt c (s.clk.now + s.passPeriod k)
    lastPass := some s.clk.now
    passTemp := tput 0 (s.linkOf k).passTemp c (s.stackTemp k) }

theorem State.passDone_none (s : State) (k c : Nat) : s.passDone k c none = (s.ev 0x302 k 1).setLinkOf k (s.passedLink k c) := rfl

theorem State.passDone_bad (s : State) (k c g x : Nat) : s.passDone k c (some (g, x))
    = if laneOk g x then (s.passDone k c none).addJob (.lane k c g x) else s.passDone k c none := rfl

theorem State.addJob_links (s : State) (j : LadderJob) : (s.addJob j).links = s.links :=
  (State.addJob_follows (μ := fieldMask [.ladder]) j (.refl _ s) rfl).kept .links rfl

theorem State.mem_addJob (s : State) {i j : LadderJob} : i ∈ (s.addJob j).ladder ↔ i ∈ s.ladder ∨ i = j := by
  unfold State.addJob
  by_cases h : s.ladder.contains j = true
  · rw [if_pos h]
    exact ⟨.inl, fun e => e.elim id fun e => e ▸ List.contains_iff_mem.mp h⟩
  · rw [if_neg h]
    simp

theorem State.passDone_links (s : State) (k c : Nat) (bad : Option (Nat × Nat)) :
    (s.passDone k c bad).links = (s.setLinkOf k (s.passedLink k c)).links := by
  have kept : (s.passDone k c none).links = (s.setLinkOf k (s.passedLink k c)).links := by
    have e : (s.ev 0x302 k 1).links = s.links := s.ev_kept _ _ _ (f := .links) (by decide)
    simp only [State.passDone_none, State.setLinkOf, e]
  match bad with
  | none => exact kept
  | some (g, x) =>
    rw [State.passDone_bad]
    split
    · exact (State.addJob_links _ _).trans kept
    · exact kept

theorem State.passDone_ladder_none (s : State) (k c : Nat) : (s.passDone k c none).ladder = s.ladder :=
  s.ev_kept 0x302 k 1 (f := .ladder) (by decide)

theorem State.linkOf_passDone (s : State) (k c : Nat) (bad : Option (Nat × Nat)) : (s.passDone k c bad).linkOf k = s.passedLink k c := by
  rw [State.linkOf_of_links (s.passDone_links k c bad), State.linkOf_setLinkOf]

theorem State.linkOf_passDone_other (s : State) (k c : Nat) (bad : Option (Nat × Nat)) {j : Nat} (h : j ≠ k) :
    (s.passDone k c bad).linkOf j = s.linkOf j := by
  rw [State.linkOf_of_links (s.passDone_links k c bad), State.linkOf_setLinkOf_other _ _ h]

/-- What a pass reads is left as it was by the grant that it waits for. -/
theorem State.passedLink_of_low (h : s.lowKept t) (hk : k < 8) (links : t.links = s.links) (clk : t.clk = s.clk) (c : Nat) :
    t.passedLink k c = s.passedLink k c := by
  unfold State.passedLink
  rw [State.linkOf_of_links links, clk, h.passPeriod hk, h.stackTemp hk]

theorem State.retrainPass_of_not (h : v.passMay k c = false ∨ v.passReady k c = false) : v.retrainPass k c bad = v := by
  rcases h with h | h <;> simp [State.retrainPass, h]

theorem State.retrainPass_of_ready (may : v.passMay k c = true) (ready : v.passReady k c = true) :
    v.retrainPass k c bad = v.withPort k 1 fun t => t.passDone k c bad := by
  simp [State.retrainPass, may, ready]

/-- The link of the stack and the ladder after a pass under its grant. -/
theorem State.passed_effect (hk : k < 8) (owns : (v.askPort k 1).owns k 1 = true) {t : State}
    (ht : t = v.withPort k 1 fun t => t.passDone k c bad) :
    t.linkOf k = v.passedLink k c ∧ (∀ j, j ≠ k → t.linkOf j = v.linkOf j) ∧ t.owns k 1 = false
      ∧ t.ladder = ((v.askPort k 1).passDone k c bad).ladder := by
  rw [State.withPort_of_owns owns] at ht
  subst ht
  have links := State.linkOf_of_links (State.arbDrop_links ((v.askPort k 1).passDone k c bad) k 1)
  refine ⟨?_, fun j hj => ?_, State.owns_arbDrop _ _ (by decide), State.arbDrop_ladder _ _ _⟩
  · rw [links, State.linkOf_passDone]
    exact State.passedLink_of_low (v.askPort_low k 1) hk (v.askPort_links k 1) (v.askPort_clk k 1) c
  · rw [links, State.linkOf_passDone_other _ _ _ _ hj, State.linkOf_of_links (v.askPort_links k 1)]

theorem State.passDone_ladder_of_bad {g x : Nat} (ok : laneOk g x = true) : .lane k c g x ∈ (s.passDone k c (some (g, x))).ladder := by
  rw [State.passDone_bad, if_pos ok, State.mem_addJob]
  exact .inr rfl

theorem State.passDone_ladder_of_good (h : ∀ g x, bad = some (g, x) → laneOk g x = false) : (s.passDone k c bad).ladder = s.ladder := by
  match bad, h with
  | none, _ => exact s.passDone_ladder_none k c
  | some (g, x), h =>
    rw [State.passDone_bad, if_neg (by simp [h g x rfl])]
    exact s.passDone_ladder_none k c

/-- The stack with the deferral of a channel over. -/
def State.deferOver (s : State) (k c : Nat) : State :=
  s.setLinkOf k { s.linkOf k with expired := setBits (s.linkOf k).expired c 1 1 }

/-- A channel that is due, or that a RETRAIN waits for, on a stack that is ONLINE. -/
def State.deferred (s : State) (k c : Nat) : Prop := s.link k = 3 ∧ (s.channelDue k c = true ∨ s.retrainWaits k = true)

theorem State.deferExpire_of_waits (h : s.deferred k c) : s.deferExpire k c = (s.deferOver k c).retrainPass k c none := by
  simp [State.deferExpire, State.deferOver, h.1, h.2]

theorem State.deferExpire_of_other (h : ¬ s.deferred k c) : s.deferExpire k c = s := by
  unfold State.deferExpire
  exact if_neg (by simpa [State.deferred] using h)

theorem State.passReady_deferOver (s : State) (k c : Nat) : (s.deferOver k c).passReady k c = s.debtOk k c := by
  have expired : bit ((s.deferOver k c).linkOf k).expired c = true := by
    rw [State.deferOver, State.linkOf_setLinkOf, bit_setBits_same]; rfl
  rw [State.passReady, expired, Bool.or_true, Bool.and_true]
  rfl

/-- A pass leaves the same link whether or not its deferral was over. -/
theorem State.passedLink_fields {v : State} (hv : v = s ∨ v = s.deferOver k c) : bit (v.passedLink k c).due c = false
    ∧ bit (v.passedLink k c).parityDue c = false ∧ bit (v.passedLink k c).expired c = false
    ∧ tget 0 (v.passedLink k c).dueAt c = s.clk.now + s.passPeriod k ∧ (v.passedLink k c).lastPass = some s.clk.now
    ∧ tget 0 (v.passedLink k c).passTemp c = s.stackTemp k := by
  rcases hv with rfl | rfl
  all_goals exact ⟨bit_setBits_same _ _ _, bit_setBits_same _ _ _, bit_setBits_same _ _ _, tget_tput_same _ _ _ _, rfl,
    tget_tput_same _ _ _ _⟩

end

/-! ## Lane maps (R230, R241, R259) -/

section
variable (s : State) {k c w : Nat}

theorem laneOut_setBits (w x : Nat) {g h : Nat} : laneOut (setBits w (4 * g) 4 x) h = if h = g then x % 16 else laneOut w h := by
  unfold laneOut
  split
  next e => subst e; exact bits_setBits_same _ _ _ _
  next ne => exact bits_setBits_other _ (by omega)

theorem laneOut_setEpoch (w e : Nat) {g : Nat} (hg : g < 9) : laneOut (setBits w 36 8 e) g = laneOut w g :=
  bits_setBits_other _ (by omega)

theorem laneEpoch_setEpoch (w e : Nat) : laneEpoch (setBits w 36 8 e) = e % 256 := bits_setBits_same _ _ _ _

theorem nextLaneEpoch_range (a b : Nat) : 0 < nextLaneEpoch a b ∧ nextLaneEpoch a b < 256 := by
  unfold nextLaneEpoch
  split <;> omega

theorem State.devLanes_lt : s.devLanes k c < 2 ^ 64 := BitVec.isLt _

theorem State.devLanes_setDevLanes (h : w < 2 ^ 64) : (s.setDevLanes k c w).devLanes k c = w := by
  simpa [State.devLanes, State.setDevLanes] using h

theorem State.stackLanes_setStackLanes (h : w < 2 ^ 64) : (s.setStackLanes k c w).stackLanes k c = w := by
  simpa [State.stackLanes, State.setStackLanes] using h

theorem State.devLanes_of_maps {s t : State} (h : t.laneMaps = s.laneMaps) : t.devLanes k c = s.devLanes k c := by
  rw [State.devLanes, h, State.devLanes]

theorem State.stackLanes_of_links {s t : State} (h : t.links = s.links) : t.stackLanes k c = s.stackLanes k c := by
  rw [State.stackLanes, State.linkOf_of_links h, State.stackLanes]

/-! ## Lane repair (R241, R324) -/

/-- The lane map that a repair writes: the lane out of service and the new epoch. -/
def State.repairedMap (s : State) (k c g lane : Nat) : Nat :=
  setBits (setBits (s.devLanes k c) (4 * g) 4 lane) 36 8 (nextLaneEpoch (laneEpoch (s.devLanes k c)) (laneEpoch (s.stackLanes k c)))

variable {g lane : Nat}

theorem State.repairedMap_lt (hg : g < 9) : s.repairedMap k c g lane < 2 ^ 64 :=
  setBits_lt _ (setBits_lt _ s.devLanes_lt (by omega)) (by decide)

theorem State.laneOut_repairedMap {h : Nat} (hh : h < 9) (hl : lane < 16) :
    laneOut (s.repairedMap k c g lane) h = if h = g then lane else laneOut (s.devLanes k c) h := by
  rw [State.repairedMap, laneOut_setEpoch _ _ hh, laneOut_setBits, Nat.mod_eq_of_lt hl]

theorem State.laneEpoch_repairedMap : laneEpoch (s.repairedMap k c g lane)
    = nextLaneEpoch (laneEpoch (s.devLanes k c)) (laneEpoch (s.stackLanes k c)) := by
  rw [State.repairedMap, laneEpoch_setEpoch, Nat.mod_eq_of_lt (nextLaneEpoch_range _ _).2]

/-- The device's entry with epoch 0, the first write of a repair. -/
def State.laneStep1 (s : State) (k c : Nat) : State := s.setDevLanes k c (setBits (s.devLanes k c) 36 8 0)
/-- The stack's map, the second write. -/
def State.laneStep2 (s : State) (k c g lane : Nat) : State := (s.laneStep1 k c).setStackLanes k c (s.repairedMap k c g lane)
/-- The device's entry with the new map, the third write. -/
def State.laneStep3 (s : State) (k c g lane : Nat) : State := (s.laneStep2 k c g lane).setDevLanes k c (s.repairedMap k c g lane)

theorem State.laneSteps_one (g lane : Nat) : s.laneSteps k c g lane 1 = s.laneStep1 k c := rfl
theorem State.laneSteps_two : s.laneSteps k c g lane 2 = s.laneStep2 k c g lane := rfl
theorem State.laneSteps_three : s.laneSteps k c g lane 3
    = ((s.laneStep3 k c g lane).dropJobs (· = .lane k c g lane)).log .laneRepair k c
      (g + lane * 16 + nextLaneEpoch (laneEpoch (s.devLanes k c)) (laneEpoch (s.stackLanes k c)) * 256) := by
  simp only [State.laneSteps, State.laneStep3, State.laneStep2, State.laneStep1, State.repairedMap, Nat.reduceLeDiff, if_true]

theorem State.devLanes_laneStep1 : (s.laneStep1 k c).devLanes k c = setBits (s.devLanes k c) 36 8 0 :=
  s.devLanes_setDevLanes (setBits_lt _ s.devLanes_lt (by decide))

theorem State.laneStep1_links : (s.laneStep1 k c).links = s.links := by
  rw [State.laneStep1, State.setDevLanes]

theorem State.laneStep1_ladder : (s.laneStep1 k c).ladder = s.ladder := by
  rw [State.laneStep1, State.setDevLanes]

theorem State.laneStep2_laneMaps : (s.laneStep2 k c g lane).laneMaps = (s.laneStep1 k c).laneMaps := by
  rw [State.laneStep2, State.setStackLanes, State.setLinkOf_laneMaps]

theorem State.laneStep2_ladder : (s.laneStep2 k c g lane).ladder = s.ladder := by
  rw [State.laneStep2, State.setStackLanes, State.setLinkOf, State.laneStep1_ladder]

theorem State.devLanes_laneStep3 (hg : g < 9) : (s.laneStep3 k c g lane).devLanes k c = s.repairedMap k c g lane :=
  State.devLanes_setDevLanes _ (s.repairedMap_lt hg)

theorem State.stackLanes_laneStep2 (hg : g < 9) : (s.laneStep2 k c g lane).stackLanes k c = s.repairedMap k c g lane :=
  State.stackLanes_setStackLanes _ (s.repairedMap_lt hg)

theorem State.laneMaps_setDevLanes_other (w : Nat) {j : Nat} (hj : j ≠ 32 * k + c) :
    tfind (s.setDevLanes k c w).laneMaps j = tfind s.laneMaps j := tfind_tput_other _ _ _ hj

theorem State.laneMaps_laneStep3_other {j : Nat} (hj : j ≠ 32 * k + c) :
    tfind (s.laneStep3 k c g lane).laneMaps j = tfind s.laneMaps j := by
  rw [State.laneStep3, State.laneMaps_setDevLanes_other _ _ hj, State.laneStep2_laneMaps, State.laneStep1,
    State.laneMaps_setDevLanes_other _ _ hj]

theorem State.log_kept (ty : RecTy) (src sub a0 a1 : Nat) {f : Field} (h : f ∉ [Field.regs, .obs]) :
    f.same s (s.log ty src sub a0 a1) :=
  (State.log_follows (μ := fieldMask [.regs, .obs]) ty src sub a0 a1 (.refl _ s) rfl).kept f (fieldMask_not_mem h)

theorem State.laneStep3_links : (s.laneStep3 k c g lane).links = (s.laneStep2 k c g lane).links := by
  rw [State.laneStep3, State.setDevLanes]

theorem State.laneStep3_ladder : (s.laneStep3 k c g lane).ladder = s.ladder := by
  rw [State.laneStep3, State.setDevLanes, State.laneStep2_ladder]

/-- The third write is the whole repair; its job leaves the ladder. -/
theorem State.laneSteps_three_kept : (s.laneSteps k c g lane 3).laneMaps = (s.laneStep3 k c g lane).laneMaps
    ∧ (s.laneSteps k c g lane 3).links = (s.laneStep2 k c g lane).links
    ∧ (s.laneSteps k c g lane 3).ladder = s.ladder.filter fun j => !decide (j = .lane k c g lane) := by
  rw [State.laneSteps_three]
  generalize g + lane * 16 + nextLaneEpoch (laneEpoch (s.devLanes k c)) (laneEpoch (s.stackLanes k c)) * 256 = a
  rw [← s.laneStep3_links, ← s.laneStep3_ladder (k := k) (c := c) (g := g) (lane := lane)]
  generalize s.laneStep3 k c g lane = u
  have kept := fun (f : Field) (h : f ∉ [Field.regs, .obs]) => (u.dropJobs (· = .lane k c g lane)).log_kept .laneRepair k c a 0 h
  exact ⟨kept .laneMaps (by decide), kept .links (by decide), kept .ladder (by decide)⟩

section
variable {s : State} {n : Nat}

/-- A repair that runs in a group with all its lanes in service. -/
theorem State.laneRepair_of_free (job : .lane k c g lane ∈ s.ladder) (on : s.link k = 3) (pcs : s.channelPcs k c ≠ [])
    (free : laneOut (s.devLanes k c) g = 15) (hl : lane < 15) : s.laneRepair k c g lane n = s.laneSteps k c g lane n := by
  have ne : ¬ 15 = lane := by omega
  simp [State.laneRepair, job, on, pcs, free, ne]

/-- Both pseudo-channels of a channel whose group loses a second lane are to be retired. -/
theorem State.laneRepair_of_second (job : .lane k c g lane ∈ s.ladder) (on : s.link k = 3) (pcs : s.channelPcs k c ≠ [])
    (out : laneOut (s.devLanes k c) g ≠ 15) (ne : laneOut (s.devLanes k c) g ≠ lane) : s.laneRepair k c g lane n
      = (s.channelPcs k c).foldl (fun t pc => t.addJob (.retire pc true)) (s.dropJobs (· = .lane k c g lane)) := by
  simp [State.laneRepair, job, on, pcs, out, ne]

theorem State.mem_foldl_addJob {α : Type} {f : α → LadderJob} {i : LadderJob} : ∀ (l : List α) (t : State),
    i ∈ (l.foldl (fun t x => t.addJob (f x)) t).ladder ↔ i ∈ t.ladder ∨ ∃ x ∈ l, i = f x
  | [], t => by simp
  | x :: l, t => by
    rw [List.foldl_cons, State.mem_foldl_addJob l, State.mem_addJob, or_assoc]
    simp

/-- What a granted repair in a group with all its lanes in service leaves, by the number of its writes. -/
theorem State.lane_three_writes {u : State} (hg : g < 9) (hl : lane < 16) :
    (∃ t, ((u.laneSteps k c g lane 3).arbDrop k 1) = t ∧ laneOut (t.devLanes k c) g = lane ∧ t.stackLanes k c = t.devLanes k c
        ∧ laneEpoch (t.devLanes k c) = nextLaneEpoch (laneEpoch (u.devLanes k c)) (laneEpoch (u.stackLanes k c))
        ∧ laneEpoch (t.devLanes k c) ≠ 0 ∧ (∀ h < 9, h ≠ g → laneOut (t.devLanes k c) h = laneOut (u.devLanes k c) h)
        ∧ .lane k c g lane ∉ t.ladder ∧ (∀ j, j ≠ 32 * k + c → tfind t.laneMaps j = tfind u.laneMaps j)) := by
  obtain ⟨maps, links, ladder⟩ := u.laneSteps_three_kept (k := k) (c := c) (g := g) (lane := lane)
  have dev : ((u.laneSteps k c g lane 3).arbDrop k 1).devLanes k c = u.repairedMap k c g lane := by
    rw [State.devLanes_of_maps ((State.arbDrop_laneMaps _ _ _).trans maps), State.devLanes_laneStep3 _ hg]
  refine ⟨_, rfl, ?_⟩
  rw [dev, State.stackLanes_of_links ((State.arbDrop_links _ _ _).trans links), State.stackLanes_laneStep2 _ hg,
    State.laneEpoch_repairedMap, State.arbDrop_laneMaps, maps, State.arbDrop_ladder, ladder]
  exact ⟨(u.laneOut_repairedMap hg hl).trans (if_pos rfl), rfl, rfl, Nat.ne_of_gt (nextLaneEpoch_range _ _).1,
    fun h hh ne => (u.laneOut_repairedMap hh hl).trans (if_neg ne), by simp, fun j hj => u.laneMaps_laneStep3_other hj⟩

theorem State.lane_one_write {u : State} (job : .lane k c g lane ∈ u.ladder) :
    ∃ t, ((u.laneSteps k c g lane 1).arbDrop k 1) = t ∧ laneEpoch (t.devLanes k c) = 0 ∧ t.stackLanes k c = u.stackLanes k c
      ∧ .lane k c g lane ∈ t.ladder := by
  refine ⟨_, rfl, ?_⟩
  rw [State.devLanes_of_maps (State.arbDrop_laneMaps _ _ _), State.stackLanes_of_links (State.arbDrop_links _ _ _),
    State.arbDrop_ladder, State.laneSteps_one, State.devLanes_laneStep1, laneEpoch_setEpoch,
    State.stackLanes_of_links u.laneStep1_links, State.laneStep1_ladder]
  exact ⟨rfl, rfl, job⟩

theorem State.lane_two_writes {u : State} (hg : g < 9) (hl : lane < 16) (job : .lane k c g lane ∈ u.ladder) :
    ∃ t, ((u.laneSteps k c g lane 2).arbDrop k 1) = t ∧ laneEpoch (t.devLanes k c) = 0 ∧ laneOut (t.stackLanes k c) g = lane
      ∧ .lane k c g lane ∈ t.ladder := by
  refine ⟨_, rfl, ?_⟩
  rw [State.devLanes_of_maps (State.arbDrop_laneMaps _ _ _), State.stackLanes_of_links (State.arbDrop_links _ _ _),
    State.arbDrop_ladder, State.laneSteps_two, State.stackLanes_laneStep2 _ hg, State.laneOut_repairedMap _ hg hl, if_pos rfl,
    State.devLanes_of_maps u.laneStep2_laneMaps, State.devLanes_laneStep1, laneEpoch_setEpoch, State.laneStep2_ladder]
  exact ⟨rfl, rfl, job⟩

theorem State.lane_notMem_retires (u : State) (pcs : List Nat) : .lane k c g lane ∉
    (pcs.foldl (fun t pc => t.addJob (.retire pc true)) (u.dropJobs (· = .lane k c g lane))).ladder := by
  rw [State.mem_foldl_addJob]
  simp [State.dropJobs]

theorem State.second_lane_follows {u : State} {pcs : List Nat} (h : s.Follows (fieldMask [.regs, .ladder, .obs, .arbs]) u) :
    s.Follows (fieldMask [.regs, .ladder, .obs, .arbs])
      ((pcs.foldl (fun t pc => t.addJob (.retire pc true)) (u.dropJobs (· = .lane k c g lane))).arbDrop k 1) :=
  have jobs : Sub 0x80000 (fieldMask [.regs, .ladder, .obs, .arbs]) := rfl
  State.arbDrop_follows _ _ (.foldl (fun _ _ h => State.addJob_follows _ h jobs) _ (State.dropJobs_follows _ h jobs)) rfl

/-- A lane repair is asked for, its stack is ONLINE with few refreshes postponed, and interpreter 3 can work. -/
def State.laneMay (s : State) (k c g lane : Nat) : Prop :=
  .lane k c g lane ∈ s.ladder ∧ s.link k = 3 ∧ s.debtOk k c = true ∧ s.i3up = true

theorem exec_laneRepair (hk : k < 8) (hc : c < 32) (hg : g < 9) (hl : lane < if g = 8 then 11 else 10) (n : Nat) (s : State) :
    exec (.laneRepair k c g lane n) s = .next (s.lanePass k c g lane n) := by
  have ok : laneOk g lane = true := by simp only [laneOk, Bool.and_eq_true, decide_eq_true_eq]; exact ⟨hg, hl⟩
  refine (?_ : onUnit (decide (k < 8 && c < 32) && laneOk g lane) _ = _)
  rw [ok, Bool.and_true]
  exact onUnit_of (by simp [hk, hc]) _

theorem State.lanePass_of_not (h : ¬ s.laneMay k c g lane) : s.lanePass k c g lane n = s := by
  unfold State.lanePass
  exact if_neg (by simpa [State.laneMay, and_assoc, and_comm, and_left_comm] using h)

theorem State.lanePass_of_may (h : s.laneMay k c g lane) :
    s.lanePass k c g lane n = s.withPort k 1 fun t => t.laneRepair k c g lane n := by
  obtain ⟨job, on, debt, up⟩ := h
  simp [State.lanePass, job, on, debt, up]

/-- A repair that has its grant finds what it was asked for. -/
theorem State.lanePass_of_owns (hk : k < 8) (hc : c < 32) (may : s.laneMay k c g lane) (owns : (s.askPort k 1).owns k 1 = true) :
    s.lanePass k c g lane n = ((s.askPort k 1).laneRepair k c g lane n).arbDrop k 1
      ∧ .lane k c g lane ∈ (s.askPort k 1).ladder ∧ (s.askPort k 1).link k = 3 ∧ (s.askPort k 1).channelPcs k c = s.channelPcs k c
      ∧ (s.askPort k 1).devLanes k c = s.devLanes k c ∧ (s.askPort k 1).stackLanes k c = s.stackLanes k c := by
  obtain ⟨job, on, -, -⟩ := id may
  refine ⟨(State.lanePass_of_may may).trans (State.withPort_of_owns owns), (s.askPort_ladder k 1).symm ▸ job,
    ((s.askPort_low k 1).link hk).trans on, ?_, State.devLanes_of_maps (s.askPort_laneMaps k 1),
    State.stackLanes_of_links (s.askPort_links k 1)⟩
  exact State.channelPcs_of_tfind hc (State.tfind_askPort_of_owns owns (Reg.retired_ne_abPrio hk))

end

end

/-! ## The statement -/

/-- Settles O53: the cases of a parity error, of a pass and of a lane repair. -/
theorem channelsAreTrained : Obligations.ChannelsAreTrained := by
  intro s k c hk hc
  refine ⟨?parity, ?pass, ?lane⟩
  case parity =>
    intro l recent
    refine ⟨fun up few => ?_, fun up many => ?_, fun down => ?_⟩
    · exact (exec_caParityError hk hc s).trans (congrArg _ (State.parityError_of_few up few))
    · have run := (exec_caParityError hk hc s).trans (congrArg _ (State.parityError_of_many up many))
      refine ⟨_, run, ?_⟩
      rw [State.linkOf_setLinkOf]
      exact ⟨bit_setBits_same _ _ _, bit_setBits_same _ _ _, tget_tput_same [] (s.linkOf k).parity c [],
        fun d hd => bit_setBits_other _ _ hd,
        fun j hj => s.linkOf_setLinkOf_other _ hj, (exec_follows _ run).only⟩
    · exact (exec_caParityError hk hc s).trans (congrArg _ (State.parityError_of_down down))
  case pass =>
    intro late waits
    refine ⟨fun cmd v bad hcmd => ?_, fun not => (exec_retrainDeferExpire hk hc s).trans (congrArg _ (State.deferExpire_of_other not)),
      s.passReady_deferOver k c⟩
    have hv : v = s ∨ v = s.deferOver k c := hcmd.imp (·.2) (·.2.2.2)
    have run : exec cmd s = .next (v.retrainPass k c bad) := by
      rcases hcmd with ⟨rfl, rfl⟩ | ⟨rfl, rfl, w, rfl⟩
      · exact exec_retrainPass hk hc bad v
      · exact (exec_retrainDeferExpire hk hc s).trans (congrArg _ (State.deferExpire_of_waits w))
    have may : mayChange cmd = [.regs, .ladder, .links, .obs, .arbs] := by
      rcases hcmd with ⟨rfl, -⟩ | ⟨rfl, -⟩ <;> rfl
    have ladder : v.ladder = s.ladder := by rcases hv with rfl | rfl <;> rfl
    have others : ∀ j, j ≠ k → v.linkOf j = s.linkOf j := fun j hj => by
      rcases hv with rfl | rfl
      · rfl
      · exact s.linkOf_setLinkOf_other _ hj
    refine ⟨fun go ready owns => ?_, fun go ready held => ?_, fun not => run.trans (congrArg _ (State.retrainPass_of_not not))⟩
    · rw [State.retrainPass_of_ready go ready] at run
      obtain ⟨link, rest, free, jobs⟩ := State.passed_effect (bad := bad) (c := c) hk owns rfl
      obtain ⟨due, parity, expired, at', last, temp⟩ := State.passedLink_fields hv
      refine ⟨_, run, ?_⟩
      rw [link]
      refine ⟨due, parity, expired, at', last, temp, ?_, fun good => ?_, fun j hj => (rest j hj).trans (others j hj), free,
        may ▸ (exec_follows cmd run).only⟩
      · rintro g x rfl ok
        rw [jobs]
        exact State.passDone_ladder_of_bad ok
      · rw [jobs, State.passDone_ladder_of_good good, State.askPort_ladder, ladder]
    · rw [State.retrainPass_of_ready go ready, State.withPort_of_held held] at run
      exact run
  case lane =>
    intro g lane hg hl may
    have exec_eq := exec_laneRepair hk hc hg hl
    have small : lane < 15 := by split at hl <;> omega
    refine ⟨fun not n => (exec_eq n s).trans (congrArg _ (State.lanePass_of_not not)), fun go held n => ?_, fun go owns pcs => ?_⟩
    · exact (exec_eq n s).trans (congrArg _ ((State.lanePass_of_may go).trans (State.withPort_of_held held)))
    have granted := fun n => State.lanePass_of_owns (n := n) hk hc go owns
    obtain ⟨-, job, on, samePcs, dev, stk⟩ := granted 0
    have ladder := s.askPort_ladder k 1
    have maps := s.askPort_laneMaps k 1
    have run : ∀ n, exec (.laneRepair k c g lane n) s = .next (((s.askPort k 1).laneRepair k c g lane n).arbDrop k 1) := fun n =>
      (exec_eq n s).trans (congrArg _ (granted n).1)
    have asked := State.askPort_follows (μ := fieldMask [.regs, .ladder, .obs, .arbs]) k 1 (.refl _ s) rfl
    generalize s.askPort k 1 = u at job on samePcs dev stk ladder maps run asked
    rw [← samePcs] at pcs
    refine ⟨fun free => ?_, fun out ne n => ?_⟩
    · rw [← dev] at free
      have steps := fun n => State.laneRepair_of_free (n := n) job on pcs free small
      simp only [steps] at run
      rw [← dev, ← stk, ← maps]
      obtain ⟨t, rfl, whole⟩ := State.lane_three_writes (c := c) (u := u) hg (by omega : lane < 16)
      obtain ⟨t, rfl, first⟩ := State.lane_one_write job
      obtain ⟨t, rfl, second⟩ := State.lane_two_writes hg (by omega : lane < 16) job
      exact ⟨⟨_, run 3, whole⟩, ⟨_, run 1, first⟩, _, run 2, second⟩
    · rw [← dev] at out ne
      refine ⟨_, run n, ?_⟩
      simp only [State.laneRepair_of_second job on pcs out ne, State.arbDrop_ladder, samePcs]
      exact ⟨State.lane_notMem_retires _ _, fun pc hpc => (State.mem_foldl_addJob _ _).mpr (.inr ⟨pc, hpc, rfl⟩),
        (State.second_lane_follows asked).only⟩

end Sys2Proof.Machine
end

