-- ==== Sys2Proof/Proofs/SelfRefresh.lean ====
section
/-! Entry into self-refresh and the way out of it (R237, R288 to R291): the time a stack takes, its state and its counts. -/
namespace Sys2Proof.Machine

/-! ## Time (R6) -/

section
variable (s : State) (n : Nat)

theorem State.tickTo_low : s.lowKept (s.tickTo n) := by
  unfold State.tickTo
  split
  · exact .refl s
  · extract_lets src s1 m s2
    have h2 : s.lowKept s2 := ((State.lowKept.of_regs rfl).trans (.ev s1 _ _ _)).trans (.ev _ _ _ _)
    split
    · exact h2
    · refine .foldl (fun u k hu => ?_) _ h2
      extract_lets v
      have hv : s.lowKept v := by
        dsimp only [v]
        split
        · exact hu.trans (.ev u _ _ _)
        · exact hu
      split
      · exact hv
      · exact hv.trans (.ev v _ _ _)

theorem State.tickTo_now : (s.tickTo n).clk.now = max s.clk.now n := by
  by_cases h : s.clk.now < n
  · rw [Nat.max_eq_right (Nat.le_of_lt h)]
    exact congrArg Clocks.now ((s.tickTo_counts h).kept .clk rfl)
  · rw [State.tickTo, if_pos (Nat.le_of_not_lt h), Nat.max_eq_left (Nat.le_of_not_lt h)]

theorem State.tick_low : s.lowKept (s.tick n) := s.tickTo_low _

theorem State.tick_adds : (s.tick n).clk.now = s.clk.now + n := by
  rw [State.tick, State.tickTo_now, Nat.max_eq_right (Nat.le_add_right _ _)]

theorem State.tickTo_kept {f : Field} (h : f ∉ [Field.clk, .regs]) : f.same s (s.tickTo n) :=
  (State.tickTo_follows (μ := fieldMask [.clk, .regs]) n (.refl _ s) rfl).kept f (fieldMask_not_mem h)

theorem State.tick_kept {f : Field} (h : f ∉ [Field.clk, .regs]) : f.same s (s.tick n) := s.tickTo_kept _ h

end

/-! ## Fields of a stack's registers -/

section
variable {s t : State} {k j : Nat}

/-- Registers of stacks at different places of their blocks never share an address. -/
theorem Reg.addr_stack_ne {r q : Reg} (hr : r.scope = .stack) (hq : q.scope = .stack) (ne : r.base % 0x10000 ≠ q.base % 0x10000)
    (k j : Nat) : r.addr [k] ≠ q.addr [j] := by
  rw [Reg.addr_stack hr, Reg.addr_stack hq]
  omega

theorem Reg.addr_stack_inj {r : Reg} (hr : r.scope = .stack) (h : j ≠ k) : r.addr [j] ≠ r.addr [k] := by
  rw [Reg.addr_stack hr, Reg.addr_stack hr]
  omega

theorem State.fget_fsat_same (s : State) (f : Fld) (ix : List Nat) (n : Nat) (h : f.lo + f.w ≤ 64) :
    (s.fsat f ix n).fget f ix = min (s.fget f ix + n) (2 ^ f.w - 1) := by
  have pos : 0 < 2 ^ f.w := Nat.two_pow_pos _
  rw [State.fsat, State.fget_fset_same _ _ _ _ h, satAdd, Nat.mod_eq_of_lt (by omega)]

theorem State.lowKept.opStat (h : s.lowKept t) : t.fget F.glOpStat_op = s.fget F.glOpStat_op := State.fget_of_tfind (h _ (by decide))

theorem State.lowKept.mclkTicks (h : s.lowKept t) : t.mclkTicks = s.mclkTicks := by
  simp only [State.mclkTicks, h.opStat]

theorem State.link_fset_state (s : State) (k v : Nat) : (s.fset F.scLinkStat_state [k] v).link k = v % 8 :=
  s.fget_fset_same _ _ _ (by decide)

theorem State.link_fset_state_other (s : State) (v : Nat) (h : j ≠ k) : (s.fset F.scLinkStat_state [k] v).link j = s.link j :=
  s.fget_fset_other v (Reg.addr_stack_inj rfl h)

theorem State.stackTemp_fset_state (s : State) (k v : Nat) : (s.fset F.scLinkStat_state [k] v).stackTemp k = s.stackTemp k := by
  exact congrArg (sInt 8) (s.fget_fset_field (f := F.scLinkStat_state) (g := F.scLinkStat_temp_c) [k] v rfl (by decide) (by decide))

/-- A field of another register of the stacks leaves LINK_STAT alone. -/
theorem State.link_fset_other (s : State) {f : Fld} (hf : f.reg.scope = .stack) (ne : f.reg.base % 0x10000 ≠ 0x0008) (v j : Nat) :
    (s.fset f [k] v).link j = s.link j :=
  s.fget_fset_other v (Reg.addr_stack_ne rfl hf (by simpa [F.scLinkStat_state, Reg.base] using ne.symm) j k)

theorem State.link_fsat_other (s : State) {f : Fld} (hf : f.reg.scope = .stack) (ne : f.reg.base % 0x10000 ≠ 0x0008) (n j : Nat) :
    (s.fsat f [k] n).link j = s.link j := s.link_fset_other hf ne _ j

theorem tget_tmap {α : Type} {d : α} {f : Nat → α → α} (hf : ∀ k, f k d = d) :
    ∀ (m : Table α) (k : Nat), tget d (tmap m f) k = f k (tget d m k)
  | [], k => (hf k).symm
  | (a, v) :: m, k => by
    by_cases h : a = k
    · subst h; simp [tget, tmap, tfind]
    · simpa [tget, tmap, tfind, h] using tget_tmap hf m k

/-! ## Entry (R288, R289) -/

theorem State.row_closeBanks (s : State) (k i b : Nat) (hi : i < 64) :
    (tget Bank.init ((s.closeBanks k).pcc (64 * k + i)).banks b).row = none := by
  rw [State.pcc, State.closeBanks, tget_tmap (fun pc => by split <;> rfl), if_pos (by omega), tget_tmap (fun _ => rfl)]

/-- The link of a stack that has entered self-refresh. -/
def State.restedLink (s : State) (k : Nat) : Link :=
  { s.linkOf k with due := 0, parityDue := 0, expired := 0, srefAt := s.clk.now, srefTemp := s.stackTemp k }

theorem State.enterSref_eq (s : State) (k : Nat) : s.enterSref k
    = ((((s.closeBanks k).fset F.scLinkStat_state [k] 4).setLinkOf k (s.restedLink k)).fsat F.scSrefStat_entries [k] 1).ev 0x301 k 1 := by
  unfold State.enterSref
  extract_lets s1
  have temp : s1.stackTemp k = s.stackTemp k := (s.closeBanks k).stackTemp_fset_state k 4
  rw [temp]
  rfl

theorem State.linkOf_enterSref (s : State) (k : Nat) : (s.enterSref k).linkOf = (s.setLinkOf k (s.restedLink k)).linkOf :=
  State.linkOf_of_links (by rw [State.enterSref_eq]; exact State.ev_kept _ _ _ _ (f := .links) (by decide))

theorem State.pccs_enterSref (s : State) (k : Nat) : (s.enterSref k).pccs = (s.closeBanks k).pccs := by
  rw [State.enterSref_eq]
  exact State.ev_kept _ _ _ _ (f := .pccs) (by decide)

theorem State.link_enterSref_eq (s : State) (k : Nat) {j : Nat} (hj : j < 8) :
    (s.enterSref k).link j = ((s.closeBanks k).fset F.scLinkStat_state [k] 4).link j := by
  rw [State.enterSref_eq, (State.lowKept.ev _ _ _ _).link hj, State.link_fsat_other _ rfl (by decide)]
  rfl

theorem State.link_enterSref (s : State) (hk : k < 8) : (s.enterSref k).link k = 4 :=
  (s.link_enterSref_eq k hk).trans (State.link_fset_state _ _ _)

theorem State.entries_enterSref (s : State) (hk : k < 8) : (s.enterSref k).fget F.scSrefStat_entries [k]
    = min (s.fget F.scSrefStat_entries [k] + 1) (2 ^ 32 - 1) := by
  rw [State.enterSref_eq, (State.lowKept.ev _ _ _ _).fget rfl hk, State.fget_fsat_same _ _ _ _ (by decide)]
  have kept : ((s.closeBanks k).fset F.scLinkStat_state [k] 4).fget F.scSrefStat_entries [k] = s.fget F.scSrefStat_entries [k] :=
    State.fget_fset_other (s.closeBanks k) 4 (Reg.addr_stack_ne rfl rfl (by decide) k k)
  exact congrArg (fun x => min (x + 1) (2 ^ 32 - 1)) kept

theorem exec_srefEntry (hk : k < 8) (s : State) : exec (.srefEntry k) s = .next (s.srefEntry k (match (s.arb k).owner with
    | some j => decide (j ≠ 0)
    | none => false)) := onUnit_of hk _

theorem State.otherGrant_iff (s : State) (k : Nat) : (match (s.arb k).owner with
    | some j => decide (j ≠ 0)
    | none => false) = true ↔ ∃ j, (s.arb k).owner = some j ∧ j ≠ 0 := by
  cases (s.arb k).owner <;> simp

/-- The stack may enter self-refresh: it is enabled, ONLINE and idle, and its port is free or read for the temperature. -/
def State.srefMay (s : State) (k : Nat) : Prop :=
  s.fget F.scSrefCfg_en [k] = 1 ∧ s.link k = 3 ∧ s.quiet k = true ∧ ¬ ∃ j, (s.arb k).owner = some j ∧ j ≠ 0

theorem State.srefEn_lt (s : State) (k : Nat) : s.fget F.scSrefCfg_en [k] < 2 := Nat.mod_lt _ (by decide)

theorem exec_srefEntry_of_may (hk : k < 8) (may : s.srefMay k) : exec (.srefEntry k) s
    = .next (if s.waitsFor k then (s.closeBanks k).fsat F.scSrefStat_cancels [k] 1 else s.enterSref k) := by
  obtain ⟨en, on, quiet, free⟩ := may
  rw [exec_srefEntry hk, State.srefEntry, if_neg]
  rw [← State.otherGrant_iff] at free
  simp only [en, on, quiet, Bool.eq_false_iff.mpr free]
  decide

theorem exec_srefEntry_of_not (hk : k < 8) (not : ¬ s.srefMay k) : exec (.srefEntry k) s = .next s := by
  rw [exec_srefEntry hk, State.srefEntry, if_pos]
  by_contra h
  refine not ?_
  have lt := s.srefEn_lt k
  simp only [Bool.or_eq_true, decide_eq_true_eq, Bool.not_eq_true', not_or, Bool.not_eq_false, not_not] at h
  obtain ⟨⟨⟨en, on⟩, quiet⟩, free⟩ := h
  exact ⟨by omega, on, quiet, fun held => free ((s.otherGrant_iff k).mpr held)⟩

/-! ## Exit (R290, R291) -/

/-- The time of the exit: the shortest stay, then the steps of the exit. -/
def State.exitTime (s : State) (k : Nat) : State :=
  let op0 := s.fget F.glOpStat_op = 0
  let s1 := s.tickTo ((tget Link.init s.links k).srefAt + (if op0 then 1650 else 1238) * s.mclkTicks)
  s1.tick ((if op0 then 660 else 496) * s1.mclkTicks)

/-- The stack with the time of its exit over, ONLINE with new periods and no open bank. -/
def State.awake (s : State) (k : Nat) : State :=
  let s2 := ((s.exitTime k).fset F.scLinkStat_state [k] 3).restartPeriods k
  { s2 with pccs := tmap s2.pccs fun pc p => if pc / 64 = k then { p with banks := [] } else p }

theorem State.wake_of_not (h : s.link k ≠ 4) : s.wake k = s := if_pos h

theorem State.wake_of_sref (h : s.link k = 4) : s.wake k = if s.srefDrift k then (s.awake k).exitPass k else s.awake k :=
  if_neg (not_not.mpr h)

theorem State.exitTime_low (s : State) (k : Nat) : s.lowKept (s.exitTime k) := (s.tickTo_low _).trans (State.tick_low _ _)

theorem State.exitTime_now (s : State) (k : Nat) : (s.exitTime k).clk.now
    = max s.clk.now ((s.linkOf k).srefAt + (if s.fget F.glOpStat_op = 0 then 1650 else 1238) * s.mclkTicks)
      + (if s.fget F.glOpStat_op = 0 then 660 else 496) * s.mclkTicks := by
  unfold State.exitTime
  extract_lets op0 s1
  have ticks : s1.mclkTicks = s.mclkTicks := (s.tickTo_low _).mclkTicks
  rw [State.tick_adds, ticks, State.tickTo_now]
  rfl

theorem State.awake_kept (s : State) (k : Nat) {f : Field} (h : f ∉ [Field.links, .pccs]) :
    f.same ((s.exitTime k).fset F.scLinkStat_state [k] 3) (s.awake k) :=
  (State.Follows.set_pccs (m := fieldMask [.links, .pccs]) (State.restartPeriods_follows k (.refl _ _) rfl) rfl).kept f
    (fieldMask_not_mem h)

theorem State.tfind_awake (s : State) (k a : Nat) :
    tfind (s.awake k).regs a = tfind ((s.exitTime k).fset F.scLinkStat_state [k] 3).regs a :=
  congrArg (tfind · a) (s.awake_kept k (f := .regs) (by decide))

theorem State.link_awake (s : State) (k : Nat) : (s.awake k).link k = 3 :=
  (State.fget_of_tfind (s.tfind_awake k _)).trans (State.link_fset_state _ k 3)

theorem State.awake_retrains (s : State) (hk : k < 8) :
    (s.awake k).fget F.scSrefStat_retrains [k] = s.fget F.scSrefStat_retrains [k] := by
  refine (State.fget_of_tfind (s.tfind_awake k _)).trans ?_
  rw [State.fget_fset_other _ 3 (Reg.addr_stack_ne rfl rfl (by decide) k k), (s.exitTime_low k).fget rfl hk]

theorem State.awake_now (s : State) (k : Nat) : (s.awake k).clk.now = (s.exitTime k).clk.now := by
  have kept : (s.awake k).clk = ((s.exitTime k).fset F.scLinkStat_state [k] 3).clk := s.awake_kept k (f := .clk) (by decide)
  rw [kept, State.fset_clk]

theorem State.awake_arbs (s : State) (k : Nat) : (s.awake k).arbs = s.arbs := by
  have kept : (s.awake k).arbs = ((s.exitTime k).fset F.scLinkStat_state [k] 3).arbs := s.awake_kept k (f := .arbs) (by decide)
  rw [kept, State.fset_arbs]
  exact (State.tick_kept _ _ (f := .arbs) (by decide)).trans (s.tickTo_kept _ (f := .arbs) (by decide))

theorem State.exitPass_clk (s : State) (k : Nat) : (s.exitPass k).clk = s.clk :=
  (State.exitPass_follows (μ := 0x280000100002) k (.refl _ s) rfl).kept .clk rfl

/-- A pass at the exit touches no register of a stack but its count of passes. -/
theorem State.exitPass_link (s : State) (hk : k < 8) : (s.exitPass k).link k = s.link k := by
  have asked := s.askPort_low k 1
  unfold State.exitPass
  extract_lets t
  split
  · rw [(State.arbDrop_low _ k 1).link hk, (State.lowKept.ev _ _ _ _).link hk, State.link_fsat_other _ rfl (by decide)]
    exact asked.link hk
  · exact asked.link hk

theorem State.exitPass_retrains (s : State) (hk : k < 8) (held : s.owns k 1 = true) :
    (s.exitPass k).fget F.scSrefStat_retrains [k] = min (s.fget F.scSrefStat_retrains [k] + 1) 65535 := by
  have asked : s.askPort k 1 = s := if_pos held
  unfold State.exitPass
  rw [asked, if_pos held, (State.arbDrop_low _ k 1).fget rfl hk, (State.lowKept.ev _ _ _ _).fget rfl hk,
    State.fget_fsat_same _ _ _ _ (by decide)]
  rfl

theorem State.link_wake (hk : k < 8) (h : s.link k = 4) : (s.wake k).link k = 3 := by
  rw [State.wake_of_sref h]
  split
  · rw [State.exitPass_link _ hk, State.link_awake]
  · exact s.link_awake k

theorem State.wake_now (h : s.link k = 4) : (s.wake k).clk.now = (s.awake k).clk.now := by
  rw [State.wake_of_sref h]
  split
  · rw [State.exitPass_clk]
  · rfl

theorem State.wake_now_op0 (h : s.link k = 4) (op : s.fget F.glOpStat_op = 0) :
    (s.wake k).clk.now = max s.clk.now ((s.linkOf k).srefAt + 1650 * 6) + 660 * 6 := by
  rw [State.wake_now h, State.awake_now, State.exitTime_now, State.mclkTicks, if_pos op, if_pos op, if_pos op]

theorem State.wake_now_op1 (h : s.link k = 4) (op : s.fget F.glOpStat_op = 1) :
    (s.wake k).clk.now = max s.clk.now ((s.linkOf k).srefAt + 1238 * 8) + 496 * 8 := by
  have ne : ¬ s.fget F.glOpStat_op = 0 := by omega
  rw [State.wake_now h, State.awake_now, State.exitTime_now, State.mclkTicks, if_neg ne, if_neg ne, if_neg ne]

theorem State.wake_retrains_of_drift (hk : k < 8) (h : s.link k = 4) (drift : s.srefDrift k = true) (held : s.owns k 1 = true) :
    (s.wake k).fget F.scSrefStat_retrains [k] ≠ 0 := by
  have held' : (s.awake k).owns k 1 = true := by
    rw [State.owns, State.arb_of_arbs (s.awake_arbs k)]; exact held
  rw [State.wake_of_sref h, if_pos drift, State.exitPass_retrains _ hk held']
  omega

theorem State.wake_retrains_of_still (hk : k < 8) (h : s.link k = 4) (still : s.srefDrift k = false) :
    (s.wake k).fget F.scSrefStat_retrains [k] = s.fget F.scSrefStat_retrains [k] := by
  rw [State.wake_of_sref h, still]
  exact s.awake_retrains hk

theorem exec_srefExit (hk : k < 8) (s : State) : exec (.srefExit k) s = .next (s.srefExit k) := onUnit_of hk _

/-- A request or the debug port wants the stack out of self-refresh. -/
def State.exitWanted (s : State) (k : Nat) : Prop := s.link k = 4 ∧ (s.waitsFor k = true ∨ s.debugWants k = true)

theorem State.srefExit_of_not (h : ¬ s.exitWanted k) : s.srefExit k = s := by
  refine if_pos ?_
  by_contra no
  refine h ?_
  simpa [State.exitWanted, or_iff_not_imp_left] using no

theorem State.srefExit_of_wanted (h : s.exitWanted k) :
    s.srefExit k = if s.srefDrift k && !(s.askPort k 1).owns k 1 then s.askPort k 1 else s.wake k := by
  refine if_neg ?_
  obtain ⟨on, want⟩ := h
  simpa [on, or_iff_not_imp_left] using want

end

end Sys2Proof.Machine
end

