-- ==== Sys2Proof/Proofs/Posts.lean ====
section
/-! What the package shows of its stacks, the words of LINK_STAT and of PK_INT: accesses that meet no stack in self-refresh, the end of
requests and the errors of the memory leave them as they are. -/
namespace Sys2Proof.Machine

/-- The words of LINK_STAT of the eight stacks, and the word of PK_INT. -/
def State.posts (s : State) : (Fin 8 → Option Word) × Option Word :=
  (fun j => tfind s.regs (Reg.scLinkStat.addr [j]), tfind s.regs (Reg.pkInt.addr []))

section
variable {s t : State}

theorem State.posts_of_regs (h : t.regs = s.regs) : t.posts = s.posts := by
  simp only [State.posts, h]

theorem State.posts_of_tfind (h : ∀ j < 8, tfind t.regs (Reg.scLinkStat.addr [j]) = tfind s.regs (Reg.scLinkStat.addr [j]))
    (hp : tfind t.regs (Reg.pkInt.addr []) = tfind s.regs (Reg.pkInt.addr [])) : t.posts = s.posts :=
  Prod.ext (funext fun j => h j j.isLt) hp

/-- An operation whose law names no register. -/
theorem State.posts_of_follows {m : Nat} (h : s.Follows m t) (hr : m.testBit 1 = false) : t.posts = s.posts :=
  State.posts_of_regs (h.kept .regs hr)

theorem State.posts_fst {α : Type} {p : State × α} {x : α} (e : p = (t, x)) (h : p.1.posts = s.posts) : t.posts = s.posts := by
  subst e; exact h

theorem State.posts_foldl {α : Type} {f : State → α → State} (hf : ∀ t x, (f t x).posts = t.posts) :
    ∀ (l : List α) (s : State), (l.foldl f s).posts = s.posts
  | [], _ => rfl
  | x :: l, s => (State.posts_foldl hf l (f s x)).trans (hf s x)

theorem State.posts_ite {c : Prop} [Decidable c] {x y : State} (hx : x.posts = s.posts) (hy : y.posts = s.posts) :
    (if c then x else y).posts = s.posts := by
  split <;> assumption

theorem State.tfind_of_posts (h : t.posts = s.posts) {j : Nat} (hj : j < 8) :
    tfind t.regs (Reg.scLinkStat.addr [j]) = tfind s.regs (Reg.scLinkStat.addr [j]) :=
  congrFun (congrArg Prod.fst h) (⟨j, hj⟩ : Fin 8)

/-- What the posts say of a stack. -/
theorem State.fget_of_posts (h : t.posts = s.posts) {f : Fld} (hf : f.reg = .scLinkStat) {k : Nat} (hk : k < 8) :
    t.fget f [k] = s.fget f [k] :=
  State.fget_of_tfind (hf ▸ State.tfind_of_posts h hk)

theorem State.link_of_posts (h : t.posts = s.posts) {k : Nat} (hk : k < 8) : t.link k = s.link k := State.fget_of_posts h rfl hk

theorem State.stackUp_of_posts (h : t.posts = s.posts) {k : Nat} (hk : k < 8) : t.stackUp k = s.stackUp k := by
  simp only [State.stackUp, State.link_of_posts h hk]

theorem State.pkInt_of_posts (h : t.posts = s.posts) {f : Fld} (hf : f.reg = .pkInt) : t.fget f = s.fget f :=
  State.fget_of_tfind (hf ▸ congrArg Prod.snd h)

end

/-! ## Registers -/

/-- A family none of whose registers, at any index, lies at the offset of a LINK_STAT or of PK_INT. -/
def Reg.clearOfPosts (r : Reg) : Bool :=
  decide (0x580068 < r.base)
    || (decide (r.base % 256 ≠ 0x08 ∧ r.base % 256 ≠ 0x68) && r.dims.all fun e => decide (e.2 % 256 = 0))

theorem Reg.addr_of_clear {r : Reg} (h : r.clearOfPosts = true) (ix : List Nat) :
    0x580068 < r.addr ix ∨ (r.addr ix % 256 ≠ 0x08 ∧ r.addr ix % 256 ≠ 0x68) := by
  have e : r.addr ix = r.base + ((ix.zip r.dims).map fun e => e.1 * e.2.2).sum := by rw [Reg.addr, sumBy_eq_sum]
  simp only [Reg.clearOfPosts, Bool.or_eq_true, Bool.and_eq_true, decide_eq_true_eq, List.all_eq_true] at h
  rcases h with above | ⟨clear, strides⟩
  · omega
  · have whole : 256 ∣ ((ix.zip r.dims).map fun e => e.1 * e.2.2).sum := by
      refine List.dvd_sum fun x hx => ?_
      obtain ⟨⟨i, n, st⟩, he, rfl⟩ := List.mem_map.mp hx
      exact Dvd.dvd.mul_left (Nat.dvd_of_mod_eq_zero (strides (n, st) (List.of_mem_zip he).2)) i
    omega

theorem Reg.addr_scLinkStat (j : Nat) : Reg.scLinkStat.addr [j] = 0x10008 + j * 0x10000 := Reg.addr_stack rfl j

theorem Reg.addr_ne_linkStat {r : Reg} (h : r.clearOfPosts = true) (ix : List Nat) {j : Nat} (hj : j < 8) :
    Reg.scLinkStat.addr [j] ≠ r.addr ix := by
  have := Reg.addr_of_clear h ix
  rw [Reg.addr_scLinkStat]
  omega

theorem Reg.addr_ne_pkInt {r : Reg} (h : r.clearOfPosts = true) (ix : List Nat) : Reg.pkInt.addr [] ≠ r.addr ix := by
  have pk : Reg.pkInt.addr [] = 0x580068 := rfl
  have := Reg.addr_of_clear h ix
  omega

section
variable (s : State)

theorem State.posts_rput {r : Reg} (h : r.clearOfPosts = true) (ix : List Nat) (w : Word) : (s.rput r ix w).posts = s.posts :=
  State.posts_of_tfind (fun _ hj => s.tfind_rput_other w (Reg.addr_ne_linkStat h ix hj)) (s.tfind_rput_other w (Reg.addr_ne_pkInt h ix))

theorem State.posts_fset {f : Fld} (h : f.reg.clearOfPosts = true) (ix : List Nat) (v : Nat) : (s.fset f ix v).posts = s.posts :=
  s.posts_rput h ix _

theorem State.posts_fsat {f : Fld} (h : f.reg.clearOfPosts = true) (ix : List Nat) (n : Nat) : (s.fsat f ix n).posts = s.posts :=
  s.posts_fset h ix _

theorem State.posts_fadd {f : Fld} (h : f.reg.clearOfPosts = true) (ix : List Nat) (n : Nat) : (s.fadd f ix n).posts = s.posts :=
  s.posts_fset h ix _

/-- A flag raised with the fields that a first error captures in the same register. -/
theorem State.posts_raise {f : Fld} (h : f.reg.clearOfPosts = true) (n : Nat) (ix : List Nat) {firsts : List (Fld × Nat)}
    (hl : ∀ e ∈ firsts, e.1.reg = f.reg) : (s.raise n f ix firsts).posts = s.posts :=
  State.posts_of_tfind
    (fun _ hj => s.tfind_raise_other (Reg.addr_ne_linkStat h ix hj) fun e he => hl e he ▸ Reg.addr_ne_linkStat h ix hj)
    (s.tfind_raise_other (Reg.addr_ne_pkInt h ix) fun e he => hl e he ▸ Reg.addr_ne_pkInt h ix)

@[simp] theorem State.posts_pmcAdd (i n : Nat) : (s.pmcAdd i n).posts = s.posts := by
  unfold State.pmcAdd
  refine State.posts_ite (s.posts_fset rfl _ _) ?_
  rw [State.posts_raise _ rfl _ _ (by simp [F.obInt_first_src, F.obInt_pmc_ovf]), State.posts_rput _ rfl, State.posts_fset _ rfl]

@[simp] theorem State.posts_ev (code inst n : Nat) : (s.ev code inst n).posts = s.posts := by
  unfold State.ev
  refine State.posts_ite rfl (State.posts_foldl (fun t i => ?_) _ _)
  exact State.posts_ite (t.posts_pmcAdd i n) rfl

@[simp] theorem State.posts_log (ty : RecTy) (src sub a0 a1 : Nat) : (s.log ty src sub a0 a1).posts = s.posts :=
  State.posts_of_tfind (fun _ hj => s.tfind_log_other _ _ _ _ _ (Reg.addr_ne_linkStat rfl [] hj))
    (s.tfind_log_other _ _ _ _ _ (Reg.addr_ne_pkInt rfl []))

/-! ## Segments and the answer to a request -/

@[simp] theorem State.posts_setSeg (n : Nat) (e : SegEnt) : (s.setSeg n e).posts = s.posts := by
  unfold State.setSeg
  exact State.posts_ite (State.posts_of_regs rfl)
    ((State.posts_raise _ rfl _ _ (by simp [F.trErr_first_seg, F.trErr_backing])).trans (State.posts_of_regs rfl))

@[simp] theorem State.posts_dropSeg (n : Nat) : (s.dropSeg n).posts = s.posts := s.posts_setSeg _ _

@[simp] theorem State.posts_portErr (n : Nat) (st : PStatus) (tag kind : Nat) : (s.portErr n st tag kind).posts = s.posts := by
  have firsts : ∀ e ∈ [(F.glPortErr_first_tag, tag), (F.glPortErr_first_kind, kind)], e.1.reg = .glPortErr := by
    simp [F.glPortErr_first_tag, F.glPortErr_first_kind]
  cases st with
  | malformed | unsupported | denied | unmapped | farErr => exact State.posts_raise _ rfl _ _ firsts
  | ok | poisoned | retry | unavailable | poisonMerge => rfl

@[simp] theorem State.posts_lateErr (n : Nat) (r : PortReq) : (s.lateErr n r).posts = s.posts :=
  State.posts_foldl (fun t _ => State.posts_ite (t.posts_portErr _ _ _ _) rfl) _ _

@[simp] theorem State.posts_setPort (n : Nat) (p : Port) : (s.setPort n p).posts = s.posts := rfl
@[simp] theorem State.posts_setReq (n : Nat) (r : PortReq) : (s.setReq n r).posts = s.posts := rfl
@[simp] theorem State.posts_setPcc (pc : Nat) (p : Pcc) : (s.setPcc pc p).posts = s.posts := rfl
@[simp] theorem State.posts_storeSector (p : Place) (h : Nat) (poison : Bool) (d : SectorData) :
    (s.storeSector p h poison d).posts = s.posts := rfl

@[simp] theorem State.posts_fillFailed (l : List (PStatus × Granule)) : (s.fillFailed l).1.posts = s.posts :=
  State.posts_of_follows (State.fillFailed_follows (μ := 0x10) l (.refl _ s) rfl) rfl

@[simp] theorem State.posts_addJob (j : LadderJob) : (s.addJob j).posts = s.posts :=
  State.posts_of_follows (State.addJob_follows (μ := 0x80000) j (.refl _ s) rfl) rfl

@[simp] theorem State.posts_laneJob (pc k : Nat) : (s.laneJob pc k).posts = s.posts :=
  State.posts_of_follows (State.laneJob_follows (μ := 0x80000) pc k (.refl _ s) rfl) rfl

@[simp] theorem State.posts_writeBack (pl : Place) (seq h : Nat) (poison : Bool) (d : SectorData) :
    (s.writeBack pl seq h poison d).posts = s.posts :=
  State.posts_of_follows (State.writeBack_follows (μ := 0x400) pl seq h poison d (.refl _ s) rfl) rfl

@[simp] theorem State.posts_mateWrite (pl : Place) (f : Ent → Option Ent) : (s.mateWrite pl f).posts = s.posts :=
  State.posts_of_follows (State.mateWrite_follows (μ := 0x400) pl f (.refl _ s) rfl) rfl

@[simp] theorem State.posts_groupSample (root pc x : Nat) : (s.groupSample root pc x).posts = s.posts :=
  State.posts_of_follows (State.groupSample_follows (μ := 0x80000000000) root pc x (.refl _ s) rfl) rfl

@[simp] theorem State.posts_forceWrite (pc : Nat) (e : Ent) : (s.forceWrite pc e).posts = s.posts :=
  State.posts_of_follows (State.forceWrite_follows (μ := 0xc00) pc e (.refl _ s) rfl) rfl

@[simp] theorem State.posts_forceBacks (pc seq : Nat) : (s.forceBacks pc seq).posts = s.posts :=
  State.posts_of_follows (State.forceBacks_follows (μ := 0xc00) pc seq (.refl _ s) rfl) rfl

@[simp] theorem State.posts_answer (n : Nat) (r : PortReq) : (s.answer n r).posts = s.posts := by
  have late := s.posts_lateErr n r
  unfold State.answer
  generalize s.lateErr n r = u at late ⊢
  extract_lets u' mk out p
  have ended : ∀ (t : State) (f : Frame), t.posts = s.posts → (out t f).posts = s.posts := fun t f h => (t.posts_setPort n _).trans h
  have filled : ∀ (t : State) (l : List (PStatus × Granule)) (f : Frame), t.posts = s.posts →
      (out (t.fillFailed l).1 f).posts = s.posts := fun t l f h => ended _ f ((t.posts_fillFailed l).trans h)
  split
  · split
    · exact filled u _ _ late
    · extract_lets loc s1
      have h1 : s1.posts = s.posts := State.posts_ite ((u.posts_dropSeg _).trans late) late
      clear_value s1
      split
      · exact filled s1 _ _ h1
      next tr _ _ =>
        have saturated := (s1.posts_raise (f := F.trErr_sat) rfl 4 [] (firsts := [(F.trErr_first_seg, tr.seg)])
          (by simp [F.trErr_first_seg, F.trErr_sat])).trans h1
        exact filled _ _ _ ((State.posts_ev _ _ _ _).trans (State.posts_ite saturated h1))
  · split <;> exact ended _ _ late
  · exact ended _ _ late

@[simp] theorem State.posts_sweep (n id : Nat) : (s.sweep n id).posts = s.posts := by
  unfold State.sweep
  split
  · rfl
  · exact State.posts_ite (s.posts_answer _ _) rfl

@[simp] theorem State.posts_setPart (n id i : Nat) (f : Part → Part) : (s.setPart n id i f).posts = s.posts := by
  unfold State.setPart
  split
  · rfl
  · exact (State.posts_sweep _ n id).trans (s.posts_setReq n _)

@[simp] theorem State.posts_deliver (src : Src) (st : PStatus) (info : Nat) (d : Granule) :
    (s.deliver src st info d).posts = s.posts := by
  cases src with
  | part n id i => exact s.posts_setPart n id i _
  | none => rfl

@[simp] theorem State.posts_mergeOutcome (src : Src) (refused : Bool) : (s.mergeOutcome src refused).posts = s.posts := by
  unfold State.mergeOutcome
  split
  · exact s.posts_setPart _ _ _ _
  · rfl

/-! ## Errors of the memory -/

@[simp] theorem State.posts_bucketFull (pc a : Nat) : (s.bucketFull pc a).posts = s.posts := by
  unfold State.bucketFull
  extract_lets st p at' s1 s2
  have h2 : s2.posts = s.posts := by
    rw [State.posts_log, State.posts_raise _ rfl _ _ (by simp [F.scEccInt_ce_ovf, F.scEccInt_first_pc]), State.posts_fsat _ rfl,
      State.posts_setPcc]
  exact State.posts_ite ((s2.posts_addJob _).trans h2) h2

@[simp] theorem State.posts_countUe (pc a : Nat) : (s.countUe pc a).posts = s.posts := by
  unfold State.countUe
  rw [State.posts_addJob, State.posts_log, State.posts_raise _ rfl _ _ (by simp [F.scEccInt_ue, F.scEccInt_first_pc]),
    State.posts_ev, State.posts_fsat _ rfl]

@[simp] theorem State.posts_countCe (pc a : Nat) (n : Option Nat) : (s.countCe pc a n).posts = s.posts := by
  unfold State.countCe
  extract_lets st p row bank p1 s1 t s2 s3 s4
  have h1 : s1.posts = s.posts := by rw [State.posts_ev, State.posts_fadd _ rfl, State.posts_setPcc]
  have h2 : s2.posts = s.posts := Eq.trans (State.posts_of_regs (s := s1) (t := s2) rfl) h1
  clear_value s2
  have h3 : s3.posts = s.posts := by
    cases n with
    | some k => exact (s2.posts_laneJob pc k).trans h2
    | none => exact h2
  clear_value s3
  have h4 : s4.posts = s.posts := State.posts_ite ((s3.posts_addJob _).trans h3) h3
  exact State.posts_ite ((s4.posts_bucketFull pc a).trans h4) h4

@[simp] theorem State.posts_partnerTake (pl : Place) (h : Nat) : (s.partnerTake pl h).1.posts = s.posts := by
  unfold State.partnerTake
  split
  · rfl
  · split
    · rfl
    · extract_lets a
      split
      · exact (apply_ite (fun t : State => t.posts) _ _ _).trans (by split <;> simp)
      · rfl

/-! ## Entries of a pseudo-channel -/

@[simp] theorem State.posts_entDone (pc : Nat) (e : Ent) : (s.entDone pc e).posts = s.posts := by
  unfold State.entDone
  extract_lets p rq'
  split
  · simp
  · split <;> simp

@[simp] theorem State.posts_mergeFree (pc : Nat) (m : MgEnt) : (s.mergeFree pc m).posts = s.posts :=
  (State.posts_foldl (fun t src => t.posts_mergeOutcome src _) _ _).trans (s.posts_setPcc _ _)

@[simp] theorem State.posts_mergeToWb (pc : Nat) (m : MgEnt) : (s.mergeToWb pc m).posts = s.posts :=
  State.posts_ite (s.posts_mergeFree _ _) (s.posts_setPcc _ _)

@[simp] theorem State.posts_mergeRelease (pc : Nat) (m : MgEnt) : (s.mergeRelease pc m).posts = s.posts :=
  State.posts_ite (s.posts_mergeToWb _ _) (s.posts_setPcc _ _)

@[simp] theorem State.posts_mergeSector (pc seq h : Nat) (d : Option SectorData) : (s.mergeSector pc seq h d).posts = s.posts := by
  unfold State.mergeSector
  split
  · rfl
  · extract_lets hm m1 m2 p s1
    exact State.posts_ite (s1.posts_mergeToWb _ _) rfl

@[simp] theorem State.posts_entSector (pc seq h : Nat) (d : Option SectorData) : (s.entSector pc seq h d).posts = s.posts := by
  unfold State.entSector
  split
  · rfl
  · extract_lets e1 e2 p s1
    exact State.posts_ite (s1.posts_entDone _ _) rfl

@[simp] theorem State.posts_sectorTo (pc : Nat) (u : RetFor) (h : Nat) (d : Option SectorData) : (s.sectorTo pc u h d).posts = s.posts := by
  cases u with
  | ent q => exact s.posts_entSector _ _ _ _
  | merge q => exact s.posts_mergeSector _ _ _ _

/-- What a sector that does not decode counts: an uncorrectable error or a read of poison. -/
theorem State.posts_countBad (c : Prop) [Decidable c] (pc a k i : Nat) :
    (if c then s.countUe pc a else s.fsat F.pcEccCnt_poison_rd [k, i] 1).posts = s.posts :=
  State.posts_ite (s.posts_countUe _ _) (s.posts_fsat rfl _ _)

@[simp] theorem State.posts_sectorBack (u : RetFor) (pl : Place) (h : Nat) (raw : List Byte) (second : Bool) :
    (s.sectorBack u pl h raw second).posts = s.posts := by
  unfold State.sectorBack
  extract_lets pc a
  split
  extract_lets good
  split
  · exact s.posts_sectorTo _ _ _ _
  · exact (State.posts_sectorTo _ _ _ _ _).trans (s.posts_countCe _ _ _)
  · extract_lets isUe s0
    have h0 : s0.posts = s.posts := s.posts_countBad _ _ _ _ _
    split
    next s1 _ e =>
      have h1 := State.posts_fst e ((s0.posts_partnerTake pl h).trans h0)
      rw [State.posts_sectorTo, State.posts_writeBack, State.posts_fadd _ rfl, h1]
    next s1 e =>
      have h1 := State.posts_fst e ((s0.posts_partnerTake pl h).trans h0)
      exact (State.posts_sectorTo _ _ _ _ _).trans (State.posts_ite ((s1.posts_writeBack _ _ _ _ _).trans h1) h1)

@[simp] theorem State.posts_rereadBack (u : RetFor) (pl : Place) (h : Nat) (raw : List Byte) :
    (s.rereadBack u pl h raw).posts = s.posts := by
  unfold State.rereadBack
  extract_lets a
  split <;> simp

@[simp] theorem State.posts_sectorNow (u : RetFor) (pl : Place) (h : Nat) (raw : List Byte) : (s.sectorNow u pl h raw).posts = s.posts :=
  State.posts_ite (s.posts_rereadBack _ _ _ _) (s.posts_sectorBack _ _ _ _ _)

@[simp] theorem State.posts_returnNow (r : Ret) : (s.returnNow r).posts = s.posts :=
  State.posts_ite (s.posts_rereadBack _ _ _ _) (s.posts_sectorNow _ _ _ _)

@[simp] theorem State.posts_issueMerge (pc seq h : Nat) : (s.issueMerge pc seq h).posts = s.posts := by
  unfold State.issueMerge
  split
  · rfl
  · exact State.posts_ite (State.posts_mergeFree _ _ _) rfl

/-! ## Queued work carried out at once -/

@[simp] theorem State.posts_forceRead (pc : Nat) (e : Ent) : (s.forceRead pc e).posts = s.posts :=
  (State.posts_foldl (fun t _ => (State.posts_sectorNow _ _ _ _ _).trans (t.posts_setPcc _ _)) _ _).trans
    ((State.posts_foldl State.posts_returnNow _ _).trans (s.posts_setPcc _ _))

@[simp] theorem State.posts_forceMerge (pc : Nat) (m : MgEnt) : (s.forceMerge pc m).posts = s.posts := by
  unfold State.forceMerge
  extract_lets p rets s0 s1 s2 s3
  have h1 : s1.posts = s.posts := State.posts_ite (s0.posts_mergeRelease _ _) (State.posts_foldl State.posts_returnNow _ _)
  have h2 : s2.posts = s.posts := by
    clear_value s1
    unfold s2
    split
    · exact h1
    · exact (State.posts_foldl (fun t _ => (State.posts_sectorNow _ _ _ _ _).trans (t.posts_setPcc _ _)) _ _).trans h1
  have h3 : s3.posts = s.posts := (s2.posts_forceBacks _ _).trans h2
  clear_value s3
  split
  · exact h3
  · exact (State.posts_foldl (fun t _ => t.posts_issueMerge _ _ _) _ _).trans h3

@[simp] theorem State.posts_settle (fuel : Nat) : ∀ (s : State) (pc : Nat) (t : Place → Bool),
    (s.settle pc t fuel).posts = s.posts := by
  induction fuel with
  | zero => exact fun s _ _ => rfl
  | succ fuel ih =>
    intro s pc t
    unfold State.settle
    split
    · rfl
    · exact (ih _ _ _).trans (s.posts_forceRead _ _)
    · split
      · exact (ih _ _ _).trans (ih _ _ _)
      · exact (ih _ _ _).trans (s.posts_forceWrite _ _)
    · exact (ih _ _ _).trans (s.posts_forceMerge _ _)

@[simp] theorem State.posts_drainPcc (pc : Nat) : (s.drainPcc pc).posts = s.posts := State.posts_settle _ _ _ _

end

end Sys2Proof.Machine
end

