-- ==== Sys2Proof/Proofs/RetrainPackets.lean ====
section
/-! RETRAIN (R249): the packet as its interpreter takes it, the passes of a scope and the lane test before a pass. -/
namespace Sys2Proof.Machine

/-! ## A firmware packet that is taken -/

section
variable {s t : State} {id op : Nat} {p : Packet}

theorem State.takeFw_some (h : s.takeFw id op = some (t, p)) :
    p.opcode = op ∧ t.regs = s.regs ∧ t.packets = tset s.packets p.id p := by
  unfold State.takeFw at h
  split at h
  · cases h
  next q hq =>
    split at h
    · cases h
    · split at h <;> cases h
      exact ⟨(State.opcode_of_live hq : q.opcode = op), rfl, rfl⟩

theorem State.takeFw_kept (h : s.takeFw id op = some (t, p)) {f : Field} (hf : f ∉ [Field.packets, .fwq]) : f.same s t :=
  (State.takeFw_follows (μ := fieldMask [.packets, .fwq]) (.refl _ s) h rfl).kept f (fieldMask_not_mem hf)

theorem State.takeFw_othersKept (h : s.takeFw id op = some (t, p)) : s.othersKept t p.id :=
  (State.othersKept.refl s _).of_tset (State.takeFw_some h).2.2

theorem State.takeFw_low (h : s.takeFw id op = some (t, p)) : s.lowKept t := .of_regs (State.takeFw_some h).2.1

/-- No register changes with a packet that holds no reserve. -/
theorem State.fixPacket_regs (s : State) {p : Packet} (h : p.opcode ≠ 0x31) (st : KStatus) (count aux detail : Nat) :
    (s.fixPacket p st count aux detail).regs = s.regs := by
  unfold State.fixPacket
  extract_lets s1
  rw [if_neg (c := (decide (p.opcode = 0x31) && decide (st ≠ .done)) = true) (by simp [h])]
  exact (State.snoopEnd_follows (μ := 0x80000000000) _ _ (.refl _ s1) rfl).kept .regs rfl

end

/-! ## Lane tests -/

section
variable {s t u : State} {k : Nat}

/-- What a link says of the passes of its channels. -/
def Link.passes (l : Link) : Nat × Nat × Table Nat × Table Int := (l.due, l.parityDue, l.dueAt, l.passTemp)

/-- Only lane maps, and registers past those of the stacks, have changed. -/
def State.passesKept (s t : State) (k : Nat) : Prop :=
  s.lowKept t ∧ t.clk = s.clk ∧ (∀ j, j ≠ k → t.linkOf j = s.linkOf j) ∧ (t.linkOf k).passes = (s.linkOf k).passes

theorem State.passesKept.refl (s : State) (k : Nat) : s.passesKept s k := ⟨.refl s, rfl, fun _ _ => rfl, rfl⟩

theorem State.passesKept.trans (h : s.passesKept t k) (g : t.passesKept u k) : s.passesKept u k := by
  obtain ⟨low, clk, others, own⟩ := h
  obtain ⟨low', clk', others', own'⟩ := g
  exact ⟨low.trans low', clk'.trans clk, fun j hj => (others' j hj).trans (others j hj), own'.trans own⟩

/-- Neither links nor the clock change. -/
theorem State.passesKept.of_links (low : s.lowKept t) (clk : t.clk = s.clk) (links : t.links = s.links) : s.passesKept t k :=
  ⟨low, clk, fun j _ => congrFun (State.linkOf_of_links links) j, by rw [State.linkOf_of_links links]⟩

theorem State.passesKept.foldl {α : Type} {f : State → α → State} (hf : ∀ (t : State) (x : α), t.passesKept (f t x) k) :
    ∀ (l : List α) (s : State), s.passesKept (l.foldl f s) k
  | [], s => .refl s k
  | x :: l, s => (hf s x).trans (State.passesKept.foldl hf l (f s x))

theorem State.passesKept_addJob (s : State) (j : LadderJob) (k : Nat) : s.passesKept (s.addJob j) k := by
  have kept := (State.addJob_follows (μ := fieldMask [.ladder]) j (.refl _ s) rfl).kept
  exact .of_links (.of_regs (kept .regs rfl)) (kept .clk rfl) (kept .links rfl)

theorem State.passesKept_dropJobs (s : State) (f : LadderJob → Bool) (k : Nat) : s.passesKept (s.dropJobs f) k :=
  .of_links (.of_regs rfl) rfl rfl

theorem State.passesKept_setDevLanes (s : State) (k c w : Nat) : s.passesKept (s.setDevLanes k c w) k :=
  .of_links (.of_regs rfl) rfl rfl

theorem State.passesKept_setStackLanes (s : State) (k c w : Nat) : s.passesKept (s.setStackLanes k c w) k :=
  ⟨.of_regs rfl, rfl, fun _ hj => s.linkOf_setLinkOf_other _ hj, by rw [State.setStackLanes, State.linkOf_setLinkOf]; rfl⟩

theorem State.passesKept_log (s : State) (ty : RecTy) (src sub a0 a1 k : Nat) : s.passesKept (s.log ty src sub a0 a1) k :=
  .of_links (.log s ty src sub a0 a1) (s.log_kept ty src sub a0 a1 (f := .clk) (by decide))
    (s.log_kept ty src sub a0 a1 (f := .links) (by decide))

theorem State.passesKept_laneStep3 (s : State) (k c g lane : Nat) : s.passesKept (s.laneStep3 k c g lane) k :=
  ((s.passesKept_setDevLanes k c _).trans (State.passesKept_setStackLanes _ k c _)).trans (State.passesKept_setDevLanes _ k c _)

theorem State.passesKept_laneRepair (s : State) (k c g lane : Nat) : s.passesKept (s.laneRepair k c g lane 3) k := by
  unfold State.laneRepair
  extract_lets out
  split
  · exact .refl s k
  · split
    · exact s.passesKept_dropJobs _ k
    · split
      · exact (s.passesKept_dropJobs _ k).trans (.foldl (fun t pc => t.passesKept_addJob _ k) _ _)
      · rw [State.laneSteps_three]
        exact ((s.passesKept_laneStep3 k c g lane).trans (State.passesKept_dropJobs _ _ k)).trans (State.passesKept_log _ _ _ _ _ _ k)

/-- The repair of a channel's lane where a job asks for one. -/
def State.repairAsked (k c : Nat) (t : State) (j : LadderJob) : State :=
  match j with
  | .lane k' c' g x => if k' = k && c' = c then t.laneRepair k c g x 3 else t
  | _ => t

theorem State.repairLanes_eq (s : State) (k c : Nat) (bad : List (Nat × Nat)) : s.repairLanes k c bad
    = let s1 := (bad.filter fun e => laneOk e.1 e.2).foldl (fun t e => t.addJob (.lane k c e.1 e.2)) s
      s1.ladder.foldl (State.repairAsked k c) s1 := rfl

theorem State.repairAsked_same (s : State) (k c g x : Nat) : s.repairAsked k c (.lane k c g x) = s.laneRepair k c g x 3 := by
  simp [State.repairAsked]

/-- A job of another kind, or for another channel, asks for no repair of this one. -/
theorem State.repairAsked_other (s : State) {k c : Nat} {j : LadderJob} (h : ∀ g x, j ≠ .lane k c g x) : s.repairAsked k c j = s := by
  unfold State.repairAsked
  split
  next k' c' g x =>
    refine if_neg fun e => ?_
    obtain ⟨rfl, rfl⟩ : k' = k ∧ c' = c := by simpa using e
    exact h g x rfl
  · rfl

theorem State.passesKept_repairLanes (s : State) (k c : Nat) (bad : List (Nat × Nat)) : s.passesKept (s.repairLanes k c bad) k := by
  rw [State.repairLanes_eq]
  refine State.passesKept.trans (.foldl (fun t e => t.passesKept_addJob _ k) _ s) (.foldl (fun t j => ?_) _ _)
  by_cases h : ∃ g x, j = .lane k c g x
  · obtain ⟨g, x, rfl⟩ := h
    rw [State.repairAsked_same]
    exact t.passesKept_laneRepair k c g x
  · rw [State.repairAsked_other t fun g x e => h ⟨g, x, e⟩]
    exact .refl t k

/-! ## The passes of a scope -/

/-- After the passes of some channels: each of them counts its period from now, and nothing is due on it. -/
def State.passedAll (s t : State) (k : Nat) (done : Nat → Prop) : Prop :=
  s.lowKept t ∧ t.clk = s.clk ∧ (∀ j, j ≠ k → t.linkOf j = s.linkOf j)
    ∧ ∀ c, done c → bit (t.linkOf k).parityDue c = false ∧ bit (t.linkOf k).due c = false
      ∧ tget 0 (t.linkOf k).dueAt c = s.clk.now + s.passPeriod k ∧ tget 0 (t.linkOf k).passTemp c = s.stackTemp k

theorem State.passedAll.start (s : State) (k : Nat) : s.passedAll s k fun _ => False := ⟨.refl s, rfl, fun _ _ => rfl, fun _ h => h.elim⟩

theorem State.passedAll.kept {done : Nat → Prop} (h : s.passedAll t k done) (g : t.passesKept u k) : s.passedAll u k done := by
  obtain ⟨low, clk, others, own⟩ := h
  obtain ⟨low', clk', others', own'⟩ := g
  simp only [Link.passes, Prod.mk.injEq] at own'
  obtain ⟨due, parity, dueAt, temp⟩ := own'
  refine ⟨low.trans low', clk'.trans clk, fun j hj => (others' j hj).trans (others j hj), ?_⟩
  rw [due, parity, dueAt, temp]
  exact own

theorem State.passedAll.pass {done : Nat → Prop} (hk : k < 8) (h : s.passedAll t k done) (c : Nat) :
    s.passedAll (t.passDone k c none) k fun d => d = c ∨ done d := by
  obtain ⟨low, clk, others, own⟩ := h
  have low' : t.lowKept (t.passDone k c none) := .ev t 0x302 k 1
  have clk' : (t.passDone k c none).clk = t.clk := t.ev_kept 0x302 k 1 (f := .clk) (by decide)
  refine ⟨low.trans low', clk'.trans clk, fun j hj => (t.linkOf_passDone_other k c none hj).trans (others j hj), fun d hd => ?_⟩
  rw [State.linkOf_passDone]
  by_cases same : d = c
  · subst same
    obtain ⟨due, parity, -, dueAt, -, temp⟩ := State.passedLink_fields (s := t) (k := k) (c := d) (.inl rfl)
    rw [due, parity, dueAt, temp, clk, low.passPeriod hk, low.stackTemp hk]
    exact ⟨rfl, rfl, rfl, rfl⟩
  · have old := own d (hd.resolve_left same)
    simp only [State.passedLink, bit_setBits_other _ _ same, tget_tput_other _ _ _ _ same]
    exact old

/-- One channel of a RETRAIN: its grant, its lane test if one is asked for, its pass. -/
def State.retrainOne (k : Nat) (test : Bool) (bad : List (Nat × Nat)) (t : State) (c : Nat) : State :=
  let u := if t.owns k 1 then t else t.arbGive k 1 false
  ((if test then u.repairLanes k c bad else u).passDone k c none).arbDrop k 1

theorem State.retrainAll_eq (s : State) (k : Nat) (cs : List Nat) (test : Bool) (bad : List (Nat × Nat)) :
    s.retrainAll k cs test bad = cs.foldl (State.retrainOne k test bad) s := rfl

/-- The state in which the channel's own work runs. -/
def State.granted (s : State) (k : Nat) : State := if s.owns k 1 then s else s.arbGive k 1 false

theorem State.granted_kept (s : State) (k : Nat) {f : Field} (h : f ∉ [Field.regs, .arbs]) : f.same s (s.granted k) := by
  have given := (State.arbGive_follows (μ := fieldMask [.regs, .arbs]) k 1 false (.refl _ s) rfl)
  exact (State.Follows.ite (fun _ => .refl _ s) fun _ => given : s.Follows _ (s.granted k)).kept f (fieldMask_not_mem h)

theorem State.granted_low (s : State) (k : Nat) : s.lowKept (s.granted k) := by
  unfold State.granted
  split
  · exact .refl s
  · exact s.arbGive_low k 1 false

theorem State.retrainOne_passed {done : Nat → Prop} (hk : k < 8) (test : Bool) (bad : List (Nat × Nat)) (c : Nat)
    (h : s.passedAll t k done) : s.passedAll (State.retrainOne k test bad t c) k fun d => d = c ∨ done d := by
  have given : t.passesKept (t.granted k) k :=
    .of_links (t.granted_low k) (t.granted_kept k (f := .clk) (by decide)) (t.granted_kept k (f := .links) (by decide))
  have tested : t.passesKept (if test then (t.granted k).repairLanes k c bad else t.granted k) k := by
    split
    · exact given.trans (State.passesKept_repairLanes _ k c bad)
    · exact given
  exact ((h.kept tested).pass hk c).kept (.of_links (State.arbDrop_low _ k 1) (State.arbDrop_clk _ k 1) (State.arbDrop_links _ k 1))

theorem State.retrainAll_passed (hk : k < 8) (test : Bool) (bad : List (Nat × Nat)) : ∀ (cs : List Nat) {t : State} {done : Nat → Prop},
    s.passedAll t k done → s.passedAll (t.retrainAll k cs test bad) k fun d => d ∈ cs ∨ done d
  | [], _, _, h => by simpa [State.retrainAll_eq] using h
  | c :: cs, t, done, h => by
    have rest := State.retrainAll_passed hk test bad cs (State.retrainOne_passed hk test bad c h)
    rw [State.retrainAll_eq] at rest ⊢
    simpa only [List.foldl_cons, List.mem_cons, or_assoc, or_left_comm] using rest

/-! ## The repair that a lane test asks for -/

variable {c g x : Nat}

theorem State.addJob_ladder_new {j : LadderJob} (h : j ∉ u.ladder) : (u.addJob j).ladder = u.ladder ++ [j] := by
  unfold State.addJob
  rw [if_neg (by simpa using h)]

/-- Jobs none of which asks for a repair of the channel. -/
theorem State.repairAsked_foldl (v : State) : ∀ (l : List LadderJob), (∀ g x, .lane k c g x ∉ l) →
    l.foldl (State.repairAsked k c) v = v
  | [], _ => rfl
  | j :: l, h => by
    rw [List.foldl_cons, State.repairAsked_other v fun g x e => h g x (e ▸ List.mem_cons_self)]
    exact State.repairAsked_foldl v l fun g x m => h g x (List.mem_cons_of_mem _ m)

/-- A lane test that finds one bad lane, on a channel for which no repair waits: the repair follows at once. -/
theorem State.repairLanes_single (ok : laneOk g x = true) (fresh : ∀ g' x', .lane k c g' x' ∉ u.ladder) :
    u.repairLanes k c [(g, x)] = (u.addJob (.lane k c g x)).laneRepair k c g x 3 := by
  simp only [State.repairLanes_eq, List.filter_cons, ok, if_true, List.filter_nil, List.foldl_cons, List.foldl_nil,
    State.addJob_ladder_new (fresh g x), List.foldl_append, State.repairAsked_foldl _ _ fresh, State.repairAsked_same]

/-- Its lane is out of service afterwards. -/
theorem State.laneOut_repairLanes (hc : c < 32) (ok : laneOk g x = true) (fresh : ∀ g' x', .lane k c g' x' ∉ u.ladder) (on : u.link k = 3)
    (pcs : u.channelPcs k c ≠ []) (free : laneOut (u.devLanes k c) g = 15) :
    laneOut ((u.repairLanes k c [(g, x)]).devLanes k c) g = x := by
  have hg : g < 9 ∧ x < 15 := by
    simp only [laneOk, decide_eq_true_eq, Bool.and_eq_true] at ok
    split at ok <;> omega
  have kept := (State.addJob_follows (μ := fieldMask [.ladder]) (.lane k c g x) (.refl _ u) rfl).kept
  have regs := fun a => congrArg (tfind · a) (kept .regs rfl)
  have maps : (u.addJob (.lane k c g x)).devLanes k c = u.devLanes k c := State.devLanes_of_maps (kept .laneMaps rfl)
  rw [State.repairLanes_single ok fresh, State.laneRepair_of_free ((State.mem_addJob u).mpr (.inr rfl))
    ((State.fget_of_tfind (regs _)).trans on) (State.channelPcs_of_tfind hc (regs _) ▸ pcs) (maps ▸ free) hg.2,
    State.devLanes_of_maps (State.laneSteps_three_kept _).1,
    State.devLanes_laneStep3 _ hg.1, State.laneOut_repairedMap _ hg.1 (by omega), if_pos rfl]

theorem State.passDone_laneMaps (s : State) (k c : Nat) : (s.passDone k c none).laneMaps = s.laneMaps :=
  s.ev_kept 0x302 k 1 (f := .laneMaps) (by decide)

/-- A RETRAIN with a lane test of one channel takes the lane found bad out of service. -/
theorem State.laneOut_retrainAll (hk : k < 8) (hc : c < 32) (ok : laneOk g x = true) (fresh : ∀ g' x', .lane k c g' x' ∉ u.ladder)
    (on : u.link k = 3) (pcs : u.channelPcs k c ≠ []) (free : laneOut (u.devLanes k c) g = 15) :
    laneOut ((u.retrainAll k [c] true [(g, x)]).devLanes k c) g = x := by
  have word : tfind (u.granted k).regs (Reg.pkRetired.addr [k]) = tfind u.regs (Reg.pkRetired.addr [k]) := by
    unfold State.granted
    split
    · rfl
    · exact State.tfind_fset_other (u.setArb k _) _ (Reg.retired_ne_abPrio hk)
  have maps : (u.granted k).devLanes k c = u.devLanes k c := State.devLanes_of_maps (u.granted_kept k (f := .laneMaps) (by decide))
  have ladder : (u.granted k).ladder = u.ladder := u.granted_kept k (f := .ladder) (by decide)
  have one : u.retrainAll k [c] true [(g, x)]
      = (((u.granted k).repairLanes k c [(g, x)]).passDone k c none).arbDrop k 1 := rfl
  rw [one, State.devLanes_of_maps ((State.arbDrop_laneMaps _ k 1).trans (State.passDone_laneMaps _ k c))]
  exact State.laneOut_repairLanes hc ok (ladder ▸ fresh) (((u.granted_low k).link hk).trans on)
    (State.channelPcs_of_tfind hc word ▸ pcs) (maps ▸ free)

end

/-! ## The packet (R249) -/

section
variable {s t : State} {id n : Nat} {p : Packet} {bad : List (Nat × Nat)}

theorem State.mem_retrainChans {k w c : Nat} (h : c ∈ s.retrainChans k w) : c < 32 ∧ s.channelPcs k c ≠ [] := by
  simp only [State.retrainChans, List.mem_filter, Bool.not_eq_true', List.isEmpty_eq_false_iff] at h
  refine ⟨?_, h.2⟩
  have mem := h.1
  split at mem
  · exact List.mem_range.mp mem
  · rw [List.mem_singleton.mp mem]
    exact Nat.mod_lt _ (by decide)

/-- A lane test is of one channel. -/
theorem State.retrainChans_of_test {k w c : Nat} (h : c ∈ s.retrainChans k w) (test : bits w 4 2 = 2) : s.retrainChans k w = [c] := by
  obtain ⟨mem, pcs⟩ := List.mem_filter.mp h
  rw [if_neg (by omega), List.mem_singleton] at mem
  rw [State.retrainChans, if_neg (by omega), ← mem, List.filter_cons, if_pos pcs, List.filter_nil]

/-- A RETRAIN of a stack, with what it finds there once the stack is awake. -/
theorem State.runRetrain_of_taken (h : s.takeFw id 0x52 = some (t, p)) (m : MaintReport) {k : Nat} {v : State} {cs : List Nat}
    (hk : bits (p.word 32) 0 3 = k) (hv : s.wake k = v) (hcs : v.retrainChans k (p.word 32) = cs) : s.runRetrain id m
    = if !t.stackUp k then t.fixPacket p .unavailable
      else if cs.isEmpty then (t.wake k).fixPacket p .done
      else if !cs.all (v.passReady k) then v
      else if !(v.askPort k 1).owns k 1 then v.askPort k 1
      else ((t.wake k).retrainAll k cs (decide (bits (p.word 32) 4 2 = 2)) m.bad).fixPacket p .done cs.length m.ns := by
  subst hk hv hcs
  unfold State.runRetrain
  rw [h]

theorem State.wake_packets (s : State) (k : Nat) : (s.wake k).packets = s.packets :=
  (State.wake_follows (μ := 0x280000100403) k (.refl _ s) rfl).kept .packets rfl

/-- The packet ends beside its effects. -/
theorem State.fixPacket_ends (s : State) {u : State} (h : s.othersKept u p.id) (st : KStatus) (count aux detail : Nat) :
    tfind (u.fixPacket p st count aux detail).packets p.id = some (p.ended st count aux detail)
      ∧ s.othersKept (u.fixPacket p st count aux detail) p.id :=
  have ⟨found, others, _⟩ := State.fixPacket_effect h st count aux detail
  ⟨found, others⟩

/-- The passes of a RETRAIN that has its grant, on a stack that is ONLINE. -/
theorem State.retrained_effect {k : Nat} (hk : k < 8) (h : s.takeFw id 0x52 = some (t, p)) (cs : List Nat) (test : Bool) (m : MaintReport) :
    ∃ u, u = (t.retrainAll k cs test m.bad).fixPacket p .done cs.length m.ns
      ∧ tfind u.packets p.id = some (p.ended .done cs.length m.ns 0) ∧ s.othersKept u p.id
      ∧ (∀ c ∈ cs, bit (u.linkOf k).parityDue c = false ∧ bit (u.linkOf k).due c = false
          ∧ tget 0 (u.linkOf k).dueAt c = s.clk.now + s.passPeriod k ∧ tget 0 (u.linkOf k).passTemp c = s.stackTemp k)
      ∧ (∀ j, j ≠ k → u.linkOf j = s.linkOf j) ∧ u.laneMaps = (t.retrainAll k cs test m.bad).laneMaps := by
  have low := State.takeFw_low h
  have clk : t.clk = s.clk := State.takeFw_kept h (f := .clk) (by decide)
  have links : t.links = s.links := State.takeFw_kept h (f := .links) (by decide)
  have packets : (t.retrainAll k cs test m.bad).packets = t.packets :=
    (State.retrainAll_follows (μ := 0x280000580002) k cs test m.bad (.refl _ t) rfl).kept .packets rfl
  obtain ⟨-, -, others, own⟩ := State.retrainAll_passed hk test m.bad cs (State.passedAll.start t k)
  obtain ⟨found, rest⟩ := s.fixPacket_ends ((State.takeFw_othersKept h).of_packets packets) .done cs.length m.ns 0
  have fixed := State.linkOf_of_links ((t.retrainAll k cs test m.bad).fixPacket_kept p .done cs.length m.ns 0 (f := .links) (by decide))
  refine ⟨_, rfl, found, rest, fun c hc => ?_, fun j hj => ?_,
    State.fixPacket_kept _ p .done cs.length m.ns 0 (f := .laneMaps) (by decide)⟩
  · rw [fixed, ← clk, ← low.passPeriod hk, ← low.stackTemp hk]
    exact own c (.inl hc)
  · rw [fixed, others j hj, State.linkOf_of_links links]

end

end Sys2Proof.Machine
end

