-- ==== Sys2Proof/Proofs/LinkModes.lean ====
section
/-! The change of the operating point (R250, R251), and the statement about self-refresh, RETRAIN and OPPOINT. -/
namespace Sys2Proof.Machine

/-! ## The drain and the stall -/

section
variable (s : State) {k j : Nat}

/-- Step 2 of R251: every queue has drained. -/
def State.drained : State := s.pccs.foldl (fun t e => t.drainPcc e.1) s.markStall

theorem State.markStall_posts : s.markStall.posts = s.posts :=
  State.posts_of_follows (State.markStall_follows (μ := fieldMask [.ports]) (.refl _ s) rfl) rfl

theorem State.drained_posts : s.drained.posts = s.posts := by
  have all := State.posts_foldl (f := fun t (e : Nat × Pcc) => t.drainPcc e.1) (fun t e => t.posts_drainPcc e.1) s.pccs s.markStall
  unfold State.drained
  exact all.trans s.markStall_posts

theorem State.drained_follows : s.Follows 0x80002090c52 s.drained :=
  have ports : Sub 0x40 0x80002090c52 := rfl
  have all : Sub 0x80002090c52 0x80002090c52 := rfl
  .foldl (fun _ e ht => State.drainPcc_follows e.1 ht all) _ (State.markStall_follows (.refl _ s) ports)

/-- What every step of a fold keeps. -/
theorem State.foldl_keeps {α β : Type} {g : State → β} {f : State → α → State} (hf : ∀ t x, g (f t x) = g t) :
    ∀ (l : List α) (s : State), g (l.foldl f s) = g s
  | [], _ => rfl
  | x :: l, s => (State.foldl_keeps hf l (f s x)).trans (hf s x)

theorem nsTicks_add_le (a b : Nat) : nsTicks a + nsTicks b ≤ nsTicks (a + b) := by
  unfold nsTicks
  omega

theorem State.relock_now (n : Nat) : (s.relock n).clk.now = s.clk.now + n :=
  State.tick_adds { s with clk := { s.clk with mclkAcc := s.mclk, mclkRef := s.clk.now + n } } n

theorem State.enterSref_clk (s : State) (k : Nat) : (s.enterSref k).clk = s.clk :=
  (State.enterSref_follows (μ := 0x100402) k (.refl _ s) rfl).kept .clk rfl

theorem State.foldl_enterSref_clk (l : List Nat) : (l.foldl State.enterSref s).clk = s.clk :=
  State.foldl_keeps (g := State.clk) State.enterSref_clk l s

/-- The drain, the relock and what lies between them fit into the stall. -/
theorem State.newOp_now (op n : Nat) : (s.newOp op n).clk.now ≤ s.clk.now + nsTicks n := by
  unfold State.newOp
  simp only [State.drawNat, State.fset_clk, State.relock_now, State.foldl_enterSref_clk, State.tick_adds]
  generalize hr : Nat.min (Config.freeNat (s.free + 1) % 25001) n = r
  have fits : r ≤ n := hr ▸ Nat.min_le_right _ _
  have rest : Config.freeNat s.free % (n - r + 1) ≤ n - r := Nat.le_of_lt_succ (Nat.mod_lt _ (Nat.succ_pos _))
  generalize Config.freeNat s.free % (n - r + 1) = a at rest
  have sum := nsTicks_add_le a r
  have mono : nsTicks (a + r) ≤ nsTicks n := by unfold nsTicks; omega
  omega

theorem State.newOp_op (op n : Nat) : (s.newOp op n).fget F.glOpStat_op = op % 2 :=
  State.fget_fset_same _ _ _ _ (by decide)

/-! ## The stacks after the stall -/

theorem State.link_of_regs {s t : State} (h : t.regs = s.regs) (j : Nat) : t.link j = s.link j :=
  State.fget_of_tfind (congrArg (tfind · _) h)

theorem State.fset_regs_of_regs {s t : State} (h : t.regs = s.regs) {f : Fld} {ix : List Nat} {v : Nat} :
    (t.fset f ix v).regs = (s.fset f ix v).regs := by
  simp only [State.fset, State.rput, State.rget, h]

theorem State.link_fset_trainUs (k v j : Nat) : (s.fset F.scLinkStat_train_us [k] v).link j = s.link j := by
  by_cases e : j = k
  · rw [e]
    exact s.fget_fset_field (f := F.scLinkStat_train_us) (g := F.scLinkStat_state) [k] v rfl (by decide) (by decide)
  · exact s.fget_fset_other v (Reg.addr_stack_inj rfl e)

theorem State.setModes_regs (k : Nat) : (s.setModes k).regs = s.regs :=
  (State.setModes_follows (μ := fieldMask [.links]) k (.refl _ s) rfl).kept .regs rfl

/-- A stack after its full retraining: of its registers LINK_STAT and the refresh interval have changed. -/
theorem State.retrained_regs (k : Nat) : ∃ us v, (s.retrained k).regs = (((s.fset F.scLinkStat_state [k] 3).fset F.scLinkStat_train_us [k]
    us).fset F.scRefCfg_trefi_pb [k] v).regs := by
  unfold State.retrained
  split
  next t1 us e =>
    extract_lets t2 t3
    have drawn : t1.regs = s.regs := by cases e; rfl
    have passes := (State.restartPasses_follows (μ := fieldMask [.links]) k (.refl _ ((t3.setModes k).setRefi k)) rfl).kept .regs rfl
    have shown : t2.regs = ((s.fset F.scLinkStat_state [k] 3).fset F.scLinkStat_train_us [k] us).regs :=
      State.fset_regs_of_regs (State.fset_regs_of_regs drawn)
    clear_value t2
    obtain ⟨v, refi⟩ : ∃ v, (t3.setModes k).setRefi k = (t3.setModes k).fset F.scRefCfg_trefi_pb [k] v := ⟨_, rfl⟩
    refine ⟨us, v, passes.trans ?_⟩
    rw [refi]
    refine State.fset_regs_of_regs ((t3.setModes_regs k).trans ?_)
    exact shown

/-- It is ONLINE; the others show what they showed. -/
theorem State.link_retrained (h : j = k ∨ s.link j = 3) : (s.retrained k).link j = 3 := by
  obtain ⟨us, v, regs⟩ := s.retrained_regs k
  rw [State.link_of_regs regs, State.link_fset_other _ rfl (by decide), State.link_fset_trainUs]
  by_cases e : j = k
  · rw [e, State.link_fset_state]
  · rw [State.link_fset_state_other _ _ e]
    exact h.resolve_left e

theorem State.startFill_regs (k : Nat) (rep : StackReport) (pcs : List Nat) : (s.startFill k rep pcs).regs = s.regs :=
  (State.startFill_follows (μ := 0x220800) k rep pcs (.refl _ s) rfl).kept .regs rfl

variable {r : Return}

theorem State.heldBack_of_none (h : tfind s.returns k = none) : s.heldBack k = s := by
  unfold State.heldBack
  rw [h]

/-- A stack in training: it is ready to go on now. -/
theorem State.heldBack_of_training (h : tfind s.returns k = some r) (hf : r.fill = none) :
    s.heldBack k = { s with returns := tset s.returns k { r with due := s.clk.now } } := by
  unfold State.heldBack
  simp only [h, hf]

/-- A stack whose fill or copy runs: it starts again. -/
theorem State.heldBack_of_filling {pcs : List Nat} (h : tfind s.returns k = some r) (hf : r.fill = some pcs) :
    s.heldBack k = ((s.setModes k).setRefi k).startFill k r.rep pcs := by
  unfold State.heldBack
  simp only [h, hf]

/-- Of the registers the refresh interval alone may change. -/
theorem State.heldBack_regs (k : Nat) :
    (s.heldBack k).regs = s.regs ∨ ∃ v, (s.heldBack k).regs = (s.fset F.scRefCfg_trefi_pb [k] v).regs := by
  cases h : tfind s.returns k with
  | none => exact .inl (by rw [State.heldBack_of_none _ h])
  | some r =>
    cases hf : r.fill with
    | none => exact .inl (by rw [State.heldBack_of_training _ h hf])
    | some pcs =>
      obtain ⟨v, refi⟩ : ∃ v, (s.setModes k).setRefi k = (s.setModes k).fset F.scRefCfg_trefi_pb [k] v := ⟨_, rfl⟩
      refine .inr ⟨v, ?_⟩
      rw [State.heldBack_of_filling _ h hf, State.startFill_regs, refi]
      exact State.fset_regs_of_regs (s.setModes_regs k)

theorem State.link_heldBack (k j : Nat) : (s.heldBack k).link j = s.link j := by
  rcases s.heldBack_regs k with same | ⟨v, regs⟩
  · exact State.link_of_regs same j
  · rw [State.link_of_regs regs, State.link_fset_other _ rfl (by decide)]

theorem State.link_foldl_retrained : ∀ (l : List Nat) (s : State), (j ∈ l ∨ s.link j = 3) → (l.foldl State.retrained s).link j = 3
  | [], _, h => h.resolve_left List.not_mem_nil
  | k :: l, s, h => by
    rw [List.mem_cons, or_assoc, or_left_comm] at h
    rw [List.foldl_cons]
    exact State.link_foldl_retrained l (s.retrained k) (h.imp_right s.link_retrained)

theorem State.link_foldl_heldBack (l : List Nat) : (l.foldl State.heldBack s).link j = s.link j :=
  State.foldl_keeps (g := (·.link j)) (fun t k => t.link_heldBack k j) l s

/-! ## The word of OP_STAT -/

/-- The word that holds the operating point, with its count and its last stall. -/
def State.opWord (s : State) : Option Word := tfind s.regs (Reg.glOpStat.addr [])

theorem Reg.opStat_ne_stack {r : Reg} (h : r.scope = .stack) (k : Nat) : Reg.glOpStat.addr [] ≠ r.addr [k] := by
  have low : Reg.glOpStat.addr [] = 0x100 := rfl
  have base : ∀ r : Reg, r.scope = .stack → 0x100 < r.base := by intro r; cases r <;> decide
  have := base r h
  rw [low, Reg.addr_stack h]
  omega

theorem State.opWord_fset {f : Fld} (h : f.reg.scope = .stack) (k v : Nat) : (s.fset f [k] v).opWord = s.opWord :=
  s.tfind_fset_other v (Reg.opStat_ne_stack h k)

theorem State.opWord_retrained (k : Nat) : (s.retrained k).opWord = s.opWord := by
  obtain ⟨us, v, regs⟩ := s.retrained_regs k
  rw [State.opWord, regs]
  exact (State.opWord_fset _ rfl k v).trans ((State.opWord_fset _ rfl k us).trans (s.opWord_fset rfl k 3))

theorem State.opWord_heldBack (k : Nat) : (s.heldBack k).opWord = s.opWord := by
  rcases s.heldBack_regs k with same | ⟨v, regs⟩
  · exact congrArg (tfind · _) same
  · rw [State.opWord, regs]
    exact s.opWord_fset rfl k v

theorem State.fget_of_opWord {s t : State} (h : t.opWord = s.opWord) {f : Fld} (hf : f.reg = .glOpStat) : t.fget f = s.fget f :=
  State.fget_of_tfind (hf ▸ h)

/-! ## The stacks on their way back -/

theorem State.heldBack_clk (k : Nat) : (s.heldBack k).clk = s.clk :=
  (State.heldBack_follows (μ := 0x320802) k (.refl _ s) rfl).kept .clk rfl

theorem State.retrained_clk (k : Nat) : (s.retrained k).clk = s.clk :=
  (State.retrained_follows (μ := 0x100412) k (.refl _ s) rfl).kept .clk rfl

theorem State.retrained_returns (k : Nat) : (s.retrained k).returns = s.returns :=
  (State.retrained_follows (μ := 0x100412) k (.refl _ s) rfl).kept .returns rfl

theorem State.foldl_retrained_clk (l : List Nat) : (l.foldl State.retrained s).clk = s.clk :=
  State.foldl_keeps (g := State.clk) State.retrained_clk l s

theorem State.foldl_retrained_returns (l : List Nat) : (l.foldl State.retrained s).returns = s.returns :=
  State.foldl_keeps (g := State.returns) State.retrained_returns l s

theorem State.foldl_heldBack_clk (l : List Nat) : (l.foldl State.heldBack s).clk = s.clk :=
  State.foldl_keeps (g := State.clk) State.heldBack_clk l s

theorem State.tfind_heldBack_same {d : Nat} (h : tfind s.returns k = some { r with due := d }) (hf : r.fill = none) :
    tfind (s.heldBack k).returns k = some { r with due := s.clk.now } := by
  rw [State.heldBack_of_training s h hf]
  exact tfind_tset_same _ _ _

theorem State.tfind_heldBack_other (h : j ≠ k) : tfind (s.heldBack k).returns j = tfind s.returns j := by
  cases found : tfind s.returns k with
  | none => rw [State.heldBack_of_none _ found]
  | some r =>
    cases hf : r.fill with
    | none =>
      rw [State.heldBack_of_training _ found hf]
      exact tfind_tset_other _ _ h
    | some pcs =>
      rw [State.heldBack_of_filling _ found hf, State.startFill]
      exact tfind_tset_other _ _ h

theorem State.tfind_foldl_heldBack (hf : r.fill = none) : ∀ (l : List Nat) (s : State) {d : Nat},
    tfind s.returns j = some { r with due := d } → (d = s.clk.now ∨ j ∈ l) →
      tfind (l.foldl State.heldBack s).returns j = some { r with due := s.clk.now }
  | [], _, _, h, hd => by rw [← hd.resolve_right List.not_mem_nil]; exact h
  | k :: l, s, d, h, hd => by
    rw [List.foldl_cons, ← s.heldBack_clk k]
    by_cases e : j = k
    · subst e
      exact State.tfind_foldl_heldBack hf l _ (s.tfind_heldBack_same h hf) (.inl (by rw [s.heldBack_clk]))
    · refine State.tfind_foldl_heldBack hf l _ ((s.tfind_heldBack_other e).trans h) ?_
      rw [s.heldBack_clk]
      exact hd.imp_right fun m => (List.mem_cons.mp m).resolve_left e

/-! ## The whole change -/

/-- The device as the stall ends, with the change counted (R251 step 8). -/
def State.stalled (s : State) (op n : Nat) : State :=
  let t := (s.drained.newOp op n).tickTo (s.drained.clk.now + nsTicks n)
  (t.fsat F.glOpStat_changes [] 1).fset F.glOpStat_last_stall_ns [] (Nat.min n (2 ^ 32 - 1))

theorem State.changeOp_eq (op n : Nat) : s.changeOp op n
    = (List.range 8).foldl State.heldBack (((List.range 8).filter s.drained.stackUp).foldl State.retrained (s.stalled op n)) := rfl

theorem State.stalled_now (op n : Nat) : (s.stalled op n).clk.now = s.clk.now + nsTicks n := by
  have clk : s.drained.clk = s.clk := s.drained_follows.kept .clk rfl
  have fits := s.drained.newOp_now op n
  rw [State.stalled, State.fset_clk, State.fsat_clk, State.tickTo_now, ← clk]
  exact Nat.max_eq_right fits

theorem State.stalled_returns (op n : Nat) : (s.stalled op n).returns = s.returns := by
  have drained : s.drained.returns = s.returns := s.drained_follows.kept .returns rfl
  have changed : (s.drained.newOp op n).returns = s.drained.returns :=
    (State.newOp_follows (μ := 0x1200000100413) op n (.refl _ _) rfl).kept .returns rfl
  rw [State.stalled, State.fset_returns, State.fsat_returns]
  exact (State.tickTo_kept _ _ (f := .returns) (by decide)).trans (changed.trans drained)

theorem State.stalled_op (op n : Nat) : (s.stalled op n).fget F.glOpStat_op = op % 2 := by
  unfold State.stalled
  extract_lets t
  rw [State.fget_fset_field (f := F.glOpStat_last_stall_ns) (g := F.glOpStat_op) _ _ _ rfl (by decide) (by decide), State.fsat,
    State.fget_fset_field (f := F.glOpStat_changes) (g := F.glOpStat_op) _ _ _ rfl (by decide) (by decide),
    (State.tickTo_low _ _).opStat, State.newOp_op]

theorem State.stalled_last (op n : Nat) : (s.stalled op n).fget F.glOpStat_last_stall_ns = min n (2 ^ 32 - 1) := by
  have lt : min n (2 ^ 32 - 1) < 2 ^ 32 := by omega
  exact (State.fget_fset_same _ _ _ _ (by decide)).trans (Nat.mod_eq_of_lt lt)

theorem State.stalled_changes (op n : Nat) : (s.stalled op n).fget F.glOpStat_changes ≠ 0 := by
  unfold State.stalled
  extract_lets t
  rw [State.fget_fset_field (f := F.glOpStat_last_stall_ns) (g := F.glOpStat_changes) _ _ _ rfl (by decide) (by decide),
    State.fget_fsat_same _ _ _ _ (by decide)]
  simp [F.glOpStat_changes]

theorem State.link_changeOp (op n : Nat) (hj : j < 8) (up : s.stackUp j = true) : (s.changeOp op n).link j = 3 := by
  rw [State.changeOp_eq, State.link_foldl_heldBack]
  refine State.link_foldl_retrained _ _ (.inl (List.mem_filter.mpr ⟨List.mem_range.mpr hj, ?_⟩))
  rw [State.stackUp_of_posts s.drained_posts hj, up]

theorem State.changeOp_now (op n : Nat) : (s.changeOp op n).clk.now = s.clk.now + nsTicks n := by
  rw [State.changeOp_eq, State.foldl_heldBack_clk, State.foldl_retrained_clk, State.stalled_now]

theorem State.opWord_changeOp (op n : Nat) : (s.changeOp op n).opWord = (s.stalled op n).opWord := by
  rw [State.changeOp_eq, State.foldl_keeps (g := State.opWord) State.opWord_heldBack,
    State.foldl_keeps (g := State.opWord) State.opWord_retrained]

theorem State.returns_changeOp (op n : Nat) (hj : j < 8) (h : tfind s.returns j = some r) (hf : r.fill = none) :
    tfind (s.changeOp op n).returns j = some { r with due := (s.changeOp op n).clk.now } := by
  have found : tfind (((List.range 8).filter s.drained.stackUp).foldl State.retrained (s.stalled op n)).returns j
      = some { r with due := r.due } := by
    rw [State.foldl_retrained_returns, State.stalled_returns, h]
  rw [State.changeOp_eq, State.foldl_heldBack_clk]
  exact State.tfind_foldl_heldBack hf _ _ found (.inr (List.mem_range.mpr hj))

end

/-! ## The packet (R250) -/

section
variable {s t : State} {id n : Nat} {p : Packet}

/-- A stack that serves or trains is not qualified for OP0. -/
def State.unfit (s : State) : Prop := ∃ j < 8, s.link j ≠ 0 ∧ s.fget F.scStackId_qual_op0 [j] = 0

theorem State.runOppoint_of_same (h : s.takeFw id 0x53 = some (t, p)) (n : Nat) (same : bits (p.word 32) 0 1 = s.fget F.glOpStat_op) :
    s.runOppoint id n = t.fixPacket p .done := by
  unfold State.runOppoint
  rw [h]
  exact if_pos (same.trans (State.takeFw_low h).opStat.symm)

/-- What an OPPOINT of another point does. -/
theorem State.runOppoint_of_other (h : s.takeFw id 0x53 = some (t, p)) (n : Nat) {op : Nat} (hop : bits (p.word 32) 0 1 = op)
    (other : op ≠ s.fget F.glOpStat_op) :
    s.runOppoint id n = if op = 0 && (List.range 8).any (fun k => t.link k ≠ 0 && t.fget F.scStackId_qual_op0 [k] = 0) then
      t.fixPacket p .malformed else (t.changeOp op n).fixPacket p .done 0 n := by
  subst hop
  unfold State.runOppoint
  rw [h]
  exact if_neg ((State.takeFw_low h).opStat ▸ other)

theorem State.unfit_iff (s : State) :
    (List.range 8).any (fun k => s.link k ≠ 0 && s.fget F.scStackId_qual_op0 [k] = 0) = true ↔ s.unfit := by
  simp [State.unfit]

theorem State.takeFw_unfit (h : s.takeFw id 0x53 = some (t, p)) : t.unfit ↔ s.unfit := by
  have low := State.takeFw_low h
  constructor <;> rintro ⟨j, hj, on, unfit⟩
  · exact ⟨j, hj, low.link hj ▸ on, low.fget (f := F.scStackId_qual_op0) rfl hj ▸ unfit⟩
  · exact ⟨j, hj, (low.link hj).symm ▸ on, (low.fget (f := F.scStackId_qual_op0) rfl hj).symm ▸ unfit⟩

theorem State.changeOp_packets (s : State) (op n : Nat) : (s.changeOp op n).packets = s.packets :=
  (State.changeOp_follows (μ := 0x12800023b0c53) op n (.refl _ s) rfl).kept .packets rfl

end

/-! ## The statement -/

/-- Settles O54: entry into self-refresh and exit, RETRAIN and OPPOINT. -/
theorem linkModes : Obligations.LinkModes := by
  intro s k id n s1 p hk hid
  subst hid
  refine ⟨?entry, ?exit, ?retrain, ?oppoint⟩
  case entry =>
    refine ⟨fun may none' => ?_, fun may waits => ?_, fun not => exec_srefEntry_of_not hk not⟩
    · have run := exec_srefEntry_of_may hk may
      rw [if_neg (by simp [none'])] at run
      refine ⟨_, run, s.link_enterSref hk, ?_⟩
      rw [State.linkOf_enterSref, State.linkOf_setLinkOf]
      refine ⟨rfl, rfl, rfl, rfl, s.entries_enterSref hk, fun i hi b => ?_, fun j hj => s.linkOf_setLinkOf_other _ hj,
        (exec_follows _ run).only⟩
      rw [State.pcc, State.pccs_enterSref]
      exact s.row_closeBanks k i b hi
    · have run := exec_srefEntry_of_may hk may
      rw [if_pos waits] at run
      have link : ((s.closeBanks k).fsat F.scSrefStat_cancels [k] 1).link k = s.link k := State.link_fsat_other _ rfl (by decide) 1 k
      have kept : s.Follows (fieldMask [.regs, .pccs]) ((s.closeBanks k).fsat F.scSrefStat_cancels [k] 1) :=
        State.fsat_follows _ _ _ (State.closeBanks_follows k (.refl _ s) rfl) rfl
      exact ⟨_, run, link.trans may.2.1, State.fget_fsat_same _ _ _ _ (by decide), kept.only⟩
  case exit =>
    refine ⟨fun wanted not => ?_, fun wanted held => ?_, fun not => (exec_srefExit hk s).trans (congrArg _ (State.srefExit_of_not not))⟩
    · have run := (exec_srefExit hk s).trans (congrArg _ (State.srefExit_of_wanted wanted))
      rw [if_neg (by simpa using not)] at run
      have on := wanted.1
      exact ⟨_, run, State.link_wake hk on, State.wake_now_op0 on, State.wake_now_op1 on, State.wake_retrains_of_drift hk on,
        State.wake_retrains_of_still hk on, (exec_follows _ run).only⟩
    · refine ((exec_srefExit hk s).trans (congrArg _ (State.srefExit_of_wanted wanted))).trans ?_
      rw [if_pos (by simpa using held)]
  case retrain =>
    intro bad taken w st v cs
    have run : exec (.retrain p.id ⟨n, bad⟩) s = .next _ := congrArg Host.Outcome.next 
      (State.runRetrain_of_taken taken ⟨n, bad⟩ (k := st) (v := v) (cs := cs) rfl rfl rfl)
    have hst : st < 8 := Nat.mod_lt _ (by decide)
    have others := State.takeFw_othersKept taken
    have low := State.takeFw_low taken
    refine ⟨fun down => ?_, fun up none' => ?_, fun up waits => ?_, fun up some' ready held => ?_, fun on some' ready owns => ?_⟩
    · rw [if_pos (by simpa using down)] at run
      obtain ⟨found, rest⟩ := s.fixPacket_ends others .unavailable 0 0 0
      exact ⟨_, run, found, rest, (s1.fixPacket_kept p .unavailable 0 0 0 (f := .links) (by decide)).trans
        (State.takeFw_kept taken (f := .links) (by decide))⟩
    · rw [if_neg (by simpa using up), if_pos (List.isEmpty_iff.mpr none')] at run
      obtain ⟨found, rest⟩ := s.fixPacket_ends (others.of_packets (s1.wake_packets st)) .done 0 0 0
      exact ⟨_, run, found, rest⟩
    · obtain ⟨c, hc, no⟩ := waits
      rw [if_neg (by simpa using up), if_neg (by simpa using List.ne_nil_of_mem hc),
        if_pos (by simpa using ⟨c, hc, no⟩)] at run
      exact run
    · rw [if_neg (by simpa using up), if_neg (by simpa using some'), if_neg (by simpa using ready), if_pos (by simpa using held)] at run
      exact run
    · have on' : s.link st = 3 := (low.link hst).symm.trans on
      have hv : v = s := State.wake_of_not (by omega)
      rw [if_neg (by simp [State.stackUp, on]), if_neg (by simpa using some'), if_neg (by simpa using ready), if_neg (by simpa using owns),
        State.wake_of_not (s := s1) (by omega)] at run
      obtain ⟨u, hu, found, rest, passes, links, maps⟩ :=
        State.retrained_effect hst taken cs (decide (bits w 4 2 = 2)) ⟨n, bad⟩
      rw [hu] at found rest passes links maps
      refine ⟨_, run, found, rest, passes, links, fun c g x test hc single ok free fresh => ?_⟩
      have same : cs = s.retrainChans st w := congrArg (State.retrainChans · st w) hv
      rw [same] at hc
      obtain ⟨small, pcs⟩ := State.mem_retrainChans hc
      have one : cs = [c] := same.trans (State.retrainChans_of_test hc test)
      have served : s1.channelPcs st c = s.channelPcs st c :=
        State.channelPcs_of_tfind small (congrArg (tfind · _) (State.takeFw_some taken).2.1)
      have lanes : s1.devLanes st c = s.devLanes st c := State.devLanes_of_maps (State.takeFw_kept taken (f := .laneMaps) (by decide))
      have ladder : s1.ladder = s.ladder := State.takeFw_kept taken (f := .ladder) (by decide)
      rw [State.devLanes_of_maps maps, one, single, decide_eq_true test]
      exact State.laneOut_retrainAll hst small ok (ladder ▸ fresh) on (served ▸ pcs) (lanes ▸ free)
  case oppoint =>
    intro taken op
    have lt : op < 2 := Nat.mod_lt _ (by decide)
    have others := State.takeFw_othersKept taken
    have low := State.takeFw_low taken
    obtain ⟨opcode, -, -⟩ := State.takeFw_some taken
    have noReserve : p.opcode ≠ 0x31 := by omega
    have clk : s1.clk = s.clk := State.takeFw_kept taken (f := .clk) (by decide)
    have run : exec (.oppoint p.id n) s = .next (s.runOppoint p.id n) := rfl
    refine ⟨fun same => ?_, fun other zero unfit => ?_, fun other fit => ?_⟩
    · rw [State.runOppoint_of_same taken n same] at run
      obtain ⟨found, rest⟩ := s.fixPacket_ends others .done 0 0 0
      exact ⟨_, run, found, (s1.fixPacket_kept p .done 0 0 0 (f := .clk) (by decide)).trans clk, rest⟩
    · have unfit' := s1.unfit_iff.mpr ((State.takeFw_unfit taken).mpr unfit)
      rw [State.runOppoint_of_other taken n (op := op) rfl other, if_pos (by rw [unfit']; simpa using zero)] at run
      obtain ⟨found, -⟩ := s.fixPacket_ends others .malformed 0 0 0
      exact ⟨_, run, found, (s1.fixPacket_kept p .malformed 0 0 0 (f := .clk) (by decide)).trans clk,
        (State.lowKept.of_regs (s1.fixPacket_regs noReserve .malformed 0 0 0)).opStat.trans low.opStat⟩
    · have fits : ¬ (op = 0 ∧ s1.unfit) := by
        rintro ⟨zero, un⟩
        obtain ⟨j, hj, on, bad⟩ := (State.takeFw_unfit taken).mp un
        exact (fit zero j hj).elim on fun good => good bad
      rw [State.runOppoint_of_other taken n (op := op) rfl other, if_neg (by
        rw [Bool.and_eq_true, State.unfit_iff]
        simpa using fits)] at run
      obtain ⟨found, rest⟩ := s.fixPacket_ends (others.of_packets (s1.changeOp_packets op n)) .done 0 n 0
      have regs := (s1.changeOp op n).fixPacket_regs noReserve .done 0 n 0
      have word : ((s1.changeOp op n).fixPacket p .done 0 n 0).opWord = (s1.stalled op n).opWord := by
        rw [← s1.opWord_changeOp, State.opWord, regs, State.opWord]
      have now := s1.changeOp_now op n
      rw [clk] at now
      have clk' := (s1.changeOp op n).fixPacket_kept p .done 0 n 0 (f := .clk) (by decide)
      have returns := (s1.changeOp op n).fixPacket_kept p .done 0 n 0 (f := .returns) (by decide)
      refine ⟨_, run, found, rest, ?_, ?_, ?_, ?_, fun j hj up => ?_, fun j hj r hr hf => ?_⟩
      · rw [State.fget_of_opWord word rfl, State.stalled_op, Nat.mod_eq_of_lt lt]
      · rw [State.fget_of_opWord word rfl, State.stalled_last]
      · rw [State.fget_of_opWord word rfl]
        exact s1.stalled_changes op n
      · exact (congrArg Clocks.now clk').trans now
      · rw [State.link_of_regs regs]
        refine s1.link_changeOp op n hj ?_
        rw [State.stackUp, low.link hj]
        exact up
      · rw [returns, clk']
        exact s1.returns_changeOp op n hj ((State.takeFw_kept taken (f := .returns) (by decide)).symm ▸ hr) hf

end Sys2Proof.Machine
end

