-- ==== Sys2Proof/Proofs/PoisonSectors.lean ====
section
/-! A sector written as poison reads as poison (R305 to R311): products with a constant are linear, the check symbols make every syndrome
of the poison fold 0, and the plain fold then leaves S0 = 0xFF. -/
namespace Sys2Proof.Machine

/-! ## Products in GF(2^8) (R305) -/

/-- The product with α. -/
def gfDouble (d : Nat) : Nat := if d * 2 ≥ 256 then (d * 2) ^^^ 0x11D else d * 2

theorem gfDouble_lt {x : Nat} (h : x < 256) : gfDouble x < 256 := by
  have all : ∀ x < 256, gfDouble x < 256 := by decide +kernel
  exact all x h

theorem xor_byte {x y : Nat} (hx : x < 256) (hy : y < 256) : x ^^^ y < 256 := Nat.xor_lt_two_pow (n := 8) hx hy

/-- The reduction adds the polynomial when the top bit is set. -/
theorem gfDouble_eq {x : Nat} (h : x < 256) : gfDouble x = (2 * x) ^^^ (if x.testBit 7 then 0x11D else 0) := by
  have top : x.testBit 7 = decide (x * 2 ≥ 256) := by
    simp only [Nat.testBit_eq_decide_div_mod_eq, decide_eq_decide]
    omega
  unfold gfDouble
  rw [top, Nat.mul_comm 2 x]
  by_cases h : x * 2 ≥ 256
  · rw [if_pos h, if_pos (by simpa using h)]
  · rw [if_neg h, if_neg (by simpa using h), Nat.xor_zero]

theorem gfDouble_xor {x y : Nat} (hx : x < 256) (hy : y < 256) : gfDouble (x ^^^ y) = gfDouble x ^^^ gfDouble y := by
  have twice : 2 * (x ^^^ y) = (2 * x) ^^^ (2 * y) := by
    simpa only [Nat.shiftLeft_eq, Nat.pow_one, Nat.mul_comm 2] using Nat.shiftLeft_xor_distrib (a := x) (b := y) (i := 1)
  rw [gfDouble_eq (xor_byte hx hy), gfDouble_eq hx, gfDouble_eq hy, twice, Nat.testBit_xor]
  cases x.testBit 7 <;> cases y.testBit 7 <;> simp [Nat.xor_assoc, Nat.xor_comm, Nat.xor_left_comm]

/-- One bit of the second factor. -/
def gfStep (b : Nat) (p : Nat × Nat) (i : Nat) : Nat × Nat := (if bit b i then p.1 ^^^ p.2 else p.1, gfDouble p.2)

theorem gfMul_eq (a b : Nat) : gfMul a b = ((List.range 8).foldl (gfStep b) (0, a)).1 := rfl

theorem gfStep_foldl_lt (b : Nat) : ∀ (l : List Nat) (p : Nat × Nat), p.1 < 256 → p.2 < 256 → (l.foldl (gfStep b) p).1 < 256
  | [], _, h, _ => h
  | i :: l, p, h1, h2 => by
    refine gfStep_foldl_lt b l (gfStep b p i) ?_ (gfDouble_lt h2)
    unfold gfStep
    split
    · exact xor_byte h1 h2
    · exact h1

theorem gfStep_foldl_xor (b : Nat) : ∀ (l : List Nat) (p q : Nat × Nat), p.2 < 256 → q.2 < 256 →
    (l.foldl (gfStep b) (p.1 ^^^ q.1, p.2 ^^^ q.2)).1 = (l.foldl (gfStep b) p).1 ^^^ (l.foldl (gfStep b) q).1
  | [], _, _, _, _ => rfl
  | i :: l, p, q, hp, hq => by
    have step : gfStep b (p.1 ^^^ q.1, p.2 ^^^ q.2) i = ((gfStep b p i).1 ^^^ (gfStep b q i).1, (gfStep b p i).2 ^^^ (gfStep b q i).2) := by
      refine Prod.ext ?_ (gfDouble_xor hp hq)
      unfold gfStep
      split
      · simp only [Nat.xor_assoc, Nat.xor_left_comm]
      · rfl
    simp only [List.foldl_cons, step]
    exact gfStep_foldl_xor b l _ _ (gfDouble_lt hp) (gfDouble_lt hq)

theorem gfMul_lt {x : Nat} (h : x < 256) (b : Nat) : gfMul x b < 256 := gfStep_foldl_lt b (List.range 8) (0, x) (Nat.zero_lt_succ 255) h

theorem gfMul_xor {x y : Nat} (hx : x < 256) (hy : y < 256) (b : Nat) : gfMul (x ^^^ y) b = gfMul x b ^^^ gfMul y b := by
  have sum := gfStep_foldl_xor b (List.range 8) (0, x) (0, y) hx hy
  rwa [← gfMul_eq, ← gfMul_eq, Nat.xor_self, ← gfMul_eq] at sum

theorem gfMul_one {x : Nat} (h : x < 256) : gfMul x 1 = x := by
  have all : ∀ x < 256, gfMul x 1 = x := by decide +kernel
  exact all x h

/-- α^j is a root of the generator (R305), for the four syndromes. -/
theorem generator_root {j f : Nat} (hj : j < 4) (hf : f < 256) : gfMul (gfMul (gfMul (gfMul f (gfPow j)) (gfPow j)) (gfPow j)) (gfPow j)
    = gfMul (gfMul (gfMul (gfMul f 0x0F) (gfPow j) ^^^ gfMul f 0x36) (gfPow j) ^^^ gfMul f 0x78) (gfPow j) ^^^ gfMul f 0x40 := by
  have all : ∀ j < 4, ∀ f < 256, gfMul (gfMul (gfMul (gfMul f (gfPow j)) (gfPow j)) (gfPow j)) (gfPow j)
      = gfMul (gfMul (gfMul (gfMul f 0x0F) (gfPow j) ^^^ gfMul f 0x36) (gfPow j) ^^^ gfMul f 0x78) (gfPow j) ^^^ gfMul f 0x40 := by
    decide +kernel
  exact all j hj f hf

/-! ## Syndromes (R306, R311) -/

section
variable {j : Nat}

/-- The value of a word of symbols at α^j. -/
def syndrome (j : Nat) (w : List Nat) : Nat := w.foldl (fun acc c => gfMul acc (gfPow j) ^^^ c) 0

/-- The remainder's register with one more symbol (R306). -/
def rsStep (r : Nat × Nat × Nat × Nat) (u : Nat) : Nat × Nat × Nat × Nat :=
  let f := u ^^^ r.1
  (r.2.1 ^^^ gfMul f 0x0F, r.2.2.1 ^^^ gfMul f 0x36, r.2.2.2 ^^^ gfMul f 0x78, gfMul f 0x40)

/-- The four symbols of a register are bytes. -/
def rsBytes (r : Nat × Nat × Nat × Nat) : Prop := r.1 < 256 ∧ r.2.1 < 256 ∧ r.2.2.1 < 256 ∧ r.2.2.2 < 256

/-- The value of a register at α^j. -/
def rsValue (j : Nat) (r : Nat × Nat × Nat × Nat) : Nat :=
  gfMul (gfMul (gfMul r.1 (gfPow j) ^^^ r.2.1) (gfPow j) ^^^ r.2.2.1) (gfPow j) ^^^ r.2.2.2

/-- The product with α^(4j). -/
def gfUp (j x : Nat) : Nat := gfMul (gfMul (gfMul (gfMul x (gfPow j)) (gfPow j)) (gfPow j)) (gfPow j)

theorem syndrome_lt : ∀ {w : List Nat}, (∀ c ∈ w, c < 256) → syndrome j w < 256 := by
  intro w
  induction w using List.reverseRecOn with
  | nil => exact fun _ => Nat.zero_lt_succ 255
  | append_singleton w c ih =>
    intro h
    have hw := ih fun x hx => h x (List.mem_append_left _ hx)
    rw [syndrome, List.foldl_append]
    exact xor_byte (gfMul_lt hw _) (h c (by simp))

theorem syndrome_snoc (w : List Nat) (c : Nat) : syndrome j (w ++ [c]) = gfMul (syndrome j w) (gfPow j) ^^^ c := by
  rw [syndrome, List.foldl_append]
  rfl

/-- The symbolwise sum of two registers. -/
def rsXor (p q : Nat × Nat × Nat × Nat) : Nat × Nat × Nat × Nat :=
  (p.1 ^^^ q.1, p.2.1 ^^^ q.2.1, p.2.2.1 ^^^ q.2.2.1, p.2.2.2 ^^^ q.2.2.2)

/-- What the generator takes off for one leading symbol. -/
def rsTap (f : Nat) : Nat × Nat × Nat × Nat := (gfMul f 0x0F, gfMul f 0x36, gfMul f 0x78, gfMul f 0x40)

theorem rsStep_eq (r : Nat × Nat × Nat × Nat) (u : Nat) : rsStep r u = rsXor (r.2.1, r.2.2.1, r.2.2.2, 0) (rsTap (u ^^^ r.1)) := by
  simp only [rsStep, rsXor, rsTap, Nat.zero_xor]

theorem rsBytes_tap {f : Nat} (h : f < 256) : rsBytes (rsTap f) := by
  dsimp only [rsBytes, rsTap]
  exact ⟨gfMul_lt h 0x0F, gfMul_lt h 0x36, gfMul_lt h 0x78, gfMul_lt h 0x40⟩

theorem rsBytes_lead {x : Nat} (h : x < 256) : rsBytes (x, 0, 0, 0) :=
  ⟨h, Nat.zero_lt_succ 255, Nat.zero_lt_succ 255, Nat.zero_lt_succ 255⟩

theorem rsBytes_shift {r : Nat × Nat × Nat × Nat} (h : rsBytes r) : rsBytes (r.2.1, r.2.2.1, r.2.2.2, 0) :=
  ⟨h.2.1, h.2.2.1, h.2.2.2, Nat.zero_lt_succ 255⟩

theorem rsBytes_step {r : Nat × Nat × Nat × Nat} (h : rsBytes r) {u : Nat} (hu : u < 256) : rsBytes (rsStep r u) := by
  obtain ⟨a0, a1, a2, a3⟩ := rsBytes_shift h
  obtain ⟨b0, b1, b2, b3⟩ := rsBytes_tap (xor_byte hu h.1)
  rw [rsStep_eq]
  exact ⟨xor_byte a0 b0, xor_byte a1 b1, xor_byte a2 b2, xor_byte a3 b3⟩

theorem rsValue_xor {p q : Nat × Nat × Nat × Nat} (hp : rsBytes p) (hq : rsBytes q) :
    rsValue j (rsXor p q) = rsValue j p ^^^ rsValue j q := by
  obtain ⟨p0, p1, p2, -⟩ := hp
  obtain ⟨q0, q1, q2, -⟩ := hq
  have shuffle : ∀ a b c d : Nat, (a ^^^ b) ^^^ (c ^^^ d) = (a ^^^ c) ^^^ (b ^^^ d) := fun a b c d => by
    simp only [Nat.xor_assoc, Nat.xor_left_comm]
  unfold rsValue rsXor
  dsimp only
  rw [gfMul_xor p0 q0, shuffle, gfMul_xor (xor_byte (gfMul_lt p0 _) p1) (xor_byte (gfMul_lt q0 _) q1), shuffle,
    gfMul_xor (xor_byte (gfMul_lt (xor_byte (gfMul_lt p0 _) p1) _) p2) (xor_byte (gfMul_lt (xor_byte (gfMul_lt q0 _) q1) _) q2), shuffle]

theorem gfUp_xor {x y : Nat} (hx : x < 256) (hy : y < 256) : gfUp j (x ^^^ y) = gfUp j x ^^^ gfUp j y := by
  unfold gfUp
  rw [gfMul_xor hx hy, gfMul_xor (gfMul_lt hx _) (gfMul_lt hy _), gfMul_xor (gfMul_lt (gfMul_lt hx _) _) (gfMul_lt (gfMul_lt hy _) _),
    gfMul_xor (gfMul_lt (gfMul_lt (gfMul_lt hx _) _) _) (gfMul_lt (gfMul_lt (gfMul_lt hy _) _) _)]

theorem gfMul_zero_left (b : Nat) : gfMul 0 b = 0 := by
  have twice := gfMul_xor (Nat.zero_lt_succ 255) (Nat.zero_lt_succ 255) b
  rwa [Nat.xor_self, Nat.xor_self] at twice

/-- A register moved up by one place has lost its leading symbol. -/
theorem rsValue_shift {r : Nat × Nat × Nat × Nat} (h : rsBytes r) :
    gfMul (rsValue j r) (gfPow j) = gfUp j r.1 ^^^ rsValue j (r.2.1, r.2.2.1, r.2.2.2, 0) := by
  have lead : rsValue j (gfMul r.1 (gfPow j), 0, 0, 0) = gfUp j r.1 := by simp only [rsValue, gfUp, Nat.xor_zero]
  have moved : gfMul (rsValue j r) (gfPow j) = rsValue j (rsXor (gfMul r.1 (gfPow j), 0, 0, 0) (r.2.1, r.2.2.1, r.2.2.2, 0)) := by
    simp only [rsValue, rsXor, Nat.zero_xor, Nat.xor_zero]
  rw [moved, rsValue_xor (rsBytes_lead (gfMul_lt h.1 _)) (rsBytes_shift h), lead]

/-- One more symbol: the register's value moves up by α^j and takes the symbol's part. -/
theorem rsValue_step (hj : j < 4) {r : Nat × Nat × Nat × Nat} (h : rsBytes r) {u : Nat} (hu : u < 256) :
    rsValue j (rsStep r u) = gfMul (rsValue j r) (gfPow j) ^^^ gfUp j u := by
  have hf := xor_byte hu h.1
  have tap : rsValue j (rsTap (u ^^^ r.1)) = gfUp j (u ^^^ r.1) := by
    dsimp only [rsValue, rsTap, gfUp]
    exact (generator_root hj hf).symm
  rw [rsStep_eq, rsValue_xor (rsBytes_shift h) (rsBytes_tap hf), tap, gfUp_xor hu h.1, rsValue_shift h]
  simp only [Nat.xor_assoc, Nat.xor_comm]

/-- The register holds the remainder: its value is the word's, moved up by four places. -/
theorem syndrome_up (hj : j < 4) : ∀ {w : List Nat}, (∀ c ∈ w, c < 256) →
    rsBytes (w.foldl rsStep (0, 0, 0, 0)) ∧ gfUp j (syndrome j w) = rsValue j (w.foldl rsStep (0, 0, 0, 0)) := by
  intro w
  induction w using List.reverseRecOn with
  | nil =>
    intro _
    refine ⟨rsBytes_lead (Nat.zero_lt_succ 255), ?_⟩
    simp [syndrome, gfUp, rsValue, gfMul_zero_left]
  | append_singleton w c ih =>
    intro h
    have small : ∀ x ∈ w, x < 256 := fun x hx => h x (List.mem_append_left _ hx)
    have hc : c < 256 := h c (by simp)
    obtain ⟨bytes, up⟩ := ih small
    rw [List.foldl_append, List.foldl_cons, List.foldl_nil]
    refine ⟨rsBytes_step bytes hc, ?_⟩
    rw [rsValue_step hj bytes hc, ← up, syndrome_snoc, gfUp_xor (gfMul_lt (syndrome_lt small) _) hc]
    rfl

/-- A word with its check symbols has every syndrome 0. -/
theorem syndrome_checked (hj : j < 4) {w : List Nat} (h : ∀ c ∈ w, c < 256) : syndrome j (w ++ rsCheck w) = 0 := by
  obtain ⟨⟨b0, b1, b2, b3⟩, up⟩ := syndrome_up hj h
  have check : rsCheck w = [(w.foldl rsStep (0, 0, 0, 0)).1, (w.foldl rsStep (0, 0, 0, 0)).2.1, (w.foldl rsStep (0, 0, 0, 0)).2.2.1,
      (w.foldl rsStep (0, 0, 0, 0)).2.2.2] := rfl
  rw [check]
  generalize w.foldl rsStep (0, 0, 0, 0) = r at b0 b1 b2 b3 up ⊢
  have hs := syndrome_lt (j := j) h
  have split : w ++ [r.1, r.2.1, r.2.2.1, r.2.2.2] = (((w ++ [r.1]) ++ [r.2.1]) ++ [r.2.2.1]) ++ [r.2.2.2] := by simp
  have moved : syndrome j (w ++ [r.1, r.2.1, r.2.2.1, r.2.2.2])
      = rsValue j (rsXor (gfMul (syndrome j w) (gfPow j), 0, 0, 0) r) := by
    rw [split]
    simp only [syndrome_snoc, rsValue, rsXor, Nat.zero_xor]
  have lead : rsValue j (gfMul (syndrome j w) (gfPow j), 0, 0, 0) = gfUp j (syndrome j w) := by simp only [rsValue, gfUp, Nat.xor_zero]
  rw [moved, rsValue_xor (rsBytes_lead (gfMul_lt hs _)) ⟨b0, b1, b2, b3⟩, lead, up, Nat.xor_self]

end

/-! ## A poisoned sector (R308, R310, R311) -/

/-- The three symbols of a fold. -/
def foldSyms (f : Nat) : List Nat := [bits f 16 8, bits f 8 8, bits f 0 8]

theorem syndromes_eq (raw : List Byte) (f : Nat) :
    syndromes raw f = (List.range 4).map fun j =>
      syndrome j ((raw.take 32).map (·.toNat) ++ foldSyms f ++ (raw.drop 32).map (·.toNat)) := rfl

theorem sectorBytes_length (d : SectorData) : (sectorBytes d).length = 32 := by simp [sectorBytes]

theorem toNat_map_ofNat {l : List Nat} (h : ∀ c ∈ l, c < 256) : (l.map fun n => BitVec.ofNat 8 n).map (·.toNat) = l := by
  rw [List.map_map]
  exact (List.map_congr_left fun c hc => by simpa using h c hc).trans (List.map_id l)

theorem rsCheck_lt {w : List Nat} (h : ∀ c ∈ w, c < 256) : ∀ c ∈ rsCheck w, c < 256 := by
  obtain ⟨⟨b0, b1, b2, b3⟩, -⟩ := syndrome_up (j := 0) (by decide) h
  have check : rsCheck w = [(w.foldl rsStep (0, 0, 0, 0)).1, (w.foldl rsStep (0, 0, 0, 0)).2.1, (w.foldl rsStep (0, 0, 0, 0)).2.2.1,
      (w.foldl rsStep (0, 0, 0, 0)).2.2.2] := rfl
  rw [check]
  simp only [List.forall_mem_cons]
  exact ⟨b0, b1, b2, b3, by simp⟩

/-- The symbols before the check symbols: the data and the fold. -/
def codeWord (d : SectorData) (f : Nat) : List Nat := (sectorBytes d).map (·.toNat) ++ foldSyms f

theorem codeWord_lt (d : SectorData) (f : Nat) : ∀ c ∈ codeWord d f, c < 256 := by
  intro c hc
  rcases List.mem_append.mp hc with hc | hc
  · obtain ⟨b, -, rfl⟩ := List.mem_map.mp hc
    exact b.isLt
  · simp only [foldSyms, List.mem_cons, List.not_mem_nil, or_false] at hc
    rcases hc with rfl | rfl | rfl <;> exact Nat.mod_lt _ (Nat.two_pow_pos 8)

theorem encodeSector_eq (a : Nat) (poison : Bool) (d : SectorData) :
    encodeSector a poison d = sectorBytes d ++ (rsCheck (codeWord d (foldOf a poison))).map fun n => BitVec.ofNat 8 n := rfl

/-- The word that a decoder of fold f evaluates for a sector encoded under another fold. -/
theorem syndromes_encodeSector (a : Nat) (poison : Bool) (d : SectorData) (f : Nat) : syndromes (encodeSector a poison d) f
    = (List.range 4).map fun j => syndrome j (codeWord d f ++ rsCheck (codeWord d (foldOf a poison))) := by
  have data : (encodeSector a poison d).take 32 = sectorBytes d := by
    rw [encodeSector_eq, List.take_left' (sectorBytes_length d)]
  have check : (encodeSector a poison d).drop 32 = (rsCheck (codeWord d (foldOf a poison))).map fun n => BitVec.ofNat 8 n := by
    rw [encodeSector_eq, List.drop_left' (sectorBytes_length d)]
  rw [syndromes_eq, data, check, toNat_map_ofNat (rsCheck_lt (codeWord_lt d _))]
  rfl

theorem syndromes_own (a : Nat) (poison : Bool) (d : SectorData) :
    syndromes (encodeSector a poison d) (foldOf a poison) = [0, 0, 0, 0] := by
  rw [syndromes_encodeSector, List.map_congr_left fun j hj => syndrome_checked (List.mem_range.mp hj) (codeWord_lt d _)]
  rfl

/-- S0 is the sum of the symbols. -/
theorem syndrome_zero : ∀ {w : List Nat}, (∀ c ∈ w, c < 256) → syndrome 0 w = w.foldl (· ^^^ ·) 0 := by
  intro w
  induction w using List.reverseRecOn with
  | nil => exact fun _ => rfl
  | append_singleton w c ih =>
    intro h
    have small : ∀ x ∈ w, x < 256 := fun x hx => h x (List.mem_append_left _ hx)
    rw [syndrome_snoc, show gfPow 0 = 1 from rfl, gfMul_one (syndrome_lt small), ih small, List.foldl_append]
    rfl

theorem foldl_xor (l : List Nat) : ∀ x : Nat, l.foldl (· ^^^ ·) x = x ^^^ l.foldl (· ^^^ ·) 0 := by
  induction l with
  | nil => exact fun x => (Nat.xor_zero x).symm
  | cons c l ih =>
    intro x
    rw [List.foldl_cons, List.foldl_cons, ih (x ^^^ c), ih (0 ^^^ c), Nat.zero_xor, Nat.xor_assoc]

/-- The poison fold differs from the plain one in every bit. -/
theorem foldSyms_poison (a : Nat) :
    (foldSyms (foldOf a true)).foldl (· ^^^ ·) 0 = (foldSyms (foldOf a false)).foldl (· ^^^ ·) 0 ^^^ 0xFF := by
  have part : ∀ lo, bits (fold24 a ^^^ 0xFFFFFF) lo 8 = bits (fold24 a) lo 8 ^^^ bits 0xFFFFFF lo 8 := fun lo => by
    unfold bits
    rw [Nat.shiftRight_xor_distrib, Nat.xor_mod_two_pow]
  simp only [foldSyms, foldOf, if_true, Bool.false_eq_true, if_false, part, List.foldl_cons, List.foldl_nil, Nat.zero_xor]
  have ones : bits 0xFFFFFF 16 8 = 0xFF ∧ bits 0xFFFFFF 8 8 = 0xFF ∧ bits 0xFFFFFF 0 8 = 0xFF := by decide
  obtain ⟨h2, h1, h0⟩ := ones
  rw [h2, h1, h0]
  generalize bits (fold24 a) 16 8 = x
  generalize bits (fold24 a) 8 8 = y
  generalize bits (fold24 a) 0 8 = z
  refine Nat.eq_of_testBit_eq fun i => ?_
  simp only [Nat.testBit_xor]
  cases x.testBit i <;> cases y.testBit i <;> cases z.testBit i <;> cases (0xFF : Nat).testBit i <;> rfl

/-- Under the plain fold a poisoned sector is in error. -/
theorem syndromes_plain_ne (a : Nat) (d : SectorData) : syndromes (encodeSector a true d) (foldOf a false) ≠ [0, 0, 0, 0] := by
  have own := syndrome_checked (j := 0) (by decide) (codeWord_lt d (foldOf a true))
  have small : ∀ f, ∀ c ∈ codeWord d f ++ rsCheck (codeWord d (foldOf a true)), c < 256 := fun f c hc =>
    (List.mem_append.mp hc).elim (codeWord_lt d f c) (rsCheck_lt (codeWord_lt d _) c)
  rw [syndromes_encodeSector]
  intro h
  have plain : syndrome 0 (codeWord d (foldOf a false) ++ rsCheck (codeWord d (foldOf a true))) = 0 := by
    rw [show List.range 4 = [0, 1, 2, 3] from rfl, List.map_cons] at h
    exact (List.cons.inj h).1
  rw [syndrome_zero (small _)] at own plain
  generalize rsCheck (codeWord d (foldOf a true)) = check at own plain
  simp only [codeWord, List.foldl_append] at own plain
  rw [foldl_xor check, foldl_xor (foldSyms _)] at own plain
  rw [foldSyms_poison, ← Nat.xor_assoc, Nat.xor_right_comm, plain, Nat.zero_xor] at own
  exact absurd own (by decide)

/-- A sector written as poison reads as poison. -/
theorem decodeSector_encode_poison (a : Nat) (d : SectorData) : (decodeSector a (encodeSector a true d)).1 = .poison := by
  unfold decodeSector
  rw [syndromes_own a true d]
  dsimp only
  rw [if_neg (syndromes_plain_ne a d), if_pos rfl]

end Sys2Proof.Machine
end

