-- ==== Sys2Proof/Proofs/PostsOffline.lean ====
section
/-! The posts of the package through accesses to memory, the passing of time, the end of packets and what a stack that goes offline takes
with it (R219, R233, R245 step 2). -/
namespace Sys2Proof.Machine

section
variable (s : State)

/-! ## Segments, requests that wait, packets -/

@[simp] theorem State.posts_snoopEnd (src bound : Nat) : (s.snoopEnd src bound).posts = s.posts :=
  State.posts_of_follows (State.snoopEnd_follows (μ := 0x80000000000) src bound (.refl _ s) rfl) rfl

@[simp] theorem State.posts_demandFetch (n start : Nat) : (s.demandFetch n start).posts = s.posts :=
  State.posts_of_follows (State.demandFetch_follows (μ := 0x30000000) n start (.refl _ s) rfl) rfl

@[simp] theorem State.posts_stopFetch (seg : Nat) : (s.stopFetch seg).posts = s.posts :=
  State.posts_of_follows (State.stopFetch_follows (μ := 0x80048000000) seg (.refl _ s) rfl) rfl

@[simp] theorem State.posts_dropReserves : s.dropReserves.posts = s.posts := by
  unfold State.dropReserves
  refine State.posts_foldl (fun t f => ?_) _ _
  extract_lets e held t1
  have h1 : t1.posts = t.posts := t.posts_dropSeg _
  exact State.posts_ite rfl (State.posts_ite ((State.posts_of_regs (s := t1) rfl).trans h1) h1)

@[simp] theorem State.posts_fixPacket (p : Packet) (st : KStatus) (count aux detail : Nat) :
    (s.fixPacket p st count aux detail).posts = s.posts := by
  unfold State.fixPacket
  extract_lets s1
  have h1 : s1.posts = s.posts := State.posts_of_regs rfl
  exact (State.posts_snoopEnd _ _ _).trans (State.posts_ite (s1.posts_dropReserves.trans h1) h1)

@[simp] theorem State.posts_endOne (n : Nat) (r : PortReq) (st : PStatus) : (s.endOne n r st).posts = s.posts :=
  (State.posts_setPort _ n _).trans (s.posts_portErr n st r.tag r.kind.code)

@[simp] theorem State.posts_endParked (seg : Nat) (st : PStatus) : (s.endParked seg st).posts = s.posts := by
  unfold State.endParked
  refine State.posts_foldl (fun t x => ?_) _ _
  extract_lets ps
  exact State.posts_ite (t.posts_endOne _ _ _) ((State.posts_sweep _ _ _).trans (t.posts_setReq _ _))

/-! ## Queues of a stack that goes offline -/

theorem State.posts_meetOff (n id : Nat) : (s.meetOff n id).posts = s.posts := by
  unfold State.meetOff
  split
  · exact s.posts_setReq n _
  · rfl

theorem State.posts_mergeLost (src : Src) (pc : Nat) : (s.mergeLost src pc).posts = s.posts := by
  unfold State.mergeLost
  split
  · exact s.posts_setPart _ _ _ _
  · rfl

theorem State.posts_readLost (e : Ent) : (s.readLost e).posts = s.posts := by
  unfold State.readLost
  split
  next n id i _ =>
    have met := s.posts_meetOff n id
    generalize s.meetOff n id = u at met ⊢
    dsimp only
    split
    · exact State.posts_ite ((u.posts_setPart _ _ _ _).trans met) ((u.posts_deliver _ _ _ _).trans met)
    · exact (u.posts_deliver _ _ _ _).trans met
  · rfl

theorem State.posts_dropQueues (pc : Nat) : (s.dropQueues pc).posts = s.posts := by
  unfold State.dropQueues
  extract_lets p s1 s2
  have h2 : s2.posts = s.posts := by
    refine (State.posts_foldl (fun t e => ?_) _ s1).trans (s.posts_setPcc pc _)
    exact (State.posts_readLost _ e).trans (State.posts_ite (t.posts_mateWrite _ _) rfl)
  exact State.posts_ite rfl ((State.posts_foldl (fun t m => State.posts_foldl (fun u src => u.posts_mergeLost src pc) _ t) _ s2).trans h2)

theorem State.posts_reroute (k : Nat) : (s.reroute k).posts = s.posts := by
  unfold State.reroute
  refine State.posts_foldl (fun t e => State.posts_foldl (fun u r => ?_) _ t) _ s
  refine State.posts_ite rfl ?_
  extract_lets rd u'
  have met : u'.posts = u.posts := State.posts_ite (u.posts_meetOff _ _) rfl
  exact (State.posts_foldl (fun v i => v.posts_setPart _ _ _ _) _ u').trans met

/-! ## Pools, streams and attention packets -/

theorem State.posts_loseFrame (g : Nat) : (s.loseFrame g).posts = s.posts := by
  have h1 := s.posts_dropSeg g
  unfold State.loseFrame
  dsimp only
  split
  · split
    · have h2 := (State.posts_dropSeg _ g).trans (s.posts_stopFetch g)
      generalize (s.stopFetch g).dropSeg g = u at h2 ⊢
      refine Eq.trans (State.posts_of_regs (s := u) ?_) h2
      rfl
    · exact h1
  · split
    · exact (State.posts_demandFetch _ g 0).trans h1
    · exact h1

theorem State.posts_losePool (k lo : Nat) : (s.losePool k lo).posts = s.posts :=
  State.posts_foldl (fun t _ => State.posts_ite (t.posts_loseFrame _) rfl) _ s

theorem State.posts_setStream (id : Nat) (st : Stream) : (s.setStream id st).posts = s.posts := by
  unfold State.setStream
  extract_lets s1
  have h1 : s1.posts = s.posts := State.posts_of_regs rfl
  exact State.posts_ite h1 ((s1.posts_raise rfl _ _ (by simp [F.lgErr_backing, F.lgErr_first_stream])).trans h1)

theorem State.posts_degrade (k lo : Nat) : (s.degrade k lo).posts = s.posts := by
  unfold State.degrade
  refine State.posts_foldl (fun t id => ?_) _ s
  split
  · exact State.posts_ite (t.posts_setStream _ _) rfl
  · rfl

theorem State.posts_loseLodging (mirror gone : Nat → Bool) (k : Nat) : (s.loseLodging mirror gone k).posts = s.posts := by
  unfold State.loseLodging
  refine State.posts_foldl (fun t p => ?_) _ s
  extract_lets s1
  have h1 : s1.posts = t.posts := t.posts_degrade p 0
  refine State.posts_ite h1 (Eq.trans (State.posts_of_regs (s := s1) ?_) h1)
  rfl

theorem State.posts_loseMeta (desc : Nat) (gone : Nat → Bool) : (s.loseMeta desc gone).posts = s.posts := by
  unfold State.loseMeta
  extract_lets ks
  exact State.posts_ite rfl (State.posts_foldl (fun t _ => State.posts_ite rfl (t.posts_setStream _ _)) _ s)

theorem State.posts_attnFail (p : Packet) (st : PStatus) (addr count : Nat) : (s.attnFail p st addr count).posts = s.posts :=
  (State.posts_fixPacket _ _ _ _ _ _).trans (State.posts_of_regs rfl)

theorem State.posts_loseAttn (k : Nat) : (s.loseAttn k).posts = s.posts := by
  unfold State.loseAttn
  refine State.posts_ite rfl (State.posts_foldl (fun t e => ?_) _ s)
  split
  · exact State.posts_ite (t.posts_attnFail _ _ _ _) rfl
  · rfl

theorem State.posts_stopRetire (k : Nat) : (s.stopRetire k).posts = s.posts := by
  unfold State.stopRetire
  extract_lets s1
  have h1 : s1.posts = s.posts := by
    refine State.posts_foldl (fun t e => ?_) _ s
    split
    · refine State.posts_ite ?_ rfl
      split
      · exact t.posts_fixPacket _ _ _ _ _
      · rfl
    · rfl
  exact (State.posts_of_regs rfl).trans h1

/-! ## Registers between those of the stacks and those of the package -/

theorem State.posts_fset_between {f : Fld} {ix : List Nat} (low : 0x80008 < f.reg.addr ix) (high : f.reg.addr ix < 0x580068) (v : Nat) :
    (s.fset f ix v).posts = s.posts := by
  have pk : Reg.pkInt.addr [] = 0x580068 := rfl
  refine State.posts_of_tfind (fun j hj => s.tfind_fset_other v ?_) (s.tfind_fset_other v (by omega))
  rw [Reg.addr_scLinkStat]
  omega

theorem Reg.addr_trModel (m : Nat) : Reg.trModel.addr [m] = 0x341000 + m * 8 := by simp [Reg.addr, sumBy, Reg.base, Reg.dims]

theorem Reg.addr_abPrio (i j : Nat) : Reg.abPrio.addr [i, j] = 0x480040 + (i * 0x100 + j * 8) := by
  simp [Reg.addr, sumBy, Reg.base, Reg.dims]

theorem State.posts_trModel {f : Fld} (hf : f.reg = .trModel) {m : Nat} (hm : m < 256) (v : Nat) : (s.fset f [m] v).posts = s.posts :=
  s.posts_fset_between (by rw [hf, Reg.addr_trModel]; omega) (by rw [hf, Reg.addr_trModel]; omega) v

/-- What every step of a fold over some elements keeps. -/
theorem State.posts_foldl_mem {α : Type} {f : State → α → State} : ∀ (l : List α) (s : State),
    (∀ t, ∀ x ∈ l, (f t x).posts = t.posts) → (l.foldl f s).posts = s.posts
  | [], _, _ => rfl
  | x :: l, s, h => (State.posts_foldl_mem l (f s x) fun t y hy => h t y (List.mem_cons_of_mem _ hy)).trans (h s x List.mem_cons_self)

theorem State.posts_ocRecompute : s.ocRecompute.posts = s.posts := by
  unfold State.ocRecompute
  extract_lets d c
  refine State.posts_foldl_mem _ s fun t m hm => ?_
  have lt := List.mem_range.mp hm
  refine State.posts_ite (State.posts_ite ?_ (t.posts_trModel rfl lt _)) rfl
  rw [State.posts_log, State.posts_trModel _ rfl lt, State.posts_trModel _ rfl lt]

theorem State.posts_quotaWindow {k : Nat} (hk : k < 8) : (s.quotaWindow k).posts = s.posts :=
  State.posts_foldl_mem _ s fun t j hj => by
    have lt := List.mem_range.mp hj
    have addr : F.abPrio_grants.reg.addr [k, j] = 0x480040 + (k * 0x100 + j * 8) := Reg.addr_abPrio k j
    exact t.posts_fset_between (by omega) (by omega) 0

theorem State.posts_resetArb {k : Nat} (hk : k < 8) : (s.resetArb k).posts = s.posts := by
  unfold State.resetArb
  extract_lets a mine
  have again : ∀ (t : State) (j : Nat), (t.i3again k j).posts = t.posts := fun t j => State.posts_of_regs (s := t) (t := t.i3again k j) rfl
  refine (State.posts_quotaWindow _ hk).trans ((State.posts_foldl again _ _).trans ?_)
  exact State.posts_of_regs (s := s) (t := s.setArb k Arb.init) rfl

/-! ## Accesses to memory -/

@[simp] theorem State.posts_tickTo (n : Nat) : (s.tickTo n).posts = s.posts := by
  have moved : ({ s with clk := { s.clk with now := n } } : State).posts = s.posts := State.posts_of_regs rfl
  unfold State.tickTo
  refine State.posts_ite rfl ?_
  generalize ({ s with clk := { s.clk with now := n } } : State) = u at moved ⊢
  dsimp only
  have counted := ((u.ev 0x000 0 (u.mclk - s.mclk)).posts_ev 0x001 0 (u.fclk - s.fclk)).trans ((u.posts_ev _ _ _).trans moved)
  refine State.posts_ite counted ((State.posts_foldl (fun t k => ?_) _ _).trans counted)
  have active : ∀ c : Prop, [Decidable c] → (if c then t.ev 0x300 k (u.mclk - s.mclk) else t).posts = t.posts :=
    fun c _ => State.posts_ite (t.posts_ev _ _ _) rfl
  exact State.posts_ite (active _) ((State.posts_ev _ _ _ _).trans (active _))

theorem State.posts_closeGather (pl : Place) : (s.closeGather pl).posts = s.posts := by
  unfold State.closeGather
  split
  · exact State.posts_ite (s.posts_mergeRelease _ _) rfl
  · rfl

theorem State.posts_acceptWrite {s t : State} {b : Bool} {pl : Place} {data : Granule} {mask cls stamp : Nat} {src : Src}
    (h : s.acceptWrite pl data mask src cls stamp = some (t, b)) : t.posts = s.posts := by
  refine Eq.trans ?_ (s.posts_closeGather pl)
  unfold State.acceptWrite State.acceptOpen at h
  generalize s.closeGather pl = u at h ⊢
  extract_lets p full at h
  split at h
  · extract_lets m1 s1 at h
    obtain ⟨rfl, -⟩ := Prod.mk.inj (Option.some.inj h)
    exact State.posts_ite ((s1.posts_mergeToWb _ _).trans (u.posts_setPcc _ _)) (u.posts_setPcc _ _)
  · split at h
    · obtain ⟨-, e⟩ := Option.ite_none_right_eq_some.mp h
      obtain ⟨rfl, -⟩ := Prod.mk.inj (Option.some.inj e)
      exact u.posts_setPcc _ _
    · obtain ⟨-, e⟩ := Option.ite_none_right_eq_some.mp h
      obtain ⟨rfl, -⟩ := Prod.mk.inj (Option.some.inj e)
      exact u.posts_setPcc _ _

theorem State.posts_roomFor (pc cls : Nat) : (s.roomFor pc cls).posts = s.posts := by
  unfold State.roomFor
  split
  · rfl
  · exact State.posts_ite rfl (State.posts_settle _ _ _ _)

theorem State.posts_readSector (pl : Place) (h : Nat) : (s.readSector pl h).1.posts = s.posts := by
  unfold State.readSector
  extract_lets pc a raw
  split
  extract_lets good
  split
  · rfl
  · dsimp only
    exact s.posts_countCe _ _ _
  · extract_lets s0
    have h0 : s0.posts = s.posts := s.posts_countBad _ _ _ _ _
    split
    next s1 _ e =>
      have h1 := State.posts_fst e ((s0.posts_partnerTake pl h).trans h0)
      dsimp only
      exact (State.posts_storeSector _ _ _ _ _).trans ((State.posts_fadd _ rfl _ _).trans h1)
    next s1 e =>
      have h1 := State.posts_fst e ((s0.posts_partnerTake pl h).trans h0)
      exact State.posts_ite ((s1.posts_storeSector _ _ _ _).trans h1) h1

end

end Sys2Proof.Machine
end

