-- ==== Sys2Proof/Proofs/OfflineStays.lean ====
section
/-! A stack that has gone offline shows so whatever the device writes to memory meanwhile: its word of LINK_STAT, and PK_INT.stack_off.
A write may wake another stack, whose pass asks for a maintenance port; what stands for the grants of a requester that does not exist may
lie at the offset of PK_INT, where it leaves the flag. -/
namespace Sys2Proof.Machine

/-- A stack that is not in self-refresh shows what it showed, and the package still shows that a stack has gone off. -/
def State.offKept (k : Nat) (s t : State) : Prop :=
  s.link k ≠ 4 → tfind t.regs (Reg.scLinkStat.addr [k]) = tfind s.regs (Reg.scLinkStat.addr [k])
    ∧ (s.fget F.pkInt_stack_off = 1 → t.fget F.pkInt_stack_off = 1)

section
variable {s t u : State} {k : Nat}

theorem State.offKept.refl (s : State) : State.offKept k s s := fun _ => ⟨rfl, id⟩

theorem State.offKept.trans (h : State.offKept k s t) (g : State.offKept k t u) : State.offKept k s u := fun off => by
  obtain ⟨word, flag⟩ := h off
  have same : t.link k = s.link k := State.fget_of_tfind word
  obtain ⟨word', flag'⟩ := g (same ▸ off)
  exact ⟨word'.trans word, fun set => flag' (flag set)⟩

theorem State.offKept.of_posts (hk : k < 8) (h : t.posts = s.posts) : State.offKept k s t := fun _ =>
  ⟨State.tfind_of_posts h hk, fun set => (State.pkInt_of_posts h rfl).trans set⟩

theorem State.offKept.foldl {α : Type} {f : State → α → State} (hf : ∀ t x, State.offKept k t (f t x)) :
    ∀ (l : List α) (s : State), State.offKept k s (l.foldl f s)
  | [], s => .refl s
  | x :: l, s => (hf s x).trans (State.offKept.foldl hf l (f s x))

theorem State.offKept.foldlFst {α β : Type} {f : State × β → α → State × β} (hf : ∀ t x, State.offKept k t.1 (f t x).1) :
    ∀ (l : List α) (p : State × β), State.offKept k p.1 (l.foldl f p).1
  | [], p => .refl p.1
  | x :: l, p => (hf p x).trans (State.offKept.foldlFst hf l (f p x))

theorem State.offKept.ite {c : Prop} [Decidable c] {x y : State} (hx : State.offKept k s x) (hy : State.offKept k s y) :
    State.offKept k s (if c then x else y) := by
  split <;> assumption

theorem State.offKept.fst {α : Type} {p : State × α} {x : α} (e : p = (t, x)) (h : State.offKept k s p.1) : State.offKept k s t := by
  subst e; exact h

/-! ## A grant of the maintenance port -/

/-- PK_INT is cold: no flag is set. -/
theorem Reg.cold_pkInt : Reg.pkInt.cold [] = 0 := by decide

/-- A requester's count of grants is cold at 0. -/
theorem Reg.cold_grants (i j : Nat) : bits (Reg.abPrio.cold [i, j]).toNat 16 8 = 0 := by
  have word : Reg.abPrio.cold [i, j] = BitVec.ofNat 64 ((arbDefault i j).1 % 4 + (arbDefault i j).2 % 16 * 16) := by
    simp [Reg.cold, packWord, Nat.shiftLeft_eq]
  have small : (arbDefault i j).1 % 4 + (arbDefault i j).2 % 16 * 16 < 2 ^ 16 := by omega
  rw [word, BitVec.toNat_ofNat, Nat.mod_eq_of_lt (by omega), bits, Nat.shiftRight_eq_div_pow, Nat.div_eq_of_lt small, Nat.zero_mod]

/-- A field g of another register whose stored word lies where field f is written: it stands, unless the word becomes f's cold word. -/
theorem State.fget_fset_alias (s : State) {f g : Fld} {ix jx : List Nat} {v : Nat} {w : Word} (same : g.reg.addr jx = f.reg.addr ix)
    (found : tfind s.regs (g.reg.addr jx) = some w) (inWord : f.lo + f.w ≤ 64) (apart : g.lo + g.w ≤ f.lo ∨ f.lo + f.w ≤ g.lo)
    (warm : v % 2 ^ f.w ≠ bits (f.reg.cold ix).toNat f.lo f.w) : (s.fset f ix v).fget g jx = s.fget g jx := by
  have read : s.rget f.reg ix = w := by rw [State.rget, tget, ← same, found, Option.getD_some]
  have read' : s.rget g.reg jx = w := by rw [State.rget, tget, found, Option.getD_some]
  generalize hx : BitVec.ofNat 64 (setBits w.toNat f.lo f.w v) = x
  have nat : x.toNat = setBits w.toNat f.lo f.w v := by
    rw [← hx, BitVec.toNat_ofNat, Nat.mod_eq_of_lt (setBits_lt v w.isLt inWord)]
  have ne : x ≠ f.reg.cold ix := fun e => warm (by rw [← e, nat, bits_setBits_same])
  have stored : tfind (s.fset f ix v).regs (g.reg.addr jx) = some x := by
    rw [State.fset, State.rput, read, hx, tput, if_neg ne, same, tfind_tset_same]
  rw [State.fget, State.rget, tget, stored, Option.getD_some, nat, bits_setBits_other _ apart, State.fget, read']

/-- A counted grant, wherever its word lies, leaves a flag in bit 0 of PK_INT. -/
theorem State.stackOff_fsat_grants (s : State) (i j : Nat) (h : s.fget F.pkInt_stack_off = 1) :
    (s.fsat F.abPrio_grants [i, j] 1).fget F.pkInt_stack_off = 1 := by
  by_cases same : Reg.pkInt.addr [] = Reg.abPrio.addr [i, j]
  · cases found : tfind s.regs (Reg.pkInt.addr []) with
    | none =>
      rw [State.fget, State.rget, tget, F.pkInt_stack_off, found, Option.getD_none, Reg.cold_pkInt] at h
      exact absurd h (by decide)
    | some w =>
      have count : satAdd 8 (s.fget F.abPrio_grants [i, j]) 1 % 2 ^ 8 ≠ 0 := by
        unfold satAdd
        omega
      refine Eq.trans (State.fget_fset_alias (f := F.abPrio_grants) (g := F.pkInt_stack_off) s same found (by decide) (by decide) ?_) h
      exact (Reg.cold_grants i j).symm ▸ count
  · exact (s.fget_fset_other _ same).trans h

theorem State.offKept_arbGive (s : State) (hk : k < 8) (i j : Nat) (b : Bool) : State.offKept k s (s.arbGive i j b) := by
  have low := s.arbGive_low i j b _ (Reg.addr_stack_lt (r := .scLinkStat) rfl hk)
  exact fun _ => ⟨low, fun h => State.stackOff_fsat_grants (s.setArb i _) i j h⟩

theorem State.offKept_arbGrant (s : State) (hk : k < 8) (i : Nat) : State.offKept k s (s.arbGrant i) := by
  unfold State.arbGrant
  dsimp only
  split
  · exact .refl s
  · split
    · exact .refl s
    · exact s.offKept_arbGive hk i _ false

theorem State.offKept_askPort (s : State) (hk : k < 8) (i j : Nat) : State.offKept k s (s.askPort i j) := by
  unfold State.askPort
  refine .ite (.refl s) ?_
  exact (State.offKept.of_posts hk (State.posts_of_regs (s.arbRequest_regs i j))).trans (State.offKept_arbGrant _ hk i)

theorem State.offKept_arbSeized (s : State) (hk : k < 8) (i m : Nat) : State.offKept k s (s.arbSeized i m) :=
  (s.offKept_arbGive hk i 7 true).trans (.of_posts hk ((State.posts_fset _ rfl _ _).trans (State.posts_log _ _ _ _ _ _)))

theorem State.offKept_arbDrop (s : State) (hk : k < 8) (i j : Nat) : State.offKept k s (s.arbDrop i j) := by
  have set : ∀ a, State.offKept k s (s.setArb i a) := fun a => .of_posts hk (State.posts_of_regs rfl)
  unfold State.arbDrop
  dsimp only
  refine .ite (.ite ((set _).trans (State.offKept_arbSeized _ hk i j)) (set _)) (set _)

/-! ## A stack that wakes -/

theorem State.offKept_exitPass (s : State) (hk : k < 8) (j : Nat) : State.offKept k s (s.exitPass j) := by
  have asked := s.offKept_askPort hk j 1
  unfold State.exitPass
  extract_lets t l
  refine .ite ?_ (asked.trans (.of_posts hk (State.posts_of_regs rfl)))
  refine (asked.trans (.of_posts hk ?_)).trans (State.offKept_arbDrop _ hk j 1)
  rw [State.posts_ev, State.posts_fsat _ rfl]
  exact State.posts_of_regs rfl

theorem State.offKept_awake (s : State) (hk : k < 8) {j : Nat} (ne : j ≠ k) : State.offKept k s (s.awake j) := by
  have time : (s.exitTime j).posts = s.posts := (State.posts_tickTo _ _).trans (s.posts_tickTo _)
  have stat : ∀ a, a ≠ Reg.scLinkStat.addr [j] → tfind (s.awake j).regs a = tfind (s.exitTime j).regs a := fun a ha =>
    (s.tfind_awake j a).trans (State.tfind_fset_other _ 3 ha)
  have pk : Reg.pkInt.addr [] ≠ Reg.scLinkStat.addr [j] := by
    have : Reg.pkInt.addr [] = 0x580068 := rfl
    rw [Reg.addr_scLinkStat]
    omega
  refine (State.offKept.of_posts hk time).trans fun _ => ⟨stat _ (Reg.addr_stack_inj rfl ne.symm), fun h => ?_⟩
  exact (State.fget_of_tfind (stat _ pk)).trans h

theorem State.offKept_wake (s : State) (hk : k < 8) (j : Nat) : State.offKept k s (s.wake j) := by
  by_cases sref : s.link j = 4
  · by_cases same : j = k
    · exact fun off => absurd (same ▸ sref) off
    · rw [State.wake_of_sref sref]
      exact .ite ((s.offKept_awake hk same).trans (State.offKept_exitPass _ hk j)) (s.offKept_awake hk same)
  · rw [State.wake_of_not sref]
    exact .refl s

/-! ## Writes to memory -/

theorem State.offKept_settleGranule (s : State) (hk : k < 8) (pl : Place) : State.offKept k s (s.settleGranule pl) :=
  (s.offKept_wake hk _).trans (.of_posts hk (State.posts_settle _ _ _ _))

theorem State.offKept_postWrite (hk : k < 8) {pl : Place} {data : Granule} {cls : Nat} (h : s.postWrite pl data cls = some t) :
    State.offKept k s t := by
  obtain ⟨⟨u, b⟩, hu, rfl⟩ := Option.map_eq_some_iff.mp h
  exact (s.offKept_wake hk _).trans (.of_posts hk ((State.posts_acceptWrite hu).trans (State.posts_roomFor _ _ _)))

theorem State.offKept_writePlace (s : State) (hk : k < 8) (pl : Place) (data : Granule) (mask cls : Nat) :
    State.offKept k s (s.writePlace pl data mask cls).1 := by
  unfold State.writePlace
  split
  · exact .refl s
  · split
    next t e =>
      obtain ⟨-, e⟩ := Option.ite_none_right_eq_some.mp e
      exact State.offKept_postWrite hk e
    · refine (s.offKept_settleGranule hk pl).trans
        (State.offKept.foldlFst (fun t h => ?_) (halvesOf (maskTouched mask)) (s.settleGranule pl, PStatus.ok))
      extract_lets hm
      refine .of_posts hk ?_
      split
      · exact State.posts_storeSector _ _ _ _ _
      · split
        next e => exact (State.posts_storeSector _ _ _ _ _).trans (State.posts_fst e (t.1.posts_readSector _ _))
        next e => exact State.posts_fst e (t.1.posts_readSector _ _)

theorem State.offKept_writeRoot (s : State) (hk : k < 8) (root x : Nat) (data : Granule) (mask cls : Nat) :
    State.offKept k s (s.writeRoot root x data mask cls).1 := by
  unfold State.writeRoot
  split
  · exact .refl s
  · split
    · exact .refl s
    · extract_lets up
      cases up with
      | nil => exact .refl s
      | cons q qs =>
        have rest := State.offKept.foldlFst (k := k) (f := fun (a : State × Bool) y =>
          ((a.1.writePlace y data mask cls).1, a.2 || (a.1.writePlace y data mask cls).2 = .ok))
          (fun t y => t.1.offKept_writePlace hk y data mask cls) qs
          ((s.writePlace q data mask cls).1, (s.writePlace q data mask cls).2 = .ok)
        exact (s.offKept_writePlace hk q data mask cls).trans rest

theorem State.offKept_writeMem (s : State) (hk : k < 8) (addr : Nat) (data : Granule) (mask cls : Nat) :
    State.offKept k s (s.writeMem addr data mask cls).1 := by
  unfold State.writeMem
  split
  · exact .refl s
  · split
    · exact s.offKept_writeRoot hk _ _ _ _ _
    · exact .refl s

theorem State.offKept_spoil (s : State) (hk : k < 8) (p : Packet) : State.offKept k s (s.spoil p) := by
  unfold State.spoil
  refine .ite (.refl s) (.foldl (fun t i => ?_) _ s)
  exact (State.offKept.of_posts hk (State.posts_of_regs rfl)).trans (t.drawGranule.1.offKept_writeMem hk _ t.drawGranule.2 _ _)

/-! ## A directory quarter that is lost (R219) -/

/-- A packet that waits on the quarter ends; a gather's output is undefined from there on. -/
def State.endQuarter (k : Nat) (u : State) (e : Nat × Packet) : State :=
  if e.2.st = .running && e.2.waits.any fun g => decide (g % 4 = k % 4) then
    (if e.2.opcode = 0x33 then u.endGather e.2 .unavailable 0 else u.fixPacket e.2 .unavailable e.2.count)
  else u

theorem State.offKept_endQuarter (s : State) (hk : k < 8) (q : Nat) (e : Nat × Packet) : State.offKept k s (s.endQuarter q e) := by
  unfold State.endQuarter
  refine .ite (.ite ?_ (.of_posts hk (s.posts_fixPacket _ _ _ _ _))) (.refl s)
  exact (s.offKept_spoil hk e.2).trans (.of_posts hk (State.posts_fixPacket _ _ _ _ _ _))

/-- Segments of the quarter on which requests wait. -/
def State.parkedOnQuarter (s : State) (k : Nat) : List Nat :=
  (s.ports.flatMap fun e => e.2.reqs.filterMap fun r => match r.stage with
    | .parked g => if decide (g % 4 = k % 4) then some g else none
    | _ => none).eraseDups

/-- The requests that wait on the quarter have ended. -/
def State.quarterParked (s : State) (k : Nat) : State := (s.parkedOnQuarter k).foldl (fun t g => t.endParked g .unavailable) s

theorem State.dirLost_eq (s : State) (k : Nat) : s.dirLost k
    = if !s.dirDown k then s else (s.quarterParked k).packets.foldl (State.endQuarter k) (s.quarterParked k) := rfl

theorem State.posts_quarterParked (s : State) (k : Nat) : (s.quarterParked k).posts = s.posts :=
  State.posts_foldl (fun t g => t.posts_endParked g .unavailable) _ s

theorem State.offKept_dirLost (s : State) (hk : k < 8) : State.offKept k s (s.dirLost k) := by
  rw [State.dirLost_eq]
  refine .ite (.refl s) ((State.offKept.of_posts hk (s.posts_quarterParked k)).trans ?_)
  exact .foldl (fun t e => t.offKept_endQuarter hk k e) _ _

end

end Sys2Proof.Machine
end

