-- ==== Sys2Proof/Proofs/StackResets.lean ====
section
/-! A stack that leaves service (R244, R245, R309): what the reset of its registers keeps, what it shows, its queues, and what it leaves
alone while no gather writes. -/
namespace Sys2Proof.Machine

/-! ## The reset of a stack's registers (R245 step 1) -/

section
variable {α : Type} {f : Nat × α → Option (Nat × α)} {k : Nat}

/-- A table whose entries of one key a filter keeps. -/
theorem tfind_filterMap_kept (hf : ∀ e e', f e = some e' → e'.1 = e.1) (kept : ∀ v, f (k, v) = some (k, v)) :
    ∀ m : Table α, tfind (m.filterMap f) k = tfind m k
  | [] => rfl
  | (a, v) :: m => by
    have rest := tfind_filterMap_kept hf kept m
    by_cases h : a = k
    · subst h
      simp [kept v, tfind]
    · cases e : f (a, v) with
      | none => simpa [e, tfind, h] using rest
      | some e' =>
        have ne : e'.1 ≠ k := (hf _ _ e).trans_ne h
        simpa [e, tfind, h, ne] using rest

theorem tfind_eq_none : ∀ {m : Table α}, (∀ e ∈ m, e.1 ≠ k) → tfind m k = none
  | [], _ => rfl
  | (a, v) :: m, h => by
    obtain ⟨ne, rest⟩ := List.forall_mem_cons.mp h
    rw [tfind, if_neg ne]
    exact tfind_eq_none rest

/-- A table in order keeps at most one entry of a key. -/
theorem tfind_filterMap (hf : ∀ e e', f e = some e' → e'.1 = e.1) : ∀ {m : Table α}, trising m = true →
    tfind (m.filterMap f) k = (tfind m k).bind fun v => (f (k, v)).map (·.2) := by
  intro m
  rw [trising_iff]
  induction m with
  | nil => exact fun _ => rfl
  | cons x m ih =>
    intro rising
    obtain ⟨above, rest⟩ := List.pairwise_cons.mp rising
    obtain ⟨a, v⟩ := x
    by_cases h : a = k
    · subst h
      cases e : f (a, v) with
      | none =>
        have absent : tfind m a = none := tfind_eq_none fun y hy => Nat.ne_of_gt (above y hy)
        simp [e, tfind, ih rest, absent]
      | some e' => simp [e, tfind, hf _ _ e]
    · cases e : f (a, v) with
      | none => simpa [e, tfind, h] using ih rest
      | some e' =>
        have ne : e'.1 ≠ k := (hf _ _ e).trans_ne h
        simpa [e, tfind, h, ne] using ih rest

end

/-- What a reset of a selection leaves of a register's entry. -/
def Reg.resetEntry (sel : Reg → List Nat → Bool) (keep : Reg → FieldDef → Bool) (e : Nat × Word) : Option (Nat × Word) :=
  match Reg.locate e.1 with
  | some (r, ix) =>
    if sel r ix then
      let w := resetWord r ix e.2 (keep r)
      if w = r.cold ix then none else some (e.1, w)
    else some e
  | none => some e

theorem Reg.resetEntry_fst {sel : Reg → List Nat → Bool} {keep : Reg → FieldDef → Bool} (e e' : Nat × Word)
    (h : Reg.resetEntry sel keep e = some e') : e'.1 = e.1 := by
  unfold Reg.resetEntry at h
  split at h
  · split at h
    · obtain ⟨-, h⟩ := Option.ite_none_left_eq_some.mp h
      rw [← Option.some.inj h]
    · rw [← Option.some.inj h]
  · rw [← Option.some.inj h]

theorem scLinkStat_located : ∀ k < 8, Reg.locate (Reg.scLinkStat.addr [k]) = some (.scLinkStat, [k]) := by decide +kernel

section
variable (s : State) {k j : Nat}

theorem State.localReset_regs (k : Nat) : (s.localReset .stack k).regs
    = s.regs.filterMap (Reg.resetEntry (fun r ix => r.inScope ix .stack k) fun _ => FieldDef.localKeep) := rfl

/-- Another stack's LINK_STAT stays. -/
theorem State.tfind_localReset_other (hj : j < 8) (ne : j ≠ k) :
    tfind (s.localReset .stack k).regs (Reg.scLinkStat.addr [j]) = tfind s.regs (Reg.scLinkStat.addr [j]) := by
  rw [State.localReset_regs]
  refine tfind_filterMap_kept Reg.resetEntry_fst (fun v => ?_) s.regs
  simp [Reg.resetEntry, scLinkStat_located j hj, Reg.inScope, Reg.scope, ne]

/-- A local reset of LINK_STAT keeps the cause and the count of resets. -/
theorem resetWord_scLinkStat (k : Nat) (w : Word) : resetWord .scLinkStat [k] w FieldDef.localKeep
    = BitVec.ofNat 64 (setBits (setBits (Reg.scLinkStat.cold [k]).toNat 4 3 (bits w.toNat 4 3)) 48 16 (bits w.toNat 48 16)) := rfl

theorem resets_resetWord (k : Nat) (w : Word) :
    bits (resetWord .scLinkStat [k] w FieldDef.localKeep).toNat 48 16 = bits w.toNat 48 16 := by
  have small := setBits_lt (w := 3) (lo := 4) (bits w.toNat 4 3) (Reg.scLinkStat.cold [k]).isLt (by decide)
  rw [resetWord_scLinkStat, BitVec.toNat_ofNat, Nat.mod_eq_of_lt (setBits_lt _ small (by decide)), bits_setBits_same]
  exact Nat.mod_mod _ _

theorem Reg.resetEntry_of_located {sel : Reg → List Nat → Bool} {keep : Reg → FieldDef → Bool} {a : Nat} {r : Reg} {ix : List Nat}
    (located : Reg.locate a = some (r, ix)) (chosen : sel r ix = true) (w : Word) : Reg.resetEntry sel keep (a, w)
      = if resetWord r ix w (keep r) = r.cold ix then none else some (a, resetWord r ix w (keep r)) := by
  simp only [Reg.resetEntry, located, chosen, if_true]

theorem State.tfind_localReset_own (hk : k < 8) (rising : trising s.regs = true) :
    tfind (s.localReset .stack k).regs (Reg.scLinkStat.addr [k]) = (tfind s.regs (Reg.scLinkStat.addr [k])).bind fun w =>
      if resetWord .scLinkStat [k] w FieldDef.localKeep = Reg.scLinkStat.cold [k] then none
      else some (resetWord .scLinkStat [k] w FieldDef.localKeep) := by
  have chosen : Reg.inScope .scLinkStat [k] .stack k = true := by simp [Reg.inScope, Reg.scope]
  rw [State.localReset_regs, tfind_filterMap Reg.resetEntry_fst rising]
  refine congrArg (Option.bind (tfind s.regs (Reg.scLinkStat.addr [k]))) (funext fun w => ?_)
  rw [Reg.resetEntry_of_located (scLinkStat_located k hk) chosen, apply_ite (Option.map Prod.snd), Option.map_none, Option.map_some]

theorem State.resets_localReset (hk : k < 8) (rising : trising s.regs = true) :
    (s.localReset .stack k).fget F.scLinkStat_resets [k] = s.fget F.scLinkStat_resets [k] := by
  have found := s.tfind_localReset_own hk rising
  simp only [State.fget, State.rget, tget, F.scLinkStat_resets, found]
  cases tfind s.regs (Reg.scLinkStat.addr [k]) with
  | none => rfl
  | some w =>
    have kept := resets_resetWord k w
    rw [Option.bind_some]
    split
    next cold => rw [← cold]; exact kept
    · exact kept

end

end Sys2Proof.Machine
end

