-- ==== Sys2Proof/Proofs/StackLeaves.lean ====
section
/-! A stack that leaves service, stage by stage (R244, R245 steps 1 and 2): what it shows, its queues, what it loses; and what stays while no
gather writes. -/
namespace Sys2Proof.Machine

section
variable (s : State) {k j cause : Nat}

/-! ## The stages -/

/-- The registers of the stack reset, its state, cause and count (R244). -/
def State.offStat (s : State) (k cause : Nat) : State :=
  (((s.localReset .stack k).fset F.scLinkStat_state [k] 1).fset F.scLinkStat_cause [k] cause).fsat F.scLinkStat_resets [k] 1

/-- The record and the flags of the package. -/
def State.offShown (s : State) (k cause : Nat) : State :=
  let t := ((s.offStat k cause).log .stackOff k cause).raise 4 F.pkInt_stack_off [] [(F.pkInt_first_stack, k)]
  if s.stackUp k && !t.stackUp ((k + 4) % 8) then t.raise 4 F.pkInt_pair_down [] [(F.pkInt_first_stack, k)] else t

/-- The stack's arbiter, link and return. -/
def State.offPort (s : State) (k : Nat) : State :=
  let t := s.resetArb k
  { t with links := tput Link.init t.links k { Link.init with lanes := (tget Link.init s.links k).lanes }, returns := tdel t.returns k }

/-- The queues of its pseudo-channels. -/
def State.offQueues (s : State) (k : Nat) : State :=
  let t := ((List.range 64).foldl (fun t i => t.dropQueues (64 * k + i)) s).reroute k
  { t with pccs := tmap t.pccs fun pc p => if pc / 64 = k then p.restart else p }

/-- Its pool, its pages and the attention packets that need them. -/
def State.offPages (s : State) (k : Nat) : State :=
  (((s.losePool k 0).loseLodging s.poolMirror (fun p => !s.stackUp p) k).loseMeta (s.lgDesc metaPool) fun p => !s.stackUp p).loseAttn k

/-- Its retirement and the pools' capacity. -/
def State.offCapacity (s : State) (k : Nat) : State := (s.stopRetire k).ocRecompute

theorem State.stackOff_eq (k cause : Nat) : s.stackOff k cause
    = (((((((s.offShown k cause).offPort k).offQueues k).offPages k).dirLost k).offCapacity k).regrade k) := rfl

/-! ## What the stack shows -/

theorem State.fget_offStat (hc : cause < 8) : (s.offStat k cause).link k = 1
    ∧ (s.offStat k cause).fget F.scLinkStat_cause [k] = cause
    ∧ (s.offStat k cause).fget F.scLinkStat_resets [k] = min ((s.localReset .stack k).fget F.scLinkStat_resets [k] + 1) 65535 := by
  unfold State.offStat
  generalize s.localReset .stack k = t
  refine ⟨?_, ?_, ?_⟩
  · refine (State.fget_fset_field (f := F.scLinkStat_resets) (g := F.scLinkStat_state) _ _ _ rfl (by decide) (by decide)).trans ?_
    refine (State.fget_fset_field (f := F.scLinkStat_cause) (g := F.scLinkStat_state) _ _ _ rfl (by decide) (by decide)).trans ?_
    exact t.link_fset_state k 1
  · refine (State.fget_fset_field (f := F.scLinkStat_resets) (g := F.scLinkStat_cause) _ _ _ rfl (by decide) (by decide)).trans ?_
    exact (State.fget_fset_same _ F.scLinkStat_cause _ _ (by decide)).trans (Nat.mod_eq_of_lt hc)
  · rw [State.fget_fsat_same _ _ _ _ (by decide),
      State.fget_fset_field (f := F.scLinkStat_cause) (g := F.scLinkStat_resets) _ _ _ rfl (by decide) (by decide),
      State.fget_fset_field (f := F.scLinkStat_state) (g := F.scLinkStat_resets) _ _ _ rfl (by decide) (by decide)]
    rfl

theorem State.tfind_offStat_other (cause : Nat) (hj : j < 8) (ne : j ≠ k) :
    tfind (s.offStat k cause).regs (Reg.scLinkStat.addr [j]) = tfind s.regs (Reg.scLinkStat.addr [j]) := by
  have addr : Reg.scLinkStat.addr [j] ≠ Reg.scLinkStat.addr [k] := Reg.addr_stack_inj rfl ne
  refine (State.tfind_fset_other _ _ addr).trans ((State.tfind_fset_other _ _ addr).trans ?_)
  exact (State.tfind_fset_other _ _ addr).trans (s.tfind_localReset_other hj ne)

/-- The words of LINK_STAT stay when a flag of PK_INT is raised. -/
theorem State.tfind_raise_pkInt {f : Fld} (hf : f.reg = .pkInt) (k j : Nat) : tfind (s.raise 4 f [] [(F.pkInt_first_stack, k)]).regs
    (Reg.scLinkStat.addr [j]) = tfind s.regs (Reg.scLinkStat.addr [j]) := by
  have ne : Reg.scLinkStat.addr [j] ≠ Reg.pkInt.addr [] := by
    have pk : Reg.pkInt.addr [] = 0x580068 := rfl
    rw [Reg.addr_scLinkStat]
    omega
  refine s.tfind_raise_other (hf ▸ ne) fun e he => ?_
  rw [List.mem_singleton.mp he]
  exact ne

theorem State.tfind_offShown (hj : j < 8) (k cause : Nat) : tfind (s.offShown k cause).regs (Reg.scLinkStat.addr [j])
    = tfind (s.offStat k cause).regs (Reg.scLinkStat.addr [j]) := by
  have logged : tfind ((s.offStat k cause).log .stackOff k cause).regs (Reg.scLinkStat.addr [j])
      = tfind (s.offStat k cause).regs (Reg.scLinkStat.addr [j]) :=
    State.tfind_of_posts (State.posts_log _ .stackOff k cause 0 0) hj
  unfold State.offShown
  extract_lets t
  have raised := (State.tfind_raise_pkInt _ rfl k j : tfind t.regs _ = _).trans logged
  split
  · exact (State.tfind_raise_pkInt _ rfl k j).trans raised
  · exact raised

/-- Another flag of PK_INT leaves stack_off. -/
theorem State.stackOff_raise {f : Fld} (hf : f.reg = .pkInt) (word : f.lo + f.w ≤ 64) (apart : 1 ≤ f.lo) (k : Nat) :
    (s.raise 4 f [] [(F.pkInt_first_stack, k)]).fget F.pkInt_stack_off = s.fget F.pkInt_stack_off := by
  unfold State.raise
  extract_lets t
  have first : t.fget F.pkInt_stack_off = s.fget F.pkInt_stack_off := by
    dsimp only [t]
    split
    · exact State.fget_fset_field (f := F.pkInt_first_stack) (g := F.pkInt_stack_off) _ _ _ rfl (by decide) (by decide)
    · rfl
  exact (State.fget_fset_field (g := F.pkInt_stack_off) _ _ _ hf.symm word (.inl apart)).trans first

theorem State.stackOff_offShown (k cause : Nat) : (s.offShown k cause).fget F.pkInt_stack_off = 1 := by
  unfold State.offShown
  extract_lets t
  have set : t.fget F.pkInt_stack_off = 1 := State.fget_raise_same _ _ (by decide) rfl
  split
  · exact (t.stackOff_raise rfl (by decide) (by decide) k).trans set
  · exact set

/-! ## What stays beside it -/

theorem State.posts_offPort (hk : k < 8) : (s.offPort k).posts = s.posts := by
  have arb := s.posts_resetArb hk
  unfold State.offPort
  generalize s.resetArb k = t at arb ⊢
  refine Eq.trans (State.posts_of_regs (s := t) ?_) arb
  rfl

theorem State.posts_offQueues (k : Nat) : (s.offQueues k).posts = s.posts := by
  unfold State.offQueues
  extract_lets t
  have queues : t.posts = s.posts :=
    (State.posts_reroute _ k).trans (State.posts_foldl (fun t i => t.posts_dropQueues (64 * k + i)) (List.range 64) s)
  clear_value t
  refine Eq.trans (State.posts_of_regs (s := t) ?_) queues
  rfl

theorem State.posts_offPages (k : Nat) : (s.offPages k).posts = s.posts := by
  unfold State.offPages
  rw [State.posts_loseAttn, State.posts_loseMeta, State.posts_loseLodging, State.posts_losePool]

theorem State.posts_offCapacity (k : Nat) : (s.offCapacity k).posts = s.posts :=
  (State.posts_ocRecompute _).trans (s.posts_stopRetire k)

theorem State.tfind_regrade (k j : Nat) :
    tfind (s.regrade k).regs (Reg.scLinkStat.addr [j]) = tfind s.regs (Reg.scLinkStat.addr [j]) := by
  unfold State.regrade
  extract_lets g
  split
  · rfl
  · refine (State.tfind_raise_pkInt _ rfl k j).trans (State.tfind_fset_other _ _ ?_)
    have pk : F.pkHealth_grade.reg.addr [] = 0x580050 := rfl
    rw [Reg.addr_scLinkStat]
    omega

theorem State.stackOff_regrade (k : Nat) : (s.regrade k).fget F.pkInt_stack_off = s.fget F.pkInt_stack_off := by
  unfold State.regrade
  extract_lets g
  split
  · rfl
  · exact (State.stackOff_raise _ rfl (by decide) (by decide) k).trans (s.fget_fset_other _ (by decide))

/-- The stack as a reset leaves it, before its training. -/
theorem State.stackOff_shows (hk : k < 8) (hc : cause < 8) : (s.stackOff k cause).fget F.scLinkStat_cause [k] = cause
    ∧ (s.stackOff k cause).fget F.pkInt_stack_off = 1
    ∧ (trising s.regs = true → (s.stackOff k cause).fget F.scLinkStat_resets [k] = min (s.fget F.scLinkStat_resets [k] + 1) 65535) := by
  obtain ⟨off, why, count⟩ := s.fget_offStat (k := k) hc
  have shown := s.tfind_offShown hk k cause
  have link : (s.offShown k cause).link k = 1 := (State.fget_of_tfind shown).trans off
  have early : State.offKept k (s.offShown k cause) ((((s.offShown k cause).offPort k).offQueues k).offPages k) :=
    .of_posts hk ((State.posts_offPages _ k).trans ((State.posts_offQueues _ k).trans (State.posts_offPort _ hk)))
  obtain ⟨word, flag⟩ := (early.trans ((State.offKept_dirLost _ hk).trans (.of_posts hk (State.posts_offCapacity _ k)))) (by omega)
  have stays : tfind (s.stackOff k cause).regs (Reg.scLinkStat.addr [k]) = tfind (s.offStat k cause).regs (Reg.scLinkStat.addr [k]) := by
    rw [State.stackOff_eq, State.tfind_regrade, word, shown]
  refine ⟨(State.fget_of_tfind stays).trans why, ?_, fun rising => ?_⟩
  · rw [State.stackOff_eq, State.stackOff_regrade]
    exact flag (s.stackOff_offShown k cause)
  · rw [State.fget_of_tfind (f := F.scLinkStat_resets) stays, count, s.resets_localReset hk rising]

end

end Sys2Proof.Machine
end

