-- ==== Sys2Proof/Proofs/CalmResets.lean ====
section
/-! A stack reset while no gather is in the packet table (R219, R245): no access to memory takes place, so that the clock, the stored
sectors and the other stacks stay, and the queues that were emptied stay empty. -/
namespace Sys2Proof.Machine

theorem mem_of_tfind {α : Type} : ∀ {m : Table α} {k : Nat} {v : α}, tfind m k = some v → (k, v) ∈ m
  | (a, w) :: m, k, v, h => by
    rw [tfind] at h
    split at h
    next e => rw [← e, ← Option.some.inj h]; exact List.mem_cons_self
    · exact List.mem_cons_of_mem _ (mem_of_tfind h)

/-- No packet of the table is a gather. -/
def State.noGather (s : State) : Prop := ∀ e ∈ s.packets, e.2.opcode ≠ 0x33

/-- Fields that a reset may change once the queues are empty, while no gather writes. -/
def lateFields : List Field :=
  [.regs, .free, .ports, .retPend, .dir, .fetches, .demandQ, .prefetchQ, .far, .streams, .lgWalk, .attns, .packets, .obs]

/-- Fields that a reset may change until the queues are empty. -/
def earlyFields : List Field := [.regs, .pregs, .free, .ports, .pccs, .links, .returns, .dir, .obs, .arbs, .i3want, .i3at]

section
variable {s t : State} {k j cause : Nat}

theorem State.noGather.of_packets (h : s.noGather) (e : t.packets = s.packets) : t.noGather := by
  rw [State.noGather, e]
  exact h

/-! ## Pages -/

theorem State.noGather_attnFail (h : s.noGather) {id : Nat} {p : Packet} (hp : s.packet id = some p) (st : PStatus) (addr count : Nat) :
    (s.attnFail p st addr count).noGather := by
  intro e he
  rw [State.attnFail, State.fixPacket_packets] at he
  rcases mem_tset he with ended | he
  · rw [ended]
    exact h (id, p) (mem_of_tfind hp)
  · exact h e he

theorem State.noGather_loseAttn (h : s.noGather) (k : Nat) : (s.loseAttn k).noGather := by
  unfold State.loseAttn
  split
  · exact h
  · refine List.foldlRecOn s.attns _ h fun t ht e _ => ?_
    split
    next p hp =>
      split
      · exact State.noGather_attnFail ht hp _ _ _
      · exact ht
    · exact ht

theorem State.offPages_follows (s : State) (k : Nat) : s.Follows (fieldMask lateFields) (s.offPages k) :=
  State.loseAttn_follows _
    (State.loseMeta_follows _ _ (State.loseLodging_follows _ _ _ (State.losePool_follows _ _ (.refl _ s) rfl) rfl) rfl) rfl

theorem State.noGather_offPages (h : s.noGather) (k : Nat) : (s.offPages k).noGather := by
  refine State.noGather_loseAttn ?_ k
  have pool : Sub 0x8007a000042 0x804fa000042 := rfl
  have lodging : Sub 0x480000002 0x804fa000042 := rfl
  have pages : Sub 0x80000002 0x804fa000042 := rfl
  exact h.of_packets ((State.loseMeta_follows _ _ (State.loseLodging_follows _ _ _ (State.losePool_follows _ _ (.refl _ s) pool) lodging)
    pages).kept .packets rfl)

/-! ## A directory quarter without gathers -/

/-- Without gathers the packets of a quarter end with no access to memory. -/
theorem State.endQuarter_follows {b u : State} {e : Nat × Packet} (he : e.2.opcode ≠ 0x33) (h : b.Follows (fieldMask lateFields) u) :
    b.Follows (fieldMask lateFields) (State.endQuarter k u e) := by
  unfold State.endQuarter
  rw [if_neg he]
  exact .ite (fun _ => State.fixPacket_follows _ _ _ _ _ h rfl) fun _ => h

theorem State.posts_endQuarter (u : State) {e : Nat × Packet} (he : e.2.opcode ≠ 0x33) : (State.endQuarter k u e).posts = u.posts := by
  unfold State.endQuarter
  rw [if_neg he]
  exact State.posts_ite (u.posts_fixPacket _ _ _ _ _) rfl

theorem State.quarterParked_follows (s : State) (k : Nat) : s.Follows 0x2000052 (s.quarterParked k) :=
  have all : Sub 0x2000052 0x2000052 := rfl
  .foldl (fun _ _ h => State.endParked_follows _ _ h all) _ (.refl _ s)

theorem State.quarterParked_late (s : State) (k : Nat) : s.Follows (fieldMask lateFields) (s.quarterParked k) :=
  have all : Sub 0x2000052 (fieldMask lateFields) := rfl
  .foldl (fun _ _ h => State.endParked_follows _ _ h all) _ (.refl _ s)

theorem State.dirLost_calm (h : s.noGather) (k : Nat) :
    s.Follows (fieldMask lateFields) (s.dirLost k) ∧ (s.dirLost k).posts = s.posts := by
  have packets : (s.quarterParked k).packets = s.packets := (s.quarterParked_follows k).kept .packets rfl
  rw [State.dirLost_eq]
  split
  · exact ⟨.refl _ s, rfl⟩
  · refine List.foldlRecOn (motive := fun u => s.Follows (fieldMask lateFields) u ∧ u.posts = s.posts) _ _
      ⟨s.quarterParked_late k, s.posts_quarterParked k⟩ fun u ⟨follows, posts⟩ e he => ?_
    have he := h e (packets ▸ he)
    exact ⟨State.endQuarter_follows he follows, (State.posts_endQuarter u he).trans posts⟩

/-! ## The whole reset -/

theorem State.offStat_follows (s : State) (k cause : Nat) : s.Follows (fieldMask earlyFields) (s.offStat k cause) :=
  State.fsat_follows _ _ _ (State.fset_follows _ _ _ (State.fset_follows _ _ _ (State.localReset_follows _ _ (.refl _ s) rfl) rfl) rfl) rfl

theorem State.offShown_follows (s : State) (k cause : Nat) : s.Follows (fieldMask earlyFields) (s.offShown k cause) := by
  have shown := State.raise_follows 4 F.pkInt_stack_off [] [(F.pkInt_first_stack, k)]
    (State.log_follows .stackOff k cause 0 0 (s.offStat_follows k cause) rfl) rfl
  exact .ite (fun _ => State.raise_follows _ _ _ _ shown rfl) fun _ => shown

theorem State.offPort_follows {b : State} (h : b.Follows (fieldMask earlyFields) s) (k : Nat) :
    b.Follows (fieldMask earlyFields) (s.offPort k) := by
  have arb : b.Follows (fieldMask earlyFields) (s.resetArb k) := State.resetArb_follows k h rfl
  exact State.Follows.set_links_returns arb rfl

theorem State.offQueues_follows {b : State} (h : b.Follows (fieldMask earlyFields) s) (k : Nat) :
    b.Follows (fieldMask earlyFields) (s.offQueues k) :=
  have sub : Sub 0x2000452 (fieldMask earlyFields) := rfl
  State.Follows.set_pccs (State.reroute_follows k (.foldl (fun _ i h => State.dropQueues_follows (64 * k + i) h sub) _ h) rfl) rfl

/-- The state as the queues are empty. -/
def State.emptied (s : State) (k cause : Nat) : State := ((s.offShown k cause).offPort k).offQueues k

theorem State.emptied_follows (s : State) (k cause : Nat) : s.Follows (fieldMask earlyFields) (s.emptied k cause) :=
  State.offQueues_follows (State.offPort_follows (s.offShown_follows k cause) k) k

theorem State.posts_emptied (s : State) (hk : k < 8) (cause : Nat) :
    (s.emptied k cause).posts = (s.offShown k cause).posts :=
  (State.posts_offQueues _ k).trans (State.posts_offPort _ hk)

theorem Pcc.restart_queues (p : Pcc) : p.restart.rq = [] ∧ p.restart.wq = [] ∧ p.restart.mb = [] ∧ p.restart.ret = [] :=
  ⟨rfl, rfl, rfl, rfl⟩

/-- The queues of every pseudo-channel of the stack are empty (R245 step 2). -/
theorem State.pcc_offQueues (s : State) (k : Nat) {i : Nat} (hi : i < 64) : ∃ p : Pcc, (s.offQueues k).pcc (64 * k + i) = p.restart := by
  refine ⟨(((List.range 64).foldl (fun t i => t.dropQueues (64 * k + i)) s).reroute k).pcc (64 * k + i), ?_⟩
  rw [State.pcc, State.offQueues, tget_tmap (fun pc => by split <;> rfl), if_pos (by omega)]
  rfl

theorem State.offCapacity_follows {b : State} (h : b.Follows (fieldMask lateFields) s) (k : Nat) :
    b.Follows (fieldMask lateFields) ((s.offCapacity k).regrade k) :=
  State.regrade_follows k (State.ocRecompute_follows (State.stopRetire_follows k h rfl) rfl) rfl

/-- After the queues are empty, without gathers: the posts stay but for PK_INT. -/
theorem State.stackOff_calm (h : s.noGather) (hk : k < 8) (cause : Nat) :
    (s.emptied k cause).Follows (fieldMask lateFields) (s.stackOff k cause)
      ∧ ∀ j < 8, (s.stackOff k cause).link j = (s.offShown k cause).link j := by
  have calm : (s.emptied k cause).noGather := h.of_packets ((s.emptied_follows k cause).kept .packets rfl)
  obtain ⟨follows, posts⟩ := State.dirLost_calm (State.noGather_offPages calm k) k
  have pages := State.offPages_follows (s.emptied k cause) k
  rw [State.stackOff_eq]
  refine ⟨State.offCapacity_follows (pages.trans follows) k, fun j hj => ?_⟩
  have shown := (State.posts_offCapacity _ k).trans (posts.trans ((State.posts_offPages _ k).trans (s.posts_emptied hk cause)))
  exact (State.fget_of_tfind (State.tfind_regrade _ k j)).trans (State.link_of_posts shown hj)

end

end Sys2Proof.Machine
end

