-- ==== Sys2Proof/Proofs/StackReturns.lean ====
section
/-! The way back of a stack (R245 steps 3 to 5, R309, R310), and the statement about stack resets. -/
namespace Sys2Proof.Machine

/-! ## A reset as a command (R244) -/

section
variable {s t : State} {k j cause : Nat} {rep : StackReport}

theorem exec_sreset (hk : k < 8) (rep : StackReport) (s : State) : exec (.sreset k rep) s = .next (s.stackReset k 1 rep) := onUnit_of hk _

theorem exec_clockLoss (hk : k < 8) (rep : StackReport) (s : State) : exec (.clockLoss k rep) s
    = .next (if s.link k = 1 || s.link k = 2 || s.link k = 3 then s.stackReset k 2 rep else s) := onUnit_of hk _

theorem exec_clockLoss_of_clocked (hk : k < 8) (h : s.link k = 1 ∨ s.link k = 2 ∨ s.link k = 3) :
    exec (.clockLoss k rep) s = .next (s.stackReset k 2 rep) := by
  rw [exec_clockLoss hk, if_pos (by simpa [or_assoc] using h)]

theorem State.setLink_low_fields (s : State) (k v : Nat) : (s.setLink k v).link k = v % 8
    ∧ (∀ j, j ≠ k → (s.setLink k v).link j = s.link j)
    ∧ (s.setLink k v).fget F.scLinkStat_cause [k] = s.fget F.scLinkStat_cause [k]
    ∧ (s.setLink k v).fget F.scLinkStat_resets [k] = s.fget F.scLinkStat_resets [k]
    ∧ (s.setLink k v).fget F.pkInt_stack_off = s.fget F.pkInt_stack_off := by
  unfold State.setLink
  have word := fun j => (s.fset F.scLinkStat_state [k] v).tfind_regrade k j
  refine ⟨(State.fget_of_tfind (word k)).trans (s.link_fset_state k v),
    fun j hj => (State.fget_of_tfind (word j)).trans (s.link_fset_state_other v hj),
    (State.fget_of_tfind (word k)).trans ?_, (State.fget_of_tfind (word k)).trans ?_, (State.stackOff_regrade _ k).trans ?_⟩
  · exact State.fget_fset_field (f := F.scLinkStat_state) (g := F.scLinkStat_cause) s _ _ rfl (by decide) (by decide)
  · exact State.fget_fset_field (f := F.scLinkStat_state) (g := F.scLinkStat_resets) s _ _ rfl (by decide) (by decide)
  · refine s.fget_fset_other v ?_
    have pk : F.pkInt_stack_off.reg.addr [] = 0x580068 := rfl
    have stat : F.scLinkStat_state.reg.addr [k] = 0x10008 + k * 0x10000 := Reg.addr_scLinkStat k
    omega

/-- The state as the training starts. -/
def State.offTraining (s : State) (k cause : Nat) : State := (s.stackOff k cause).setLink k 2

/-- A stack on its way back. -/
def State.setReturn (s : State) (k : Nat) (r : Return) : State := { s with returns := tset s.returns k r }

theorem State.setReturn_regs (s : State) (k : Nat) (r : Return) : (s.setReturn k r).regs = s.regs := rfl
theorem State.setReturn_clk (s : State) (k : Nat) (r : Return) : (s.setReturn k r).clk = s.clk := rfl
theorem State.setReturn_mem (s : State) (k : Nat) (r : Return) : (s.setReturn k r).mem = s.mem := rfl
theorem State.setReturn_pccs (s : State) (k : Nat) (r : Return) : (s.setReturn k r).pccs = s.pccs := rfl
theorem State.setReturn_pending (s : State) (k : Nat) (r : Return) : (s.setReturn k r).pending = s.pending := rfl
theorem State.setReturn_epoch (s : State) (k : Nat) (r : Return) (pc : Nat) : (s.setReturn k r).epoch pc = s.epoch pc := rfl
theorem State.setReturn_rawSector (s : State) (k : Nat) (r : Return) (pc b row c : Nat) :
    (s.setReturn k r).rawSector pc b row c = s.rawSector pc b row c := rfl
theorem State.tfind_setReturn (s : State) (k : Nat) (r : Return) : tfind (s.setReturn k r).returns k = some r := tfind_tset_same _ _ _

theorem State.stackReset_eq (s : State) (k cause : Nat) (rep : StackReport) : s.stackReset k cause rep
    = (s.offTraining k cause).setReturn k ⟨(s.offTraining k cause).clk.now + (2 + rep.trainUs) * tickUs, rep, none, false⟩ := by
  simp only [State.stackReset, State.offTraining, State.setReturn]

theorem State.stackReset_shows (s : State) (hk : k < 8) (hc : cause < 8) (rep : StackReport) : (s.stackReset k cause rep).link k = 2
    ∧ (s.stackReset k cause rep).fget F.scLinkStat_cause [k] = cause ∧ (s.stackReset k cause rep).fget F.pkInt_stack_off = 1
    ∧ (trising s.regs = true →
        (s.stackReset k cause rep).fget F.scLinkStat_resets [k] = min (s.fget F.scLinkStat_resets [k] + 1) 65535) := by
  obtain ⟨why, flag, count⟩ := s.stackOff_shows hk hc
  obtain ⟨link, -, why', count', flag'⟩ := (s.stackOff k cause).setLink_low_fields k 2
  rw [s.stackReset_eq k cause rep]
  have regs := fun a => congrArg (tfind · a) ((s.offTraining k cause).setReturn_regs k
    ⟨(s.offTraining k cause).clk.now + (2 + rep.trainUs) * tickUs, rep, none, false⟩)
  exact ⟨(State.fget_of_tfind (regs _)).trans link, (State.fget_of_tfind (regs _)).trans (why'.trans why),
    (State.fget_of_tfind (regs _)).trans (flag'.trans flag),
    fun rising => (State.fget_of_tfind (regs _)).trans (count'.trans (count rising))⟩

/-- Without gathers a reset is done at once, and touches neither the other stacks nor the stored sectors. -/
theorem State.stackReset_calm (h : s.noGather) (hk : k < 8) (cause : Nat) (rep : StackReport) :
    (s.offTraining k cause).clk = s.clk ∧ (s.stackReset k cause rep).mem = s.mem ∧ (s.stackReset k cause rep).clk = s.clk
      ∧ (∀ j < 8, j ≠ k → (s.stackReset k cause rep).link j = s.link j)
      ∧ ∀ i < 64, ∃ p : Pcc, (s.stackReset k cause rep).pcc (64 * k + i) = p.restart := by
  obtain ⟨late, links⟩ := State.stackOff_calm h hk cause
  have trained : (s.emptied k cause).Follows (fieldMask lateFields) (s.offTraining k cause) := State.setLink_follows k 2 late rfl
  have early := s.emptied_follows k cause
  have clk : (s.offTraining k cause).clk = s.clk := (trained.kept .clk rfl).trans (early.kept .clk rfl)
  have mem : (s.offTraining k cause).mem = s.mem := (trained.kept .mem rfl).trans (early.kept .mem rfl)
  have pccs : (s.offTraining k cause).pccs = (s.emptied k cause).pccs := trained.kept .pccs rfl
  obtain ⟨-, others, -⟩ := (s.stackOff k cause).setLink_low_fields k 2
  rw [s.stackReset_eq k cause rep, State.setReturn_mem, State.setReturn_clk]
  refine ⟨clk, mem, clk, fun j hj ne => ?_, fun i hi => ?_⟩
  · refine (State.link_of_regs (State.setReturn_regs _ _ _) j).trans ((others j ne).trans ((links j hj).trans ?_))
    exact State.fget_of_tfind ((s.tfind_offShown hj k cause).trans (s.tfind_offStat_other cause hj ne))
  · obtain ⟨p, hp⟩ := State.pcc_offQueues ((s.offShown k cause).offPort k) k hi
    refine ⟨p, ?_⟩
    rw [State.pcc, State.setReturn_pccs, pccs]
    exact hp

end

/-! ## The fill of a stack (R245 step 4, R309) -/

section
variable {s u : State} {k : Nat}

theorem tget_epochs_advance (base : Nat) : ∀ (ns : List Nat) (m : Table Nat) {i : Nat}, ns.Nodup → i ∈ ns →
    tget 0 (ns.foldl (fun m i => tput 0 m (base + i) ((tget 0 m (base + i) + 1) % 16)) m) (base + i) = (tget 0 m (base + i) + 1) % 16
  | n :: ns, m, i, distinct, hi => by
    obtain ⟨fresh, rest⟩ := List.nodup_cons.mp distinct
    rw [List.foldl_cons]
    by_cases same : i = n
    · subst same
      have far : ∀ x ∈ ns, base + x ≠ base + i := fun x hx e => fresh (Nat.add_left_cancel e ▸ hx)
      rw [tget_epochs_other (fun m i => (tget 0 m (base + i) + 1) % 16) base (base + i) ns _ far, tget_tput_same]
    · rw [tget_epochs_advance base ns _ rest ((List.mem_cons.mp hi).resolve_left same), tget_tput_other _ _ _ _ (by omega)]

theorem State.epoch_fillStack (s : State) (k : Nat) {i : Nat} (hi : i < 64) :
    (s.fillStack k).epoch (64 * k + i) = (s.epoch (64 * k + i) + 1) % 16 := by
  have advance := tget_epochs_advance (64 * k) (List.range 64) s.epochs List.nodup_range (List.mem_range.mpr hi)
  simpa only [State.fillStack, State.epoch] using advance

theorem sectorIndex_parts {pc b row c : Nat} (hb : b < 64) (hrow : row < 24576) (hc : c < 32) :
    sectorIndex pc b row c / (24576 * 64 * 32) = pc ∧ sectorIndex pc b row c / (24576 * 32) % 64 = b
      ∧ sectorIndex pc b row c / 32 % 24576 = row ∧ sectorIndex pc b row c % 32 = c := by
  unfold sectorIndex
  omega

theorem fillSector_sectorIndex (epochs : Table Nat) {pc b row c : Nat} (hb : b < 64) (hrow : row < 24576) (hc : c < 32) :
    fillSector epochs (sectorIndex pc b row c) = encodeSector (coordA pc b row c (tget 0 epochs pc)) true 0 := by
  obtain ⟨hpc, hbank, hr, hcol⟩ := sectorIndex_parts (pc := pc) hb hrow hc
  rw [fillSector, hpc, hbank, hr, hcol]

/-- A sector none of whose cells is listed holds the fill. -/
theorem State.rawSector_of_unlisted {pc b row c : Nat} (h : ∀ x ∈ s.mem, x.1 / 64 ≠ sectorIndex pc b row c) :
    s.rawSector pc b row c = fillSector s.epochs (sectorIndex pc b row c) := by
  unfold State.rawSector
  exact if_neg (by simpa using h)

/-- Every sector of a filled stack reads as poison. -/
theorem State.poison_of_filled (h : ∀ x ∈ s.mem, x.1 / 64 / (24576 * 64 * 32) / 64 ≠ k) {i b row c : Nat} (hi : i < 64) (hb : b < 64)
    (hrow : row < 24576) (hc : c < 32) :
    (decodeSector (coordA (64 * k + i) b row c (s.epoch (64 * k + i))) (s.rawSector (64 * k + i) b row c)).1 = .poison := by
  rw [State.rawSector_of_unlisted, fillSector_sectorIndex _ hb hrow hc]
  · exact decodeSector_encode_poison _ _
  · intro x hx e
    have := (sectorIndex_parts (pc := 64 * k + i) hb hrow hc).1
    refine h x hx ?_
    rw [e, this]
    omega

/-- The fill takes its time from the clock as the training ends. -/
theorem State.startFill_eq (s : State) (k : Nat) (rep : StackReport) (pcs : List Nat) :
    s.startFill k rep pcs = (s.fillStack k).setReturn k ⟨s.clk.now + s.fillTicks, rep, some pcs, false⟩ := rfl

theorem State.fillStack_pending (s : State) (k : Nat) : (s.fillStack k).pending = s.pending := rfl

theorem State.returnStack_of_training {r : Return} (h : tfind s.returns k = some r) (hf : r.fill = none) :
    s.returnStack k = s.trainDone k r.rep := by
  simp only [State.returnStack, h, hf]

theorem State.returnStack_of_good {r : Return} {pcs : List Nat} (h : tfind s.returns k = some r) (hf : r.fill = none)
    (good : s.train k r.rep = (u, some pcs)) : s.returnStack k = u.startFill k r.rep pcs := by
  simp only [State.returnStack_of_training h hf, State.trainDone, good]

theorem State.returnStack_of_bad {r : Return} (h : tfind s.returns k = some r) (hf : r.fill = none)
    (bad : s.train k r.rep = (u, none)) : s.returnStack k = { u with returns := tdel u.returns k } := by
  simp only [State.returnStack_of_training h hf, State.trainDone, bad]

theorem State.returnStack_of_filled {r : Return} {pcs : List Nat} (h : tfind s.returns k = some r) (hf : r.fill = some pcs)
    (wait : r.copying = false) : s.returnStack k = s.fillOver k r := by
  simp only [State.returnStack, h, hf, wait, Bool.false_eq_true, if_false]

theorem State.train_pending {x : Option (List Nat)} {rep : StackReport} (h : s.train k rep = (u, x)) : u.pending = s.pending := by
  have law := State.train_follows (μ := 0x80000504002) k rep (.refl _ s) rfl
  rw [h] at law
  exact law.queue

end

/-! ## The statement -/

/-- Settles O52: what a reset shows and empties, and the stages of the return. -/
theorem stacksReset : Obligations.StacksReset := by
  intro s k hk
  refine ⟨fun cause rep c hcmd => ?reset, fun rep h1 h2 h3 => ?still, fun r u pcs hr hf good => ?good, fun r u hr hf bad => ?bad,
    fun r pcs hr hf wait => ?filled⟩
  case reset =>
    have run : exec c s = .next (s.stackReset k cause rep) := by
      rcases hcmd with ⟨rfl, rfl⟩ | ⟨rfl, rfl, on⟩
      · exact exec_sreset hk rep s
      · exact exec_clockLoss_of_clocked hk on
    have small : cause < 8 := by rcases hcmd with ⟨-, rfl⟩ | ⟨-, rfl, -⟩ <;> decide
    have keys : (s.stackReset k cause rep).keys = s.keys := by
      have stays : Field.keys ∉ mayChange c := by
        rcases hcmd with ⟨rfl, -⟩ | ⟨rfl, -⟩ <;> simp [mayChange, Field.access]
      exact (exec_follows c run).kept .keys (fieldMask_not_mem stays)
    obtain ⟨link, why, flag, count⟩ := s.stackReset_shows hk small rep
    refine ⟨_, run, link, why, flag, count, keys, ⟨_, by rw [State.stackReset_eq, State.tfind_setReturn]⟩, fun none' => ?_⟩
    obtain ⟨start, mem, clk, others, queues⟩ := State.stackReset_calm none' hk cause rep
    refine ⟨?_, fun i hi => ?_, others, mem, clk⟩
    · rw [State.stackReset_eq, State.tfind_setReturn, start]
    · obtain ⟨p, hp⟩ := queues i hi
      rw [hp]
      exact p.restart_queues
  case still => rw [exec_clockLoss hk, if_neg (by simp [h1, h2, h3])]
  case good =>
    intro t
    have ht : t = u.startFill k r.rep pcs := State.returnStack_of_good hr hf good
    have far : ∀ x ∈ (u.fillStack k).mem, x.1 / 64 / (24576 * 64 * 32) / 64 ≠ k := fun x hx =>
      of_decide_eq_true (List.mem_filter.mp hx).2
    rw [ht, State.startFill_eq, State.tfind_setReturn, State.setReturn_pending, State.fillStack_pending, State.setReturn_mem]
    refine ⟨rfl, State.train_pending good, fun i hi => ?_, fun i hi b hb row hrow c hc => ?_,
      fun c hc ne => List.mem_filter.mpr ⟨hc, decide_eq_true ne⟩⟩
    · rw [State.setReturn_epoch, u.epoch_fillStack k hi]
    · rw [State.setReturn_epoch, State.setReturn_rawSector]
      exact State.poison_of_filled far hi hb hrow hc
  case bad => exact State.returnStack_of_bad hr hf bad
  case filled =>
    rw [State.returnStack_of_filled hr hf wait, State.fillOver, hf]

end Sys2Proof.Machine
end
